-- ==== Sys2Proof/Word.lean ====
section
/-! DEFINITION. The word types of the JX12 and their plainest arithmetic (R2, R44, R83). -/

namespace Sys2Proof

/-- A byte of memory. -/
abbrev Byte := BitVec 8

/-- A 64-bit word: a g register, an address, a control and status register (R15, R83). -/
abbrev Word := BitVec 64

/-- A 256-bit vector register (R83). -/
abbrev Vec := BitVec 256

/-- One byte of memory at a location; the host's own pair type. -/
abbrev Cells := List (Nat × Byte)

/-- The n-bit unsigned integer with value `x` modulo 2^n, read back as a natural number. -/
def wrapN (n x : Nat) : Nat := x % 2 ^ n

/-- `x` modulo 2^n as an n-bit pattern (the helper wrap of R123 and R147). -/
def wrapI (n : Nat) (x : Int) : Nat := (x % (2 ^ n : Nat)).toNat

/-- The two's complement reading of an n-bit pattern (the helper s of R123 and R147). -/
def sInt (n x : Nat) : Int := if x < 2 ^ (n - 1) then (x : Int) else (x : Int) - (2 ^ n : Nat)

/-- `x` clamped to the signed range of width `n`, as an n-bit pattern (R44, satS of R147). -/
def satS (n : Nat) (x : Int) : Nat :=
  wrapI n (max (-(2 ^ (n - 1) : Nat) : Int) (min ((2 ^ (n - 1) : Nat) - 1 : Int) x))

/-- `x` clamped to the unsigned range of width `n`, as an n-bit pattern (satU of R147). -/
def satU (n : Nat) (x : Int) : Nat := (max 0 (min ((2 ^ n : Nat) - 1 : Int) x)).toNat

/-- Bits [lo + n - 1 : lo] of `x`. -/
def bits (x lo n : Nat) : Nat := x / 2 ^ lo % 2 ^ n

/-- Bit `i` of `x`. -/
def bit (x i : Nat) : Bool := x / 2 ^ i % 2 == 1

/-- Round `x` down to a multiple of `n`. -/
def alignDown (x n : Nat) : Nat := x / n * n

/-- The least multiple of `n` at or above `x`. -/
def alignUp (x n : Nat) : Nat := (x + n - 1) / n * n

end Sys2Proof
end

