-- ==== Sys2Proof/Syntax.lean ====
section
/-! DEFINITION. The whole instruction set: one constructor of `Instr` per row of the opcode table (R103). Rows with an
encoding carry the fields the row names; rows without one are steps of the machine's other agents
(95_what_each_step_holds) and carry what arrives from outside. -/

namespace Sys2Proof

/-- A 4-bit g register field (R83). -/
abbrev GReg := Fin 16

/-- A 5-bit vector operand code: l0 to l3, k0 to k7, v0 to v19 (R84). -/
abbrev VCode := Fin 32

/-- Order codes (R102). -/
inductive Order where
  | rlx | acq | rel | ar
deriving DecidableEq, Repr

/-- Agent scope codes (R102). -/
inductive AgentScope where
  | ctx | core | clu | die | mod | pod
deriving DecidableEq, Repr

/-- Storage scope codes (R102). -/
inductive Storage where
  | spad | hbm | host | all
deriving DecidableEq, Repr

/-- Access size of an AT instruction: 32 or 64 bits (R100). -/
inductive AtSize where
  | w | x
deriving DecidableEq, Repr

/-- Fence kinds (R189). -/
inductive FenceKind where
  | acq | rel | ar | sc
deriving DecidableEq, Repr

/-- Rounding modes, field rnd2 (R49). -/
inductive Rnd where
  | rne | rtz | sr | sat
deriving DecidableEq, Repr

/-- Transpose qualifier of TLD and CPY (R233, R271). -/
inductive Transpose where
  | none | t8 | t16
deriving DecidableEq, Repr

/-- Control codes of TMMA (R235). -/
inductive TmmaCtl where
  | ovw | acc | fade | sub
deriving DecidableEq, Repr

/-- PACK and UNPACK qualifiers of CPY (R271). -/
inductive PackMode where
  | none | pack | unpack
deriving DecidableEq, Repr

/-- Lift operators of the grammar sequencer, codes 0 to 14 (R251). -/
inductive LiftOp where
  | addw | min | max | minn | maxn | and | or | xor | count | faddg | fmin | fmax | dot | satadd | sub
deriving DecidableEq, Repr

/-! ### Operand shapes of the encoded rows (R87, R96, R99, R159, R180, R188, R230, R255, R271, R272, R325) -/

/-- SV: source code, k register and short type. -/
structure SvArgs where
  src : Fin 8
  kd  : Fin 8
  ty  : Fin 8
deriving DecidableEq, Repr

/-- SS with a source register. -/
structure SsArgs where
  gs : GReg
  gd : GReg
deriving DecidableEq, Repr

/-- SS with a 4-bit immediate. -/
structure SsImmArgs where
  imm : BitVec 4
  gd  : GReg
deriving DecidableEq, Repr

/-- SB: displacement and tested register. -/
structure SbArgs where
  disp : BitVec 7
  gs   : GReg
deriving DecidableEq, Repr

/-- SALU with two sources. -/
structure SaluArgs where
  gb : GReg
  ga : GReg
  gd : GReg
deriving DecidableEq, Repr

/-- SALU with one source (CLZ, CTZ, POPC). -/
structure Salu1Args where
  ga : GReg
  gd : GReg
deriving DecidableEq, Repr

/-- SIMM with a 14-bit immediate. -/
structure SimmArgs where
  imm : BitVec 14
  ga  : GReg
  gd  : GReg
deriving DecidableEq, Repr

/-- SIMM shifts: the amount is the low six bits of imm14 (R132). -/
structure ShiftArgs where
  k  : Fin 64
  ga : GReg
  gd : GReg
deriving DecidableEq, Repr

/-- BR kinds 0 to 5. -/
structure BrArgs where
  disp : BitVec 16
  gb   : GReg
  ga   : GReg
deriving DecidableEq, Repr

/-- VA with two sources (R95). -/
structure VaArgs where
  vb   : VCode
  va   : VCode
  vd   : VCode
  mask : Fin 8
  agn  : Bool
  ty   : Fin 8
deriving DecidableEq, Repr

/-- VA with one source: VSQRT, VRCP, VEXP2. -/
structure Va1Args where
  va   : VCode
  vd   : VCode
  mask : Fin 8
  agn  : Bool
  ty   : Fin 8
deriving DecidableEq, Repr

/-- VSEL: the mask field selects (R156). -/
structure VselArgs where
  vb   : VCode
  va   : VCode
  vd   : VCode
  mask : Fin 8
  ty   : Fin 8
deriving DecidableEq, Repr

/-- The four conversions (R160). -/
structure CvtArgs where
  rnd  : Rnd
  va   : VCode
  vd   : VCode
  mask : Fin 8
  agn  : Bool
  tb   : Fin 8
  ta   : Fin 8
deriving DecidableEq, Repr

/-- VQUANT (R161). -/
structure VquantArgs where
  rnd : Rnd
  ga  : GReg
  gd  : GReg
  tb  : Fin 8
  ta  : Fin 8
deriving DecidableEq, Repr

/-- VDEQ and VCBDEC: a g register or g pair addresses the block (R162, R163). -/
structure VdecArgs where
  rnd  : Rnd
  ga   : GReg
  vd   : VCode
  mask : Fin 8
  agn  : Bool
  tb   : Fin 8
deriving DecidableEq, Repr

/-- VBCAST. -/
structure VbcastArgs where
  ga   : GReg
  vd   : VCode
  mask : Fin 8
  agn  : Bool
  ta   : Fin 8
deriving DecidableEq, Repr

/-- VGET, VPOPM, VFIRST: vector in, g register out. -/
structure VtoGArgs where
  va : VCode
  gd : GReg
  ta : Fin 8
deriving DecidableEq, Repr

/-- VPUT: a g pair gives value and index. -/
structure VputArgs where
  ga : GReg
  vd : VCode
  ta : Fin 8
deriving DecidableEq, Repr

/-- VPERM, VEXPND, VIOTA, VMOV, VCLASS. -/
structure VxArgs where
  va   : VCode
  vd   : VCode
  mask : Fin 8
  agn  : Bool
  ta   : Fin 8
deriving DecidableEq, Repr

/-- VCOMPR. -/
structure VcomprArgs where
  va   : VCode
  vd   : VCode
  mask : Fin 8
  ta   : Fin 8
deriving DecidableEq, Repr

/-- Reductions and the scan: tb selects the table that reads ta (R159). -/
structure VredArgs where
  va   : VCode
  vd   : VCode
  mask : Fin 8
  tb   : Fin 8
  ta   : Fin 8
deriving DecidableEq, Repr

/-- VBMENC. -/
structure VbmencArgs where
  va   : VCode
  gd   : GReg
  mask : Fin 8
  tb   : Fin 8
  ta   : Fin 8
deriving DecidableEq, Repr

/-- VBMDEC. -/
structure VbmdecArgs where
  ga   : GReg
  vd   : VCode
  mask : Fin 8
  agn  : Bool
  tb   : Fin 8
  ta   : Fin 8
deriving DecidableEq, Repr

/-- LD and ST in mode 0 with a g register (R99). -/
structure MemG where
  disp : BitVec 13
  base : GReg
  reg  : GReg
deriving DecidableEq, Repr

/-- LD and ST in mode 0 with a vector operand code. -/
structure MemV where
  disp : BitVec 13
  base : GReg
  reg  : VCode
deriving DecidableEq, Repr

/-- VSTM in mode 0. -/
structure VstmArgs where
  mask : Fin 8
  disp : BitVec 10
  base : GReg
  reg  : VCode
deriving DecidableEq, Repr

/-- LD and ST in mode 1 (handle mode) with a g register: `off` is the slot byte offset over 32, `need` is n - 1. -/
structure HMemG where
  off  : Fin 256
  need : Fin 4
  h    : Fin 8
  reg  : GReg
deriving DecidableEq, Repr

/-- Handle mode with a vector operand code. -/
structure HMemV where
  off  : Fin 256
  need : Fin 4
  h    : Fin 8
  reg  : VCode
deriving DecidableEq, Repr

/-- VSTM in mode 1. -/
structure VstmHArgs where
  mask : Fin 8
  off  : Fin 32
  need : Fin 4
  h    : Fin 8
  reg  : VCode
deriving DecidableEq, Repr

/-- Size, scopes and order of an AT instruction (R96, R102). -/
structure AtMode where
  size    : AtSize
  storage : Storage
  agent   : AgentScope
  order   : Order
deriving DecidableEq, Repr

/-- AT with an address and a result: LDO, TAKE, PEEK, FESTAT. -/
structure AtRdArgs where
  m  : AtMode
  ga : GReg
  gd : GReg
deriving DecidableEq, Repr

/-- AT with an address and data: STO, PUT, FILL. -/
structure AtWrArgs where
  m  : AtMode
  gb : GReg
  ga : GReg
deriving DecidableEq, Repr

/-- AT with an address, data and a result. -/
structure AtArgs where
  m  : AtMode
  gb : GReg
  ga : GReg
  gd : GReg
deriving DecidableEq, Repr

/-- AT with an address only: DRAIN. -/
structure AtAddrArgs where
  m  : AtMode
  ga : GReg
deriving DecidableEq, Repr

/-- TLD (R233). -/
structure TldArgs where
  bolt : Bool
  s    : Bool
  tr   : Transpose
  acc  : Fin 4
  gb   : GReg
  ga   : GReg
  gs   : GReg
deriving DecidableEq, Repr

/-- TST (R234). -/
structure TstArgs where
  bolt : Bool
  s    : Bool
  acc  : Fin 4
  gb   : GReg
  ga   : GReg
  gs   : GReg
deriving DecidableEq, Repr

/-- TMMA (R235). -/
structure TmmaArgs where
  ctl : TmmaCtl
  h   : Bool
  adv : Bool
  acc : Fin 4
  gb  : GReg
  ga  : GReg
  gs  : GReg
deriving DecidableEq, Repr

/-- TWLD (R237). -/
structure TwldArgs where
  chk : Bool
  gb  : GReg
  ga  : GReg
  gs  : GReg
deriving DecidableEq, Repr

/-- TZERO and TVFY: an accumulator tile, or the slot in gb when S is set. -/
structure TileArgs where
  s   : Bool
  acc : Fin 4
  gb  : GReg
  gs  : GReg
deriving DecidableEq, Repr

/-- TSCALE. -/
structure TscaleArgs where
  s   : Bool
  acc : Fin 4
  gb  : GReg
  ga  : GReg
  gs  : GReg
deriving DecidableEq, Repr

/-- An engine command with one operand register and its status register. -/
structure Eng1Args where
  ga : GReg
  gs : GReg
deriving DecidableEq, Repr

/-- An engine command with two operand registers and its status register. -/
structure Eng2Args where
  gb : GReg
  ga : GReg
  gs : GReg
deriving DecidableEq, Repr

/-- CPY (R271): the handle is 0 unless H is set. -/
structure CpyArgs where
  h    : Fin 8
  useH : Bool
  pack : PackMode
  bolt : Bool
  tr   : Transpose
  ga   : GReg
  gs   : GReg
deriving DecidableEq, Repr

/-- CRED (R271). -/
structure CredArgs where
  level : Fin 5
  ga    : GReg
  gs    : GReg
deriving DecidableEq, Repr

/-- GBIND (R255). -/
structure GbindArgs where
  reassoc : Bool
  op      : LiftOp
  y       : Fin 4
  ga      : GReg
  gs      : GReg
deriving DecidableEq, Repr

/-- GEVAL, GLEN, GLOOK. -/
structure GrArgs where
  y  : Fin 4
  gb : GReg
  ga : GReg
  gs : GReg
deriving DecidableEq, Repr

/-- GSPINE, GOCC, GUNF: with the flag SEED, SPLIT or SCAN. -/
structure GrFlagArgs where
  flag : Bool
  y    : Fin 4
  gb   : GReg
  ga   : GReg
  gs   : GReg
deriving DecidableEq, Repr

/-- GLOC. -/
structure GlocArgs where
  y  : Fin 4
  ga : GReg
  gs : GReg
deriving DecidableEq, Repr

/-- GRELEASE. -/
structure GrelArgs where
  y  : Fin 4
  gs : GReg
deriving DecidableEq, Repr

/-- RFMATCH, RFMERGE, RFSHAKE, RFLOGS. -/
structure RfArgs where
  q  : Fin 4
  ga : GReg
  gs : GReg
deriving DecidableEq, Repr

/-- RFFREE. -/
structure RffreeArgs where
  q  : Fin 4
  gs : GReg
deriving DecidableEq, Repr

/-! ### What arrives with the event rows -/

/-- Another member's pending DSPLIT, as the block-level barrier combines it (R29). -/
structure SplitMember where
  lid    : Nat
  rank   : Nat
  colour : BitVec 32
  key    : BitVec 32
deriving DecidableEq, Repr

/-- The full/empty operations that change or wait for a tag (R185, R186). -/
inductive FeKind where
  | take | peek | put | fill | drain | tryTake | tryPut
deriving DecidableEq, Repr

/-- A neuron event with its source (R299). -/
structure NbEvent where
  word    : Word
  srcBank : Nat
  srcNeur : Nat
  pos     : Nat
deriving DecidableEq, Repr

/-- The bits that an error flips in one of the three executions of a TRIPLE unit, from bit 0 of its whole result up: as wide as the
widest result, that of VQUANT (R143). -/
abbrev Strike := BitVec 576

/-- What a soft error strikes (R311, R60, R227): data and check bits as the mask of flipped bits; `detected` says
that more bits flipped than the check bits correct. -/
inductive SoftTarget where
  | spadData (granule : Nat) (flip : Word) (detected : Bool)
  | spadDesc (block : Nat) (flip : BitVec 16)
  | gReg (ctx : Fin 8) (r : GReg)
  | vReg (ctx : Fin 8) (r : VCode)
  | hbmLine (block : Nat) (flip : BitVec 512) (descFlip : BitVec 16) (detected : Bool)
  | wline (line : Nat) (flip : BitVec 512) (detected : Bool)
  | tile (loc : Nat) (flip : Byte)
  | boltrope (tile : Nat) (byte : Nat) (flip : Byte) (detected : Bool)
  | tag (word : Nat) (flip : Bool) (detected : Bool)
  | execution (flip : Strike)
deriving DecidableEq, Repr

/-- Who receives an error reply (R311, R356): a context, or an engine job. -/
inductive ErrTarget where
  | context (c : Fin 8)
  | job (id : Nat)
deriving DecidableEq, Repr

/-- A write that reaches this core's die: its bytes, the number of the die it comes from (12 and above: an agent outside the twelve
dies), the vector clock of twelve components that it carries (R212), and the job whose address-space identifier it bears, if it
bears one (R322). A thirteenth component of a clock is the last number that this core had given (`Visibility.count`) of the releases
that happen before. `release` is there where the write is a release whose scope reaches this core: the narrowest agent scope that holds
both, and its storage scope (R206, R209). -/
structure DieWrite where
  bytes   : List Byte
  die     : Nat
  clock   : List Nat
  job     : Option Nat
  release : Option (AgentScope × Storage) := none
deriving DecidableEq, Repr

/-- A 128-byte pod flit, as received (R345). -/
structure Flit where
  bytes : List Byte
deriving DecidableEq, Repr

/-- One host AtomicOp (R183, R341). -/
inductive AtomicOp where
  | fetchAdd | swap | cas
deriving DecidableEq, Repr

/-- One job's charge in a quantum (R323). -/
structure Charge where
  job        : Nat
  cores      : Nat
  coreCycles : Nat
  active     : Bool
  needs      : Bool
deriving DecidableEq, Repr

/-- One millisecond's readings (R350): drawn power of each island in milliwatts, and, for each of the 48 islands, then the two
link dies, then the twelve HBM domains, the temperature in degrees, the voltage in millivolts and the current in milliamperes;
and the voltage and the current of each power stage, as its telemetry gives them (R354). -/
structure SensorReading where
  powers : List Nat
  temps  : List Nat
  volts  : List Nat
  amps   : List Nat
  stages : List (Nat × Nat)
deriving DecidableEq, Repr

/-- A debug-window register (R310), named as its table names it. -/
inductive DbgReg where
  | ctxSel | maddr | pc | g (r : GReg) | l (r : Fin 4) | k (r : Fin 8) | v (r : Fin 20) | st (j : Fin 8) | h (r : Fin 8)
deriving DecidableEq, Repr

/-- A request of another core at a word of this core's scratchpad (R186), with the die, the clock and the identifier that a write
carries (R212, R322), and its release, as a write has it. -/
structure RemoteFe where
  kind    : FeKind
  word    : Nat
  size    : AtSize
  value   : Word
  origin  : Nat
  die     : Nat
  clock   : List Nat
  job     : Option Nat
  release : Option (AgentScope × Storage) := none
deriving DecidableEq, Repr

/-- A remote tile command as it arrives (R244), with the clock of what happens before it (R210, R212). -/
structure TremCmd where
  cap    : Word
  cmd    : BitVec 32
  opa    : Word
  opb    : Word
  srcMod : Nat
  origin : Nat
  clock  : List Nat := []
deriving DecidableEq, Repr

/-- A packet of another core as it reaches this core's router: the job and the launch in whose exchange it was sent, its 32 bytes, and
the clock of what happens before it (R33, R34, R198, R212). -/
structure Arrival where
  job     : Nat
  launch  : Nat
  payload : Vec
  clock   : List Nat := []
deriving DecidableEq, Repr

/-- What another member of a collective reduction sends: its module, die and logical core, its rank at the level, the number of the
CRED among those it has issued there, the last eight bytes of its descriptor (COUNT, FMTIN, WIRE, RFLG) and its contributions, as
f32 or integer patterns (R284), with the clock of what happens before it (R212, R285). -/
structure CredShare where
  module : Nat
  die    : Nat
  lid    : Nat
  rank   : Nat
  seq    : Nat
  head   : List Byte
  values : List Nat
  clock  : List Nat := []
deriving DecidableEq, Repr

/-- Every row of the opcode table. -/
inductive Instr where
  /-- VADD_SHORT (R88). Short lane add of src into k register kd, with no mask. -/
  | vaddShort (x : SvArgs)
  /-- VSUB_SHORT (R88). Short lane subtract, kd = kd - src. -/
  | vsubShort (x : SvArgs)
  /-- VMUL_SHORT (R88). Short lane multiply of kd by src. -/
  | vmulShort (x : SvArgs)
  /-- VMAC (R88). Short fused multiply-accumulate, kd = kd + src x l0. -/
  | vmac (x : SvArgs)
  /-- VMIN_SHORT (R88). Short lane minimum of kd and src. -/
  | vminShort (x : SvArgs)
  /-- VMAX_SHORT (R88). Short lane maximum of kd and src. -/
  | vmaxShort (x : SvArgs)
  /-- VAND_SHORT (R88). Short lane bitwise and, integer types only. -/
  | vandShort (x : SvArgs)
  /-- VOR_SHORT (R88). Short lane bitwise or, integer types only. -/
  | vorShort (x : SvArgs)
  /-- VXOR_SHORT (R88). Short lane bitwise xor, integer types only. -/
  | vxorShort (x : SvArgs)
  /-- VSHL_SHORT (R88). Short lane shift left, integer types only. -/
  | vshlShort (x : SvArgs)
  /-- VSHR_SHORT (R88). Short lane arithmetic shift right, integer types only. -/
  | vshrShort (x : SvArgs)
  /-- VSHRL_SHORT (R88). Short lane logical shift right, integer types only. -/
  | vshrlShort (x : SvArgs)
  /-- VMOV_SHORT (R88). Short move, kd = src. -/
  | vmovShort (x : SvArgs)
  /-- VNEG (R158). Short lane negation, or sign-bit inversion for floating types. -/
  | vneg (x : SvArgs)
  /-- VABS (R158). Short lane absolute value, or sign-bit clearing for floating types. -/
  | vabs (x : SvArgs)
  /-- VCMPLT_SHORT (R88). Short lane less-than compare writing kd's mask word. -/
  | vcmpltShort (x : SvArgs)
  /-- ADD_SHORT (R90). Short two-address add, gd = gd + gs. -/
  | addShort (x : SsArgs)
  /-- SUB_SHORT (R90). Short two-address subtract, gd = gd - gs. -/
  | subShort (x : SsArgs)
  /-- ADDI4 (R90). Adds a signed 4-bit immediate to gd. -/
  | addi4 (x : SsImmArgs)
  /-- MOV (R90). Copies gs into gd. -/
  | mov (x : SsArgs)
  /-- LI4 (R90). Loads a signed 4-bit immediate into gd. -/
  | li4 (x : SsImmArgs)
  /-- AND_SHORT (R90). Short two-address bitwise and. -/
  | andShort (x : SsArgs)
  /-- OR_SHORT (R90). Short two-address bitwise or. -/
  | orShort (x : SsArgs)
  /-- XOR_SHORT (R90). Short two-address bitwise xor. -/
  | xorShort (x : SsArgs)
  /-- SHLI_SHORT (R90). Short shift left of gd by an unsigned 4-bit amount. -/
  | shliShort (x : SsImmArgs)
  /-- SHRI_SHORT (R90). Short arithmetic shift right of gd by an unsigned 4-bit amount. -/
  | shriShort (x : SsImmArgs)
  /-- SHRLI_SHORT (R90). Short logical shift right of gd by an unsigned 4-bit amount. -/
  | shrliShort (x : SsImmArgs)
  /-- LW16 (R90). Short sign-extended 32-bit load from the address in gs. -/
  | lw16 (x : SsArgs)
  /-- SW16 (R90). Short store of the low 32 bits of gd at the address in gs. -/
  | sw16 (x : SsArgs)
  /-- LX16 (R90). Short 64-bit load from the address in gs. -/
  | lx16 (x : SsArgs)
  /-- SX16 (R90). Short 64-bit store of gd at the address in gs. -/
  | sx16 (x : SsArgs)
  /-- SLT_SHORT (R90). Short signed set-less-than, gd = (gd < gs). -/
  | sltShort (x : SsArgs)
  /-- BEQZ (R91). Short branch when gs is zero. -/
  | beqz (x : SbArgs)
  /-- BNEZ (R91). Short branch when gs is not zero. -/
  | bnez (x : SbArgs)
  /-- BRA (R91). Short unconditional branch. -/
  | bra (disp : BitVec 7)
  /-- BLTZ (R91). Short branch when gs is negative. -/
  | bltz (x : SbArgs)
  /-- NOP (R141). Takes one issue cycle and does nothing else. -/
  | nop
  /-- TRIPLE (R142). Prefix that executes the following long instruction three times and writes the voted result. -/
  | triple
  /-- WIDE (R94). Prefix that widens the immediate or data operand of the following instruction. -/
  | wide (p : BitVec 10)
  /-- YIELD (R141). Hands the issue slot to other ready contexts; a pre-emption point with everything live. -/
  | yield
  /-- ADD (R127). Wrapping 64-bit addition of ga and gb. -/
  | add (x : SaluArgs)
  /-- SUB (R127). Wrapping 64-bit subtraction. -/
  | sub (x : SaluArgs)
  /-- MUL (R127). Low 64 bits of the product. -/
  | mul (x : SaluArgs)
  /-- MULH (R127). High 64 bits of the signed 128-bit product. -/
  | mulh (x : SaluArgs)
  /-- MULHN (R127). High 64 bits of the unsigned 128-bit product. -/
  | mulhn (x : SaluArgs)
  /-- DIV (R128). Signed division rounding toward zero, with fixed results for zero and overflow. -/
  | div (x : SaluArgs)
  /-- DIVN (R128). Unsigned division. -/
  | divn (x : SaluArgs)
  /-- REM (R128). Signed remainder taking the dividend's sign. -/
  | rem (x : SaluArgs)
  /-- REMN (R128). Unsigned remainder. -/
  | remn (x : SaluArgs)
  /-- AND (R127). Bitwise and. -/
  | and (x : SaluArgs)
  /-- OR (R127). Bitwise or. -/
  | or (x : SaluArgs)
  /-- XOR (R127). Bitwise xor. -/
  | xor (x : SaluArgs)
  /-- ANDN (R127). a and not b. -/
  | andn (x : SaluArgs)
  /-- SHL (R127). Shift left by b mod 64. -/
  | shl (x : SaluArgs)
  /-- SHR (R127). Arithmetic shift right by b mod 64. -/
  | shr (x : SaluArgs)
  /-- SHRL (R127). Logical shift right by b mod 64. -/
  | shrl (x : SaluArgs)
  /-- ROL (R127). Rotate left by b mod 64. -/
  | rol (x : SaluArgs)
  /-- SLT (R127). Signed set-less-than. -/
  | slt (x : SaluArgs)
  /-- SLTN (R127). Unsigned set-less-than. -/
  | sltn (x : SaluArgs)
  /-- MIN (R127). Signed minimum. -/
  | min (x : SaluArgs)
  /-- MAX (R127). Signed maximum. -/
  | max (x : SaluArgs)
  /-- MINN (R127). Unsigned minimum. -/
  | minn (x : SaluArgs)
  /-- MAXN (R127). Unsigned maximum. -/
  | maxn (x : SaluArgs)
  /-- CLZ (R127). Counts leading zero bits of ga. -/
  | clz (x : Salu1Args)
  /-- CTZ (R127). Counts trailing zero bits of ga. -/
  | ctz (x : Salu1Args)
  /-- POPC (R127). Counts set bits of ga. -/
  | popc (x : Salu1Args)
  /-- SEL (R127). Selects ga if old gd is nonzero, else gb. -/
  | sel (x : SaluArgs)
  /-- EXTS (R127). Sign-extends ga from bit b mod 64. -/
  | exts (x : SaluArgs)
  /-- EXTZ (R127). Zero-extends ga from bit b mod 64. -/
  | extz (x : SaluArgs)
  /-- BFX (R129). Extracts a bit field whose position and length come from gb. -/
  | bfx (x : SaluArgs)
  /-- BFI (R129). Inserts a bit field into gd. -/
  | bfi (x : SaluArgs)
  /-- ADDS (R127). Saturating signed 64-bit addition. -/
  | adds (x : SaluArgs)
  /-- ADDI (R131). Adds a signed immediate. -/
  | addi (x : SimmArgs)
  /-- ANDI (R131). Bitwise and with a sign-extended immediate. -/
  | andi (x : SimmArgs)
  /-- ORI (R131). Bitwise or with a sign-extended immediate. -/
  | ori (x : SimmArgs)
  /-- XORI (R131). Bitwise xor with a sign-extended immediate. -/
  | xori (x : SimmArgs)
  /-- SHLI (R132). Shift left by an immediate 0 to 63. -/
  | shli (x : ShiftArgs)
  /-- SHRI (R132). Arithmetic shift right by an immediate. -/
  | shri (x : ShiftArgs)
  /-- SHRLI (R132). Logical shift right by an immediate. -/
  | shrli (x : ShiftArgs)
  /-- SLTI (R131). Signed compare with an immediate. -/
  | slti (x : SimmArgs)
  /-- SLTNI (R131). Unsigned compare with the sign-extended immediate. -/
  | sltni (x : SimmArgs)
  /-- LIS (R131). Shifts ga left by 14 or 24 bits and ors in an unsigned immediate. -/
  | lis (x : SimmArgs)
  /-- ADDPC (R131). Adds a signed immediate to the instruction's address. -/
  | addpc (imm : BitVec 14) (gd : GReg)
  /-- MULI (R131). Multiplies by a signed immediate. -/
  | muli (x : SimmArgs)
  /-- BEQ (R136). Branches when ga equals gb. -/
  | beq (x : BrArgs)
  /-- BNE (R136). Branches when ga differs from gb. -/
  | bne (x : BrArgs)
  /-- BLT (R136). Branches when ga is less than gb, signed. -/
  | blt (x : BrArgs)
  /-- BGE (R136). Branches when ga is at least gb, signed. -/
  | bge (x : BrArgs)
  /-- BLTN (R136). Branches when ga is less than gb, unsigned. -/
  | bltn (x : BrArgs)
  /-- BGEN (R136). Branches when ga is at least gb, unsigned. -/
  | bgen (x : BrArgs)
  /-- JAL (R137). Writes the return address into link and jumps PC-relative. -/
  | jal (disp : BitVec 20) (link : GReg)
  /-- JALR (R137). Writes the return address into link and jumps to the address in base. -/
  | jalr (base link : GReg)
  /-- VADD (R150). Lane-wise addition under mask. -/
  | vadd (x : VaArgs)
  /-- VSUB (R150). Lane-wise subtraction. -/
  | vsub (x : VaArgs)
  /-- VMUL (R150). Lane-wise multiplication. -/
  | vmul (x : VaArgs)
  /-- VMULH (R150). High half of the signed lane product. -/
  | vmulh (x : VaArgs)
  /-- VFMA (R150). Fused multiply-add into the destination. -/
  | vfma (x : VaArgs)
  /-- VFMS (R150). Fused multiply-subtract from the destination. -/
  | vfms (x : VaArgs)
  /-- VMIN (R151). Lane-wise signed or floating minimum. -/
  | vmin (x : VaArgs)
  /-- VMAX (R151). Lane-wise signed or floating maximum. -/
  | vmax (x : VaArgs)
  /-- VMINN (R150). Lane-wise unsigned minimum. -/
  | vminn (x : VaArgs)
  /-- VMAXN (R150). Lane-wise unsigned maximum. -/
  | vmaxn (x : VaArgs)
  /-- VAND (R150). Lane-wise bitwise and. -/
  | vand (x : VaArgs)
  /-- VOR (R150). Lane-wise bitwise or. -/
  | vor (x : VaArgs)
  /-- VXOR (R150). Lane-wise bitwise xor. -/
  | vxor (x : VaArgs)
  /-- VSHL (R150). Lane-wise shift left. -/
  | vshl (x : VaArgs)
  /-- VSHR (R150). Lane-wise arithmetic shift right. -/
  | vshr (x : VaArgs)
  /-- VSHRL (R150). Lane-wise logical shift right. -/
  | vshrl (x : VaArgs)
  /-- VADDS (R150). Lane-wise signed saturating addition. -/
  | vadds (x : VaArgs)
  /-- VADDSN (R150). Lane-wise unsigned saturating addition. -/
  | vaddsn (x : VaArgs)
  /-- VSUBS (R150). Lane-wise signed saturating subtraction. -/
  | vsubs (x : VaArgs)
  /-- VABSD (R150). Lane-wise absolute difference. -/
  | vabsd (x : VaArgs)
  /-- VDIV (R152). Correctly rounded lane-wise division. -/
  | vdiv (x : VaArgs)
  /-- VSQRT (R152). Correctly rounded lane-wise square root. -/
  | vsqrt (x : Va1Args)
  /-- VRCP (R152). Correctly rounded lane-wise reciprocal. -/
  | vrcp (x : Va1Args)
  /-- VEXP2 (R154). Lane-wise 2 to the power a by the reference algorithm. -/
  | vexp2 (x : Va1Args)
  /-- VSCALE (R153). Multiplies each lane by 2 to an integer power. -/
  | vscale (x : VaArgs)
  /-- VCMPEQ (R155). Lane-wise equality compare writing a mask word. -/
  | vcmpeq (x : VaArgs)
  /-- VCMPLT (R155). Lane-wise less-than compare writing a mask word. -/
  | vcmplt (x : VaArgs)
  /-- VCMPLE (R155). Lane-wise less-or-equal compare writing a mask word. -/
  | vcmple (x : VaArgs)
  /-- VCMPLTN (R155). Lane-wise unsigned less-than compare. -/
  | vcmpltn (x : VaArgs)
  /-- VSEL (R156). Selects each element from va or vb by the mask word. -/
  | vsel (x : VselArgs)
  /-- VDOT4 (R157). Four-term 8-bit floating dot products accumulated into f32 lanes. -/
  | vdot4 (x : VaArgs)
  /-- VDOT2 (R157). Two-term 16-bit floating dot products accumulated into f32 lanes. -/
  | vdot2 (x : VaArgs)
  /-- VCVTFF (R160). Converts floating elements to another floating format. -/
  | vcvtff (x : CvtArgs)
  /-- VCVTFI (R160). Converts floating elements to integers with saturation. -/
  | vcvtfi (x : CvtArgs)
  /-- VCVTIF (R160). Converts integer elements to a floating format. -/
  | vcvtif (x : CvtArgs)
  /-- VCVTII (R160). Converts integer elements between widths, wrapping or saturating. -/
  | vcvtii (x : CvtArgs)
  /-- VQUANT (R161). Quantises one scratchpad block to a scaled format and returns its descriptor. -/
  | vquant (x : VquantArgs)
  /-- VDEQ (R162). Dequantises part of a scaled scratchpad block into a vector. -/
  | vdeq (x : VdecArgs)
  /-- VBCAST (R165). Broadcasts the low bits of ga into every active element. -/
  | vbcast (x : VbcastArgs)
  /-- VGET (R165). Reads the element indexed by old gd into gd. -/
  | vget (x : VtoGArgs)
  /-- VPUT (R165). Replaces one element of vd with the low bits of gN. -/
  | vput (x : VputArgs)
  /-- VPERM (R165). Permutes va by indices held in the old destination. -/
  | vperm (x : VxArgs)
  /-- VCOMPR (R165). Packs the active elements of va to the low end. -/
  | vcompr (x : VcomprArgs)
  /-- VEXPND (R165). Spreads consecutive elements of va into active positions. -/
  | vexpnd (x : VxArgs)
  /-- VREDADD (R166). Tree sum of the elements into element 0. -/
  | vredadd (x : VredArgs)
  /-- VREDMAX (R166). Tree maximum of the elements into element 0. -/
  | vredmax (x : VredArgs)
  /-- VREDMIN (R166). Tree minimum of the elements into element 0. -/
  | vredmin (x : VredArgs)
  /-- VSCANADD (R166). Sequential inclusive prefix sum. -/
  | vscanadd (x : VredArgs)
  /-- VMASK (R165). Loads a 32-bit mask word from ga into a vector register. -/
  | vmask (ga : GReg) (vd : VCode)
  /-- VPOPM (R167). Counts set bits of the mask word into gd. -/
  | vpopm (x : VtoGArgs)
  /-- VFIRST (R167). Finds the lowest set mask bit into gd. -/
  | vfirst (x : VtoGArgs)
  /-- VIOTA (R167). Writes running counts of set mask bits. -/
  | viota (x : VxArgs)
  /-- VBMENC (R168). Builds a bitmap leaf word of nonzero elements. -/
  | vbmenc (x : VbmencArgs)
  /-- VBMDEC (R168). Expands packed values by a bitmap leaf word. -/
  | vbmdec (x : VbmdecArgs)
  /-- VCBDEC (R163). Decodes codebook weights from scratchpad into a vector. -/
  | vcbdec (x : VdecArgs)
  /-- VMOV (R165). Copies va under a mask of the given element width. -/
  | vmov (x : VxArgs)
  /-- VRNDSEED (R170). Writes the stochastic generator states from va. -/
  | vrndseed (va : VCode) (mask : Fin 8)
  /-- VCLASS (R169). Classifies each floating element. -/
  | vclass (x : VxArgs)
  /-- LB (R171). Loads a sign-extended byte. -/
  | lb (x : MemG)
  /-- LBN (R171). Loads a zero-extended byte. -/
  | lbn (x : MemG)
  /-- LH (R171). Loads a sign-extended half. -/
  | lh (x : MemG)
  /-- LHN (R171). Loads a zero-extended half. -/
  | lhn (x : MemG)
  /-- LW (R171). Loads a sign-extended word. -/
  | lw (x : MemG)
  /-- LWN (R171). Loads a zero-extended word. -/
  | lwn (x : MemG)
  /-- LX (R171). Loads 8 bytes. -/
  | lx (x : MemG)
  /-- VLD (R171). Loads 32 aligned bytes into a vector register. -/
  | vld (x : MemV)
  /-- VLDB (R171). Loads 32 bytes at any byte address into a vector register. -/
  | vldb (x : MemV)
  /-- LDESC (R176). Reads a block's 16-bit descriptor. -/
  | ldesc (x : MemG)
  /-- LB_HANDLE (R177). Handle-mode sign-extended byte load after waiting for filled slots. -/
  | lbHandle (x : HMemG)
  /-- LBN_HANDLE (R177). Handle-mode zero-extended byte load. -/
  | lbnHandle (x : HMemG)
  /-- LH_HANDLE (R177). Handle-mode sign-extended half load. -/
  | lhHandle (x : HMemG)
  /-- LHN_HANDLE (R177). Handle-mode zero-extended half load. -/
  | lhnHandle (x : HMemG)
  /-- LW_HANDLE (R177). Handle-mode sign-extended word load. -/
  | lwHandle (x : HMemG)
  /-- LWN_HANDLE (R177). Handle-mode zero-extended word load. -/
  | lwnHandle (x : HMemG)
  /-- LX_HANDLE (R177). Handle-mode 8-byte load. -/
  | lxHandle (x : HMemG)
  /-- VLD_HANDLE (R177). Handle-mode 32-byte vector load. -/
  | vldHandle (x : HMemV)
  /-- VLDB_HANDLE (R177). Handle-mode 32-byte unaligned vector load. -/
  | vldbHandle (x : HMemV)
  /-- SB (R171). Stores the low byte of a g register. -/
  | sb (x : MemG)
  /-- SH (R171). Stores the low half of a g register. -/
  | sh (x : MemG)
  /-- SW (R171). Stores the low word of a g register. -/
  | sw (x : MemG)
  /-- SX (R171). Stores 8 bytes of a g register. -/
  | sx (x : MemG)
  /-- VST (R171). Stores 32 bytes of a vector register. -/
  | vst (x : MemV)
  /-- VSTM (R172). Stores the bytes of a vector register selected by a byte mask. -/
  | vstm (x : VstmArgs)
  /-- SDESC (R176). Writes a block's 16-bit descriptor. -/
  | sdesc (x : MemG)
  /-- SB_HANDLE (R177). Handle-mode byte store after waiting for free slots. -/
  | sbHandle (x : HMemG)
  /-- SH_HANDLE (R177). Handle-mode half store. -/
  | shHandle (x : HMemG)
  /-- SW_HANDLE (R177). Handle-mode word store. -/
  | swHandle (x : HMemG)
  /-- SX_HANDLE (R177). Handle-mode 8-byte store. -/
  | sxHandle (x : HMemG)
  /-- VST_HANDLE (R177). Handle-mode 32-byte vector store. -/
  | vstHandle (x : HMemV)
  /-- VSTM_HANDLE (R177). Handle-mode byte-masked vector store. -/
  | vstmHandle (x : VstmHArgs)
  /-- LDO (R181). Ordered load of a 32- or 64-bit word. -/
  | ldo (x : AtRdArgs)
  /-- STO (R181). Ordered store of a 32- or 64-bit word. -/
  | sto (x : AtWrArgs)
  /-- SWAP (R181). Atomic exchange returning the old value. -/
  | swap (x : AtArgs)
  /-- CAS (R181). Atomic compare-and-swap against old gd. -/
  | cas (x : AtArgs)
  /-- FADD (R181). Atomic wrapping fetch-and-add. -/
  | fadd (x : AtArgs)
  /-- FAND (R181). Atomic fetch-and-and. -/
  | fand (x : AtArgs)
  /-- FOR (R181). Atomic fetch-and-or. -/
  | atFor (x : AtArgs)
  /-- FXOR (R181). Atomic fetch-and-xor. -/
  | fxor (x : AtArgs)
  /-- FMIN (R181). Atomic signed fetch-and-minimum. -/
  | fmin (x : AtArgs)
  /-- FMAX (R181). Atomic signed fetch-and-maximum. -/
  | fmax (x : AtArgs)
  /-- FMINN (R181). Atomic unsigned fetch-and-minimum. -/
  | fminn (x : AtArgs)
  /-- FMAXN (R181). Atomic unsigned fetch-and-maximum. -/
  | fmaxn (x : AtArgs)
  /-- FADDF (R181). Atomic floating fetch-and-add with RNE. -/
  | faddf (x : AtArgs)
  /-- TAKE (R185). Waits for a full word, returns it and marks it empty. -/
  | take (x : AtRdArgs)
  /-- PEEK (R185). Waits for a full word and returns it, leaving the tag. -/
  | peek (x : AtRdArgs)
  /-- PUT (R185). Waits for an empty word, writes it and marks it full. -/
  | put (x : AtWrArgs)
  /-- TRYTAKE (R185). Takes a full word if one is available without waiting, returning a flag. -/
  | trytake (x : AtArgs)
  /-- TRYPUT (R185). Puts into an empty word if possible without waiting, returning a flag. -/
  | tryput (x : AtArgs)
  /-- FILL (R185). Writes a word and marks it full whatever its tag. -/
  | fill (x : AtWrArgs)
  /-- DRAIN (R185). Marks a word empty, leaving its value. -/
  | drain (x : AtAddrArgs)
  /-- FESTAT (R185). Returns the full/empty tag bits of a word or pair. -/
  | festat (x : AtRdArgs)
  /-- FENCE (R189). Orders earlier and later accesses within its scopes; sc also waits for visibility. -/
  | fence (kind : FenceKind) (storage : Storage) (agent : AgentScope)
  /-- WATCH (R190). Arms a watch-table entry on a word and returns its index. -/
  | watch (ga gd : GReg)
  /-- WAITW (R191). Sleeps until a watch entry fires, a wake-up notice arrives or a timeout passes. -/
  | waitw (gb gd : GReg)
  /-- UNWATCH (R193). Disarms the context's entry for a word, or all its entries. -/
  | unwatch (all : Bool) (ga : GReg)
  /-- YIELDX (R194). Yields and then stays not ready for at least gb cycles. -/
  | yieldx (gb : GReg)
  /-- BSYNC (R196). Contributes to a barrier at a level and enters the exchange phase. -/
  | bsync (level : Fin 5) (storage : Storage)
  /-- XSEND (R197). Sends a 32-byte packet to another member of the exchange domain. -/
  | xsend (gb ga : GReg)
  /-- XRECV (R198). Takes the oldest received packet into scratchpad, or returns a zero flag. -/
  | xrecv (ga gd : GReg)
  /-- XEND (R199). Contributes the count sent and leaves the exchange phase when all are delivered. -/
  | xend (storage : Storage)
  /-- CBINIT (R202). Configures or unconfigures a circular-buffer handle. -/
  | cbinit (h : Fin 8) (gb ga : GReg)
  /-- CBWAIT (R203). Sleeps until a handle has a stated fill or free count. -/
  | cbwait (free : Bool) (h : Fin 8) (gb gd : GReg)
  /-- CBADV (R203). Pops slots from a handle. -/
  | cbadv (h : Fin 8) (gb : GReg)
  /-- CBPUSH (R203). Pushes slots into a handle. -/
  | cbpush (h : Fin 8) (gb : GReg)
  /-- PUBL (R205). Closes a published buffer and requests a front/shadow swap. -/
  | publ (agent : AgentScope) (ga gd : GReg)
  /-- TICK (R195). Reads the pod tick counter after earlier instructions retire. -/
  | tick (gd : GReg)
  /-- WAITT (R195). Sleeps until the tick counter reaches a deadline. -/
  | waitt (ga gd : GReg)
  /-- DSPLIT (R200). Supplies a colour and key for regrouping the block domain. -/
  | dsplit (gb ga : GReg)
  /-- TLD (R233). Enqueues a tile load into an accumulator or slot, optionally checked and transposed. -/
  | tld (x : TldArgs)
  /-- TST (R234). Enqueues a checked store of an accumulator or slot tile. -/
  | tst (x : TstArgs)
  /-- TMMA (R235). Enqueues a checked 16x16 multiply into an accumulator tile. -/
  | tmma (x : TmmaArgs)
  /-- TWLD (R237). Enqueues a load of lines into the weight buffer, optionally verified. -/
  | twld (x : TwldArgs)
  /-- TCBT (R238). Enqueues a load of the cluster's codebook pattern table. -/
  | tcbt (x : Eng1Args)
  /-- TZERO (R239). Enqueues zeroing of a tile and its boltrope. -/
  | tzero (x : TileArgs)
  /-- TSCALE (R240). Enqueues a checked multiplication of a floating tile by a factor. -/
  | tscale (x : TscaleArgs)
  /-- TVFY (R241). Enqueues an on-demand check of a tile against its boltrope. -/
  | tvfy (x : TileArgs)
  /-- TREM (R244). Sends one tile command to a remote engine under a capability. -/
  | trem (x : Eng2Args)
  /-- TCAP (R243). Grants and writes a capability over own accumulator tiles. -/
  | tcap (x : Eng2Args)
  /-- TCFG (R242). Enqueues replacement of the core's tile configuration. -/
  | tcfg (x : Eng2Args)
  /-- CPY (R276). Enqueues a strided copy, optionally transposed, checked, packed, unpacked or into a handle. -/
  | cpy (x : CpyArgs)
  /-- CGATHER (R281). Enqueues a gather through an index list. -/
  | cgather (x : Eng1Args)
  /-- CSCATTER (R281). Enqueues a scatter through an index list. -/
  | cscatter (x : Eng1Args)
  /-- CRED (R284). Enqueues a collective reduction over the domain at a level. -/
  | cred (x : CredArgs)
  /-- CQPUT (R287). Enqueues an append of a 64-byte packet to a user-mode queue. -/
  | cqput (x : Eng2Args)
  /-- CDEP (R288). Records pending jobs of named status registers as predecessors of the next command. -/
  | cdep (x : Eng2Args)
  /-- CCANCEL (R289). Cancels the job pending in a status register. -/
  | ccancel (gs : GReg)
  /-- GBIND (R259). Enqueues binding of a grammar handle to a descriptor and lift operator. -/
  | gbind (x : GbindArgs)
  /-- GEVAL (R260). Enqueues evaluation of a rule range into the RRT. -/
  | geval (x : GrArgs)
  /-- GLEN (R261). Enqueues filling of the rule-length table for a rule range. -/
  | glen (x : GrArgs)
  /-- GSPINE (R262). Enqueues a left-to-right reduction of spine symbols or matrix rows. -/
  | gspine (x : GrFlagArgs)
  /-- GOCC (R263). Enqueues writing of biased occurrence records, from the spine or by splitting. -/
  | gocc (x : GrFlagArgs)
  /-- GUNF (R264). Enqueues expansion of a symbol into terminals or running scan values. -/
  | gunf (x : GrFlagArgs)
  /-- GLOC (R265). Enqueues location of the terminal at a position of a spine segment. -/
  | gloc (x : GlocArgs)
  /-- GLOOK (R266). Enqueues a read of one RRT entry to an address. -/
  | glook (x : GrArgs)
  /-- GRELEASE (R266). Enqueues unbinding of a grammar handle. -/
  | grelease (x : GrelArgs)
  /-- RFMATCH (R293). Enqueues scoring and matching of tokens, binding a reef map. -/
  | rfmatch (x : RfArgs)
  /-- RFMERGE (R295). Enqueues size-weighted merging of rows by the reef map. -/
  | rfmerge (x : RfArgs)
  /-- RFSHAKE (R295). Enqueues restoring of rows to original tokens by the reef map. -/
  | rfshake (x : RfArgs)
  /-- RFLOGS (R295). Enqueues writing of log2 destination sizes. -/
  | rflogs (x : RfArgs)
  /-- RFFREE (R296). Enqueues unbinding of a reef map handle. -/
  | rffree (x : RffreeArgs)
  /-- NBCFG (R298). Enqueues loading of the neuron bank configuration. -/
  | nbcfg (x : Eng1Args)
  /-- NBPOST (R300). Enqueues sending of events to neuron banks. -/
  | nbpost (x : Eng2Args)
  /-- NBADV (R301). Enqueues advancing the neuron bank to a target step. -/
  | nbadv (x : Eng1Args)
  /-- NBRD (R303). Enqueues copying of neuron records into scratchpad. -/
  | nbrd (x : Eng2Args)
  /-- NBWR (R303). Enqueues writing of neuron records from scratchpad. -/
  | nbwr (x : Eng2Args)
  /-- NBSPK (R303). Enqueues moving of the oldest spike records into scratchpad. -/
  | nbspk (x : Eng2Args)
  /-- HSTART (R326). Starts a helper context at an address with an argument. -/
  | hstart (slot : Fin 8) (gb ga : GReg)
  /-- HJOIN (R327). Sleeps until a helper ends and returns its exit value. -/
  | hjoin (slot : Fin 8) (gd : GReg)
  /-- HEND (R328). Ends the helper after its engine jobs have written their statuses. -/
  | hend (ga : GReg)
  /-- PHINT (R314). Parks the context with a liveness descriptor when a pre-emption request is pending. -/
  | phint (index : BitVec 10)
  /-- TRAP (R330). Raises SW_TRAP with a code and value. -/
  | trap (code : BitVec 10) (ga : GReg)
  /-- CSRRD (R108). Reads a control and status register. -/
  | csrrd (csr : BitVec 10) (gd : GReg)
  /-- CSRWR (R108). Writes a control and status register. -/
  | csrwr (csr : BitVec 10) (ga : GReg)
  /-- GEND (R329). Ends the current group after helpers and engine jobs have ended. -/
  | gend
  /-- BREAK (R330). Raises BREAK with a code. -/
  | brk (code : BitVec 10)
  /-- XRING_CSR_WRITE (R32). A write to XRING_BASE, XRING_SIZE, XSPILL_BASE or XSPILL_SIZE is checked and resets both ring pointers. -/
  | xringCsrWrite (csr : Fin 4) (value : Word)
  /-- GROUP_START (R20). The next group dealt to a core starts once the previous group has ended, with cleared registers. -/
  | groupStart
  /-- CONTEXT_WAKE (R24). A sleeping context's awaited condition holds and its instruction proceeds. -/
  | contextWake (c : Fin 8)
  /-- WAITW_TIMEOUT (R191). gb cycles pass in WAITW and it returns reason 2. -/
  | waitwTimeout (c : Fin 8)
  /-- WAITT_DEADLINE (R195). The tick counter reaches a WAITT deadline and the context wakes. -/
  | waittDeadline (c : Fin 8)
  /-- YIELDX_EXPIRY (R194). The YIELDX wait of gb cycles ends and the context becomes ready. -/
  | yieldxExpiry (c : Fin 8)
  /-- BSYNC_COMPLETE (R196). All members have contributed and the barrier completes, applying any pending DSPLIT. `clock`
  names the writes that happen before the completion, none where it is empty (R212). -/
  | bsyncComplete (others : List SplitMember) (clock : List Nat := [])
  /-- XEND_COMPLETE (R199). Packets delivered equal packets sent and XEND completes on all members; `clock` as
  for BSYNC_COMPLETE. -/
  | xendComplete (clock : List Nat := [])
  /-- EXCHANGE_DELIVERY (R33). An exchange packet reaches the receiver's router and is placed in the inbound or overflow ring or retained. -/
  | exchangeDelivery (arrives : Option Arrival)
  /-- EXCHANGE_ABORT (R34). The second watchdog limit passes after an overflow-ring fault and the exchange is aborted with WATCHDOG. -/
  | exchangeAbort
  /-- FE_REQUEST_ARRIVAL (R186). A full/empty request arrives at the word's home router and proceeds or joins the queue. -/
  | feRequestArrival (r : RemoteFe)
  /-- WRITE_APPLY (R212). A write arriving at a die is applied once every write that happens before it has been applied. -/
  | writeApply (loc : Nat) (data : DieWrite)
  /-- PAGE_WALK (R17). A translation walk completes, filling the caches or raising PAGE_FAULT at the masthead. -/
  | pageWalk (va : Word)
  /-- JOB_LAUNCH (R38). A queued engine job starts once its predecessors complete and its engine is free, or ends CANCELLED. -/
  | jobLaunch (id : Nat)
  /-- ENGINE_HANDLE_PUSH (R41). An engine completes a slot of output into a handle and pushes it, waiting while the ring is full. -/
  | engineHandlePush (id : Nat)
  /-- JOB_COMPLETION (R35). An engine job ends and its status word is written, clearing pending. -/
  | jobCompletion (id : Nat) (others : List CredShare)
  /-- PUBL_SWAP (R205). Once no job is bound to the shadow, PUBL swaps front and shadow or clears the taint and reopens the buffer. -/
  | publSwap (c : Fin 8)
  /-- TREM_COMMAND_ARRIVAL (R244). A remote tile command arrives at the target engine and its capability is checked. -/
  | tremCommandArrival (t : TremCmd)
  /-- NB_EVENT_ARRIVAL (R300). A neuron event arrives at its target bank and is stored, spilled or held. -/
  | nbEventArrival (e : NbEvent)
  /-- ERROR_REPLY (R311). An error reply from a sealed core arrives and the requester raises PEER_SEALED. -/
  | errorReply (target : ErrTarget) (peer : BitVec 32)
  /-- FAULT_PACKET (R308). The masthead receives a fault packet and applies resume, HOLD, RESTART or ABORT. -/
  | faultPacket
  /-- DRIVER_RESUME_FAULT (R308). The driver directs the masthead to resume a frozen core at the following instruction. -/
  | driverResumeFault
  /-- DRIVER_APPLY_POLICY (R308). The driver directs the masthead to apply the launch's fault policy. -/
  | driverApplyPolicy
  /-- DRIVER_ANSWER_TIMEOUT (R320). A fault unanswered by the driver within the second limit goes to the fault policy. -/
  | driverAnswerTimeout
  /-- DBG_RESUME (R310). DBG_CTL resume sets the frozen core running. -/
  | dbgResume
  /-- DBG_STEP (R310). DBG_CTL step resumes the selected context for one instruction. -/
  | dbgStep
  /-- DEBUG_STEP_BREAK (R310). After the stepped instruction the core freezes with BREAK INFO 0x3FF. -/
  | debugStepBreak
  /-- DBG_FREEZE (R310). DBG_CTL freeze freezes the core with no packet. -/
  | dbgFreeze
  /-- DBG_SEAL (R310). DBG_CTL seal seals the core. -/
  | dbgSeal
  /-- DBG_UNSEAL (R312). DBG_CTL unseal scrubs the core, unseals it and resumes its PEER_SEALED requesters. -/
  | dbgUnseal
  /-- DBG_MDATA_WRITE (R310). A write to DBG_MDATA writes 8 bytes of scratchpad, tile, border or tag at DBG_MADDR. -/
  | dbgMdataWrite (value : Word)
  /-- DEBUG_REGISTER_WRITE (R310). A write to any other debug-window register of a frozen core, taking effect at resumption. -/
  | debugRegisterWrite (r : DbgReg) (value : Vec)
  /-- PAIR_HASH_ARRIVAL (R313). The twin's request hash reaches the primary's router and is compared. -/
  | pairHashArrival (hash : Word) (twin : BitVec 32)
  /-- PAIR_HASH_TIMEOUT (R313). A twin hash fails to arrive within 4,096 cycles and both copies freeze with PAIR_MISMATCH. -/
  | pairHashTimeout (twin : BitVec 32)
  /-- PREEMPTION_REQUEST (R314). A pre-emption request reaches a core from the scheduler, watchdog or freeze. -/
  | preemptionRequest
  /-- FORCED_PARK (R314). 20 ms after the freeze tick, every still-running context is parked by force. -/
  | forcedPark
  /-- CORE_SAVE (R315). Once a core is pre-emptible, the save engine writes its named state to the cellar. -/
  | coreSave
  /-- SAVE_CAP_EXPIRY (R321). A context's save passes 2 ms and is abandoned with STATE 4. -/
  | saveCapExpiry (c : Fin 8)
  /-- CORE_RESUMPTION (R319). A core is rebuilt from its record and its contexts continue. -/
  | coreResumption
  /-- WATCHDOG_STEP1 (R320). A run timer reaches the first limit and a pre-emption request is sent. -/
  | watchdogStep1 (c : Fin 8)
  /-- WATCHDOG_STEP2 (R320). A run timer reaches the second limit and the context raises WATCHDOG. -/
  | watchdogStep2 (c : Fin 8)
  /-- WATCHDOG_STEP3 (R320). A run timer reaches the third limit and an unfrozen core is fenced. -/
  | watchdogStep3 (c : Fin 8)
  /-- RETIREMENT_ACK (R322). All places acknowledge a killed job's retired identifier and its resources are reassigned. -/
  | retirementAck (job : Nat)
  /-- QUANTUM_BOUNDARY (R323). At each 1 ms quantum the die updates deficits and sends pre-emption requests. -/
  | quantumBoundary (charges : List Charge)
  /-- FREEZE_TICK (R324). At the agreed tick the module requests pre-emption, saves, evicts and reports frozen. -/
  | freezeTick
  /-- FREEZE_IMAGE_COMPLETE (R346). The freeze image is whole and the FREEZE command completes. -/
  | freezeImageComplete
  /-- RESUME_TICK (R347). At the resumption tick the images are restored and launches resume. -/
  | resumeTick
  /-- LAUNCH_PACKET (R336). The launch unit takes a valid launch packet and accepts or rejects it. -/
  | launchPacket (q : Nat)
  /-- LAUNCH_NOOP_PACKET (R333). A no-op launch packet is accepted and completes at once. -/
  | launchNoopPacket (q : Nat)
  /-- CORE_GRANT (R337). A core is granted to a launch and prepared before its first group. -/
  | coreGrant (l : Nat)
  /-- LAUNCH_STARTTICK (R337). STARTTICK is reached and the launch's groups start. -/
  | launchStarttick (l : Nat)
  /-- GANG_ACCEPTANCE (R337). A gang member's acceptance message arrives over the pod links. -/
  | gangAcceptance (module : Nat) (l : Nat)
  /-- GANG_DEADLINE (R337). At STARTTICK minus 10,000 ticks a module lacking acceptances rejects and sends a withdrawal. -/
  | gangDeadline (l : Nat)
  /-- GANG_WITHDRAWAL (R337). A withdrawal arrives and the launch is rejected or killed. -/
  | gangWithdrawal (l : Nat)
  /-- LAUNCH_COMPLETION (R332). A launch is done and its completion record, CSEQ and DONESEQ are written. -/
  | launchCompletion (l : Nat)
  /-- CONTROL_NOP (R338). Control command NOP completes. -/
  | controlNop
  /-- JOBNEW (R338). Control command creating a job with page tables, key and cellar. -/
  | jobnew
  /-- REGQ (R338). Control command registering a launch queue. -/
  | regq
  /-- UNREGQ (R338). Control command stopping consumption of a launch queue. -/
  | unregq
  /-- KILL (R322). Control command killing a job. -/
  | kill
  /-- PUBREG (R338). Control command registering a published buffer and writing its descriptor. -/
  | pubreg
  /-- FREEZE (R346). Control command setting a module freeze at a tick. -/
  | freeze
  /-- RESUME (R347). Control command setting resumption of frozen images at a tick. -/
  | resume
  /-- CTLQ_BLOCKED_TIMEOUT (R342). The control queue is blocked by an invalid slot for 1 s and ERR[2] is set. -/
  | ctlqBlockedTimeout
  /-- MODNUM_WRITE (R342). Host write of the module number, accepted only while no queue is registered. -/
  | modnumWrite (value : Word)
  /-- FEATACC_WRITE (R342). Host write of accepted features, ignored with ERR[0] while a queue is registered. -/
  | feataccWrite (i : Fin 4) (value : Word)
  /-- CTLQ_WRITE (R342). Host write of the control queue address, ignored with ERR[1] when not permitted. -/
  | ctlqWrite (value : Word)
  /-- ERR_WRITE (R342). Host write-one-to-clear of ERR bits. -/
  | errWrite (value : Word)
  /-- HOST_READ (R341). A host read through the device memory aperture is performed at the home slice as an acquire. -/
  | hostRead (off len : Nat)
  /-- HOST_WRITE (R341). A host write through the device memory aperture is applied at the home slice as a release. -/
  | hostWrite (off : Nat) (data : List Byte)
  /-- HOST_ATOMICOP (R341). A host AtomicOp through the aperture is performed as an ar read-modify-write. -/
  | hostAtomicop (op : AtomicOp) (size : AtSize) (off : Nat) (operand compare : Word)
  /-- HOST_CONFIG_REQUEST (R353). A PCIe configuration request, answered with retry status until power-up step 7. -/
  | hostConfigRequest (port : Fin 4)
  /-- FLIT_IDLE (R345). An idle flit is received, checked and acknowledged, or discarded with a replay request. -/
  | flitIdle (port : Fin 32) (f : Flit)
  /-- FLIT_REQUEST (R345). A request flit is received and checked. -/
  | flitRequest (port : Fin 32) (f : Flit)
  /-- FLIT_RESPONSE (R345). A response flit is received and checked. -/
  | flitResponse (port : Fin 32) (f : Flit)
  /-- FLIT_TIME (R345). A time flit is received and aligns the tick counter. -/
  | flitTime (port : Fin 32) (f : Flit)
  /-- FLIT_LAUNCH_CONTROL (R345). A launch control flit is received and checked. -/
  | flitLaunchControl (port : Fin 32) (f : Flit)
  /-- TIME_FLIT_TIMER (R345). Every microsecond a time flit is sent. -/
  | timeFlitTimer
  /-- LINK_REPLAY_LIMIT (R345). A flit replayed 16 times without acknowledgement loses the link. -/
  | linkReplayLimit (port : Fin 32)
  /-- LINK_ACK_TIMEOUT (R345). Nothing acknowledged for 20 us loses the link, ending its work with LINK_LOST. -/
  | linkAckTimeout (port : Fin 32)
  /-- STANDBY_POWER_ON (R353). Standby power starts the power-up sequence. -/
  | standbyPowerOn
  /-- MODULE_RESET (R352). A module reset boots the selected firmware bank. -/
  | moduleReset
  /-- FIRMWARE_BOOT_TIMEOUT (R352). A new bank fails to reach power-up step 5 within 30 s and the other bank is booted. -/
  | firmwareBootTimeout
  /-- POWER_GOOD_LOSS (R354). A power stage drops power-good and the module stops with a fatal event. -/
  | powerGoodLoss (stage : Nat)
  /-- SENSOR_SAMPLE (R350). Each millisecond sensors are sampled and clocks adjusted for the cap and temperature. -/
  | sensorSample (r : SensorReading)
  /-- SET_POWER_CAP (R350). An MCTP request sets the power cap within 3.0 to 6.4 kW. -/
  | setPowerCap (watts : Nat)
  /-- PLDM_FIRMWARE_UPDATE (R352). A PLDM firmware update writes an image to the bank not in use. -/
  | pldmFirmwareUpdate (image : List Byte) (signed : Bool)
  /-- SPDM_REQUEST (R352). An SPDM request is answered with measurements. -/
  | spdmRequest (index : Nat)
  /-- UNASSIGNED_ENCODING (R104). A context issues a parcel or word that matches no assigned form (class 14 or 15, unassigned opcode, SS bit 15 set, SP kind 100-111, BRA with gs nonzero, NOP/YIELD/TRIPLE with payload) and raises ILLEGAL_INSN. -/
  | unassignedEncoding (w : BitVec 32)
  /-- SOFT_ERROR (R311). A bit error strikes scratchpad, a register, a side array, a weight-buffer line, a tile or an HBM line, to be corrected, poisoned or adopted when next checked. -/
  | softError (t : SoftTarget)
  /-- PAGE_MAPPING_SUPPLIED (R308). The driver supplies the missing mapping for a PAGE_FAULT, so the frozen core resumes at the faulting instruction or retained exchange delivery resumes. -/
  | pageMappingSupplied (va : Word)
  /-- HOST_COMPLETION (R183). A PCIe completion for a device-issued host-window read or AtomicOp returns, delivering data or a refusal that gives PROT_FAULT. -/
  | hostCompletion (c : Fin 8) (refused : Bool)
  /-- HOST_PORT_LINK_CHANGE (R340). A host port's PCIe link comes up or goes down, changing the set of ports over which device-to-host traffic is interleaved. -/
  | hostPortLinkChange (port : Fin 4) (up : Bool)
  /-- PERST_CHANGE (R355). A host port's PERST# line is asserted or released. -/
  | perstChange (port : Fin 4) (asserted : Bool)
  /-- POD_LINK_RETRAIN (R345). The driver retrains a lost pod link and the link comes up again. -/
  | podLinkRetrain (port : Fin 32)
  /-- STANDBY_POWER_LOSS (R351). Standby power is lost, stopping the Spaly controller and the module, with the event-log record being written lost. -/
  | standbyPowerLoss
deriving DecidableEq, Repr

end Sys2Proof
end

