-- ==== Sys2Proof/WellFormed.lean ====
section
/-! DEFINITION. Well-formed instructions: the limits that the owning rules set on the fields of an encoding, whose
breach is ILLEGAL_INSN (R104). Limits on register values are not here: they are tested at execution. -/

namespace Sys2Proof

/-- An agn bit of 1 needs a mask (R86). -/
def agnOk (agn : Bool) (mask : Fin 8) : Bool := !agn || decide (mask.val ≠ 0)

/-- A sel instruction: tb selects the table that reads ta; the floating codes below `n` are accepted (R159). -/
def selOk (tb ta : Fin 8) (n : Nat) : Bool := decide (tb.val = 0) || (decide (tb.val = 1) && decide (ta.val < n))

/-- Whether the fields satisfy the owning chapter's limits on encodings. -/
def Instr.wf (i : Instr) : Bool :=
  match i with
  | .vaddShort _ => true
  | .vsubShort _ => true
  | .vmulShort _ => true
  | .vmac _ => true
  | .vminShort _ => true
  | .vmaxShort _ => true
  | .vandShort x => decide (x.ty.val < 4)
  | .vorShort x => decide (x.ty.val < 4)
  | .vxorShort x => decide (x.ty.val < 4)
  | .vshlShort x => decide (x.ty.val < 4)
  | .vshrShort x => decide (x.ty.val < 4)
  | .vshrlShort x => decide (x.ty.val < 4)
  | .vmovShort _ => true
  | .vneg x => decide (x.ty.val ≠ 3)
  | .vabs x => decide (x.ty.val ≠ 3)
  | .vcmpltShort _ => true
  | .addShort _ => true
  | .subShort _ => true
  | .addi4 _ => true
  | .mov _ => true
  | .li4 _ => true
  | .andShort _ => true
  | .orShort _ => true
  | .xorShort _ => true
  | .shliShort _ => true
  | .shriShort _ => true
  | .shrliShort _ => true
  | .lw16 _ => true
  | .sw16 _ => true
  | .lx16 _ => true
  | .sx16 _ => true
  | .sltShort _ => true
  | .beqz _ => true
  | .bnez _ => true
  | .bra _ => true
  | .bltz _ => true
  | .nop => true
  | .triple => true
  | .wide _ => true
  | .yield => true
  | .add _ => true
  | .sub _ => true
  | .mul _ => true
  | .mulh _ => true
  | .mulhn _ => true
  | .div _ => true
  | .divn _ => true
  | .rem _ => true
  | .remn _ => true
  | .and _ => true
  | .or _ => true
  | .xor _ => true
  | .andn _ => true
  | .shl _ => true
  | .shr _ => true
  | .shrl _ => true
  | .rol _ => true
  | .slt _ => true
  | .sltn _ => true
  | .min _ => true
  | .max _ => true
  | .minn _ => true
  | .maxn _ => true
  | .clz _ => true
  | .ctz _ => true
  | .popc _ => true
  | .sel _ => true
  | .exts _ => true
  | .extz _ => true
  | .bfx _ => true
  | .bfi _ => true
  | .adds _ => true
  | .addi _ => true
  | .andi _ => true
  | .ori _ => true
  | .xori _ => true
  | .shli _ => true
  | .shri _ => true
  | .shrli _ => true
  | .slti _ => true
  | .sltni _ => true
  | .lis _ => true
  | .addpc _ _ => true
  | .muli _ => true
  | .beq _ => true
  | .bne _ => true
  | .blt _ => true
  | .bge _ => true
  | .bltn _ => true
  | .bgen _ => true
  | .jal _ _ => true
  | .jalr _ _ => true
  | .vadd x => agnOk x.agn x.mask
  | .vsub x => agnOk x.agn x.mask
  | .vmul x => agnOk x.agn x.mask
  | .vmulh x => agnOk x.agn x.mask && decide (x.ty.val < 4)
  | .vfma x => agnOk x.agn x.mask
  | .vfms x => agnOk x.agn x.mask
  | .vmin x => agnOk x.agn x.mask
  | .vmax x => agnOk x.agn x.mask
  | .vminn x => agnOk x.agn x.mask && decide (x.ty.val < 4)
  | .vmaxn x => agnOk x.agn x.mask && decide (x.ty.val < 4)
  | .vand x => agnOk x.agn x.mask && decide (x.ty.val < 4)
  | .vor x => agnOk x.agn x.mask && decide (x.ty.val < 4)
  | .vxor x => agnOk x.agn x.mask && decide (x.ty.val < 4)
  | .vshl x => agnOk x.agn x.mask && decide (x.ty.val < 4)
  | .vshr x => agnOk x.agn x.mask && decide (x.ty.val < 4)
  | .vshrl x => agnOk x.agn x.mask && decide (x.ty.val < 4)
  | .vadds x => agnOk x.agn x.mask && decide (x.ty.val < 4)
  | .vaddsn x => agnOk x.agn x.mask && decide (x.ty.val < 4)
  | .vsubs x => agnOk x.agn x.mask && decide (x.ty.val < 4)
  | .vabsd x => agnOk x.agn x.mask && decide (x.ty.val < 4)
  | .vdiv x => agnOk x.agn x.mask && decide (x.ty.val < 4)
  | .vsqrt x => agnOk x.agn x.mask && decide (x.ty.val < 4)
  | .vrcp x => agnOk x.agn x.mask && decide (x.ty.val < 4)
  | .vexp2 x => agnOk x.agn x.mask && decide (1 ≤ x.ty.val) && decide (x.ty.val < 4)
  | .vscale x => agnOk x.agn x.mask && decide (x.ty.val < 6)
  | .vcmpeq x => agnOk x.agn x.mask
  | .vcmplt x => agnOk x.agn x.mask
  | .vcmple x => agnOk x.agn x.mask
  | .vcmpltn x => agnOk x.agn x.mask && decide (x.ty.val < 4)
  | .vsel x => decide (x.ty.val < 4)
  | .vdot4 x => agnOk x.agn x.mask && decide (4 ≤ x.ty.val) && decide (x.ty.val < 6)
  | .vdot2 x => agnOk x.agn x.mask && decide (2 ≤ x.ty.val) && decide (x.ty.val < 4)
  | .vcvtff x => agnOk x.agn x.mask && decide (x.ta.val < 7) && decide (x.tb.val < 7) && decide (x.ta ≠ x.tb)
  | .vcvtfi x => agnOk x.agn x.mask && decide (x.ta.val < 7)
  | .vcvtif x => agnOk x.agn x.mask && decide (x.tb.val < 7)
  | .vcvtii x => agnOk x.agn x.mask && decide (x.ta ≠ x.tb) && (x.rnd == .rne || x.rnd == .sat)
  | .vquant x => decide (1 ≤ x.ta.val) && decide (x.ta.val < 4) && decide (4 ≤ x.tb.val) && decide (x.tb.val < 7)
  | .vdeq x => agnOk x.agn x.mask && decide (1 ≤ x.tb.val) && decide (x.tb.val < 4)
  | .vbcast x => agnOk x.agn x.mask
  | .vget _ => true
  | .vput x => decide (x.ga.val < 15)
  | .vperm x => agnOk x.agn x.mask
  | .vcompr _ => true
  | .vexpnd x => agnOk x.agn x.mask
  | .vredadd x => selOk x.tb x.ta 4
  | .vredmax x => selOk x.tb x.ta 4
  | .vredmin x => selOk x.tb x.ta 4
  | .vscanadd x => selOk x.tb x.ta 4
  | .vmask _ _ => true
  | .vpopm _ => true
  | .vfirst _ => true
  | .viota x => agnOk x.agn x.mask
  | .vbmenc x => selOk x.tb x.ta 7
  | .vbmdec x => agnOk x.agn x.mask && selOk x.tb x.ta 7
  | .vcbdec x => agnOk x.agn x.mask && decide (1 ≤ x.tb.val) && decide (x.tb.val < 5) && decide (x.ga.val < 15)
  | .vmov x => agnOk x.agn x.mask && decide (x.ta.val < 4)
  | .vrndseed _ _ => true
  | .vclass x => agnOk x.agn x.mask && decide (x.ta.val < 7)
  | .lb _ => true
  | .lbn _ => true
  | .lh _ => true
  | .lhn _ => true
  | .lw _ => true
  | .lwn _ => true
  | .lx _ => true
  | .vld _ => true
  | .vldb _ => true
  | .ldesc _ => true
  | .lbHandle _ => true
  | .lbnHandle _ => true
  | .lhHandle _ => true
  | .lhnHandle _ => true
  | .lwHandle _ => true
  | .lwnHandle _ => true
  | .lxHandle _ => true
  | .vldHandle _ => true
  | .vldbHandle _ => true
  | .sb _ => true
  | .sh _ => true
  | .sw _ => true
  | .sx _ => true
  | .vst _ => true
  | .vstm _ => true
  | .sdesc _ => true
  | .sbHandle _ => true
  | .shHandle _ => true
  | .swHandle _ => true
  | .sxHandle _ => true
  | .vstHandle _ => true
  | .vstmHandle _ => true
  | .ldo x => x.m.order == .rlx || x.m.order == .acq
  | .sto x => x.m.order == .rlx || x.m.order == .rel
  | .swap _ => true
  | .cas _ => true
  | .fadd _ => true
  | .fand _ => true
  | .atFor _ => true
  | .fxor _ => true
  | .fmin _ => true
  | .fmax _ => true
  | .fminn _ => true
  | .fmaxn _ => true
  | .faddf _ => true
  | .take x => x.m.order == .acq || x.m.order == .ar
  | .peek x => x.m.order == .acq || x.m.order == .ar
  | .put x => x.m.order == .rel || x.m.order == .ar
  | .trytake x => (x.m.order == .acq || x.m.order == .ar) && (decide (x.gd ≠ x.gb) || decide (x.gd.val = 0))
  | .tryput x => x.m.order == .rel || x.m.order == .ar
  | .fill x => x.m.order == .rel || x.m.order == .ar
  | .drain x => x.m.order == .rlx || x.m.order == .rel
  | .festat x => x.m.order == .rlx || x.m.order == .acq
  | .fence _ _ _ => true
  | .watch _ _ => true
  | .waitw _ _ => true
  | .unwatch all ga => !all || decide (ga.val = 0)
  | .yieldx _ => true
  | .bsync _ _ => true
  | .xsend _ _ => true
  | .xrecv _ _ => true
  | .xend _ => true
  | .cbinit _ _ _ => true
  | .cbwait _ _ _ _ => true
  | .cbadv _ _ => true
  | .cbpush _ _ => true
  | .publ agent _ _ => agent == .die || agent == .mod || agent == .pod
  | .tick _ => true
  | .waitt _ _ => true
  | .dsplit _ _ => true
  | .tld x => (!x.s || decide (x.acc.val = 0)) && (x.s || x.tr == .none)
  | .tst x => !x.s || decide (x.acc.val = 0)
  | .tmma x => !x.adv || x.h
  | .twld _ => true
  | .tcbt _ => true
  | .tzero x => (!x.s || decide (x.acc.val = 0)) && (x.s || decide (x.gb.val = 0))
  | .tscale x => (!x.s || decide (x.acc.val = 0)) && (x.s || decide (x.gb.val = 0))
  | .tvfy x => (!x.s || decide (x.acc.val = 0)) && (x.s || decide (x.gb.val = 0))
  | .trem _ => true
  | .tcap _ => true
  | .tcfg _ => true
  | .cpy x => x.useH || decide (x.h.val = 0)
  | .cgather _ => true
  | .cscatter _ => true
  | .cred _ => true
  | .cqput _ => true
  | .cdep _ => true
  | .ccancel _ => true
  | .gbind _ => true
  | .geval _ => true
  | .glen _ => true
  | .gspine _ => true
  | .gocc _ => true
  | .gunf _ => true
  | .gloc _ => true
  | .glook _ => true
  | .grelease _ => true
  | .rfmatch _ => true
  | .rfmerge _ => true
  | .rfshake _ => true
  | .rflogs _ => true
  | .rffree _ => true
  | .nbcfg _ => true
  | .nbpost _ => true
  | .nbadv _ => true
  | .nbrd _ => true
  | .nbwr _ => true
  | .nbspk _ => true
  | .hstart _ _ _ => true
  | .hjoin _ _ => true
  | .hend _ => true
  | .phint _ => true
  | .trap _ _ => true
  | .csrrd _ _ => true
  | .csrwr _ _ => true
  | .gend => true
  | .brk _ => true
  | .xringCsrWrite _ _ => true
  | .groupStart => true
  | .contextWake _ => true
  | .waitwTimeout _ => true
  | .waittDeadline _ => true
  | .yieldxExpiry _ => true
  | .bsyncComplete _ _ => true
  | .xendComplete _ => true
  | .exchangeDelivery _ => true
  | .exchangeAbort => true
  | .feRequestArrival _ => true
  | .writeApply _ w => decide (w.clock.length = 12)
  | .pageWalk _ => true
  | .jobLaunch _ => true
  | .engineHandlePush _ => true
  | .jobCompletion _ _ => true
  | .publSwap _ => true
  | .tremCommandArrival _ => true
  | .nbEventArrival _ => true
  | .errorReply _ _ => true
  | .faultPacket => true
  | .driverResumeFault => true
  | .driverApplyPolicy => true
  | .driverAnswerTimeout => true
  | .dbgResume => true
  | .dbgStep => true
  | .debugStepBreak => true
  | .dbgFreeze => true
  | .dbgSeal => true
  | .dbgUnseal => true
  | .dbgMdataWrite _ => true
  | .debugRegisterWrite _ _ => true
  | .pairHashArrival _ _ => true
  | .pairHashTimeout _ => true
  | .preemptionRequest => true
  | .forcedPark => true
  | .coreSave => true
  | .saveCapExpiry _ => true
  | .coreResumption => true
  | .watchdogStep1 _ => true
  | .watchdogStep2 _ => true
  | .watchdogStep3 _ => true
  | .retirementAck _ => true
  | .quantumBoundary _ => true
  | .freezeTick => true
  | .freezeImageComplete => true
  | .resumeTick => true
  | .launchPacket _ => true
  | .launchNoopPacket _ => true
  | .coreGrant _ => true
  | .launchStarttick _ => true
  | .gangAcceptance _ _ => true
  | .gangDeadline _ => true
  | .gangWithdrawal _ => true
  | .launchCompletion _ => true
  | .controlNop => true
  | .jobnew => true
  | .regq => true
  | .unregq => true
  | .kill => true
  | .pubreg => true
  | .freeze => true
  | .resume => true
  | .ctlqBlockedTimeout => true
  | .modnumWrite _ => true
  | .feataccWrite _ _ => true
  | .ctlqWrite _ => true
  | .errWrite _ => true
  | .hostRead _ _ => true
  | .hostWrite _ _ => true
  | .hostAtomicop _ _ _ _ _ => true
  | .hostConfigRequest _ => true
  | .flitIdle _ _ => true
  | .flitRequest _ _ => true
  | .flitResponse _ _ => true
  | .flitTime _ _ => true
  | .flitLaunchControl _ _ => true
  | .timeFlitTimer => true
  | .linkReplayLimit _ => true
  | .linkAckTimeout _ => true
  | .standbyPowerOn => true
  | .moduleReset => true
  | .firmwareBootTimeout => true
  | .powerGoodLoss _ => true
  | .sensorSample _ => true
  | .setPowerCap _ => true
  | .pldmFirmwareUpdate _ _ => true
  | .spdmRequest _ => true
  | .unassignedEncoding _ => true
  | .softError _ => true
  | .pageMappingSupplied _ => true
  | .hostCompletion _ _ => true
  | .hostPortLinkChange _ _ => true
  | .perstChange _ _ => true
  | .podLinkRetrain _ => true
  | .standbyPowerLoss => true

end Sys2Proof
end

