-- ==== Sys2Proof/Decode.lean ====
section
/-! DEFINITION. Decoding and encoding (R80, R87 to R104). `decode` is total on any bytes and rejects by name; one form
is decoded at a time: a prefix parcel is a form of its own, and the step assembles the unit (R93). `decodeTableWord` is
the host's reading of a table word. The encoder follows the same layouts. The section is noncomputable for one reason: Lean's code generator has no tags for constructors
beyond the 245th, and these definitions build them; the kernel evaluates them all the same. -/

noncomputable section

namespace Sys2Proof

/-- Why a parcel or word is no instruction (R104). -/
inductive Reject where
  /-- Fewer bytes than the form needs. -/
  | truncated
  /-- Long class 14 or 15, SP kinds 100 to 111. -/
  | reservedClass
  /-- An unassigned opcode or kind in an assigned class. -/
  | unassignedOpcode
  /-- A reserved code in a used field: type, size, order, scope, control, lift operator. -/
  | reservedCode
  /-- A nonzero field or bit that the form does not use. -/
  | unusedNonzero
deriving DecidableEq, Repr

/-- A field of `n` bits at `lo`, as a bounded number. -/
def fld (w lo n : Nat) : Fin (2 ^ n) := ⟨bits w lo n, Nat.mod_lt _ (Nat.two_pow_pos n)⟩

/-- A field as a bit vector. -/
def fbv (w lo n : Nat) : BitVec n := BitVec.ofNat n (bits w lo n)

/-- Bit `lo` as a flag. -/
def fbool (w lo : Nat) : Bool := bits w lo 1 == 1

/-- A form whose bits [lo + n - 1 : lo] it does not use: they must be 0 (R104). -/
def unused (w lo n : Nat) (r : Except Reject Instr) : Except Reject Instr :=
  if bits w lo n = 0 then r else .error .unusedNonzero

/-- Order field (R102). -/
def Order.ofCode (x : Nat) : Order :=
  match x with
  | 0 => .rlx
  | 1 => .acq
  | 2 => .rel
  | _ => .ar

/-- The code of an order (R102). -/
def Order.code (o : Order) : Nat :=
  match o with
  | .rlx => 0
  | .acq => 1
  | .rel => 2
  | .ar => 3

/-- Agent scope field; 6 and 7 are reserved (R102). -/
def AgentScope.ofCode (x : Nat) : Option AgentScope :=
  match x with
  | 0 => some .ctx
  | 1 => some .core
  | 2 => some .clu
  | 3 => some .die
  | 4 => some .mod
  | 5 => some .pod
  | _ => none

/-- The code of an agent scope (R102). -/
def AgentScope.code (a : AgentScope) : Nat :=
  match a with
  | .ctx => 0
  | .core => 1
  | .clu => 2
  | .die => 3
  | .mod => 4
  | .pod => 5

/-- Storage scope field (R102). -/
def Storage.ofCode (x : Nat) : Storage :=
  match x with
  | 0 => .spad
  | 1 => .hbm
  | 2 => .host
  | _ => .all

/-- The code of a storage scope (R102). -/
def Storage.code (a : Storage) : Nat :=
  match a with
  | .spad => 0
  | .hbm => 1
  | .host => 2
  | .all => 3

/-- Rounding field rnd2 (R49). -/
def Rnd.ofCode (x : Nat) : Rnd :=
  match x with
  | 0 => .rne
  | 1 => .rtz
  | 2 => .sr
  | _ => .sat

/-- The code of a rounding mode (R49). -/
def Rnd.code (r : Rnd) : Nat :=
  match r with
  | .rne => 0
  | .rtz => 1
  | .sr => 2
  | .sat => 3

/-- Transpose field; 11 is reserved (R233, R271). -/
def Transpose.ofCode (x : Nat) : Option Transpose :=
  match x with
  | 0 => some .none
  | 1 => some .t8
  | 2 => some .t16
  | _ => none

/-- The code of a transpose (R233, R271). -/
def Transpose.code (t : Transpose) : Nat :=
  match t with
  | .none => 0
  | .t8 => 1
  | .t16 => 2

/-- PACK and UNPACK field; 11 is reserved (R271). -/
def PackMode.ofCode (x : Nat) : Option PackMode :=
  match x with
  | 0 => some .none
  | 1 => some .pack
  | 2 => some .unpack
  | _ => none

/-- The code of a pack mode (R271). -/
def PackMode.code (t : PackMode) : Nat :=
  match t with
  | .none => 0
  | .pack => 1
  | .unpack => 2

/-- TMMA control field; 100 to 111 are reserved (R235). -/
def TmmaCtl.ofCode (x : Nat) : Option TmmaCtl :=
  match x with
  | 0 => some .ovw
  | 1 => some .acc
  | 2 => some .fade
  | 3 => some .sub
  | _ => none

/-- The code of a TMMA control (R235). -/
def TmmaCtl.code (t : TmmaCtl) : Nat :=
  match t with
  | .ovw => 0
  | .acc => 1
  | .fade => 2
  | .sub => 3

/-- Fence kind field: every other value of imm5 is refused (R189). -/
def FenceKind.ofCode (x : Nat) : Option FenceKind :=
  match x with
  | 1 => some .acq
  | 2 => some .rel
  | 3 => some .ar
  | 7 => some .sc
  | _ => none

/-- The imm5 of a fence kind (R189). -/
def FenceKind.code (t : FenceKind) : Nat :=
  match t with
  | .acq => 1
  | .rel => 2
  | .ar => 3
  | .sc => 7

/-- Lift operator field; 15 is reserved (R103, R251). -/
def LiftOp.ofCode (x : Nat) : Option LiftOp :=
  match x with
  | 0 => some .addw
  | 1 => some .min
  | 2 => some .max
  | 3 => some .minn
  | 4 => some .maxn
  | 5 => some .and
  | 6 => some .or
  | 7 => some .xor
  | 8 => some .count
  | 9 => some .faddg
  | 10 => some .fmin
  | 11 => some .fmax
  | 12 => some .dot
  | 13 => some .satadd
  | 14 => some .sub
  | _ => none

/-- The code of a lift operator (R251). -/
def LiftOp.code (o : LiftOp) : Nat :=
  match o with
  | .addw => 0
  | .min => 1
  | .max => 2
  | .minn => 3
  | .maxn => 4
  | .and => 5
  | .or => 6
  | .xor => 7
  | .count => 8
  | .faddg => 9
  | .fmin => 10
  | .fmax => 11
  | .dot => 12
  | .satadd => 13
  | .sub => 14

/-- Size, order and scopes of an AT word (R96, R100, R102). -/
def atMode (w : Nat) : Except Reject AtMode :=
  if bits w 31 1 = 0 then
    match bits w 29 2, AgentScope.ofCode (bits w 24 3) with
    | 0, some a => .ok ⟨.w, Storage.ofCode (bits w 27 2), a, Order.ofCode (bits w 22 2)⟩
    | 1, some a => .ok ⟨.x, Storage.ofCode (bits w 27 2), a, Order.ofCode (bits w 22 2)⟩
    | _, _ => .error .reservedCode
  else .error .unusedNonzero

/-- A form with an AT mode. -/
def withMode (w : Nat) (f : AtMode → Instr) : Except Reject Instr :=
  match atMode w with
  | .ok m => .ok (f m)
  | .error e => .error e

/-- A form with a decoded code field, refused when the code is reserved. -/
def withCode {α : Type} (c : Option α) (f : α → Except Reject Instr) : Except Reject Instr :=
  match c with
  | some a => f a
  | none => .error .reservedCode

/-- SV parcels (R87, R88). -/
def decodeSv (w : Nat) : Except Reject Instr :=
  match bits w 3 4 with
  | 0 => .ok (.vaddShort ⟨fld w 13 3, fld w 10 3, fld w 7 3⟩)
  | 1 => .ok (.vsubShort ⟨fld w 13 3, fld w 10 3, fld w 7 3⟩)
  | 2 => .ok (.vmulShort ⟨fld w 13 3, fld w 10 3, fld w 7 3⟩)
  | 3 => .ok (.vmac ⟨fld w 13 3, fld w 10 3, fld w 7 3⟩)
  | 4 => .ok (.vminShort ⟨fld w 13 3, fld w 10 3, fld w 7 3⟩)
  | 5 => .ok (.vmaxShort ⟨fld w 13 3, fld w 10 3, fld w 7 3⟩)
  | 6 => .ok (.vandShort ⟨fld w 13 3, fld w 10 3, fld w 7 3⟩)
  | 7 => .ok (.vorShort ⟨fld w 13 3, fld w 10 3, fld w 7 3⟩)
  | 8 => .ok (.vxorShort ⟨fld w 13 3, fld w 10 3, fld w 7 3⟩)
  | 9 => .ok (.vshlShort ⟨fld w 13 3, fld w 10 3, fld w 7 3⟩)
  | 10 => .ok (.vshrShort ⟨fld w 13 3, fld w 10 3, fld w 7 3⟩)
  | 11 => .ok (.vshrlShort ⟨fld w 13 3, fld w 10 3, fld w 7 3⟩)
  | 12 => .ok (.vmovShort ⟨fld w 13 3, fld w 10 3, fld w 7 3⟩)
  | 13 => .ok (.vneg ⟨fld w 13 3, fld w 10 3, fld w 7 3⟩)
  | 14 => .ok (.vabs ⟨fld w 13 3, fld w 10 3, fld w 7 3⟩)
  | 15 => .ok (.vcmpltShort ⟨fld w 13 3, fld w 10 3, fld w 7 3⟩)
  | _ => .error .unassignedOpcode

/-- SS parcels (R87, R90); bit 15 must be 0. -/
def decodeSs (w : Nat) : Except Reject Instr :=
  unused w 15 1 <|
  match bits w 3 4 with
  | 0 => .ok (.addShort ⟨fld w 11 4, fld w 7 4⟩)
  | 1 => .ok (.subShort ⟨fld w 11 4, fld w 7 4⟩)
  | 2 => .ok (.addi4 ⟨fbv w 11 4, fld w 7 4⟩)
  | 3 => .ok (.mov ⟨fld w 11 4, fld w 7 4⟩)
  | 4 => .ok (.li4 ⟨fbv w 11 4, fld w 7 4⟩)
  | 5 => .ok (.andShort ⟨fld w 11 4, fld w 7 4⟩)
  | 6 => .ok (.orShort ⟨fld w 11 4, fld w 7 4⟩)
  | 7 => .ok (.xorShort ⟨fld w 11 4, fld w 7 4⟩)
  | 8 => .ok (.shliShort ⟨fbv w 11 4, fld w 7 4⟩)
  | 9 => .ok (.shriShort ⟨fbv w 11 4, fld w 7 4⟩)
  | 10 => .ok (.shrliShort ⟨fbv w 11 4, fld w 7 4⟩)
  | 11 => .ok (.lw16 ⟨fld w 11 4, fld w 7 4⟩)
  | 12 => .ok (.sw16 ⟨fld w 11 4, fld w 7 4⟩)
  | 13 => .ok (.lx16 ⟨fld w 11 4, fld w 7 4⟩)
  | 14 => .ok (.sx16 ⟨fld w 11 4, fld w 7 4⟩)
  | 15 => .ok (.sltShort ⟨fld w 11 4, fld w 7 4⟩)
  | _ => .error .unassignedOpcode

/-- SB parcels (R87, R91). -/
def decodeSb (w : Nat) : Except Reject Instr :=
  match bits w 3 2 with
  | 0 => .ok (.beqz ⟨fbv w 9 7, fld w 5 4⟩)
  | 1 => .ok (.bnez ⟨fbv w 9 7, fld w 5 4⟩)
  | 2 => unused w 5 4 (.ok (.bra (fbv w 9 7)))
  | 3 => .ok (.bltz ⟨fbv w 9 7, fld w 5 4⟩)
  | _ => .error .unassignedOpcode

/-- SP parcels (R87, R92). -/
def decodeSp (w : Nat) : Except Reject Instr :=
  match bits w 3 3 with
  | 0 => unused w 6 10 (.ok .nop)
  | 1 => unused w 6 10 (.ok .triple)
  | 2 => .ok (.wide (fbv w 6 10))
  | 3 => unused w 6 10 (.ok .yield)
  | _ => .error .reservedClass

/-- Class 0, SALU (R96, R126). -/
def decodeSalu (w : Nat) : Except Reject Instr :=
  unused w 23 9 <|
  match bits w 5 6 with
  | 0 => .ok (.add ⟨fld w 19 4, fld w 15 4, fld w 11 4⟩)
  | 1 => .ok (.sub ⟨fld w 19 4, fld w 15 4, fld w 11 4⟩)
  | 2 => .ok (.mul ⟨fld w 19 4, fld w 15 4, fld w 11 4⟩)
  | 3 => .ok (.mulh ⟨fld w 19 4, fld w 15 4, fld w 11 4⟩)
  | 4 => .ok (.mulhn ⟨fld w 19 4, fld w 15 4, fld w 11 4⟩)
  | 5 => .ok (.div ⟨fld w 19 4, fld w 15 4, fld w 11 4⟩)
  | 6 => .ok (.divn ⟨fld w 19 4, fld w 15 4, fld w 11 4⟩)
  | 7 => .ok (.rem ⟨fld w 19 4, fld w 15 4, fld w 11 4⟩)
  | 8 => .ok (.remn ⟨fld w 19 4, fld w 15 4, fld w 11 4⟩)
  | 9 => .ok (.and ⟨fld w 19 4, fld w 15 4, fld w 11 4⟩)
  | 10 => .ok (.or ⟨fld w 19 4, fld w 15 4, fld w 11 4⟩)
  | 11 => .ok (.xor ⟨fld w 19 4, fld w 15 4, fld w 11 4⟩)
  | 12 => .ok (.andn ⟨fld w 19 4, fld w 15 4, fld w 11 4⟩)
  | 13 => .ok (.shl ⟨fld w 19 4, fld w 15 4, fld w 11 4⟩)
  | 14 => .ok (.shr ⟨fld w 19 4, fld w 15 4, fld w 11 4⟩)
  | 15 => .ok (.shrl ⟨fld w 19 4, fld w 15 4, fld w 11 4⟩)
  | 16 => .ok (.rol ⟨fld w 19 4, fld w 15 4, fld w 11 4⟩)
  | 17 => .ok (.slt ⟨fld w 19 4, fld w 15 4, fld w 11 4⟩)
  | 18 => .ok (.sltn ⟨fld w 19 4, fld w 15 4, fld w 11 4⟩)
  | 19 => .ok (.min ⟨fld w 19 4, fld w 15 4, fld w 11 4⟩)
  | 20 => .ok (.max ⟨fld w 19 4, fld w 15 4, fld w 11 4⟩)
  | 21 => .ok (.minn ⟨fld w 19 4, fld w 15 4, fld w 11 4⟩)
  | 22 => .ok (.maxn ⟨fld w 19 4, fld w 15 4, fld w 11 4⟩)
  | 23 => unused w 19 4 (.ok (.clz ⟨fld w 15 4, fld w 11 4⟩))
  | 24 => unused w 19 4 (.ok (.ctz ⟨fld w 15 4, fld w 11 4⟩))
  | 25 => unused w 19 4 (.ok (.popc ⟨fld w 15 4, fld w 11 4⟩))
  | 26 => .ok (.sel ⟨fld w 19 4, fld w 15 4, fld w 11 4⟩)
  | 27 => .ok (.exts ⟨fld w 19 4, fld w 15 4, fld w 11 4⟩)
  | 28 => .ok (.extz ⟨fld w 19 4, fld w 15 4, fld w 11 4⟩)
  | 29 => .ok (.bfx ⟨fld w 19 4, fld w 15 4, fld w 11 4⟩)
  | 30 => .ok (.bfi ⟨fld w 19 4, fld w 15 4, fld w 11 4⟩)
  | 31 => .ok (.adds ⟨fld w 19 4, fld w 15 4, fld w 11 4⟩)
  | _ => .error .unassignedOpcode

/-- Class 1, SIMM (R96, R130). -/
def decodeSimm (w : Nat) : Except Reject Instr :=
  match bits w 5 5 with
  | 0 => .ok (.addi ⟨fbv w 18 14, fld w 14 4, fld w 10 4⟩)
  | 1 => .ok (.andi ⟨fbv w 18 14, fld w 14 4, fld w 10 4⟩)
  | 2 => .ok (.ori ⟨fbv w 18 14, fld w 14 4, fld w 10 4⟩)
  | 3 => .ok (.xori ⟨fbv w 18 14, fld w 14 4, fld w 10 4⟩)
  | 4 => unused w 24 8 (.ok (.shli ⟨fld w 18 6, fld w 14 4, fld w 10 4⟩))
  | 5 => unused w 24 8 (.ok (.shri ⟨fld w 18 6, fld w 14 4, fld w 10 4⟩))
  | 6 => unused w 24 8 (.ok (.shrli ⟨fld w 18 6, fld w 14 4, fld w 10 4⟩))
  | 7 => .ok (.slti ⟨fbv w 18 14, fld w 14 4, fld w 10 4⟩)
  | 8 => .ok (.sltni ⟨fbv w 18 14, fld w 14 4, fld w 10 4⟩)
  | 9 => .ok (.lis ⟨fbv w 18 14, fld w 14 4, fld w 10 4⟩)
  | 10 => unused w 14 4 (.ok (.addpc (fbv w 18 14) (fld w 10 4)))
  | 11 => .ok (.muli ⟨fbv w 18 14, fld w 14 4, fld w 10 4⟩)
  | _ => .error .unassignedOpcode

/-- Class 2, BR (R96, R98). -/
def decodeBr (w : Nat) : Except Reject Instr :=
  match bits w 5 3 with
  | 0 => .ok (.beq ⟨fbv w 16 16, fld w 12 4, fld w 8 4⟩)
  | 1 => .ok (.bne ⟨fbv w 16 16, fld w 12 4, fld w 8 4⟩)
  | 2 => .ok (.blt ⟨fbv w 16 16, fld w 12 4, fld w 8 4⟩)
  | 3 => .ok (.bge ⟨fbv w 16 16, fld w 12 4, fld w 8 4⟩)
  | 4 => .ok (.bltn ⟨fbv w 16 16, fld w 12 4, fld w 8 4⟩)
  | 5 => .ok (.bgen ⟨fbv w 16 16, fld w 12 4, fld w 8 4⟩)
  | 6 => .ok (.jal (fbv w 12 20) (fld w 8 4))
  | 7 => unused w 16 16 (.ok (.jalr (fld w 12 4) (fld w 8 4)))
  | _ => .error .unassignedOpcode

/-- Class 3, VA (R95). -/
def decodeVa (w : Nat) : Except Reject Instr :=
  match bits w 5 5 with
  | 0 => .ok (.vadd ⟨fld w 27 5, fld w 22 5, fld w 17 5, fld w 14 3, fbool w 13, fld w 10 3⟩)
  | 1 => .ok (.vsub ⟨fld w 27 5, fld w 22 5, fld w 17 5, fld w 14 3, fbool w 13, fld w 10 3⟩)
  | 2 => .ok (.vmul ⟨fld w 27 5, fld w 22 5, fld w 17 5, fld w 14 3, fbool w 13, fld w 10 3⟩)
  | 3 => .ok (.vmulh ⟨fld w 27 5, fld w 22 5, fld w 17 5, fld w 14 3, fbool w 13, fld w 10 3⟩)
  | 4 => .ok (.vfma ⟨fld w 27 5, fld w 22 5, fld w 17 5, fld w 14 3, fbool w 13, fld w 10 3⟩)
  | 5 => .ok (.vfms ⟨fld w 27 5, fld w 22 5, fld w 17 5, fld w 14 3, fbool w 13, fld w 10 3⟩)
  | 6 => .ok (.vmin ⟨fld w 27 5, fld w 22 5, fld w 17 5, fld w 14 3, fbool w 13, fld w 10 3⟩)
  | 7 => .ok (.vmax ⟨fld w 27 5, fld w 22 5, fld w 17 5, fld w 14 3, fbool w 13, fld w 10 3⟩)
  | 8 => .ok (.vminn ⟨fld w 27 5, fld w 22 5, fld w 17 5, fld w 14 3, fbool w 13, fld w 10 3⟩)
  | 9 => .ok (.vmaxn ⟨fld w 27 5, fld w 22 5, fld w 17 5, fld w 14 3, fbool w 13, fld w 10 3⟩)
  | 10 => .ok (.vand ⟨fld w 27 5, fld w 22 5, fld w 17 5, fld w 14 3, fbool w 13, fld w 10 3⟩)
  | 11 => .ok (.vor ⟨fld w 27 5, fld w 22 5, fld w 17 5, fld w 14 3, fbool w 13, fld w 10 3⟩)
  | 12 => .ok (.vxor ⟨fld w 27 5, fld w 22 5, fld w 17 5, fld w 14 3, fbool w 13, fld w 10 3⟩)
  | 13 => .ok (.vshl ⟨fld w 27 5, fld w 22 5, fld w 17 5, fld w 14 3, fbool w 13, fld w 10 3⟩)
  | 14 => .ok (.vshr ⟨fld w 27 5, fld w 22 5, fld w 17 5, fld w 14 3, fbool w 13, fld w 10 3⟩)
  | 15 => .ok (.vshrl ⟨fld w 27 5, fld w 22 5, fld w 17 5, fld w 14 3, fbool w 13, fld w 10 3⟩)
  | 16 => .ok (.vadds ⟨fld w 27 5, fld w 22 5, fld w 17 5, fld w 14 3, fbool w 13, fld w 10 3⟩)
  | 17 => .ok (.vaddsn ⟨fld w 27 5, fld w 22 5, fld w 17 5, fld w 14 3, fbool w 13, fld w 10 3⟩)
  | 18 => .ok (.vsubs ⟨fld w 27 5, fld w 22 5, fld w 17 5, fld w 14 3, fbool w 13, fld w 10 3⟩)
  | 19 => .ok (.vabsd ⟨fld w 27 5, fld w 22 5, fld w 17 5, fld w 14 3, fbool w 13, fld w 10 3⟩)
  | 20 => .ok (.vdiv ⟨fld w 27 5, fld w 22 5, fld w 17 5, fld w 14 3, fbool w 13, fld w 10 3⟩)
  | 21 => unused w 27 5 (.ok (.vsqrt ⟨fld w 22 5, fld w 17 5, fld w 14 3, fbool w 13, fld w 10 3⟩))
  | 22 => unused w 27 5 (.ok (.vrcp ⟨fld w 22 5, fld w 17 5, fld w 14 3, fbool w 13, fld w 10 3⟩))
  | 23 => unused w 27 5 (.ok (.vexp2 ⟨fld w 22 5, fld w 17 5, fld w 14 3, fbool w 13, fld w 10 3⟩))
  | 24 => .ok (.vscale ⟨fld w 27 5, fld w 22 5, fld w 17 5, fld w 14 3, fbool w 13, fld w 10 3⟩)
  | 25 => .ok (.vcmpeq ⟨fld w 27 5, fld w 22 5, fld w 17 5, fld w 14 3, fbool w 13, fld w 10 3⟩)
  | 26 => .ok (.vcmplt ⟨fld w 27 5, fld w 22 5, fld w 17 5, fld w 14 3, fbool w 13, fld w 10 3⟩)
  | 27 => .ok (.vcmple ⟨fld w 27 5, fld w 22 5, fld w 17 5, fld w 14 3, fbool w 13, fld w 10 3⟩)
  | 28 => .ok (.vcmpltn ⟨fld w 27 5, fld w 22 5, fld w 17 5, fld w 14 3, fbool w 13, fld w 10 3⟩)
  | 29 => unused w 13 1 (.ok (.vsel ⟨fld w 27 5, fld w 22 5, fld w 17 5, fld w 14 3, fld w 10 3⟩))
  | 30 => .ok (.vdot4 ⟨fld w 27 5, fld w 22 5, fld w 17 5, fld w 14 3, fbool w 13, fld w 10 3⟩)
  | 31 => .ok (.vdot2 ⟨fld w 27 5, fld w 22 5, fld w 17 5, fld w 14 3, fbool w 13, fld w 10 3⟩)
  | _ => .error .unassignedOpcode

/-- Class 4, VX (R96, R97, R159). -/
def decodeVx (w : Nat) : Except Reject Instr :=
  match bits w 5 5 with
  | 0 => .ok (.vcvtff ⟨Rnd.ofCode (bits w 30 2), fld w 25 5, fld w 20 5, fld w 17 3, fbool w 16, fld w 13 3, fld w 10 3⟩)
  | 1 => .ok (.vcvtfi ⟨Rnd.ofCode (bits w 30 2), fld w 25 5, fld w 20 5, fld w 17 3, fbool w 16, fld w 13 3, fld w 10 3⟩)
  | 2 => .ok (.vcvtif ⟨Rnd.ofCode (bits w 30 2), fld w 25 5, fld w 20 5, fld w 17 3, fbool w 16, fld w 13 3, fld w 10 3⟩)
  | 3 => .ok (.vcvtii ⟨Rnd.ofCode (bits w 30 2), fld w 25 5, fld w 20 5, fld w 17 3, fbool w 16, fld w 13 3, fld w 10 3⟩)
  | 4 => unused w 29 1 (unused w 24 1 (unused w 16 4 (.ok (.vquant ⟨Rnd.ofCode (bits w 30 2), fld w 25 4, fld w 20 4, fld w 13 3, fld w 10 3⟩))))
  | 5 => unused w 29 1 (unused w 10 3 (.ok (.vdeq ⟨Rnd.ofCode (bits w 30 2), fld w 25 4, fld w 20 5, fld w 17 3, fbool w 16, fld w 13 3⟩)))
  | 6 => unused w 29 3 (unused w 13 3 (.ok (.vbcast ⟨fld w 25 4, fld w 20 5, fld w 17 3, fbool w 16, fld w 10 3⟩)))
  | 7 => unused w 30 2 (unused w 24 1 (unused w 13 7 (.ok (.vget ⟨fld w 25 5, fld w 20 4, fld w 10 3⟩))))
  | 8 => unused w 29 3 (unused w 13 7 (.ok (.vput ⟨fld w 25 4, fld w 20 5, fld w 10 3⟩)))
  | 9 => unused w 30 2 (unused w 13 3 (.ok (.vperm ⟨fld w 25 5, fld w 20 5, fld w 17 3, fbool w 16, fld w 10 3⟩)))
  | 10 => unused w 30 2 (unused w 16 1 (unused w 13 3 (.ok (.vcompr ⟨fld w 25 5, fld w 20 5, fld w 17 3, fld w 10 3⟩))))
  | 11 => unused w 30 2 (unused w 13 3 (.ok (.vexpnd ⟨fld w 25 5, fld w 20 5, fld w 17 3, fbool w 16, fld w 10 3⟩)))
  | 12 => unused w 30 2 (unused w 16 1 (.ok (.vredadd ⟨fld w 25 5, fld w 20 5, fld w 17 3, fld w 13 3, fld w 10 3⟩)))
  | 13 => unused w 30 2 (unused w 16 1 (.ok (.vredmax ⟨fld w 25 5, fld w 20 5, fld w 17 3, fld w 13 3, fld w 10 3⟩)))
  | 14 => unused w 30 2 (unused w 16 1 (.ok (.vredmin ⟨fld w 25 5, fld w 20 5, fld w 17 3, fld w 13 3, fld w 10 3⟩)))
  | 15 => unused w 30 2 (unused w 16 1 (.ok (.vscanadd ⟨fld w 25 5, fld w 20 5, fld w 17 3, fld w 13 3, fld w 10 3⟩)))
  | 16 => unused w 29 3 (unused w 10 10 (.ok (.vmask (fld w 25 4) (fld w 20 5))))
  | 17 => unused w 30 2 (unused w 24 1 (unused w 13 7 (.ok (.vpopm ⟨fld w 25 5, fld w 20 4, fld w 10 3⟩))))
  | 18 => unused w 30 2 (unused w 24 1 (unused w 13 7 (.ok (.vfirst ⟨fld w 25 5, fld w 20 4, fld w 10 3⟩))))
  | 19 => unused w 30 2 (unused w 13 3 (.ok (.viota ⟨fld w 25 5, fld w 20 5, fld w 17 3, fbool w 16, fld w 10 3⟩)))
  | 20 => unused w 30 2 (unused w 24 1 (unused w 16 1 (.ok (.vbmenc ⟨fld w 25 5, fld w 20 4, fld w 17 3, fld w 13 3, fld w 10 3⟩))))
  | 21 => unused w 29 3 (.ok (.vbmdec ⟨fld w 25 4, fld w 20 5, fld w 17 3, fbool w 16, fld w 13 3, fld w 10 3⟩))
  | 22 => unused w 29 1 (unused w 10 3 (.ok (.vcbdec ⟨Rnd.ofCode (bits w 30 2), fld w 25 4, fld w 20 5, fld w 17 3, fbool w 16, fld w 13 3⟩)))
  | 23 => unused w 30 2 (unused w 13 3 (.ok (.vmov ⟨fld w 25 5, fld w 20 5, fld w 17 3, fbool w 16, fld w 10 3⟩)))
  | 24 => unused w 30 2 (unused w 20 5 (unused w 10 7 (.ok (.vrndseed (fld w 25 5) (fld w 17 3)))))
  | 25 => unused w 30 2 (unused w 13 3 (.ok (.vclass ⟨fld w 25 5, fld w 20 5, fld w 17 3, fbool w 16, fld w 10 3⟩)))
  | _ => .error .unassignedOpcode

/-- Class 5, LD (R99). Mode 0. -/
def decodeLd0 (w : Nat) : Except Reject Instr :=
  match bits w 5 4 with
  | 0 => unused w 13 1 (.ok (.lb ⟨fbv w 19 13, fld w 14 4, fld w 9 4⟩))
  | 1 => unused w 13 1 (.ok (.lbn ⟨fbv w 19 13, fld w 14 4, fld w 9 4⟩))
  | 2 => unused w 13 1 (.ok (.lh ⟨fbv w 19 13, fld w 14 4, fld w 9 4⟩))
  | 3 => unused w 13 1 (.ok (.lhn ⟨fbv w 19 13, fld w 14 4, fld w 9 4⟩))
  | 4 => unused w 13 1 (.ok (.lw ⟨fbv w 19 13, fld w 14 4, fld w 9 4⟩))
  | 5 => unused w 13 1 (.ok (.lwn ⟨fbv w 19 13, fld w 14 4, fld w 9 4⟩))
  | 6 => unused w 13 1 (.ok (.lx ⟨fbv w 19 13, fld w 14 4, fld w 9 4⟩))
  | 7 => .ok (.vld ⟨fbv w 19 13, fld w 14 4, fld w 9 5⟩)
  | 8 => .ok (.vldb ⟨fbv w 19 13, fld w 14 4, fld w 9 5⟩)
  | 9 => unused w 13 1 (.ok (.ldesc ⟨fbv w 19 13, fld w 14 4, fld w 9 4⟩))
  | _ => .error .unassignedOpcode

/-- Class 5, LD (R99). Mode 1: the base field is unused; LDESC and SDESC have no handle form. -/
def decodeLd1 (w : Nat) : Except Reject Instr :=
  unused w 14 4 <|
  match bits w 5 4 with
  | 0 => unused w 13 1 (.ok (.lbHandle ⟨fld w 24 8, fld w 22 2, fld w 19 3, fld w 9 4⟩))
  | 1 => unused w 13 1 (.ok (.lbnHandle ⟨fld w 24 8, fld w 22 2, fld w 19 3, fld w 9 4⟩))
  | 2 => unused w 13 1 (.ok (.lhHandle ⟨fld w 24 8, fld w 22 2, fld w 19 3, fld w 9 4⟩))
  | 3 => unused w 13 1 (.ok (.lhnHandle ⟨fld w 24 8, fld w 22 2, fld w 19 3, fld w 9 4⟩))
  | 4 => unused w 13 1 (.ok (.lwHandle ⟨fld w 24 8, fld w 22 2, fld w 19 3, fld w 9 4⟩))
  | 5 => unused w 13 1 (.ok (.lwnHandle ⟨fld w 24 8, fld w 22 2, fld w 19 3, fld w 9 4⟩))
  | 6 => unused w 13 1 (.ok (.lxHandle ⟨fld w 24 8, fld w 22 2, fld w 19 3, fld w 9 4⟩))
  | 7 => .ok (.vldHandle ⟨fld w 24 8, fld w 22 2, fld w 19 3, fld w 9 5⟩)
  | 8 => .ok (.vldbHandle ⟨fld w 24 8, fld w 22 2, fld w 19 3, fld w 9 5⟩)
  | _ => .error .unassignedOpcode

/-- Class 5, LD (R99). The mode bit selects the addressing. -/
def decodeLd (w : Nat) : Except Reject Instr :=
  if bits w 18 1 = 0 then decodeLd0 w else decodeLd1 w

/-- Class 6, ST (R99). Mode 0. -/
def decodeSt0 (w : Nat) : Except Reject Instr :=
  match bits w 5 4 with
  | 0 => unused w 13 1 (.ok (.sb ⟨fbv w 19 13, fld w 14 4, fld w 9 4⟩))
  | 1 => unused w 13 1 (.ok (.sh ⟨fbv w 19 13, fld w 14 4, fld w 9 4⟩))
  | 2 => unused w 13 1 (.ok (.sw ⟨fbv w 19 13, fld w 14 4, fld w 9 4⟩))
  | 3 => unused w 13 1 (.ok (.sx ⟨fbv w 19 13, fld w 14 4, fld w 9 4⟩))
  | 4 => .ok (.vst ⟨fbv w 19 13, fld w 14 4, fld w 9 5⟩)
  | 5 => .ok (.vstm ⟨fld w 29 3, fbv w 19 10, fld w 14 4, fld w 9 5⟩)
  | 6 => unused w 13 1 (.ok (.sdesc ⟨fbv w 19 13, fld w 14 4, fld w 9 4⟩))
  | _ => .error .unassignedOpcode

/-- Class 6, ST (R99). Mode 1: the base field is unused; LDESC and SDESC have no handle form. -/
def decodeSt1 (w : Nat) : Except Reject Instr :=
  unused w 14 4 <|
  match bits w 5 4 with
  | 0 => unused w 13 1 (.ok (.sbHandle ⟨fld w 24 8, fld w 22 2, fld w 19 3, fld w 9 4⟩))
  | 1 => unused w 13 1 (.ok (.shHandle ⟨fld w 24 8, fld w 22 2, fld w 19 3, fld w 9 4⟩))
  | 2 => unused w 13 1 (.ok (.swHandle ⟨fld w 24 8, fld w 22 2, fld w 19 3, fld w 9 4⟩))
  | 3 => unused w 13 1 (.ok (.sxHandle ⟨fld w 24 8, fld w 22 2, fld w 19 3, fld w 9 4⟩))
  | 4 => .ok (.vstHandle ⟨fld w 24 8, fld w 22 2, fld w 19 3, fld w 9 5⟩)
  | 5 => .ok (.vstmHandle ⟨fld w 29 3, fld w 24 5, fld w 22 2, fld w 19 3, fld w 9 5⟩)
  | _ => .error .unassignedOpcode

/-- Class 6, ST (R99). The mode bit selects the addressing. -/
def decodeSt (w : Nat) : Except Reject Instr :=
  if bits w 18 1 = 0 then decodeSt0 w else decodeSt1 w

/-- Class 7, AT (R96, R180). -/
def decodeAt (w : Nat) : Except Reject Instr :=
  match bits w 5 5 with
  | 0 => unused w 18 4 (withMode w fun m => .ldo ⟨m, fld w 14 4, fld w 10 4⟩)
  | 1 => unused w 10 4 (withMode w fun m => .sto ⟨m, fld w 18 4, fld w 14 4⟩)
  | 2 => withMode w fun m => .swap ⟨m, fld w 18 4, fld w 14 4, fld w 10 4⟩
  | 3 => withMode w fun m => .cas ⟨m, fld w 18 4, fld w 14 4, fld w 10 4⟩
  | 4 => withMode w fun m => .fadd ⟨m, fld w 18 4, fld w 14 4, fld w 10 4⟩
  | 5 => withMode w fun m => .fand ⟨m, fld w 18 4, fld w 14 4, fld w 10 4⟩
  | 6 => withMode w fun m => .atFor ⟨m, fld w 18 4, fld w 14 4, fld w 10 4⟩
  | 7 => withMode w fun m => .fxor ⟨m, fld w 18 4, fld w 14 4, fld w 10 4⟩
  | 8 => withMode w fun m => .fmin ⟨m, fld w 18 4, fld w 14 4, fld w 10 4⟩
  | 9 => withMode w fun m => .fmax ⟨m, fld w 18 4, fld w 14 4, fld w 10 4⟩
  | 10 => withMode w fun m => .fminn ⟨m, fld w 18 4, fld w 14 4, fld w 10 4⟩
  | 11 => withMode w fun m => .fmaxn ⟨m, fld w 18 4, fld w 14 4, fld w 10 4⟩
  | 12 => withMode w fun m => .faddf ⟨m, fld w 18 4, fld w 14 4, fld w 10 4⟩
  | 13 => unused w 18 4 (withMode w fun m => .take ⟨m, fld w 14 4, fld w 10 4⟩)
  | 14 => unused w 18 4 (withMode w fun m => .peek ⟨m, fld w 14 4, fld w 10 4⟩)
  | 15 => unused w 10 4 (withMode w fun m => .put ⟨m, fld w 18 4, fld w 14 4⟩)
  | 16 => withMode w fun m => .trytake ⟨m, fld w 18 4, fld w 14 4, fld w 10 4⟩
  | 17 => withMode w fun m => .tryput ⟨m, fld w 18 4, fld w 14 4, fld w 10 4⟩
  | 18 => unused w 10 4 (withMode w fun m => .fill ⟨m, fld w 18 4, fld w 14 4⟩)
  | 19 => unused w 18 4 (unused w 10 4 (withMode w fun m => .drain ⟨m, fld w 14 4⟩))
  | 20 => unused w 18 4 (withMode w fun m => .festat ⟨m, fld w 14 4, fld w 10 4⟩)
  | _ => .error .unassignedOpcode

/-- Class 8, SY (R188). -/
def decodeSy (w : Nat) : Except Reject Instr :=
  match bits w 5 5 with
  | 0 => unused w 18 4 (unused w 14 4 (unused w 10 4 (withCode (FenceKind.ofCode (bits w 27 5)) fun k => withCode (AgentScope.ofCode (bits w 22 3)) fun a => .ok (.fence k (Storage.ofCode (bits w 25 2)) a))))
  | 1 => unused w 27 5 (unused w 25 2 (unused w 22 3 (unused w 18 4 (.ok (.watch (fld w 14 4) (fld w 10 4))))))
  | 2 => unused w 27 5 (unused w 25 2 (unused w 22 3 (unused w 14 4 (.ok (.waitw (fld w 18 4) (fld w 10 4))))))
  | 3 => unused w 28 4 (unused w 25 2 (unused w 22 3 (unused w 18 4 (unused w 10 4 (.ok (.unwatch (fbool w 27) (fld w 14 4)))))))
  | 4 => unused w 27 5 (unused w 25 2 (unused w 22 3 (unused w 14 4 (unused w 10 4 (.ok (.yieldx (fld w 18 4)))))))
  | 5 => unused w 22 3 (unused w 18 4 (unused w 14 4 (unused w 10 4 (if h : bits w 27 5 < 5 then .ok (.bsync ⟨bits w 27 5, h⟩ (Storage.ofCode (bits w 25 2))) else .error .reservedCode))))
  | 6 => unused w 27 5 (unused w 25 2 (unused w 22 3 (unused w 10 4 (.ok (.xsend (fld w 18 4) (fld w 14 4))))))
  | 7 => unused w 27 5 (unused w 25 2 (unused w 22 3 (unused w 18 4 (.ok (.xrecv (fld w 14 4) (fld w 10 4))))))
  | 8 => unused w 27 5 (unused w 22 3 (unused w 18 4 (unused w 14 4 (unused w 10 4 (.ok (.xend (Storage.ofCode (bits w 25 2))))))))
  | 9 => unused w 30 2 (unused w 25 2 (unused w 22 3 (unused w 10 4 (.ok (.cbinit (fld w 27 3) (fld w 18 4) (fld w 14 4))))))
  | 10 => unused w 31 1 (unused w 25 2 (unused w 22 3 (unused w 14 4 (.ok (.cbwait (fbool w 30) (fld w 27 3) (fld w 18 4) (fld w 10 4))))))
  | 11 => unused w 30 2 (unused w 25 2 (unused w 22 3 (unused w 14 4 (unused w 10 4 (.ok (.cbadv (fld w 27 3) (fld w 18 4)))))))
  | 12 => unused w 30 2 (unused w 25 2 (unused w 22 3 (unused w 14 4 (unused w 10 4 (.ok (.cbpush (fld w 27 3) (fld w 18 4)))))))
  | 13 => unused w 27 5 (unused w 25 2 (unused w 18 4 (withCode (AgentScope.ofCode (bits w 22 3)) fun s => .ok (.publ s (fld w 14 4) (fld w 10 4)))))
  | 14 => unused w 27 5 (unused w 25 2 (unused w 22 3 (unused w 18 4 (unused w 14 4 (.ok (.tick (fld w 10 4)))))))
  | 15 => unused w 27 5 (unused w 25 2 (unused w 22 3 (unused w 18 4 (.ok (.waitt (fld w 14 4) (fld w 10 4))))))
  | 16 => unused w 27 5 (unused w 25 2 (unused w 22 3 (unused w 10 4 (.ok (.dsplit (fld w 18 4) (fld w 14 4))))))
  | _ => .error .unassignedOpcode

/-- Class 9, TE (R230). -/
def decodeTe (w : Nat) : Except Reject Instr :=
  unused w 30 2 <|
  match bits w 5 5 with
  | 0 => unused w 28 2 (withCode (Transpose.ofCode (bits w 24 2)) fun t => .ok (.tld ⟨fbool w 27, fbool w 26, t, fld w 22 2, fld w 18 4, fld w 14 4, fld w 10 4⟩))
  | 1 => unused w 28 2 (unused w 24 2 (.ok (.tst ⟨fbool w 27, fbool w 26, fld w 22 2, fld w 18 4, fld w 14 4, fld w 10 4⟩)))
  | 2 => unused w 26 1 (withCode (TmmaCtl.ofCode (bits w 27 3)) fun c => .ok (.tmma ⟨c, fbool w 24, fbool w 25, fld w 22 2, fld w 18 4, fld w 14 4, fld w 10 4⟩))
  | 3 => unused w 28 2 (unused w 22 5 (.ok (.twld ⟨fbool w 27, fld w 18 4, fld w 14 4, fld w 10 4⟩)))
  | 4 => unused w 18 12 (.ok (.tcbt ⟨fld w 14 4, fld w 10 4⟩))
  | 5 => unused w 27 3 (unused w 24 2 (unused w 14 4 (.ok (.tzero ⟨fbool w 26, fld w 22 2, fld w 18 4, fld w 10 4⟩))))
  | 6 => unused w 27 3 (unused w 24 2 (.ok (.tscale ⟨fbool w 26, fld w 22 2, fld w 18 4, fld w 14 4, fld w 10 4⟩)))
  | 7 => unused w 27 3 (unused w 24 2 (unused w 14 4 (.ok (.tvfy ⟨fbool w 26, fld w 22 2, fld w 18 4, fld w 10 4⟩))))
  | 8 => unused w 22 8 (.ok (.trem ⟨fld w 18 4, fld w 14 4, fld w 10 4⟩))
  | 9 => unused w 22 8 (.ok (.tcap ⟨fld w 18 4, fld w 14 4, fld w 10 4⟩))
  | 10 => unused w 22 8 (.ok (.tcfg ⟨fld w 18 4, fld w 14 4, fld w 10 4⟩))
  | _ => .error .unassignedOpcode

/-- Class 10, CP (R271). -/
def decodeCp (w : Nat) : Except Reject Instr :=
  match bits w 5 5 with
  | 0 => unused w 31 1 (unused w 18 4 (withCode (Transpose.ofCode (bits w 22 2)) fun t => withCode (PackMode.ofCode (bits w 25 2)) fun p => .ok (.cpy ⟨fld w 28 3, fbool w 27, p, fbool w 24, t, fld w 14 4, fld w 10 4⟩)))
  | 1 => unused w 22 10 (unused w 18 4 (.ok (.cgather ⟨fld w 14 4, fld w 10 4⟩)))
  | 2 => unused w 22 10 (unused w 18 4 (.ok (.cscatter ⟨fld w 14 4, fld w 10 4⟩)))
  | 3 => unused w 25 7 (unused w 18 4 (if h : bits w 22 3 < 5 then .ok (.cred ⟨⟨bits w 22 3, h⟩, fld w 14 4, fld w 10 4⟩) else .error .reservedCode))
  | 4 => unused w 22 10 (.ok (.cqput ⟨fld w 18 4, fld w 14 4, fld w 10 4⟩))
  | 5 => unused w 22 10 (.ok (.cdep ⟨fld w 18 4, fld w 14 4, fld w 10 4⟩))
  | 6 => unused w 22 10 (unused w 18 4 (unused w 14 4 (.ok (.ccancel (fld w 10 4)))))
  | _ => .error .unassignedOpcode

/-- Class 11, GR (R255). -/
def decodeGr (w : Nat) : Except Reject Instr :=
  match bits w 5 5 with
  | 0 => unused w 29 3 (unused w 18 4 (withCode (LiftOp.ofCode (bits w 24 4)) fun o => .ok (.gbind ⟨fbool w 28, o, fld w 22 2, fld w 14 4, fld w 10 4⟩)))
  | 1 => unused w 24 8 (.ok (.geval ⟨fld w 22 2, fld w 18 4, fld w 14 4, fld w 10 4⟩))
  | 2 => unused w 24 8 (.ok (.glen ⟨fld w 22 2, fld w 18 4, fld w 14 4, fld w 10 4⟩))
  | 3 => unused w 29 3 (unused w 24 4 (.ok (.gspine ⟨fbool w 28, fld w 22 2, fld w 18 4, fld w 14 4, fld w 10 4⟩)))
  | 4 => unused w 29 3 (unused w 24 4 (.ok (.gocc ⟨fbool w 28, fld w 22 2, fld w 18 4, fld w 14 4, fld w 10 4⟩)))
  | 5 => unused w 29 3 (unused w 24 4 (.ok (.gunf ⟨fbool w 28, fld w 22 2, fld w 18 4, fld w 14 4, fld w 10 4⟩)))
  | 6 => unused w 24 8 (unused w 18 4 (.ok (.gloc ⟨fld w 22 2, fld w 14 4, fld w 10 4⟩)))
  | 7 => unused w 24 8 (.ok (.glook ⟨fld w 22 2, fld w 18 4, fld w 14 4, fld w 10 4⟩))
  | 8 => unused w 24 8 (unused w 18 4 (unused w 14 4 (.ok (.grelease ⟨fld w 22 2, fld w 10 4⟩))))
  | _ => .error .unassignedOpcode

/-- Class 12, RE (R272). -/
def decodeRe (w : Nat) : Except Reject Instr :=
  match bits w 5 5 with
  | 0 => unused w 24 8 (unused w 18 4 (.ok (.rfmatch ⟨fld w 22 2, fld w 14 4, fld w 10 4⟩)))
  | 1 => unused w 24 8 (unused w 18 4 (.ok (.rfmerge ⟨fld w 22 2, fld w 14 4, fld w 10 4⟩)))
  | 2 => unused w 24 8 (unused w 18 4 (.ok (.rfshake ⟨fld w 22 2, fld w 14 4, fld w 10 4⟩)))
  | 3 => unused w 24 8 (unused w 18 4 (.ok (.rflogs ⟨fld w 22 2, fld w 14 4, fld w 10 4⟩)))
  | 4 => unused w 24 8 (unused w 18 4 (unused w 14 4 (.ok (.rffree ⟨fld w 22 2, fld w 10 4⟩))))
  | 5 => unused w 22 10 (unused w 18 4 (.ok (.nbcfg ⟨fld w 14 4, fld w 10 4⟩)))
  | 6 => unused w 22 10 (.ok (.nbpost ⟨fld w 18 4, fld w 14 4, fld w 10 4⟩))
  | 7 => unused w 22 10 (unused w 18 4 (.ok (.nbadv ⟨fld w 14 4, fld w 10 4⟩)))
  | 8 => unused w 22 10 (.ok (.nbrd ⟨fld w 18 4, fld w 14 4, fld w 10 4⟩))
  | 9 => unused w 22 10 (.ok (.nbwr ⟨fld w 18 4, fld w 14 4, fld w 10 4⟩))
  | 10 => unused w 22 10 (.ok (.nbspk ⟨fld w 18 4, fld w 14 4, fld w 10 4⟩))
  | _ => .error .unassignedOpcode

/-- Class 13, SYS (R325). -/
def decodeSys (w : Nat) : Except Reject Instr :=
  match bits w 5 5 with
  | 0 => unused w 25 7 (unused w 10 4 (.ok (.hstart (fld w 22 3) (fld w 18 4) (fld w 14 4))))
  | 1 => unused w 25 7 (unused w 18 4 (unused w 14 4 (.ok (.hjoin (fld w 22 3) (fld w 10 4)))))
  | 2 => unused w 22 10 (unused w 18 4 (unused w 10 4 (.ok (.hend (fld w 14 4)))))
  | 3 => unused w 18 4 (unused w 14 4 (unused w 10 4 (.ok (.phint (fbv w 22 10)))))
  | 4 => unused w 18 4 (unused w 10 4 (.ok (.trap (fbv w 22 10) (fld w 14 4))))
  | 5 => unused w 18 4 (unused w 14 4 (.ok (.csrrd (fbv w 22 10) (fld w 10 4))))
  | 6 => unused w 18 4 (unused w 10 4 (.ok (.csrwr (fbv w 22 10) (fld w 14 4))))
  | 7 => unused w 22 10 (unused w 18 4 (unused w 14 4 (unused w 10 4 (.ok .gend))))
  | 8 => unused w 18 4 (unused w 14 4 (unused w 10 4 (.ok (.brk (fbv w 22 10)))))
  | _ => .error .unassignedOpcode

/-- A short parcel by its format bits (R87). -/
def decodeShort (w : Nat) : Except Reject Instr :=
  match bits w 1 2 with
  | 0 => decodeSv w
  | 1 => decodeSs w
  | 2 => decodeSb w
  | _ => decodeSp w

/-- A long word by its class (R95, R96). -/
def decodeLong (w : Nat) : Except Reject Instr :=
  match bits w 1 4 with
  | 0 => decodeSalu w
  | 1 => decodeSimm w
  | 2 => decodeBr w
  | 3 => decodeVa w
  | 4 => decodeVx w
  | 5 => decodeLd w
  | 6 => decodeSt w
  | 7 => decodeAt w
  | 8 => decodeSy w
  | 9 => decodeTe w
  | 10 => decodeCp w
  | 11 => decodeGr w
  | 12 => decodeRe w
  | 13 => decodeSys w
  | _ => .error .reservedClass

/-- Bit 0 of the first parcel gives the length (R80). -/
def decodeRaw (w : Nat) : Except Reject Instr :=
  if w % 2 = 0 then decodeShort (w % 65536) else decodeLong w

/-- The form that a 32-bit window starting at an instruction holds: raw decoding, then the limits of its owning
rule (R104). A short form reads the low parcel only. -/
def decodeWord (w : Nat) : Except Reject Instr :=
  match decodeRaw w with
  | .error e => .error e
  | .ok i => if i.wf then .ok i else .error .reservedCode

/-- The value of bytes in ascending address order (R2). -/
def leNat : List Byte → Nat
  | [] => 0
  | b :: bs => b.toNat + 256 * leNat bs

/-- The `n` low bytes of `x` in ascending address order (R2). -/
def leBytes : Nat → Nat → List Byte
  | 0, _ => []
  | n + 1, x => BitVec.ofNat 8 x :: leBytes n (x / 256)

/-- Decode the form at the head of a list of bytes; the rest of the list is returned (R80). -/
def decode : List Byte → Except Reject (Instr × List Byte)
  | b0 :: b1 :: bs =>
    if b0.toNat % 2 = 0 then
      match decodeWord (leNat [b0, b1]) with
      | .ok i => .ok (i, bs)
      | .error e => .error e
    else
      match bs with
      | b2 :: b3 :: rest =>
        match decodeWord (leNat [b0, b1, b2, b3]) with
        | .ok i => .ok (i, rest)
        | .error e => .error e
      | _ => .error .truncated
  | _ => .error .truncated

/-- The host's reading of a table word: its bytes as the hardware stores them, zeros above. -/
def decodeTableWord (nbits w : Nat) : Option Instr :=
  match decode (leBytes 4 (w % 2 ^ nbits)) with
  | .ok (i, _) => some i
  | .error _ => none

/-! ### The encoder -/

/-- Class and opcode of a long word (R96); the opcode begins at bit 5. -/
def encLong (cls op : Nat) : Nat := 1 + 2 * cls + 32 * op

/-- Class and kind of an LD or ST word (R99). -/
def encLd (cls kind : Nat) : Nat := 1 + 2 * cls + 32 * kind

/-- An SV parcel (R87). -/
def encSv (op : Nat) (x : SvArgs) : Nat := 8 * op + 128 * x.ty + 1024 * x.kd + 8192 * x.src

/-- An SS parcel with a source register (R87). -/
def encSs (op : Nat) (x : SsArgs) : Nat := 2 + 8 * op + 128 * x.gd + 2048 * x.gs

/-- An SS parcel with an immediate (R87). -/
def encSsImm (op : Nat) (x : SsImmArgs) : Nat := 2 + 8 * op + 128 * x.gd + 2048 * x.imm.toNat

/-- An SB parcel (R87). -/
def encSb (cond : Nat) (d : BitVec 7) (gs : GReg) : Nat := 4 + 8 * cond + 32 * gs + 512 * d.toNat

/-- A SALU word with two sources (R96). -/
def encSalu (op : Nat) (x : SaluArgs) : Nat := encLong 0 op + 2048 * x.gd + 32768 * x.ga + 524288 * x.gb

/-- A conditional branch (R96). -/
def encBr (kind : Nat) (x : BrArgs) : Nat := 5 + 32 * kind + 256 * x.ga + 4096 * x.gb + 65536 * x.disp.toNat

/-- A VA word with two sources (R95). -/
def encVa (op : Nat) (x : VaArgs) : Nat :=
  encLong 3 op + 1024 * x.ty + 8192 * x.agn.toNat + 16384 * x.mask + 131072 * x.vd + 4194304 * x.va + 134217728 * x.vb

/-- Size of an AT access (R100). -/
def AtSize.code (z : AtSize) : Nat :=
  match z with
  | .w => 0
  | .x => 1

/-- Size, scopes and order of an AT word (R96). -/
def encMode (m : AtMode) : Nat :=
  4194304 * m.order.code + 16777216 * m.agent.code + 134217728 * m.storage.code + 536870912 * m.size.code

/-- The parcel or word of an instruction (R87 to R101); the event rows have no encoding. -/
def encode (i : Instr) : Nat :=
  match i with
  | .vaddShort x => encSv 0 x
  | .vsubShort x => encSv 1 x
  | .vmulShort x => encSv 2 x
  | .vmac x => encSv 3 x
  | .vminShort x => encSv 4 x
  | .vmaxShort x => encSv 5 x
  | .vandShort x => encSv 6 x
  | .vorShort x => encSv 7 x
  | .vxorShort x => encSv 8 x
  | .vshlShort x => encSv 9 x
  | .vshrShort x => encSv 10 x
  | .vshrlShort x => encSv 11 x
  | .vmovShort x => encSv 12 x
  | .vneg x => encSv 13 x
  | .vabs x => encSv 14 x
  | .vcmpltShort x => encSv 15 x
  | .addShort x => encSs 0 x
  | .subShort x => encSs 1 x
  | .addi4 x => encSsImm 2 x
  | .mov x => encSs 3 x
  | .li4 x => encSsImm 4 x
  | .andShort x => encSs 5 x
  | .orShort x => encSs 6 x
  | .xorShort x => encSs 7 x
  | .shliShort x => encSsImm 8 x
  | .shriShort x => encSsImm 9 x
  | .shrliShort x => encSsImm 10 x
  | .lw16 x => encSs 11 x
  | .sw16 x => encSs 12 x
  | .lx16 x => encSs 13 x
  | .sx16 x => encSs 14 x
  | .sltShort x => encSs 15 x
  | .beqz x => encSb 0 x.disp x.gs
  | .bnez x => encSb 1 x.disp x.gs
  | .bra d => encSb 2 d 0
  | .bltz x => encSb 3 x.disp x.gs
  | .nop => 6
  | .triple => 14
  | .wide p => 22 + 64 * p.toNat
  | .yield => 30
  | .add x => encSalu 0 x
  | .sub x => encSalu 1 x
  | .mul x => encSalu 2 x
  | .mulh x => encSalu 3 x
  | .mulhn x => encSalu 4 x
  | .div x => encSalu 5 x
  | .divn x => encSalu 6 x
  | .rem x => encSalu 7 x
  | .remn x => encSalu 8 x
  | .and x => encSalu 9 x
  | .or x => encSalu 10 x
  | .xor x => encSalu 11 x
  | .andn x => encSalu 12 x
  | .shl x => encSalu 13 x
  | .shr x => encSalu 14 x
  | .shrl x => encSalu 15 x
  | .rol x => encSalu 16 x
  | .slt x => encSalu 17 x
  | .sltn x => encSalu 18 x
  | .min x => encSalu 19 x
  | .max x => encSalu 20 x
  | .minn x => encSalu 21 x
  | .maxn x => encSalu 22 x
  | .clz x => encLong 0 23 + 2048 * x.gd + 32768 * x.ga
  | .ctz x => encLong 0 24 + 2048 * x.gd + 32768 * x.ga
  | .popc x => encLong 0 25 + 2048 * x.gd + 32768 * x.ga
  | .sel x => encSalu 26 x
  | .exts x => encSalu 27 x
  | .extz x => encSalu 28 x
  | .bfx x => encSalu 29 x
  | .bfi x => encSalu 30 x
  | .adds x => encSalu 31 x
  | .addi x => encLong 1 0 + 1024 * x.gd + 16384 * x.ga + 262144 * x.imm.toNat
  | .andi x => encLong 1 1 + 1024 * x.gd + 16384 * x.ga + 262144 * x.imm.toNat
  | .ori x => encLong 1 2 + 1024 * x.gd + 16384 * x.ga + 262144 * x.imm.toNat
  | .xori x => encLong 1 3 + 1024 * x.gd + 16384 * x.ga + 262144 * x.imm.toNat
  | .shli x => encLong 1 4 + 1024 * x.gd + 16384 * x.ga + 262144 * x.k
  | .shri x => encLong 1 5 + 1024 * x.gd + 16384 * x.ga + 262144 * x.k
  | .shrli x => encLong 1 6 + 1024 * x.gd + 16384 * x.ga + 262144 * x.k
  | .slti x => encLong 1 7 + 1024 * x.gd + 16384 * x.ga + 262144 * x.imm.toNat
  | .sltni x => encLong 1 8 + 1024 * x.gd + 16384 * x.ga + 262144 * x.imm.toNat
  | .lis x => encLong 1 9 + 1024 * x.gd + 16384 * x.ga + 262144 * x.imm.toNat
  | .addpc i gd => encLong 1 10 + 1024 * gd + 262144 * i.toNat
  | .muli x => encLong 1 11 + 1024 * x.gd + 16384 * x.ga + 262144 * x.imm.toNat
  | .beq x => encBr 0 x
  | .bne x => encBr 1 x
  | .blt x => encBr 2 x
  | .bge x => encBr 3 x
  | .bltn x => encBr 4 x
  | .bgen x => encBr 5 x
  | .jal d l => 5 + 32 * 6 + 256 * l + 4096 * d.toNat
  | .jalr b l => 5 + 32 * 7 + 256 * l + 4096 * b
  | .vadd x => encVa 0 x
  | .vsub x => encVa 1 x
  | .vmul x => encVa 2 x
  | .vmulh x => encVa 3 x
  | .vfma x => encVa 4 x
  | .vfms x => encVa 5 x
  | .vmin x => encVa 6 x
  | .vmax x => encVa 7 x
  | .vminn x => encVa 8 x
  | .vmaxn x => encVa 9 x
  | .vand x => encVa 10 x
  | .vor x => encVa 11 x
  | .vxor x => encVa 12 x
  | .vshl x => encVa 13 x
  | .vshr x => encVa 14 x
  | .vshrl x => encVa 15 x
  | .vadds x => encVa 16 x
  | .vaddsn x => encVa 17 x
  | .vsubs x => encVa 18 x
  | .vabsd x => encVa 19 x
  | .vdiv x => encVa 20 x
  | .vsqrt x => encLong 3 21 + 1024 * x.ty + 8192 * x.agn.toNat + 16384 * x.mask + 131072 * x.vd + 4194304 * x.va
  | .vrcp x => encLong 3 22 + 1024 * x.ty + 8192 * x.agn.toNat + 16384 * x.mask + 131072 * x.vd + 4194304 * x.va
  | .vexp2 x => encLong 3 23 + 1024 * x.ty + 8192 * x.agn.toNat + 16384 * x.mask + 131072 * x.vd + 4194304 * x.va
  | .vscale x => encVa 24 x
  | .vcmpeq x => encVa 25 x
  | .vcmplt x => encVa 26 x
  | .vcmple x => encVa 27 x
  | .vcmpltn x => encVa 28 x
  | .vsel x => encLong 3 29 + 1024 * x.ty + 16384 * x.mask + 131072 * x.vd + 4194304 * x.va + 134217728 * x.vb
  | .vdot4 x => encVa 30 x
  | .vdot2 x => encVa 31 x
  | .vcvtff x => encLong 4 0 + 1073741824 * x.rnd.code + 33554432 * x.va + 1048576 * x.vd + 131072 * x.mask + 65536 * x.agn.toNat + 8192 * x.tb + 1024 * x.ta
  | .vcvtfi x => encLong 4 1 + 1073741824 * x.rnd.code + 33554432 * x.va + 1048576 * x.vd + 131072 * x.mask + 65536 * x.agn.toNat + 8192 * x.tb + 1024 * x.ta
  | .vcvtif x => encLong 4 2 + 1073741824 * x.rnd.code + 33554432 * x.va + 1048576 * x.vd + 131072 * x.mask + 65536 * x.agn.toNat + 8192 * x.tb + 1024 * x.ta
  | .vcvtii x => encLong 4 3 + 1073741824 * x.rnd.code + 33554432 * x.va + 1048576 * x.vd + 131072 * x.mask + 65536 * x.agn.toNat + 8192 * x.tb + 1024 * x.ta
  | .vquant x => encLong 4 4 + 1073741824 * x.rnd.code + 33554432 * x.ga + 1048576 * x.gd + 8192 * x.tb + 1024 * x.ta
  | .vdeq x => encLong 4 5 + 1073741824 * x.rnd.code + 33554432 * x.ga + 1048576 * x.vd + 131072 * x.mask + 65536 * x.agn.toNat + 8192 * x.tb
  | .vbcast x => encLong 4 6 + 33554432 * x.ga + 1048576 * x.vd + 131072 * x.mask + 65536 * x.agn.toNat + 1024 * x.ta
  | .vget x => encLong 4 7 + 33554432 * x.va + 1048576 * x.gd + 1024 * x.ta
  | .vput x => encLong 4 8 + 33554432 * x.ga + 1048576 * x.vd + 1024 * x.ta
  | .vperm x => encLong 4 9 + 33554432 * x.va + 1048576 * x.vd + 131072 * x.mask + 65536 * x.agn.toNat + 1024 * x.ta
  | .vcompr x => encLong 4 10 + 33554432 * x.va + 1048576 * x.vd + 131072 * x.mask + 1024 * x.ta
  | .vexpnd x => encLong 4 11 + 33554432 * x.va + 1048576 * x.vd + 131072 * x.mask + 65536 * x.agn.toNat + 1024 * x.ta
  | .vredadd x => encLong 4 12 + 33554432 * x.va + 1048576 * x.vd + 131072 * x.mask + 8192 * x.tb + 1024 * x.ta
  | .vredmax x => encLong 4 13 + 33554432 * x.va + 1048576 * x.vd + 131072 * x.mask + 8192 * x.tb + 1024 * x.ta
  | .vredmin x => encLong 4 14 + 33554432 * x.va + 1048576 * x.vd + 131072 * x.mask + 8192 * x.tb + 1024 * x.ta
  | .vscanadd x => encLong 4 15 + 33554432 * x.va + 1048576 * x.vd + 131072 * x.mask + 8192 * x.tb + 1024 * x.ta
  | .vmask ga vd => encLong 4 16 + 1048576 * vd + 33554432 * ga
  | .vpopm x => encLong 4 17 + 33554432 * x.va + 1048576 * x.gd + 1024 * x.ta
  | .vfirst x => encLong 4 18 + 33554432 * x.va + 1048576 * x.gd + 1024 * x.ta
  | .viota x => encLong 4 19 + 33554432 * x.va + 1048576 * x.vd + 131072 * x.mask + 65536 * x.agn.toNat + 1024 * x.ta
  | .vbmenc x => encLong 4 20 + 33554432 * x.va + 1048576 * x.gd + 131072 * x.mask + 8192 * x.tb + 1024 * x.ta
  | .vbmdec x => encLong 4 21 + 33554432 * x.ga + 1048576 * x.vd + 131072 * x.mask + 65536 * x.agn.toNat + 8192 * x.tb + 1024 * x.ta
  | .vcbdec x => encLong 4 22 + 1073741824 * x.rnd.code + 33554432 * x.ga + 1048576 * x.vd + 131072 * x.mask + 65536 * x.agn.toNat + 8192 * x.tb
  | .vmov x => encLong 4 23 + 33554432 * x.va + 1048576 * x.vd + 131072 * x.mask + 65536 * x.agn.toNat + 1024 * x.ta
  | .vrndseed va m => encLong 4 24 + 131072 * m + 33554432 * va
  | .vclass x => encLong 4 25 + 33554432 * x.va + 1048576 * x.vd + 131072 * x.mask + 65536 * x.agn.toNat + 1024 * x.ta
  | .lb x => encLd 5 0 + 512 * x.reg + 16384 * x.base + 524288 * x.disp.toNat
  | .lbn x => encLd 5 1 + 512 * x.reg + 16384 * x.base + 524288 * x.disp.toNat
  | .lh x => encLd 5 2 + 512 * x.reg + 16384 * x.base + 524288 * x.disp.toNat
  | .lhn x => encLd 5 3 + 512 * x.reg + 16384 * x.base + 524288 * x.disp.toNat
  | .lw x => encLd 5 4 + 512 * x.reg + 16384 * x.base + 524288 * x.disp.toNat
  | .lwn x => encLd 5 5 + 512 * x.reg + 16384 * x.base + 524288 * x.disp.toNat
  | .lx x => encLd 5 6 + 512 * x.reg + 16384 * x.base + 524288 * x.disp.toNat
  | .vld x => encLd 5 7 + 512 * x.reg + 16384 * x.base + 524288 * x.disp.toNat
  | .vldb x => encLd 5 8 + 512 * x.reg + 16384 * x.base + 524288 * x.disp.toNat
  | .ldesc x => encLd 5 9 + 512 * x.reg + 16384 * x.base + 524288 * x.disp.toNat
  | .lbHandle x => encLd 5 0 + 262144 + 512 * x.reg + 524288 * x.h + 4194304 * x.need + 16777216 * x.off
  | .lbnHandle x => encLd 5 1 + 262144 + 512 * x.reg + 524288 * x.h + 4194304 * x.need + 16777216 * x.off
  | .lhHandle x => encLd 5 2 + 262144 + 512 * x.reg + 524288 * x.h + 4194304 * x.need + 16777216 * x.off
  | .lhnHandle x => encLd 5 3 + 262144 + 512 * x.reg + 524288 * x.h + 4194304 * x.need + 16777216 * x.off
  | .lwHandle x => encLd 5 4 + 262144 + 512 * x.reg + 524288 * x.h + 4194304 * x.need + 16777216 * x.off
  | .lwnHandle x => encLd 5 5 + 262144 + 512 * x.reg + 524288 * x.h + 4194304 * x.need + 16777216 * x.off
  | .lxHandle x => encLd 5 6 + 262144 + 512 * x.reg + 524288 * x.h + 4194304 * x.need + 16777216 * x.off
  | .vldHandle x => encLd 5 7 + 262144 + 512 * x.reg + 524288 * x.h + 4194304 * x.need + 16777216 * x.off
  | .vldbHandle x => encLd 5 8 + 262144 + 512 * x.reg + 524288 * x.h + 4194304 * x.need + 16777216 * x.off
  | .sb x => encLd 6 0 + 512 * x.reg + 16384 * x.base + 524288 * x.disp.toNat
  | .sh x => encLd 6 1 + 512 * x.reg + 16384 * x.base + 524288 * x.disp.toNat
  | .sw x => encLd 6 2 + 512 * x.reg + 16384 * x.base + 524288 * x.disp.toNat
  | .sx x => encLd 6 3 + 512 * x.reg + 16384 * x.base + 524288 * x.disp.toNat
  | .vst x => encLd 6 4 + 512 * x.reg + 16384 * x.base + 524288 * x.disp.toNat
  | .vstm x => encLd 6 5 + 512 * x.reg + 16384 * x.base + 524288 * x.disp.toNat + 536870912 * x.mask
  | .sdesc x => encLd 6 6 + 512 * x.reg + 16384 * x.base + 524288 * x.disp.toNat
  | .sbHandle x => encLd 6 0 + 262144 + 512 * x.reg + 524288 * x.h + 4194304 * x.need + 16777216 * x.off
  | .shHandle x => encLd 6 1 + 262144 + 512 * x.reg + 524288 * x.h + 4194304 * x.need + 16777216 * x.off
  | .swHandle x => encLd 6 2 + 262144 + 512 * x.reg + 524288 * x.h + 4194304 * x.need + 16777216 * x.off
  | .sxHandle x => encLd 6 3 + 262144 + 512 * x.reg + 524288 * x.h + 4194304 * x.need + 16777216 * x.off
  | .vstHandle x => encLd 6 4 + 262144 + 512 * x.reg + 524288 * x.h + 4194304 * x.need + 16777216 * x.off
  | .vstmHandle x => encLd 6 5 + 262144 + 512 * x.reg + 524288 * x.h + 4194304 * x.need + 16777216 * x.off + 536870912 * x.mask
  | .ldo x => encLong 7 0 + encMode x.m + 1024 * x.gd + 16384 * x.ga
  | .sto x => encLong 7 1 + encMode x.m + 16384 * x.ga + 262144 * x.gb
  | .swap x => encLong 7 2 + encMode x.m + 1024 * x.gd + 16384 * x.ga + 262144 * x.gb
  | .cas x => encLong 7 3 + encMode x.m + 1024 * x.gd + 16384 * x.ga + 262144 * x.gb
  | .fadd x => encLong 7 4 + encMode x.m + 1024 * x.gd + 16384 * x.ga + 262144 * x.gb
  | .fand x => encLong 7 5 + encMode x.m + 1024 * x.gd + 16384 * x.ga + 262144 * x.gb
  | .atFor x => encLong 7 6 + encMode x.m + 1024 * x.gd + 16384 * x.ga + 262144 * x.gb
  | .fxor x => encLong 7 7 + encMode x.m + 1024 * x.gd + 16384 * x.ga + 262144 * x.gb
  | .fmin x => encLong 7 8 + encMode x.m + 1024 * x.gd + 16384 * x.ga + 262144 * x.gb
  | .fmax x => encLong 7 9 + encMode x.m + 1024 * x.gd + 16384 * x.ga + 262144 * x.gb
  | .fminn x => encLong 7 10 + encMode x.m + 1024 * x.gd + 16384 * x.ga + 262144 * x.gb
  | .fmaxn x => encLong 7 11 + encMode x.m + 1024 * x.gd + 16384 * x.ga + 262144 * x.gb
  | .faddf x => encLong 7 12 + encMode x.m + 1024 * x.gd + 16384 * x.ga + 262144 * x.gb
  | .take x => encLong 7 13 + encMode x.m + 1024 * x.gd + 16384 * x.ga
  | .peek x => encLong 7 14 + encMode x.m + 1024 * x.gd + 16384 * x.ga
  | .put x => encLong 7 15 + encMode x.m + 16384 * x.ga + 262144 * x.gb
  | .trytake x => encLong 7 16 + encMode x.m + 1024 * x.gd + 16384 * x.ga + 262144 * x.gb
  | .tryput x => encLong 7 17 + encMode x.m + 1024 * x.gd + 16384 * x.ga + 262144 * x.gb
  | .fill x => encLong 7 18 + encMode x.m + 16384 * x.ga + 262144 * x.gb
  | .drain x => encLong 7 19 + encMode x.m + 16384 * x.ga
  | .festat x => encLong 7 20 + encMode x.m + 1024 * x.gd + 16384 * x.ga
  | .fence k s a => encLong 8 0 + 4194304 * a.code + 33554432 * s.code + 134217728 * k.code
  | .watch ga gd => encLong 8 1 + 1024 * gd + 16384 * ga
  | .waitw gb gd => encLong 8 2 + 1024 * gd + 262144 * gb
  | .unwatch al ga => encLong 8 3 + 16384 * ga + 134217728 * al.toNat
  | .yieldx gb => encLong 8 4 + 262144 * gb
  | .bsync lv s => encLong 8 5 + 33554432 * s.code + 134217728 * lv
  | .xsend gb ga => encLong 8 6 + 16384 * ga + 262144 * gb
  | .xrecv ga gd => encLong 8 7 + 1024 * gd + 16384 * ga
  | .xend s => encLong 8 8 + 33554432 * s.code
  | .cbinit h gb ga => encLong 8 9 + 16384 * ga + 262144 * gb + 134217728 * h
  | .cbwait f h gb gd => encLong 8 10 + 1024 * gd + 262144 * gb + 134217728 * h + 1073741824 * f.toNat
  | .cbadv h gb => encLong 8 11 + 262144 * gb + 134217728 * h
  | .cbpush h gb => encLong 8 12 + 262144 * gb + 134217728 * h
  | .publ s ga gd => encLong 8 13 + 1024 * gd + 16384 * ga + 4194304 * s.code
  | .tick gd => encLong 8 14 + 1024 * gd
  | .waitt ga gd => encLong 8 15 + 1024 * gd + 16384 * ga
  | .dsplit gb ga => encLong 8 16 + 16384 * ga + 262144 * gb
  | .tld x => encLong 9 0 + 1024 * x.gs + 16384 * x.ga + 262144 * x.gb + 4194304 * x.acc + 16777216 * x.tr.code + 67108864 * x.s.toNat + 134217728 * x.bolt.toNat
  | .tst x => encLong 9 1 + 1024 * x.gs + 16384 * x.ga + 262144 * x.gb + 4194304 * x.acc + 67108864 * x.s.toNat + 134217728 * x.bolt.toNat
  | .tmma x => encLong 9 2 + 1024 * x.gs + 16384 * x.ga + 262144 * x.gb + 4194304 * x.acc + 16777216 * x.h.toNat + 33554432 * x.adv.toNat + 134217728 * x.ctl.code
  | .twld x => encLong 9 3 + 1024 * x.gs + 16384 * x.ga + 262144 * x.gb + 134217728 * x.chk.toNat
  | .tcbt x => encLong 9 4 + 1024 * x.gs + 16384 * x.ga
  | .tzero x => encLong 9 5 + 1024 * x.gs + 262144 * x.gb + 4194304 * x.acc + 67108864 * x.s.toNat
  | .tscale x => encLong 9 6 + 1024 * x.gs + 16384 * x.ga + 262144 * x.gb + 4194304 * x.acc + 67108864 * x.s.toNat
  | .tvfy x => encLong 9 7 + 1024 * x.gs + 262144 * x.gb + 4194304 * x.acc + 67108864 * x.s.toNat
  | .trem x => encLong 9 8 + 1024 * x.gs + 16384 * x.ga + 262144 * x.gb
  | .tcap x => encLong 9 9 + 1024 * x.gs + 16384 * x.ga + 262144 * x.gb
  | .tcfg x => encLong 9 10 + 1024 * x.gs + 16384 * x.ga + 262144 * x.gb
  | .cpy x => encLong 10 0 + 1024 * x.gs + 16384 * x.ga + 4194304 * x.tr.code + 16777216 * x.bolt.toNat + 33554432 * x.pack.code + 134217728 * x.useH.toNat + 268435456 * x.h
  | .cgather x => encLong 10 1 + 1024 * x.gs + 16384 * x.ga
  | .cscatter x => encLong 10 2 + 1024 * x.gs + 16384 * x.ga
  | .cred x => encLong 10 3 + 1024 * x.gs + 16384 * x.ga + 4194304 * x.level
  | .cqput x => encLong 10 4 + 1024 * x.gs + 16384 * x.ga + 262144 * x.gb
  | .cdep x => encLong 10 5 + 1024 * x.gs + 16384 * x.ga + 262144 * x.gb
  | .ccancel gs => encLong 10 6 + 1024 * gs
  | .gbind x => encLong 11 0 + 1024 * x.gs + 16384 * x.ga + 4194304 * x.y + 16777216 * x.op.code + 268435456 * x.reassoc.toNat
  | .geval x => encLong 11 1 + 1024 * x.gs + 16384 * x.ga + 262144 * x.gb + 4194304 * x.y
  | .glen x => encLong 11 2 + 1024 * x.gs + 16384 * x.ga + 262144 * x.gb + 4194304 * x.y
  | .gspine x => encLong 11 3 + 1024 * x.gs + 16384 * x.ga + 262144 * x.gb + 4194304 * x.y + 268435456 * x.flag.toNat
  | .gocc x => encLong 11 4 + 1024 * x.gs + 16384 * x.ga + 262144 * x.gb + 4194304 * x.y + 268435456 * x.flag.toNat
  | .gunf x => encLong 11 5 + 1024 * x.gs + 16384 * x.ga + 262144 * x.gb + 4194304 * x.y + 268435456 * x.flag.toNat
  | .gloc x => encLong 11 6 + 1024 * x.gs + 16384 * x.ga + 4194304 * x.y
  | .glook x => encLong 11 7 + 1024 * x.gs + 16384 * x.ga + 262144 * x.gb + 4194304 * x.y
  | .grelease x => encLong 11 8 + 1024 * x.gs + 4194304 * x.y
  | .rfmatch x => encLong 12 0 + 1024 * x.gs + 16384 * x.ga + 4194304 * x.q
  | .rfmerge x => encLong 12 1 + 1024 * x.gs + 16384 * x.ga + 4194304 * x.q
  | .rfshake x => encLong 12 2 + 1024 * x.gs + 16384 * x.ga + 4194304 * x.q
  | .rflogs x => encLong 12 3 + 1024 * x.gs + 16384 * x.ga + 4194304 * x.q
  | .rffree x => encLong 12 4 + 1024 * x.gs + 4194304 * x.q
  | .nbcfg x => encLong 12 5 + 1024 * x.gs + 16384 * x.ga
  | .nbpost x => encLong 12 6 + 1024 * x.gs + 16384 * x.ga + 262144 * x.gb
  | .nbadv x => encLong 12 7 + 1024 * x.gs + 16384 * x.ga
  | .nbrd x => encLong 12 8 + 1024 * x.gs + 16384 * x.ga + 262144 * x.gb
  | .nbwr x => encLong 12 9 + 1024 * x.gs + 16384 * x.ga + 262144 * x.gb
  | .nbspk x => encLong 12 10 + 1024 * x.gs + 16384 * x.ga + 262144 * x.gb
  | .hstart s gb ga => encLong 13 0 + 16384 * ga + 262144 * gb + 4194304 * s
  | .hjoin s gd => encLong 13 1 + 1024 * gd + 4194304 * s
  | .hend ga => encLong 13 2 + 16384 * ga
  | .phint i => encLong 13 3 + 4194304 * i.toNat
  | .trap i ga => encLong 13 4 + 16384 * ga + 4194304 * i.toNat
  | .csrrd i gd => encLong 13 5 + 1024 * gd + 4194304 * i.toNat
  | .csrwr i ga => encLong 13 6 + 16384 * ga + 4194304 * i.toNat
  | .gend => encLong 13 7
  | .brk i => encLong 13 8 + 4194304 * i.toNat
  | .xringCsrWrite _ _ => 0
  | .groupStart => 0
  | .contextWake _ => 0
  | .waitwTimeout _ => 0
  | .waittDeadline _ => 0
  | .yieldxExpiry _ => 0
  | .bsyncComplete _ _ => 0
  | .xendComplete _ => 0
  | .exchangeDelivery _ => 0
  | .exchangeAbort => 0
  | .feRequestArrival _ => 0
  | .writeApply _ _ => 0
  | .pageWalk _ => 0
  | .jobLaunch _ => 0
  | .engineHandlePush _ => 0
  | .jobCompletion _ _ => 0
  | .publSwap _ => 0
  | .tremCommandArrival _ => 0
  | .nbEventArrival _ => 0
  | .errorReply _ _ => 0
  | .faultPacket => 0
  | .driverResumeFault => 0
  | .driverApplyPolicy => 0
  | .driverAnswerTimeout => 0
  | .dbgResume => 0
  | .dbgStep => 0
  | .debugStepBreak => 0
  | .dbgFreeze => 0
  | .dbgSeal => 0
  | .dbgUnseal => 0
  | .dbgMdataWrite _ => 0
  | .debugRegisterWrite _ _ => 0
  | .pairHashArrival _ _ => 0
  | .pairHashTimeout _ => 0
  | .preemptionRequest => 0
  | .forcedPark => 0
  | .coreSave => 0
  | .saveCapExpiry _ => 0
  | .coreResumption => 0
  | .watchdogStep1 _ => 0
  | .watchdogStep2 _ => 0
  | .watchdogStep3 _ => 0
  | .retirementAck _ => 0
  | .quantumBoundary _ => 0
  | .freezeTick => 0
  | .freezeImageComplete => 0
  | .resumeTick => 0
  | .launchPacket _ => 0
  | .launchNoopPacket _ => 0
  | .coreGrant _ => 0
  | .launchStarttick _ => 0
  | .gangAcceptance _ _ => 0
  | .gangDeadline _ => 0
  | .gangWithdrawal _ => 0
  | .launchCompletion _ => 0
  | .controlNop => 0
  | .jobnew => 0
  | .regq => 0
  | .unregq => 0
  | .kill => 0
  | .pubreg => 0
  | .freeze => 0
  | .resume => 0
  | .ctlqBlockedTimeout => 0
  | .modnumWrite _ => 0
  | .feataccWrite _ _ => 0
  | .ctlqWrite _ => 0
  | .errWrite _ => 0
  | .hostRead _ _ => 0
  | .hostWrite _ _ => 0
  | .hostAtomicop _ _ _ _ _ => 0
  | .hostConfigRequest _ => 0
  | .flitIdle _ _ => 0
  | .flitRequest _ _ => 0
  | .flitResponse _ _ => 0
  | .flitTime _ _ => 0
  | .flitLaunchControl _ _ => 0
  | .timeFlitTimer => 0
  | .linkReplayLimit _ => 0
  | .linkAckTimeout _ => 0
  | .standbyPowerOn => 0
  | .moduleReset => 0
  | .firmwareBootTimeout => 0
  | .powerGoodLoss _ => 0
  | .sensorSample _ => 0
  | .setPowerCap _ => 0
  | .pldmFirmwareUpdate _ _ => 0
  | .spdmRequest _ => 0
  | .unassignedEncoding _ => 0
  | .softError _ => 0
  | .pageMappingSupplied _ => 0
  | .hostCompletion _ _ => 0
  | .hostPortLinkChange _ _ => 0
  | .perstChange _ _ => 0
  | .podLinkRetrain _ => 0
  | .standbyPowerLoss => 0

/-- How many bytes the form takes: 2 for a short form, 4 for a long one (R80), 0 for an event row. -/
def Instr.len (i : Instr) : Nat :=
  match i with
  | .vaddShort _ => 2
  | .vsubShort _ => 2
  | .vmulShort _ => 2
  | .vmac _ => 2
  | .vminShort _ => 2
  | .vmaxShort _ => 2
  | .vandShort _ => 2
  | .vorShort _ => 2
  | .vxorShort _ => 2
  | .vshlShort _ => 2
  | .vshrShort _ => 2
  | .vshrlShort _ => 2
  | .vmovShort _ => 2
  | .vneg _ => 2
  | .vabs _ => 2
  | .vcmpltShort _ => 2
  | .addShort _ => 2
  | .subShort _ => 2
  | .addi4 _ => 2
  | .mov _ => 2
  | .li4 _ => 2
  | .andShort _ => 2
  | .orShort _ => 2
  | .xorShort _ => 2
  | .shliShort _ => 2
  | .shriShort _ => 2
  | .shrliShort _ => 2
  | .lw16 _ => 2
  | .sw16 _ => 2
  | .lx16 _ => 2
  | .sx16 _ => 2
  | .sltShort _ => 2
  | .beqz _ => 2
  | .bnez _ => 2
  | .bra _ => 2
  | .bltz _ => 2
  | .nop => 2
  | .triple => 2
  | .wide _ => 2
  | .yield => 2
  | .add _ => 4
  | .sub _ => 4
  | .mul _ => 4
  | .mulh _ => 4
  | .mulhn _ => 4
  | .div _ => 4
  | .divn _ => 4
  | .rem _ => 4
  | .remn _ => 4
  | .and _ => 4
  | .or _ => 4
  | .xor _ => 4
  | .andn _ => 4
  | .shl _ => 4
  | .shr _ => 4
  | .shrl _ => 4
  | .rol _ => 4
  | .slt _ => 4
  | .sltn _ => 4
  | .min _ => 4
  | .max _ => 4
  | .minn _ => 4
  | .maxn _ => 4
  | .clz _ => 4
  | .ctz _ => 4
  | .popc _ => 4
  | .sel _ => 4
  | .exts _ => 4
  | .extz _ => 4
  | .bfx _ => 4
  | .bfi _ => 4
  | .adds _ => 4
  | .addi _ => 4
  | .andi _ => 4
  | .ori _ => 4
  | .xori _ => 4
  | .shli _ => 4
  | .shri _ => 4
  | .shrli _ => 4
  | .slti _ => 4
  | .sltni _ => 4
  | .lis _ => 4
  | .addpc _ _ => 4
  | .muli _ => 4
  | .beq _ => 4
  | .bne _ => 4
  | .blt _ => 4
  | .bge _ => 4
  | .bltn _ => 4
  | .bgen _ => 4
  | .jal _ _ => 4
  | .jalr _ _ => 4
  | .vadd _ => 4
  | .vsub _ => 4
  | .vmul _ => 4
  | .vmulh _ => 4
  | .vfma _ => 4
  | .vfms _ => 4
  | .vmin _ => 4
  | .vmax _ => 4
  | .vminn _ => 4
  | .vmaxn _ => 4
  | .vand _ => 4
  | .vor _ => 4
  | .vxor _ => 4
  | .vshl _ => 4
  | .vshr _ => 4
  | .vshrl _ => 4
  | .vadds _ => 4
  | .vaddsn _ => 4
  | .vsubs _ => 4
  | .vabsd _ => 4
  | .vdiv _ => 4
  | .vsqrt _ => 4
  | .vrcp _ => 4
  | .vexp2 _ => 4
  | .vscale _ => 4
  | .vcmpeq _ => 4
  | .vcmplt _ => 4
  | .vcmple _ => 4
  | .vcmpltn _ => 4
  | .vsel _ => 4
  | .vdot4 _ => 4
  | .vdot2 _ => 4
  | .vcvtff _ => 4
  | .vcvtfi _ => 4
  | .vcvtif _ => 4
  | .vcvtii _ => 4
  | .vquant _ => 4
  | .vdeq _ => 4
  | .vbcast _ => 4
  | .vget _ => 4
  | .vput _ => 4
  | .vperm _ => 4
  | .vcompr _ => 4
  | .vexpnd _ => 4
  | .vredadd _ => 4
  | .vredmax _ => 4
  | .vredmin _ => 4
  | .vscanadd _ => 4
  | .vmask _ _ => 4
  | .vpopm _ => 4
  | .vfirst _ => 4
  | .viota _ => 4
  | .vbmenc _ => 4
  | .vbmdec _ => 4
  | .vcbdec _ => 4
  | .vmov _ => 4
  | .vrndseed _ _ => 4
  | .vclass _ => 4
  | .lb _ => 4
  | .lbn _ => 4
  | .lh _ => 4
  | .lhn _ => 4
  | .lw _ => 4
  | .lwn _ => 4
  | .lx _ => 4
  | .vld _ => 4
  | .vldb _ => 4
  | .ldesc _ => 4
  | .lbHandle _ => 4
  | .lbnHandle _ => 4
  | .lhHandle _ => 4
  | .lhnHandle _ => 4
  | .lwHandle _ => 4
  | .lwnHandle _ => 4
  | .lxHandle _ => 4
  | .vldHandle _ => 4
  | .vldbHandle _ => 4
  | .sb _ => 4
  | .sh _ => 4
  | .sw _ => 4
  | .sx _ => 4
  | .vst _ => 4
  | .vstm _ => 4
  | .sdesc _ => 4
  | .sbHandle _ => 4
  | .shHandle _ => 4
  | .swHandle _ => 4
  | .sxHandle _ => 4
  | .vstHandle _ => 4
  | .vstmHandle _ => 4
  | .ldo _ => 4
  | .sto _ => 4
  | .swap _ => 4
  | .cas _ => 4
  | .fadd _ => 4
  | .fand _ => 4
  | .atFor _ => 4
  | .fxor _ => 4
  | .fmin _ => 4
  | .fmax _ => 4
  | .fminn _ => 4
  | .fmaxn _ => 4
  | .faddf _ => 4
  | .take _ => 4
  | .peek _ => 4
  | .put _ => 4
  | .trytake _ => 4
  | .tryput _ => 4
  | .fill _ => 4
  | .drain _ => 4
  | .festat _ => 4
  | .fence _ _ _ => 4
  | .watch _ _ => 4
  | .waitw _ _ => 4
  | .unwatch _ _ => 4
  | .yieldx _ => 4
  | .bsync _ _ => 4
  | .xsend _ _ => 4
  | .xrecv _ _ => 4
  | .xend _ => 4
  | .cbinit _ _ _ => 4
  | .cbwait _ _ _ _ => 4
  | .cbadv _ _ => 4
  | .cbpush _ _ => 4
  | .publ _ _ _ => 4
  | .tick _ => 4
  | .waitt _ _ => 4
  | .dsplit _ _ => 4
  | .tld _ => 4
  | .tst _ => 4
  | .tmma _ => 4
  | .twld _ => 4
  | .tcbt _ => 4
  | .tzero _ => 4
  | .tscale _ => 4
  | .tvfy _ => 4
  | .trem _ => 4
  | .tcap _ => 4
  | .tcfg _ => 4
  | .cpy _ => 4
  | .cgather _ => 4
  | .cscatter _ => 4
  | .cred _ => 4
  | .cqput _ => 4
  | .cdep _ => 4
  | .ccancel _ => 4
  | .gbind _ => 4
  | .geval _ => 4
  | .glen _ => 4
  | .gspine _ => 4
  | .gocc _ => 4
  | .gunf _ => 4
  | .gloc _ => 4
  | .glook _ => 4
  | .grelease _ => 4
  | .rfmatch _ => 4
  | .rfmerge _ => 4
  | .rfshake _ => 4
  | .rflogs _ => 4
  | .rffree _ => 4
  | .nbcfg _ => 4
  | .nbpost _ => 4
  | .nbadv _ => 4
  | .nbrd _ => 4
  | .nbwr _ => 4
  | .nbspk _ => 4
  | .hstart _ _ _ => 4
  | .hjoin _ _ => 4
  | .hend _ => 4
  | .phint _ => 4
  | .trap _ _ => 4
  | .csrrd _ _ => 4
  | .csrwr _ _ => 4
  | .gend => 4
  | .brk _ => 4
  | .xringCsrWrite _ _ => 0
  | .groupStart => 0
  | .contextWake _ => 0
  | .waitwTimeout _ => 0
  | .waittDeadline _ => 0
  | .yieldxExpiry _ => 0
  | .bsyncComplete _ _ => 0
  | .xendComplete _ => 0
  | .exchangeDelivery _ => 0
  | .exchangeAbort => 0
  | .feRequestArrival _ => 0
  | .writeApply _ _ => 0
  | .pageWalk _ => 0
  | .jobLaunch _ => 0
  | .engineHandlePush _ => 0
  | .jobCompletion _ _ => 0
  | .publSwap _ => 0
  | .tremCommandArrival _ => 0
  | .nbEventArrival _ => 0
  | .errorReply _ _ => 0
  | .faultPacket => 0
  | .driverResumeFault => 0
  | .driverApplyPolicy => 0
  | .driverAnswerTimeout => 0
  | .dbgResume => 0
  | .dbgStep => 0
  | .debugStepBreak => 0
  | .dbgFreeze => 0
  | .dbgSeal => 0
  | .dbgUnseal => 0
  | .dbgMdataWrite _ => 0
  | .debugRegisterWrite _ _ => 0
  | .pairHashArrival _ _ => 0
  | .pairHashTimeout _ => 0
  | .preemptionRequest => 0
  | .forcedPark => 0
  | .coreSave => 0
  | .saveCapExpiry _ => 0
  | .coreResumption => 0
  | .watchdogStep1 _ => 0
  | .watchdogStep2 _ => 0
  | .watchdogStep3 _ => 0
  | .retirementAck _ => 0
  | .quantumBoundary _ => 0
  | .freezeTick => 0
  | .freezeImageComplete => 0
  | .resumeTick => 0
  | .launchPacket _ => 0
  | .launchNoopPacket _ => 0
  | .coreGrant _ => 0
  | .launchStarttick _ => 0
  | .gangAcceptance _ _ => 0
  | .gangDeadline _ => 0
  | .gangWithdrawal _ => 0
  | .launchCompletion _ => 0
  | .controlNop => 0
  | .jobnew => 0
  | .regq => 0
  | .unregq => 0
  | .kill => 0
  | .pubreg => 0
  | .freeze => 0
  | .resume => 0
  | .ctlqBlockedTimeout => 0
  | .modnumWrite _ => 0
  | .feataccWrite _ _ => 0
  | .ctlqWrite _ => 0
  | .errWrite _ => 0
  | .hostRead _ _ => 0
  | .hostWrite _ _ => 0
  | .hostAtomicop _ _ _ _ _ => 0
  | .hostConfigRequest _ => 0
  | .flitIdle _ _ => 0
  | .flitRequest _ _ => 0
  | .flitResponse _ _ => 0
  | .flitTime _ _ => 0
  | .flitLaunchControl _ _ => 0
  | .timeFlitTimer => 0
  | .linkReplayLimit _ => 0
  | .linkAckTimeout _ => 0
  | .standbyPowerOn => 0
  | .moduleReset => 0
  | .firmwareBootTimeout => 0
  | .powerGoodLoss _ => 0
  | .sensorSample _ => 0
  | .setPowerCap _ => 0
  | .pldmFirmwareUpdate _ _ => 0
  | .spdmRequest _ => 0
  | .unassignedEncoding _ => 0
  | .softError _ => 0
  | .pageMappingSupplied _ => 0
  | .hostCompletion _ _ => 0
  | .hostPortLinkChange _ _ => 0
  | .perstChange _ _ => 0
  | .podLinkRetrain _ => 0
  | .standbyPowerLoss => 0

end Sys2Proof

end
end

