-- ==== Sys2Proof/Machine/Float.lean ====
section
/-! DEFINITION. Number formats: exact values, rounding and the arithmetic built on them (R44 to R55, R61, R73,
R151 to R154). Values are formed exactly and rounded once. -/

namespace Sys2Proof.Machine

/-- The floating formats of R45. -/
inductive FFmt where
  | f64 | f32 | f16 | bf16 | e5m2 | e4m3 | e2m1
deriving DecidableEq, Repr

/-- The width of a format in bits (R45). -/
def FFmt.width (f : FFmt) : Nat :=
  match f with
  | .f64 => 64
  | .f32 => 32
  | .f16 => 16
  | .bf16 => 16
  | .e5m2 => 8
  | .e4m3 => 8
  | .e2m1 => 4

/-- The width of the fraction field (R45). -/
def FFmt.frac (f : FFmt) : Nat :=
  match f with
  | .f64 => 52
  | .f32 => 23
  | .f16 => 10
  | .bf16 => 7
  | .e5m2 => 2
  | .e4m3 => 3
  | .e2m1 => 1

/-- The width of the exponent field (R45). -/
def FFmt.expw (f : FFmt) : Nat := f.width - 1 - f.frac

/-- The bias (R45). -/
def FFmt.bias (f : FFmt) : Int := (2 ^ (f.expw - 1) : Nat) - 1

/-- The encoding of the largest finite magnitude (R45). -/
def FFmt.maxEnc (f : FFmt) : Nat :=
  match f with
  | .e4m3 => 0x7E
  | .e2m1 => 7
  | _ => (2 ^ f.expw - 1) * 2 ^ f.frac - 1

/-- The encoding of an infinite magnitude, where the format has one (R45). -/
def FFmt.infEnc (f : FFmt) : Nat := (2 ^ f.expw - 1) * 2 ^ f.frac

/-- The canonical NaN; +0 in e2m1, which has none (R47, R50). -/
def FFmt.nan (f : FFmt) : Nat :=
  match f with
  | .e4m3 => 0x7F
  | .e2m1 => 0
  | _ => f.infEnc + 2 ^ (f.frac - 1)

/-- An exact value: a NaN, an infinity, or (-1)^neg × m × 2^e (R46). -/
inductive FVal where
  | nan
  | inf (neg : Bool)
  | fin (neg : Bool) (m : Nat) (e : Int)
deriving DecidableEq, Repr

/-- The sign bit at the top of a pattern. -/
def signOf (f : FFmt) (x : Nat) : Bool := bit x (f.width - 1)

/-- The value of a pattern (R46). -/
def fval (f : FFmt) (x : Nat) : FVal :=
  let e := bits x f.frac f.expw
  let m := bits x 0 f.frac
  let s := signOf f x
  let special := match f with
    | .e2m1 => false
    | .e4m3 => decide (e = 15 ∧ m = 7)
    | _ => decide (e = 2 ^ f.expw - 1)
  if special then
    if m = 0 then .inf s else .nan
  else if e = 0 then .fin s m (1 - f.bias - f.frac)
  else .fin s (2 ^ f.frac + m) (e - f.bias - f.frac)

/-- A pattern from sign and magnitude encoding. -/
def withSign (f : FFmt) (s : Bool) (mag : Nat) : Nat := if s then mag + 2 ^ (f.width - 1) else mag

/-- Divide by 2^k, rounding as the mode says; `r` is the drawn number of stochastic mode (R49, R51). -/
def roundShift (mode : Rnd) (r m k : Nat) : Nat :=
  let lo := m / 2 ^ k
  let rem := m % 2 ^ k
  let up := match mode with
    | .rtz => false
    | .sr => decide (rem * 65536 / 2 ^ k > r)
    | _ => decide (2 * rem > 2 ^ k) || (decide (2 * rem = 2 ^ k) && decide (lo % 2 = 1))
  if up then lo + 1 else lo

/-- m × 2^e rounded to a multiple of 2^q, as a count of 2^q (R49). -/
def roundTo (mode : Rnd) (r m : Nat) (e q : Int) : Nat :=
  if q ≤ e then m * 2 ^ (e - q).toNat else roundShift mode r m (q - e).toNat

/-- What an overflow gives (R50). -/
def overflowEnc (f : FFmt) (mode : Rnd) (s : Bool) : Nat :=
  match mode with
  | .rtz => withSign f s f.maxEnc
  | .sat => withSign f s f.maxEnc
  | _ => match f with
    | .e4m3 => f.nan
    | .e2m1 => withSign f s f.maxEnc
    | _ => withSign f s f.infEnc

/-- What an infinite input gives (R50). -/
def infiniteEnc (f : FFmt) (mode : Rnd) (s : Bool) : Nat :=
  match mode with
  | .sat => withSign f s f.maxEnc
  | _ => match f with
    | .e4m3 => f.nan
    | .e2m1 => withSign f s f.maxEnc
    | _ => withSign f s f.infEnc

/-- The encoding of the magnitude that a mode chooses for m × 2^e with m nonzero, as if the exponent range had no upper
limit (R49). -/
def magEnc (f : FFmt) (mode : Rnd) (r m : Nat) (e : Int) : Nat :=
  let emin : Int := 1 - f.bias
  let q : Int := max (e + Nat.log2 m) emin - f.frac
  roundTo mode r m e q + (q - (emin - f.frac)).toNat * 2 ^ f.frac

/-- Round an exact value to a format (R49, R50); `r` is the drawn number of stochastic mode (R51). -/
def fround (f : FFmt) (mode : Rnd) (r : Nat) (v : FVal) : Nat :=
  match v with
  | .nan => f.nan
  | .inf s => infiniteEnc f mode s
  | .fin s m e =>
    if m = 0 then withSign f s 0 else
    let enc := magEnc f mode r m e
    if enc > f.maxEnc then overflowEnc f mode s else withSign f s enc

/-- Round to nearest, ties to even (the helper round_rne of R49). -/
def rne (f : FFmt) (v : FVal) : Nat := fround f .rne 0 v

/-! ### Exact arithmetic -/

/-- The value with its sign bit inverted. -/
def fneg (v : FVal) : FVal :=
  match v with
  | .nan => .nan
  | .inf s => .inf (!s)
  | .fin s m e => .fin (!s) m e

/-- The magnitude. -/
def fabs (v : FVal) : FVal :=
  match v with
  | .nan => .nan
  | .inf _ => .inf false
  | .fin _ m e => .fin false m e

/-- A finite value as an integer count of 2^q, for a q not above its exponent. -/
def fcount (s : Bool) (m : Nat) (e q : Int) : Int :=
  let n : Int := (m * 2 ^ (e - q).toNat : Nat)
  if s then -n else n

/-- An integer count of 2^q as a value; a zero gets the sign given. -/
def ofCount (z : Bool) (n q : Int) : FVal :=
  if n = 0 then .fin z 0 q else .fin (decide (n < 0)) n.natAbs q

/-- The exact sum, with the signs of zero that IEEE 754 gives under RNE (R46). -/
def fadd (x y : FVal) : FVal :=
  match x, y with
  | .nan, _ => .nan
  | _, .nan => .nan
  | .inf s, .inf t => if s = t then .inf s else .nan
  | .inf s, .fin _ _ _ => .inf s
  | .fin _ _ _, .inf t => .inf t
  | .fin s m e, .fin t n f =>
    let q := min e f
    ofCount (s && t) (fcount s m e q + fcount t n f q) q

/-- The exact difference. -/
def fsub (x y : FVal) : FVal := fadd x (fneg y)

/-- The exact product. -/
def fmul (x y : FVal) : FVal :=
  match x, y with
  | .nan, _ => .nan
  | _, .nan => .nan
  | .inf s, .inf t => .inf (s != t)
  | .inf s, .fin t n _ => if n = 0 then .nan else .inf (s != t)
  | .fin s m _, .inf t => if m = 0 then .nan else .inf (s != t)
  | .fin s m e, .fin t n f => .fin (s != t) (m * n) (e + f)

/-- The value times 2^k, exactly. -/
def fscale (x : FVal) (k : Int) : FVal :=
  match x with
  | .fin s m e => .fin s m (e + k)
  | v => v

/-- The quotient to more than `p` bits, its last bit set when it is inexact: exact enough to round once (R152). -/
def fdiv (p : Nat) (x y : FVal) : FVal :=
  match x, y with
  | .nan, _ => .nan
  | _, .nan => .nan
  | .inf _, .inf _ => .nan
  | .inf s, .fin t _ _ => .inf (s != t)
  | .fin s _ _, .inf t => .fin (s != t) 0 0
  | .fin s m e, .fin t n f =>
    if n = 0 then (if m = 0 then .nan else .inf (s != t))
    else
      let k := p + 4 + Nat.log2 n
      let num := m * 2 ^ k
      let sticky := if num % n = 0 then 0 else 1
      .fin (s != t) (2 * (num / n) + sticky) (e - f - k - 1)

/-- The integer square root by bits, from bit `i - 1` down. -/
def isqrtBits : Nat → Nat → Nat → Nat
  | 0, _, r => r
  | i + 1, n, r => if (r + 2 ^ i) * (r + 2 ^ i) ≤ n then isqrtBits i n (r + 2 ^ i) else isqrtBits i n r

/-- The largest integer whose square is not above `n`. -/
def isqrt (n : Nat) : Nat := isqrtBits (Nat.log2 n / 2 + 1) n 0

/-- The square root to more than `p` bits, its last bit set when it is inexact (R152). -/
def fsqrt (p : Nat) (x : FVal) : FVal :=
  match x with
  | .nan => .nan
  | .inf s => if s then .nan else .inf false
  | .fin s m e =>
    if m = 0 then .fin s 0 0
    else if s then .nan
    else
      let odd := decide (e % 2 = 1)
      let n := (if odd then 2 * m else m) * 2 ^ (2 * (p + 4))
      let r := isqrt n
      let sticky := if r * r = n then 0 else 1
      .fin false (2 * r + sticky) ((if odd then (e - 1) / 2 else e / 2) - (p + 4) - 1)

/-- Whether x is below y; false with a NaN, and the zeros are equal (R46, R155). -/
def flt (x y : FVal) : Bool :=
  match x, y with
  | .nan, _ => false
  | _, .nan => false
  | .inf s, .inf t => s && !t
  | .inf s, .fin _ _ _ => s
  | .fin _ _ _, .inf t => !t
  | .fin s m e, .fin t n f => decide (fcount s m e (min e f) < fcount t n f (min e f))

/-- Whether x equals y; false with a NaN (R155). -/
def feq (x y : FVal) : Bool :=
  match x, y with
  | .nan, _ => false
  | _, .nan => false
  | _, _ => !flt x y && !flt y x

/-- Whether x is not above y; false with a NaN (R155). -/
def fle (x y : FVal) : Bool := flt x y || feq x y

/-- Whether a value is a NaN. -/
def FVal.isNan (v : FVal) : Bool :=
  match v with
  | .nan => true
  | _ => false

/-- Whether a value is neither a NaN nor an infinity. -/
def FVal.isFin (v : FVal) : Bool :=
  match v with
  | .fin _ _ _ => true
  | _ => false

/-- Whether a value is a zero of either sign. -/
def FVal.isZero (v : FVal) : Bool :=
  match v with
  | .fin _ m _ => m == 0
  | _ => false

/-- The sign of a value, false for a NaN. -/
def FVal.neg (v : FVal) : Bool :=
  match v with
  | .nan => false
  | .inf s => s
  | .fin s _ _ => s

/-- Minimum on patterns: -0 below +0, a single NaN loses, two give the canonical NaN (R151). -/
def fminBits (f : FFmt) (a b : Nat) : Nat :=
  let x := fval f a
  let y := fval f b
  if x.isNan then (if y.isNan then f.nan else b)
  else if y.isNan then a
  else if flt x y then a
  else if flt y x then b
  else if x.neg then a else b

/-- Maximum on patterns (R151). -/
def fmaxBits (f : FFmt) (a b : Nat) : Nat :=
  let x := fval f a
  let y := fval f b
  if x.isNan then (if y.isNan then f.nan else b)
  else if y.isNan then a
  else if flt x y then b
  else if flt y x then a
  else if x.neg then b else a

/-- 2^k as a value. -/
def fpow2 (k : Int) : FVal := .fin false 1 k

/-- An integer as a value; zero is +0. -/
def ofInt (n : Int) : FVal := ofCount false n 0

/-! ### Conversions (R53, R54) -/

/-- Round a value to an integer (R49, R53); NaN gives 0. `big` stands for an infinity's magnitude. -/
def toIntR (mode : Rnd) (r : Nat) (big : Int) (v : FVal) : Int :=
  match v with
  | .nan => 0
  | .inf s => if s then -big else big
  | .fin s m e =>
    let n : Int := (roundTo mode r m e 0 : Nat)
    if s then -n else n

/-- Floating to integer with saturation (R53). -/
def cvtToInt (signed : Bool) (w : Nat) (mode : Rnd) (r : Nat) (v : FVal) : Nat :=
  let x := toIntR mode r (2 ^ 65 : Nat) v
  if signed then satS w x else satU w x

/-! ### Stochastic generators (R52) -/

/-- The next state of a generator (R52). -/
def xsNext (x : BitVec 32) : BitVec 32 :=
  let x := x ^^^ (x <<< 13)
  let x := x ^^^ (x >>> 17)
  x ^^^ (x <<< 5)

/-- The seed that replaces a zero one (R52). -/
def seedOf (j : Fin 8) : BitVec 32 := 0x6D2B79F5#32 ^^^ BitVec.ofNat 32 j.val

/-! ### Block scales (R61) -/

/-- The factor of a scale byte; NaN for 0xFF (R61). -/
def scaleVal (s : Nat) : FVal := if s = 255 then .nan else fpow2 ((s : Int) - 127)

/-- An element under its block's scale, exactly (R62). -/
def scaled (f : FFmt) (s x : Nat) : FVal := fmul (fval f x) (scaleVal s)

/-! ### Trees (R73) -/

/-- One level of the tree of R73: neighbours combine, an odd last entry passes up. -/
def treeLevel {α : Type} (f : α → α → α) : List α → List α
  | x :: y :: r => f x y :: treeLevel f r
  | l => l

/-- `n` levels of the tree of R73. -/
def treeLevels {α : Type} (f : α → α → α) : Nat → List α → List α
  | 0, l => l
  | n + 1, l => treeLevels f n (treeLevel f l)

/-- The tree of R73 over a list; `z` for an empty one. -/
def tree {α : Type} (f : α → α → α) (z : α) (l : List α) : α :=
  (treeLevels f (Nat.log2 l.length + 1) l).headD z

/-- Addition in f32 with one RNE rounding, on patterns. -/
def add32 (a b : Nat) : Nat := rne .f32 (fadd (fval .f32 a) (fval .f32 b))

/-- tree_sum in f32 over exact values: the first level rounds the exact sum of two values (R73, R75). -/
def treeSum32 (l : List FVal) : FVal :=
  tree (fun x y => fval .f32 (rne .f32 (fadd x y))) (.fin false 0 0) l

/-! ### VEXP2 (R154) -/

/-- T[i] of R154. -/
def exp2Table (i : Nat) : Nat :=
  match i with
  | 0 => 0x3F800000
  | 1 => 0x3F85AAC3
  | 2 => 0x3F8B95C2
  | 3 => 0x3F91C3D3
  | 4 => 0x3F9837F0
  | 5 => 0x3F9EF532
  | 6 => 0x3FA5FED7
  | 7 => 0x3FAD583F
  | 8 => 0x3FB504F3
  | 9 => 0x3FBD08A4
  | 10 => 0x3FC5672A
  | 11 => 0x3FCE248C
  | 12 => 0x3FD744FD
  | 13 => 0x3FE0CCDF
  | 14 => 0x3FEAC0C7
  | _ => 0x3FF5257D

/-- Round a value to f32 and read it back. -/
def r32 (v : FVal) : FVal := fval .f32 (rne .f32 v)

/-- The floor of a value times 16, for a finite value. -/
def floor16 (v : FVal) : Int :=
  match v with
  | .fin s m e =>
    let k := e + 4
    if 0 ≤ k then fcount s m k 0
    else (if s then -(m : Int) else (m : Int)) / ((2 ^ (-k).toNat : Nat) : Int)
  | _ => 0

/-- The reference algorithm of VEXP2, into the destination format (R154). -/
def fexp2 (f : FFmt) (a : FVal) : Nat :=
  match a with
  | .nan => f.nan
  | .inf s => if s then 0 else f.infEnc
  | .fin _ _ _ =>
    if fle (ofInt 128) a then f.infEnc
    else if flt a (ofInt (-160)) then 0
    else
      let k := floor16 a
      let i := (k % 16).toNat
      let m := k / 16
      let x := fsub a (fscale (ofInt k) (-4))
      let t := r32 (fmul (fval .f32 0x3D635847) x)
      let t := r32 (fadd (fval .f32 0x3E75FDF0) t)
      let t := r32 (fmul t x)
      let t := r32 (fadd (fval .f32 0x3F317218) t)
      let t := r32 (fmul t x)
      let p := r32 (fadd (ofInt 1) t)
      let y := r32 (fmul (fval .f32 (exp2Table i)) p)
      rne f (fscale y m)

/-! ### Logarithm of a size (R295) -/

/-- Bits of the fraction of log2 of a value in [1, 2), by repeated squaring on `p`-bit fixed point. -/
def log2Bits : Nat → Nat → Nat → Nat → Nat
  | 0, _, _, acc => acc
  | n + 1, p, x, acc =>
    let y := x * x / 2 ^ p
    if y ≥ 2 ^ (p + 1) then log2Bits n p (y / 2) (2 * acc + 1) else log2Bits n p y (2 * acc)

/-- log2 of a positive integer, rounded RNE to f32 (R295). Powers of two are exact; any other size below 2^16 has an
irrational logarithm, whose first 40 fraction bits decide the rounding. -/
def log2Of (n : Nat) : Nat :=
  let k := Nat.log2 n
  if n = 2 ^ k then rne .f32 (ofInt k)
  else rne .f32 (.fin false (2 * (k * 2 ^ 40 + log2Bits 40 128 (n * 2 ^ (128 - k)) 0) + 1) (-41))

end Sys2Proof.Machine
end

