-- ==== Sys2Proof/Config.lean ====
section
/-! DEFINITION. What the manual leaves open, as free values: constants with no body, so that no proof can see what
they are. Each is applied to the counter `State.choice` (or to the operands it depends on), so that every use may
give another value. -/

namespace Sys2Proof.Config

/-- Whether a masked-off element under agn = 1 becomes zero rather than keeping its old value, for the choice number
and the element (R86). Log 10. -/
opaque agnZero : Nat → Nat → Bool

/-- Which of the steps that can happen next happens, for the choice number; read modulo their count (R24, R38, R232
leave the interleaving of agents open). Log 11. -/
opaque pick : Nat → Nat

/-- Cycles that pass, besides one, before CYCLES is observed again (R4, R124). Log 9. -/
opaque cyclesPassed : Nat → Nat

/-- Ticks that pass before the pod tick is observed again (R4). Log 9. -/
opaque ticksPassed : Nat → Nat

/-- What a load of an accumulator tile or border that a job owns returns, byte by byte (R226). Log 12. -/
opaque earlyRead : Nat → Nat → Byte

/-- The bytes an overlapping copy leaves in the overlap (R276). Log 13. -/
opaque overlapByte : Nat → Nat → Byte

/-- The keyed 16-bit check code of a capability: over bits [47:0] and the granting job's identity (R243). Log 14. -/
opaque capCheck : Nat → Nat → BitVec 16

/-- The 64-bit hash of a request's address, data and opcode, which paired cores compare (R313). Log 15. -/
opaque pairHash : Nat → Nat → Nat → Word

/-- What a shadow holds after its taint is cleared (R205: shadow contents unspecified), byte by byte. Log 16. -/
opaque taintedShadow : Nat → Nat → Byte

/-- What the destination of a CRED holds after a link loss (R285: DST contents unspecified), byte by byte. Log 17. -/
opaque lostCred : Nat → Nat → Byte

/-- Whether the element of a scatter that the link loss left uncounted has landed (R282). Log 18. -/
opaque lostScatterLanded : Nat → Nat → Bool

/-- A byte of a packed block's compressed form, for the block's descriptor, its bytes and the byte's place (R290 gives the order
of leaf words and elements no layout). Log 19. -/
opaque packedForm : Nat → Nat → Nat → Byte

/-- A byte of the stored form of a protected page of a job that has no key, for its physical address and the plain bytes of its
block (R291, R338). Log 19. -/
opaque keyless : Nat → Nat → Byte

/-- What a job reads of a packed page's bytes, or of a protected one's without a key, after the host has written their stored
form through the aperture (R290, R291), for the choice number and the byte's place. Log 19. -/
opaque storedWrite : Nat → Nat → Byte

/-- The measurement the controller reports for an SPDM request (R352 names the format by its standard), for its index, the bytes of
the two banks, the fuses and the bank whose firmware is active. Log 20. -/
opaque spdmMeasurement : Nat → List Byte → List Byte → List (Nat × Nat) → Nat → Word

/-- Whether an agnostic race between a program's own store and a job's read of the same record shows the store
(R257, R273: may or may not be seen). Log 21. -/
opaque seesLateChange : Nat → Bool

/-- How many elements of a job had landed when it was stopped short by CCANCEL or a lost link, read modulo the
count (R282, R289). Log 22. -/
opaque landed : Nat → Nat

/-- Whether the next instruction of the current context stalls, so that the selector turns to another context (R25: a
stall's length is timing, which no rule fixes here). Log 24. -/
opaque stalls : Nat → Bool

/-- A byte read from another module's device memory (R280), for the choice number and the byte's place. Log 25. -/
opaque remoteByte : Nat → Nat → Byte

/-- A block descriptor read from another module's device memory (R276, R281), for the choice number and the address. Log 25. -/
opaque remoteDesc : Nat → Nat → BitVec 16

/-- The condition of R356 that an access to another module's memory meets there, for the choice number: 1 to 4 for PAGE, PROT,
POISON and BAD_DESC, anything else for none. Log 25. -/
opaque remoteStop : Nat → Nat

/-- The format of the tile slot that begins at an address of a peer's scratchpad, for the choice number and the address; a number
that is no tile format where there is none. The peer's configuration is not held here (R277). Log 70. -/
opaque peerTile : Nat → Nat → Nat

/-- A byte of the boltrope that a peer's tile slot holds, for the choice number and the byte's place (R277). Log 70. -/
opaque peerBolt : Nat → Nat → Byte

/-- What a CPY with BOLT and PACK, or BOLT and UNPACK, writes, for the choice number and the byte's place (R277 gives the two no
combined result). Log 71. -/
opaque boltPacked : Nat → Nat → Byte

/-- Whether a logical core of another module is a member of the exchange domain, for the choice number (R31: the other module's
groups are not held here). Log 28. -/
opaque peerHolds : Nat → Bool

/-- What a remote tile engine or a remote queue answers (R244, R287), for the choice number. Log 25. -/
opaque remoteReply : Nat → Nat

/-- The instruction word of a fault packet whose fetch failed (R307 names the word, which was not read). Log 40. -/
opaque unfetched : Nat → BitVec 32

/-- The room that the save engine leaves before the core table and each record of a cellar, in 64-byte units, read modulo
64 (R317 gives no place to either). Log 63. -/
opaque cellarGap : Nat → Nat

/-- The compute island of its die that holds a core, for its CORE_PID; read modulo 4 (R351). Log 77. -/
opaque islandOf : Nat → Nat

/-- The CODE of an event's record and the severity of one that no rule calls fatal, for the kind of event (R351). Log 77. -/
opaque logCode : Nat → Nat
opaque logSev : Nat → Nat

/-- A byte of a record's DATA, for the kind of event, its number and the byte's place (R351). Log 77. -/
opaque logData : Nat → Nat → Nat → Byte

/-- The stepping that DEVID shows (R342). Log 78. -/
opaque stepping : BitVec 8

/-- The voltage that the controller sets for a power stage of a compute island at a sample, for the choice number, as the number of 5 mV
steps above 550 mV, modulo 71 (R354: up to 900 mV; no value is given). Log 82. -/
opaque islandVolts : Nat → Nat → Nat

/-- Whether a load, or an engine's read, shows what may still be read of before a write, for the choice number, and the write's number
and unit (R211). Log 8. -/
opaque seesOld : Nat → Nat → Nat → Bool

/-- A byte of an event's entry in the spill ring, for the choice number and the byte's place (R298 gives an entry no layout). Log 33. -/
opaque spillByte : Nat → Nat → Byte

/-- Whether the liveness descriptor of another core of the cluster names the neuron bank at a save, for the choice number (R304).
Log 85. -/
opaque neighbourNames : Nat → Bool

/-- A byte of a freeze image in the host's buffers, for the choice number, the buffer and the byte's place (R346: the image is
opaque). Log 53. -/
opaque imageByte : Nat → Nat → Nat → Byte

/-- The port that leads to another module, for that module's number; read modulo 32 (R345: routes are loaded at bring-up).
Log 38. -/
opaque route : Nat → Nat

/-- A byte of a flit's payload of types 1, 2 and 4, for what it says and the byte's place (R345 gives no layout). Log 38. -/
opaque flitPayload : Nat → Nat → Byte

/-- Whether the other copy of a paired launch has retired an instruction after which R309 refuses a restart, for the choice
number. Log 76. -/
opaque twinSynced : Nat → Bool

/-- How many entries the jobs of the cluster's other cores take in its job queue, for the choice number; read modulo one more than the
room there is (R14). Log 99. -/
opaque othersQueued : Nat → Nat

/-- Whether the job is resident on another core of the cluster, for the choice number (R227). Log 100. -/
opaque residentBeside : Nat → Bool

/-- Whether a group of another launch runs on this core's cluster, for the choice number (R337). Log 79. -/
opaque clusterBusy : Nat → Bool

/-- Which cores of the region run another launch's groups, or are masked by the masthead, for the choice number and the core's
CORE_PID (R309). Log 35. -/
opaque coreBusy : Nat → Nat → Bool

/-- The source n64 of a pending event in a core record, for its bank and neuron (R318 gives it no layout). Log 63. -/
opaque eventSource : Nat → Nat → Word

end Sys2Proof.Config
end

