-- ==== Sys2Proof/Machine/State.lean ====
section
/-! DEFINITION. The machine's state as plain data: one core with its eight contexts (R13), the cluster's engines and
job queue (R14), memory (R15), the masthead (R308), the launch unit (R331), the host's and the pod's ports (R340, R345)
and the Spaly controller (R350), as INVENTORY.md lists them. -/

namespace Sys2Proof.Machine

/-! ### Outcomes that are not a next state -/

/-- Why the machine stops. Every fault of R306 is taken and gives a next state; only loss of power stops the machine. -/
inductive Fault where
  /-- Raised by `step` while the module has no power (R350, R351, R354) and no event restores it. Safe: the machine
  goes on nowhere where the hardware would. -/
  | powerLost
deriving DecidableEq, Repr

/-- Why a step has no meaning. -/
inductive Refusal where
  /-- Raised by an arm of `exec` whose instruction has no meaning yet. Safe. -/
  | notModelled (mnemonic : String)
  /-- Raised by the meaning of an event row in a state in which that event cannot happen, such as the completion of a
  job that does not run; `step` never offers such an event of its own. Safe. -/
  | eventNotEnabled
deriving DecidableEq, Repr

/-! ### Faults and their packets (R306, R307) -/

/-- The fault classes of R306. -/
inductive FaultClass where
  | illegalInsn | illegalPrefix | illegalOperand | misaligned | pageFault | protFault | spadRange | uncorrectable
  | peerSealed | boltMismatch | tripleDisagree | pairMismatch | illegalSync | watchdog | swTrap | brk
deriving DecidableEq, Repr

/-- What a fault packet tells of (R34, R307, R17): a context's fault, its core's router, or an engine job's miss. -/
inductive FaultSource where
  | context | router | engine (job : Nat)
deriving DecidableEq, Repr

/-- The fault packet's fields (R307), and with them what the masthead knows of its sender: the launch it belongs to (R308)
and its source. -/
structure FaultPacket where
  cls    : FaultClass
  ctx    : Fin 8
  info   : BitVec 16
  pid    : BitVec 32
  pc     : Word
  addr   : Word
  insn   : BitVec 32
  group  : BitVec 32
  status : Word
  tick   : Word
  job    : BitVec 32
  fseq   : BitVec 32
  votes  : BitVec 32
  launch : Option Nat
  source : FaultSource
deriving DecidableEq, Repr

/-! ### Contexts (R13) -/

/-- A configured circular-buffer handle (R39). -/
structure Handle where
  base  : Nat
  size  : Nat
  count : Nat
  head  : Nat
  tail  : Nat
  fill  : Nat
deriving DecidableEq, Repr

/-- A bound grammar handle (R254): the descriptor's copy, the operator and the rank map. -/
structure GBinding where
  desc    : List Byte
  op      : LiftOp
  reassoc : Bool
  n       : Nat
  c       : Nat
  rank    : List Nat
deriving DecidableEq, Repr

/-- A reef map handle (R294, R296). -/
inductive ReefMap where
  | unbound
  | bound (n m map : Nat)
  | lost
deriving DecidableEq, Repr

/-- A predecessor recorded by CDEP (R38): the job and, once it has ended, whether it ended with the error bit. -/
structure Pred where
  job     : Nat
  outcome : Option Bool
deriving DecidableEq, Repr

/-- Why a context waits (R24). `host`, `held`, `pair` and `acks` are stalls, the others sleeps. -/
inductive Wait where
  | watched (timed : Bool)
  | tick (deadline : Word)
  | cycles
  | fullEmpty
  | barrier (level : Fin 5) (storage : Storage)
  | exchange (storage : Storage)
  | join (slot : Fin 8)
  | groupEnd
  | helperEnd
  | handle (h : Fin 8) (free : Bool) (need : Nat)
  | queueFull
  | pending (r : GReg)
  | publish
  | host (addr : Word)
  | held
  | pair
  | acks
deriving DecidableEq, Repr

/-- How a context is parked (R314): the descriptor a PHINT read, or everything live. -/
inductive Park where
  | phint (descriptor : List Byte)
  | yielded
  | sleeping
  | forced
deriving DecidableEq, Repr

/-- A register whose parity is broken (R311). -/
inductive RegName where
  | g (r : GReg)
  | vec (c : VCode)
deriving DecidableEq, Repr

/-- One context slot. `expired` says that the event its wait was for has come: a timeout, an expiry, a completion; `insn` is the word of its last instruction, for fault packets and jobs; `pairHash`
is the hash of its request that waits for the other copy's, and `pairOk` says that the two have agreed (R313). -/
structure Ctx where
  live        : Bool
  pc          : Word
  g           : Vector Word 16
  l           : Vector Vec 4
  k           : Vector Vec 8
  v           : Vector Vec 20
  st          : Vector (BitVec 32) 8
  h           : Vector (Option Handle) 8
  y           : Vector (Option GBinding) 4
  q           : Vector ReefMap 4
  pend        : Vector (Option Nat) 16
  deps        : List Pred
  wait        : Option Wait
  notice      : Bool
  expired     : Bool
  contributed : Bool
  parked      : Option Park
  stopped     : Bool
  packet      : Option FaultPacket
  runTimer    : Nat
  owed        : List (Fin 8)
  exitVal     : Word
  poisoned    : List RegName
  insn        : BitVec 32
  pairHash    : Option Word
  pairOk      : Bool
deriving DecidableEq, Repr

/-! ### The core -/

/-- The forms of a unit read so far: its address and what precedes the instruction (R93). -/
structure UnitForm where
  start  : Word
  triple : Bool
  wide   : Option (BitVec 10)
deriving DecidableEq, Repr

/-- An armed entry of the watch table (R190); `stamp` orders the entries by age. -/
structure WatchEntry where
  owner : Fin 8
  loc   : Nat
  addr  : Word
  fired : Bool
  stamp : Nat
deriving DecidableEq, Repr

/-- A configured tile slot with its two state bits (R216, R218). -/
structure TileSlot where
  off        : Nat
  fmt        : Nat
  unverified : Bool
  poisoned   : Bool
deriving DecidableEq, Repr

/-- The state bits of an accumulator tile (R218). -/
structure AccBits where
  unverified : Bool
  poisoned   : Bool
deriving DecidableEq, Repr

/-- A packet of the exchange that has not been delivered (R31, R34). -/
structure Packet where
  module  : Nat
  lid     : Nat
  payload : Vec
deriving DecidableEq, Repr

/-- Where a full/empty request comes from: a context of this core with the register its value goes to and the length
of its unit, or another core (R186). -/
inductive FeOrigin where
  | own (c : Fin 8) (rd : GReg) (len : Nat)
  | remote (origin : Nat)
deriving DecidableEq, Repr

/-- A queued full/empty request (R186): with its order and scopes where it is this core's, with its die, its clock and its release where
it is another's (R212). -/
structure FeReq where
  kind   : FeKind
  loc    : Nat
  size   : AtSize
  value  : Word
  origin : FeOrigin
  mode   : AtMode
  die    : Nat
  clock  : List Nat
  release : Option (AgentScope × Storage)
deriving DecidableEq, Repr

/-- The core's own registers and router (R13, R109, R310). `feat` and `modId` are FEATACC and MOD_ID as they were at its launch (R107,
R109); `sealedPeers` are the logical cores of the launch that are sealed (R311). -/
structure CoreRegs where
  cur         : Fin 8
  unit        : Option UnitForm
  frozen      : Bool
  sealed      : Bool
  fenced      : Bool
  saving      : Bool
  stepping    : Option (Fin 8)
  stepDone    : Bool
  preempt     : Bool
  fromFreeze  : Bool
  votes       : Nat
  die         : Nat
  row         : Nat
  col         : Nat
  cix         : Nat
  lid         : Nat
  groupId     : Nat
  groupCnt    : Nat
  launchArg   : Word
  dom         : Vector Word 5
  cycles      : Word
  liveBase    : Word
  xringBase   : Word
  xringSize   : Word
  xspillBase  : Word
  xspillSize  : Word
  tolWide     : Word
  tolNarrow   : Word
  corrected   : Word
  unverified  : Word
  gamma       : Word
  inHead      : Nat
  inCount     : Nat
  ovHead      : Nat
  ovCount     : Nat
  outgoing    : Option Packet
  arriving    : List Vec
  phase       : Option (Fin 5)
  sent        : Nat
  aborted     : Bool
  split       : Option (BitVec 32 × BitVec 32)
  blockLids   : Option (List Nat)
  withdrawn   : List Nat
  credSeq     : Vector Nat 5
  watch       : Vector (Option WatchEntry) 8
  watchClock  : Nat
  tiles       : Vector (Option TileSlot) 64
  acc         : Vector AccBits 4
  ctxSel      : Fin 8
  maddr       : Word
  heldWrites  : List (Fin 8 × DbgReg × Vec)
  launch      : Option Nat
  groupLive   : Bool
  nextGroup   : Nat
  synced      : Bool
  restarts    : Nat
  twin        : Option (BitVec 32)
  second      : Bool
  feat        : Vector Word 4
  modId       : Nat
  sealedPeers : List Nat
deriving DecidableEq, Repr

/-! ### The cluster's engines (R14, R35 to R38) -/

/-- The engines by unit number (R36). -/
inductive Engine where
  | tile | copy | grammar | reef | neuron
deriving DecidableEq, Repr

/-- The status codes of R37; `pageAt` is PAGE with the address of the byte that has no mapping, as a job meets it (R17, R307). -/
inductive StatusCode where
  | ok | page | pageAt (addr : Nat) | prot | linkLost | poison | boltFixed | boltFail | cancelled | mapLost | notAssociative | badGrammar
  | capReject | queueFull | badDesc | lateEvents | notBound
deriving DecidableEq, Repr

/-- An engine command: what the job queue holds of a TE, CP, GR or RE instruction. -/
inductive Cmd where
  | tld (x : TldArgs) | tst (x : TstArgs) | tmma (x : TmmaArgs) | twld (x : TwldArgs) | tcbt | tzero (x : TileArgs)
  | tscale (x : TscaleArgs) | tvfy (x : TileArgs) | trem | tcap | tcfg
  | cpy (x : CpyArgs) | cgather | cscatter | cred (level : Fin 5) | cqput
  | gbind (x : GbindArgs) | geval (y : Fin 4) | glen (y : Fin 4) | gspine (seed : Bool) (y : Fin 4)
  | gocc (split : Bool) (y : Fin 4) | gunf (scan : Bool) (y : Fin 4) | gloc (y : Fin 4) | glook (y : Fin 4)
  | grelease (y : Fin 4)
  | rfmatch (q : Fin 4) | rfmerge (q : Fin 4) | rfshake (q : Fin 4) | rflogs (q : Fin 4) | rffree (q : Fin 4)
  | nbcfg | nbpost | nbadv | nbrd | nbwr | nbspk
deriving DecidableEq, Repr

/-- An entry of the job queue. `status` holds the status word of a job that has ended and whose word is not yet
written; `done` is the resume offset (R279, R300), `record` is the descriptor or record as it was read at the start, `recordStop` what stopped that reading (R257, R273),
`binding` its own copy of a grammar binding (R269); `remote` names the module that sent a tile command (R244); `agreed` counts those of
its writes on whose hash the other copy of a paired launch has agreed (R313); `resume` is the rest of a GR job's resume point, after
`done` (R269); `unbinds` says that a GBIND that failed after it unbinds its handle once it has ended (R258, R259); `pc` is the address of its command's first form,
for fault packets (R306); `missed` is the last address without a mapping that the masthead has been told of (R17); `startNo` orders jobs by their start (R275); `seq` is a CRED's number at its level
(R284). -/
structure Job where
  id       : Nat
  ctx      : Fin 8
  sreg     : GReg
  cmd      : Cmd
  word     : BitVec 32
  pc       : Word
  a        : Word
  b        : Word
  gamma    : BitVec 32
  tolWide  : Nat
  tolNarrow : Nat
  preds    : List Pred
  started  : Bool
  done     : Nat
  resume   : List Nat
  record   : List Byte
  recordStop : Option StatusCode
  status   : Option (StatusCode × Nat)
  binding  : Option GBinding
  shadows  : List Nat
  remote   : Option Nat
  agreed   : Nat
  missed   : Option Nat
  startNo  : Nat
  seq      : Nat
  unbinds  : Bool
deriving DecidableEq, Repr

/-- A weight buffer line's side state (R227). -/
structure WLine where
  desc   : BitVec 16
  poison : Bool
  job    : Option Nat
deriving DecidableEq, Repr

/-- An event that a bank has received, with the full step that it took it for (R299). -/
structure Stored where
  step : Int
  ev   : NbEvent
deriving DecidableEq, Repr

/-- The neuron bank but for its records, which lie in memory (R297 to R304). `closed` says that step `c` is closed but not
finished, with the neurons that its events have touched and the events that came for it too late. -/
structure Bank where
  configured : Bool
  config     : List Byte
  c          : Nat
  closed     : Bool
  touched    : List Nat
  pending    : List Stored
  tardy      : List Stored
  spill      : List Stored
  held       : List NbEvent
  outPos     : Nat
  outCount   : Nat
  posted     : Nat
  late       : Nat
deriving DecidableEq, Repr

/-- A cached translation of one 64 KiB part of a page: the job, the page number and what the leaf said (R17). -/
structure TlbEntry where
  job  : Nat
  page : Nat
  base : Nat
  w    : Bool
  pk   : Bool
  pr   : Bool
  host : Bool
deriving DecidableEq, Repr

/-- The cluster: its job queue, with the number of entries that jobs of its other cores take (R14), its weight buffer's side state, its neuron bank and its translation cache of 64 entries. -/
structure Cluster where
  jobs    : List Job
  others  : Nat
  nextJob : Nat
  starts  : Nat
  wlines  : List (Nat × WLine)
  pattern : Option Nat
  bank    : Bank
  tlb     : List TlbEntry
deriving DecidableEq, Repr

/-! ### What a save keeps (R315 to R319) -/

/-- A core's record in the cellar. -/
structure SavedCore where
  ctxs  : Vector Ctx 8
  core  : CoreRegs
  mem   : Cells
  descs : List (Nat × BitVec 16)
  tags  : List Nat
  poison : List Nat
  badParity : List Nat
  jobs  : List Job
  bank  : Option Bank
  lost  : List (Fin 8)
deriving DecidableEq, Repr

/-! ### Jobs, queues and launches (R331 to R339) -/

/-- A job that JOBNEW created (R338). -/
structure JobEntry where
  id        : Nat
  ptRoot    : Nat
  key       : List Byte
  cellar    : Nat
  cellarLen : Nat
  retired   : Bool
  weight    : Nat
  deficit   : Int
deriving DecidableEq, Repr

/-- A launch queue: `live` while it is registered, `stopped` once its header was found not well formed (R331, R338). -/
structure LaunchQueue where
  hdr     : Nat
  job     : Nat
  prio    : Nat
  msix    : Option Nat
  weight  : Nat
  wd1     : Nat
  wd2     : Nat
  wd3     : Nat
  dies    : Nat
  live    : Bool
  stopped : Bool
  done    : List Nat
deriving DecidableEq, Repr

/-- An accepted launch (R333 to R337). -/
structure Launch where
  id        : Nat
  queue     : Nat
  job       : Nat
  seq       : Nat
  entry     : Word
  groups    : Nat
  arg       : Word
  live      : Word
  startTick : Option Nat
  compl     : Nat
  policy    : Nat
  block     : Nat
  paired    : Bool
  domain    : List (BitVec 32)
  n         : Nat
  image     : Nat
  imageLen  : Nat
  gang      : List Nat
  accepted  : List Nat
  granted   : Bool
  started   : Bool
  ended     : Bool
  result    : Option (Nat × Nat)
deriving DecidableEq, Repr

/-- A published buffer (R204): its descriptor's address, its range, its two backings and the PUBLs that wait. -/
structure PubBuf where
  desc    : Nat
  job     : Nat
  front   : Nat
  len     : Nat
  shadow  : Nat
  swapped : Bool
  closed  : Bool
  waiting : List (Fin 8 × GReg × AgentScope)
deriving DecidableEq, Repr

/-- A pod port (R345). `wire` holds what it has sent, oldest first; `tries` counts the replays of its oldest flit that is not
acknowledged. -/
structure PodPort where
  up       : Bool
  lost     : Bool
  replays  : Nat
  sendSeq  : Nat
  unacked  : List (List Byte)
  wire     : List (List Byte)
  tries    : Nat
  recvSeq  : Nat
  replayOf : Option Nat
  credits  : Nat
deriving DecidableEq, Repr

/-- A host port (R340, R355). -/
structure HostPort where
  up    : Bool
  perst : Bool
deriving DecidableEq, Repr

/-- What a host request was answered with (R341, R346, R353). -/
inductive HostReply where
  | data (bytes : List Byte)
  | unsupported
  | retry
  | config
deriving DecidableEq, Repr

/-- An event that the event log records (R351). -/
inductive LogEvent where
  | powerStep (n : Nat) | powerFailed (n : Nat) | kill (job : Nat) | fenced | linkLost (port : Nat) | uncorrectable | throttled (island : Nat)
  | overheat (island : Nat) | powerGoodLost (stage : Nat) | bankFallback
deriving DecidableEq, Repr

/-- A record of the event log: its time, its source and what happened (R351). -/
structure LogRecord where
  tick   : Word
  source : Nat
  event  : LogEvent
deriving DecidableEq, Repr

/-- A firmware bank (R352). -/
structure FwBank where
  image  : List Byte
  signed : Bool
deriving DecidableEq, Repr

/-- A power stage of R354 as the controller drives it: enabled, the voltage set in millivolts, and whether it asserts power-good. -/
structure Rail where
  enabled : Bool
  volts   : Nat
  good    : Bool
deriving DecidableEq, Repr

/-- The Spaly controller (R350 to R355). `rails` are the 77 power stages in the order of R354's table; `stage` is the last step of the power-up sequence that has completed, `since` the time
since power-up in units of 10 ns, and `sample` its last readings. -/
structure Spaly where
  standby  : Bool
  stage    : Nat
  since    : Word
  cap      : Nat
  clocks   : List Nat
  sample   : SensorReading
  rails    : List Rail
  log      : List LogRecord
  banks    : Vector FwBank 2
  active   : Fin 2
  next     : Fin 2
  answers  : List Word
deriving DecidableEq, Repr

/-- A freeze or a resumption at an agreed tick, with the host buffers of its image (R346, R347). -/
structure TickCmd where
  tick  : Nat
  seq   : Nat
  compl : Nat
  map   : Nat
  bufs  : List (Nat × Nat)
deriving DecidableEq, Repr

/-- What the image in a list of host buffers stands for (R324, R346): the tick of the freeze, the cores' records, the jobs with
their launches and published buffers, and the pages and cellars evicted. -/
structure Image where
  bufs     : List (Nat × Nat)
  tick     : Nat
  saved    : List SavedCore
  jobs     : List JobEntry
  queues   : List LaunchQueue
  launches : List Launch
  pubs     : List PubBuf
  mem      : Cells
  descs    : List (Nat × BitVec 16)
  poison   : List Nat
deriving DecidableEq, Repr

/-- The module: launch unit, masthead, ports, register aperture and controller. `tlb` is the region's translation cache
(R17); `fuses` says which cores are fused off, by cluster (die × 6,912 + cluster index) and mask (R10, R12); `applied` counts the
writes of each die that this core's die has applied (R212); `outbox` holds what is to go to other modules in flits: type, destination
and what it says (R345). -/
structure Module where
  jobs      : List JobEntry
  queues    : List LaunchQueue
  launches  : List Launch
  nextId    : Nat
  pubs      : List PubBuf
  tlb       : List TlbEntry
  fuses     : List (Nat × Nat)
  applied   : Vector Nat 12
  inbox     : List FaultPacket
  driver    : List FaultPacket
  fseq      : Nat
  msix      : List Nat
  messages  : List (Nat × Nat)
  outbox    : List (Nat × Nat × Nat)
  modnum    : Nat
  feat0     : Word
  featAcc   : Vector Word 4
  ctlq      : Word
  ctlBusy   : Bool
  errReg    : Word
  tick      : Word
  frozen    : Bool
  anyFenced : Bool
  freeze    : Option TickCmd
  freezing  : Bool
  resume    : Option TickCmd
  image     : Option Image
  ports     : Vector PodPort 32
  hosts     : Vector HostPort 4
  replies   : List HostReply
  spaly     : Spaly
deriving DecidableEq, Repr

/-- Who reads and writes (R206, R207): a context of this core, an engine job of its cluster, or an agent outside the core, by its die and
the number of its write among those of that die (R212). -/
inductive Agent where
  | ctx (c : Fin 8) | job (id : Nat) | outside (die n : Nat)
deriving DecidableEq, Repr

/-- A release, or a release fence (R206): its number, its agent, its storage scope, and the narrowest agent scope within which an acquire
of this core has that agent, of the releases whose own scope reaches this core (R207, R209). -/
structure Release where
  stamp   : Nat
  owner   : Agent
  reach   : AgentScope
  storage : Storage
deriving DecidableEq, Repr

/-- A byte that a write has changed and that some agents may still read as it was (R211): `stamp` orders the writes to a byte, and bytes
of one write that share `unit` are read all or none (R179); `old` and `heads` are what stood there, with the releases in whose sequence
it lay (R209); `readers` may read it still; the write happens before every later event that is not relaxed of the agents in `firm`
(R208), before the end of the helpers in `ended` (R210), and before the releases numbered in `carried`. -/
structure Unseen where
  stamp   : Nat
  unit    : Nat
  loc     : Nat
  old     : Byte
  heads   : List Release
  owner   : Agent
  readers : List Agent
  firm    : List Agent
  ended   : List (Fin 8)
  carried : List Nat
deriving DecidableEq, Repr

/-- The order of memory as far as it is open (R206 to R215): what may still be read of before a write, oldest first; the releases in whose
sequence the newest write of a location lies; those that an agent's reads have met, with the location, for its fences (R209); the release
fences; and the last number given. -/
structure Visibility where
  unseen : List Unseen
  heads  : List (Nat × Release)
  met    : List (Agent × Nat × Release)
  fences : List Release
  count  : Nat
deriving DecidableEq, Repr

/-- Every write is seen by every agent. -/
def Visibility.settled (n : Nat) : Visibility where
  unseen := []
  heads := []
  met := []
  fences := []
  count := n

/-- The whole machine. `mem` is one canonical list of cells keyed by location (see Ops); `descs`, `tags`, `poison` and
`badParity` are sparse in the same way; `icache` is the instruction cache, by 32-byte block of locations (R82); `vis` is what agents may still read of before a
write (R211), and `unacked` says that writes that have left the core are not all acknowledged (R212). The last three fields are the model's own: what happens next, where that is given
(an event, or none for the core's next form), the counter that free values are applied to, and the errors that strike
executions of a TRIPLE unit. -/
structure State where
  ctxs      : Vector Ctx 8
  core      : CoreRegs
  clu       : Cluster
  mod       : Module
  mem       : List Host.Cell
  descs     : List (Nat × BitVec 16)
  tags      : List Nat
  poison    : List Nat
  badParity : List Nat
  icache    : List (Nat × List Byte)
  vis       : Visibility
  unacked   : Bool
  feQueue   : List FeReq
  saved     : List SavedCore
  inputs    : List (Option Instr)
  choice    : Nat
  upsets    : List Strike
deriving DecidableEq, Repr

/-! ### Reset -/

/-- The generator states at the start of a group or helper (R52). -/
def seedStates : Vector (BitVec 32) 8 := Vector.ofFn fun j : Fin 8 => 0x6D2B79F5#32 ^^^ BitVec.ofNat 32 j.val

/-- A context slot in which nothing runs; registers as at the start of a group (R20, R23, log 2). -/
def Ctx.idle : Ctx where
  live := false
  pc := 0
  g := Vector.replicate 16 0
  l := Vector.replicate 4 0
  k := Vector.replicate 8 0
  v := Vector.replicate 20 0
  st := seedStates
  h := Vector.replicate 8 none
  y := Vector.replicate 4 none
  q := Vector.replicate 4 .unbound
  pend := Vector.replicate 16 none
  deps := []
  wait := none
  notice := false
  expired := false
  contributed := false
  parked := none
  stopped := false
  packet := none
  runTimer := 0
  owed := []
  exitVal := 0
  poisoned := []
  insn := 0
  pairHash := none
  pairOk := false

/-- The core at device reset: CSRs at R109's reset values, its place die 0, row 0, column 0, core 0 (log 3). -/
def CoreRegs.reset : CoreRegs where
  cur := 0
  unit := none
  frozen := false
  sealed := false
  fenced := false
  saving := false
  stepping := none
  stepDone := false
  preempt := false
  fromFreeze := false
  votes := 0
  die := 0
  row := 0
  col := 0
  cix := 0
  lid := 0
  groupId := 0
  groupCnt := 0
  launchArg := 0
  dom := Vector.replicate 5 0
  cycles := 0
  liveBase := 0
  xringBase := 0
  xringSize := 0
  xspillBase := 0
  xspillSize := 0
  tolWide := 20
  tolNarrow := 14
  corrected := 0
  unverified := 0
  gamma := 0x3F800000
  inHead := 0
  inCount := 0
  ovHead := 0
  ovCount := 0
  outgoing := none
  arriving := []
  phase := none
  sent := 0
  aborted := false
  split := none
  blockLids := none
  withdrawn := []
  credSeq := Vector.replicate 5 0
  watch := Vector.replicate 8 none
  watchClock := 0
  tiles := Vector.replicate 64 none
  acc := Vector.replicate 4 { unverified := false, poisoned := false }
  ctxSel := 0
  maddr := 0
  heldWrites := []
  launch := none
  groupLive := false
  nextGroup := 0
  synced := false
  restarts := 0
  twin := none
  second := false
  feat := Vector.replicate 4 0
  modId := 0
  sealedPeers := []

/-- A neuron bank that is not configured (R304). -/
def Bank.reset : Bank where
  configured := false
  config := []
  c := 0
  closed := false
  touched := []
  pending := []
  tardy := []
  spill := []
  held := []
  outPos := 0
  outCount := 0
  posted := 0
  late := 0

/-- The cluster at reset: nothing queued, every line and the pattern table invalid (R227). -/
def Cluster.reset : Cluster where
  jobs := []
  others := 0
  nextJob := 0
  starts := 0
  wlines := []
  pattern := none
  bank := Bank.reset
  tlb := []

/-- A pod port at reset (R342). -/
def PodPort.reset : PodPort where
  up := false
  lost := false
  replays := 0
  sendSeq := 0
  unacked := []
  wire := []
  tries := 0
  recvSeq := 0
  replayOf := none
  credits := 0

/-- The 77 power stages in R354's order, with the voltage that each is set to: standby, the 48 compute islands, the twelve memory
stages, the two link stages, the two serial stages, and the twelve sets of HBM. The islands stand at the top of their range and the HBM
sets at what their own standard sets for the core supply: the model's choices (log 82, log 97). -/
def railVolts : List Nat :=
  [3300] ++ List.replicate 48 900 ++ List.replicate 12 800 ++ List.replicate 2 750 ++ List.replicate 2 900 ++
    List.replicate 12 1050

/-- Every stage up, as power-up leaves them (R353, R354). -/
def Rail.allUp : List Rail := railVolts.map fun v => { enabled := true, volts := v, good := true }

/-- The controller after step 7 of the power-up sequence, whose steps are logged (R350, R351, R353; log 6). -/
def Spaly.reset : Spaly where
  standby := true
  stage := 7
  since := 0
  cap := 6400
  clocks := List.replicate 48 850
  sample := { powers := [], temps := [], volts := [], amps := [], stages := [] }
  rails := Rail.allUp
  log := (List.range 7).map fun n => { tick := 0, source := 0xFFFF, event := .powerStep (n + 1) }
  banks := Vector.replicate 2 { image := [], signed := true }
  active := 0
  next := 0
  answers := []

/-- The module at reset (R342, R343; log 5, log 6). -/
def Module.reset : Module where
  jobs := []
  queues := []
  launches := []
  nextId := 0
  pubs := []
  tlb := []
  fuses := []
  applied := Vector.replicate 12 0
  inbox := []
  driver := []
  fseq := 0
  msix := []
  messages := []
  outbox := []
  modnum := 0
  feat0 := 0x3FF
  featAcc := Vector.replicate 4 0
  ctlq := 0
  ctlBusy := false
  errReg := 0
  tick := 0
  frozen := false
  anyFenced := false
  freeze := none
  freezing := false
  resume := none
  image := none
  ports := Vector.replicate 32 PodPort.reset
  hosts := Vector.replicate 4 { up := true, perst := false }
  replies := []
  spaly := Spaly.reset

/-- The machine after a completed power-up: no job, no launch, no context live. -/
def State.reset : State where
  ctxs := Vector.replicate 8 Ctx.idle
  core := CoreRegs.reset
  clu := Cluster.reset
  mod := Module.reset
  mem := []
  descs := []
  tags := []
  poison := []
  badParity := []
  icache := []
  vis := Visibility.settled 0
  unacked := false
  feQueue := []
  saved := []
  inputs := []
  choice := 0
  upsets := []

end Sys2Proof.Machine

namespace Sys2Proof.Config

/-- The image that host buffers hold where this module did not write it: of a freeze of another module, or none, for the buffers and
the number of the command that names them (R347). Log 53. -/
opaque foreignImage : List (Nat × Nat) → Nat → Option Sys2Proof.Machine.Image

end Sys2Proof.Config
end

