-- ==== Sys2Proof/Machine/Ops.lean ====
section
/-! DEFINITION. The named operations over memory, registers, faults and addresses that every meaning uses: sparse
memory (R15, R56, R184, R311), registers (R83 to R86), taking a fault and resuming (R305 to R311), translation (R17,
R339) and the checks of a memory access (R174). -/

namespace Sys2Proof.Machine

/-- What a meaning answers. -/
abbrev Out := Host.Outcome State Fault Refusal

/-- A fault that a check found: its class, the ADDR, INFO and STATUS of its packet, and a block whose descriptor's
parity the check found broken (R60, R307). -/
structure Flt where
  cls    : FaultClass
  addr   : Word := 0
  info   : BitVec 16 := 0
  status : Word := 0
  block  : Option Nat := none
deriving DecidableEq, Repr

/-- A check's result. -/
abbrev Chk (α : Type) := Except Flt α

/-- The next check, when the one before found nothing. -/
def Chk.andThen {α β : Type} (x : Chk α) (f : α → Chk β) : Chk β :=
  match x with
  | .ok a => f a
  | .error e => .error e

/-- A test: `cls` is raised unless `b` holds. -/
def demand (b : Bool) (cls : FaultClass) (addr : Word := 0) : Chk Unit :=
  if b then .ok () else .error { cls := cls, addr := addr }

/-! ### Sparse maps -/

/-- What a sparse map holds at `a`; `d` is what an unlisted key reads as. -/
def sparseGet {α : Type} (d : Nat → α) : List (Nat × α) → Nat → α
  | [], a => d a
  | (k, b) :: r, a => if k = a then b else sparseGet d r a

/-- A sparse map with `v` at `a`, in canonical form. -/
def sparsePut {α : Type} [DecidableEq α] (d : Nat → α) : List (Nat × α) → Nat → α → List (Nat × α)
  | [], a, v => if v = d a then [] else [(a, v)]
  | (k, b) :: r, a, v =>
    if a < k then (if v = d a then (k, b) :: r else (a, v) :: (k, b) :: r)
    else if a = k then (if v = d a then r else (a, v) :: r)
    else (k, b) :: sparsePut d r a v

/-- The canonical form: keys strictly rise from `lo`, and no entry equals what an unlisted key reads as. -/
def sparseWf {α : Type} [DecidableEq α] (d : Nat → α) : Nat → List (Nat × α) → Bool
  | _, [] => true
  | lo, (k, b) :: r => decide (lo ≤ k) && decide (b ≠ d k) && sparseWf d (k + 1) r

/-- A sorted set with `a` in it. -/
def setInsert : List Nat → Nat → List Nat
  | [], a => [a]
  | k :: r, a => if a < k then a :: k :: r else if a = k then k :: r else k :: setInsert r a

/-- A set without `a`. -/
def setErase (l : List Nat) (a : Nat) : List Nat := l.filter fun k => !decide (k = a)

/-! ### Locations. Memory is keyed by location; every store of the machine has its own range. -/

/-- The size of a scratchpad (R13). -/
def spadSize : Nat := 0x20000

/-- The accumulator tiles a0 to a3 of this core (R217). -/
def accLoc : Nat := 0x20000

/-- The boltrope record of tile slot t, or of accumulator tile t - 64 (R218). -/
def boltLoc (t : Nat) : Nat := 0x30000 + 256 * t

/-- The weight buffer (R227). -/
def wbufLoc : Nat := 0x40000

/-- The pattern table (R227). -/
def patLoc : Nat := 0x50000

/-- The neuron records (R297). -/
def neuronLoc : Nat := 0x60000

/-- The harvest apertures (R12). -/
def harvestLoc : Nat := 0xFF00000000

/-- The global scratchpad window; peers' scratchpads lie at their window addresses (R15). -/
def gwinLoc : Nat := 0x10000000000

/-- Device memory by physical address (R357). -/
def hbmLoc : Nat := 0x100000000000

/-- Bytes of device memory: 768 GiB (R357). -/
def hbmSize : Nat := 768 * 2 ^ 30

/-- Host memory by host physical address (R339). -/
def hostLoc : Nat := 2 ^ 56

/-- What an unlisted location reads as: 0 (log 1), but for the harvest apertures, where core 7 of the cluster at
region-local row 8 and column 7 is its region's masthead (R10, R12; log 4). -/
def unlisted (loc : Nat) : Byte :=
  if harvestLoc ≤ loc ∧ loc < harvestLoc + 0x18000 then
    let o := (loc - harvestLoc) % 0x2000
    if o < 6912 ∧ o / 64 % 9 = 8 ∧ o % 8 = 7 then 0x80 else 0
  else 0

/-- One byte of memory. -/
def Memory.get (m : Cells) (loc : Nat) : Byte := sparseGet unlisted m loc

/-- Memory with one byte written. -/
def Memory.put (m : Cells) (loc : Nat) (b : Byte) : Cells := sparsePut unlisted m loc b

/-- Memory's canonical form. -/
def Memory.wf (m : Cells) : Bool := sparseWf unlisted 0 m

/-- Memory with a run of bytes written. -/
def Memory.putBytes : Cells → Nat → List Byte → Cells
  | m, _, [] => m
  | m, loc, b :: bs => Memory.putBytes (Memory.put m loc b) (loc + 1) bs

/-- Memory with the locations from `lo` to `hi` reading as unlisted. -/
def Memory.clear (m : Cells) (lo hi : Nat) : Cells := m.filter fun c => decide (c.1 < lo) || decide (hi ≤ c.1)

/-- A run of bytes. -/
def Memory.bytes (m : Cells) (loc : Nat) : Nat → List Byte
  | 0 => []
  | n + 1 => Memory.get m loc :: Memory.bytes m (loc + 1) n

/-- `n` bytes at a location as a little-endian number (R2). -/
def readLoc (s : State) (loc n : Nat) : Nat := leNat (Memory.bytes s.mem loc n)

/-- Bytes at a location. -/
def readBytes (s : State) (loc n : Nat) : List Byte := Memory.bytes s.mem loc n

/-- Storage written without any effect on watches or check bits: side arrays and hidden state. -/
def setBytes (s : State) (loc : Nat) (bs : List Byte) : State := { s with mem := Memory.putBytes s.mem loc bs }

/-- A number of `n` bytes into storage (R2). -/
def setLoc (s : State) (loc n x : Nat) : State := setBytes s loc (leBytes n x)

/-- The descriptor of a 64-byte block of locations (R56). -/
def descOf (s : State) (block : Nat) : BitVec 16 := sparseGet (fun _ => 0) s.descs block

/-- A block's descriptor written, its parity recomputed (R59, R60). -/
def setDesc (s : State) (block : Nat) (d : BitVec 16) : State :=
  { s with descs := sparsePut (fun _ => 0) s.descs block d, badParity := setErase s.badParity block }

/-- The format code of a block (R56). -/
def fmtOf (s : State) (block : Nat) : Nat := (descOf s block).toNat % 256

/-- The scale byte of a block (R56). -/
def scaleOf (s : State) (block : Nat) : Nat := (descOf s block).toNat / 256

/-- Whether a format code is assigned (R57). -/
def fmtAssigned (f : Nat) : Bool := decide (f ≤ 0x0E) || (decide (0x10 ≤ f) && decide (f ≤ 0x14)) || decide (f = 0xFF)

/-! ### Contexts -/

/-- A context slot. -/
def State.ctx (s : State) (c : Fin 8) : Ctx := s.ctxs[c.val]'c.isLt

/-- A context slot replaced. -/
def State.setCtx (s : State) (c : Fin 8) (x : Ctx) : State := { s with ctxs := s.ctxs.set c.val x c.isLt }

/-- The context that issues. -/
def State.cur (s : State) : Fin 8 := s.core.cur

/-- The eight slots. -/
def slots : List (Fin 8) := [0, 1, 2, 3, 4, 5, 6, 7]

/-- The next number for a free value. -/
def State.tickChoice (s : State) : State := { s with choice := s.choice + 1 }

/-- The state after the time that passes before it is observed (R4; log 9): the pod tick has gone on, or, before the time base runs, the
time since power-up (R351, R353). -/
def observeTick (s : State) : State :=
  let n := BitVec.ofNat 64 (Config.ticksPassed s.choice)
  let p := s.mod.spaly
  let runs := decide (6 ≤ p.stage)
  { s with mod := { s.mod with tick := if runs then s.mod.tick + n else s.mod.tick
                               spaly := { p with since := if runs then p.since else p.since + n } },
           choice := s.choice + 1 }

/-- The cycle counter after the time that passes before it is observed: at least one cycle (R109; log 9). -/
def observeCycles (s : State) : State :=
  { s with core := { s.core with cycles := s.core.cycles + 1 + BitVec.ofNat 64 (Config.cyclesPassed s.choice) },
           choice := s.choice + 1 }

/-! ### The core's identity -/

/-- CORE_PID's layout (R109). -/
def pidWord (die row col cix : Nat) : BitVec 32 :=
  BitVec.ofNat 32 (die * 2 ^ 28 + row * 2 ^ 21 + col * 2 ^ 15 + cix * 2 ^ 12)

/-- CORE_PID of this core (R109). -/
def corePid (s : State) : BitVec 32 := pidWord s.core.die s.core.row s.core.col s.core.cix

/-- The launch that runs on this core. -/
def curLaunch (s : State) : Option Launch :=
  match s.core.launch with
  | none => none
  | some i => s.mod.launches.find? fun l => decide (l.id = i)

/-- N, the size of the launch domain (R16). -/
def domainSize (s : State) : Nat :=
  match curLaunch s with
  | none => 0
  | some l => l.n

/-- The job that the core works for. -/
def curJobId (s : State) : Nat :=
  match curLaunch s with
  | none => 0
  | some l => l.job

/-- The job's entry. -/
def jobEntry (s : State) (id : Nat) : Option JobEntry := s.mod.jobs.find? fun j => decide (j.id = id) && !j.retired

/-- The launch queue of the running launch. -/
def curQueue (s : State) : Option LaunchQueue :=
  match curLaunch s with
  | none => none
  | some l => s.mod.queues.find? fun q => decide (q.hdr = l.queue) && decide (q.job = l.job)

/-- Whether a launch of more groups than cores runs (R21). -/
def notCoResident (s : State) : Bool :=
  match curLaunch s with
  | none => false
  | some l => decide (l.n < l.groups)

/-- An accepted feature of the running launch (R107, R343). -/
def feature (s : State) (i : Nat) : Bool := (s.core.feat[0]).getLsbD i

/-! ### Taking a fault (R305 to R311) -/

/-- The address that a fault of a context reports: its first prefix, or its pc (R81). -/
def unitStart (s : State) (c : Fin 8) : Word :=
  match s.core.unit with
  | some u => if s.core.cur = c then u.start else (s.ctx c).pc
  | none => (s.ctx c).pc

/-- The SOURCE of an event (R351): a core's die and island, an island, or the module. Which island holds a core is given nowhere
(log 77). -/
def logSource (s : State) (e : LogEvent) : Nat :=
  match e with
  | .fenced | .uncorrectable => s.core.die + 16 * (Config.islandOf (corePid s).toNat % 4)
  | .throttled i | .overheat i => i / 4 % 16 + 16 * (i % 4)
  | .powerStep _ | .powerFailed _ | .kill _ | .linkLost _ | .powerGoodLost _ | .bankFallback => 0xFFFF

/-- The TICK of a record: the time since power-up before the pod time base runs (R351, R353). -/
def logTime (s : State) : Word := if s.mod.spaly.stage < 6 then s.mod.spaly.since else s.mod.tick

/-- The event log with one more record, of the time at which the event comes; the ring keeps the newest 2,048 (R351). -/
def logEvent (s : State) (e : LogEvent) : State :=
  let s := observeTick s
  let log := s.mod.spaly.log ++ [{ tick := logTime s, source := logSource s e, event := e }]
  { s with mod := { s.mod with spaly := { s.mod.spaly with log := log.drop (log.length - 2048) } } }

/-- Requests of a context taken out of every queue (R187). -/
def withdraw (s : State) (c : Fin 8) : State :=
  { s with feQueue := s.feQueue.filter fun r => match r.origin with
      | .own d _ _ => !decide (d = c)
      | .remote _ => true }

/-- The freeze and the packet of a fault: the context stops at the faulting instruction, its core freezes, and one
packet goes to the masthead (R305, R307). -/
def freezeWith (s : State) (c : Fin 8) (f : Flt) : State :=
  let s := withdraw (observeTick s) c
  let start := unitStart s c
  let p : FaultPacket := {
    cls := f.cls, ctx := c, info := f.info, pid := corePid s, pc := start, addr := f.addr,
    insn := if f.cls = .watchdog then 0 else (s.ctx c).insn, group := BitVec.ofNat 32 s.core.groupId,
    status := f.status, tick := s.mod.tick, job := BitVec.ofNat 32 (curJobId s), fseq := BitVec.ofNat 32 s.mod.fseq,
    votes := BitVec.ofNat 32 s.core.votes, launch := s.core.launch, source := .context }
  let x := s.ctx c
  let s := s.setCtx c { x with pc := start, stopped := true, wait := none, packet := some p }
  { s with core := { s.core with frozen := true, unit := none, stepping := none, stepDone := false },
           mod := { s.mod with inbox := s.mod.inbox ++ [p], fseq := s.mod.fseq + 1 } }

/-- A block whose descriptor is found broken is poisoned (R60), and the error logged (R351). -/
def blockFound (s : State) (b : Nat) : State := logEvent (setDesc s b (descOf s b ||| 0xFF)) .uncorrectable

/-- A block whose descriptor's parity a check found broken is poisoned (R60). -/
def poisonFound (s : State) (f : Flt) : State :=
  match f.block with
  | none => s
  | some b => setDesc s b (descOf s b ||| 0xFF)

/-- Every queued request at the words that `p` picks, those of a core that is sealed, ends with PEER_SEALED at its requester (R187, R311):
a context of this core stops with its own packet, which names the sealed core; another core gets the error reply. -/
def sealWords (s : State) (p : Nat → Bool) (pid : BitVec 32) : State :=
  let t := { s with feQueue := s.feQueue.filter fun r => !p r.loc }
  (s.feQueue.filter fun r => p r.loc).foldl (fun s r => match r.origin with
    | .own c _ _ => freezeWith s c { cls := .peerSealed, addr := pid.zeroExtend 64 }
    | .remote o => { s with mod := { s.mod with messages := s.mod.messages ++ [(o, 2 ^ 64)] } }) t

/-- Sealing (R311): the core freezes, its queued jobs that have not started end with CANCELLED, and every queued request for its words
ends with PEER_SEALED. -/
def sealCore (s : State) : State :=
  let jobs := s.clu.jobs.map fun j => if j.started || j.status.isSome then j else { j with status := some (.cancelled, 0) }
  let s := { s with core := { s.core with frozen := true, sealed := true, unit := none },
                    clu := { s.clu with jobs := jobs } }
  sealWords s (fun l => decide (l < spadSize)) (corePid s)

/-- A fault is taken (R305): freeze and packet; a broken descriptor's block is poisoned (R60); UNCORRECTABLE also
seals the core (R311) and is logged (R351; log 77). -/
def raise (s : State) (c : Fin 8) (f : Flt) : State :=
  let s := freezeWith (poisonFound s f) c f
  if f.cls = .uncorrectable then logEvent (sealCore s) .uncorrectable else s

/-- The meaning's answer when its instruction faults: the state in which the fault has been taken. -/
def fault (s : State) (f : Flt) : Out := .next (raise s s.cur f)

/-- A fault of a class alone. -/
def faultCls (s : State) (cls : FaultClass) : Out := fault s { cls := cls }

/-- Continue with what a check gives, or take its fault. -/
def Chk.run {α : Type} (s : State) (x : Chk α) (k : α → Out) : Out :=
  match x with
  | .ok a => k a
  | .error f => fault s f

/-- The frozen core runs again: stopped contexts go on at their reported pc, `skip` bytes further for the context
given (R308, R310). -/
def resumeCore (s : State) (skip : Option (Fin 8)) : State :=
  let go (c : Fin 8) (x : Ctx) : Ctx :=
    if x.stopped then { x with stopped := false, pc := if skip = some c then x.pc + 4 else x.pc } else x
  { s with ctxs := Vector.ofFn fun c => go c (s.ctx c), core := { s.core with frozen := false } }

/-! ### Retiring and sleeping -/

/-- The instruction retires: its context goes on after it, and the unit ends; a debug step is over (R310). -/
def retire (s : State) (c : Fin 8) (len : Nat) : State :=
  let x := s.ctx c
  let s := s.setCtx c { x with pc := x.pc + BitVec.ofNat 64 len }
  { s with core := { s.core with unit := none, stepDone := s.core.stepDone || decide (s.core.stepping = some c) } }

/-- The instruction jumps. -/
def retireTo (s : State) (c : Fin 8) (pc : Word) : State :=
  let x := s.ctx c
  let s := s.setCtx c { x with pc := pc }
  { s with core := { s.core with unit := none, stepDone := s.core.stepDone || decide (s.core.stepping = some c) } }

/-- Whether a wait is a stall and no sleep (R24, R31, R183, R212, R313): a stalled context is timed and is not parked. -/
def Wait.isStall (w : Wait) : Bool :=
  match w with
  | .host _ | .held | .pair | .acks => true
  | _ => false

/-- The context waits; its instruction executes again from its first form (R24, R314). A sleep restarts its run timer, a
stall does not (R320). -/
def waitFor (s : State) (w : Wait) : Out :=
  let c := s.cur
  let x := s.ctx c
  let s' := s.setCtx c { x with pc := unitStart s c, wait := some w, runTimer := if w.isStall then x.runTimer else 0 }
  .next { s' with core := { s'.core with unit := none } }

/-! ### Registers (R83 to R86) -/

/-- A g register; g0 reads 0 (R83). -/
def getG (s : State) (c : Fin 8) (r : GReg) : Word := if r = 0 then 0 else (s.ctx c).g[r.val]'r.isLt

/-- A g register written; writes to g0 are discarded (R83). Fresh parity ends a poisoned value (R311). -/
def setG (s : State) (c : Fin 8) (r : GReg) (w : Word) : State :=
  if r = 0 then s else
    let x := s.ctx c
    s.setCtx c { x with g := x.g.set r.val w r.isLt, poisoned := x.poisoned.filter fun n => !decide (n = RegName.g r) }

/-- A vector register by its operand code (R84). -/
def getV (s : State) (c : Fin 8) (v : VCode) : Vec :=
  let x := s.ctx c
  if h : v.val < 4 then x.l[v.val]
  else if h : v.val < 12 then x.k[v.val - 4]
  else x.v[v.val - 12]'(by have := v.isLt; omega)

/-- A named k or v register written; codes below 4 name none as a destination (R84). -/
def setV (s : State) (c : Fin 8) (v : VCode) (w : Vec) : State :=
  let x := s.ctx c
  let x := { x with poisoned := x.poisoned.filter fun n => !decide (n = RegName.vec v) }
  if v.val < 4 then s
  else if h : v.val < 12 then s.setCtx c { x with k := x.k.set (v.val - 4) w (by omega) }
  else s.setCtx c { x with v := x.v.set (v.val - 12) w (by have := v.isLt; omega) }

/-- The last-result file pushed (R85). -/
def pushL (s : State) (c : Fin 8) (w : Vec) : State :=
  let x := s.ctx c
  let moved := x.poisoned.filterMap fun (n : RegName) => match n with
    | .vec v =>
      if v.val < 3 then some (RegName.vec (Fin.ofNat 32 (v.val + 1))) else if v.val = 3 then none else some n
    | .g _ => some n
  s.setCtx c { x with l := #v[w, x.l[0], x.l[1], x.l[2]], poisoned := moved }

/-- The k register that serves as a mask (R86). -/
def getK (s : State) (c : Fin 8) (m : Fin 8) : Vec := (s.ctx c).k[m.val]'m.isLt

/-- Bit `e` of the mask that a mask field selects; field 0 selects none (R86). -/
def maskBit (s : State) (c : Fin 8) (m : Fin 8) (e : Nat) : Bool :=
  decide (m = 0) || (decide (e < 32) && (getK s c m).getLsbD e)

/-- Whether a register is a pending status register (R35). -/
def isPending (s : State) (c : Fin 8) (r : GReg) : Bool :=
  !decide (r = 0) && ((s.ctx c).pend[r.val]'r.isLt).isSome

/-- Reading a g register with broken parity is UNCORRECTABLE (R311). -/
def withData (s : State) (reads : List GReg) (k : Out) : Out :=
  if reads.any fun r => (s.ctx s.cur).poisoned.contains (.g r) then faultCls s .uncorrectable else k

/-- An instruction that names g registers: it sleeps while one of them is pending (R35), and reading a register with
broken parity is UNCORRECTABLE (R311). `reads` are those whose values its tests look at, and so read before the tests; `others` are
those that it writes, or whose values go on as data after the tests of operand values, by `withData` (R105; log 84). -/
def withRegs (s : State) (reads others : List GReg) (k : Out) : Out :=
  match (reads ++ others).find? (isPending s s.cur) with
  | some r => waitFor s (.pending r)
  | none => withData s reads k

/-- Reading vector registers with broken parity is UNCORRECTABLE (R311). -/
def withVecs (s : State) (reads : List VCode) (k : Out) : Out :=
  if reads.any fun r => (s.ctx s.cur).poisoned.contains (.vec r) then faultCls s .uncorrectable else k

/-- The operand code of a mask's register, when a mask is used. -/
def maskCode (m : Fin 8) : List VCode := if m = 0 then [] else [Fin.ofNat 32 (4 + m.val)]

/-! ### Voting (R142 to R145) -/

/-- Whether the unit carries TRIPLE. -/
def tripled (s : State) : Bool :=
  match s.core.unit with
  | some u => u.triple
  | none => false

/-- The payload of the unit's WIDE. -/
def widePayload (s : State) : Option (BitVec 10) :=
  match s.core.unit with
  | some u => u.wide
  | none => none

/-- Three executions compared: the value of an agreeing pair, counting an outvoted one; none when all three differ
(R144, R145). Each execution may be struck by one of the soft errors that `upsets` holds,
as far as it strikes the result's own bits (R143). The three are one step: no other context issues between them, which R146 allows
where one of them stalls (log 87). -/
def vote {w : Nat} (s : State) (x : BitVec w) : Option (BitVec w × State) :=
  if !tripled s then some (x, s) else
    let a := x ^^^ (s.upsets.getD 0 0).setWidth w
    let b := x ^^^ (s.upsets.getD 1 0).setWidth w
    let d := x ^^^ (s.upsets.getD 2 0).setWidth w
    let s := { s with upsets := s.upsets.drop 3 }
    if a = b ∧ b = d then some (a, s)
    else
      let s := { s with core := { s.core with votes := (s.core.votes + 1) % 2 ^ 32 } }
      if a = b ∨ a = d then some (a, s) else if b = d then some (b, s) else none

/-- A g result is voted on, written, and the instruction retires (R127, R144, R145). -/
def commitG (s : State) (rd : GReg) (v : Word) (len : Nat) : Out :=
  match vote s v with
  | none => faultCls { s with upsets := s.upsets.drop 3 } .tripleDisagree
  | some (v, s) => .next (retire (setG s s.cur rd v) s.cur len)

/-- A vector result is voted on, written to its destination, pushed into the last-result file, and the instruction
retires (R85, R144, R145). -/
def commitV (s : State) (vd : VCode) (v : Vec) (len : Nat) : Out :=
  match vote s v with
  | none => faultCls { s with upsets := s.upsets.drop 3 } .tripleDisagree
  | some (v, s) => .next (retire (pushL (setV s s.cur vd v) s.cur v) s.cur len)

/-- Destination codes 1 to 3 are refused (R84). -/
def goodDest (v : VCode) : Bool := decide (v.val = 0) || decide (4 ≤ v.val)

/-! ### Writes and what they set off (R190, R192, R311) -/

/-- What a write of bytes [loc, loc + n) does to one watch entry: it fires on its word (R190); the notice for another
word of its block (R192; log 23) is given by `watchNotice`. -/
def watchHit (e : WatchEntry) (loc n : Nat) : Bool := decide (loc < e.loc + 4) && decide (e.loc < loc + n)

/-- Whether a write touches the block of a watched word and not the word. -/
def watchNotice (e : WatchEntry) (loc n : Nat) : Bool :=
  !watchHit e loc n && decide (loc < e.loc / 64 * 64 + 64) && decide (e.loc / 64 * 64 < loc + n)

/-- The watch table and the notices after a write (R190, R192). -/
def fireWatches (s : State) (loc n : Nat) : State :=
  if n = 0 then s else
    let armed := s.core.watch.toList.filterMap id
    let owners := (armed.filter fun e => watchNotice e loc n).map fun e => e.owner
    let watch := Vector.ofFn fun i : Fin 8 => match s.core.watch[i.val] with
      | none => none
      | some e => some (if watchHit e loc n then { e with fired := true } else e)
    let s := { s with core := { s.core with watch := watch } }
    owners.foldl (fun s c => s.setCtx c { s.ctx c with notice := true }) s

/-- Granules that a write of [loc, loc + n) covers whole (R311). -/
def wholeGranule (loc n g : Nat) : Bool := decide (loc ≤ 8 * g) && decide (8 * g + 8 ≤ loc + n)

/-- Bytes written by any agent: memory, watches and the check bits of granules written whole. Descriptors stay (R59),
tags stay (R175). -/
def poke (s : State) (loc : Nat) (bs : List Byte) : State :=
  let s := setBytes s loc bs
  let s := { s with poison := s.poison.filter fun g => !wholeGranule loc bs.length g }
  fireWatches s loc bs.length

/-! ### Regions (R15, R16) -/

/-- The ranges of R15. -/
inductive Region where
  | spad | acc | border | debug | harvest | gwin | hbm | host | hole
deriving DecidableEq, Repr

/-- The range that holds an address (R15). -/
def regionOf (a : Nat) : Region :=
  if a < 0x20000 then .spad
  else if a < 0x21000 then .acc
  else if a < 0x21200 then .border
  else if 0x10000000 ≤ a ∧ a < 0x10240000 then .debug
  else if 0xFF00000000 ≤ a ∧ a < 0xFF00018000 then .harvest
  else if 0x10000000000 ≤ a ∧ a < 0x12000000000 then .gwin
  else if 0x100000000000 ≤ a ∧ a < 0x200000000000 then .hbm
  else if 0x800000000000 ≤ a ∧ a < 0x1000000000000 then .host
  else .hole

/-- The first address above a range, for the ranges an access may not leave (R174). -/
def regionEnd (r : Region) : Nat :=
  match r with
  | .spad => 0x20000
  | .acc => 0x21000
  | .border => 0x21200
  | .debug => 0x10240000
  | .harvest => 0xFF00018000
  | .gwin => 0x12000000000
  | .hbm => 0x200000000000
  | .host => 0x1000000000000
  | .hole => 0

/-! ### Translation (R17, R339) -/

/-- What a page's leaf entry says. -/
structure Leaf where
  base : Nat
  size : Nat
  w    : Bool
  pk   : Bool
  pr   : Bool
  host : Bool
deriving DecidableEq, Repr

/-- An entry's reserved bits are 0 and its marks are allowed by the accepted features (R339). -/
def entryOk (feat : Word) (e : Nat) : Bool :=
  decide (bits e 52 12 = 0) && decide (bits e 6 6 = 0) && !((bit e 3 || bit e 4) && bit e 5) &&
    !(bit e 3 && !feat.getLsbD 6) && !(bit e 4 && !feat.getLsbD 7)

/-- The leaf that an entry makes, for a page of `size` bytes. -/
def leafOf (e size : Nat) : Leaf :=
  { base := bits e 12 40 * 4096 / size * size, size := size, w := bit e 2, pk := bit e 3, pr := bit e 4, host := bit e 5 }

/-- The walk from a table at a level, for what is left of the levels and the features accepted (R339). -/
def walkFrom (s : State) (feat : Word) (va : Nat) : Nat → Nat → Option Leaf
  | 0, _ => none
  | n + 1, table =>
    let lo := if n = 0 then 16 else 12 + 9 * n
    let idx := if n = 0 then bits va 16 5 else bits va lo 9
    let e := readLoc s (hbmLoc + table + 8 * idx) 8
    if !bit e 0 || !entryOk feat e then none
    else if bit e 1 then
      if n = 3 then none else some (leafOf e (2 ^ lo))
    else if n = 0 then none
    else walkFrom s feat va n (bits e 12 40 * 4096)

/-- A walk of the job's tables; a page of device memory lies below 768 GiB (R339, R357). -/
def walk (s : State) (va : Nat) : Option Leaf :=
  match jobEntry s (curJobId s) with
  | none => none
  | some j =>
    match walkFrom s s.core.feat[0] va 4 j.ptRoot with
    | none => none
    | some l => if l.host || decide (l.base + l.size ≤ hbmSize) then some l else none

/-- The cached translation of an address: the cluster's cache, then the region's (R17). -/
def tlbFind (s : State) (va : Nat) : Option TlbEntry :=
  (s.clu.tlb ++ s.mod.tlb).find? fun e => decide (e.page = va / 65536) && decide (e.job = curJobId s)

/-- Both translation caches with one more entry; each keeps its newest (R17). -/
def tlbFill (s : State) (e : TlbEntry) : State :=
  let put (n : Nat) (l : List TlbEntry) : List TlbEntry :=
    (e :: l.filter fun t => !(decide (t.page = e.page) && decide (t.job = e.job))).take n
  { s with clu := { s.clu with tlb := put 64 s.clu.tlb }, mod := { s.mod with tlb := put 2048 s.mod.tlb } }

/-- The leaf of an address: the caches first, then the walk (R17). -/
def translation (s : State) (va : Nat) : Option Leaf :=
  match tlbFind s va with
  | some e => some { base := e.base, size := 65536, w := e.w, pk := e.pk, pr := e.pr, host := e.host }
  | none => walk s va

/-- The location of an address in a leaf's page. -/
def leafLoc (l : Leaf) (va : Nat) : Nat := (if l.host then hostLoc else hbmLoc) + l.base + va % l.size

/-- The published buffer whose front holds an address (R204). -/
def pubAt (s : State) (va : Nat) : Option PubBuf :=
  s.mod.pubs.find? fun p => decide (p.job = curJobId s) && decide (p.front ≤ va) && decide (va < p.front + p.len)

/-- The location that loads of an address reach: the front of a published buffer, which a swap exchanges with the
shadow (R204, R205). -/
def frontLoc (s : State) (l : Leaf) (va : Nat) : Nat :=
  match pubAt s va with
  | some p => if p.swapped then hbmLoc + p.shadow + (va - p.front) else leafLoc l va
  | none => leafLoc l va

/-- The location that an engine's write of an address reaches: the shadow of a published buffer (R204). -/
def shadowLoc (s : State) (l : Leaf) (va : Nat) : Nat :=
  match pubAt s va with
  | some p => if p.swapped then leafLoc l va else hbmLoc + p.shadow + (va - p.front)
  | none => leafLoc l va

/-- A core's translation of one address (R17): no mapping is PAGE_FAULT; a write without W, any access to a packed
page (R290), and a store into a published buffer or its descriptor (R204) are PROT_FAULT. -/
def translateCore (s : State) (va : Nat) (write : Bool) : Chk Nat :=
  match translation s va with
  | none => .error { cls := .pageFault, addr := BitVec.ofNat 64 va }
  | some l =>
    let desc := s.mod.pubs.any fun p => decide (p.job = curJobId s) && decide (p.desc ≤ va) && decide (va < p.desc + 64)
    if (write && !l.w) || l.pk || (write && ((pubAt s va).isSome || desc)) then
      .error { cls := .protFault, addr := BitVec.ofNat 64 va }
    else .ok (frontLoc s l va)

/-! ### The checks of an access (R174) -/

/-- Steps 2 and 3 of R174: the bytes lie in one range that admits the access. -/
def checkRange (s : State) (a n : Nat) (write : Bool) : Chk Region :=
  let bad (cls : FaultClass) (x : Nat) : Chk Region := .error { cls := cls, addr := BitVec.ofNat 64 x }
  let r := regionOf a
  match r with
  | .spad => if a + n ≤ spadSize then .ok r else bad .spadRange spadSize
  | .gwin =>
    let l := (a - gwinLoc) / spadSize
    let o := (a - gwinLoc) % spadSize
    if domainSize s ≤ l then bad .spadRange a
    else if o + n ≤ spadSize then .ok r else bad .spadRange (a - o + spadSize)
  | .acc => if write then bad .protFault a else if a + n ≤ regionEnd r then .ok r else bad .protFault (regionEnd r)
  | .border => if write then bad .protFault a else if a + n ≤ regionEnd r then .ok r else bad .protFault (regionEnd r)
  | .harvest =>
    let o := (a - harvestLoc) % 0x2000
    if write then bad .protFault a
    else if o + n ≤ 6912 then .ok r
    else bad .protFault (if o < 6912 then a - o + 6912 else a)
  | .hbm => if a + n ≤ regionEnd r then .ok r else bad .protFault (regionEnd r)
  | .host => if a + n ≤ regionEnd r then .ok r else bad .protFault (regionEnd r)
  | .debug => bad .protFault a
  | .hole => bad .protFault a

/-- The location of an address outside translated memory: the core's own scratchpad is one location under both its
names (R206); a border lies in the record of its accumulator tile (R217). -/
def directLoc (s : State) (r : Region) (a : Nat) : Nat :=
  match r with
  | .gwin => if (a - gwinLoc) / spadSize = s.core.lid then (a - gwinLoc) % spadSize else a
  | .border => boltLoc (64 + (a - 0x21000) / 128) + (a - 0x21000) % 128
  | _ => a

/-- Step 4 of R174: runs of locations that hold the bytes, page by page. -/
def locate (s : State) (r : Region) (a n : Nat) (write : Bool) : Chk (List (Nat × Nat)) :=
  match r with
  | .hbm | .host =>
    let first := min n (65536 - a % 65536)
    (translateCore s a write).andThen fun l0 =>
      if first = n then .ok [(l0, n)]
      else (translateCore s (a + first) write).andThen fun l1 => .ok [(l0, first), (l1, n - first)]
  | .border => .ok ((List.range n).map fun i => (directLoc s r (a + i), 1))
  | _ => .ok [(directLoc s r a, n)]

/-- Whether locations carry block descriptors: scratchpads and device memory (R56). -/
def described (loc : Nat) : Bool := decide (loc < spadSize) || (decide (gwinLoc ≤ loc) && decide (loc < hostLoc))

/-- The check of one block that a reader touches (R58): a reserved code, poison, or broken parity. `mine` are the bytes
of the block that are read. -/
def checkBlock (s : State) (block : Nat) (addr : Nat) : Chk Unit :=
  let f := fmtOf s block
  if s.badParity.contains block then
    .error { cls := .uncorrectable, addr := BitVec.ofNat 64 addr, block := some block }
  else if f = 0xFF then .error { cls := .uncorrectable, addr := BitVec.ofNat 64 addr }
  else if !fmtAssigned f then .error { cls := .illegalOperand, addr := BitVec.ofNat 64 addr }
  else .ok ()

/-- The first byte of a run that lies in a poisoned granule (R307, R311). -/
def firstPoison (s : State) (loc n : Nat) : Option Nat :=
  ((s.poison.filter fun g => decide (8 * g < loc + n) && decide (loc < 8 * g + 8)).map fun g => max loc (8 * g)).min?

/-- A poisoned granule among the bytes read (R311). -/
def poisonedIn (s : State) (loc n : Nat) : Bool := (firstPoison s loc n).isSome

/-- Step 5 of R174 over one run of locations, lowest block first; `addr` is the address of its first byte. Locations without
descriptors may still be poisoned: a boltrope's parity may be broken (R311). -/
def checkRun (s : State) (loc addr : Nat) : Nat → Chk Unit
  | 0 => .ok ()
  | n + 1 =>
    let m := n + 1
    if !described loc then
      match firstPoison s loc m with
      | none => .ok ()
      | some p => .error { cls := .uncorrectable, addr := BitVec.ofNat 64 (addr + (p - loc)) }
    else
      (List.range ((loc + m - 1) / 64 - loc / 64 + 1)).foldl (fun r i => r.andThen fun _ =>
        let b := loc / 64 + i
        let lo := max loc (64 * b)
        let hi := min (loc + m) (64 * b + 64)
        (checkBlock s b (addr + (lo - loc))).andThen fun _ =>
          match firstPoison s lo (hi - lo) with
          | none => .ok ()
          | some p => .error { cls := .uncorrectable, addr := BitVec.ofNat 64 (addr + (p - loc)) }) (.ok ())

/-- Step 5 of R174 over all runs. -/
def checkRuns (s : State) : List (Nat × Nat) → Nat → Chk Unit
  | [], _ => .ok ()
  | (loc, n) :: r, addr => (checkRun s loc addr n).andThen fun _ => checkRuns s r (addr + n)

/-! ### Tiles in the way of a load (R222, R226) -/

/-- Bytes of a tile of a format (R216). -/
def tileBytes (fmt : Nat) : Nat :=
  match fmt with
  | 0x01 | 0x02 | 0x0C | 0x0D => 256
  | 0x03 | 0x04 | 0x0A | 0x0B => 512
  | 0x05 | 0x06 | 0x09 => 1024
  | _ => 128

/-- Whether a code is a tile format (R216). -/
def isTileFmt (f : Nat) : Bool := (decide (1 ≤ f) && decide (f ≤ 6)) || (decide (9 ≤ f) && decide (f ≤ 0x0E))

/-- Whether a tile slot keeps the limits of a tile table (R121, R242). -/
def slotGood (x : TileSlot) : Bool := decide (x.off % 64 = 0) && isTileFmt x.fmt && decide (x.off + tileBytes x.fmt ≤ spadSize)

/-- Whether a run of locations touches a bolt-poisoned tile: a slot, an accumulator, or its border (R222). -/
def touchesPoisonedTile (s : State) (loc n : Nat) : Bool :=
  (s.core.tiles.toList.any fun o => match o with
    | none => false
    | some t => t.poisoned && decide (loc < t.off + tileBytes t.fmt) && decide (t.off < loc + n)) ||
  (List.range 4).any fun i => (s.core.acc.toList.getD i { unverified := false, poisoned := false }).poisoned &&
    ((decide (loc < accLoc + 0x400 * i + 0x400) && decide (accLoc + 0x400 * i < loc + n)) ||
     (decide (loc < boltLoc (64 + i) + 128) && decide (boltLoc (64 + i) < loc + n)))

/-- The accumulator tile that a command of the tile engine names (R226, R230). -/
def cmdAcc (c : Cmd) : Option (Fin 4) :=
  match c with
  | .tld x => if x.s then none else some x.acc
  | .tst x => if x.s then none else some x.acc
  | .tmma x => some x.acc
  | .tzero x => if x.s then none else some x.acc
  | .tscale x => if x.s then none else some x.acc
  | .tvfy x => if x.s then none else some x.acc
  | _ => none

/-- This core as a capability names it in bits [47:20] (R243). -/
def capPlace (s : State) : Nat :=
  s.core.cix + (64 * s.core.row + s.core.col) * 2 ^ 3 + s.core.die * 2 ^ 16 + s.core.modId % 256 * 2 ^ 20

/-- The accumulator tile that a TREM record's CMD names (R244). -/
def tremAcc (word : Nat) : Option (Fin 4) :=
  match decodeTe word with
  | .ok (.tmma x) => some x.acc
  | .ok (.tst x) => some x.acc
  | .ok (.tzero x) => some x.acc
  | .ok (.tscale x) => some x.acc
  | .ok (.tvfy x) => some x.acc
  | _ => none

/-- Whether a job owns an accumulator tile (R226): the one that its command names, or that the CMD of a TREM to this core
names. -/
def accOwned (s : State) (t : Nat) : Bool :=
  s.clu.jobs.any fun j => match j.cmd with
    | .trem => decide (bits j.a.toNat 20 28 = capPlace s) &&
      (match tremAcc (if j.started then leNat (j.record.take 4) else readLoc s j.b.toNat 4) with
        | none => false
        | some a => decide (a.val = t))
    | c => match cmdAcc c with
      | none => false
      | some a => decide (a.val = t)

/-- The accumulator tile that a location of the accumulator or border windows belongs to. -/
def accOfLoc (loc : Nat) : Option Nat :=
  if accLoc ≤ loc ∧ loc < accLoc + 0x1000 then some ((loc - accLoc) / 0x400)
  else if boltLoc 64 ≤ loc ∧ loc < boltLoc 68 then some ((loc - boltLoc 64) / 256)
  else none

/-- Whether a byte belongs to an accumulator tile, or its border, that a job owns (R226). -/
def earlyByte (s : State) (loc : Nat) : Bool :=
  match accOfLoc loc with
  | none => false
  | some t => accOwned s t

/-- The locations of runs, byte by byte. -/
def runLocs (runs : List (Nat × Nat)) : List Nat := (runs.map fun r => (List.range r.2).map fun i => r.1 + i).flatten

/-- How far into runs the first byte of a bolt-poisoned tile lies (R222, R307). -/
def firstBolt (s : State) (runs : List (Nat × Nat)) : Nat :=
  (runLocs runs).findIdx fun l => touchesPoisonedTile s l 1

/-- The test for bolt-poisoned tiles of a load at `a` (R174, R222). It holds for a tile that a job owns too: that an early load
raises no fault (R226) is read of the tile's changing bytes alone (log 12). -/
def boltTest (s : State) (runs : List (Nat × Nat)) (a : Nat) : Chk Unit :=
  demand (!runs.any fun x => touchesPoisonedTile s x.1 x.2) .boltMismatch (BitVec.ofNat 64 (a + firstBolt s runs))

/-- The physical place of a logical core of the launch (R19, R27). -/
def placeOf (s : State) (lid : Nat) : Option (BitVec 32) :=
  match curLaunch s with
  | some l => l.domain[lid]?
  | none => none

/-- The logical core of a peer whose scratchpad an address names (R15). -/
def peerOf (s : State) (a : Nat) : Option Nat :=
  if regionOf a = .gwin ∧ (a - gwinLoc) / spadSize ≠ s.core.lid then some ((a - gwinLoc) / spadSize) else none

/-- The sealed peer whose scratchpad an address names (R311). -/
def sealedPeer (s : State) (a : Nat) : Option Nat := (peerOf s a).filter fun l => s.core.sealedPeers.contains l

/-- Step 6 of R174: a request to a sealed core is answered with an error reply, which names its CORE_PID (R307, R311). -/
def peerTest (s : State) (a : Nat) : Chk Unit :=
  match sealedPeer s a with
  | some l => .error { cls := .peerSealed, addr := ((placeOf s l).getD 0).zeroExtend 64 }
  | none => .ok ()

/-- All of R174 for a read of `n` bytes at `a`, after its operand tests. -/
def checkRead (s : State) (a n : Nat) : Chk (List (Nat × Nat)) :=
  (checkRange s a n false).andThen fun r =>
    (locate s r a n false).andThen fun runs =>
      (checkRuns s runs a).andThen fun _ =>
        (boltTest s runs a).andThen fun _ =>
          (peerTest s a).andThen fun _ => .ok runs

/-- All of R174 for a write of `n` bytes at `a`, after its operand tests. -/
def checkWrite (s : State) (a n : Nat) : Chk (List (Nat × Nat)) :=
  (checkRange s a n true).andThen fun r =>
    (locate s r a n true).andThen fun runs =>
      (peerTest s a).andThen fun _ => .ok runs

/-- All of R174 for a read-modify-write of `n` bytes at `a`: the tests of a write, and those of the blocks that it reads. -/
def checkAtomic (s : State) (a n : Nat) : Chk (List (Nat × Nat)) :=
  (checkRange s a n true).andThen fun r =>
    (locate s r a n true).andThen fun runs =>
      (checkRuns s runs a).andThen fun _ =>
        (boltTest s runs a).andThen fun _ =>
          (peerTest s a).andThen fun _ => .ok runs

end Sys2Proof.Machine
end

