-- ==== Sys2Proof/Machine/Order.lean ====
section
/-! DEFINITION. The order of memory (R206 to R215; log 8): what agents may still read of before a write, what reads, writes, releases,
acquires and fences do to it, and how a load reads. -/

namespace Sys2Proof.Machine

/-! ### Orders and scopes (R206, R207) -/

/-- Whether an order has an acquire part (R206). -/
def Order.acquires (o : Order) : Bool := decide (o = .acq) || decide (o = .ar)

/-- Whether an order has a release part (R206). -/
def Order.releases (o : Order) : Bool := decide (o = .rel) || decide (o = .ar)

/-- The acquire part of an order, as an access that only reads has it (R181, R206). -/
def Order.readPart (o : Order) : Order := if Order.acquires o then .acq else .rlx

/-- Whether a storage scope covers a location (R207). -/
def inStorage (z : Storage) (loc : Nat) : Bool :=
  match z with
  | .spad => decide (loc < hbmLoc)
  | .hbm => decide (hbmLoc ≤ loc) && decide (loc < hostLoc)
  | .host => decide (hostLoc ≤ loc)
  | .all => true

/-- The agent scopes from the narrowest on (R207). -/
def scopeRank (a : AgentScope) : Nat :=
  match a with
  | .ctx => 0
  | .core => 1
  | .clu => 2
  | .die => 3
  | .mod => 4
  | .pod => 5

/-- The order with which an access acts at its location: one whose location lies outside its storage scope is relaxed (R208), and one at
agent scope ctx orders no other context (R207). -/
def orderAt (m : AtMode) (loc : Nat) : Order := if m.agent ≠ .ctx ∧ inStorage m.storage loc = true then m.order else .rlx

/-- The order of LD and ST events: relaxed (R206). -/
def plainMode : AtMode := { size := .x, storage := .all, agent := .ctx, order := .rlx }

/-! ### What agents know of writes -/

/-- The agents of this core that read: live contexts and queued jobs. -/
def agents (s : State) : List Agent :=
  (slots.filter fun c => (s.ctx c).live).map Agent.ctx ++ s.clu.jobs.map fun j => Agent.job j.id

/-- The agents but one. -/
def otherAgents (s : State) (a : Agent) : List Agent := (agents s).filter fun b => !decide (b = a)

/-- Whether an agent has seen a write: all that it reads from now on of the byte is that write or a later one (R211). -/
def Unseen.knownTo (u : Unseen) (a : Agent) : Bool := !u.readers.contains a

/-- Whether a write happens before whatever of an agent is not relaxed, as a release in the storage scope given finds it (R208). -/
def Unseen.behind (u : Unseen) (a : Agent) (z : Storage) : Bool := u.firm.contains a || (u.knownTo a && inStorage z u.loc)

/-- The writes that everybody has seen dropped, and the releases that tell of no other write with them. -/
def Visibility.tidy (v : Visibility) : Visibility :=
  let us := v.unseen.filter fun u => !u.readers.isEmpty
  if us.isEmpty then .settled v.count
  else
    let kept (r : Release) : Bool := us.any fun u => u.carried.contains r.stamp
    { v with unseen := us, heads := v.heads.filter fun h => kept h.2, met := v.met.filter fun m => kept m.2.2,
             fences := v.fences.filter kept }

/-- Every write changed as given. -/
def Visibility.map (v : Visibility) (f : Unseen → Unseen) : Visibility := { v with unseen := v.unseen.map f }

/-- A list with an element that is there once. -/
def withOne {α : Type} [DecidableEq α] (l : List α) (a : α) : List α := if l.contains a then l else a :: l

/-- A list without an element. -/
def without {α : Type} [DecidableEq α] (l : List α) (a : α) : List α := l.filter fun b => !decide (b = a)

/-- A write happens before all that is not relaxed of an agent. -/
def Visibility.confirm (v : Visibility) (a : Agent) (p : Unseen → Bool) : Visibility :=
  v.map fun u => if p u then { u with firm := withOne u.firm a } else u

/-- An agent has seen the writes that `p` picks, and with each the earlier ones to its byte (R211); where `firm`, they happen before all
that it does. -/
def Visibility.learn (v : Visibility) (a : Agent) (firm : Bool) (p : Unseen → Bool) : Visibility :=
  let t := v.map fun u =>
    if v.unseen.any fun w => p w && decide (w.loc = u.loc) && decide (u.stamp ≤ w.stamp) then { u with readers := without u.readers a } else u
  if firm then t.confirm a p else t

/-- The writes that `p` picks happen before the release of a number. -/
def Visibility.carry (v : Visibility) (n : Nat) (p : Unseen → Bool) : Visibility :=
  v.map fun u => if p u then { u with carried := n :: u.carried } else u

/-- The releases in whose sequence the newest write of a location lies (R209). -/
def Visibility.headsAt (v : Visibility) (loc : Nat) : List Release :=
  (v.heads.filter fun h => decide (h.1 = loc)).map fun h => h.2

/-- An agent acquires: the writes that happen before the releases given happen before all that it does in the storage scope, and before
all that is not relaxed (R208, R209). -/
def Visibility.acquire (v : Visibility) (a : Agent) (z : Storage) (rs : List Release) : Visibility :=
  let got (u : Unseen) : Bool := rs.any fun r => u.carried.contains r.stamp
  (v.learn a true fun u => got u && inStorage z u.loc).confirm a got

/-- A read has met releases: an acquire among reads synchronises with those within its scopes, and a later fence may (R209). -/
def Visibility.meet (v : Visibility) (a : Agent) (m : AtMode) (o : Order) (met : List (Nat × Release)) : Visibility :=
  let t := if Order.acquires o then
      v.acquire a m.storage ((met.filter fun h => decide (scopeRank h.2.reach ≤ scopeRank m.agent)).map fun h => h.2)
    else v
  { t with met := met.foldl (fun l h => withOne l (a, h)) t.met }

/-! ### Reading (R179, R209, R211) -/

/-- Whether an agent may read past a write: it has not seen it, and an acquire not what happens before it (R208, R211). -/
def Unseen.missable (u : Unseen) (a : Agent) (acquire : Bool) : Bool := !u.knownTo a && !(acquire && u.firm.contains a)

/-- The writes, by number and unit, that one read passes over, of those to the bytes it reads: bytes of one write and unit are read all or
none (R179), and with a write every later one to its bytes is passed over. -/
def passedOver (a : Agent) (acquire : Bool) (want : Nat → Nat → Bool) (es : List Unseen) : List (Nat × Nat) :=
  es.foldr (fun e out =>
    let whole := es.filter fun u => decide (u.stamp = e.stamp) && decide (u.unit = e.unit)
    let free (u : Unseen) : Bool := u.missable a acquire &&
      es.all fun w => decide (w.loc ≠ u.loc) || decide (w.stamp ≤ u.stamp) || out.contains (w.stamp, w.unit)
    if !out.contains (e.stamp, e.unit) && want e.stamp e.unit && whole.all free then (e.stamp, e.unit) :: out else out) []

/-- The oldest of the writes passed over at a location: what it found there is read (R211). -/
def passedAt (v : Visibility) (loc : Nat) (out : List (Nat × Nat)) : Option Unseen :=
  v.unseen.find? fun u => decide (u.loc = loc) && out.contains (u.stamp, u.unit)

/-- Whether an agent's read of locations neither finds nor leaves anything of the order: it has seen every write to them, with what an
acquire adds to that, and none is released. -/
def quietAt (v : Visibility) (a : Agent) (acquire : Bool) (locs : List Nat) : Bool :=
  v.unseen.all (fun u => !locs.contains u.loc || (u.knownTo a && (!acquire || u.firm.contains a))) &&
    v.heads.all fun h => !locs.contains h.1

/-- An agent's read of locations, in parts of `grain` bytes that are single-copy atomic (R179), with the order that it leaves. What it
passes over is free (R211; log 8). -/
def readAs (s : State) (a : Agent) (m : AtMode) (grain : Nat) (locs : List Nat) : List Byte × State :=
  let o := orderAt m (locs.headD 0)
  let acq := Order.acquires o
  let part (l : Nat) : List Unseen := s.vis.unseen.filter fun u => decide (u.loc / grain = l / grain) && locs.contains u.loc
  let out (l : Nat) : List (Nat × Nat) := passedOver a acq (Config.seesOld s.choice) (part l)
  let old (l : Nat) : Option Unseen := passedAt s.vis l (out l)
  let met := (locs.map fun l => (match old l with
    | some u => u.heads
    | none => s.vis.headsAt l).map fun r => (l, r)).flatten
  let v := s.vis.learn a acq fun u => locs.contains u.loc && !(out u.loc).contains (u.stamp, u.unit)
  (locs.map fun l => match old l with
    | some u => u.old
    | none => Memory.get s.mem l,
   { s with vis := (v.meet a m o met).tidy })

/-- An agent's read of the newest value, as a read-modify-write and a full/empty request read (R209; log 8), with the order that it
leaves. -/
def readNewest (s : State) (a : Agent) (m : AtMode) (loc n : Nat) : State :=
  let o := orderAt m loc
  let locs := (List.range n).map fun i => loc + i
  let v := s.vis.learn a (Order.acquires o) fun u => locs.contains u.loc
  { s with vis := (v.meet a m o (locs.map fun l => (s.vis.headsAt l).map fun r => (l, r)).flatten).tidy }

/-! ### Writing -/

/-- A write as the order sees it: its agent, the narrowest scope within which an acquire of this core has that agent, its order and
storage scope, whether it is a read-modify-write, which writes happen before it as a release, who may read on what it finds, and its
unit for a location. -/
structure Write where
  agent   : Agent
  reach   : AgentScope
  order   : Order
  storage : Storage
  rmw     : Bool
  knows   : Unseen → Bool
  readers : List Agent
  unit    : Nat → Nat

/-- What a write of locations leaves of the order: its agent has seen its own write; others may read on what it finds; the release
sequences that it goes on, and its own release or those of the fences before it (R208, R209, R211). -/
def noteAs (s : State) (w : Write) (locs : List Nat) : State :=
  let v := s.vis.learn w.agent false fun u => locs.contains u.loc
  if w.readers.isEmpty || locs.isEmpty then { s with vis := v.tidy } else
    let n := v.count + 1
    let rel := Order.releases w.order
    let v := if rel then v.carry n w.knows else v
    let entry (l : Nat) : Unseen :=
      { stamp := n, unit := w.unit l, loc := l, old := Memory.get s.mem l, heads := v.headsAt l, owner := w.agent, readers := w.readers,
        firm := if w.order = .rlx then [] else [w.agent], ended := [], carried := if rel then [n] else [] }
    let kept := v.heads.filter fun h => !locs.contains h.1 || w.rmw || decide (h.2.owner = w.agent)
    let own (l : Nat) : List Release :=
      (v.fences.filter fun r => decide (r.owner = w.agent) && inStorage r.storage l) ++
        if rel then [{ stamp := n, owner := w.agent, reach := w.reach, storage := w.storage }] else []
    { s with vis := Visibility.tidy { v with
        unseen := v.unseen ++ locs.map entry
        heads := (locs.map fun l => (own l).map fun r => (l, r)).flatten.foldl withOne kept
        count := n } }

/-- A write by a context that waits for its acknowledgement where it leaves the core (R212); its parts of 8 bytes are single-copy atomic
(R179). -/
def noteStore (s : State) (c : Fin 8) (m : AtMode) (rmw : Bool) (locs : List Nat) : State :=
  let o := orderAt m (locs.headD 0)
  let t := noteAs s { agent := .ctx c, reach := .core, order := o, storage := m.storage, rmw := rmw,
                      knows := fun u => u.behind (.ctx c) m.storage, readers := otherAgents s (.ctx c), unit := fun l => l / 8 } locs
  { t with unacked := s.unacked || locs.any fun l => decide (gwinLoc ≤ l) }

/-- A store by the current context (R206). -/
def noteWrite (s : State) (locs : List Nat) : State := noteStore s s.cur plainMode false locs

/-! ### Fences (R189, R209, R214) -/

/-- The acquire part of a fence: it synchronises with what the context's earlier reads have met in its scopes, and what they have read
happens before all that follows (R189, R209). -/
def fenceAcquire (v : Visibility) (a : Agent) (z : Storage) (g : AgentScope) : Visibility :=
  let met := v.met.filter fun m => decide (m.1 = a) && inStorage z m.2.1 && decide (scopeRank m.2.2.reach ≤ scopeRank g)
  (v.acquire a z (met.map fun m => m.2.2)).confirm a fun u => u.knownTo a && !decide (u.owner = a) && inStorage z u.loc

/-- The release part of a fence: what the context has seen and written in its storage scope happens before the stores that follow, which
are read as releases (R189, R209). -/
def fenceRelease (v : Visibility) (a : Agent) (z : Storage) : Visibility :=
  if v.unseen.isEmpty then v else
    let n := v.count + 1
    let t := (v.carry n fun u => u.behind a z).confirm a fun u => u.knownTo a && inStorage z u.loc
    { t with fences := t.fences ++ [{ stamp := n, owner := a, reach := .core, storage := z }], count := n }

/-- The visibility wait: what happens before the fence in its storage scope, or has been read before it, is seen by all (R214). -/
def fenceVisible (v : Visibility) (a : Agent) (z : Storage) : Visibility :=
  { v with unseen := v.unseen.filter fun u => !v.unseen.any fun w =>
      (w.knownTo a || w.firm.contains a) && inStorage z w.loc && decide (w.loc = u.loc) && decide (u.stamp ≤ w.stamp) }

/-- What a fence of a context does to the order (R189, R208, R209, R214); at agent scope ctx it orders no other context. -/
def fenced (s : State) (kind : FenceKind) (z : Storage) (g : AgentScope) : State :=
  let a := Agent.ctx s.cur
  if g = .ctx then s else
    { s with vis := Visibility.tidy (match kind with
      | .acq => fenceAcquire s.vis a z g
      | .rel => fenceRelease s.vis a z
      | .ar => fenceRelease (fenceAcquire s.vis a z g) a z
      | .sc => fenceVisible (fenceRelease (fenceAcquire s.vis a z g) a z) a z) }

/-! ### Contexts, jobs and other cores (R210) -/

/-- One agent starts with all that happens before what another does next: a helper (R210), or an engine's job. -/
def inherit (s : State) (parent child : Agent) : State :=
  { s with vis := Visibility.tidy (s.vis.map fun u =>
      if u.knownTo parent || u.firm.contains parent then { u with readers := without u.readers child, firm := withOne u.firm child }
      else { u with readers := withOne u.readers child, firm := without u.firm child }) }

/-- An agent that comes from elsewhere knows of no write that anyone may not have seen. -/
def unaware (s : State) (a : Agent) : State := { s with vis := s.vis.map fun u => { u with readers := withOne u.readers a } }

/-- A helper's start (R210): it knows what its parent knows, whatever its slot knew before. -/
def helperStarts (s : State) (c d : Fin 8) : State :=
  inherit { s with vis := s.vis.map fun u => { u with ended := without u.ended d } } (.ctx c) (.ctx d)

/-- An agent is gone. -/
def agentEnds (v : Visibility) (a : Agent) : Visibility :=
  { v.map (fun u => { u with readers := without u.readers a, firm := without u.firm a }) with
    met := v.met.filter fun m => !decide (m.1 = a), fences := v.fences.filter fun r => !decide (r.owner = a) }

/-- A helper's end: what happens before it is there for the HJOIN that joins it (R210). -/
def helperEnds (s : State) (d : Fin 8) : State :=
  let a := Agent.ctx d
  { s with vis := Visibility.tidy (agentEnds (s.vis.map fun u =>
      if u.knownTo a || u.firm.contains a then { u with ended := withOne u.ended d } else u) a) }

/-- A helper joined: its events happen before what follows (R210). -/
def helperJoined (s : State) (c d : Fin 8) : State :=
  { s with vis := (s.vis.learn (.ctx c) true fun u => u.ended.contains d).tidy }

/-- The bytes of a handle's slots that engines wrote are seen by a context whose load passes its fill test (R203). -/
def slotsSeen (s : State) (a : Agent) (loc n : Nat) : State :=
  let pushed (u : Unseen) : Bool := decide (loc ≤ u.loc) && decide (u.loc < loc + n) && (match u.owner with
    | .job _ => true
    | _ => false)
  { s with vis := (s.vis.learn a false pushed).tidy }

/-- A group's start: every event of the group before on the core happens before it (R210); what other cores wrote may be unseen still. -/
def groupStarts (s : State) : State :=
  let a := Agent.ctx 0
  let theirs (u : Unseen) : Bool := !u.knownTo a && !u.firm.contains a && u.ended.isEmpty && (match u.owner with
    | .outside _ _ => true
    | _ => false)
  { s with vis := Visibility.tidy { s.vis with
      unseen := (s.vis.unseen.filter theirs).map fun u => { u with readers := [a], firm := [], ended := [] }
      met := [], fences := [] } }

/-- Whether a write happens before what a clock tells of (R212): a write of another die by its number, and one of this core by a release
that the clock's thirteenth component covers. -/
def clockTells (clock : List Nat) (u : Unseen) : Bool :=
  match u.owner with
  | .outside k n => decide (k < 12) && decide (n ≤ clock.getD k 0)
  | _ => u.carried.any fun r => decide (r ≤ clock.getD 12 0)

/-- An agent goes on after what a clock tells of, in a storage scope (R210, R212). -/
def clockJoined (s : State) (a : Agent) (clock : List Nat) (z : Storage) : State :=
  { s with vis := (s.vis.learn a true fun u => clockTells clock u && inStorage z u.loc).tidy }

/-- Whether a write happens before a release of another die, as its clock tells (R212); an agent outside the twelve dies, which has no
component, releases its own writes in their order (R341). -/
def outsideKnows (die : Nat) (clock : List Nat) (u : Unseen) : Bool :=
  clockTells clock u || (match u.owner with
    | .outside k _ => decide (12 ≤ die) && decide (k = die)
    | _ => false)

/-- A write by an agent outside the core: the die, its clock, and its scopes where it is a release, of which the first is the narrowest
that has that agent and this core (R209, R212). -/
def noteOutside (s : State) (die : Nat) (clock : List Nat) (release : Option (AgentScope × Storage)) (rmw : Bool) (locs : List Nat) :
    State :=
  let r := release.getD (.ctx, .all)
  let o := orderAt { plainMode with order := if release.isSome then .rel else .rlx, agent := r.1, storage := r.2 } (locs.headD 0)
  noteAs s { agent := .outside die (clock.getD die 0), reach := r.1, order := o, storage := r.2, rmw := rmw,
             knows := outsideKnows die clock, readers := agents s, unit := fun l => l / 8 } locs

/-- A write by the launch unit, an agent of the module as a whole (R207): as a release it tells of its own earlier writes and of those of
other cores that have been applied here, whose launch it may complete (R332, R348; log 8). -/
def noteUnit (s : State) (release : Bool) (locs : List Nat) : State :=
  let t := noteAs s { agent := .outside 13 0, reach := .mod, order := if release then .rel else .rlx, storage := .all, rmw := false,
                      knows := fun u => (match u.owner with
                        | .outside _ _ => true
                        | _ => false)
                      readers := agents s, unit := fun l => l / 8 } locs
  { t with unacked := s.unacked || locs.any fun l => decide (gwinLoc ≤ l) }

/-! ### What leaves nothing older to be read -/

/-- Every write is seen: what an event that orders everything leaves (R210, R319). -/
def settle (s : State) : State := { s with vis := .settled s.vis.count }

/-- The writes to some locations are seen by all. -/
def seenAt (s : State) (p : Nat → Bool) : State :=
  { s with vis := Visibility.tidy { s.vis with unseen := s.vis.unseen.filter fun u => !p u.loc } }

/-- One write is visible to all, the oldest, in one unit (R179, R211). -/
def oldestSeen (s : State) : State :=
  let s := s.tickChoice
  match s.vis.unseen with
  | [] => s
  | e :: _ => { s with vis := Visibility.tidy { s.vis with
      unseen := s.vis.unseen.filter fun u => !(decide (u.stamp = e.stamp) && decide (u.unit = e.unit)) } }

/-- What a slot may still read at a location besides the newest value: the oldest of it (R211). -/
def oldFor (s : State) (c : Fin 8) (loc : Nat) : Option Byte :=
  (s.vis.unseen.find? fun u => decide (u.loc = loc) && !u.knownTo (.ctx c)).map fun u => u.old

/-! ### Loads -/

/-- Whether a load shows memory as it stands: none of its bytes belongs to an owned accumulator tile (R226), and nothing of the order
bears on it (R211). -/
def loadSettled (s : State) (m : AtMode) (runs : List (Nat × Nat)) : Bool :=
  (runLocs runs).all (fun l => !earlyByte s l) &&
    quietAt s.vis (.ctx s.cur) (Order.acquires (orderAt m ((runLocs runs).headD 0))) (runLocs runs)

/-- The bytes of runs as the current context loads them, with an order, in atomic parts of `grain` bytes (R179). The bytes of an owned
accumulator tile are free values (R226; log 12). -/
def loadAs (s : State) (m : AtMode) (grain : Nat) (runs : List (Nat × Nat)) : List Byte × State :=
  if loadSettled s m runs then ((runs.map fun r => readBytes s r.1 r.2).flatten, s)
  else
    let t := readAs s (.ctx s.cur) m grain (runLocs runs)
    (((runLocs runs).zip t.1).mapIdx fun i p => if earlyByte s p.1 then Config.earlyRead s.choice i else p.2, t.2.tickChoice)

/-- An ordinary load (R174, R179). -/
def loadRuns (s : State) (runs : List (Nat × Nat)) : List Byte × State := loadAs s plainMode 8 runs

end Sys2Proof.Machine
end

