-- ==== Sys2Proof/Machine/Operands.lean ====
section
/-! DEFINITION. Operand forms: immediates and WIDE (R94, R101, R132), memory and handle addresses (R40, R171), element
types (R87, R95, R97), elements of vector registers, and masks with their agnostic elements (R86, R147). -/

namespace Sys2Proof.Machine

/-! ### Immediates -/

/-- The 24 bits of imm24, or the 14 of imm14 (R94). -/
def simmBits (s : State) (imm : BitVec 14) : Nat :=
  match widePayload s with
  | some p => p.toNat * 2 ^ 14 + imm.toNat
  | none => imm.toNat

/-- How many bits a SIMM immediate has: 14, or 24 after WIDE (R94, R101). -/
def simmWidth (s : State) : Nat :=
  match widePayload s with
  | some _ => 24
  | none => 14

/-- A SIMM instruction's signed immediate (R94, R130). -/
def simmImm (s : State) (imm : BitVec 14) : Int := sInt (simmWidth s) (simmBits s imm)

/-- The address of the instruction that executes, not counting its forms before it (R81). -/
def insnAddr (s : State) : Word := (s.ctx s.cur).pc

/-- An address plus a signed number of halfwords (R91, R98, R136). -/
def branchTarget (pc : Word) (disp : Int) : Word := pc + BitVec.ofInt 64 (2 * disp)

/-- The address of a mode 0 memory operand (R171). -/
def memAddr (base : Word) (disp : Int) (size : Nat) : Nat := (base + BitVec.ofInt 64 (disp * size)).toNat

/-! ### Handles (R39, R40) -/

/-- A handle of the current context. -/
def getHandle (s : State) (c : Fin 8) (h : Fin 8) : Option Handle := (s.ctx c).h[h.val]'h.isLt

/-- A handle replaced. -/
def setHandle (s : State) (c : Fin 8) (h : Fin 8) (x : Option Handle) : State :=
  let y := s.ctx c
  s.setCtx c { y with h := y.h.set h.val x h.isLt }

/-- The limits of R39 on a handle's shape. -/
def handleShapeOk (base size count : Nat) : Bool :=
  decide (base % 32 = 0) && decide (size % 32 = 0) && decide (32 ≤ size) && decide (size ≤ 8192) &&
    decide (1 ≤ count) && decide (count ≤ 256) && decide (base + size * count ≤ spadSize)

/-- The operand tests of a handle-mode access of `n` bytes at slot offset `o` with need `need` (R40, R177): MISALIGNED
for a slot crossing, then ILLEGAL_OPERAND. -/
def handleTests (s : State) (h : Fin 8) (o need n : Nat) : Chk Handle :=
  match getHandle s s.cur h with
  | none => .error { cls := .illegalOperand }
  | some x =>
    (demand (decide (o % x.size + n ≤ x.size)) .misaligned).andThen fun _ =>
      (demand (decide (need ≤ x.count) && decide (o + n ≤ need * x.size)) .illegalOperand).andThen fun _ => .ok x

/-- The address of slot offset `o` counted from a slot position (R40). -/
def handleAddr (x : Handle) (start o : Nat) : Nat := x.base + (start + o / x.size) % x.count * x.size + o % x.size

/-! ### Element types -/

/-- A lane's type. -/
inductive LaneTy where
  | int (w : Nat) (signed : Bool)
  | flt (f : FFmt)
deriving DecidableEq, Repr

/-- The width of a lane. -/
def LaneTy.width (t : LaneTy) : Nat :=
  match t with
  | .int w _ => w
  | .flt f => f.width

/-- The short types of SV (R87). -/
def shortTy (t : Fin 8) : LaneTy :=
  match t.val with
  | 0 => .int 8 true
  | 1 => .int 16 true
  | 2 => .int 32 true
  | 3 => .int 32 false
  | 4 => .flt .f32
  | 5 => .flt .bf16
  | 6 => .flt .f16
  | _ => .flt .e4m3

/-- The dual table of VA (R95). -/
def dualTy (t : Fin 8) : LaneTy :=
  match t.val with
  | 0 => .int 8 true
  | 1 => .int 16 true
  | 2 => .int 32 true
  | 3 => .int 64 true
  | 4 => .flt .f32
  | 5 => .flt .bf16
  | 6 => .flt .f16
  | _ => .flt .f64

/-- The element width of the integer table of VA and of VMOV: codes 0 to 3 (R95, R97). -/
def widthOf (t : Fin 8) : Nat := 8 * 2 ^ (t.val % 4)

/-- The integer table of VX (R97). -/
def intTy (t : Fin 8) : LaneTy := .int (widthOf t) (decide (t.val < 4))

/-- The floating table of VA and VX (R95, R97). -/
def fltTy (t : Fin 8) : FFmt :=
  match t.val with
  | 0 => .f64
  | 1 => .f32
  | 2 => .bf16
  | 3 => .f16
  | 4 => .e4m3
  | 5 => .e5m2
  | _ => .e2m1

/-- A sel instruction's type: tb 0 reads ta by the integer table, tb 1 by the floating table (R159). -/
def selTy (tb ta : Fin 8) : LaneTy := if tb.val = 0 then intTy ta else .flt (fltTy ta)

/-! ### Elements (R83, R147) -/

/-- Element `e` of width `w`. -/
def elem (w : Nat) (v : Vec) (e : Nat) : Nat := bits v.toNat (w * e) w

/-- Elements packed from element 0 up. -/
def packNat (w : Nat) : List Nat → Nat
  | [] => 0
  | x :: r => x % 2 ^ w + 2 ^ w * packNat w r

/-- A register from its elements; elements not given are 0. -/
def pack (w : Nat) (l : List Nat) : Vec := BitVec.ofNat 256 (packNat w l)

/-- The elements 0 to n - 1. -/
def elems (w n : Nat) (v : Vec) : List Nat := (List.range n).map (elem w v)

/-- The mask bit that governs element `e`: with 64 elements of e2m1, one bit governs two (R86). -/
def active (s : State) (m : Fin 8) (n e : Nat) : Bool := maskBit s s.cur m (if n = 64 then e / 2 else e)

/-- One element merged with the old destination under the mask (R86): masked off, it keeps `old`, or under agn it may
become 0 instead (log 10); under TRIPLE agn acts as undisturbed (R143). -/
def mergeElem (s : State) (agn : Bool) (act : Bool) (e old res : Nat) : Nat :=
  if act then res
  else if agn && !tripled s && Config.agnZero s.choice e then 0
  else old

/-- A vector result of `n` elements merged under the mask, written and pushed (R85, R86). A conversion's remaining bits
are 0 (R160). -/
def writeLanes (s : State) (vd : VCode) (mask : Fin 8) (agn : Bool) (w n : Nat) (res : List Nat) (len : Nat) : Out :=
  let old := getV s s.cur vd
  let val := pack w ((List.range n).map fun e =>
    mergeElem s agn (active s mask n e) e (elem w old e) (res.getD e 0))
  commitV (if agn then s.tickChoice else s) vd val len

/-- The registers that a masked vector write reads besides its sources. -/
def mergeReads (vd : VCode) (mask : Fin 8) : List VCode := if mask = 0 then [] else [vd]

/-- The frame of a vector instruction with sources: destination codes 1 to 3 are refused (R84), sources are read (`gs` of the g
registers), and the lanes computed. -/
def lanesFrom (s : State) (gs : List GReg) (reads : List VCode) (vd : VCode) (mask : Fin 8) (agn : Bool) (w n : Nat) (res : Nat → Nat)
    (len : Nat) : Out :=
  if !goodDest vd then faultCls s .illegalOperand else
    withData s gs (withVecs s (reads ++ maskCode mask ++ mergeReads vd mask)
      (writeLanes s vd mask agn w n ((List.range n).map res) len))

/-- The frame of a vector instruction whose sources are vector registers. -/
def lanes (s : State) (reads : List VCode) (vd : VCode) (mask : Fin 8) (agn : Bool) (w n : Nat) (res : Nat → Nat)
    (len : Nat) : Out :=
  if !goodDest vd then faultCls s .illegalOperand else
    withVecs s (reads ++ maskCode mask ++ mergeReads vd mask)
      (writeLanes s vd mask agn w n ((List.range n).map res) len)

/-! ### Stochastic draws (R52) -/

/-- A draw for element `e`: its generator advances, and R is the top half of the new state (R52). -/
def drawR (s : State) (c : Fin 8) (e : Nat) : Nat × State :=
  let j : Fin 8 := Fin.ofNat 8 e
  let x := s.ctx c
  let n := xsNext (x.st[j.val]'j.isLt)
  ((n >>> 16).toNat, s.setCtx c { x with st := x.st.set j.val n j.isLt })

/-- Elements rounded in increasing order; in stochastic mode every active one draws once (R52). -/
def roundElems (mode : Rnd) (act : Nat → Bool) (f : Nat → Nat → Nat) : List Nat → State → List Nat × State
  | [], s => ([], s)
  | e :: r, s =>
    if mode = .sr && act e then
      let d := drawR s s.cur e
      let t := roundElems mode act f r d.2
      (f e d.1 :: t.1, t.2)
    else
      let t := roundElems mode act f r s
      (f e 0 :: t.1, t.2)

/-- The second register of a g pair; N = 15 is refused at decoding (R159). -/
def pairReg (r : GReg) : GReg := Fin.ofNat 16 (r.val + 1)

end Sys2Proof.Machine
end

