-- ==== Sys2Proof/Machine/Flags.lean ====
section
/-! DEFINITION. Conditions. The device keeps no flags: scalar compares write 0 or 1 (R127), conditional branches test
registers (R136), and vector compares write a mask word (R155). -/

namespace Sys2Proof.Machine

/-- A condition as a register value (R127). -/
def boolWord (b : Bool) : Word := if b then 1 else 0

/-- Signed less-than (R123). -/
def ltS (a b : Word) : Bool := a.slt b

/-- Unsigned less-than (R123). -/
def ltN (a b : Word) : Bool := a.ult b

/-- The relations that vector compares test. -/
inductive Cmp where
  | eq | lt | le
deriving DecidableEq, Repr

/-- A relation on two elements: integers by sign or bit pattern, floats with every NaN false (R155). -/
def laneCmp (r : Cmp) (t : LaneTy) (a b : Nat) : Bool :=
  match t with
  | .int w sg =>
    let x : Int := if sg then sInt w a else a
    let y : Int := if sg then sInt w b else b
    match r with
    | .eq => decide (a = b)
    | .lt => decide (x < y)
    | .le => decide (x ≤ y)
  | .flt f =>
    let x := fval f a
    let y := fval f b
    match r with
    | .eq => feq x y
    | .lt => flt x y
    | .le => fle x y

/-- A mask word from its bits (R155). -/
def maskWord (n : Nat) (f : Nat → Bool) : Nat := packNat 1 ((List.range n).map fun e => if f e then 1 else 0)

/-- A compare: bit `e` of the result holds the relation, masked-off bits are merged with bit `e` of `old`, and all bits
from n up are 0 (R155). -/
def compareLanes (s : State) (vd va vb : VCode) (mask : Fin 8) (agn : Bool) (t : LaneTy) (r : Cmp) (len : Nat) : Out :=
  let w := t.width
  let n := 256 / w
  let a := getV s s.cur va
  let b := getV s s.cur vb
  let old := getV s s.cur vd
  if !goodDest vd then faultCls s .illegalOperand else
    withVecs s ([va, vb] ++ maskCode mask ++ mergeReads vd mask)
      (commitV (if agn then s.tickChoice else s) vd
        (pack 1 ((List.range n).map fun e =>
          mergeElem s agn (active s mask n e) e (elem 1 old e) (if laneCmp r t (elem w a e) (elem w b e) then 1 else 0)))
        len)

end Sys2Proof.Machine
end

