-- ==== Sys2Proof/Machine/Scalar.lean ====
section
/-! DEFINITION. Scalar instructions: SALU, SIMM and the short SS arithmetic (R126 to R135). -/

namespace Sys2Proof.Machine

/-- A two-source operation: sources are read, the result is voted on and written (R126, R143). -/
def alu2 (s : State) (x : SaluArgs) (f : Word → Word → Word) : Out :=
  withRegs s [x.ga, x.gb] [x.gd] (commitG s x.gd (f (getG s s.cur x.ga) (getG s s.cur x.gb)) 4)

/-- A one-source operation (R126). -/
def alu1 (s : State) (x : Salu1Args) (f : Word → Word) : Out :=
  withRegs s [x.ga] [x.gd] (commitG s x.gd (f (getG s s.cur x.ga)) 4)

/-- An operation that also reads its destination's old value (R126). -/
def alu3 (s : State) (x : SaluArgs) (f : Word → Word → Word → Word) : Out :=
  withRegs s [x.ga, x.gb, x.gd] []
    (commitG s x.gd (f (getG s s.cur x.gd) (getG s s.cur x.ga) (getG s s.cur x.gb)) 4)

/-- An immediate operation (R130). -/
def aluI (s : State) (x : SimmArgs) (f : Word → Int → Word) : Out :=
  withRegs s [x.ga] [x.gd] (commitG s x.gd (f (getG s s.cur x.ga) (simmImm s x.imm)) 4)

/-- A shift by an immediate; a nonzero payload of WIDE is ILLEGAL_INSN (R132). -/
def shiftI (s : State) (x : ShiftArgs) (f : Word → Nat → Word) : Out :=
  if (widePayload s).any fun p => decide (p ≠ 0) then faultCls s .illegalInsn else
    withRegs s [x.ga] [x.gd] (commitG s x.gd (f (getG s s.cur x.ga) x.k.val) 4)

/-- A short two-address operation (R90). -/
def aluS (s : State) (x : SsArgs) (f : Word → Word → Word) : Out :=
  withRegs s [x.gd, x.gs] [] (commitG s x.gd (f (getG s s.cur x.gd) (getG s s.cur x.gs)) 2)

/-- A short operation on gd and a 4-bit immediate (R90). -/
def aluSI (s : State) (x : SsImmArgs) (f : Word → BitVec 4 → Word) : Out :=
  withRegs s [x.gd] [] (commitG s x.gd (f (getG s s.cur x.gd) x.imm) 2)

/-- wrap of R123. -/
def wrapW (x : Int) : Word := BitVec.ofInt 64 x

/-! ### The functions of R127 to R129 -/

/-- The shift amount of a register operand (R127). -/
def amount (b : Word) : Nat := b.toNat % 64

/-- High half of the signed product (R127). -/
def mulhW (a b : Word) : Word := wrapW (a.toInt * b.toInt / 2 ^ 64)

/-- High half of the unsigned product (R127). -/
def mulhnW (a b : Word) : Word := BitVec.ofNat 64 (a.toNat * b.toNat / 2 ^ 64)

/-- The quotient of DIV (R128). -/
def divW (a b : Word) : Word :=
  if b = 0 then BitVec.allOnes 64
  else if a.toInt = -(2 ^ 63) ∧ b.toInt = -1 then a
  else wrapW (a.toInt.tdiv b.toInt)

/-- The remainder of REM (R128). -/
def remW (a b : Word) : Word :=
  if b = 0 then a
  else if a.toInt = -(2 ^ 63) ∧ b.toInt = -1 then 0
  else wrapW (a.toInt - b.toInt * a.toInt.tdiv b.toInt)

/-- The quotient of DIVN (R128). -/
def divnW (a b : Word) : Word := if b = 0 then BitVec.allOnes 64 else BitVec.ofNat 64 (a.toNat / b.toNat)

/-- The remainder of REMN (R128). -/
def remnW (a b : Word) : Word := if b = 0 then a else BitVec.ofNat 64 (a.toNat % b.toNat)

/-- Zero bits above the highest set bit (R127). -/
def clzW (a : Word) : Word := if a = 0 then 64 else BitVec.ofNat 64 (63 - Nat.log2 a.toNat)

/-- Zero bits below the lowest set bit, looked for from bit `i` in `n` more bits. -/
def ctzFrom (a : Nat) : Nat → Nat → Nat
  | 0, i => i
  | n + 1, i => if bit a i then i else ctzFrom a n (i + 1)

/-- Zero bits below the lowest set bit (R127). -/
def ctzW (a : Word) : Word := BitVec.ofNat 64 (ctzFrom a.toNat 64 0)

/-- Set bits among the low `n` bits. -/
def popcount (a n : Nat) : Nat := ((List.range n).filter (bit a)).length

/-- Bits [k:0] with bit k copied upward (R127). -/
def extsW (a b : Word) : Word :=
  let k := amount b + 1
  wrapW (sInt k (a.toNat % 2 ^ k))

/-- Bits [k:0] with zeros above (R127). -/
def extzW (a b : Word) : Word := BitVec.ofNat 64 (a.toNat % 2 ^ (amount b + 1))

/-- A field's length operand (R129). -/
def fieldLen (b : Word) : Nat := b.toNat / 256 % 128

/-- BFX's result (R129). -/
def bfxW (a b : Word) : Word := BitVec.ofNat 64 (a.toNat / 2 ^ amount b % 2 ^ fieldLen b)

/-- BFI's result (R129). -/
def bfiW (old a b : Word) : Word :=
  let m : Word := BitVec.ofNat 64 ((2 ^ fieldLen b - 1) * 2 ^ amount b)
  (old &&& ~~~m) ||| ((a <<< amount b) &&& m)

/-- sat64 of a sum (R127). -/
def addsW (a b : Word) : Word := BitVec.ofNat 64 (satS 64 (a.toInt + b.toInt))

/-! ### SALU (R127 to R129) -/

def execAdd (x : SaluArgs) (s : State) : Out := alu2 s x (· + ·)
def execSub (x : SaluArgs) (s : State) : Out := alu2 s x (· - ·)
def execMul (x : SaluArgs) (s : State) : Out := alu2 s x (· * ·)
def execMulh (x : SaluArgs) (s : State) : Out := alu2 s x mulhW
def execMulhn (x : SaluArgs) (s : State) : Out := alu2 s x mulhnW
def execDiv (x : SaluArgs) (s : State) : Out := alu2 s x divW
def execDivn (x : SaluArgs) (s : State) : Out := alu2 s x divnW
def execRem (x : SaluArgs) (s : State) : Out := alu2 s x remW
def execRemn (x : SaluArgs) (s : State) : Out := alu2 s x remnW
def execAnd (x : SaluArgs) (s : State) : Out := alu2 s x (· &&& ·)
def execOr (x : SaluArgs) (s : State) : Out := alu2 s x (· ||| ·)
def execXor (x : SaluArgs) (s : State) : Out := alu2 s x (· ^^^ ·)
def execAndn (x : SaluArgs) (s : State) : Out := alu2 s x fun a b => a &&& ~~~b
def execShl (x : SaluArgs) (s : State) : Out := alu2 s x fun a b => a <<< amount b
def execShr (x : SaluArgs) (s : State) : Out := alu2 s x fun a b => a.sshiftRight (amount b)
def execShrl (x : SaluArgs) (s : State) : Out := alu2 s x fun a b => a >>> amount b
def execRol (x : SaluArgs) (s : State) : Out := alu2 s x fun a b => a.rotateLeft (amount b)
def execSlt (x : SaluArgs) (s : State) : Out := alu2 s x fun a b => boolWord (ltS a b)
def execSltn (x : SaluArgs) (s : State) : Out := alu2 s x fun a b => boolWord (ltN a b)
def execMin (x : SaluArgs) (s : State) : Out := alu2 s x fun a b => if ltS b a then b else a
def execMax (x : SaluArgs) (s : State) : Out := alu2 s x fun a b => if ltS a b then b else a
def execMinn (x : SaluArgs) (s : State) : Out := alu2 s x fun a b => if ltN b a then b else a
def execMaxn (x : SaluArgs) (s : State) : Out := alu2 s x fun a b => if ltN a b then b else a
def execClz (x : Salu1Args) (s : State) : Out := alu1 s x clzW
def execCtz (x : Salu1Args) (s : State) : Out := alu1 s x ctzW
def execPopc (x : Salu1Args) (s : State) : Out := alu1 s x fun a => BitVec.ofNat 64 (popcount a.toNat 64)
def execSel (x : SaluArgs) (s : State) : Out := alu3 s x fun old a b => if old ≠ 0 then a else b
def execExts (x : SaluArgs) (s : State) : Out := alu2 s x extsW
def execExtz (x : SaluArgs) (s : State) : Out := alu2 s x extzW

/-- BFX (R129); a length above 64 is ILLEGAL_OPERAND. -/
def execBfx (x : SaluArgs) (s : State) : Out :=
  withRegs s [x.gb] [x.ga, x.gd]
    (if fieldLen (getG s s.cur x.gb) > 64 then faultCls s .illegalOperand
     else withData s [x.ga] (commitG s x.gd (bfxW (getG s s.cur x.ga) (getG s s.cur x.gb)) 4))

/-- BFI (R129); a length above 64 is ILLEGAL_OPERAND. -/
def execBfi (x : SaluArgs) (s : State) : Out :=
  withRegs s [x.gb] [x.ga, x.gd]
    (if fieldLen (getG s s.cur x.gb) > 64 then faultCls s .illegalOperand
     else withData s [x.ga, x.gd] (commitG s x.gd (bfiW (getG s s.cur x.gd) (getG s s.cur x.ga) (getG s s.cur x.gb)) 4))

def execAdds (x : SaluArgs) (s : State) : Out := alu2 s x addsW

/-! ### SIMM (R130 to R132) -/

def execAddi (x : SimmArgs) (s : State) : Out := aluI s x fun a i => a + wrapW i
def execAndi (x : SimmArgs) (s : State) : Out := aluI s x fun a i => a &&& wrapW i
def execOri (x : SimmArgs) (s : State) : Out := aluI s x fun a i => a ||| wrapW i
def execXori (x : SimmArgs) (s : State) : Out := aluI s x fun a i => a ^^^ wrapW i
def execShli (x : ShiftArgs) (s : State) : Out := shiftI s x fun a k => a <<< k
def execShri (x : ShiftArgs) (s : State) : Out := shiftI s x fun a k => a.sshiftRight k
def execShrli (x : ShiftArgs) (s : State) : Out := shiftI s x fun a k => a >>> k
def execSlti (x : SimmArgs) (s : State) : Out := aluI s x fun a i => boolWord (decide (a.toInt < i))
def execSltni (x : SimmArgs) (s : State) : Out := aluI s x fun a i => boolWord (ltN a (wrapW i))

/-- LIS reads its immediate unsigned and shifts by 14 bits, or by 24 after WIDE (R101, R131). -/
def execLis (x : SimmArgs) (s : State) : Out :=
  aluI s x fun a _ => (a <<< simmWidth s) ||| BitVec.ofNat 64 (simmBits s x.imm)

/-- ADDPC adds to the instruction's own address (R131, R134). -/
def execAddpc (imm : BitVec 14) (gd : GReg) (s : State) : Out :=
  withRegs s [] [gd] (commitG s gd (insnAddr s + wrapW (simmImm s imm)) 4)

def execMuli (x : SimmArgs) (s : State) : Out := aluI s x fun a i => a * wrapW i

/-! ### SS (R90, R135) -/

def execAddShort (x : SsArgs) (s : State) : Out := aluS s x (· + ·)
def execSubShort (x : SsArgs) (s : State) : Out := aluS s x (· - ·)
def execAddi4 (x : SsImmArgs) (s : State) : Out := aluSI s x fun a i => a + i.signExtend 64

/-- MOV (R90). -/
def execMov (x : SsArgs) (s : State) : Out := withRegs s [x.gs] [x.gd] (commitG s x.gd (getG s s.cur x.gs) 2)

/-- LI4 (R90). -/
def execLi4 (x : SsImmArgs) (s : State) : Out := withRegs s [] [x.gd] (commitG s x.gd (x.imm.signExtend 64) 2)

def execAndShort (x : SsArgs) (s : State) : Out := aluS s x (· &&& ·)
def execOrShort (x : SsArgs) (s : State) : Out := aluS s x (· ||| ·)
def execXorShort (x : SsArgs) (s : State) : Out := aluS s x (· ^^^ ·)
def execShliShort (x : SsImmArgs) (s : State) : Out := aluSI s x fun a i => a <<< i.toNat
def execShriShort (x : SsImmArgs) (s : State) : Out := aluSI s x fun a i => a.sshiftRight i.toNat
def execShrliShort (x : SsImmArgs) (s : State) : Out := aluSI s x fun a i => a >>> i.toNat
def execSltShort (x : SsArgs) (s : State) : Out := aluS s x fun a b => boolWord (ltS a b)

end Sys2Proof.Machine
end

