-- ==== Sys2Proof/Machine/VectorA.lean ====
section
/-! DEFINITION. Lane arithmetic: the VA class and the short SV forms (R88, R147 to R158). -/

namespace Sys2Proof.Machine

/-! ### Functions on elements (R150 to R153, R158). Patterns in, patterns out. -/

/-- Addition: wrapping, or rounded once. -/
def laneAdd (t : LaneTy) (a b : Nat) : Nat :=
  match t with
  | .int w _ => wrapN w (a + b)
  | .flt f => rne f (fadd (fval f a) (fval f b))

/-- Subtraction. -/
def laneSub (t : LaneTy) (a b : Nat) : Nat :=
  match t with
  | .int w _ => wrapI w ((a : Int) - b)
  | .flt f => rne f (fsub (fval f a) (fval f b))

/-- Multiplication. -/
def laneMul (t : LaneTy) (a b : Nat) : Nat :=
  match t with
  | .int w _ => wrapN w (a * b)
  | .flt f => rne f (fmul (fval f a) (fval f b))

/-- d + a × b with one rounding. -/
def laneFma (t : LaneTy) (d a b : Nat) : Nat :=
  match t with
  | .int w _ => wrapN w (d + a * b)
  | .flt f => rne f (fadd (fval f d) (fmul (fval f a) (fval f b)))

/-- d - a × b with one rounding. -/
def laneFms (t : LaneTy) (d a b : Nat) : Nat :=
  match t with
  | .int w _ => wrapI w ((d : Int) - a * b)
  | .flt f => rne f (fsub (fval f d) (fmul (fval f a) (fval f b)))

/-- The smaller: by sign for a signed type, R151 for floats. -/
def laneMin (t : LaneTy) (a b : Nat) : Nat :=
  match t with
  | .int w sg => if sg then (if sInt w b < sInt w a then b else a) else min a b
  | .flt f => fminBits f a b

/-- The larger. -/
def laneMax (t : LaneTy) (a b : Nat) : Nat :=
  match t with
  | .int w sg => if sg then (if sInt w a < sInt w b then b else a) else max a b
  | .flt f => fmaxBits f a b

/-- Negation: wrapping, or the sign bit inverted, NaN included (R158). -/
def laneNeg (t : LaneTy) (a : Nat) : Nat :=
  match t with
  | .int w _ => wrapI w (-(a : Int))
  | .flt f => if signOf f a then a - 2 ^ (f.width - 1) else a + 2 ^ (f.width - 1)

/-- Absolute value: wrapping, or the sign bit cleared (R158). -/
def laneAbs (t : LaneTy) (a : Nat) : Nat :=
  match t with
  | .int w _ => wrapN w (sInt w a).natAbs
  | .flt f => a % 2 ^ (f.width - 1)

/-- Arithmetic shift right by the amount modulo the width, at every integer type (R150, R158). -/
def laneSar (w a b : Nat) : Nat := wrapI w (sInt w a / (2 ^ (b % w) : Nat))

/-- Shift left (R150). -/
def laneShl (w a b : Nat) : Nat := wrapN w (a * 2 ^ (b % w))

/-- Logical shift right (R150). -/
def laneShr (w a b : Nat) : Nat := a / 2 ^ (b % w)

/-! ### The shapes -/

/-- A two-source VA instruction at a lane type. -/
def va2 (s : State) (x : VaArgs) (w : Nat) (f : Nat → Nat → Nat) : Out :=
  let a := getV s s.cur x.va
  let b := getV s s.cur x.vb
  lanes s [x.va, x.vb] x.vd x.mask x.agn w (256 / w) (fun e => f (elem w a e) (elem w b e)) 4

/-- A two-source VA instruction whose destination is also a source; code 0 names l0 (R150). -/
def va3 (s : State) (x : VaArgs) (w : Nat) (f : Nat → Nat → Nat → Nat) : Out :=
  let a := getV s s.cur x.va
  let b := getV s s.cur x.vb
  let d := getV s s.cur x.vd
  lanes s [x.va, x.vb, x.vd] x.vd x.mask x.agn w (256 / w) (fun e => f (elem w d e) (elem w a e) (elem w b e)) 4

/-- A one-source floating VA instruction. -/
def va1 (s : State) (x : Va1Args) (f : FFmt → Nat → Nat) : Out :=
  let t := fltTy x.ty
  let w := t.width
  let a := getV s s.cur x.va
  lanes s [x.va] x.vd x.mask x.agn w (256 / w) (fun e => f t (elem w a e)) 4

/-- A VA instruction of the dual kind (R95). -/
def vaDual (s : State) (x : VaArgs) (f : LaneTy → Nat → Nat → Nat) : Out :=
  va2 s x (dualTy x.ty).width (f (dualTy x.ty))

/-- A VA instruction of the integer kind (R95). -/
def vaInt (s : State) (x : VaArgs) (f : Nat → Nat → Nat → Nat) : Out := va2 s x (widthOf x.ty) (f (widthOf x.ty))

/-- The operand code of an SV source (R87). -/
def svSrc (x : SvArgs) : VCode := if x.src.val < 4 then Fin.ofNat 32 x.src.val else Fin.ofNat 32 (x.src.val + 8)

/-- The operand code of an SV destination (R87). -/
def svDst (x : SvArgs) : VCode := Fin.ofNat 32 (4 + x.kd.val)

/-- An SV instruction: kd and src, no mask, kd written and pushed (R88). -/
def sv2 (s : State) (x : SvArgs) (f : LaneTy → Nat → Nat → Nat) : Out :=
  let t := shortTy x.ty
  let w := t.width
  let a := getV s s.cur (svDst x)
  let b := getV s s.cur (svSrc x)
  lanes s [svDst x, svSrc x] (svDst x) 0 false w (256 / w) (fun e => f t (elem w a e) (elem w b e)) 2

/-- An SV instruction on src alone. -/
def sv1 (s : State) (x : SvArgs) (f : LaneTy → Nat → Nat) : Out :=
  let t := shortTy x.ty
  let w := t.width
  let b := getV s s.cur (svSrc x)
  lanes s [svSrc x] (svDst x) 0 false w (256 / w) (fun e => f t (elem w b e)) 2

/-! ### SV (R88, R158) -/

def execVaddShort (x : SvArgs) (s : State) : Out := sv2 s x laneAdd
def execVsubShort (x : SvArgs) (s : State) : Out := sv2 s x laneSub
def execVmulShort (x : SvArgs) (s : State) : Out := sv2 s x laneMul

/-- VMAC: kd + src × l0, fused (R88, R158). -/
def execVmac (x : SvArgs) (s : State) : Out :=
  let t := shortTy x.ty
  let w := t.width
  let d := getV s s.cur (svDst x)
  let b := getV s s.cur (svSrc x)
  let a := getV s s.cur 0
  lanes s [svDst x, svSrc x, 0] (svDst x) 0 false w (256 / w)
    (fun e => laneFma t (elem w d e) (elem w a e) (elem w b e)) 2

def execVminShort (x : SvArgs) (s : State) : Out := sv2 s x laneMin
def execVmaxShort (x : SvArgs) (s : State) : Out := sv2 s x laneMax
def execVandShort (x : SvArgs) (s : State) : Out := sv2 s x fun _ a b => a &&& b
def execVorShort (x : SvArgs) (s : State) : Out := sv2 s x fun _ a b => a ||| b
def execVxorShort (x : SvArgs) (s : State) : Out := sv2 s x fun _ a b => a ^^^ b
def execVshlShort (x : SvArgs) (s : State) : Out := sv2 s x fun t a b => laneShl t.width a b
def execVshrShort (x : SvArgs) (s : State) : Out := sv2 s x fun t a b => laneSar t.width a b
def execVshrlShort (x : SvArgs) (s : State) : Out := sv2 s x fun t a b => laneShr t.width a b
def execVmovShort (x : SvArgs) (s : State) : Out := sv1 s x fun _ b => b
def execVneg (x : SvArgs) (s : State) : Out := sv1 s x laneNeg
def execVabs (x : SvArgs) (s : State) : Out := sv1 s x laneAbs

/-- Short VCMPLT writes kd's mask word; n32 compares unsigned (R88, R155). -/
def execVcmpltShort (x : SvArgs) (s : State) : Out :=
  compareLanes s (svDst x) (svDst x) (svSrc x) 0 false (shortTy x.ty) .lt 2

/-! ### VA (R150) -/

def execVadd (x : VaArgs) (s : State) : Out := vaDual s x laneAdd
def execVsub (x : VaArgs) (s : State) : Out := vaDual s x laneSub
def execVmul (x : VaArgs) (s : State) : Out := vaDual s x laneMul

/-- VMULH: the high half of the signed product (R150). -/
def execVmulh (x : VaArgs) (s : State) : Out :=
  vaInt s x fun w a b => wrapI w (sInt w a * sInt w b / (2 ^ w : Nat))

def execVfma (x : VaArgs) (s : State) : Out := va3 s x (dualTy x.ty).width (laneFma (dualTy x.ty))
def execVfms (x : VaArgs) (s : State) : Out := va3 s x (dualTy x.ty).width (laneFms (dualTy x.ty))
def execVmin (x : VaArgs) (s : State) : Out := vaDual s x laneMin
def execVmax (x : VaArgs) (s : State) : Out := vaDual s x laneMax
def execVminn (x : VaArgs) (s : State) : Out := vaInt s x fun w => laneMin (.int w false)
def execVmaxn (x : VaArgs) (s : State) : Out := vaInt s x fun w => laneMax (.int w false)
def execVand (x : VaArgs) (s : State) : Out := vaInt s x fun _ a b => a &&& b
def execVor (x : VaArgs) (s : State) : Out := vaInt s x fun _ a b => a ||| b
def execVxor (x : VaArgs) (s : State) : Out := vaInt s x fun _ a b => a ^^^ b
def execVshl (x : VaArgs) (s : State) : Out := vaInt s x laneShl
def execVshr (x : VaArgs) (s : State) : Out := vaInt s x laneSar
def execVshrl (x : VaArgs) (s : State) : Out := vaInt s x laneShr
def execVadds (x : VaArgs) (s : State) : Out := vaInt s x fun w a b => satS w (sInt w a + sInt w b)
def execVaddsn (x : VaArgs) (s : State) : Out := vaInt s x fun w a b => satU w ((a : Int) + b)
def execVsubs (x : VaArgs) (s : State) : Out := vaInt s x fun w a b => satS w (sInt w a - sInt w b)
def execVabsd (x : VaArgs) (s : State) : Out := vaInt s x fun w a b => wrapN w (sInt w a - sInt w b).natAbs

/-- VDIV (R152). -/
def execVdiv (x : VaArgs) (s : State) : Out :=
  let f := fltTy x.ty
  va2 s x f.width fun a b => rne f (fdiv f.frac (fval f a) (fval f b))

def execVsqrt (x : Va1Args) (s : State) : Out := va1 s x fun f a => rne f (fsqrt f.frac (fval f a))
def execVrcp (x : Va1Args) (s : State) : Out := va1 s x fun f a => rne f (fdiv f.frac (ofInt 1) (fval f a))
def execVexp2 (x : Va1Args) (s : State) : Out := va1 s x fun f a => fexp2 f (fval f a)

/-- A power of two's exponent held within ±5000: beyond that a scaled number of any format overflows, or rounds to zero,
as at the bound. -/
def clampExp (k : Int) : Int := max (-5000) (min 5000 k)

/-- VSCALE: a × 2^k with k the signed integer of the element's width in b (R153). -/
def execVscale (x : VaArgs) (s : State) : Out :=
  let f := fltTy x.ty
  va2 s x f.width fun a b => rne f (fscale (fval f a) (clampExp (sInt f.width b)))

def execVcmpeq (x : VaArgs) (s : State) : Out := compareLanes s x.vd x.va x.vb x.mask x.agn (dualTy x.ty) .eq 4
def execVcmplt (x : VaArgs) (s : State) : Out := compareLanes s x.vd x.va x.vb x.mask x.agn (dualTy x.ty) .lt 4
def execVcmple (x : VaArgs) (s : State) : Out := compareLanes s x.vd x.va x.vb x.mask x.agn (dualTy x.ty) .le 4
def execVcmpltn (x : VaArgs) (s : State) : Out :=
  compareLanes s x.vd x.va x.vb x.mask x.agn (.int (widthOf x.ty) false) .lt 4

/-- VSEL: the mask selects, every element is written; mask field 0 is ILLEGAL_OPERAND (R156). -/
def execVsel (x : VselArgs) (s : State) : Out :=
  let w := widthOf x.ty
  let a := getV s s.cur x.va
  let b := getV s s.cur x.vb
  if x.mask = 0 then faultCls s .illegalOperand else
    lanes s ([x.va, x.vb] ++ maskCode x.mask) x.vd 0 false w (256 / w)
      (fun e => if maskBit s s.cur x.mask e then elem w a e else elem w b e) 4

/-- The exact products of `k` neighbouring pairs for one f32 lane (R157). -/
def dotProducts (f : FFmt) (a b : Vec) (k j : Nat) : List FVal :=
  (List.range k).map fun i => fmul (fval f (elem f.width a (k * j + i))) (fval f (elem f.width b (k * j + i)))

/-- A dot product into eight f32 lanes (R157). -/
def dotLanes (s : State) (x : VaArgs) (k : Nat) : Out :=
  let f := fltTy x.ty
  let a := getV s s.cur x.va
  let b := getV s s.cur x.vb
  let d := getV s s.cur x.vd
  lanes s [x.va, x.vb, x.vd] x.vd x.mask x.agn 32 8
    (fun j => rne .f32 (fadd (fval .f32 (elem 32 d j)) (treeSum32 (dotProducts f a b k j)))) 4

def execVdot4 (x : VaArgs) (s : State) : Out := dotLanes s x 4
def execVdot2 (x : VaArgs) (s : State) : Out := dotLanes s x 2

end Sys2Proof.Machine
end

