-- ==== Sys2Proof/Machine/VectorX.lean ====
section
/-! DEFINITION. The VX instructions that name only registers: conversions, moves, reductions, masks, bitmap leaves,
classes and seeds (R159, R160, R165 to R170). -/

namespace Sys2Proof.Machine

/-! ### Conversions (R160) -/

/-- One element converted (R49, R50, R53, R54); `r` is the drawn number of stochastic mode. -/
def convert (src dst : LaneTy) (mode : Rnd) (r a : Nat) : Nat :=
  match src, dst with
  | .flt f, .flt g => fround g mode r (fval f a)
  | .flt f, .int w sg => cvtToInt sg w mode r (fval f a)
  | .int w sg, .flt g => fround g mode r (ofInt (if sg then sInt w a else a))
  | .int w sg, .int v tg =>
    let x : Int := if sg then sInt w a else a
    if mode = .sat then (if tg then satS v x else satU v x) else wrapI v x

/-- A conversion: elements 0 to n - 1 with n by the wider of the two types; the remaining bits are 0 (R160). -/
def convertLanes (s : State) (x : CvtArgs) (src dst : LaneTy) : Out :=
  let n := 256 / max src.width dst.width
  let a := getV s s.cur x.va
  if !goodDest x.vd then faultCls s .illegalOperand else
    withVecs s ([x.va] ++ maskCode x.mask ++ mergeReads x.vd x.mask)
      (let t := roundElems x.rnd (fun e => active s x.mask n e)
          (fun e r => convert src dst x.rnd r (elem src.width a e)) (List.range n) s
       writeLanes t.2 x.vd x.mask x.agn dst.width n t.1 4)

def execVcvtff (x : CvtArgs) (s : State) : Out := convertLanes s x (.flt (fltTy x.ta)) (.flt (fltTy x.tb))
def execVcvtfi (x : CvtArgs) (s : State) : Out := convertLanes s x (.flt (fltTy x.ta)) (intTy x.tb)
def execVcvtif (x : CvtArgs) (s : State) : Out := convertLanes s x (intTy x.ta) (.flt (fltTy x.tb))
def execVcvtii (x : CvtArgs) (s : State) : Out := convertLanes s x (intTy x.ta) (intTy x.tb)

/-! ### Moving elements (R165) -/

/-- VBCAST (R165). -/
def execVbcast (x : VbcastArgs) (s : State) : Out :=
  let w := (intTy x.ta).width
  withRegs s [] [x.ga]
    (lanesFrom s [x.ga] [] x.vd x.mask x.agn w (256 / w) (fun _ => (getG s s.cur x.ga).toNat % 2 ^ w) 4)

/-- VGET: the index is the old gd; beyond the last element it is ILLEGAL_OPERAND (R165). -/
def execVget (x : VtoGArgs) (s : State) : Out :=
  let w := (intTy x.ta).width
  let a := getV s s.cur x.va
  withRegs s [x.gd] []
    (let i := (getG s s.cur x.gd).toNat
     if 256 / w ≤ i then faultCls s .illegalOperand
     else withVecs s [x.va] (commitG s x.gd (wrapW (if x.ta.val < 4 then sInt w (elem w a i) else elem w a i)) 4))

/-- VPUT: gN is the value and gN+1 the index (R165). -/
def execVput (x : VputArgs) (s : State) : Out :=
  let w := (intTy x.ta).width
  let n := 256 / w
  let old := getV s s.cur x.vd
  withRegs s [pairReg x.ga] [x.ga]
    (let i := (getG s s.cur (pairReg x.ga)).toNat
     if n ≤ i then faultCls s .illegalOperand
     else lanesFrom s [x.ga] [x.vd] x.vd 0 false w n
      (fun e => if e = i then (getG s s.cur x.ga).toNat % 2 ^ w else elem w old e) 4)

/-- VPERM: the old destination supplies the indices (R165). -/
def execVperm (x : VxArgs) (s : State) : Out :=
  let w := (intTy x.ta).width
  let n := 256 / w
  let a := getV s s.cur x.va
  let old := getV s s.cur x.vd
  lanes s [x.va, x.vd] x.vd x.mask x.agn w n (fun e => elem w a (elem w old e % n)) 4

/-- VCOMPR: the active elements, packed at the low end; the rest 0 (R165). -/
def execVcompr (x : VcomprArgs) (s : State) : Out :=
  let w := (intTy x.ta).width
  let n := 256 / w
  let a := getV s s.cur x.va
  let taken := ((List.range n).filter (active s x.mask n)).map (elem w a)
  lanes s ([x.va] ++ maskCode x.mask) x.vd 0 false w n (fun e => taken.getD e 0) 4

/-- VEXPND: the i-th active element takes va[i] (R165). -/
def execVexpnd (x : VxArgs) (s : State) : Out :=
  let w := (intTy x.ta).width
  let n := 256 / w
  let a := getV s s.cur x.va
  lanes s [x.va] x.vd x.mask x.agn w n
    (fun e => elem w a (((List.range e).filter (active s x.mask n)).length)) 4

/-- VMASK: bits [31:0] from ga, the rest 0 (R165). -/
def execVmask (ga : GReg) (vd : VCode) (s : State) : Out :=
  withRegs s [] [ga] (lanesFrom s [ga] [] vd 0 false 32 8 (fun e => if e = 0 then (getG s s.cur ga).toNat % 2 ^ 32 else 0) 4)

/-- VMOV: bit patterns copied under the mask (R165). -/
def execVmov (x : VxArgs) (s : State) : Out :=
  let w := widthOf x.ta
  let a := getV s s.cur x.va
  lanes s [x.va] x.vd x.mask x.agn w (256 / w) (elem w a) 4

/-! ### Reductions and the scan (R166) -/

/-- The identity of addition: 0, or -0 (R166). -/
def addIdentity (t : LaneTy) : Nat :=
  match t with
  | .int _ _ => 0
  | .flt f => 2 ^ (f.width - 1)

/-- The identity of the maximum (R166). -/
def maxIdentity (t : LaneTy) : Nat :=
  match t with
  | .int w sg => if sg then 2 ^ (w - 1) else 0
  | .flt f => withSign f true f.infEnc

/-- The identity of the minimum (R166). -/
def minIdentity (t : LaneTy) : Nat :=
  match t with
  | .int w sg => if sg then 2 ^ (w - 1) - 1 else 2 ^ w - 1
  | .flt f => f.infEnc

/-- The input elements, masked-off ones replaced by the identity (R166). -/
def redInputs (s : State) (x : VredArgs) (t : LaneTy) (ident : Nat) : List Nat :=
  let n := 256 / t.width
  (List.range n).map fun e => if active s x.mask n e then elem t.width (getV s s.cur x.va) e else ident

/-- A reduction by the tree of R73 into element 0; the other elements are 0 (R166). -/
def reduce (s : State) (x : VredArgs) (ident : LaneTy → Nat) (f : LaneTy → Nat → Nat → Nat) : Out :=
  let t := selTy x.tb x.ta
  lanes s ([x.va] ++ maskCode x.mask) x.vd 0 false t.width (256 / t.width)
    (fun e => if e = 0 then tree (f t) 0 (redInputs s x t (ident t)) else 0) 4

def execVredadd (x : VredArgs) (s : State) : Out := reduce s x addIdentity laneAdd
def execVredmax (x : VredArgs) (s : State) : Out := reduce s x maxIdentity laneMax
def execVredmin (x : VredArgs) (s : State) : Out := reduce s x minIdentity laneMin

/-- Running sums after the first element (R74). -/
def scanFrom (t : LaneTy) : Nat → List Nat → List Nat
  | _, [] => []
  | acc, x :: r => laneAdd t acc x :: scanFrom t (laneAdd t acc x) r

/-- VSCANADD: out[0] = x[0], out[i] = round(out[i-1] + x[i]) (R74, R166). -/
def execVscanadd (x : VredArgs) (s : State) : Out :=
  let t := selTy x.tb x.ta
  let out := match redInputs s x t (addIdentity t) with
    | [] => []
    | a :: r => a :: scanFrom t a r
  lanes s ([x.va] ++ maskCode x.mask) x.vd 0 false t.width (256 / t.width) (fun e => out.getD e 0) 4

/-! ### Mask words (R167) -/

/-- VPOPM (R167). -/
def execVpopm (x : VtoGArgs) (s : State) : Out :=
  let n := 256 / (intTy x.ta).width
  withRegs s [] [x.gd] (withVecs s [x.va]
    (commitG s x.gd (BitVec.ofNat 64 (popcount (getV s s.cur x.va).toNat n)) 4))

/-- VFIRST: the lowest set bit below n, or all ones (R167). -/
def execVfirst (x : VtoGArgs) (s : State) : Out :=
  let n := 256 / (intTy x.ta).width
  withRegs s [] [x.gd] (withVecs s [x.va]
    (let i := ctzFrom (getV s s.cur x.va).toNat n 0
     commitG s x.gd (if i < n then BitVec.ofNat 64 i else BitVec.allOnes 64) 4))

/-- VIOTA: set bits below each element (R167). -/
def execViota (x : VxArgs) (s : State) : Out :=
  let w := (intTy x.ta).width
  let a := getV s s.cur x.va
  lanes s [x.va] x.vd x.mask x.agn w (256 / w) (fun e => popcount a.toNat e) 4

/-! ### Bitmap leaves (R168) -/

/-- The zero detector: integer 0, +0 and -0 are zero (R69). -/
def isZeroElem (t : LaneTy) (x : Nat) : Bool :=
  match t with
  | .int _ _ => decide (x = 0)
  | .flt f => (fval f x).isZero

/-- VBMENC (R168). -/
def execVbmenc (x : VbmencArgs) (s : State) : Out :=
  let t := selTy x.tb x.ta
  let w := t.width
  let n := 256 / w
  let a := getV s s.cur x.va
  withRegs s [] [x.gd] (withVecs s ([x.va] ++ maskCode x.mask)
    (commitG s x.gd (BitVec.ofNat 64 (maskWord n fun e => active s x.mask n e && !isZeroElem t (elem w a e))) 4))

/-- VBMDEC: packed values of the old vd go to the set bits of ga (R168). -/
def execVbmdec (x : VbmdecArgs) (s : State) : Out :=
  let w := (selTy x.tb x.ta).width
  let n := 256 / w
  let old := getV s s.cur x.vd
  withRegs s [] [x.ga]
    (let m := (getG s s.cur x.ga).toNat
     lanesFrom s [x.ga] [x.vd] x.vd x.mask x.agn w n (fun e => if bit m e then elem w old (popcount m e) else 0) 4)

/-! ### Classes and seeds (R169, R170) -/

/-- The class code of a pattern (R169). -/
def classOf (f : FFmt) (x : Nat) : Nat :=
  match fval f x with
  | .nan => 8
  | .inf s => if s then 0 else 7
  | .fin s m _ =>
    if m = 0 then (if s then 3 else 4)
    else if bits x f.frac f.expw = 0 then (if s then 2 else 5)
    else (if s then 1 else 6)

/-- VCLASS (R169). -/
def execVclass (x : VxArgs) (s : State) : Out :=
  let f := fltTy x.ta
  let a := getV s s.cur x.va
  lanes s [x.va] x.vd x.mask x.agn f.width (256 / f.width) (fun e => classOf f (elem f.width a e)) 4

/-- VRNDSEED: states under the mask; a zero seed is replaced (R52, R170). -/
def execVrndseed (va : VCode) (mask : Fin 8) (s : State) : Out :=
  let a := getV s s.cur va
  let x := s.ctx s.cur
  let st := Vector.ofFn fun j : Fin 8 =>
    if maskBit s s.cur mask j.val then
      let seed := BitVec.ofNat 32 (elem 32 a j.val)
      if seed = 0 then seedOf j else seed
    else x.st[j.val]'j.isLt
  withVecs s ([va] ++ maskCode mask) (.next (retire (s.setCtx s.cur { x with st := st }) s.cur 4))

end Sys2Proof.Machine
end

