-- ==== Sys2Proof/Machine/Bolt.lean ====
section
/-! DEFINITION. Tiles and their boltropes: sums, checking, correction, and what a store does to a tile slot (R216 to
R224). -/

namespace Sys2Proof.Machine

/-! ### Element formats by code (R57) -/

/-- The element type of a format code; scaled codes give their element format. -/
def fmtTy (code : Nat) : LaneTy :=
  match code with
  | 0x01 => .int 8 true
  | 0x02 => .int 8 false
  | 0x03 => .int 16 true
  | 0x04 => .int 16 false
  | 0x05 => .int 32 true
  | 0x06 => .int 32 false
  | 0x07 => .int 64 true
  | 0x08 => .flt .f64
  | 0x09 => .flt .f32
  | 0x0A => .flt .bf16
  | 0x0B => .flt .f16
  | 0x0C => .flt .e4m3
  | 0x0D => .flt .e5m2
  | 0x0E => .flt .e2m1
  | 0x10 => .flt .e4m3
  | 0x11 => .flt .e5m2
  | _ => .flt .e2m1

/-- Whether a code is a scaled one: 0x10, 0x11 or 0x12. -/
def isScaled (code : Nat) : Bool := decide (0x10 ≤ code) && decide (code ≤ 0x12)

/-- Bits of an element of a format code. -/
def fmtBits (code : Nat) : Nat := (fmtTy code).width

/-- Whether a format is integer (R216). -/
def isIntFmt (code : Nat) : Bool :=
  match fmtTy code with
  | .int _ _ => true
  | .flt _ => false

/-! ### Tiles as data -/

/-- A tile's 256 element patterns in row-major order, and each one's block scale where its block bears a scaled code
(R216, R219). -/
structure TileData where
  ty    : LaneTy
  raw   : List Nat
  scale : List (Option Nat)
deriving DecidableEq, Repr

/-- A boltrope: sixteen 32-bit patterns in each of its four vectors (R218). -/
structure Bolt where
  row    : List Nat
  col    : List Nat
  rowMag : List Nat
  colMag : List Nat
deriving DecidableEq, Repr

/-- The elements of a run of bytes. -/
def unpackBytes (w n : Nat) (bs : List Byte) : List Nat :=
  let x := leNat bs
  (List.range n).map fun e => bits x (w * e) w

/-- Elements as bytes. -/
def packBytes (w : Nat) (l : List Nat) : List Byte := leBytes (w * l.length / 8) (packNat w l)

/-- The scaled code of an element format (R229). -/
def scaledOf (fmt : Nat) : Option Nat :=
  match fmt with
  | 0x0C => some 0x10
  | 0x0D => some 0x11
  | 0x0E => some 0x12
  | _ => none

/-- The scale that applies to the element at a location: its block's, when the block bears the scaled code of the
tile's element format (R219, R229). -/
def scaleAt (s : State) (fmt loc : Nat) : Option Nat :=
  if scaledOf fmt = some (fmtOf s (loc / 64)) then some (scaleOf s (loc / 64)) else none

/-- The tile of a format at a location. -/
def readTile (s : State) (loc fmt : Nat) : TileData :=
  let w := fmtBits fmt
  { ty := fmtTy fmt
    raw := unpackBytes w 256 (readBytes s loc (tileBytes fmt))
    scale := (List.range 256).map fun e => scaleAt s fmt (loc + w * e / 8) }

/-- The value v(i, j) of R219: under its block's scale, rounded once to f32. -/
def tileVal (f : FFmt) (x : Nat) (sc : Option Nat) : FVal :=
  match sc with
  | none => fval f x
  | some k => r32 (scaled f k x)

/-- The floating values of a tile. -/
def tileVals (t : TileData) (f : FFmt) : List FVal := (t.raw.zip t.scale).map fun p => tileVal f p.1 p.2

/-- The integer values of a tile. -/
def tileInts (t : TileData) (w : Nat) (sg : Bool) : List Int := t.raw.map fun x => if sg then sInt w x else (x : Int)

/-- Row i of 256 values. -/
def rowOf {α : Type} (l : List α) (i : Nat) : List α := (l.drop (16 * i)).take 16

/-- Column j of 256 values. -/
def colOf {α : Type} (z : α) (l : List α) (j : Nat) : List α := (List.range 16).map fun i => l.getD (16 * i + j) z

/-- tree_sum as an f32 pattern (R76). -/
def sum32 (l : List FVal) : Nat := rne .f32 (treeSum32 l)

/-- An exact integer sum modulo 2^32 (R76). -/
def sumInt32 (l : List Int) : Nat := wrapI 32 l.sum

/-- sums(T) of R219. -/
def tileSums (t : TileData) : Bolt :=
  let r := List.range 16
  match t.ty with
  | .flt f =>
    let v := tileVals t f
    let a := v.map fabs
    let z : FVal := .fin false 0 0
    { row := r.map fun i => sum32 (rowOf v i), col := r.map fun j => sum32 (colOf z v j),
      rowMag := r.map fun i => sum32 (rowOf a i), colMag := r.map fun j => sum32 (colOf z a j) }
  | .int w sg =>
    let v := tileInts t w sg
    { row := r.map fun i => sumInt32 (rowOf v i), col := r.map fun j => sumInt32 (colOf 0 v j),
      rowMag := r.map fun _ => 0, colMag := r.map fun _ => 0 }

/-- The 256-byte record of a boltrope (R218). -/
def boltBytes (b : Bolt) : List Byte := packBytes 32 (b.row ++ b.col ++ b.rowMag ++ b.colMag)

/-- A boltrope from its record (R218). -/
def boltOf (bs : List Byte) : Bolt :=
  let l := unpackBytes 32 64 bs
  { row := l.take 16, col := (l.drop 16).take 16, rowMag := (l.drop 32).take 16, colMag := l.drop 48 }

/-- Rows and columns exchanged, as a transpose does (R233, R277). -/
def boltSwap (b : Bolt) : Bolt := { row := b.col, col := b.row, rowMag := b.colMag, colMag := b.rowMag }

/-! ### Checking (R220, R221) -/

/-- Magnitude allowances of rows and columns, exactly (R220, R236). -/
structure Mag where
  row : List FVal
  col : List FVal
deriving DecidableEq, Repr

/-- The magnitude sums of a boltrope. -/
def magOf (b : Bolt) : Mag := { row := b.rowMag.map (fval .f32), col := b.colMag.map (fval .f32) }

/-- τ × m + 16 × 2^-126, exactly (R220). -/
def allowance (n : Nat) (m : FVal) : FVal := fadd (fscale m (-(n : Int))) (.fin false 16 (-126))

/-- Whether a line fails (R220): x against p with magnitude allowance m and actual magnitude am. -/
def lineFails (ty : LaneTy) (n x p : Nat) (m : FVal) (am : Nat) : Bool :=
  match ty with
  | .int _ _ => decide (x ≠ p)
  | .flt _ =>
    let v := fval .f32
    (v x).isFin && (v p).isFin && m.isFin && (v am).isFin && flt (allowance n m) (fabs (fsub (v x) (v p)))

/-- The rows or columns that fail. -/
def failing (ty : LaneTy) (n : Nat) (act p : List Nat) (m : List FVal) (am : List Nat) : List Nat :=
  (List.range 16).filter fun i => lineFails ty n (act.getD i 0) (p.getD i 0) (m.getD i .nan) (am.getD i 0)

/-- The outcome of check_fix. -/
inductive Fix where
  | ok | fixed | fail
deriving DecidableEq, Repr

/-- Whether the row's and the column's differences agree (R221). -/
def diffsAgree (ty : LaneTy) (n : Nat) (act p : Bolt) (m : Mag) (r c : Nat) : Bool :=
  match ty with
  | .int _ _ =>
    decide (wrapI 32 ((act.row.getD r 0 : Int) - p.row.getD r 0) = wrapI 32 ((act.col.getD c 0 : Int) - p.col.getD c 0))
  | .flt _ =>
    let v (l : List Nat) (i : Nat) := fval .f32 (l.getD i 0)
    let d := fsub (fsub (v act.row r) (v p.row r)) (fsub (v act.col c) (v p.col c))
    fle (fabs d) (allowance n (fadd (m.row.getD r .nan) (m.col.getD c .nan)))

/-- fix(T[r][c] - dr): back to the element's format (R221). -/
def fixElem (t : TileData) (act p : Bolt) (r k : Nat) : Nat :=
  let x := t.raw.getD k 0
  match t.ty with
  | .int w sg =>
    wrapI w ((if sg then sInt w x else (x : Int)) - ((act.row.getD r 0 : Int) - p.row.getD r 0))
  | .flt f =>
    let dr := fsub (fval .f32 (act.row.getD r 0)) (fval .f32 (p.row.getD r 0))
    match t.scale.getD k none with
    | none => rne f (fsub (fval f x) dr)
    | some sc => rne f (fscale (fsub (scaled f sc x) dr) (127 - (sc : Int)))

/-- check_fix of R221: the outcome, the tile, its new boltrope and the element that changed, one whose row or column still
fails among them. -/
def checkFix (n : Nat) (t : TileData) (p : Bolt) (m : Mag) : Fix × TileData × Bolt × Option Nat :=
  let act := tileSums t
  let fr := failing t.ty n act.row p.row m.row act.rowMag
  let fc := failing t.ty n act.col p.col m.col act.colMag
  match fr, fc with
  | [], [] => (.ok, t, act, none)
  | [r], [c] =>
    if diffsAgree t.ty n act p m r c then
      let k := 16 * r + c
      let u := { t with raw := t.raw.set k (fixElem t act p r k) }
      let a := tileSums u
      if !lineFails t.ty n (a.row.getD r 0) (p.row.getD r 0) (m.row.getD r .nan) (a.rowMag.getD r 0) &&
         !lineFails t.ty n (a.col.getD c 0) (p.col.getD c 0) (m.col.getD c .nan) (a.colMag.getD c 0)
      then (.fixed, u, a, some k) else (.fail, u, act, some k)
    else (.fail, t, act, none)
  | _, _ => (.fail, t, act, none)

/-! ### Tiles of this core: slots 0 to 63, accumulators as 64 to 67 -/

/-- A tile slot (R216). -/
def tileSlot (s : State) (t : Nat) : Option TileSlot := s.core.tiles.toList.getD t none

/-- The state bits of an accumulator tile (R218). -/
def accBits (s : State) (i : Nat) : AccBits := s.core.acc.toList.getD i { unverified := false, poisoned := false }

/-- Where a tile lies and its format; none for a slot that is not configured. -/
def tilePlace (s : State) (t : Nat) : Option (Nat × Nat) :=
  if t < 64 then (tileSlot s t).map fun x => (x.off, x.fmt) else some (accLoc + 0x400 * (t - 64), 0x09)

/-- Whether a tile is unverified. -/
def tileUnverified (s : State) (t : Nat) : Bool :=
  if t < 64 then (tileSlot s t).any fun x => x.unverified else (accBits s (t - 64)).unverified

/-- Whether a tile is bolt-poisoned. -/
def tilePoisoned (s : State) (t : Nat) : Bool :=
  if t < 64 then (tileSlot s t).any fun x => x.poisoned else (accBits s (t - 64)).poisoned

/-- Both state bits of a tile set. -/
def setTileBits (s : State) (t : Nat) (unv poi : Bool) : State :=
  if h : t < 64 then
    match s.core.tiles[t] with
    | none => s
    | some x => { s with core := { s.core with tiles := s.core.tiles.set t (some { x with unverified := unv, poisoned := poi }) } }
  else if h : t - 64 < 4 then
    { s with core := { s.core with acc := s.core.acc.set (t - 64) { unverified := unv, poisoned := poi } } }
  else s

/-- A tile's boltrope (R218). -/
def tileBolt (s : State) (t : Nat) : Bolt := boltOf (readBytes s (boltLoc t) 256)

/-- Whether a boltrope's parity is broken, so that it is poisoned where it lies (R311). -/
def boltBroken (s : State) (t : Nat) : Bool := poisonedIn s (boltLoc t) 256

/-- A tile's boltrope written, with fresh parity (R311). -/
def setTileBolt (s : State) (t : Nat) (b : Bolt) : State :=
  let s' := setBytes s (boltLoc t) (boltBytes b)
  { s' with poison := s.poison.filter fun g => !wholeGranule (boltLoc t) 256 g }

/-- The tolerance that a tile's format reads (R220). -/
def tolFor (fmt wide narrow : Nat) : Nat := if fmtBits fmt = 32 then wide else narrow

/-! ### Stores into tile slots (R224) -/

/-- Row i of a tile as values: floats as v(i, j), integers exactly. -/
def rowFloat (t : TileData) (f : FFmt) (i : Nat) : List FVal := rowOf (tileVals t f) i

/-- A column sum moved once by the differences of the rows a store covers (R224). -/
def moveCol (f : FFmt) (old new : TileData) (mag : Bool) (rows : List Nat) (b : List Nat) : List Nat :=
  let pick (x : FVal) := if mag then fabs x else x
  (List.range 16).map fun j =>
    let d := rows.foldl (fun acc i =>
      fadd acc (fsub (pick ((rowFloat new f i).getD j .nan)) (pick ((rowFloat old f i).getD j .nan)))) (.fin false 0 0)
    rne .f32 (fadd (fval .f32 (b.getD j 0)) d)

/-- The boltrope after a store that covers the rows given (R224). -/
def coveredBolt (old new : TileData) (rows : List Nat) (b : Bolt) : Bolt :=
  let act := tileSums new
  let put (l m : List Nat) := (List.range 16).map fun i => if rows.contains i then m.getD i 0 else l.getD i 0
  match new.ty with
  | .flt f =>
    { row := put b.row act.row, rowMag := put b.rowMag act.rowMag,
      col := moveCol f old new false rows b.col, colMag := moveCol f old new true rows b.colMag }
  | .int w sg =>
    let o := tileInts old w sg
    let v := tileInts new w sg
    { row := put b.row act.row, rowMag := b.rowMag, colMag := b.colMag,
      col := (List.range 16).map fun j => wrapI 32 ((b.col.getD j 0 : Int) +
        (rows.map fun i => v.getD (16 * i + j) 0 - o.getD (16 * i + j) 0).sum) }

/-- The effect of one store on one tile slot: `hit` are the locations written, `old` the state before it (R224). No single
store covers a row of 64 bytes, that of a 32-bit format. A covered store into a slot whose boltrope has broken parity has no boltrope
to move: it makes the slot unverified (log 86). -/
def storeIntoSlot (old : State) (hit : Nat → Bool) (s : State) (t : Nat) : State :=
  match tileSlot s t with
  | none => s
  | some x =>
    if x.poisoned then s else
      let rb := tileBytes x.fmt / 16
      let rowHits (i : Nat) := ((List.range rb).filter fun k => hit (x.off + rb * i + k)).length
      let touched := (List.range 16).filter fun i => decide (rowHits i ≠ 0)
      if touched.isEmpty then s
      else if decide (rb < 64) && !boltBroken old t && touched.all fun i => decide (rowHits i = rb) then
        setTileBolt s t (coveredBolt (readTile old x.off x.fmt) (readTile s x.off x.fmt) touched (tileBolt old t))
      else setTileBits s t true x.poisoned

/-- The slots that a run of locations overlaps. -/
def slotsAt (s : State) (loc n : Nat) : List Nat :=
  (List.range 64).filter fun t => (tileSlot s t).any fun x =>
    decide (loc < x.off + tileBytes x.fmt) && decide (x.off < loc + n)

/-- One store by any agent that carries no boltrope: bytes, watches, check bits, and tile slots (R175, R224). -/
def store (s : State) (loc : Nat) (bs : List Byte) : State :=
  let s' := poke s loc bs
  (slotsAt s loc bs.length).foldl
    (storeIntoSlot s fun a => decide (loc ≤ a) && decide (a < loc + bs.length)) s'

/-- Single bytes of one masked store: a granule all of whose bytes are active is written whole (R172, R311). -/
def pokeMasked (s : State) (loc : Nat) (bs : List Byte) (act : Nat → Bool) : State :=
  let live := (List.range bs.length).filter act
  let s' := live.foldl (fun s i => setBytes s (loc + i) [bs.getD i 0]) s
  let hit (a : Nat) := decide (loc ≤ a) && decide (a < loc + bs.length) && act (a - loc)
  let s' := { s' with poison := s'.poison.filter fun g => !(List.range 8).all fun k => hit (8 * g + k) }
  let watch := Vector.ofFn fun i : Fin 8 => match s'.core.watch[i.val] with
    | none => none
    | some e => some (if (List.range 4).any fun k => hit (e.loc + k) then { e with fired := true } else e)
  let notices := (s'.core.watch.toList.filterMap id).filter fun e =>
    !((List.range 4).any fun k => hit (e.loc + k)) && (List.range 64).any fun k => hit (e.loc / 64 * 64 + k)
  let s' := { s' with core := { s'.core with watch := watch } }
  notices.foldl (fun s e => s.setCtx e.owner { s.ctx e.owner with notice := true }) s'

/-- A masked store with its effect on tile slots (R172, R224). -/
def storeMasked (s : State) (loc : Nat) (bs : List Byte) (act : Nat → Bool) : State :=
  let s' := pokeMasked s loc bs act
  (slotsAt s loc bs.length).foldl
    (storeIntoSlot s fun a => decide (loc ≤ a) && decide (a < loc + bs.length) && act (a - loc)) s'

/-- A store over runs of locations, in order. -/
def storeRuns (s : State) : List (Nat × Nat) → List Byte → State
  | [], _ => s
  | (loc, n) :: r, bs => storeRuns (store s loc (bs.take n)) r (bs.drop n)

/-- A store by the current context over runs of locations with an order, or the write of a read-modify-write: its bytes, and what it
does to the order (R208, R211). -/
def ctxStoreAs (s : State) (m : AtMode) (rmw : Bool) (runs : List (Nat × Nat)) (bs : List Byte) : State :=
  storeRuns (noteStore s s.cur m rmw (runLocs runs)) runs bs

/-- An ordinary store by the current context (R206). -/
def ctxStore (s : State) (runs : List (Nat × Nat)) (bs : List Byte) : State := ctxStoreAs s plainMode false runs bs

/-- A masked store by the current context (R172, R211). -/
def ctxStoreMasked (s : State) (loc : Nat) (bs : List Byte) (act : Nat → Bool) : State :=
  storeMasked (noteWrite s (((List.range bs.length).filter act).map fun i => loc + i)) loc bs act

end Sys2Proof.Machine
end

