-- ==== Sys2Proof/Machine/LoadStore.lean ====
section
/-! DEFINITION. Loads and stores (R171 to R177), with the short SS forms (R90, R135) and the request hashes of a paired
launch (R313). -/

namespace Sys2Proof.Machine

/-! ### Paired launches (R313) -/

/-- Whether a request to an address leaves the core (R313). -/
def leavesCore (s : State) (a : Nat) : Bool :=
  match regionOf a with
  | .hbm => true
  | .host => true
  | .gwin => !decide ((a - gwinLoc) / spadSize = s.core.lid)
  | _ => false

/-- In a paired launch a request that leaves the core waits at the router until the other copy's hash has arrived and
agreed (R313); anywhere else it goes on at once. -/
def pairGateIf (leaves : Bool) (s : State) (a data op : Nat) (k : State → Out) : Out :=
  if s.core.twin.isSome && leaves then
    let x := s.ctx s.cur
    let h := Config.pairHash a data op
    if x.pairOk ∧ x.pairHash = some h then k (s.setCtx s.cur { x with pairOk := false, pairHash := none })
    else waitFor (s.setCtx s.cur { x with pairOk := false, pairHash := some h }) .pair
  else k s

/-- The gate for a request to an address. -/
def pairGate (s : State) (a data op : Nat) (k : State → Out) : Out := pairGateIf (leavesCore s a) s a data op k

/-! ### The shapes -/

/-- How many bytes of a load are read at once: VLDB, whose opcode is 8, reads each byte on its own (R179). -/
def grainOf (op : Nat) : Nat := if op = 8 then 1 else 8

/-- Memory is read after every check, and its value goes on. -/
def loadAt (s : State) (a size op : Nat) (k : Nat → State → Out) : Out :=
  Chk.run s (checkRead s a size) fun runs =>
    pairGate s a 0 op fun s =>
      let t := loadAs s plainMode (grainOf op) runs
      k (leNat t.1) t.2

/-- Bytes are written after every check. -/
def storeAt (s : State) (a size x op : Nat) (k : State → Out) : Out :=
  Chk.run s (checkWrite s a size) fun runs =>
    pairGate s a x op fun s => k (ctxStore s runs (leBytes size x))

/-- The alignment test of an access (R173). -/
def aligned (s : State) (a size : Nat) (k : Out) : Out :=
  if a % size = 0 then k else fault s { cls := .misaligned, addr := BitVec.ofNat 64 a }

/-- A zero-extended load value. -/
def zextW (_size x : Nat) : Word := BitVec.ofNat 64 x

/-- A sign-extended load value. -/
def sextW (size x : Nat) : Word := wrapW (sInt (8 * size) x)

/-- A mode 0 scalar load (R171). -/
def loadG (s : State) (x : MemG) (size op : Nat) (ext : Nat → Nat → Word) : Out :=
  withRegs s [x.base] [x.reg]
    (let a := memAddr (getG s s.cur x.base) x.disp.toInt size
     aligned s a size (loadAt s a size op fun v s => .next (retire (setG s s.cur x.reg (ext size v)) s.cur 4)))

/-- A mode 0 scalar store (R171). -/
def storeG (s : State) (x : MemG) (size op : Nat) : Out :=
  withRegs s [x.base] [x.reg]
    (let a := memAddr (getG s s.cur x.base) x.disp.toInt size
     aligned s a size (withData s [x.reg] (storeAt s a size ((getG s s.cur x.reg).toNat % 2 ^ (8 * size)) op fun s =>
       .next (retire s s.cur 4))))

/-- A mode 0 vector load with alignment `al` (R171, R173); destination codes 1 to 3 are refused. -/
def loadV (s : State) (x : MemV) (al op : Nat) : Out :=
  withRegs s [x.base] []
    (let a := memAddr (getG s s.cur x.base) x.disp.toInt 32
     aligned s a al
       (if !goodDest x.reg then faultCls s .illegalOperand
        else loadAt s a 32 op fun v s => commitV s x.reg (BitVec.ofNat 256 v) 4))

/-- A short load (R90). -/
def loadS (s : State) (x : SsArgs) (size op : Nat) : Out :=
  withRegs s [x.gs] [x.gd]
    (let a := (getG s s.cur x.gs).toNat
     aligned s a size (loadAt s a size op fun v s => .next (retire (setG s s.cur x.gd (sextW size v)) s.cur 2)))

/-- A short store of gd at the address in gs (R90). -/
def storeS (s : State) (x : SsArgs) (size op : Nat) : Out :=
  withRegs s [x.gs] [x.gd]
    (let a := (getG s s.cur x.gs).toNat
     aligned s a size (withData s [x.gd] (storeAt s a size ((getG s s.cur x.gd).toNat % 2 ^ (8 * size)) op fun s =>
       .next (retire s s.cur 2))))

/-! ### Mode 0 (R171) -/

def execLb (x : MemG) (s : State) : Out := loadG s x 1 0 sextW
def execLbn (x : MemG) (s : State) : Out := loadG s x 1 1 zextW
def execLh (x : MemG) (s : State) : Out := loadG s x 2 2 sextW
def execLhn (x : MemG) (s : State) : Out := loadG s x 2 3 zextW
def execLw (x : MemG) (s : State) : Out := loadG s x 4 4 sextW
def execLwn (x : MemG) (s : State) : Out := loadG s x 4 5 zextW
def execLx (x : MemG) (s : State) : Out := loadG s x 8 6 zextW
def execVld (x : MemV) (s : State) : Out := loadV s x 32 7
def execVldb (x : MemV) (s : State) : Out := loadV s x 1 8
def execSb (x : MemG) (s : State) : Out := storeG s x 1 16
def execSh (x : MemG) (s : State) : Out := storeG s x 2 17
def execSw (x : MemG) (s : State) : Out := storeG s x 4 18
def execSx (x : MemG) (s : State) : Out := storeG s x 8 19

/-- VST (R171). -/
def execVst (x : MemV) (s : State) : Out :=
  withRegs s [x.base] []
    (let a := memAddr (getG s s.cur x.base) x.disp.toInt 32
     aligned s a 32 (withVecs s [x.reg] (storeAt s a 32 (getV s s.cur x.reg).toNat 20 fun s => .next (retire s s.cur 4))))

/-- The masked store of VSTM at an address (R172). -/
def storeMaskAt (s : State) (a : Nat) (v : Vec) (act : Nat → Bool) : Out :=
  Chk.run s (checkWrite s a 32) fun runs =>
    pairGate s a v.toNat 21 fun s =>
      .next (retire (ctxStoreMasked s ((runs.headD (0, 0)).1) (leBytes 32 v.toNat) act) s.cur 4)

/-- Whether a VSTM's mask selects no byte; it then writes nothing and raises none of the faults of R174 (R172). -/
def noByte (s : State) (m : Fin 8) : Bool := (List.range 32).all fun j => !maskBit s s.cur m j

/-- VSTM (R172). -/
def execVstm (x : VstmArgs) (s : State) : Out :=
  withRegs s [x.base] [] (withVecs s (maskCode x.mask)
    (if noByte s x.mask then .next (retire s s.cur 4) else
      let a := memAddr (getG s s.cur x.base) x.disp.toInt 32
      aligned s a 32 (withVecs s [x.reg] (storeMaskAt s a (getV s s.cur x.reg) fun j => maskBit s s.cur x.mask j))))

/-! ### Descriptors (R176) -/

/-- LDESC: the block's descriptor, whatever its value; 0x0009 for accumulators and borders, 0 for the harvest apertures
and the host window (R176). Broken parity found on reading poisons the block (R60). -/
def execLdesc (x : MemG) (s : State) : Out :=
  withRegs s [x.base] [x.reg]
    (let a := memAddr (getG s s.cur x.base) x.disp.toInt 64
     aligned s a 64 (Chk.run s (checkRange s a 64 false) fun r =>
       Chk.run s (locate s r a 64 false) fun runs => Chk.run s (peerTest s a) fun _ =>
         pairGate s a 0 22 fun s =>
           let loc := (runs.headD (0, 0)).1
           match r with
           | .acc | .border => .next (retire (setG s s.cur x.reg 0x0009) s.cur 4)
           | .harvest | .host => .next (retire (setG s s.cur x.reg 0) s.cur 4)
           | _ =>
             let s := if s.badParity.contains (loc / 64) then setDesc s (loc / 64) (descOf s (loc / 64) ||| 0xFF) else s
             .next (retire (setG s s.cur x.reg ((descOf s (loc / 64)).zeroExtend 64)) s.cur 4)))

/-- SDESC (R176). -/
def execSdesc (x : MemG) (s : State) : Out :=
  withRegs s [x.base] [x.reg]
    (let a := memAddr (getG s s.cur x.base) x.disp.toInt 64
     let d := getG s s.cur x.reg
     aligned s a 64 (withData s [x.reg]
       (if 0x10000 ≤ d.toNat ∨ fmtAssigned (d.toNat % 256) = false then faultCls s .illegalOperand else
         Chk.run s (checkRange s a 64 true) fun r =>
           if r = .host then fault s { cls := .protFault, addr := BitVec.ofNat 64 a } else
             Chk.run s (locate s r a 64 true) fun runs => Chk.run s (peerTest s a) fun _ =>
               pairGate s a d.toNat 23 fun s =>
                 .next (retire (setDesc s ((runs.headD (0, 0)).1 / 64) (d.truncate 16)) s.cur 4))))

/-! ### Mode 1: handles (R40, R177) -/

/-- A handle-mode load: its operand tests, then the sleep until enough slots are filled, then the access at the address
it forms, counted from the tail (R40, R177); it reads every byte that an engine has written there (R203). -/
def handleRead (s : State) (h : Fin 8) (off need size al op : Nat) (k : Nat → State → Out) : Out :=
  Chk.run s (handleTests s h (32 * off) need size) fun x =>
    if x.fill < need then waitFor s (.handle h false need) else
      let a := handleAddr x x.tail (32 * off)
      aligned s a al (loadAt (slotsSeen s (.ctx s.cur) a size) a size op k)

/-- A handle-mode store: as a load, but for free slots and counted from the head (R40, R177). -/
def handleWrite (s : State) (h : Fin 8) (off need size : Nat) (k : Nat → Out) : Out :=
  Chk.run s (handleTests s h (32 * off) need size) fun x =>
    if x.count - x.fill < need then waitFor s (.handle h true need) else
      let a := handleAddr x x.head (32 * off)
      aligned s a size (k a)

/-- A handle-mode scalar load (R177). -/
def hloadG (s : State) (x : HMemG) (size op : Nat) (ext : Nat → Nat → Word) : Out :=
  withRegs s [] [x.reg]
    (handleRead s x.h x.off.val (x.need.val + 1) size size op fun v s =>
      .next (retire (setG s s.cur x.reg (ext size v)) s.cur 4))

/-- A handle-mode vector load (R177); destination codes 1 to 3 are refused before it sleeps. -/
def hloadV (s : State) (x : HMemV) (al op : Nat) : Out :=
  Chk.run s (handleTests s x.h (32 * x.off.val) (x.need.val + 1) 32) fun _ =>
    if !goodDest x.reg then faultCls s .illegalOperand else
      handleRead s x.h x.off.val (x.need.val + 1) 32 al op fun v s => commitV s x.reg (BitVec.ofNat 256 v) 4

/-- A handle-mode scalar store (R177). -/
def hstoreG (s : State) (x : HMemG) (size op : Nat) : Out :=
  withRegs s [] [x.reg]
    (handleWrite s x.h x.off.val (x.need.val + 1) size fun a => withData s [x.reg]
      (storeAt s a size ((getG s s.cur x.reg).toNat % 2 ^ (8 * size)) op fun s => .next (retire s s.cur 4)))

def execLbHandle (x : HMemG) (s : State) : Out := hloadG s x 1 0 sextW
def execLbnHandle (x : HMemG) (s : State) : Out := hloadG s x 1 1 zextW
def execLhHandle (x : HMemG) (s : State) : Out := hloadG s x 2 2 sextW
def execLhnHandle (x : HMemG) (s : State) : Out := hloadG s x 2 3 zextW
def execLwHandle (x : HMemG) (s : State) : Out := hloadG s x 4 4 sextW
def execLwnHandle (x : HMemG) (s : State) : Out := hloadG s x 4 5 zextW
def execLxHandle (x : HMemG) (s : State) : Out := hloadG s x 8 6 zextW
def execVldHandle (x : HMemV) (s : State) : Out := hloadV s x 32 7
def execVldbHandle (x : HMemV) (s : State) : Out := hloadV s x 1 8
def execSbHandle (x : HMemG) (s : State) : Out := hstoreG s x 1 16
def execShHandle (x : HMemG) (s : State) : Out := hstoreG s x 2 17
def execSwHandle (x : HMemG) (s : State) : Out := hstoreG s x 4 18
def execSxHandle (x : HMemG) (s : State) : Out := hstoreG s x 8 19

/-- VST in handle mode (R177). -/
def execVstHandle (x : HMemV) (s : State) : Out :=
  handleWrite s x.h x.off.val (x.need.val + 1) 32 fun a => withVecs s [x.reg]
    (storeAt s a 32 (getV s s.cur x.reg).toNat 20 fun s => .next (retire s s.cur 4))

/-- VSTM in handle mode (R172, R177). -/
def execVstmHandle (x : VstmHArgs) (s : State) : Out :=
  withVecs s (maskCode x.mask)
    (if noByte s x.mask then .next (retire s s.cur 4) else
      handleWrite s x.h x.off.val (x.need.val + 1) 32 fun a => withVecs s [x.reg]
        (storeMaskAt s a (getV s s.cur x.reg) fun j => maskBit s s.cur x.mask j))

/-! ### SS loads and stores (R90, R135) -/

def execLw16 (x : SsArgs) (s : State) : Out := loadS s x 4 4
def execLx16 (x : SsArgs) (s : State) : Out := loadS s x 8 6
def execSw16 (x : SsArgs) (s : State) : Out := storeS s x 4 18
def execSx16 (x : SsArgs) (s : State) : Out := storeS s x 8 19

end Sys2Proof.Machine
end

