-- ==== Sys2Proof/Machine/Atomic.lean ====
section
/-! DEFINITION. The AT class: ordered and atomic accesses and full/empty words (R180 to R187), and what their orders and scopes do
(R206 to R212; log 8). -/

namespace Sys2Proof.Machine

/-- Bytes of an AT access (R100). -/
def AtSize.bytes (z : AtSize) : Nat :=
  match z with
  | .w => 4
  | .x => 8

/-- A value as gd gets it: sign-extended for .w (R181, R185). -/
def atValue (z : AtSize) (x : Nat) : Word := sextW (AtSize.bytes z) x

/-- The data operand: gb, or WIDE's payload sign-extended to the access size (R94, R180). -/
def atData (s : State) (z : AtSize) (gb : GReg) : Nat :=
  (match widePayload s with
    | some p => (p.signExtend 64).toNat
    | none => (getG s s.cur gb).toNat) % 2 ^ (8 * AtSize.bytes z)

/-- Under WIDE gb must be 0, or the instruction is ILLEGAL_INSN (R94). -/
def atWide (s : State) (gb : GReg) (k : Out) : Out :=
  if (widePayload s).isSome && !decide (gb = 0) then faultCls s .illegalInsn else k

/-- The operand tests of an AT access: alignment, then what R183 refuses in the host window and for full/empty
opcodes. -/
def atTests (s : State) (a n : Nat) (host fe : Bool) (k : Out) : Out :=
  aligned s a n
    (let r := regionOf a
     if r = .host ∧ host = false then faultCls s .illegalOperand
     else if fe && !decide (r = .spad) && !decide (r = .gwin) then faultCls s .illegalOperand
     else k)

/-! ### Orders and scopes (R206 to R212) -/

/-- Whether a release of these scopes waits until earlier writes are acknowledged: at pod scope, or where its storage scope includes
the host (R189, R212). -/
def waitsAcks (z : Storage) (a : AgentScope) : Bool := decide (a = .pod) || decide (z = .host) || decide (z = .all)

/-- A release that waits for acknowledgements (R212): it stalls while any is outstanding. -/
def ackGate (s : State) (release : Bool) (z : Storage) (a : AgentScope) (k : Out) : Out :=
  if release && waitsAcks z a && s.unacked then waitFor s .acks else k

/-- An access to the host window waits for its PCIe completion, which HOST_COMPLETION delivers (R183). -/
def hostReply (s : State) (a : Nat) (k : State → Out) : Out :=
  if regionOf a = .host then
    let x := s.ctx s.cur
    if x.expired then k (s.setCtx s.cur { x with expired := false }) else waitFor s (.host (BitVec.ofNat 64 a))
  else k s

/-- Whether an access at a location acts as a release (R206, R208). -/
def releasesAt (m : AtMode) (loc : Nat) : Bool := Order.releases m.order && inStorage m.storage loc

/-- A read-modify-write of the word at ga: `f old` is the new value, or none where it writes nothing; it then is a read alone, at its
acquire part (R181, R206). `seen` is the value that a failing compare finds where it passes over a write: any that a load may return
(R211; log 8). -/
def rmw (s : State) (x : AtArgs) (host : Bool) (reads : List GReg) (op : Nat) (f : Nat → Option Nat) : Out :=
  let n := AtSize.bytes x.m.size
  let c := s.cur
  withRegs s [x.ga] ([x.gb, x.gd])
    (let a := (getG s s.cur x.ga).toNat
     atTests s a n host false (withData s ([x.gb] ++ reads)
       (Chk.run s (checkAtomic s a n) fun runs =>
         let loc := (runs.headD (0, 0)).1
         let read : AtMode := { x.m with order := Order.readPart x.m.order }
         let fails := (f (leNat (loadAs s read 8 [(loc, n)]).1)).isNone || (f (readLoc s loc n)).isNone
         ackGate s (!fails && releasesAt x.m loc) x.m.storage x.m.agent
         (pairGate s a (atData s x.m.size x.gb) op fun s => hostReply s a fun s =>
           let seen := loadAs s read 8 [(loc, n)]
           let old := readLoc s loc n
           match f (leNat seen.1), f old with
           | none, _ => .next (retire (setG seen.2 c x.gd (atValue x.m.size (leNat seen.1))) c 4)
           | some _, none => .next (retire (setG (readNewest s (.ctx c) read loc n) c x.gd (atValue x.m.size old)) c 4)
           | some _, some v =>
             let s := ctxStoreAs (readNewest s (.ctx c) x.m loc n) x.m true [(loc, n)] (leBytes n v)
             .next (retire (setG s c x.gd (atValue x.m.size old)) c 4)))))

/-- A read-modify-write that takes WIDE. -/
def rmwData (s : State) (x : AtArgs) (host : Bool) (op : Nat) (f : Nat → Nat → Nat) : Out :=
  atWide s x.gb (rmw s x host [] op fun old => some (f old (atData s x.m.size x.gb)))

/-- LDO (R181): it reads as a load does, at its order (R208, R211). -/
def execLdo (x : AtRdArgs) (s : State) : Out :=
  let n := AtSize.bytes x.m.size
  withRegs s [x.ga] [x.gd]
    (let a := (getG s s.cur x.ga).toNat
     atTests s a n true false
       (Chk.run s (checkRead s a n) fun runs =>
         pairGate s a 0 32 fun s => hostReply s a fun s =>
           let t := loadAs s x.m 8 runs
           .next (retire (setG t.2 t.2.cur x.gd (atValue x.m.size (leNat t.1))) t.2.cur 4)))

/-- STO (R181). -/
def execSto (x : AtWrArgs) (s : State) : Out :=
  let n := AtSize.bytes x.m.size
  atWide s x.gb (withRegs s [x.ga] [x.gb]
    (let a := (getG s s.cur x.ga).toNat
     atTests s a n true false (withData s [x.gb]
       (Chk.run s (checkWrite s a n) fun runs => ackGate s (releasesAt x.m (runs.headD (0, 0)).1) x.m.storage x.m.agent
         (pairGate s a (atData s x.m.size x.gb) 33 fun s =>
           .next (retire (ctxStoreAs s x.m false runs (leBytes n (atData s x.m.size x.gb))) s.cur 4))))))

def execSwap (x : AtArgs) (s : State) : Out := rmwData s x true 34 fun _ b => b

/-- CAS: it writes only when the word holds the expected value (R181). -/
def execCas (x : AtArgs) (s : State) : Out :=
  rmw s x true [x.gd] 35 fun old =>
    if old = (getG s s.cur x.gd).toNat % 2 ^ (8 * AtSize.bytes x.m.size)
    then some ((getG s s.cur x.gb).toNat % 2 ^ (8 * AtSize.bytes x.m.size)) else none

def execFadd (x : AtArgs) (s : State) : Out :=
  rmwData s x true 36 fun old b => wrapN (8 * AtSize.bytes x.m.size) (old + b)
def execFand (x : AtArgs) (s : State) : Out := rmwData s x false 37 fun old b => old &&& b
def execAtFor (x : AtArgs) (s : State) : Out := rmwData s x false 38 fun old b => old ||| b
def execFxor (x : AtArgs) (s : State) : Out := rmwData s x false 39 fun old b => old ^^^ b
def execFmin (x : AtArgs) (s : State) : Out :=
  rmwData s x false 40 fun old b => laneMin (.int (8 * AtSize.bytes x.m.size) true) old b
def execFmax (x : AtArgs) (s : State) : Out :=
  rmwData s x false 41 fun old b => laneMax (.int (8 * AtSize.bytes x.m.size) true) old b
def execFminn (x : AtArgs) (s : State) : Out := rmwData s x false 42 fun old b => min old b
def execFmaxn (x : AtArgs) (s : State) : Out := rmwData s x false 43 fun old b => max old b

/-- FADDF: one RNE addition, f32 for .w and f64 for .x (R181). -/
def execFaddf (x : AtArgs) (s : State) : Out :=
  rmw s x false [] 44 fun old =>
    some (laneAdd (.flt (match x.m.size with | .w => .f32 | .x => .f64)) old
      ((getG s s.cur x.gb).toNat % 2 ^ (8 * AtSize.bytes x.m.size)))

/-! ### Full/empty words (R184 to R187) -/

/-- The words that an access governs (R184). -/
def feWords (loc : Nat) (z : AtSize) : List Nat :=
  match z with
  | .w => [loc / 4]
  | .x => [loc / 4, loc / 4 + 1]

/-- Whether every governed word is full. -/
def feFull (s : State) (loc : Nat) (z : AtSize) : Bool := (feWords loc z).all fun w => s.tags.contains w

/-- Whether every governed word is empty. -/
def feEmpty (s : State) (loc : Nat) (z : AtSize) : Bool := (feWords loc z).all fun w => !s.tags.contains w

/-- The granule that stands for a word's tag among the poisoned ones: a tag whose parity is broken (R311). -/
def tagGranule (w : Nat) : Nat := 0x10000 + w

/-- Tags set or cleared, with fresh parity (R311). -/
def setTags (s : State) (loc : Nat) (z : AtSize) (full : Bool) : State :=
  { s with tags := (feWords loc z).foldl (fun t w => if full then setInsert t w else setErase t w) s.tags
           poison := (feWords loc z).foldl (fun p w => setErase p (tagGranule w)) s.poison }

/-- Reading a tag whose parity is broken consumes a poisoned value (R311). -/
def tagCheck (s : State) (loc : Nat) (z : AtSize) (a : Nat) : Chk Unit :=
  demand (!(feWords loc z).any fun w => s.poison.contains (tagGranule w)) .uncorrectable (BitVec.ofNat 64 a)

/-- Whether a kind of request waits for full words. -/
def wantsFull (k : FeKind) : Bool :=
  match k with
  | .put | .tryPut | .fill => false
  | .take | .peek | .tryTake | .drain => true

/-- Whether a request's condition holds (R185). -/
def feReady (s : State) (r : FeReq) : Bool := if wantsFull r.kind then feFull s r.loc r.size else feEmpty s r.loc r.size

/-- The effect of a full/empty access on its word: value and tag together, as a write of the word (R185), which waits for its
acknowledgement where it leaves the core (R212). A value that is written back as it stands gets no fresh check bits (R311). -/
def feEffect (s : State) (kind : FeKind) (loc : Nat) (z : AtSize) (v : Nat) : State :=
  let n := AtSize.bytes z
  let out := s.unacked || decide (gwinLoc ≤ loc)
  match kind with
  | .peek => s
  | .take | .tryTake | .drain =>
    let t := store s loc (readBytes s loc n)
    setTags { t with poison := s.poison, unacked := out } loc z false
  | .put | .tryPut | .fill => setTags { store s loc (leBytes n v) with unacked := out } loc z true

/-- The checks of a request's word when it is served: its tag's parity, and, where its value is taken, the value's own checks; it may
have been poisoned since the request came (R58, R311). -/
def feChecks (s : State) (kind : FeKind) (loc : Nat) (z : AtSize) : Chk Unit :=
  (tagCheck s loc z loc).andThen fun _ => if wantsFull kind then checkRun s loc loc (AtSize.bytes z) else .ok ()

/-- An answer to another core. -/
def answer (s : State) (origin value : Nat) : State :=
  { s with mod := { s.mod with messages := s.mod.messages ++ [(origin, value)] } }

/-- What another core is answered whose request met a poisoned value: it raises UNCORRECTABLE there (R311); a number that no word
holds. -/
def poisonAnswer : Nat := 2 ^ 66

/-- The locations of a word that an access governs. -/
def feLocs (loc : Nat) (z : AtSize) : List Nat := (List.range (AtSize.bytes z)).map fun i => loc + i

/-- What a full/empty access by a context does to the order: a PEEK reads, at the acquire part of its order, the others are
read-modify-writes (R185, R206). -/
def feOrder (s : State) (c : Fin 8) (kind : FeKind) (m : AtMode) (loc : Nat) : State :=
  let n := AtSize.bytes m.size
  if kind = .peek then readNewest s (.ctx c) { m with order := Order.readPart m.order } loc n
  else noteStore (readNewest s (.ctx c) m loc n) c m true (feLocs loc m.size)

/-- A full/empty access by a context: its order, then its effect. -/
def feAct (s : State) (c : Fin 8) (kind : FeKind) (m : AtMode) (loc v : Nat) : State :=
  feEffect (feOrder s c kind m loc) kind loc m.size v

/-- A full/empty access by another core: its order, then its effect (R185, R212). -/
def feActRemote (s : State) (r : FeReq) : State :=
  let t := if r.kind = .peek then s else noteOutside s r.die r.clock r.release true (feLocs r.loc r.size)
  feEffect t r.kind r.loc r.size r.value.toNat

/-- A queued request proceeds: a context of this core gets its value and goes on after its unit; another core gets a
reply (R186). One that meets a poisoned value takes nothing: its context faults, another core is told (R311), and a block whose
descriptor is broken is poisoned (R60). -/
def feProceed (s : State) (r : FeReq) : State :=
  match feChecks s r.kind r.loc r.size, r.origin with
  | .error f, .own c _ _ => raise (s.setCtx c { s.ctx c with wait := none }) c f
  | .error f, .remote o => answer (f.block.elim s (blockFound s)) o poisonAnswer
  | .ok _, .own c rd len =>
    let old := readLoc s r.loc (AtSize.bytes r.size)
    let s := feAct s c r.kind r.mode r.loc r.value.toNat
    let s := if wantsFull r.kind then setG s c rd (atValue r.size old) else s
    let x := s.ctx c
    let s := s.setCtx c { x with wait := none, pc := x.pc + BitVec.ofNat 64 len }
    { s with core := { s.core with stepDone := s.core.stepDone || decide (s.core.stepping = some c) } }
  | .ok _, .remote o => answer (feActRemote s r) o (readLoc s r.loc (AtSize.bytes r.size))

/-- Whether a queued request may proceed: its condition holds, and its context, if it is this core's, does not sleep on a
frozen core (R186, R305). -/
def feMay (s : State) (r : FeReq) : Bool :=
  feReady s r && (match r.origin with
    | .own _ _ _ => !s.core.frozen
    | .remote _ => true)

/-- The earliest request of a word's queue whose condition holds proceeds (R186). -/
def serveOne (s : State) (loc : Nat) : Option State :=
  match s.feQueue.find? fun r => decide (r.loc = loc) && feMay s r with
  | none => none
  | some r => some (feProceed { s with feQueue := s.feQueue.erase r } r)

/-- A word's queue served until no request of it proceeds. -/
def serveWord : Nat → State → Nat → State
  | 0, s, _ => s
  | n + 1, s, loc =>
    match serveOne s loc with
    | none => s
    | some s' => serveWord n s' loc

/-- The queues of a pair's lower and upper word served, and both again until no request proceeds (R186). -/
def servePair : Nat → State → Nat → State
  | 0, s, _ => s
  | n + 1, s, base =>
    let k := s.feQueue.length
    let s' := serveWord k (serveWord k s base) (base + 4)
    if s'.feQueue.length = k then s' else servePair n s' base

/-- The queues that a change of a word's tag serves. -/
def serve (s : State) (loc : Nat) : State := servePair (s.feQueue.length + 1) s (loc / 8 * 8)

/-- Every queue served, as when a frozen core goes on (R186, R305). -/
def serveAll (s : State) : State := (s.feQueue.map fun r => r.loc).foldl serve s

/-- Requests queued for a word that wait for the same condition as a kind does. -/
def queuedAlike (s : State) (loc : Nat) (kind : FeKind) : Bool :=
  s.feQueue.any fun r => decide (r.loc = loc) && (wantsFull r.kind == wantsFull kind)

/-- Requests queued at the home router of a location (R186). -/
def queuedAtHome (s : State) (loc : Nat) : Nat :=
  (s.feQueue.filter fun r => decide (r.loc / spadSize = loc / spadSize)).length

/-- An arriving request: it proceeds at once when its condition holds and no like request is queued; otherwise it joins
the tail, if its home router has room (R186). -/
def feArrive (s : State) (r : FeReq) : Option State :=
  if feReady s r && !queuedAlike s r.loc r.kind then some (serve (feProceed s r) r.loc)
  else if queuedAtHome s r.loc < 64 then some { s with feQueue := s.feQueue ++ [r] }
  else none

/-- Whether a full/empty opcode reads the tag of its word: all but FILL and DRAIN (R185). -/
def readsTag (kind : Option FeKind) : Bool :=
  match kind with
  | some .fill | some .drain => false
  | _ => true

/-- The location of a full/empty access after all its checks; `kind` is none for FESTAT, `datas` are the registers whose values it
writes, and `writes` says whether it does more than read: a release waits for acknowledgements only then (R206, R212). -/
def feAccess (s : State) (m : AtMode) (ga : GReg) (datas : List GReg) (kind : Option FeKind) (writes : Nat → Bool) (data op : Nat)
    (k : Nat → State → Out) : Out :=
  let n := AtSize.bytes m.size
  let a := (getG s s.cur ga).toNat
  let reads := match kind with
    | none | some .peek => true
    | _ => false
  atTests s a n false true (withData s datas
    (Chk.run s (if reads then checkRead s a n else checkAtomic s a n) fun runs =>
      let loc := (runs.headD (0, 0)).1
      Chk.run s (if readsTag kind then tagCheck s loc m.size a else .ok ()) fun _ =>
        ackGate s (writes loc && releasesAt m loc) m.storage m.agent (pairGate s a data op fun s => k loc s)))

/-- A full/empty access of the current context that only reads its word: FESTAT, or a TRYTAKE or TRYPUT that fails (R185, R206). -/
def feLook (s : State) (m : AtMode) (loc : Nat) : State :=
  readNewest s (.ctx s.cur) { m with order := Order.readPart m.order } loc (AtSize.bytes m.size)

/-- TAKE, PEEK or PUT of the current context: the request arrives at its word, and the context sleeps unless it
proceeds at once (R185, R186). -/
def feWait (s : State) (kind : FeKind) (loc : Nat) (m : AtMode) (v : Nat) (rd : GReg) : Out :=
  let c := s.cur
  let start := unitStart s c
  let len := ((insnAddr s) - start).toNat + 4
  let r : FeReq := { kind := kind, loc := loc, size := m.size, value := BitVec.ofNat 64 v, origin := .own c rd len, mode := m,
                     die := 0, clock := [], release := none }
  let now := feReady s r && !queuedAlike s loc kind
  let x := s.ctx c
  let s := s.setCtx c { x with pc := start, wait := some .fullEmpty, runTimer := if now then x.runTimer else 0 }
  let s := { s with core := { s.core with unit := none } }
  match feArrive s r with
  | some s => .next s
  | none => .next s

def execTake (x : AtRdArgs) (s : State) : Out :=
  withRegs s [x.ga] [x.gd] (feAccess s x.m x.ga [] (some .take) (fun _ => true) 0 45 fun loc s => feWait s .take loc x.m 0 x.gd)

def execPeek (x : AtRdArgs) (s : State) : Out :=
  withRegs s [x.ga] [x.gd] (feAccess s x.m x.ga [] (some .peek) (fun _ => false) 0 46 fun loc s => feWait s .peek loc x.m 0 x.gd)

def execPut (x : AtWrArgs) (s : State) : Out :=
  atWide s x.gb (withRegs s [x.ga] [x.gb]
    (feAccess s x.m x.ga [x.gb] (some .put) (fun _ => true) (atData s x.m.size x.gb) 47 fun loc s =>
      feWait s .put loc x.m (atData s x.m.size x.gb) 0))

/-- Whether a TRYTAKE succeeds (R185). -/
def takeable (s : State) (z : AtSize) (loc : Nat) : Bool := feFull s loc z && !queuedAlike s loc .take

/-- Whether a TRYPUT succeeds (R185). -/
def puttable (s : State) (z : AtSize) (loc : Nat) : Bool := feEmpty s loc z && !queuedAlike s loc .put

/-- TRYTAKE: gb gets the value and gd 1, or gd gets 0 (R185). -/
def execTrytake (x : AtArgs) (s : State) : Out :=
  withRegs s [x.ga] [x.gd, x.gb] (feAccess s x.m x.ga [] (some .tryTake) (takeable s x.m.size) 0 48 fun loc s =>
    if takeable s x.m.size loc then
      let v := readLoc s loc (AtSize.bytes x.m.size)
      let s := serve (feAct s s.cur .take x.m loc 0) loc
      .next (retire (setG (setG s s.cur x.gb (atValue x.m.size v)) s.cur x.gd 1) s.cur 4)
    else .next (retire (setG (feLook s x.m loc) s.cur x.gd 0) s.cur 4))

/-- TRYPUT (R185). -/
def execTryput (x : AtArgs) (s : State) : Out :=
  atWide s x.gb (withRegs s [x.ga] [x.gb, x.gd]
    (feAccess s x.m x.ga [x.gb] (some .tryPut) (puttable s x.m.size) (atData s x.m.size x.gb) 49 fun loc s =>
      if puttable s x.m.size loc then
        let s := serve (feAct s s.cur .put x.m loc (atData s x.m.size x.gb)) loc
        .next (retire (setG s s.cur x.gd 1) s.cur 4)
      else .next (retire (setG (feLook s x.m loc) s.cur x.gd 0) s.cur 4)))

/-- FILL (R185). -/
def execFill (x : AtWrArgs) (s : State) : Out :=
  atWide s x.gb (withRegs s [x.ga] [x.gb]
    (feAccess s x.m x.ga [x.gb] (some .fill) (fun _ => true) (atData s x.m.size x.gb) 50 fun loc s =>
      .next (retire (serve (feAct s s.cur .put x.m loc (atData s x.m.size x.gb)) loc) s.cur 4)))

/-- DRAIN: a write of the word with its value unchanged, and the empty tag (R185). -/
def execDrain (x : AtAddrArgs) (s : State) : Out :=
  withRegs s [x.ga] [] (feAccess s x.m x.ga [] (some .drain) (fun _ => true) 0 51 fun loc s =>
    .next (retire (serve (feAct s s.cur .take x.m loc 0) loc) s.cur 4))

/-- FESTAT (R185). -/
def execFestat (x : AtRdArgs) (s : State) : Out :=
  withRegs s [x.ga] [x.gd] (feAccess s x.m x.ga [] none (fun _ => false) 0 52 fun loc s =>
    let bit (w : Nat) : Nat := if s.tags.contains w then 1 else 0
    let v := match x.m.size with
      | .w => bit (loc / 4)
      | .x => bit (loc / 4) + 2 * bit (loc / 4 + 1)
    .next (retire (setG (feLook s x.m loc) s.cur x.gd (BitVec.ofNat 64 v)) s.cur 4))

/-! ### Requests of other cores (R186) -/

/-- What a remote TRYTAKE or TRYPUT that fails is answered, and what a sealed core answers: numbers that no word holds. -/
def failReply : Nat := 2 ^ 65

/-- The error reply of a sealed or fenced core (R187, R311, R320). -/
def errorAnswer : Nat := 2 ^ 64

/-! ### Clocks (R212) and retired identifiers (R322) -/

/-- How many writes of a die this core's die has applied (R212). -/
def appliedOf (s : State) (die : Nat) : Nat := s.mod.applied.toList.getD die 0

/-- Whether all that a clock names has been applied here (R212). -/
def clockSeen (s : State) (clock : List Nat) : Bool := (List.range 12).all fun k => decide (clock.getD k 0 ≤ appliedOf s k)

/-- Whether every write that happens before a write has been applied here, as the write's clock says (R212). A component counts the
writes of a die that reach this core's die, so that a write is the next of its die, and what its die had seen of the others has been
seen here; this core's own writes are counted nowhere. An agent outside the twelve dies (number 12 and above: the host, another
module) has no component of its own (log 83). -/
def clockMet (s : State) (die : Nat) (clock : List Nat) : Bool :=
  (List.range 12).all fun k =>
    if k = die then decide (clock.getD k 0 = appliedOf s k + 1) else decide (clock.getD k 0 ≤ appliedOf s k)

/-- One more write of a die counted (R212). -/
def countWrite (s : State) (die : Nat) : State :=
  if h : die < 12 then { s with mod := { s.mod with applied := s.mod.applied.set die (s.mod.applied[die] + 1) h } } else s

/-- Whether what arrives bears a retired job's identifier and is dropped (R322). -/
def dropped (s : State) (job : Option Nat) : Bool := job.any fun j => (jobEntry s j).isNone

/-- The words at which another core's request can arrive: this core's own, and, for requests of this core's contexts that
wait there, a peer's (R186). -/
def feWord (loc : Nat) : Bool :=
  decide (loc < spadSize) || (decide (gwinLoc ≤ loc) && decide (loc < gwinLoc + 2 ^ 20 * spadSize))

/-- Another core's request as its word has it. -/
def remoteReq (r : RemoteFe) : FeReq :=
  { kind := r.kind, loc := r.word, size := r.size, value := r.value, origin := .remote r.origin,
    mode := { plainMode with size := r.size }, die := r.die, clock := r.clock, release := r.release }

/-- What another core's request does at its word (R186): FILL and DRAIN act at once; TRYTAKE and TRYPUT act or fail at once; one that
meets a poisoned value is told so (R311), and a block whose descriptor is broken is poisoned (R60); a further request than the home
router holds stays in its requester's router. -/
def feServe (s : State) (r : RemoteFe) : Option State :=
  let act (s : State) : State := serve (feActRemote s (remoteReq r)) r.word
  match r.kind, feChecks s r.kind r.word r.size with
  | .fill, _ | .drain, _ => some (act s)
  | .tryTake, .error f | .tryPut, .error f => some (answer (f.block.elim s (blockFound s)) r.origin poisonAnswer)
  | .tryTake, .ok _ =>
    if takeable s r.size r.word then some (answer (act s) r.origin (readLoc s r.word (AtSize.bytes r.size)))
    else some (answer s r.origin failReply)
  | .tryPut, .ok _ => if puttable s r.size r.word then some (answer (act s) r.origin 1) else some (answer s r.origin failReply)
  | .take, _ | .peek, _ | .put, _ =>
    if (feWords r.word r.size).any fun w => s.poison.contains (tagGranule w) then some (answer s r.origin poisonAnswer) else
    feArrive s (remoteReq r)

/-- Whether a word is that of a core that answers with an error reply: this core, sealed or fenced, or a sealed peer (R187, R311, R320). -/
def wordSealed (s : State) (loc : Nat) : Bool :=
  if loc < spadSize then s.core.sealed || s.core.fenced else s.core.sealedPeers.contains ((loc - gwinLoc) / spadSize)

/-- FE_REQUEST_ARRIVAL: another core's request at a word of this core or of a peer, once every write that happens before it has been
applied (R186, R212); a sealed or fenced core answers with an error reply (R187, R311, R320), and one of a retired job is dropped
(R322). All but a PEEK write their word (R185). -/
def execFeRequestArrival (r : RemoteFe) (s : State) : Out :=
  if !feWord r.word || !(if r.kind = .peek then clockSeen s r.clock else clockMet s r.die r.clock) then .refused .eventNotEnabled
  else
    let t := if r.kind = .peek then s else countWrite s r.die
    if dropped s r.job then .next t
    else if wordSealed s r.word then .next (answer t r.origin errorAnswer)
    else match feServe t r with
      | some s => .next s
      | none => .refused .eventNotEnabled

end Sys2Proof.Machine
end

