-- ==== Sys2Proof/Machine/Branch.lean ====
section
/-! DEFINITION. Branches, jumps, NOP and YIELD (R91, R136 to R141). -/

namespace Sys2Proof.Machine

/-- A conditional branch of length 4 (R136). -/
def branch (s : State) (x : BrArgs) (cond : Word → Word → Bool) : Out :=
  withRegs s [x.ga, x.gb] []
    (if cond (getG s s.cur x.ga) (getG s s.cur x.gb) then
       .next (retireTo s s.cur (branchTarget (insnAddr s) x.disp.toInt))
     else .next (retire s s.cur 4))

/-- A short branch on one register (R91, R139). -/
def branchS (s : State) (x : SbArgs) (cond : Word → Bool) : Out :=
  withRegs s [x.gs] []
    (if cond (getG s s.cur x.gs) then .next (retireTo s s.cur (branchTarget (insnAddr s) x.disp.toInt))
     else .next (retire s s.cur 2))

def execBeqz (x : SbArgs) (s : State) : Out := branchS s x fun a => decide (a = 0)
def execBnez (x : SbArgs) (s : State) : Out := branchS s x fun a => decide (a ≠ 0)
def execBltz (x : SbArgs) (s : State) : Out := branchS s x fun a => ltS a 0

/-- BRA (R91). -/
def execBra (disp : BitVec 7) (s : State) : Out :=
  .next (retireTo s s.cur (branchTarget (insnAddr s) disp.toInt))

def execBeq (x : BrArgs) (s : State) : Out := branch s x fun a b => decide (a = b)
def execBne (x : BrArgs) (s : State) : Out := branch s x fun a b => decide (a ≠ b)
def execBlt (x : BrArgs) (s : State) : Out := branch s x ltS
def execBge (x : BrArgs) (s : State) : Out := branch s x fun a b => !ltS a b
def execBltn (x : BrArgs) (s : State) : Out := branch s x ltN
def execBgen (x : BrArgs) (s : State) : Out := branch s x fun a b => !ltN a b

/-- JAL (R137). -/
def execJal (disp : BitVec 20) (link : GReg) (s : State) : Out :=
  let pc := insnAddr s
  withRegs s [] [link] (.next (retireTo (setG s s.cur link (pc + 4)) s.cur (branchTarget pc disp.toInt)))

/-- JALR: base is read before link is written; an odd base is MISALIGNED and nothing is written (R137). -/
def execJalr (base link : GReg) (s : State) : Out :=
  withRegs s [base] [link]
    (let t := getG s s.cur base
     if t.getLsbD 0 then fault s { cls := .misaligned, addr := t }
     else .next (retireTo (setG s s.cur link (insnAddr s + 4)) s.cur t))

/-- NOP (R141). -/
def execNop (s : State) : Out := .next (retire s s.cur 2)

/-! ### Yielding (R25, R26, R141, R314) -/

/-- Whether a context is live, awake, running and not parked (R24, R314). -/
def awake (s : State) (c : Fin 8) : Bool :=
  let x := s.ctx c
  x.live && x.wait.isNone && x.parked.isNone && !x.stopped

/-- The contexts that must issue before the current one issues again (R26). -/
def owing (s : State) : List (Fin 8) := slots.filter fun c => !decide (c = s.cur) && awake s c

/-- What retiring YIELD or YIELDX does besides advancing: the run timer restarts (R320), the turn passes (R26), and the
context parks with everything live while a pre-emption request is pending (R314). -/
def yieldTurn (s : State) : State :=
  let c := s.cur
  let x := s.ctx c
  s.setCtx c { x with owed := owing s, runTimer := 0, parked := if s.core.preempt then some .yielded else x.parked }

/-- YIELD (R141). -/
def execYield (s : State) : Out := .next (yieldTurn (retire s s.cur 2))

/-! ### The forms that precede an instruction (R93) -/

/-- The unit that the current context has begun, or a new one at its pc. -/
def openUnit (s : State) : UnitForm :=
  match s.core.unit with
  | some u => u
  | none => { start := insnAddr s, triple := false, wide := none }

/-- A form before the instruction is taken into the unit; the next step goes on with the unit. -/
def extendUnit (s : State) (u : UnitForm) : State :=
  let x := s.ctx s.cur
  let s := s.setCtx s.cur { x with pc := x.pc + 2 }
  { s with core := { s.core with unit := some u } }

/-- TRIPLE; a second one is ILLEGAL_PREFIX (R93). -/
def execTriple (s : State) : Out :=
  let u := openUnit s
  if u.triple then faultCls s .illegalPrefix else .next (extendUnit s { u with triple := true })

/-- WIDE; a second one is ILLEGAL_PREFIX (R93). -/
def execWide (p : BitVec 10) (s : State) : Out :=
  let u := openUnit s
  if u.wide.isSome then faultCls s .illegalPrefix else .next (extendUnit s { u with wide := some p })

/-- A parcel or word that is no instruction (R104). -/
def execUnassignedEncoding (w : BitVec 32) (s : State) : Out :=
  faultCls (s.setCtx s.cur { s.ctx s.cur with insn := w }) .illegalInsn

end Sys2Proof.Machine
end

