-- ==== Sys2Proof/Machine/Jobs.lean ====
section
/-! DEFINITION. Engine jobs: status words (R35 to R37), the job queue (R14, R38), what an engine may reach and what it
meets there (R58, R204, R222, R280, R290, R356), and slots pushed into a handle (R41). -/

namespace Sys2Proof.Machine

/-! ### Status words (R36, R37) -/

/-- A status code's number (R37). -/
def StatusCode.num (c : StatusCode) : Nat :=
  match c with
  | .ok => 0
  | .page | .pageAt _ => 1
  | .prot => 2
  | .linkLost => 3
  | .poison => 4
  | .boltFixed => 5
  | .boltFail => 6
  | .cancelled => 7
  | .mapLost => 8
  | .notAssociative => 9
  | .badGrammar => 10
  | .capReject => 11
  | .queueFull => 12
  | .badDesc => 13
  | .lateEvents => 14
  | .notBound => 15

/-- A code as a status word states it. -/
def StatusCode.plain (c : StatusCode) : StatusCode :=
  match c with
  | .pageAt _ => .page
  | c => c

/-- The status code of a number below 16. -/
def statusOfNum (n : Nat) : StatusCode :=
  match n with
  | 0 => .ok
  | 1 => .page
  | 2 => .prot
  | 3 => .linkLost
  | 4 => .poison
  | 5 => .boltFixed
  | 6 => .boltFail
  | 7 => .cancelled
  | 8 => .mapLost
  | 9 => .notAssociative
  | 10 => .badGrammar
  | 11 => .capReject
  | 12 => .queueFull
  | 13 => .badDesc
  | 14 => .lateEvents
  | _ => .notBound

/-- The error bit of a code (R37). -/
def StatusCode.isErr (c : StatusCode) : Bool :=
  match c with
  | .ok | .boltFixed | .lateEvents => false
  | _ => true

/-- The unit number of an engine (R36). -/
def Engine.unitNum (e : Engine) : Nat :=
  match e with
  | .tile => 1
  | .copy => 2
  | .grammar => 3
  | .reef => 4
  | .neuron => 5

/-- The engine that runs a command. -/
def cmdEngine (c : Cmd) : Engine :=
  match c with
  | .tld _ | .tst _ | .tmma _ | .twld _ | .tcbt | .tzero _ | .tscale _ | .tvfy _ | .trem | .tcap | .tcfg => .tile
  | .cpy _ | .cgather | .cscatter | .cred _ | .cqput => .copy
  | .gbind _ | .geval _ | .glen _ | .gspine _ _ | .gocc _ _ | .gunf _ _ | .gloc _ | .glook _ | .grelease _ => .grammar
  | .rfmatch _ | .rfmerge _ | .rfshake _ | .rflogs _ | .rffree _ => .reef
  | .nbcfg | .nbpost | .nbadv | .nbrd | .nbwr | .nbspk => .neuron

/-- A status word (R36). -/
def statusWord (e : Engine) (c : StatusCode) (count : Nat) : Word :=
  BitVec.ofNat 64 (2 ^ 63 + (if c.isErr then 2 ^ 62 else 0) + c.num * 2 ^ 56 + e.unitNum * 2 ^ 48 + count % 2 ^ 48)

/-! ### Enqueuing (R35, R38) -/

/-- The handle that a command reaches (R234, R235, R278). -/
def cmdHandle (c : Cmd) (a b : Word) : Option (Fin 8) :=
  match c with
  | .cpy x => if x.useH then some x.h else none
  | .tst _ => if b.getLsbD 32 then some (Fin.ofNat 8 a.toNat) else none
  | .tmma x => if x.h then some (Fin.ofNat 8 a.toNat) else none
  | _ => none

/-- The length of the record or descriptor that a job reads at its start from the issuing core's scratchpad (R244, R257, R273). -/
def recordLen (c : Cmd) : Nat :=
  match c with
  | .cpy _ | .cgather | .cscatter | .cred _ | .rfmatch _ | .rfmerge _ | .rfshake _ => 32
  | .gspine _ _ | .gocc _ _ | .gunf _ _ | .gloc _ | .trem => 32
  | _ => 0

/-- Where that record lies: at the value of ga, and TREM's at that of gb. -/
def recordAddr (c : Cmd) (a b : Word) : Nat :=
  match c with
  | .trem => b.toNat
  | _ => a.toNat

/-- A job as it enters the queue, with its record as it stands; a predecessor that has ended with an error cancels it at once (R38). -/
def newJob (s : State) (gs : GReg) (cmd : Cmd) (a b : Word) : Job :=
  let preds := (s.ctx s.cur).deps
  { id := s.clu.nextJob, ctx := s.cur, sreg := gs, cmd := cmd, word := (s.ctx s.cur).insn, a := a, b := b,
    gamma := s.core.gamma.truncate 32, tolWide := s.core.tolWide.toNat, tolNarrow := s.core.tolNarrow.toNat,
    preds := preds, started := false, done := 0, resume := [], record := readBytes s (recordAddr cmd a b) (recordLen cmd),
    recordStop := none,
    status := if preds.any fun p => p.outcome = some true then some (.cancelled, 0) else none,
    binding := none, shadows := [], remote := none, agreed := 0, pc := unitStart s s.cur, missed := none, startNo := 0, seq := 0,
    unbinds := false }

/-- The job enqueued: its status register becomes pending, the recorded predecessors are taken (R35, R38), and every event of its
context before happens before its accesses (R210). -/
def pushJob (s : State) (j : Job) : State :=
  let x := s.ctx j.ctx
  let s := s.setCtx j.ctx { x with pend := x.pend.set j.sreg.val (some j.id) j.sreg.isLt, deps := [] }
  inherit { s with clu := { s.clu with jobs := s.clu.jobs ++ [j], nextJob := s.clu.nextJob + 1 } } (.ctx j.ctx) (.job j.id)

/-- Whether the cluster's job queue has a free entry: the jobs of all its cores take one each (R14; log 99). -/
def queueRoom (s : State) : Bool := decide (s.clu.jobs.length + s.clu.others < 32)

/-- The jobs of the cluster's other cores take and leave entries; how many they take is free, and no more than there is room for (R14;
log 99). -/
def queueBeside (s : State) : State :=
  { s.tickChoice with clu := { s.clu with others := Config.othersQueued s.choice % (33 - s.clu.jobs.length) } }

/-- An engine command after its operand tests: it sleeps while its status register is pending or the queue is full
(R14, R35), and is enqueued and retires otherwise. -/
def enqueue (s : State) (gs : GReg) (cmd : Cmd) (a b : Word) : Out :=
  if isPending s s.cur gs then waitFor s (.pending gs)
  else if !queueRoom s then waitFor s .queueFull
  else .next (retire (pushJob s (newJob s gs cmd a b)) s.cur 4)

/-- An engine command (R231, R256, R273): its operand registers are awaited, then alignment (MISALIGNED) and the other
limits and g0 as a status register (ILLEGAL_OPERAND) are tested in the order of R105. `reads` are the registers whose values the tests
look at, `data` those that only the job takes (log 84). -/
def command (s : State) (gs : GReg) (cmd : Cmd) (ga gb : GReg) (mis : Word → Word → Chk Unit) (ok : Word → Word → Bool)
    (reads : List GReg := [ga, gb]) (data : List GReg := []) : Out :=
  withRegs s reads [ga, gb]
    (let a := getG s s.cur ga
     let b := getG s s.cur gb
     Chk.run s (mis a b) fun _ =>
       if gs = 0 ∨ ok a b = false then faultCls s .illegalOperand else withData s data (enqueue s gs cmd a b))

/-- The value is a multiple of `n`. -/
def multipleOf (n : Nat) (w : Word) : Chk Unit := demand (decide (w.toNat % n = 0)) .misaligned w

/-! ### What an engine meets (R58, R356) -/

/-- The status of a condition for which a core would raise a fault (R356). -/
def statusOfFault (f : FaultClass) : StatusCode :=
  match f with
  | .pageFault => .page
  | .protFault | .spadRange => .prot
  | .misaligned | .illegalOperand => .badDesc
  | _ => .poison

/-- A result of an engine's access. -/
abbrev Eng (α : Type) := Except StatusCode α

/-- The ranges that a command admits. -/
abbrev Reach := Region → Bool

/-- Own scratchpad, global window and device memory (R233). -/
def reachTile : Reach := fun r => match r with
  | .spad | .gwin | .hbm => true
  | _ => false

/-- As `reachTile`, and the host window (R276). -/
def reachCopy : Reach := fun r => match r with
  | .spad | .gwin | .hbm | .host => true
  | _ => false

/-- Own scratchpad and device memory (R283, R298). -/
def reachLocal : Reach := fun r => match r with
  | .spad | .hbm => true
  | _ => false

/-- Device memory alone. -/
def reachHbm : Reach := fun r => match r with
  | .hbm => true
  | _ => false

/-- Own scratchpad alone. -/
def reachSpad : Reach := fun r => match r with
  | .spad => true
  | _ => false

/-- The location of one byte for an engine: range (R15, R356), translation (R17), a published buffer's shadow for
writes and its front for reads, and its descriptor, which jobs only read (R204); a sealed peer answers with an error reply (R311). -/
def engLoc (s : State) (ok : Reach) (write : Bool) (a : Nat) : Eng Nat :=
  let r := regionOf a
  if !ok r then .error .prot
  else match r with
    | .gwin =>
      if domainSize s ≤ (a - gwinLoc) / spadSize then .error .prot
      else if (sealedPeer s a).isSome then .error .poison
      else .ok (directLoc s r a)
    | .hbm | .host =>
      match translation s a with
      | none => .error (.pageAt a)
      | some l =>
        let desc := s.mod.pubs.any fun p => decide (p.job = curJobId s) && decide (p.desc ≤ a) && decide (a < p.desc + 64)
        if write && (!l.w || desc) then .error .prot else .ok (if write then shadowLoc s l a else frontLoc s l a)
    | _ => .ok (directLoc s r a)

/-- The check of an engine read of bytes of one block (R58, R222). -/
def engCheck (s : State) (loc n : Nat) : Eng Unit :=
  if !described loc then .ok ()
  else match checkBlock s (loc / 64) 0 with
    | .error f => .error (statusOfFault f.cls)
    | .ok _ => if poisonedIn s loc n || touchesPoisonedTile s loc n then .error .poison else .ok ()

/-- The runs of locations of `n` bytes at `a`, cut at blocks of 64 bytes, as far as the engine reaches; and what
stopped it. -/
def engSpan (s : State) (ok : Reach) (write : Bool) : Nat → Nat → Nat → List (Nat × Nat) × Option StatusCode
  | 0, _, _ => ([], none)
  | fuel + 1, a, n =>
    if n = 0 then ([], none) else
      let k := min n (64 - a % 64)
      match engLoc s ok write a with
      | .error e => ([], some e)
      | .ok loc =>
        match (if write then .ok () else engCheck s loc k) with
        | .error e => ([], some e)
        | .ok _ =>
          let t := engSpan s ok write fuel (a + k) (n - k)
          ((loc, k) :: t.1, t.2)

/-- Runs with adjacent ones joined. -/
def joinRuns : List (Nat × Nat) → List (Nat × Nat)
  | [] => []
  | (l, n) :: r =>
    match joinRuns r with
    | (l', n') :: r' => if l + n = l' then (l, n + n') :: r' else (l, n) :: (l', n') :: r'
    | [] => [(l, n)]

/-- Total length of runs. -/
def runsLength (l : List (Nat × Nat)) : Nat := (l.map fun r => r.2).sum

/-- Bytes of runs. -/
def runsBytes (s : State) (l : List (Nat × Nat)) : List Byte := (l.map fun r => readBytes s r.1 r.2).flatten

/-- Whether an address lies in a packed page (R290). -/
def inPacked (s : State) (a : Nat) : Bool :=
  decide (regionOf a = .hbm) && (match translation s a with
    | some l => l.pk
    | none => false)

/-- A block of a packed page as it reads back under its descriptor: an element that the zero detector finds zero is +0 or 0
(R290). -/
def packedBlock (s : State) (block : Nat) : List Byte :=
  let f := fmtOf s block
  let bs := readBytes s (64 * block) 64
  if f = 0 ∨ 0x0F ≤ f then bs else
    let w := fmtBits f
    let zero (x : Nat) : Bool := decide (x = 0) || (!isIntFmt f && decide (x = 2 ^ (w - 1)))
    packBytes w ((unpackBytes w (512 / w) bs).map fun x => if zero x then 0 else x)

/-- The bytes of runs, each within one block, that an engine's read at `a` reached; packed pages read back as R290 says. -/
def viewRuns (s : State) : Nat → List (Nat × Nat) → List Byte
  | _, [] => []
  | a, (loc, n) :: r =>
    (if inPacked s a then ((packedBlock s (loc / 64)).drop (loc % 64)).take n else readBytes s loc n) ++ viewRuns s (a + n) r

/-- An engine read as far as it reaches. -/
def engReadPart (s : State) (ok : Reach) (a n : Nat) : List Byte × Option StatusCode :=
  let t := engSpan s ok false (n / 64 + 2) a n
  (viewRuns s a t.1, t.2)

/-- An engine read of all its bytes. -/
def engRead (s : State) (ok : Reach) (a n : Nat) : Eng (List Byte) :=
  match engReadPart s ok a n with
  | (bs, none) => .ok bs
  | (_, some e) => .error e

/-- An engine read of a number (R2). -/
def engReadNat (s : State) (ok : Reach) (a n : Nat) : Eng Nat :=
  match engRead s ok a n with
  | .ok bs => .ok (leNat bs)
  | .error e => .error e

/-! ### Engine writes -/

/-- An engine's write of a run of bytes at an address, as far as it reaches: the state, the bytes written and what
stopped it (R224, R275). -/
def engWritePart (s : State) (ok : Reach) (a : Nat) (bs : List Byte) : State × Nat × Option StatusCode :=
  let t := engSpan s ok true (bs.length / 64 + 2) a bs.length
  let runs := joinRuns t.1
  let n := runsLength runs
  (storeRuns s runs bs, n, t.2)

/-- An engine write of all its bytes; where it does not reach all of them it stops as `engWritePart` does. -/
def engWrite (s : State) (ok : Reach) (a : Nat) (bs : List Byte) : State × Option StatusCode :=
  let t := engWritePart s ok a bs
  (t.1, t.2.2)

/-- The descriptor of each whole block written, where an engine write states it (R59): `d k` for the block at offset
k of the bytes written. -/
def engDescs (s : State) (ok : Reach) (a n : Nat) (d : Nat → Option (BitVec 16)) : State :=
  let first := (64 - a % 64) % 64
  if n < first then s else
    (List.range ((n - first) / 64)).foldl (fun s i =>
      let k := first + 64 * i
      match d k, engLoc s ok true (a + k) with
      | some x, .ok loc => if described loc then setDesc s (loc / 64) x else s
      | _, _ => s) s

/-! ### What a job has written (R215) -/

/-- Where two memories differ, with what the first holds there; at most as many steps as the fuel. -/
def diffCells : Nat → Cells → Cells → List (Nat × Byte)
  | 0, _, _ => []
  | _ + 1, m, [] => m
  | _ + 1, [], n => n.map fun c => (c.1, unlisted c.1)
  | k + 1, (a, x) :: m, (b, y) :: n =>
    if a < b then (a, x) :: diffCells k m ((b, y) :: n)
    else if b < a then (b, unlisted b) :: diffCells k ((a, x) :: m) n
    else if x = y then diffCells k m n
    else (a, x) :: diffCells k m n

/-! ### Jobs in the queue -/

/-- A job's answer: the state, its code and its count. -/
abbrev Ended := State × StatusCode × Nat

/-- A queued job. -/
def findJob (s : State) (id : Nat) : Option Job := s.clu.jobs.find? fun j => decide (j.id = id)

/-- A queued job changed. -/
def setJob (s : State) (j : Job) : State :=
  { s with clu := { s.clu with jobs := s.clu.jobs.map fun i => if i.id = j.id then j else i } }

/-- Whether a job runs: started, with no end yet. -/
def running (j : Job) : Bool := j.started && j.status.isNone

/-- The grammar handle that a command names. -/
def cmdGram (c : Cmd) : Option (Fin 4) :=
  match c with
  | .gbind x => some x.y
  | .geval y | .glen y | .gspine _ y | .gocc _ y | .gunf _ y | .gloc y | .glook y | .grelease y => some y
  | _ => none

/-- Jobs whose effects come in the order of their starts: those of one engine (R275), but grammar jobs of different handles (R258). -/
def inOneLine (i j : Job) : Bool :=
  decide (cmdEngine i.cmd = cmdEngine j.cmd) && (match cmdGram i.cmd, cmdGram j.cmd with
    | some x, some y => decide (i.ctx = j.ctx) && decide (x = y)
    | _, _ => true)

/-- Jobs that may start beside others of their engine: a CRED waits for its other members without holding the copy unit
(R284; log 26), though what starts after it takes effect after it (R275), and grammar jobs of different handles run independently (R258). -/
def sharesEngine (i j : Job) : Bool :=
  match i.cmd, j.cmd with
  | .cred _, _ => false
  | _, .cred _ => false
  | _, _ => inOneLine i j

/-- The published buffers whose range meets one of the ranges given (R204). -/
def pubsHit (s : State) (ranges : List (Nat × Nat)) : List PubBuf :=
  s.mod.pubs.filter fun p => decide (p.job = curJobId s) &&
    ranges.any fun r => decide (r.1 < p.front + p.len) && decide (p.front < r.1 + r.2)

/-- The location of a word of a published buffer's descriptor (R204). -/
def pubLoc (s : State) (p : PubBuf) (off : Nat) : Option Nat :=
  match translation s p.desc with
  | some l => some (leafLoc l p.desc + off)
  | none => none

/-- The valid flag of a published buffer's descriptor. -/
def pubFlag (s : State) (p : PubBuf) (i : Nat) : Bool :=
  match pubLoc s p 0x18 with
  | some l => bit (readLoc s l 8) i
  | none => false

/-- A published buffer marked tainted (R204, R205). -/
def taint (s : State) (desc : Nat) : State :=
  match s.mod.pubs.find? fun p => decide (p.desc = desc) && decide (p.job = curJobId s) with
  | none => s
  | some p =>
    match pubLoc s p 0x18 with
    | none => s
    | some l => store s l (leBytes 8 (readLoc s l 8 ||| 2))

/-- A grammar handle of a context. -/
def getGram (s : State) (c : Fin 8) (y : Fin 4) : Option GBinding := (s.ctx c).y[y.val]'y.isLt

/-- A grammar handle replaced. -/
def setGram (s : State) (c : Fin 8) (y : Fin 4) (g : Option GBinding) : State :=
  let x := s.ctx c
  s.setCtx c { x with y := x.y.set y.val g y.isLt }

/-- A failed GBIND leaves its handle unbound (R259): at once, or, where jobs of the handle that were issued before it are queued still, when
the last of them has ended (R258). -/
def failedBind (s : State) (j : Job) : State :=
  match j.cmd with
  | .gbind x =>
    let before := s.clu.jobs.filter fun i => decide (i.id < j.id) && decide (i.ctx = j.ctx) && decide (cmdGram i.cmd = some x.y)
    match before.getLast? with
    | some i => setJob s { i with unbinds := true }
    | none => setGram s j.ctx x.y none
  | _ => s

/-- What a job's end does to the order: its context sees from then on all that the job has seen and written, the end standing for the
first read of the status (log 8), and so does a job that waited for it (R210); the job is gone. -/
def jobEnds (s : State) (j : Job) : State :=
  let a := Agent.job j.id
  let known (u : Unseen) : Bool := u.knownTo a
  let v := if j.remote.isNone then s.vis.learn (.ctx j.ctx) true known else s.vis
  let after := s.clu.jobs.filter fun i => i.preds.any fun p => decide (p.job = j.id)
  { s with vis := (agentEnds (after.foldl (fun v i => v.learn (.job i.id) true known) v) a).tidy }

/-- A job's end: its status word is written into its register unless the register's pending job is another, every
record of it as a predecessor learns its outcome, its entry is freed, and an error taints the shadows it was bound to
(R14, R35, R36, R38, R204). A remote command's status goes back to its sender (R244). -/
def finishJob (s : State) (j : Job) (code : StatusCode) (count : Nat) : State :=
  let w := statusWord (cmdEngine j.cmd) code count
  let s := if code = .ok then s else failedBind s j
  let s := match j.remote with
    | some o => { s with mod := { s.mod with messages := s.mod.messages ++ [(o, w.toNat)],
                                             outbox := s.mod.outbox ++ [(2, o, w.toNat)] } }
    | none =>
      let x := s.ctx j.ctx
      if x.pend[j.sreg.val]'j.sreg.isLt = some j.id then
        let s := setG s j.ctx j.sreg w
        let x := s.ctx j.ctx
        s.setCtx j.ctx { x with pend := x.pend.set j.sreg.val none j.sreg.isLt }
      else s
  let s := match j.unbinds, cmdGram j.cmd with
    | true, some y => setGram s j.ctx y none
    | _, _ => s
  let s := jobEnds s j
  let note (p : Pred) : Pred := if p.job = j.id then { p with outcome := some code.isErr } else p
  let s := { s with ctxs := Vector.ofFn fun c => { s.ctx c with deps := (s.ctx c).deps.map note } }
  let s := { s with clu := { s.clu with
    jobs := (s.clu.jobs.filter fun i => !decide (i.id = j.id)).map fun i => { i with preds := i.preds.map note } } }
  if code.isErr then j.shadows.foldl taint s else s

/-! ### Pushing slots (R41) -/

/-- One slot of bytes written at a handle's head and pushed (R41, R234, R278). -/
def pushSlot (s : State) (c : Fin 8) (h : Fin 8) (x : Handle) (bs : List Byte) : State :=
  let s := store s (x.base + x.head * x.size) bs
  setHandle s c h (some { x with head := (x.head + 1) % x.count, fill := x.fill + 1 })

end Sys2Proof.Machine
end

