-- ==== Sys2Proof/Machine/Sync.lean ====
section
/-! DEFINITION. The SY class (R188 to R205) and the events that end its waits: watches, ticks, barriers, exchanges,
handles, published buffers and page walks. -/

namespace Sys2Proof.Machine

/-! ### Waking -/

/-- A waiting context's instruction is done with: it goes on after it. -/
def wakePast (s : State) (c : Fin 8) (len : Nat) : State :=
  let x := s.ctx c
  let s := s.setCtx c { x with wait := none, pc := x.pc + BitVec.ofNat 64 len }
  { s with core := { s.core with stepDone := s.core.stepDone || decide (s.core.stepping = some c) } }

/-- A waiting context executes its instruction again; `expired` tells it that its event has come. -/
def wakeAgain (s : State) (c : Fin 8) (expired : Bool) : State :=
  let x := s.ctx c
  s.setCtx c { x with wait := none, expired := expired }

/-- An entry of the watch table that a context owns. -/
def ownsEntry (c : Fin 8) (e : Option WatchEntry) : Bool :=
  match e with
  | some e => decide (e.owner = c)
  | none => false

/-- Whether a context owns any entry. -/
def ownsAny (s : State) (c : Fin 8) : Bool := s.core.watch.toList.any (ownsEntry c)

/-- The lowest fired entry of a context. -/
def firedIndex (s : State) (c : Fin 8) : Option (Fin 8) :=
  slots.find? fun i => match s.core.watch[i.val]'i.isLt with
    | some e => decide (e.owner = c) && e.fired
    | none => false

/-- Whether a job of a context has not yet written its status (R328, R329). -/
def hasJobs (s : State) (c : Fin 8) : Bool := s.clu.jobs.any fun j => decide (j.ctx = c) && j.remote.isNone

/-- Whether a helper is live (R20). -/
def helperLive (s : State) : Bool := slots.any fun c => !decide (c = 0) && (s.ctx c).live

/-- Whether what a context waits for has come, for waits that no event of their own ends (R24). -/
def waitOver (s : State) (c : Fin 8) (w : Wait) : Bool :=
  match w with
  | .watched _ => (firedIndex s c).isSome || (s.ctx c).notice || !ownsAny s c
  | .fullEmpty => (s.feQueue.isEmpty || s.feQueue.any fun r => decide (queuedAtHome s r.loc < 64)) &&
      !s.feQueue.any fun r => match r.origin with
        | .own d _ _ => decide (d = c)
        | .remote _ => false
  | .join slot => !(s.ctx slot).live
  | .groupEnd => !helperLive s && !hasJobs s c
  | .helperEnd => !hasJobs s c
  | .handle h free need => match getHandle s c h with
    | some x => if free then decide (need ≤ x.count - x.fill) else decide (need ≤ x.fill)
    | none => true
  | .queueFull => queueRoom s
  | .pending r => !isPending s c r
  | .held => s.core.outgoing.isNone
  | .acks => !s.unacked
  | .tick _ | .cycles | .barrier _ _ | .exchange _ | .publish | .host _ | .pair => false

/-- CONTEXT_WAKE (R24): the awaited condition holds, and the instruction proceeds; on a frozen core it sleeps on (R305). -/
def execContextWake (c : Fin 8) (s : State) : Out :=
  match (s.ctx c).wait with
  | some w => if !s.core.frozen && waitOver s c w then .next (wakeAgain s c (s.ctx c).expired) else .refused .eventNotEnabled
  | none => .refused .eventNotEnabled

/-! ### Fences (R189) -/

/-- Whether a fence waits for other dies: as a release of its scopes does, and FENCE.sc from die scope up (R189, R212, R214). FENCE.acq
waits for none at any scope: R189 has every fence at pod scope, or with storage host or all, wait as releases there do, and R212 has no
acquire wait; the model takes R212 (log 102). -/
def fenceWaits (s : State) (kind : FenceKind) (storage : Storage) (agent : AgentScope) : Bool :=
  s.unacked && ((decide (kind ≠ .acq) && waitsAcks storage agent) ||
    (decide (kind = .sc) && (decide (agent = .die) || decide (agent = .mod))))

/-- FENCE (R189, R214). -/
def execFence (kind : FenceKind) (storage : Storage) (agent : AgentScope) (s : State) : Out :=
  if fenceWaits s kind storage agent then waitFor s .acks else .next (retire (fenced s kind storage agent) s.cur 4)

/-! ### Watches (R190 to R193) -/

/-- The location of the word that a WATCH or UNWATCH names: scratchpad or device memory (R190, R193). Of a published buffer it is the
front as it stands: an entry stays with the memory that was the front when it was armed, also after a swap (log 90). -/
def watchLoc (s : State) (a : Nat) : Chk Nat :=
  match regionOf a with
  | .spad => .ok a
  | .gwin => (checkRange s a 4 false).andThen fun r => .ok (directLoc s r a)
  | .hbm => translateCore s a false
  | _ => .error { cls := .illegalOperand }

/-- The context's entry for a word. -/
def entryFor (s : State) (c : Fin 8) (loc : Nat) : Option (Fin 8) :=
  slots.find? fun i => match s.core.watch[i.val]'i.isLt with
    | some e => decide (e.owner = c) && decide (e.loc = loc)
    | none => false

/-- Entries that are free. -/
def freeEntries (s : State) : List (Fin 8) := slots.filter fun i => (s.core.watch[i.val]'i.isLt).isNone

/-- The entry armed longest ago among those of other contexts. -/
def oldestOther (s : State) (c : Fin 8) : Option (Fin 8 × WatchEntry) :=
  slots.foldl (fun best i => match s.core.watch[i.val]'i.isLt with
    | some e => if e.owner = c then best else match best with
      | some (_, b) => if e.stamp < b.stamp then some (i, e) else best
      | none => some (i, e)
    | none => best) none

/-- An entry armed for a context. -/
def armEntry (s : State) (i c : Fin 8) (loc : Nat) (a : Word) : State :=
  let e : WatchEntry := { owner := c, loc := loc, addr := a, fired := false, stamp := s.core.watchClock }
  { s with core := { s.core with watch := s.core.watch.set i.val (some e) i.isLt, watchClock := s.core.watchClock + 1 } }

/-- The entry that a WATCH arms, and the state in which an evicted owner has its notice (R190, R192). The spec does not
say which free entry is taken: any of them (log 27). -/
def chooseEntry (s : State) (c : Fin 8) (loc : Nat) : Option (Fin 8 × State) :=
  match entryFor s c loc with
  | some i => some (i, s)
  | none =>
    let free := freeEntries s
    if free.isEmpty then
      match oldestOther s c with
      | some (i, e) => some (i, s.setCtx e.owner { s.ctx e.owner with notice := true })
      | none => none
    else some (free.getD (Config.pick s.choice % free.length) 0, s.tickChoice)

/-- Whether a context owns eight entries and none for the word (R190). -/
def ownsEight (s : State) (c : Fin 8) (a : Nat) : Bool :=
  s.core.watch.toList.all (ownsEntry c) && (match watchLoc s a with
    | .ok loc => (entryFor s c loc).isNone
    | .error _ => true)

/-- WATCH (R190). -/
def execWatch (ga gd : GReg) (s : State) : Out :=
  withRegs s [ga] [gd]
    (let a := getG s s.cur ga
     aligned s a.toNat 4
       (if ownsEight s s.cur a.toNat then faultCls s .illegalOperand else
         Chk.run s (watchLoc s a.toNat) fun loc => Chk.run s (peerTest s a.toNat) fun _ => pairGate s a.toNat 0 53 fun s =>
           match chooseEntry s s.cur loc with
           | some (i, s) => .next (retire (setG (armEntry s i s.cur loc a) s.cur gd (BitVec.ofNat 64 i.val)) s.cur 4)
           | none => faultCls s .illegalOperand))

/-- An entry's fired bit cleared. -/
def clearFired (s : State) (i : Fin 8) : State :=
  match s.core.watch[i.val]'i.isLt with
  | some e => { s with core := { s.core with watch := s.core.watch.set i.val (some { e with fired := false }) i.isLt } }
  | none => s

/-- WAITW returns a reason. -/
def waitwReturn (s : State) (gd : GReg) (reason : Nat) : Out :=
  let x := s.ctx s.cur
  let s := s.setCtx s.cur { x with expired := false }
  .next (retire (setG s s.cur gd (BitVec.ofNat 64 reason)) s.cur 4)

/-- WAITW (R191). -/
def execWaitw (gb gd : GReg) (s : State) : Out :=
  withRegs s [gb] [gd]
    (let x := s.ctx s.cur
     match firedIndex s s.cur with
     | some i => waitwReturn (clearFired s i) gd (1 + 256 * i.val)
     | none =>
       if x.notice then waitwReturn (s.setCtx s.cur { x with notice := false }) gd 3
       else if !ownsAny s s.cur || x.expired then waitwReturn s gd 2
       else waitFor s (.watched (decide (getG s s.cur gb ≠ 0))))

/-- WAITW_TIMEOUT (R191): a WAITW with a nonzero gb returns reason 2. -/
def execWaitwTimeout (c : Fin 8) (s : State) : Out :=
  match (s.ctx c).wait with
  | some (.watched true) => if s.core.frozen then .refused .eventNotEnabled else .next (wakeAgain s c true)
  | _ => .refused .eventNotEnabled

/-- The entries of a context disarmed (R193). -/
def disarmAll (s : State) (c : Fin 8) : State :=
  let w := Vector.ofFn fun i : Fin 8 =>
    if ownsEntry c (s.core.watch[i.val]'i.isLt) then none else s.core.watch[i.val]'i.isLt
  { s with core := { s.core with watch := w } }

/-- UNWATCH (R193): an address that names no word of scratchpad or device memory matches no entry. -/
def execUnwatch (all : Bool) (ga : GReg) (s : State) : Out :=
  if all then .next (retire (disarmAll s s.cur) s.cur 4) else
    withRegs s [ga] []
      (let s' := match watchLoc s (getG s s.cur ga).toNat with
         | .ok loc => match entryFor s s.cur loc with
           | some i => { s with core := { s.core with watch := s.core.watch.set i.val none i.isLt } }
           | none => s
         | .error _ => s
       .next (retire s' s.cur 4))

/-! ### Yielding and time (R194, R195) -/

/-- YIELDX (R194). -/
def execYieldx (gb : GReg) (s : State) : Out :=
  withRegs s [gb] []
    (let n := (getG s s.cur gb).toNat
     if 2 ^ 32 ≤ n then faultCls s .illegalOperand
     else
       let t := yieldTurn (retire s s.cur 4)
       if n = 0 then .next t else .next (t.setCtx s.cur { t.ctx s.cur with wait := some .cycles }))

/-- YIELDX_EXPIRY (R194). -/
def execYieldxExpiry (c : Fin 8) (s : State) : Out :=
  match (s.ctx c).wait with
  | some .cycles => if s.core.frozen then .refused .eventNotEnabled else .next (wakeAgain s c false)
  | _ => .refused .eventNotEnabled

/-- TICK (R195). -/
def execTick (gd : GReg) (s : State) : Out :=
  withRegs s [] [gd] (let t := observeTick s; .next (retire (setG t t.cur gd t.mod.tick) t.cur 4))

/-- WAITT (R195). -/
def execWaitt (ga gd : GReg) (s : State) : Out :=
  withRegs s [ga] [gd]
    (let d := getG s s.cur ga
     let t := observeTick s
     if d.toNat ≤ t.mod.tick.toNat then .next (retire (setG t t.cur gd t.mod.tick) t.cur 4)
     else waitFor t (.tick d))

/-- WAITT_DEADLINE (R195, R305): the counter has reached the deadline. -/
def execWaittDeadline (c : Fin 8) (s : State) : Out :=
  match (s.ctx c).wait with
  | some (.tick d) => if s.core.frozen then .refused .eventNotEnabled else
    let now := if s.mod.tick.toNat ≤ d.toNat then d else s.mod.tick
    .next (wakeAgain { s with mod := { s.mod with tick := now } } c false)
  | _ => .refused .eventNotEnabled

/-! ### Barriers (R29, R30, R196, R200, R201) -/

/-- Whether R21 or R30 refuse a synchronisation at a level: from a helper, or at the block level or wider in a launch
that is not co-resident. -/
def syncRefused (s : State) (level : Fin 5) : Bool :=
  !decide (s.cur = 0) || (decide (1 ≤ level.val) && notCoResident s)

/-- The group has retired an instruction after which R309 refuses a restart. -/
def markSynced (s : State) : State := { s with core := { s.core with synced := true } }

/-- A contribution to a barrier or an exchange: it leaves the core, in a paired launch once the other copy's hash agrees (R313), and is
made once (R201). -/
def contributeSync (s : State) (data op : Nat) (w : Wait) : Out :=
  if (s.ctx s.cur).contributed then waitFor s w
  else pairGateIf true s 0 data op fun s => waitFor (s.setCtx s.cur { s.ctx s.cur with contributed := true }) w

/-- BSYNC (R30, R196): the control context contributes once and sleeps until the barrier completes. -/
def execBsync (level : Fin 5) (storage : Storage) (s : State) : Out :=
  if syncRefused s level || s.core.phase.isSome then faultCls s .illegalSync
  else contributeSync s level.val 58 (.barrier level storage)

/-- A domain's size, rank and index as its membership register holds them (R28). -/
def domWord (size rank index : Nat) : Word := BitVec.ofNat 64 (size % 2 ^ 16 * 2 ^ 48 + rank % 2 ^ 16 * 2 ^ 32 + index % 2 ^ 32)

/-- Members put in order of increasing key, then increasing old rank (R29). -/
def insertMember (m : SplitMember) : List SplitMember → List SplitMember
  | [] => [m]
  | x :: r =>
    if m.key.toNat < x.key.toNat ∨ (m.key = x.key ∧ m.rank < x.rank) then m :: x :: r else x :: insertMember m r

/-- The block after a DSPLIT (R29): `others` are the other members of the old block, each with its pending colour and
key (0xFFFF_FFFF and 0 where it has none); when no member has one pending the list is empty. None when a colour class
would pass 4,096 members. -/
def regroup (s : State) (others : List SplitMember) : Option State :=
  if s.core.split.isNone && others.isEmpty then some s else
    let me := s.core.split.getD (0xFFFFFFFF, 0)
    let rank := (s.core.dom[1]).toNat / 2 ^ 32 % 2 ^ 16
    let colours := me.1 :: others.map fun m => m.colour
    let mine := others.filter fun m => decide (m.colour = me.1)
    if colours.any fun c => decide (4096 < (colours.filter fun d => decide (d = c)).length) then none else
      let self : SplitMember := { lid := s.core.lid, rank := rank, colour := me.1, key := me.2 }
      let sorted := (mine.foldl (fun l m => insertMember m l) [self]).map fun m => m.lid
      let low := mine.foldl (fun a m => min a m.lid) s.core.lid
      let w := domWord (mine.length + 1) (sorted.idxOf s.core.lid) (2 ^ 31 ||| low)
      some { s with core := { s.core with
        dom := s.core.dom.set 1 w, split := none, credSeq := s.core.credSeq.set 1 0,
        blockLids := some sorted } }

/-- Whether a level is the pod's, at which BSYNC and XEND wait as a pod-scope release does (R196, R199). -/
def podLevel (level : Fin 5) : Bool := decide (level.val = 4)

/-- BSYNC_COMPLETE (R29, R30, R196): every member has contributed; the phase begins, once what happens before it has been applied here,
as the clock says, and is before what follows in its storage scope (R210, R212); at level 4 the earlier writes of this core are acknowledged first (R196). A frozen core stays in its
barrier (R305). -/
def execBsyncComplete (others : List SplitMember) (s : State) (clock : List Nat := []) : Out :=
  match (s.ctx 0).wait with
  | some (.barrier level storage) =>
    if (s.ctx 0).contributed && !s.core.frozen && clockSeen s clock && !(podLevel level && s.unacked) then
      match (if level.val = 1 then regroup s others else some s) with
      | none => .next (raise (s.setCtx 0 { s.ctx 0 with contributed := false }) 0 { cls := .illegalSync })
      | some s =>
        let s := s.setCtx 0 { s.ctx 0 with contributed := false }
        let s := { s with core := { s.core with phase := some level, sent := 0, synced := true } }
        .next (wakePast (clockJoined s (.ctx 0) clock storage) 0 4)
    else .refused .eventNotEnabled
  | _ => .refused .eventNotEnabled

/-- DSPLIT (R29, R200). -/
def execDsplit (gb ga : GReg) (s : State) : Out :=
  withRegs s [gb, ga] []
    (let colour := getG s s.cur ga
     let key := getG s s.cur gb
     if 2 ^ 32 ≤ colour.toNat ∨ 2 ^ 32 ≤ key.toNat then faultCls s .illegalOperand
     else if syncRefused s 1 then faultCls s .illegalSync
     else
       let s := markSynced { s with core := { s.core with split := some (colour.truncate 32, key.truncate 32) } }
       .next (retire s s.cur 4))

/-! ### Exchange (R31 to R34, R197 to R199) -/

/-- The logical cores that hold a group (R22, R28). -/
def holdsGroup (s : State) (lid : Nat) : Bool :=
  match curLaunch s with
  | some l => decide (lid < min l.n l.groups)
  | none => false

/-- Another core of the launch ends its last group and withdraws (R22); when it does is free (log 28). -/
def peerWithdraws (s : State) : State :=
  let lid := Config.pick s.choice % max 1 (domainSize s)
  if holdsGroup s lid ∧ lid ≠ s.core.lid ∧ s.core.withdrawn.contains lid = false then
    { s.tickChoice with core := { s.core with withdrawn := s.core.withdrawn ++ [lid] } }
  else s.tickChoice

/-- This core's place as its launch's domain names it: in a paired launch the primary's, in both copies (R27, R313). -/
def ownPlace (s : State) : BitVec 32 := (placeOf s s.core.lid).getD (corePid s)

/-- Whether a logical core belongs to this core's domain at a level (R27, R29) and has not withdrawn (R22). -/
def inDomain (s : State) (level : Fin 5) (lid : Nat) : Bool :=
  holdsGroup s lid && !s.core.withdrawn.contains lid &&
    match level.val with
    | 0 => match placeOf s lid with
      | some p => decide (p.toNat / 2 ^ 15 = (ownPlace s).toNat / 2 ^ 15)
      | none => false
    | 1 => match s.core.blockLids with
      | some b => b.contains lid
      | none => match curLaunch s with
        | some l => decide (l.block ≠ 0) && decide (lid / l.block = s.core.lid / l.block)
        | none => false
    | 2 => match placeOf s lid with
      | some p => decide (p.toNat / 2 ^ 28 = (ownPlace s).toNat / 2 ^ 28)
      | none => false
    | _ => true

/-- Whether a module belongs to the launch's gang (R27). -/
def inGang (s : State) (m : Nat) : Bool :=
  decide (m = s.mod.modnum) || (match curLaunch s with
    | some l => l.gang.contains m
    | none => false)

/-- Whether the destination that gb names is a member of the exchange domain (R31, R197). Which logical cores of another module
of the gang hold a group, and which have withdrawn, is not held here: free (log 28). -/
def destOk (s : State) (level : Fin 5) (b : Nat) : Bool :=
  let m := bits b 32 16
  if level.val = 4 then inGang s m &&
    (if m = s.mod.modnum then inDomain s level (bits b 0 32) else Config.peerHolds s.choice)
  else decide (m = 0) && inDomain s level (bits b 0 32)

/-- The fault of a member of an aborted exchange (R34). -/
def abortFlt : Flt := { cls := .watchdog, info := 1 }

/-- The SPAD_RANGE test of a packet's buffer (R197, R198). -/
def packetFits (a : Nat) : Chk Unit := demand (decide (a + 32 ≤ spadSize)) .spadRange (BitVec.ofNat 64 (max a spadSize))

/-- XSEND (R31, R197). DESIGN CHOICE (log 103): the WATCHDOG of an aborted exchange (R34) comes after the test for a phase, item 3 of
R197, and before item 4. -/
def execXsend (gb ga : GReg) (s : State) : Out :=
  withRegs s [gb, ga] []
    (let a := (getG s s.cur ga).toNat
     let b := (getG s s.cur gb).toNat
     aligned s a 32
       (if bits b 48 16 ≠ 0 then faultCls s .illegalOperand
        else match s.core.phase with
          | none => faultCls s .illegalSync
          | some level =>
            if s.core.aborted then fault s abortFlt
            else if destOk s level b = false then faultCls s .illegalOperand
            else Chk.run s ((packetFits a).andThen fun _ => checkRead s a 32) fun runs =>
              if s.core.outgoing.isSome then waitFor s .held else
                let t := loadRuns s runs
                let m := if level.val = 4 then bits b 32 16 else s.mod.modnum
                let p : Packet := { module := m, lid := bits b 0 32, payload := BitVec.ofNat 256 (leNat t.1) }
                pairGateIf (!(decide (m = s.mod.modnum) && decide (p.lid = s.core.lid))) s b (leNat t.1) 57 fun s =>
                let t := loadRuns s runs
                .next (retire (markSynced { t.2 with core := { t.2.core with outgoing := some p, sent := t.2.core.sent + 1 } })
                  t.2.cur 4)))

/-- The location of a slot of the inbound ring (R32). -/
def ringLoc (s : State) (i : Nat) : Nat := s.core.xringBase.toNat + 32 * i

/-- The address of a slot of the overflow ring (R32). -/
def spillAddr (s : State) (i : Nat) : Nat := (s.core.xspillBase + BitVec.ofNat 64 (32 * i)).toNat

/-- A packet's store by XRECV and its flag. -/
def takePacket (s : State) (a : Nat) (gd : GReg) (bytes : List Byte) : Out :=
  Chk.run s (checkWrite s a 32) fun runs =>
    .next (retire (setG (ctxStore s runs bytes) s.cur gd 1) s.cur 4)

/-- XRECV (R33, R198). -/
def execXrecv (ga gd : GReg) (s : State) : Out :=
  withRegs s [ga] [gd]
    (let a := (getG s s.cur ga).toNat
     aligned s a 32 (Chk.run s (packetFits a) fun _ =>
       if 0 < s.core.inCount then
         let loc := ringLoc s s.core.inHead
         Chk.run s (checkRun s loc loc 32) fun _ =>
           let bytes := readBytes s loc 32
           let s := { s with core := { s.core with inHead := (s.core.inHead + 1) % s.core.xringSize.toNat,
                                                   inCount := s.core.inCount - 1 } }
           takePacket s a gd bytes
       else if 0 < s.core.ovCount then
         let v := spillAddr s s.core.ovHead
         Chk.run s (checkRead s v 32) fun runs => pairGate s v 0 54 fun s =>
           let bytes := runsBytes s runs
           let s := { s with core := { s.core with ovHead := (s.core.ovHead + 1) % s.core.xspillSize.toNat,
                                                   ovCount := s.core.ovCount - 1 } }
           takePacket s a gd bytes
       else .next (retire (setG s s.cur gd 0) s.cur 4)))

/-- What a router does with a packet for this core (R33, R34). -/
inductive Delivery where
  | placed (s : State)
  | held
  | faulted (f : Flt)

/-- A packet written into the inbound or the overflow ring (R33, R34); a sealed core accepts none (R311). A slot of the overflow ring
that lies outside device memory is PROT_FAULT, as a page that may not be written is (log 88). -/
def deliver (s : State) (v : Vec) : Delivery :=
  let bytes := leBytes 32 v.toNat
  if s.core.sealed then .held
  else if s.core.inCount < s.core.xringSize.toNat ∧ s.core.ovCount = 0 then
    let i := (s.core.inHead + s.core.inCount) % s.core.xringSize.toNat
    let s := store s (ringLoc s i) bytes
    .placed { s with core := { s.core with inCount := s.core.inCount + 1 } }
  else if s.core.ovCount < s.core.xspillSize.toNat then
    let a := spillAddr s ((s.core.ovHead + s.core.ovCount) % s.core.xspillSize.toNat)
    if regionOf a ≠ .hbm then .faulted { cls := .protFault, addr := BitVec.ofNat 64 a }
    else match translateCore s a true with
      | .ok loc =>
        let s := store s loc bytes
        .placed { s with core := { s.core with ovCount := s.core.ovCount + 1 } }
      | .error f => .faulted f
  else .held

/-- The fault that a packet's delivery raises at the receiver's masthead; the core goes on (R34). -/
def routerFault (s : State) (f : Flt) : State :=
  let s := observeTick s
  let p : FaultPacket := {
    cls := f.cls, ctx := 0, info := 0, pid := corePid s, pc := (s.ctx 0).pc, addr := f.addr, insn := 0,
    group := BitVec.ofNat 32 s.core.groupId, status := 0, tick := s.mod.tick, job := BitVec.ofNat 32 (curJobId s),
    fseq := BitVec.ofNat 32 s.mod.fseq, votes := BitVec.ofNat 32 s.core.votes,
    launch := s.core.launch, source := .router }
  { s with mod := { s.mod with inbox := s.mod.inbox ++ [p], fseq := s.mod.fseq + 1 } }

/-- Whether the masthead has been told of the page that holds back the packets of this core's router (R34). -/
def routerStuck (s : State) : Bool :=
  (s.mod.inbox ++ s.mod.driver).any fun p => decide (p.source = .router) && decide (p.launch = s.core.launch)

/-- Packets that wait in senders' routers delivered in order, as far as there is room; one that meets a page it may not write
stays, and the masthead is told once (R34). -/
def drainArriving : Nat → State → State
  | 0, s => s
  | n + 1, s =>
    match s.core.arriving with
    | [] => s
    | v :: r =>
      match deliver s v with
      | .placed s' => drainArriving n { s' with core := { s'.core with arriving := r } }
      | .held => s
      | .faulted f => if routerStuck s then s else routerFault s f

/-- All packets that wait for this core's rings. -/
def drainAll (s : State) : State := drainArriving s.core.arriving.length s

/-- A packet of this core to itself: it leaves the router when it has been delivered, and is held there otherwise (R31, R34). -/
def deliverOwn (s : State) (v : Vec) : Option State :=
  match deliver s v with
  | .placed s => some { s with core := { s.core with outgoing := none } }
  | .held => none
  | .faulted f => if routerStuck s then none else some (routerFault s f)

/-- Whether a packet goes to this core itself. -/
def toSelf (s : State) (p : Packet) : Bool := decide (p.module = s.mod.modnum) && decide (p.lid = s.core.lid)

/-- EXCHANGE_DELIVERY (R33, R34): a packet of another core arrives, unless its job is retired (R322), once what happens before it has been
applied here (R212); while this core runs no group of its launch, as when that is saved, the packet stays in its sender's router. Or this
core's own packet leaves its router and waiting packets find room. -/
def execExchangeDelivery (arrives : Option Arrival) (s : State) : Out :=
  match arrives with
  | some x =>
    if dropped s (some x.job) then .next s
    else if curJobId s = x.job ∧ s.core.launch = some x.launch ∧ clockSeen s x.clock = true then
      .next (drainAll { s with core := { s.core with arriving := s.core.arriving ++ [x.payload] } })
    else .refused .eventNotEnabled
  | none =>
    match s.core.arriving, s.core.outgoing with
    | [], some p =>
      if toSelf s p then
        match deliverOwn s p.payload with
        | some s => .next s
        | none => .refused .eventNotEnabled
      else .next { s with core := { s.core with outgoing := none } }
    | _ :: _, some p => .next (drainAll (if toSelf s p then s else { s with core := { s.core with outgoing := none } }))
    | _ :: _, none => .next (drainAll s)
    | [], none => .refused .eventNotEnabled

/-- XEND (R30, R34, R199). -/
def execXend (storage : Storage) (s : State) : Out :=
  if s.cur ≠ 0 ∨ s.core.phase.isNone then faultCls s .illegalSync
  else if s.core.aborted then fault s abortFlt
  else contributeSync s s.core.sent 59 (.exchange storage)

/-- XEND_COMPLETE (R30, R199): every packet sent has been delivered, and what happens before has been applied here, as the clock says
and is before what follows in its storage scope (R210, R212); the core leaves the phase, unless it is frozen (R305). -/
def execXendComplete (s : State) (clock : List Nat := []) : Out :=
  match (s.ctx 0).wait with
  | some (.exchange storage) =>
    if (s.ctx 0).contributed && !s.core.frozen && s.core.outgoing.isNone && s.core.arriving.isEmpty && clockSeen s clock &&
        !(s.core.phase.any podLevel && s.unacked) then
      let s := s.setCtx 0 { s.ctx 0 with contributed := false }
      let s := clockJoined s (.ctx 0) clock storage
      .next (wakePast (markSynced { s with core := { s.core with phase := none, sent := 0 } }) 0 4)
    else .refused .eventNotEnabled
  | _ => .refused .eventNotEnabled

/-- The retained packet discarded (R34): the first that waits for this core's rings, or its own to itself. -/
def discardRetained (s : State) : State :=
  match s.core.arriving, s.core.outgoing with
  | _ :: r, _ => { s with core := { s.core with arriving := r } }
  | [], some p =>
    if toSelf s p then { s with core := { s.core with outgoing := none } } else s
  | [], none => s

/-- EXCHANGE_ABORT (R34): the retained packet is discarded, with the fault that the masthead was told of; a member waiting in
XEND stops there, any other at its next XSEND or XEND of the phase. -/
def execExchangeAbort (s : State) : Out :=
  if s.core.phase.isNone then .refused .eventNotEnabled else
    let keep (p : FaultPacket) : Bool := !(decide (p.source = .router) && decide (p.launch = s.core.launch))
    let s := if routerStuck s then discardRetained s else s
    let s := { s with core := { s.core with aborted := true },
                      mod := { s.mod with inbox := s.mod.inbox.filter keep, driver := s.mod.driver.filter keep } }
    match (s.ctx 0).wait with
    | some (.exchange _) => .next (raise (s.setCtx 0 { s.ctx 0 with contributed := false }) 0 abortFlt)
    | _ => .next s

/-! ### Handles (R39, R41, R202, R203) -/

/-- Whether a pending engine command of the context targets a handle (R202). -/
def handleBusy (s : State) (c : Fin 8) (h : Fin 8) : Bool :=
  s.clu.jobs.any fun j => decide (j.ctx = c) && j.remote.isNone && decide (cmdHandle j.cmd j.a j.b = some h)

/-- CBINIT (R202). With gb = 0 it unconfigures the handle and looks at no base: ga may hold anything (log 81). -/
def execCbinit (h : Fin 8) (gb ga : GReg) (s : State) : Out :=
  withRegs s [gb] [ga]
    (let base := (getG s s.cur ga).toNat
     let shape := (getG s s.cur gb).toNat
     let size := bits shape 0 16
     let count := bits shape 16 9
     if handleBusy s s.cur h then faultCls s .illegalOperand
     else if shape = 0 then .next (retire (setHandle s s.cur h none) s.cur 4)
     else withData s [ga] <|
     if 2 ^ 25 ≤ shape ∨ handleShapeOk base size count = false then faultCls s .illegalOperand
     else
       let x : Handle := { base := base, size := size, count := count, head := 0, tail := 0, fill := 0 }
       .next (retire (setHandle s s.cur h (some x)) s.cur 4))

/-- A configured handle and a count within limits, or ILLEGAL_OPERAND (R203). -/
def handleCount (s : State) (h : Fin 8) (ok : Handle → Bool) (k : Handle → Out) : Out :=
  match getHandle s s.cur h with
  | none => faultCls s .illegalOperand
  | some x => if ok x then k x else faultCls s .illegalOperand

/-- CBWAIT (R203). -/
def execCbwait (free : Bool) (h : Fin 8) (gb gd : GReg) (s : State) : Out :=
  withRegs s [gb] [gd]
    (let n := (getG s s.cur gb).toNat
     handleCount s h (fun x => decide (1 ≤ n) && decide (n ≤ x.count)) fun x =>
       let have_ := if free then x.count - x.fill else x.fill
       if n ≤ have_ then .next (retire (setG s s.cur gd (BitVec.ofNat 64 have_)) s.cur 4)
       else waitFor s (.handle h free n))

/-- CBADV (R203). -/
def execCbadv (h : Fin 8) (gb : GReg) (s : State) : Out :=
  withRegs s [gb] []
    (let n := (getG s s.cur gb).toNat
     handleCount s h (fun x => decide (n ≤ x.fill)) fun x =>
       .next (retire (setHandle s s.cur h (some { x with tail := (x.tail + n) % x.count, fill := x.fill - n })) s.cur 4))

/-- CBPUSH (R203). -/
def execCbpush (h : Fin 8) (gb : GReg) (s : State) : Out :=
  withRegs s [gb] []
    (let n := (getG s s.cur gb).toNat
     handleCount s h (fun x => decide (n ≤ x.count - x.fill)) fun x =>
       .next (retire (setHandle s s.cur h (some { x with head := (x.head + n) % x.count, fill := x.fill + n })) s.cur 4))

/-! ### Published buffers (R204, R205) -/

/-- A published buffer changed. -/
def setPub (s : State) (p : PubBuf) : State :=
  { s with mod := { s.mod with pubs := s.mod.pubs.map fun q => if q.desc = p.desc ∧ q.job = p.job then p else q } }

/-- The buffer of a descriptor in the running job. -/
def pubOf (s : State) (desc : Nat) : Option PubBuf :=
  s.mod.pubs.find? fun p => decide (p.desc = desc) && decide (p.job = curJobId s)

/-- PUBL (R205): the buffer closes and the context sleeps until the swap; behind another PUBL it waits for its turn. -/
def execPubl (agent : AgentScope) (ga gd : GReg) (s : State) : Out :=
  withRegs s [ga] [gd]
    (let a := (getG s s.cur ga).toNat
     aligned s a 64 (Chk.run s (checkRead s a 64) fun runs => pairGate s a 0 55 fun s =>
       match pubOf s a with
       | none => faultCls s .illegalOperand
       | some p =>
         if bit (leNat ((runsBytes s runs).drop 0x18)) 0 = false then faultCls s .illegalOperand else
           let c := s.cur
           waitFor (setPub s { p with closed := p.closed || p.waiting.isEmpty, waiting := p.waiting ++ [(c, gd, agent)] }) .publish))

/-- The shadow of a buffer, of which nothing is known (R205). -/
def spoilShadow (s : State) (p : PubBuf) : State :=
  (List.range p.len).foldl (fun t i => match translation s (p.front + i) with
    | some l => setBytes t (shadowLoc s l (p.front + i)) [Config.taintedShadow s.choice i]
    | none => t) s.tickChoice

/-- The job that a saved core works for. -/
def savedJob (s : State) (r : SavedCore) : Option Nat :=
  (s.mod.launches.find? fun l => decide (r.core.launch = some l.id)).map fun l => l.job

/-- Whether a started job is bound to a buffer's shadow (R204), here or saved with its core, whose copy stays bound to it (R279). -/
def shadowBusy (s : State) (p : PubBuf) : Bool :=
  let bound (j : Job) : Bool := j.started && j.shadows.contains p.desc
  (decide (p.job = curJobId s) && s.clu.jobs.any bound) ||
    s.saved.any fun r => decide (savedJob s r = some p.job) && r.jobs.any bound

/-- Whether a location lies in one of the two backings of a buffer. -/
def inBacking (s : State) (p : PubBuf) (loc : Nat) : Bool :=
  (decide (hbmLoc + p.shadow ≤ loc) && decide (loc < hbmLoc + p.shadow + p.len)) ||
    (List.range (p.len / 65536)).any fun k => match translation s (p.front + 65536 * k) with
      | some l => decide (leafLoc l (p.front + 65536 * k) ≤ loc) && decide (loc < leafLoc l (p.front + 65536 * k) + 65536)
      | none => false

/-- Front and shadow exchanged: a load reads the new front and no older generation from then on (R205). -/
def swapBacking (s : State) (p : PubBuf) : State := setPub (seenAt s (inBacking s p)) { p with swapped := !p.swapped }

/-- The buffer that a context's PUBL waits for, when it is the first in order of arrival. -/
def publFor (s : State) (c : Fin 8) : Option (PubBuf × GReg × AgentScope) :=
  match s.mod.pubs.find? fun p => match p.waiting with
    | (d, _) :: _ => decide (d = c)
    | [] => false with
  | some p => match p.waiting with
    | (_, gd) :: _ => some (p, gd)
    | [] => none
  | none => none

/-! ### Writes and walks that arrive -/

/-- Whether a location can be written by another agent's write: this core's scratchpad unless it is sealed, a peer's,
device memory or the host's. -/
def applicable (s : State) (loc n : Nat) : Bool :=
  (decide (loc + n ≤ spadSize) && !s.core.sealed && !s.core.fenced) ||
    (decide (gwinLoc ≤ loc) && decide (loc + n ≤ gwinLoc + 2 ^ 20 * spadSize)) ||
    (decide (hbmLoc ≤ loc) && decide (loc + n ≤ hbmLoc + hbmSize)) || decide (hostLoc ≤ loc)

/-- What another core's PUBL does here when its write of a buffer's descriptor is applied (R205): with the generation counted on, front
and shadow are exchanged; with the taint ended, nothing is known of the shadow (log 94). None while a job is bound to the shadow. -/
def publArrives (s : State) (loc : Nat) (bytes : List Byte) : Option State :=
  let at_ (off : Nat) : Option PubBuf := s.mod.pubs.find? fun p => decide (p.job = curJobId s) && decide (pubLoc s p off = some loc)
  match at_ 0x10, at_ 0x18 with
  | some p, _ => if leNat bytes ≠ readLoc s loc 8 + 1 then some s else if shadowBusy s p then none else some (swapBacking s p)
  | none, some p => if bit (readLoc s loc 8) 1 && !bit (leNat bytes) 1 then
      (if shadowBusy s p then none else some (spoilShadow (seenAt s (inBacking s p)) p)) else some s
  | none, none => some s

/-- WRITE_APPLY (R190, R192, R212): another agent's write is applied, once every write that happens before it has been; one of a
retired job is dropped (R322). -/
def execWriteApply (loc : Nat) (data : DieWrite) (s : State) : Out :=
  if applicable s loc data.bytes.length && clockMet s data.die data.clock then
    let t := countWrite s data.die
    if dropped s data.job then .next t
    else match publArrives t loc data.bytes with
      | none => .refused .eventNotEnabled
      | some t =>
        let u := noteOutside t data.die data.clock data.release false ((List.range data.bytes.length).map fun i => loc + i)
        .next { store u loc data.bytes with unacked := t.unacked || decide (gwinLoc ≤ loc) }
  else .refused .eventNotEnabled

/-- PAGE_WALK (R17): a walk completes; the caches hold the translation of its 64 KiB, or the access that waits for it
raises PAGE_FAULT. -/
def execPageWalk (va : Word) (s : State) : Out :=
  match walk s va.toNat with
  | some l =>
    let off := va.toNat % l.size / 65536 * 65536
    .next (tlbFill s { job := curJobId s, page := va.toNat / 65536, base := l.base + off,
                       w := l.w, pk := l.pk, pr := l.pr, host := l.host })
  | none => if awake s s.cur then .next (raise s s.cur { cls := .pageFault, addr := va }) else .refused .eventNotEnabled

/-- HOST_COMPLETION (R183): the PCIe completion arrives, or refuses the AtomicOp. -/
def execHostCompletion (c : Fin 8) (refused : Bool) (s : State) : Out :=
  match (s.ctx c).wait with
  | some (.host a) =>
    if refused then .next (raise s c { cls := .protFault, addr := a }) else .next (wakeAgain s c true)
  | _ => .refused .eventNotEnabled

end Sys2Proof.Machine
end

