-- ==== Sys2Proof/Machine/VectorMem.lean ====
section
/-! DEFINITION. VQUANT, VDEQ and VCBDEC with the quantiser and the codebook decoder (R61 to R65, R71, R72, R161 to
R164). -/

namespace Sys2Proof.Machine

/-! ### Quantisation (R71, R72) -/

/-- The largest normal exponent of an element format (R71). -/
def emaxOf (f : FFmt) : Int :=
  match f with
  | .e4m3 => 8
  | .e5m2 => 15
  | _ => 2

/-- The larger of two magnitudes that are not NaN. -/
def maxMag (x y : FVal) : FVal := if flt (fabs x) (fabs y) then fabs y else fabs x

/-- The scale byte of a block of values (R71). -/
def quantScale (f : FFmt) (l : List FVal) : Nat :=
  let amax := l.foldl maxMag (.fin false 0 0)
  if l.any FVal.isNan then 0xFF
  else match amax with
    | .fin _ m e => if m = 0 then 0x7F else (min 127 (max (-127) (e + Nat.log2 m - emaxOf f)) + 127).toNat
    | _ => 254

/-- One element under a chosen scale: a finite magnitude that rounds above the largest becomes the largest in every
mode; infinities follow the format and the mode (R71, R72). -/
def quantElem (f : FFmt) (mode : Rnd) (r scale : Nat) (v : FVal) : Nat :=
  match v with
  | .fin s m e =>
    if m = 0 then withSign f s 0 else withSign f s (min (magEnc f mode r m (e - (scale - 127))) f.maxEnc)
  | w => fround f mode r w

/-- Whether a block is rounded element by element: it holds no NaN and is not all zero (R71). -/
def quantRounds (l : List FVal) : Bool := !l.any FVal.isNan && !l.all FVal.isZero

/-- A block quantised with the draws given per element. -/
def quantBlock (f : FFmt) (mode : Rnd) (draws : List Nat) (l : List FVal) : Nat × List Nat :=
  let sc := quantScale f l
  if quantRounds l then (sc, (l.zip (draws ++ List.replicate l.length 0)).map fun p => quantElem f mode p.2 sc p.1)
  else (sc, l.map fun _ => 0)

/-- The scaled code of an element format (R57). -/
def scaledCode (f : FFmt) : Nat :=
  match f with
  | .e4m3 => 0x10
  | .e5m2 => 0x11
  | _ => 0x12

/-! ### Checks of the core's own scratchpad (R164) -/

/-- The checks of R58 on the bytes read at a list of runs, in order. -/
def checkOwn (s : State) : List (Nat × Nat) → Chk Unit
  | [] => .ok ()
  | (a, n) :: r => (checkRun s a a n).andThen fun _ => checkOwn s r

/-- Steps 1 and 2 of R164: every byte below the scratchpad's end, with the first byte that is not in ADDR (R307); then the alignments:
`mis` is the first value that fails one, and ADDR bears it (log 42). -/
def spadTests (runs : List (Nat × Nat)) (mis : Option Nat) : Chk Unit :=
  match runs.find? fun r => !decide (r.1 + r.2 ≤ spadSize), mis with
  | some r, _ => .error { cls := .spadRange, addr := BitVec.ofNat 64 (max r.1 spadSize) }
  | none, some a => .error { cls := .misaligned, addr := BitVec.ofNat 64 a }
  | none, none => .ok ()

/-! ### VQUANT (R161) -/

/-- The whole result of a VQUANT, on which three executions vote: the value for gd below, its 64 bytes above (R143). -/
def quantResult (d : Nat) (bs : List Byte) : BitVec 576 := BitVec.ofNat 576 (d % 2 ^ 64 + 2 ^ 64 * leNat bs)

/-- VQUANT: one block from offset S, read as a load reads it, to offset D (R164, R179); the descriptor value goes to gd, the block's descriptor stays. Reading a bolt-poisoned
tile raises nothing here (log 46). -/
def execVquant (x : VquantArgs) (s : State) : Out :=
  let tf := fltTy x.tb
  let sf := fltTy x.ta
  let n := if tf = .e2m1 then 128 else 64
  let bytes := n * sf.width / 8
  withRegs s [x.ga, x.gd] []
    (let src := (getG s s.cur x.ga).toNat
     let dst := (getG s s.cur x.gd).toNat
     Chk.run s ((spadTests [(src, bytes), (dst, 64)] ([src, dst].find? fun a => decide (a % 64 ≠ 0))).andThen fun _ =>
         checkOwn s [(src, bytes)]) fun _ =>
       let read := loadRuns s [(src, bytes)]
       let vals := (unpackBytes sf.width n read.1).map (fval sf)
       let t := roundElems x.rnd (fun _ => quantRounds vals) (fun _ r => r) (List.range n) read.2
       let q := quantBlock tf x.rnd t.1 vals
       let d := q.1 * 256 + scaledCode tf
       match vote t.2 (quantResult d (packBytes tf.width q.2)) with
       | none => faultCls { s with upsets := s.upsets.drop 3 } .tripleDisagree
       | some (v, s) =>
         let s := ctxStore s [(dst, 32), (dst + 32, 32)] (leBytes 64 (v.toNat / 2 ^ 64))
         .next (retire (setG s s.cur x.gd (v.setWidth 64)) s.cur 4))

/-! ### VDEQ (R162) -/

/-- The byte that a load of runs found at an offset. -/
def loadedByte (runs : List (Nat × Nat)) (bs : List Byte) (a : Nat) : Byte := bs.getD ((runLocs runs).idxOf a) 0

/-- The active elements of a destination with `n` elements. -/
def activeElems (s : State) (m : Fin 8) (n : Nat) : List Nat := (List.range n).filter (active s m n)

/-- VDEQ: n consecutive elements of a scaled block, of which the bytes of the active ones are read, as a load reads (R164, R179). With no element active nothing is read and nothing faults (R86; log 46).
Destination codes 1 to 3 are refused before the faults that R164 orders; a block of any other code has no elements to space or to
align, so that of its bytes the first alone is tested, before its code is refused; a bolt-poisoned tile raises nothing here (log 46). -/
def execVdeq (x : VdecArgs) (s : State) : Out :=
  let tf := fltTy x.tb
  let n := 256 / tf.width
  withRegs s [x.ga] [] (if !goodDest x.vd then faultCls s .illegalOperand else withVecs s (maskCode x.mask)
    (let a := (getG s s.cur x.ga).toNat
     let code := fmtOf s (a / 64)
     let ef := match fmtTy code with
       | .flt f => f
       | .int _ _ => .e4m3
     let act := activeElems s x.mask n
     let runs := if isScaled code then act.map fun e => (a + e * ef.width / 8, 1) else [(a, 1)]
     let mis := if isScaled code ∧ a % 64 % (n * ef.width / 8) ≠ 0 then some a else none
     Chk.run s (if act.isEmpty then .ok () else (spadTests runs mis).andThen fun _ =>
         (checkOwn s runs).andThen fun _ => demand (isScaled code) .illegalOperand) fun _ => withVecs s (mergeReads x.vd x.mask) <|
       let sc := scaleOf s (a / 64)
       let read := loadRuns s (if act.isEmpty then [] else runs)
       let raw (e : Nat) : Nat := bits (loadedByte runs read.1 (a + e * ef.width / 8)).toNat (e * ef.width % 8) ef.width
       let t := roundElems x.rnd (fun e => active s x.mask n e)
         (fun e r => fround tf x.rnd r (scaled ef sc (raw e))) (List.range n) read.2
       writeLanes t.2 x.vd x.mask x.agn tf.width n t.1 4))

/-! ### Codebooks (R63 to R65, R163) -/

/-- Weight k of an index under a pattern word, before its scale: (-1)^s × (m + h/2), +0 when the magnitude is 0 (R63). -/
def codeWeight (index pattern k : Nat) : FVal :=
  let m := 2 * bits pattern (3 * k) 3 + bits index 0 1
  if m = 0 then .fin false 0 0 else .fin (bit index (8 + k)) m (-1)

/-- The pattern that an index selects (R63). -/
def patternOf (index : Nat) : Nat := bits index 1 7

/-- A weight under its block's scale; a zero weight is +0 and a NaN scale makes it NaN (R65, R163). -/
def scaledWeight (index pattern k sc : Nat) : FVal := fmul (codeWeight index pattern k) (scaleVal sc)

/-- VCBDEC: gN addresses the indices in a codebook block, gN+1 the pattern table, which
it reads as loads read (R163, R164, R179). Destination codes 1 to 3 are refused before the faults that R164 orders; of the pattern table the selected words alone are addressed, found from the index bytes as they lie, before
the block's own checks; the alignments are tested with no element active too; the index block is checked, and its code, before the
blocks of the pattern table, and those in the order of the indices; a bolt-poisoned tile raises nothing here (log 46). -/
def execVcbdec (x : VdecArgs) (s : State) : Out :=
  let tf := fltTy x.tb
  let n := 256 / tf.width
  withRegs s [x.ga, pairReg x.ga] [] (if !goodDest x.vd then faultCls s .illegalOperand else withVecs s (maskCode x.mask)
    (let a := (getG s s.cur x.ga).toNat
     let p := (getG s s.cur (pairReg x.ga)).toNat
     let act := activeElems s x.mask n
     let used := (List.range (n / 8)).filter fun i => act.any fun e => decide (e / 8 = i)
     let idxRuns := used.map fun i => (a + 2 * i, 2)
     let idx := loadRuns s idxRuns
     let index (i : Nat) := leNat ((idx.1.drop (2 * used.idxOf i)).take 2)
     let patRuns := used.map fun i => (p + 4 * patternOf (index i), 4)
     let pats := loadRuns idx.2 patRuns
     let word (i : Nat) := leNat ((pats.1.drop (4 * used.idxOf i)).take 4)
     let mis := if a % 64 % (2 * (n / 8)) ≠ 0 then some a else if p % 4 ≠ 0 then some p else none
     Chk.run s ((spadTests (idxRuns ++ patRuns) mis).andThen fun _ =>
         (checkOwn s idxRuns).andThen fun _ =>
           (demand (used.isEmpty || decide (fmtOf s (a / 64) = 0x13)) .illegalOperand).andThen fun _ =>
             (checkOwn s patRuns).andThen fun _ =>
               demand (used.all fun i => decide (word i < 2 ^ 24)) .illegalOperand) fun _ => withVecs s (mergeReads x.vd x.mask) <|
       let sc := scaleOf s (a / 64)
       let t := roundElems x.rnd (fun e => active s x.mask n e)
         (fun e r => fround tf x.rnd r (scaledWeight (index (e / 8)) (word (e / 8)) (e % 8) sc)) (List.range n) pats.2
       writeLanes t.2 x.vd x.mask x.agn tf.width n t.1 4))

end Sys2Proof.Machine
end

