-- ==== Sys2Proof/Machine/Tile.lean ====
section
/-! DEFINITION. The tile engine (R216 to R244): the TE commands, what their jobs do, and remote commands that arrive. -/

namespace Sys2Proof.Machine

/-! ### Commands at issue (R230, R231, R233 to R243) -/

/-- Bits of a value above those that are given a meaning are 0 (R230). -/
def onlyBits (w : Word) (n : Nat) : Bool := decide (w.toNat < 2 ^ n)

/-- The alignment of a tile's address: 64 when packed, 8 under a stride (R233). -/
def tileAlign (a b : Word) : Chk Unit := multipleOf (if b.toNat % 2 ^ 16 = 0 then 64 else 8) a

/-- The limits of a stride: a multiple of 8, and 0 with a record (R233, R234). -/
def strideOk (bolt : Bool) (b : Word) : Bool :=
  decide (b.toNat % 2 ^ 16 % 8 = 0) && (!bolt || decide (b.toNat % 2 ^ 16 = 0))

/-- TLD (R233). -/
def execTld (x : TldArgs) (s : State) : Out :=
  command s x.gs (.tld x) x.ga x.gb tileAlign fun _ b =>
    strideOk x.bolt b && onlyBits b (if x.s then 22 else 16)

/-- Bytes of a tile that TST writes: an accumulator in its format, or a slot's own bytes (R234). -/
def tstBytes (s : State) (x : TstArgs) (b : Word) : Option Nat :=
  if x.s then (tilePlace s (bits b.toNat 16 6)).map fun p => tileBytes p.2
  else some (tileBytes (if bits b.toNat 24 8 = 0 then 0x09 else bits b.toNat 24 8))

/-- The limits of TST's gb (R234). -/
def tstOk (s : State) (x : TstArgs) (a b : Word) : Bool :=
  let f := bits b.toNat 24 8
  onlyBits b 33 && strideOk x.bolt b && decide (bits b.toNat 22 2 = 0) &&
    (if x.s then decide (f = 0) else decide (bits b.toNat 16 6 = 0) && [0x00, 0x09, 0x0A, 0x0B, 0x0C, 0x0D].contains f) &&
    (!b.getLsbD 32 || (onlyBits a 3 && decide (b.toNat % 2 ^ 16 = 0) &&
      match getHandle s s.cur (Fin.ofNat 8 a.toNat) with
      | none => false
      | some h => match tstBytes s x b with
        | some n => decide (n + (if x.bolt then 256 else 0) ≤ h.size)
        | none => true))

/-- TST (R234). -/
def execTst (x : TstArgs) (s : State) : Out :=
  command s x.gs (.tst x) x.ga x.gb (fun a b => if b.getLsbD 32 then .ok () else tileAlign a b) (tstOk s x)

/-- TMMA (R235). -/
def execTmma (x : TmmaArgs) (s : State) : Out :=
  command s x.gs (.tmma x) x.ga x.gb (fun _ _ => .ok ()) fun a b => onlyBits a (if x.h then 3 else 6) && onlyBits b 10

/-- TWLD (R237). -/
def execTwld (x : TwldArgs) (s : State) : Out :=
  command s x.gs (.twld x) x.ga x.gb (fun a _ => multipleOf 64 a) fun _ b =>
    onlyBits b 27 && decide (bits b.toNat 10 6 = 0) && decide (1 ≤ bits b.toNat 16 11) &&
      decide (bits b.toNat 0 10 + bits b.toNat 16 11 ≤ 1024)

/-- TCBT (R238). -/
def execTcbt (x : Eng1Args) (s : State) : Out :=
  command s x.gs .tcbt x.ga 0 (fun a _ => multipleOf 64 a) fun _ _ => true

/-- The slot that TZERO, TSCALE and TVFY name in gb (R230). -/
def slotOk (sl : Bool) (b : Word) : Bool := if sl then onlyBits b 6 else decide (b = 0)

/-- TZERO (R239). -/
def execTzero (x : TileArgs) (s : State) : Out :=
  command s x.gs (.tzero x) 0 x.gb (fun _ _ => .ok ()) fun _ b => slotOk x.s b

/-- TSCALE (R240). -/
def execTscale (x : TscaleArgs) (s : State) : Out :=
  command s x.gs (.tscale x) x.ga x.gb (fun _ _ => .ok ()) fun a b => onlyBits a 32 && slotOk x.s b

/-- TVFY (R241). -/
def execTvfy (x : TileArgs) (s : State) : Out :=
  command s x.gs (.tvfy x) 0 x.gb (fun _ _ => .ok ()) fun _ b => slotOk x.s b

/-- TREM (R244). -/
def execTrem (x : Eng2Args) (s : State) : Out :=
  command s x.gs .trem x.ga x.gb (fun _ b => multipleOf 32 b) (fun _ b => decide (b.toNat < spadSize)) [x.gb] [x.ga]

/-- TCAP (R243). -/
def execTcap (x : Eng2Args) (s : State) : Out :=
  command s x.gs .tcap x.ga x.gb (fun a _ => multipleOf 8 a) fun _ b =>
    onlyBits b 31 && decide (bits b.toNat 0 4 ≠ 0) && decide (bits b.toNat 4 12 = 0) && decide (1 ≤ bits b.toNat 16 15)

/-- TCFG (R242). -/
def execTcfg (x : Eng2Args) (s : State) : Out :=
  command s x.gs .tcfg x.ga x.gb (fun a _ => multipleOf 8 a) fun _ b => decide (b.toNat ≤ 64)

/-! ### Tiles read and written by jobs -/

/-- The bytes that hold element k of a tile with 256 elements of width w, and their offset. -/
def elemBytes (w : Nat) (raw : List Nat) (k : Nat) : Nat × List Byte :=
  if w = 4 then (k / 2, [BitVec.ofNat 8 (raw.getD (k / 2 * 2) 0 + 16 * raw.getD (k / 2 * 2 + 1) 0)])
  else (w / 8 * k, leBytes (w / 8) (raw.getD k 0))

/-- Bytes of a tile's own storage written: a slot's with the effects of an engine write, an accumulator's without. -/
def tilePut (s : State) (t loc : Nat) (bs : List Byte) : State := if t < 64 then poke s loc bs else setBytes s loc bs

/-- An element that check_fix changed written in place (R221). -/
def putElem (s : State) (t : Nat) (d : TileData) (k : Option Nat) : State :=
  match k, tilePlace s t with
  | some k, some (loc, fmt) => tilePut s t (loc + (elemBytes (fmtBits fmt) d.raw k).1) (elemBytes (fmtBits fmt) d.raw k).2
  | _, _ => s

/-- What check_fix does to a tile (R221): its boltrope becomes the actual sums; a changed element is written in place; a
correction is counted; a failure poisons it. -/
def applyFix (s : State) (t : Nat) (r : Fix × TileData × Bolt × Option Nat) : State :=
  match r with
  | (.ok, _, b, _) => setTileBolt s t b
  | (.fixed, d, b, k) =>
    let s := putElem (setTileBolt s t b) t d k
    { s with core := { s.core with corrected := s.core.corrected + 1 } }
  | (.fail, d, _, k) => setTileBits (putElem s t d k) t (tileUnverified s t) true

/-- The tile with its boltrope that an engine read finds after its check (R221 to R223): the state, the outcome, the
tile and its checksums. An unconfigured slot is BAD_DESC (R242). -/
def readChecked (s : State) (t n : Nat) : Eng (State × Fix × TileData × Bolt) :=
  match tilePlace s t with
  | none => .error .badDesc
  | some (loc, fmt) =>
    if tilePoisoned s t then .error .poison
    else match (if t < 64 then (engRead s reachSpad loc (tileBytes fmt)).map (fun _ => ()) else .ok ()) with
      | .error e => .error e
      | .ok _ =>
        let d := readTile s loc fmt
        if tileUnverified s t = false ∧ boltBroken s t = true then .error .poison
        else if tileUnverified s t then
          let s := setTileBits (setTileBolt s t (tileSums d)) t false false
          .ok ({ s with core := { s.core with unverified := s.core.unverified + 1 } }, .ok, d, tileSums d)
        else
          let b := tileBolt s t
          let r := checkFix n d b (magOf b)
          .ok (applyFix s t r, r.1, r.2.1, r.2.2.1)

/-- The tolerance of a tile for a job (R220). -/
def jobTol (s : State) (j : Job) (t : Nat) : Nat :=
  match tilePlace s t with
  | some (_, fmt) => tolFor fmt j.tolWide j.tolNarrow
  | none => j.tolWide

/-- The status of a job with no failed check (R221). -/
def fixStatus (l : List Fix) : StatusCode :=
  if l.contains .fail then .boltFail else if l.contains .fixed then .boltFixed else .ok

/-- The tile that a command names: an accumulator, or the slot given (R230). -/
def namedTile (sl : Bool) (acc : Fin 4) (slot : Nat) : Nat := if sl then slot else 64 + acc.val

/-- A job's end with an error and nothing counted. -/
def endsBad (s : State) (e : StatusCode) : Ended := (s, e, 0)

/-! ### TLD (R233) -/

/-- Rows read by an engine, in order; the first error ends the reading. -/
def readRows (s : State) (ok : Reach) (a stride n : Nat) : List Nat → Eng (List (List Byte))
  | [] => .ok []
  | i :: r =>
    match engRead s ok (a + i * stride) n with
    | .error e => .error e
    | .ok bs =>
      match readRows s ok a stride n r with
      | .error e => .error e
      | .ok l => .ok (bs :: l)

/-- The block addresses that a run of bytes touches. -/
def blocksOf (a n : Nat) : List Nat := if n = 0 then [] else (List.range ((a + n - 1) / 64 - a / 64 + 1)).map fun i => a / 64 + i

/-- The descriptor of the block at an address as an engine reads it. -/
def engDesc (s : State) (ok : Reach) (block : Nat) : BitVec 16 :=
  match engLoc s ok false (64 * block) with
  | .ok loc => if described loc then descOf s (loc / 64) else 0
  | .error _ => 0

/-- The format codes of the blocks that rows touch. -/
def rowCodes (s : State) (ok : Reach) (a stride n : Nat) : List Nat :=
  ((List.range 16).map fun i => (blocksOf (a + i * stride) n).map fun b => (engDesc s ok b).toNat % 256).flatten

/-- Rows and columns of 256 elements exchanged. -/
def transpose16 (l : List Nat) : List Nat := (List.range 256).map fun k => l.getD (16 * (k % 16) + k / 16) 0

/-- A transpose fits a tile's element size (R233). -/
def trFits (tr : Transpose) (w : Nat) : Bool :=
  match tr with
  | .none => true
  | .t8 => decide (w = 8)
  | .t16 => decide (w = 16)

/-- A slot's block descriptors written. -/
def slotDescs (s : State) (t loc n : Nat) (d : Nat → BitVec 16) : State :=
  if t < 64 then (List.range (n / 64)).foldl (fun s i => setDesc s (loc / 64 + i) (d i)) s else s

/-- A whole tile written with its boltrope unchecked. -/
def putTile (s : State) (t loc fmt : Nat) (raw : List Nat) : State := tilePut s t loc (packBytes (fmtBits fmt) raw)

/-- A TLD job. Every row is read before any is written, so that a page, a protection, poison or a code that a row meets ends it with
nothing written, count 0 and the destination as it was (log 91). -/
def runTld (x : TldArgs) (j : Job) (s : State) : Ended :=
  let b := j.b.toNat
  let t := namedTile x.s x.acc (bits b 16 6)
  let st := bits b 0 16
  let a := j.a.toNat
  match tilePlace s t with
  | none => endsBad s .badDesc
  | some (loc, fmt) =>
    let n := tileBytes fmt
    let rb := n / 16
    let stride := if st = 0 then rb else st
    let plain := decide (st = 0) && decide (x.tr = .none)
    let codes := rowCodes s reachTile a stride rb
    match readRows s reachTile a stride rb (List.range 16),
        (if x.bolt then engRead s reachTile (a + n) 256 else .ok []) with
    | .error e, _ => endsBad s e
    | _, .error e => endsBad s e
    | .ok rows, .ok rec =>
      if !trFits x.tr (fmtBits fmt) ||
          codes.any (fun c => !(decide (c = 0) || decide (c = fmt) || (plain && x.s && decide (scaledOf fmt = some c))))
      then endsBad s .badDesc
      else
        let raw := unpackBytes (fmtBits fmt) 256 rows.flatten
        let raw := if x.tr = .none then raw else transpose16 raw
        let src (i : Nat) : BitVec 16 := if plain then engDesc s reachTile (a / 64 + i) else BitVec.ofNat 16 fmt
        let s := slotDescs (putTile s t loc fmt raw) t loc n src
        let d := readTile s loc fmt
        let count := n + (if x.bolt then 256 else 0)
        if x.bolt then
          let p := if x.tr = .none then boltOf rec else boltSwap (boltOf rec)
          let r := checkFix (jobTol s j t) d p (magOf p)
          let s := applyFix s t r
          if r.1 = .fail then (s, .boltFail, count) else (setTileBits s t false false, fixStatus [r.1], count)
        else (setTileBits (setTileBolt s t (tileSums d)) t false false, .ok, count)

/-! ### TST (R234) -/

/-- Rows written by an engine in order, up to the first that it does not reach whole. -/
def writeRows (s : State) (ok : Reach) (stride : Nat) : Nat → List (List Byte) → State × Nat × Option StatusCode
  | _, [] => (s, 0, none)
  | a, bs :: r =>
    match engWritePart s ok a bs with
    | (s, n, some e) => (s, n, some e)
    | (s, n, none) =>
      let t := writeRows s ok stride (a + stride) r
      (t.1, n + t.2.1, t.2.2)

/-- The blocks that rows of n bytes cover whole. -/
def wholeBlocks (a stride n : Nat) : List Nat :=
  (((List.range 16).map fun i => blocksOf (a + i * stride) n).flatten.eraseDups).filter fun blk =>
    (List.range 64).all fun k => (List.range 16).any fun i =>
      decide (a + i * stride ≤ 64 * blk + k) && decide (64 * blk + k < a + i * stride + n)

/-- The source block's descriptor at an offset of a slot. -/
def slotDesc (s : State) (loc k : Nat) : BitVec 16 := descOf s ((loc + k) / 64)

/-- What a TST writes: format, elements and boltrope. -/
def tstOut (x : TstArgs) (b : Nat) (fmt : Nat) (d : TileData) : Nat × List Nat × Bolt :=
  if x.s then (fmt, d.raw, tileSums d) else
    let f := if bits b 24 8 = 0 then 0x09 else bits b 24 8
    match fmtTy f with
    | .flt ff =>
      let raw := d.raw.map fun e => rne ff (fval .f32 e)
      (f, raw, tileSums { ty := fmtTy f, raw := raw, scale := raw.map fun _ => none })
    | .int _ _ => (f, d.raw, tileSums d)

/-- Whether a slot's block bears a scaled code. -/
def slotScaled (s : State) (loc fmt : Nat) : Bool :=
  (blocksOf loc (tileBytes fmt)).any fun b => decide (scaledOf fmt = some (fmtOf s b))

/-- The tile written at an address with its record and its descriptors (R234). -/
def tstWrite (x : TstArgs) (src fmt a st : Nat) (o : Nat × List Nat × Bolt) (code : Nat) (s : State) :
    State × Nat × Option StatusCode :=
  let n := tileBytes o.1
  let rb := n / 16
  let bytes := packBytes (fmtBits o.1) o.2.1
  let r := if st = 0 then engWritePart s reachTile a bytes
    else writeRows s reachTile st a ((List.range 16).map fun i => (bytes.drop (rb * i)).take rb)
  match r with
  | (s, k, some e) => (s, k, some e)
  | (s, k, none) =>
    let s := if x.s && decide (st = 0) && decide (a % 64 = 0) then
        engDescs s reachTile a n fun i => some (slotDesc s src i)
      else (wholeBlocks a (if st = 0 then rb else st) rb).foldl (fun s blk =>
        engDescs s reachTile (64 * blk) 64 fun _ => some (BitVec.ofNat 16 (if x.s then fmt else code))) s
    if x.bolt then
      let w := engWritePart s reachTile (a + n) (boltBytes o.2.2)
      (engDescs w.1 reachTile (a + n) 256 fun _ => some 0, k + w.2.1, w.2.2)
    else (s, k, none)

/-- Whether an address lies in a range that a command admits. -/
def inReach (s : State) (ok : Reach) (a : Nat) : Bool :=
  ok (regionOf a) && !(decide (regionOf a = .gwin) && decide (domainSize s ≤ (a - gwinLoc) / spadSize))

/-- Whether a TST's destination, record included, lies whole in the ranges it admits; where it does not, nothing is written
(R233). -/
def tstReach (s : State) (x : TstArgs) (fmt a st : Nat) : Bool :=
  let n := tileBytes fmt
  let rb := n / 16
  let ends (a n : Nat) : Bool := inReach s reachTile a && inReach s reachTile (a + n - 1)
  ((List.range 16).all fun i => ends (a + i * (if st = 0 then rb else st)) rb) && (!x.bolt || ends (a + n) 256)

/-- A TST job; none while the handle that it fills has no room. -/
def runTst (x : TstArgs) (j : Job) (s : State) : Option Ended :=
  let b := j.b.toNat
  let t := namedTile x.s x.acc (bits b 16 6)
  let st := bits b 0 16
  match tilePlace s t with
  | none => some (endsBad s .badDesc)
  | some (loc, fmt) =>
    let dest := if bit b 32 then (match getHandle s j.ctx (Fin.ofNat 8 j.a.toNat) with
        | none => 0
        | some y => y.base + y.head * y.size) else j.a.toNat
    let loose := x.s && slotScaled s loc fmt && (decide (st ≠ 0) || decide (dest % 64 ≠ 0))
    if loose then some (endsBad s .badDesc)
    else match readChecked s t (jobTol s j t) with
      | .error e => some (endsBad s e)
      | .ok (s1, f, d, _) =>
        if f = .fail then some (s1, .boltFail, 0) else
          let o := tstOut x b fmt d
          if bit b 32 then
            let h : Fin 8 := Fin.ofNat 8 j.a.toNat
            match getHandle s1 j.ctx h with
            | none => some (endsBad s1 .badDesc)
            | some y =>
              if y.size < tileBytes o.1 + (if x.bolt then 256 else 0) then some (endsBad s1 .badDesc)
              else if y.count ≤ y.fill then none
              else
                let w := tstWrite x loc fmt dest 0 o (bits b 24 8) s1
                let s2 := setHandle w.1 j.ctx h (some { y with head := (y.head + 1) % y.count, fill := y.fill + 1 })
                some (s2, fixStatus [f], w.2.1)
          else if !tstReach s1 x o.1 j.a.toNat st then some (s1, .prot, 0)
          else
            let w := tstWrite x loc fmt j.a.toNat st o (bits b 24 8) s1
            match w.2.2 with
            | some e => some (w.1, e, w.2.1)
            | none => some (w.1, fixStatus [f], w.2.1)

/-! ### The weight buffer and B tiles (R227, R228, R237) -/

/-- The side state of a line. -/
def wline (s : State) (i : Nat) : WLine :=
  sparseGet (fun _ => { desc := 0, poison := false, job := none }) s.clu.wlines i

/-- The side state of a line written. -/
def setWline (s : State) (i : Nat) (w : WLine) : State :=
  { s with clu := { s.clu with wlines := sparsePut (fun _ => { desc := 0, poison := false, job := none }) s.clu.wlines i w } }

/-- Lines of a B tile by its format code (R228). -/
def bLines (code : Nat) : Option Nat :=
  match code with
  | 0x13 => some 1
  | 0x0E | 0x12 => some 2
  | 0x0C | 0x0D | 0x10 | 0x11 => some 4
  | 0x0A | 0x0B => some 8
  | _ => none

/-- A B tile: 256 decoded values in order (k, j) at 16k + j, each with its block's scale byte where it has one. -/
structure BTile where
  val   : List FVal
  scale : List (Option Nat)

/-- The pattern word of a number in the pattern table (R227). -/
def patternWord (s : State) (p : Nat) : Nat := readLoc s (patLoc + 4 * p) 4

/-- The weight at place e of a codebook line, or none where it is undecodable (R63, R64). -/
def codeAt (s : State) (line e : Nat) : Option FVal :=
  let i := readLoc s (wbufLoc + 64 * line + 2 * (e / 8)) 2
  let w := patternWord s (patternOf i)
  if w / 2 ^ 24 = 0 then some (codeWeight i w (e % 8)) else none

/-- The element at place e of a B tile that begins at a line (R228). -/
def bElem (s : State) (first code e : Nat) : Option FVal :=
  if code = 0x13 then codeAt s first e else
    let w := fmtBits code
    match fmtTy code with
    | .flt f => some (fval f (bits (readLoc s (wbufLoc + 64 * first + w * e / 8) ((w + 7) / 8)) (w * e % 8) w))
    | .int _ _ => none

/-- The scale of the element at place e of a B tile (R228). -/
def bScale (s : State) (first code e : Nat) : Option Nat :=
  if code = 0x13 ∨ isScaled code then
    let w := if code = 0x13 then 2 else fmtBits code
    some ((wline s (first + w * e / 512)).desc.toNat / 256)
  else none

/-- A B tile's elements; none when an index is undecodable (R64, R228). -/
def readB (s : State) (first code : Nat) : Option BTile :=
  let place (i : Nat) : Nat := 16 * (i % 16) + i / 16
  let vals := (List.range 256).map fun i => bElem s first code (place i)
  if vals.any Option.isNone then none
  else some { val := vals.map fun v => v.getD .nan
              scale := (List.range 256).map fun i => bScale s first code (place i) }

/-- The scaled values of a B tile, rounded to f32 (R219, R236). -/
def bVals (b : BTile) : List FVal :=
  (b.val.zip b.scale).map fun p => match p.2 with
    | none => p.1
    | some k => r32 (fmul p.1 (scaleVal k))

/-- The checksums of values in row-major order (R219). -/
def sumsOf (v : List FVal) : Bolt :=
  let z : FVal := .fin false 0 0
  let a := v.map fabs
  { row := (List.range 16).map fun i => sum32 (rowOf v i), col := (List.range 16).map fun j => sum32 (colOf z v j),
    rowMag := (List.range 16).map fun i => sum32 (rowOf a i), colMag := (List.range 16).map fun j => sum32 (colOf z a j) }

/-- The pattern table is valid for the running job (R227). -/
def patternValid (s : State) : Bool := decide (s.clu.pattern = some (curJobId s))

/-- The B tile of a TMMA with its errors in order (R235). -/
def fetchB (s : State) (first : Nat) : Eng (Nat × BTile) :=
  let code := (wline s first).desc.toNat % 256
  match bLines code with
  | none => .error .badDesc
  | some n =>
    let ls := (List.range n).map fun i => wline s (first + i)
    if 1024 < first + n || ls.any (fun l => l.job != some (curJobId s) || decide (l.desc.toNat % 256 ≠ code)) then
      .error .badDesc
    else if ls.any fun l => l.poison then .error .poison
    else if code = 0x13 && !patternValid s then .error .badDesc
    else match readB s first code with
      | some b => .ok (code, b)
      | none => .error .badDesc

/-- The code that TWLD loads (R237). -/
def twldCode (c : Nat) : Bool :=
  decide (c = 0) || (decide (0x0A ≤ c) && decide (c ≤ 0x0E)) || (decide (0x10 ≤ c) && decide (c ≤ 0x13))

/-- Lines loaded in order; the count loaded and what stopped it. -/
def loadLines (s : State) : List Nat → Nat → Nat → State × Nat × Option StatusCode
  | [], _, _ => (s, 0, none)
  | i :: r, a, first =>
    match engRead s reachTile (a + 64 * i) 64 with
    | .error e => (s, 0, some e)
    | .ok bs =>
      let d := engDesc s reachTile (a / 64 + i)
      if !twldCode (d.toNat % 256) then (s, 0, some .badDesc) else
        let s := setWline (setBytes s (wbufLoc + 64 * (first + i)) bs) (first + i)
          { desc := d, poison := false, job := some (curJobId s) }
        let t := loadLines s r a first
        (t.1, t.2.1 + 1, t.2.2)

/-- Whether a B tile's sums fail against a record (R237). -/
def bFails (n : Nat) (v : List FVal) (p : Bolt) : Bool :=
  let act := sumsOf v
  let m := magOf p
  !(failing (.flt .f32) n act.row p.row m.row act.rowMag).isEmpty ||
    !(failing (.flt .f32) n act.col p.col m.col act.colMag).isEmpty

/-- A TWLD job (R237). A verifying one whose lines bear mixed codes, or whose codebook lines have no valid pattern table, has loaded its
lines and ends with BAD_DESC and their count: the rule names no status for it (log 51). -/
def runTwld (x : TwldArgs) (j : Job) (s : State) : Ended :=
  let a := j.a.toNat
  let first := bits j.b.toNat 0 10
  let n := bits j.b.toNat 16 11
  let code := (engDesc s reachTile (a / 64)).toNat % 256
  if x.chk && decide (bLines code ≠ some n) then
    match engRead s reachTile a 64 with
    | .error e => endsBad s e
    | .ok _ => endsBad s .badDesc
  else match loadLines s (List.range n) a first with
    | (s, k, some e) => (s, e, k)
    | (s, k, none) =>
      if !x.chk then (s, .ok, k)
      else match engRead s reachTile (a + 64 * n) 256 with
        | .error e => (s, e, k)
        | .ok rec =>
          if (List.range n).any (fun i => decide ((wline s (first + i)).desc.toNat % 256 ≠ code)) ||
              (decide (code = 0x13) && !patternValid s) then (s, .badDesc, k)
          else match readB s first code with
            | none => (s, .badDesc, k)
            | some b =>
              if bFails j.tolNarrow (bVals b) (boltOf rec) then
                ((List.range n).foldl (fun s i => setWline s (first + i) { wline s (first + i) with poison := true }) s,
                  .boltFail, k)
              else (s, .ok, k)

/-- A TCBT job (R238). -/
def runTcbt (j : Job) (s : State) : Ended :=
  match engRead s reachTile j.a.toNat 512 with
  | .error e => endsBad s e
  | .ok bs => ({ setBytes s patLoc bs with clu := { s.clu with pattern := some (curJobId s) } }, .ok, 128)

/-! ### TMMA (R229, R235, R236) -/

/-- The width class of an A or B format code (R229). -/
def widthClass (code : Nat) : Nat :=
  match code with
  | 0x0A | 0x0B => 16
  | 0x0C | 0x0D | 0x10 | 0x11 | 0x13 => 8
  | 0x0E | 0x12 => 4
  | _ => 0

/-- The element format of a scaled code. -/
def elemCode (code : Nat) : Nat :=
  match code with
  | 0x10 => 0x0C
  | 0x11 => 0x0D
  | 0x12 => 0x0E
  | c => c

/-- What TMMA reads as A: the state, the check's outcome, the tile, its checksums and its code. -/
structure AOperand where
  s    : State
  fix  : Fix
  tile : TileData
  bolt : Bolt
  code : Nat

/-- A from a tile slot: every block bears 0x00, the slot's format, or its scaled code (R229). -/
def slotA (s : State) (t n : Nat) : Eng AOperand :=
  match readChecked s t n, tilePlace s t with
  | .error e, _ => .error e
  | .ok (s', f, d, b), some (loc, fmt) =>
    let codes := (blocksOf loc (tileBytes fmt)).map fun k => fmtOf s k
    .ok { s := s', fix := f, tile := d, bolt := b
          code := if codes.all fun c => decide (c = 0) || decide (c = fmt) || decide (scaledOf fmt = some c) then fmt else 0 }
  | .ok _, none => .error .badDesc

/-- A from the oldest filled slot of a handle: one code over all its blocks (R229); a slot too small for the tile is
BAD_DESC (log 29). -/
def handleA (s : State) (x : Handle) : Eng AOperand :=
  let loc := x.base + x.tail * x.size
  let code := fmtOf s (loc / 64)
  let fmt := elemCode code
  let n := tileBytes fmt
  if widthClass code = 0 ∨ code = 0x13 ∨ x.size < n then
    match engRead s reachSpad loc 1 with
    | .error e => .error e
    | .ok _ => .error .badDesc
  else match engRead s reachSpad loc n with
    | .error e => .error e
    | .ok _ =>
      if (blocksOf loc n).any fun k => decide (fmtOf s k ≠ code) then .error .badDesc else
        let d := readTile s loc fmt
        .ok { s := s, fix := .ok, tile := d, bolt := tileSums d, code := fmt }

/-- The factor of a scale that may be absent. -/
def factor (k : Option Nat) : FVal :=
  match k with
  | none => .fin false 1 0
  | some k => scaleVal k

/-- The element format of a tile. -/
def tileFmt (d : TileData) : FFmt :=
  match d.ty with
  | .flt f => f
  | .int _ _ => .f32

/-- S[i][j]: the tree sum of exact products of decoded values, times the combined factor (R75, R235). -/
def product (a : TileData) (b : BTile) (i j : Nat) : FVal :=
  let av := a.raw.map (fval (tileFmt a))
  let t := treeSum32 ((List.range 16).map fun k => fmul (av.getD (16 * i + k) .nan) (b.val.getD (16 * k + j) .nan))
  let ea := factor (a.scale.getD (16 * i) none)
  let eb := factor (b.scale.getD j none)
  r32 (fmul (fmul t ea) eb)

/-- C combined with S (R75). -/
def combine (ctl : TmmaCtl) (gamma : FVal) (c s : FVal) : Nat :=
  match ctl with
  | .ovw => rne .f32 s
  | .acc => rne .f32 (fadd c s)
  | .fade => rne .f32 (fadd (fmul gamma c) s)
  | .sub => rne .f32 (fsub c s)

/-- The checksums predicted for the product (R236). -/
def predictS (a : TileData) (ab : Bolt) (bv : List FVal) : Bolt :=
  let av := tileVals a (tileFmt a)
  let bs := sumsOf bv
  let r := List.range 16
  let f (l : List Nat) (k : Nat) := fval .f32 (l.getD k 0)
  let sum (g : Nat → FVal) := rne .f32 (treeSum32 (r.map g))
  { row := r.map fun i => sum fun k => fmul (av.getD (16 * i + k) .nan) (f bs.row k)
    col := r.map fun j => sum fun k => fmul (f ab.col k) (bv.getD (16 * k + j) .nan)
    rowMag := r.map fun i => sum fun k => fmul (fabs (av.getD (16 * i + k) .nan)) (f bs.rowMag k)
    colMag := r.map fun j => sum fun k => fmul (f ab.colMag k) (fabs (bv.getD (16 * k + j) .nan)) }

/-- The prediction P for C (R236). -/
def predictP (ctl : TmmaCtl) (gamma : FVal) (c ps : Bolt) : Bolt :=
  let f (x y : List Nat) := (List.range 16).map fun i => combine ctl gamma (fval .f32 (x.getD i 0)) (fval .f32 (y.getD i 0))
  { row := f c.row ps.row, col := f c.col ps.col, rowMag := ps.rowMag, colMag := ps.colMag }

/-- The allowance magnitudes M for C, exactly (R236). -/
def predictM (ctl : TmmaCtl) (gamma : FVal) (c ps : Bolt) : Mag :=
  let f (x y : List Nat) := (List.range 16).map fun i =>
    let p := fval .f32 (y.getD i 0)
    let q := fval .f32 (x.getD i 0)
    match ctl with
    | .ovw => p
    | .acc | .sub => fadd q p
    | .fade => fadd (fmul (fabs gamma) q) p
  { row := f c.rowMag ps.rowMag, col := f c.colMag ps.colMag }

/-- Steps 4 and 5 of a TMMA (R235): C written, predicted and checked. -/
def multiply (x : TmmaArgs) (j : Job) (a : AOperand) (b : BTile) (c : TileData) (cb : Bolt) (fixes : List Fix) (s : State) :
    Ended :=
  let t := 64 + x.acc.val
  let gamma := fval .f32 j.gamma.toNat
  let raw := (List.range 256).map fun k =>
    combine x.ctl gamma (fval .f32 (c.raw.getD k 0)) (product a.tile b (k / 16) (k % 16))
  let s := setBytes s (accLoc + 0x400 * x.acc.val) (packBytes 32 raw)
  let ps := predictS a.tile a.bolt (bVals b)
  let d := readTile s (accLoc + 0x400 * x.acc.val) 0x09
  let r := checkFix j.tolWide d (predictP x.ctl gamma cb ps) (predictM x.ctl gamma cb ps)
  let s := applyFix s t r
  if r.1 = .fail then (s, .boltFail, 1) else (setTileBits s t false false, fixStatus (r.1 :: fixes), 1)

/-- Steps 1 to 3 of a TMMA once A is read (R235). -/
def tmmaWithA (x : TmmaArgs) (j : Job) (a : AOperand) : Ended :=
  let t := 64 + x.acc.val
  match fetchB a.s (bits j.b.toNat 0 10) with
  | .error e => endsBad a.s e
  | .ok (code, b) =>
    if widthClass a.code = 0 ∨ widthClass a.code ≠ widthClass code then endsBad a.s .badDesc
    else if x.ctl = .ovw then
      if a.fix = .fail then (a.s, .boltFail, 0)
      else multiply x j a b { ty := .flt .f32, raw := [], scale := [] } { row := [], col := [], rowMag := [], colMag := [] } [a.fix] a.s
    else match readChecked a.s t j.tolWide with
      | .error e => endsBad a.s e
      | .ok (s, f, c, cb) =>
        if a.fix = .fail ∨ f = .fail then (s, .boltFail, 0) else multiply x j a b c cb [a.fix, f] s

/-- A TMMA job; none while the handle it reads holds no filled slot (R235). -/
def runTmma (x : TmmaArgs) (j : Job) (s : State) : Option Ended :=
  if x.h then
    let h : Fin 8 := Fin.ofNat 8 j.a.toNat
    match getHandle s j.ctx h with
    | none => some (endsBad s .badDesc)
    | some y =>
      if y.fill = 0 then none
      else match handleA s y with
        | .error e => some (endsBad s e)
        | .ok a =>
          let s' := if x.adv then
              setHandle a.s j.ctx h (some { y with tail := (y.tail + 1) % y.count, fill := y.fill - 1 })
            else a.s
          some (tmmaWithA x j { a with s := s' })
  else
    let t := bits j.a.toNat 0 6
    match slotA s t (jobTol s j t) with
    | .error e => some (endsBad s e)
    | .ok a => some (tmmaWithA x j a)

/-! ### TZERO, TSCALE, TVFY (R239 to R241) -/

/-- A boltrope of zeros. -/
def zeroBolt : Bolt :=
  let z := List.replicate 16 0
  { row := z, col := z, rowMag := z, colMag := z }

/-- A TZERO job. -/
def runTzero (x : TileArgs) (j : Job) (s : State) : Ended :=
  let t := namedTile x.s x.acc (bits j.b.toNat 0 6)
  match tilePlace s t with
  | none => endsBad s .badDesc
  | some (loc, fmt) =>
    let n := tileBytes fmt
    let s := slotDescs (tilePut s t loc (List.replicate n 0)) t loc n fun _ => BitVec.ofNat 16 fmt
    (setTileBits (setTileBolt s t zeroBolt) t false false, .ok, 1)

/-- A TSCALE job. -/
def runTscale (x : TscaleArgs) (j : Job) (s : State) : Ended :=
  let t := namedTile x.s x.acc (bits j.b.toNat 0 6)
  let f := fval .f32 (bits j.a.toNat 0 32)
  match tilePlace s t with
  | none => endsBad s .badDesc
  | some (loc, fmt) =>
    if isIntFmt fmt then endsBad s .badDesc
    else match readChecked s t (jobTol s j t) with
      | .error e => endsBad s e
      | .ok (s, fx, d, b) =>
        if fx = .fail then (s, .boltFail, 0) else
          let up (l : List Nat) := l.map fun e => rne .f32 (fmul f (fval .f32 e))
          let mg (l : List Nat) := l.map fun e => fmul (fabs f) (fval .f32 e)
          let p : Bolt := { row := up b.row, col := up b.col, rowMag := b.rowMag, colMag := b.colMag }
          let m : Mag := { row := mg b.rowMag, col := mg b.colMag }
          let raw := d.raw.map fun e => rne (tileFmt d) (fmul f (fval (tileFmt d) e))
          let s := putTile s t loc fmt raw
          let r := checkFix (jobTol s j t) (readTile s loc fmt) p m
          (applyFix s t r, fixStatus [r.1, fx], 1)

/-- A TVFY job. -/
def runTvfy (x : TileArgs) (j : Job) (s : State) : Ended :=
  let t := namedTile x.s x.acc (bits j.b.toNat 0 6)
  match readChecked s t (jobTol s j t) with
  | .error e => endsBad s e
  | .ok (s, f, _, _) => (s, fixStatus [f], 1)

/-! ### TCFG and TCAP (R121, R242, R243) -/

/-- A record of a tile table (R121): slot, offset and format, or none where it breaks the layout or passes the end. -/
def tileRecord (bs : List Byte) : Option (Nat × TileSlot) :=
  let off := leNat (bs.take 4)
  let fmt := leNat ((bs.drop 4).take 1)
  let slot := leNat ((bs.drop 5).take 1)
  let x : TileSlot := { off := off, fmt := fmt, unverified := true, poisoned := false }
  if slotGood x = true ∧ slot < 64 ∧ leNat ((bs.drop 6).take 2) = 0 then some (slot, x) else none

/-- Whether two tiles of a table clash: one slot, or overlapping bytes (R242). -/
def tilesClash (x y : Nat × TileSlot) : Bool :=
  decide (x.1 = y.1) || (decide (x.2.off < y.2.off + tileBytes y.2.fmt) && decide (y.2.off < x.2.off + tileBytes x.2.fmt))

/-- Whether any two tiles of a table clash. -/
def anyClash : List (Nat × TileSlot) → Bool
  | [] => false
  | x :: r => r.any (tilesClash x) || anyClash r

/-- A TCFG job. -/
def runTcfg (j : Job) (s : State) : Ended :=
  let n := j.b.toNat
  match (if n = 0 then .ok [] else engRead s reachTile j.a.toNat (8 * n)) with
  | .error e => endsBad s e
  | .ok bs =>
    let recs := (List.range n).map fun i => tileRecord ((bs.drop (8 * i)).take 8)
    let good := recs.filterMap id
    if recs.any Option.isNone || anyClash good then endsBad s .badDesc else
      let tiles := Vector.ofFn fun t : Fin 64 => (good.find? fun r => decide (r.1 = t.val)).map fun r => r.2
      ({ s with core := { s.core with tiles := tiles } }, .ok, n)

/-- Bits [47:0] of a capability (R243). -/
def capBody (s : State) (mask life : Nat) : Nat :=
  let exp := (s.mod.tick.toNat / 2 ^ 20 + life) % 2 ^ 16
  exp + mask * 2 ^ 16 + s.core.cix * 2 ^ 20 + (64 * s.core.row + s.core.col) * 2 ^ 23 + s.core.die * 2 ^ 36 +
    s.core.modId % 256 * 2 ^ 40

/-- A TCAP job: an 8-byte engine write at ga, in any range that the copy unit reaches (R243; log 51). -/
def runTcap (j : Job) (s : State) : Ended :=
  let s := observeTick s
  let body := capBody s (bits j.b.toNat 0 4) (bits j.b.toNat 16 16)
  let cap := (Config.capCheck body (curJobId s)).toNat * 2 ^ 48 + body
  match engWrite s reachCopy j.a.toNat (leBytes 8 cap) with
  | (s, some e) => (s, e, 0)
  | (s, none) => (s, .ok, 1)

/-! ### TREM (R244) -/

/-- The grounds for rejection that lie in the capability itself, whichever core it names (R244). -/
def capStale (s : State) (cap srcMod acc : Nat) : Bool :=
  let life := (bits cap 0 16 + 2 ^ 16 - s.mod.tick.toNat / 2 ^ 20 % 2 ^ 16) % 2 ^ 16
  decide (bits cap 48 16 ≠ (Config.capCheck (bits cap 0 48) (curJobId s)).toNat) ||
    decide (bits cap 40 8 ≠ srcMod % 256) || decide (life = 0) || decide (32767 < life) || !bit cap (16 + acc)

/-- Whether a capability is rejected by this core (R244). -/
def capRejected (s : State) (cap srcMod acc : Nat) : Bool := capStale s cap srcMod acc || !s.core.groupLive

/-- Whether a capability names this core (R243). -/
def capNamesMe (s : State) (cap : Nat) : Bool :=
  decide (bits cap 20 28 = capBody s 0 0 / 2 ^ 20)

/-- The command of a TREM record, or none where it breaks the layout (R244). -/
def remCommand (cmd : BitVec 32) (opb : Nat) : Option Cmd :=
  if cmd.toNat % 32 ≠ 0x13 then none else
  match decodeTe cmd.toNat with
  | .ok (.tmma x) => if x.adv = false ∧ x.h = false ∧ x.gs = 0 ∧ x.ga = 0 ∧ x.gb = 0 then some (.tmma x) else none
  | .ok (.tst x) =>
    if x.s = false ∧ x.gs = 0 ∧ x.ga = 0 ∧ x.gb = 0 ∧ bit opb 32 = false then some (.tst x) else none
  | .ok (.tzero x) => if x.s = false ∧ x.gs = 0 ∧ x.gb = 0 then some (.tzero x) else none
  | .ok (.tscale x) => if x.s = false ∧ x.gs = 0 ∧ x.ga = 0 ∧ x.gb = 0 then some (.tscale x) else none
  | .ok (.tvfy x) => if x.s = false ∧ x.gs = 0 ∧ x.gb = 0 then some (.tvfy x) else none
  | _ => none

/-- The accumulator that a remote command names (R244). -/
def remAcc (c : Cmd) : Nat := ((cmdAcc c).getD 0).val

/-- Whether the values OPA and OPB keep the limits of the command; a breach is BAD_DESC (R244, R356; log 30). -/
def remLimits (s : State) (c : Cmd) (a b : Word) : Bool :=
  match c with
  | .tmma _ => onlyBits a 6 && onlyBits b 10
  | .tst x => (match tileAlign a b with | .ok _ => true | .error _ => false) && tstOk s x a b
  | .tscale _ => onlyBits a 32 && decide (b = 0)
  | _ => decide (a = 0) && decide (b = 0)

/-- A remote command performed on this core's tiles. -/
def runRemote (c : Cmd) (j : Job) (s : State) : Ended :=
  if !remLimits s c j.a j.b then endsBad s .badDesc
  else match c with
    | .tmma x => (runTmma x j s).getD (endsBad s .badDesc)
    | .tst x => (runTst x j s).getD (endsBad s .badDesc)
    | .tzero x => runTzero x j s
    | .tscale x => runTscale x j s
    | .tvfy x => runTvfy x j s
    | _ => endsBad s .badDesc

/-- The answer of a core that is not this one, whose state is not held here: a free status (R244; log 25). -/
def remoteStatus (s : State) : Ended :=
  (s.tickChoice, statusOfNum (Config.remoteReply s.choice % 16), Config.remoteReply s.choice / 16 % 2 ^ 48)

/-- A TREM job. -/
def runTrem (j : Job) (s : State) : Ended :=
  let cap := j.a.toNat
  match j.recordStop with
  | some e => endsBad s e
  | none =>
    let s := observeTick s
    let field (o n : Nat) := leNat ((j.record.drop o).take n)
    match remCommand (BitVec.ofNat 32 (field 0 4)) (field 0x10 8) with
    | none => endsBad s .badDesc
    | some c =>
      if field 4 4 ≠ 0 ∨ field 0x18 8 ≠ 0 then endsBad s .badDesc
      else if capNamesMe s cap then
        if capRejected s cap s.core.modId (remAcc c) then endsBad s .capReject
        else runRemote c { j with a := BitVec.ofNat 64 (field 8 8), b := BitVec.ofNat 64 (field 0x10 8), cmd := c } s
      else if capStale s cap s.core.modId (remAcc c) then endsBad s .capReject
      else remoteStatus s

/-- A reply to another module or core (R244). -/
def replyStatus (s : State) (origin : Nat) (code : StatusCode) : State :=
  let w := (statusWord .tile code 0).toNat
  { s with mod := { s.mod with messages := s.mod.messages ++ [(origin, w)], outbox := s.mod.outbox ++ [(2, origin, w)] } }

/-- A remote command as it takes an entry of the job queue. It works with this core's TE_GAMMA and tolerances as they stand at its
arrival (log 75). -/
def remoteJob (s : State) (t : TremCmd) (c : Cmd) : Job :=
  { id := s.clu.nextJob, ctx := 0, sreg := 0, cmd := c, word := t.cmd, a := t.opa, b := t.opb,
    gamma := s.core.gamma.truncate 32, tolWide := s.core.tolWide.toNat, tolNarrow := s.core.tolNarrow.toNat,
    preds := [], started := false, done := 0, resume := [], record := [], recordStop := none, status := none, binding := none, shadows := [],
    remote := some t.origin, agreed := 0, pc := 0, missed := none, startNo := 0, seq := 0, unbinds := false }

/-- A remote command at a core that is being saved: it is checked as at the core that the record keeps, whose job queue takes it, to run
when it resumes (R244, R316; log 68). -/
def holdRemote (t : TremCmd) (c : Cmd) (r : SavedCore) (s : State) : Out :=
  let u := { s with core := r.core }
  if capRejected u t.cap.toNat t.srcMod (remAcc c) then .next (replyStatus s t.origin .capReject)
  else if 32 ≤ r.jobs.length then .refused .eventNotEnabled
  else
    let r' := { r with jobs := r.jobs ++ [remoteJob u t c] }
    .next { s with saved := s.saved.dropLast ++ [r'], clu := { s.clu with nextJob := s.clu.nextJob + 1 } }

/-- TREM_COMMAND_ARRIVAL (R244): once what happens before it has been applied here, as its clock says (R210, R212), the capability is
checked and the command takes an entry of the job queue; a full queue holds it at its
sender. A core that is being saved holds it in its own job queue (R316). A sealed or fenced core answers with an error reply, which ends
the sender's job with POISON (R311, R320). -/
def execTremCommandArrival (t : TremCmd) (s : State) : Out :=
  if !clockSeen s t.clock then .refused .eventNotEnabled
  else if s.core.sealed ∨ s.core.fenced then .next (replyStatus s t.origin .poison)
  else
    let s := observeTick s
    match remCommand t.cmd t.opb.toNat with
    | none => .next (replyStatus s t.origin .badDesc)
    | some c =>
      if !capNamesMe s t.cap.toNat then .next (replyStatus s t.origin .capReject)
      else match s.core.saving, s.saved.getLast? with
        | true, some r => holdRemote t c r s
        | _, _ =>
          if capRejected s t.cap.toNat t.srcMod (remAcc c) then .next (replyStatus s t.origin .capReject)
          else if !queueRoom s then .refused .eventNotEnabled
          else
            let j := remoteJob s t c
            let u := { s with clu := { s.clu with jobs := s.clu.jobs ++ [j], nextJob := s.clu.nextJob + 1 } }
            .next (clockJoined (unaware u (.job j.id)) (.job j.id) t.clock .all)

end Sys2Proof.Machine
end

