-- ==== Sys2Proof/Machine/Copy.lean ====
section
/-! DEFINITION. The copy unit (R66 to R70, R271 to R289): CPY with its qualifiers, gather and scatter, collective
reduction and user-mode queues. A job's accesses are performed in one step, at its completion (log 31). -/

namespace Sys2Proof.Machine

/-! ### Commands at issue (R271, R273) -/

/-- A descriptor's offset: a multiple of 32 below 0x2_0000 (R273). -/
def recordOk (a _b : Word) : Bool := decide (a.toNat < spadSize)

/-- An engine command whose ga is the offset of a 32-byte descriptor or record (R273). -/
def recordCommand (s : State) (gs : GReg) (cmd : Cmd) (ga : GReg) : Out :=
  command s gs cmd ga 0 (fun a _ => multipleOf 32 a) recordOk

def execCpy (x : CpyArgs) (s : State) : Out := recordCommand s x.gs (.cpy x) x.ga
def execCgather (x : Eng1Args) (s : State) : Out := recordCommand s x.gs .cgather x.ga
def execCscatter (x : Eng1Args) (s : State) : Out := recordCommand s x.gs .cscatter x.ga

/-- CRED: it is refused wherever BSYNC at its level is (R284), after its operand tests. -/
def execCred (x : CredArgs) (s : State) : Out :=
  withRegs s [x.ga] []
    (let a := getG s s.cur x.ga
     Chk.run s (multipleOf 32 a) fun _ =>
       if x.gs = 0 ∨ recordOk a 0 = false then faultCls s .illegalOperand
       else if syncRefused s x.level || s.core.phase.isSome then faultCls s .illegalSync
       else if isPending s s.cur x.gs then waitFor s (.pending x.gs)
       else if !queueRoom s then waitFor s .queueFull
       else
         let n := s.core.credSeq[x.level.val]'x.level.isLt
         let t := { s with core := { s.core with credSeq := s.core.credSeq.set x.level.val (n + 1) x.level.isLt } }
         .next (retire (pushJob (markSynced t) { newJob t x.gs (.cred x.level) a 0 with seq := n }) s.cur 4))

/-- CQPUT (R273, R287). -/
def execCqput (x : Eng2Args) (s : State) : Out :=
  command s x.gs .cqput x.ga x.gb (fun a b => (multipleOf 64 a).andThen fun _ => multipleOf 64 b) fun _ b =>
    decide (b.toNat < spadSize)

/-- The predecessor that a register adds: the job pending in it (R38, R288). -/
def addPred (s : State) (l : List Pred) (r : GReg) : List Pred :=
  match (if r = 0 then none else (s.ctx s.cur).pend[r.val]'r.isLt) with
  | some j => if l.any fun p => decide (p.job = j) then l else l ++ [{ job := j, outcome := none }]
  | none => l

/-- CDEP: the pending jobs of the registers named become predecessors of the next command (R38, R288). -/
def execCdep (x : Eng2Args) (s : State) : Out :=
  let y := s.ctx s.cur
  let deps := [x.gs, x.ga, x.gb].foldl (addPred s) y.deps
  .next (retire (s.setCtx s.cur { y with deps := deps }) s.cur 4)

/-! ### Descriptors (R257, R273) -/

/-- The descriptor of a job: the bytes read at its start, or what stopped that reading (R257, R273). -/
def jobRecord (j : Job) : Eng (List Byte) :=
  match j.recordStop with
  | some e => .error e
  | none => .ok j.record

/-- A job's descriptor as far as it is known before it is performed: as it was read at the start, or as it stands before that. -/
def recordNow (s : State) (j : Job) : List Byte :=
  if j.started then j.record else readBytes s (recordAddr j.cmd j.a j.b) (recordLen j.cmd)

/-- A little-endian field of a record. -/
def rfield (rec : List Byte) (off n : Nat) : Nat := leNat ((rec.drop off).take n)

/-! ### Addresses with pod references (R280) -/

/-- Where an address of the copy unit leads: an address of this module, or another module. -/
inductive Place where
  | here (ok : Reach) (a : Nat)
  | there (a : Nat)

/-- An address resolved (R276, R280); without the feature every pod reference ends with PROT (R343). -/
def place (s : State) (a : Nat) : Eng Place :=
  if !bit a 63 then .ok (.here reachCopy a)
  else
    let m := bits a 55 8
    let v := bits a 0 48
    if bits a 48 7 ≠ 0 ∨ regionOf v ≠ .hbm ∨ feature s 8 = false then .error .prot
    else if m = s.mod.modnum then .ok (.here reachHbm v)
    else if inGang s m then .ok (.there v) else .error .prot

/-- Whether an address leads to another module. -/
def isRemote (s : State) (a : Nat) : Bool :=
  match place s a with
  | .ok (.there _) => true
  | _ => false

/-- An address with a pod reference to this module resolved (R280). -/
def localAddr (s : State) (a : Nat) : Nat :=
  match place s a with
  | .ok (.here _ v) => v
  | _ => a

/-- How many of `n` bytes at an address of another module's device memory are reached before its end or before a condition met
there, and what stopped the access (R280, R356; log 25). -/
def thereSpan (s : State) (v n : Nat) : Nat × Option StatusCode :=
  match Config.remoteStop s.choice with
  | 1 => (0, some .page)
  | 2 => (0, some .prot)
  | 3 => (0, some .poison)
  | 4 => (0, some .badDesc)
  | _ => if v + n ≤ regionEnd .hbm then (n, none) else (regionEnd .hbm - v, some .prot)

/-- Bytes read at an address as far as they are reached; another module's are free (R280; log 25). -/
def anyRead (s : State) (a n : Nat) : State × List Byte × Option StatusCode :=
  match place s a with
  | .error e => (s, [], some e)
  | .ok (.here ok v) => (s, engReadPart s ok v n)
  | .ok (.there v) =>
    let t := thereSpan s v n
    (s.tickChoice, (List.range t.1).map fun i => Config.remoteByte s.choice i, t.2)

/-- Bytes written at an address as far as they are reached. -/
def anyWrite (s : State) (a : Nat) (bs : List Byte) : State × Nat × Option StatusCode :=
  match place s a with
  | .error e => (s, 0, some e)
  | .ok (.here ok v) => engWritePart s ok v bs
  | .ok (.there v) => (s.tickChoice, thereSpan s v bs.length)

/-- Descriptors written with a run at an address. -/
def anyDescs (s : State) (a n : Nat) (d : Nat → Option (BitVec 16)) : State :=
  match place s a with
  | .ok (.here ok v) => engDescs s ok v n d
  | _ => s

/-- The descriptor of the block at an address; that of another module's block is free (log 25). -/
def anyDesc (s : State) (a : Nat) : BitVec 16 :=
  match place s a with
  | .ok (.here ok v) => engDesc s ok (v / 64)
  | .ok (.there v) => Config.remoteDesc s.choice (v / 64)
  | .error _ => 0

/-! ### CPY (R276 to R279) -/

/-- A CPY descriptor (R276). -/
structure CpyRec where
  src  : Nat
  dst  : Nat
  rb   : Nat
  rows : Nat
  ss   : Nat
  ds   : Nat
deriving DecidableEq, Repr

/-- The descriptor read. -/
def cpyRec (r : List Byte) : CpyRec :=
  { src := rfield r 0 8, dst := rfield r 8 8, rb := rfield r 0x10 4, rows := rfield r 0x14 4, ss := rfield r 0x18 4,
    ds := rfield r 0x1C 4 }

/-- The source stride in force. -/
def CpyRec.sstep (r : CpyRec) : Nat := if r.ss = 0 then r.rb else r.ss

/-- The destination stride in force. -/
def CpyRec.dstep (r : CpyRec) : Nat := if r.ds = 0 then r.rb else r.ds

/-- Bytes copied in all. -/
def CpyRec.total (r : CpyRec) : Nat := r.rb * r.rows

/-- The limits of R276 and the terms of the qualifiers that do not depend on memory (R277, R278). -/
def cpyOk (x : CpyArgs) (r : CpyRec) : Bool :=
  let dense := decide (r.ss = 0) && decide (r.ds = 0)
  let s := if x.tr = .t8 then 1 else 2
  decide (1 ≤ r.rb) && decide (r.rb ≤ 2 ^ 24) && decide (1 ≤ r.rows) && decide (r.rows ≤ 2 ^ 24) &&
    (decide (r.ds = 0) || decide (r.rb ≤ r.ds)) && (!x.useH || decide (r.dst = 0)) &&
    (decide (x.tr = .none) || (decide (r.rb = 16 * s) && decide (r.rows % 16 = 0) && dense)) &&
    (!x.bolt || (decide (r.rows % 16 = 0) && dense)) && (decide (x.pack = .none) || dense) &&
    (!x.useH || (!x.bolt && decide (x.pack = .none)))

/-- An address with its other names resolved, the scratchpad's (R206) and a pod reference to this module (R280), so that ranges
compare. -/
def plainAddr (s : State) (a : Nat) : Nat := directLoc s (regionOf (localAddr s a)) (localAddr s a)

/-- Whether a destination address lies in one of the source's rows (R276): bytes between rows that lie apart do not overlap. -/
def inSource (s : State) (r : CpyRec) (a : Nat) : Bool :=
  let lo := plainAddr s r.src
  let off := plainAddr s a - lo
  decide (lo ≤ plainAddr s a) && decide (off - min (off / r.sstep) (r.rows - 1) * r.sstep < r.rb)

/-- Whether the hulls of source and destination meet, so that bytes may overlap. -/
def nearSource (s : State) (r : CpyRec) : Bool :=
  decide (plainAddr s r.src < plainAddr s r.dst + (r.rows - 1) * r.dstep + r.rb) &&
    decide (plainAddr s r.dst < plainAddr s r.src + (r.rows - 1) * r.sstep + r.rb)

/-- Bytes as they reach the destination: those in an overlap with the source are free (R276; log 13). -/
def mixOverlap (s : State) (r : CpyRec) (a : Nat) (bs : List Byte) : List Byte :=
  (List.range bs.length).map fun i =>
    if inSource s r (a + i) then Config.overlapByte s.choice (a + i) else bs.getD i 0

/-- Bytes as they reach the destination where the source is one run of `n` bytes at `src`: those in an overlap are free (R276; log 13). -/
def mixRun (s : State) (src n a : Nat) (bs : List Byte) : State × List Byte :=
  let hit (i : Nat) : Bool := decide (plainAddr s src ≤ plainAddr s (a + i)) && decide (plainAddr s (a + i) < plainAddr s src + n)
  if (List.range bs.length).any hit then
    (s.tickChoice, (List.range bs.length).map fun i => if hit i then Config.overlapByte s.choice (a + i) else bs.getD i 0)
  else (s, bs)

/-- Rows copied from row i on, `n` of them: bytes written and what stopped the copy. -/
def copyRows (r : CpyRec) : Nat → Nat → State → State × Nat × Option StatusCode
  | 0, _, s => (s, 0, none)
  | n + 1, i, s =>
    let rd := anyRead s (r.src + i * r.sstep) r.rb
    let a := r.dst + i * r.dstep
    match anyWrite rd.1 a (mixOverlap s r a rd.2.1) with
    | (s, k, some e) => (s, k, some e)
    | (s, k, none) =>
      match rd.2.2 with
      | some e => (s, k, some e)
      | none =>
        let t := copyRows r n (i + 1) s
        (t.1, k + t.2.1, t.2.2)

/-- The source address of byte o of the output. -/
def CpyRec.srcAt (r : CpyRec) (o : Nat) : Nat := r.src + o / r.rb * r.sstep + o % r.rb

/-- The destination address of byte o of the output. -/
def CpyRec.dstAt (r : CpyRec) (o : Nat) : Nat := r.dst + o / r.rb * r.dstep + o % r.rb

/-- The output offsets at which a destination block begins. -/
def blockStarts (r : CpyRec) (rows : Nat) : List Nat :=
  ((List.range rows).map fun i =>
    let a := r.dst + i * r.dstep
    let first := (64 - a % 64) % 64
    if r.rb ≤ first then [] else (List.range ((r.rb - first + 63) / 64)).map fun k => i * r.rb + first + 64 * k).flatten

/-- Descriptors taken with whole blocks: 64 output bytes that lie together and aligned at both ends (R276). The source's
descriptors are those before the copy, which wrote bytes `start` to `done` of its output. -/
def copyDescs (old : State) (r : CpyRec) (start done : Nat) (s : State) : State :=
  (blockStarts r (done / r.rb + 1)).foldl (fun s o =>
    if start < o + 64 ∧ o + 64 ≤ done ∧ r.dstAt (o + 63) = r.dstAt o + 63 ∧ r.srcAt o % 64 = 0 ∧ r.srcAt (o + 63) = r.srcAt o + 63 then
      anyDescs s (r.dstAt o) 64 fun _ => some (anyDesc old (r.srcAt o))
    else s) s

/-- A plain copy, at most `n` rows of it after the bytes done. -/
def copyPlain (r : CpyRec) (done n : Nat) (s : State) : Ended :=
  let i := done / r.rb
  let t := copyRows r (min n (r.rows - i)) i s
  (copyDescs s r (i * r.rb) (i * r.rb + t.2.1) t.1, t.2.2.getD .ok, i * r.rb + t.2.1)

/-- The elements of a tile of width w transposed, as bytes (R277). -/
def transposeBytes (w : Nat) (bs : List Byte) : List Byte := packBytes w (transpose16 (unpackBytes w 256 bs))

/-- Groups of 16 rows copied transposed, `n` of them from group i on (R277). -/
def copyTiles (r : CpyRec) (w : Nat) : Nat → Nat → State → State × Nat × Option StatusCode
  | 0, _, s => (s, 0, none)
  | n + 1, i, s =>
    let size := 32 * w
    let rd := anyRead s (r.src + i * size) size
    match rd.2.2 with
    | some e => (rd.1, 0, some e)
    | none =>
      let a := r.dst + i * size
      match anyWrite rd.1 a (mixOverlap s r a (transposeBytes w rd.2.1)) with
      | (s, k, some e) => (s, k, some e)
      | (s, k, none) =>
        let t := copyTiles r w n (i + 1) s
        (t.1, k + t.2.1, t.2.2)

/-! ### BOLT (R277) -/

/-- The tile slot of this core that begins at an address, with its number. -/
def slotHere (s : State) (a : Nat) : Option (Nat × TileSlot) :=
  let loc := plainAddr s a
  ((List.range 64).filterMap fun t => match tileSlot s t with
    | some x => if x.off = loc then some (t, x) else none
    | none => none).head?

/-- The format of the tile slot of another core that begins at an address, if one does: free, since a peer's configuration is not
held here (R277; log 70). -/
def slotThere (s : State) (a : Nat) : Option Nat :=
  if regionOf a = .gwin ∧ (a - gwinLoc) / spadSize ≠ s.core.lid ∧ isTileFmt (Config.peerTile s.choice a) then
    some (Config.peerTile s.choice a)
  else none

/-- The tile format at a source: the slot's, or the first block's code (R277). -/
def boltFmt (s : State) (a : Nat) : Option Nat :=
  match slotHere s a, slotThere s a with
  | some (_, x), _ => some x.fmt
  | none, some f => some f
  | none, none =>
    let c := (anyDesc s a).toNat % 256
    if c = 0 ∨ c = 0x07 ∨ c = 0x08 ∨ 0x13 ≤ c ∨ c = 0x0F then none else some (elemCode c)

/-- A tile's boltrope at a source: the slot's after R223, or the record that follows. -/
def srcBolt (s : State) (a n : Nat) : Eng (State × Bolt × Nat) :=
  match slotHere s a with
  | some (t, x) =>
    if x.unverified then
      let d := readTile s x.off x.fmt
      let s := setTileBits (setTileBolt s t (tileSums d)) t false x.poisoned
      .ok ({ s with core := { s.core with unverified := s.core.unverified + 1 } }, tileSums d, n)
    else if boltBroken s t then .error .poison
    else .ok (s, tileBolt s t, n)
  | none =>
    if (slotThere s a).isSome then .ok (s.tickChoice, boltOf ((List.range 256).map fun i => Config.peerBolt s.choice i), n)
    else match anyRead s (a + n) 256 with
    | (_, _, some e) => .error e
    | (s, bs, none) => .ok (s, boltOf bs, n + 256)

/-- A tile as data from its bytes, under the descriptors of the blocks at an address. -/
def tileFrom (s : State) (fmt a : Nat) (bs : List Byte) : TileData :=
  let w := fmtBits fmt
  { ty := fmtTy fmt, raw := unpackBytes w 256 bs
    scale := (List.range 256).map fun e =>
      let d := (anyDesc s (a + w * e / 8)).toNat
      if scaledOf fmt = some (d % 256) then some (d / 256) else none }

/-- Bytes at the source of a copy with BOLT: its tiles, with their records where they lie in no slot (R277). -/
def boltSource (s : State) (r : CpyRec) (fmt : Nat) : Nat :=
  r.rows / 16 * (tileBytes fmt + if (slotHere s r.src).isSome || (slotThere s r.src).isSome then 0 else 256)

/-- One tile copied with its boltrope: the state, the check's outcome, and the sizes at source and destination. -/
def boltTile (x : CpyArgs) (j : Job) (r : CpyRec) (fmt a d : Nat) (s : State) : Eng (State × Fix × Nat × Nat) :=
  let n := tileBytes fmt
  let size := boltSource s r fmt
  match anyRead s a n with
  | (_, _, some e) => .error e
  | (s, bs, none) =>
    match srcBolt s a n with
    | .error e => .error e
    | .ok (s, b, sn) =>
      let w := fmtBits fmt
      let tr := decide (x.tr ≠ .none)
      let p := if tr then boltSwap b else b
      let mixed := mixRun s r.src size d (if tr then transposeBytes w bs else bs)
      let s := mixed.1
      let bytes := mixed.2
      match slotHere s d with
      | some (t, y) =>
        if fmtBits y.fmt ≠ w then .error .badDesc else
          let s1 := poke s y.off bytes
          let s1 := slotDescs s1 t y.off n fun i => if tr then BitVec.ofNat 16 y.fmt else anyDesc s (a + 64 * i)
          let c := checkFix (tolFor y.fmt j.tolWide j.tolNarrow) (readTile s1 y.off y.fmt) p (magOf p)
          let s2 := applyFix s1 t c
          .ok (if c.1 = .fail then s2 else setTileBits s2 t false false, c.1, sn, n)
      | none =>
        let peer := slotThere s d
        if peer.any fun f => decide (fmtBits f ≠ w) then .error .badDesc
        else match anyWrite s d bytes with
        | (_, _, some e) => .error e
        | (s1, _, none) =>
          let s1 := anyDescs s1 d n fun k => some (if tr then BitVec.ofNat 16 fmt else anyDesc s (a + k))
          let td := tileFrom (if tr then s1 else s) fmt (if tr then d else a) bytes
          let c := checkFix (tolFor fmt j.tolWide j.tolNarrow) td p (magOf p)
          let s2 := match c.2.2.2 with
            | some k =>
              let e := elemBytes w c.2.1.raw k
              let t := (anyWrite s1 (d + e.1) e.2).1
              if c.1 = .fixed then { t with core := { t.core with corrected := t.core.corrected + 1 } } else t
            | none => s1
          if peer.isSome then .ok (s2, c.1, sn, n) else
          let rec_ := mixRun s2 r.src size (d + n) (boltBytes (tileSums c.2.1))
          match anyWrite rec_.1 (d + n) rec_.2 with
          | (_, _, some e) => .error e
          | (s3, _, none) => .ok (anyDescs s3 (d + n) 256 fun _ => some 0, c.1, sn, n + 256)

/-- Tiles copied with their boltropes, `n` of them. -/
def boltTiles (x : CpyArgs) (j : Job) (r : CpyRec) (fmt : Nat) : Nat → Nat → Nat → State → State × List Fix × Nat × Option StatusCode
  | 0, _, _, s => (s, [], 0, none)
  | n + 1, a, d, s =>
    match boltTile x j r fmt a d s with
    | .error e => (s, [], 0, some e)
    | .ok (s, f, sn, dn) =>
      let t := boltTiles x j r fmt n (a + sn) (d + dn) s
      (t.1, f :: t.2.1, dn + t.2.2.1, t.2.2.2)

/-- A copy with BOLT, at most `n` tiles of it (R277). -/
def copyBolt (x : CpyArgs) (j : Job) (r : CpyRec) (n : Nat) (s : State) : Ended :=
  match boltFmt s r.src with
  | none =>
    match (anyRead s r.src 1).2.2 with
    | some e => endsBad s e
    | none => endsBad s .badDesc
  | some fmt =>
    if r.rb ≠ tileBytes fmt / 16 ∨ trFits x.tr (fmtBits fmt) = false then endsBad s .badDesc else
      let t := boltTiles x j r fmt (min n (r.rows / 16)) r.src r.dst s
      (t.1, t.2.2.2.getD (fixStatus t.2.1), t.2.2.1)

/-! ### Bitmap objects (R66 to R70) -/

/-- The smallest level count for a number of elements, from 2 to 4 (R277). -/
def bitmapLevels (n : Nat) : Option Nat :=
  if n ≤ 64 ^ 2 then some 2 else if n ≤ 64 ^ 3 then some 3 else if n ≤ 64 ^ 4 then some 4 else none

/-- Whether the zero detector finds an element nonzero (R69). -/
def isNonzero (fmt x : Nat) : Bool := decide (x ≠ 0) && !(!isIntFmt fmt && decide (x = 2 ^ (fmtBits fmt - 1)))

/-- Which sub-ranges of 64^k elements hold a nonzero one, as a list of flags. -/
def groupFlags : Nat → List Bool → List Bool
  | 0, _ => []
  | n + 1, l => if l.isEmpty then [] else (l.take 64).any id :: groupFlags n (l.drop 64)

/-- A 64-bit node of flags. -/
def nodeWord (l : List Bool) : Nat := ((List.range 64).filter fun b => l.getD b false).foldl (fun a b => a + 2 ^ b) 0

/-- The nodes of one level, for the parents kept: each 64 flags of the level's flag list. -/
def levelNodes (flags : List Bool) (kept : List Nat) : List Nat := kept.map fun i => nodeWord ((flags.drop (64 * i)).take 64)

/-- The positions whose flag is set. -/
def setPositions (l : List Bool) : List Nat := (List.range l.length).filter fun i => l.getD i false

/-- The flag lists of the levels, the root's children first (R67). -/
def flagLevels : Nat → List Bool → List (List Bool)
  | 0, _ => []
  | n + 1, l => flagLevels n (groupFlags (l.length + 1) l) ++ [l]

/-- The nodes of an object, level by level (R67). -/
def objectNodes (levels : Nat) (flags : List Bool) : List Nat :=
  let ls := flagLevels levels flags
  ((List.range levels).map fun i => levelNodes (ls.getD i [])
    (if i = 0 then [0] else setPositions (ls.getD (i - 1) []))).flatten

/-- Bytes padded with zeros to a multiple of 64. -/
def pad64 (l : List Byte) : List Byte := l ++ List.replicate ((64 - l.length % 64) % 64) 0

/-- A bitmap object's bytes: the header and nodes, and the values (R66 to R69). -/
def bitmapObject (levels fmt : Nat) (xs : List Nat) : List Byte × List Byte :=
  let flags := xs.map (isNonzero fmt)
  let nodes := objectNodes levels flags
  let vals := xs.filter (isNonzero fmt)
  let head := leBytes 1 levels ++ leBytes 1 fmt ++ leBytes 2 0 ++ leBytes 4 nodes.length ++ leBytes 8 xs.length ++
    leBytes 8 vals.length ++ List.replicate 40 0
  let vals := if fmtBits fmt = 4 ∧ vals.length % 2 = 1 then vals ++ [0] else vals
  (head ++ pad64 (nodes.map (leBytes 8)).flatten, pad64 (packBytes (fmtBits fmt) vals))

/-- The bytes of a tensor with each group of 16 rows transposed, where a transpose is asked for beside PACK or UNPACK (R277;
log 71). -/
def tileTurn (tr : Transpose) (bs : List Byte) : List Byte :=
  match tr with
  | .none => bs
  | .t8 => ((List.range (bs.length / 256)).map fun i => transposeBytes 8 ((bs.drop (256 * i)).take 256)).flatten
  | .t16 => ((List.range (bs.length / 512)).map fun i => transposeBytes 16 ((bs.drop (512 * i)).take 512)).flatten

/-- A copy with BOLT and PACK, or BOLT and UNPACK: bytes and outcome are free (log 71). -/
def copyBoltPacked (r : CpyRec) (s : State) : Ended :=
  let w := anyWrite s.tickChoice r.dst ((List.range r.total).map fun i => Config.boltPacked s.choice i)
  let code : StatusCode := match Config.remoteReply s.choice % 4 with
    | 0 => .ok
    | 1 => .boltFixed
    | 2 => .boltFail
    | _ => .badDesc
  (w.1, w.2.2.getD code, w.2.1)

/-- A copy with PACK (R277). -/
def copyPack (tr : Transpose) (r : CpyRec) (s : State) : Ended :=
  let fmt := (anyDesc s r.src).toNat % 256
  match anyRead s r.src r.total with
  | (s, _, some e) => endsBad s e
  | (s, bs, none) =>
    if fmt = 0 ∨ 0x0E < fmt ∨ r.dst % 64 ≠ 0 ∨ 8 * r.total % fmtBits fmt ≠ 0 then endsBad s .badDesc else
      let n := 8 * r.total / fmtBits fmt
      match bitmapLevels n with
      | none => endsBad s .badDesc
      | some l =>
        let o := bitmapObject l fmt (unpackBytes (fmtBits fmt) n (tileTurn tr bs))
        let mixed := mixRun s r.src r.total r.dst (o.1 ++ o.2)
        let w := anyWrite mixed.1 r.dst mixed.2
        let done := w.2.1
        (anyDescs w.1 r.dst (done / 64 * 64) fun k => some (if k < o.1.length then 0x14 else BitVec.ofNat 16 fmt),
          w.2.2.getD .ok, done)

/-- The children kept by one level's nodes: positions at the next level. -/
def keptChildren (kept nodes : List Nat) : List Nat :=
  ((kept.zip nodes).map fun p => ((List.range 64).filter fun b => bit p.2 b).map fun b => 64 * p.1 + b).flatten

/-- The elements that an object's nodes mark, or none when a non-root node is empty or nodes run out (R67, R70). -/
def walkNodes : Nat → Bool → List Nat → List Nat → Option (List Nat × List Nat)
  | 0, _, kept, nodes => some (kept, nodes)
  | n + 1, root, kept, nodes =>
    let here := nodes.take kept.length
    if here.length < kept.length || (!root && here.any fun w => decide (w = 0)) then none
    else walkNodes n false (keptChildren kept here) (nodes.drop kept.length)

/-- The dense elements of an object (R69). -/
def denseElems (n : Nat) (marked vals : List Nat) : List Nat :=
  let at_ := marked.zip vals
  (List.range n).map fun e => ((at_.find? fun p => decide (p.1 = e)).map fun p => p.2).getD 0

/-- A copy with UNPACK (R70, R277). The nodes that the header names are read before they are held against the object's form, so that
one that cannot be read ends the job with its own status before a malformed object gives BAD_DESC (log 89). -/
def copyUnpack (tr : Transpose) (r : CpyRec) (s : State) : Ended :=
  match anyRead s r.src 64 with
  | (s, _, some e) => endsBad s e
  | (s, h, none) =>
    let l := rfield h 0 1
    let fmt := rfield h 1 1
    let nodes := rfield h 4 4
    let n := rfield h 8 8
    let nonz := rfield h 0x10 8
    let w := fmtBits fmt
    if r.src % 64 ≠ 0 ∨ l < 2 ∨ 4 < l ∨ fmt = 0 ∨ 0x0E < fmt ∨ rfield h 2 2 ≠ 0 ∨ rfield h 0x18 40 ≠ 0 ∨
        (anyDesc s r.src).toNat % 256 ≠ 0x14 ∨ 64 ^ l < n ∨ 8 * r.total ≠ n * w then endsBad s .badDesc
    else
      let start := 64 + (8 * nodes + 63) / 64 * 64
      match anyRead s (r.src + 64) (8 * nodes) with
      | (s, _, some e) => endsBad s e
      | (s, nb, none) =>
        match walkNodes l true [0] (unpackBytes 64 nodes nb) with
        | none => endsBad s .badDesc
        | some (marked, rest) =>
          if !rest.isEmpty || decide (marked.length ≠ nonz) || marked.any fun e => decide (n ≤ e) then endsBad s .badDesc
          else match anyRead s (r.src + start) ((nonz * w + 7) / 8) with
            | (s, _, some e) => endsBad s e
            | (s, vb, none) =>
              let out := tileTurn tr (packBytes w (denseElems n marked (unpackBytes w nonz vb)))
              let mixed := mixRun s r.src (start + (nonz * w + 7) / 8) r.dst out
              let t := anyWrite mixed.1 r.dst mixed.2
              (anyDescs t.1 r.dst t.2.1 fun _ => some (BitVec.ofNat 16 fmt), t.2.2.getD .ok, t.2.1)

/-- A CPY job that fills no handle, stopped after `n` of its rows or tiles more than it has done. -/
def runCpy (x : CpyArgs) (j : Job) (n : Nat) (s : State) : Ended :=
  match jobRecord j with
  | .error e => endsBad s e
  | .ok rec =>
    let r := cpyRec rec
    if !cpyOk x r then endsBad s .badDesc
    else
      let s := if nearSource s r then s.tickChoice else s
      match x.pack with
      | .none =>
        if x.bolt then copyBolt x j r n s
        else if x.tr = .none then copyPlain r j.done n s
        else
          let w := if x.tr = .t8 then 8 else 16
          let i := j.done / (32 * w)
          let t := copyTiles r w (min n (r.rows / 16 - i)) i s
          (t.1, t.2.2.getD .ok, i * (32 * w) + t.2.1)
      | p => if n = 0 then (s, .ok, 0) else if x.bolt then copyBoltPacked r s
        else if p = .pack then copyPack x.tr r s else copyUnpack x.tr r s

/-! ### Copies into a handle (R278) -/

/-- Output bytes [o, o + n) of a copy, read from its source; what stopped the reading. -/
def outputBytes (x : CpyArgs) (r : CpyRec) (o n : Nat) (s : State) : State × List Byte × Option StatusCode :=
  if x.tr = .none then
    (List.range n).foldl (fun t i => match t with
      | (s, bs, some e) => (s, bs, some e)
      | (s, bs, none) =>
        let rd := anyRead s (r.srcAt (o + i)) 1
        (rd.1, bs ++ rd.2.1, rd.2.2)) (s, [], none)
  else
    let w := if x.tr = .t8 then 8 else 16
    let size := 32 * w
    (List.range n).foldl (fun t i => match t with
      | (s, bs, some e) => (s, bs, some e)
      | (s, bs, none) =>
        let g := (o + i) / size
        let k := (o + i) % size * 8 / w
        let rd := anyRead s (r.src + g * size + (16 * (k % 16) + k / 16) * w / 8 + (o + i) % (w / 8)) 1
        (rd.1, bs ++ rd.2.1, rd.2.2)) (s, [], none)

/-- One slot of a copy into a handle (R41, R278): the state and, when the copy has ended, its status. None while the
ring is full. A block that this slot and the one before it in the ring hold together takes its source's descriptor too (R276). -/
def stepCpyH (x : CpyArgs) (j : Job) (s : State) : Option (State × Option (StatusCode × Nat)) :=
  match jobRecord j with
  | .error e => some (s, some (e, j.done))
  | .ok rec =>
    let r := cpyRec rec
    match getHandle s j.ctx x.h with
    | none => some (s, some (.badDesc, j.done))
    | some h =>
      if !cpyOk x r || decide (r.total % h.size ≠ 0) then some (s, some (.badDesc, j.done))
      else if h.count ≤ h.fill then none
      else
        let o := outputBytes x r j.done h.size s
        match o.2.2 with
        | some e => some (o.1, some (e, j.done))
        | none =>
          let a := h.base + h.head * h.size
          let t := o.1.tickChoice
          let s1 := pushSlot t j.ctx x.h h (mixOverlap o.1 r a o.2.1)
          let back := if h.head ≠ 0 ∧ a % 64 ≤ j.done then a % 64 else 0
          let first := (64 - (a - back) % 64) % 64
          let s1 := if x.tr ≠ .none then s1 else
            (List.range (h.size / 64 + 2)).foldl (fun s1 k =>
              let off := first + 64 * k
              let out := j.done - back + off
              if off + 64 ≤ h.size + back ∧ r.srcAt out % 64 = 0 ∧ r.srcAt (out + 63) = r.srcAt out + 63 then
                setDesc s1 ((a - back + off) / 64) (anyDesc s (r.srcAt out))
              else s1) s1
          let done := j.done + h.size
          some (setJob s1 { j with done := done }, if r.total ≤ done then some (.ok, done) else none)

/-! ### Gather and scatter (R281, R282) -/

/-- A gather or scatter descriptor. -/
structure ListRec where
  idx   : Nat
  buf   : Nat
  count : Nat
  elem  : Nat
deriving DecidableEq, Repr

/-- The descriptor read, or none where it breaks R281. -/
def listRec (r : List Byte) : Option ListRec :=
  let x : ListRec := { idx := rfield r 0 8, buf := rfield r 8 8, count := rfield r 0x10 4, elem := rfield r 0x14 4 }
  if [1, 2, 4, 8, 32, 64].contains x.elem && decide (1 ≤ x.count) && decide (x.count ≤ 2 ^ 24) &&
      decide (rfield r 0x18 8 = 0) && decide (x.idx % 8 = 0) && decide (x.buf % x.elem = 0) then some x else none

/-- One element moved from an address to another, with its descriptor when it is a whole block. -/
def moveElem (elem a d : Nat) (s : State) : Eng State :=
  match anyRead s a elem with
  | (_, _, some e) => .error e
  | (s, bs, none) =>
    match anyWrite s d bs with
    | (_, _, some e) => .error e
    | (t, _, none) => .ok (if elem = 64 then anyDescs t d 64 fun _ => some (anyDesc s a) else t)

/-- Elements moved in order, `n` of them from entry k on: the count completed and what stopped it. -/
def moveElems (scatter : Bool) (r : ListRec) : Nat → Nat → State → State × Nat × Option StatusCode
  | 0, _, s => (s, 0, none)
  | n + 1, k, s =>
    match anyRead s (r.idx + 8 * k) 8 with
    | (s, _, some e) => (s, 0, some e)
    | (s, bs, none) =>
      let e := leNat bs
      if e % r.elem ≠ 0 then (s, 0, some .badDesc) else
        let b := r.buf + k * r.elem
        match (if scatter then moveElem r.elem b e s else moveElem r.elem e b s) with
        | .error c => (s, 0, some c)
        | .ok s =>
          let t := moveElems scatter r n (k + 1) s
          (t.1, t.2.1 + 1, t.2.2)

/-- A CGATHER or CSCATTER job, stopped after `n` elements more than it has done. -/
def runList (scatter : Bool) (j : Job) (n : Nat) (s : State) : Ended :=
  match jobRecord j with
  | .error e => endsBad s e
  | .ok rec =>
    match listRec rec with
    | none => endsBad s .badDesc
    | some r =>
      let t := moveElems scatter r (min n (r.count - j.done)) j.done s
      (t.1, t.2.2.getD .ok, j.done + t.2.1)

/-! ### CRED (R78, R283 to R285) -/

/-- A CRED descriptor. -/
structure CredRec where
  src   : Nat
  dst   : Nat
  resid : Nat
  count : Nat
  fmt   : Nat
  wire  : Nat
  op    : Nat
  rnd   : Nat
  res   : Bool
deriving DecidableEq, Repr

/-- Bytes of a CRED element. -/
def credWidth (fmt : Nat) : Nat := fmtBits fmt / 8

/-- The descriptor read, or none where it breaks R283. -/
def credRec (r : List Byte) : Option CredRec :=
  let f := rfield r 0x1E 1
  let x : CredRec := { src := rfield r 0 8, dst := rfield r 8 8, resid := rfield r 0x10 8, count := rfield r 0x18 4,
                       fmt := rfield r 0x1C 1, wire := rfield r 0x1D 1, op := f % 4, rnd := f / 4 % 4, res := bit f 4 }
  let floating := [0x09, 0x0A, 0x0B].contains x.fmt
  let scaledW := isScaled x.wire
  let block := if x.wire = 0x12 then 128 else 64
  let overlap := decide (x.src < x.resid + 4 * x.count) && decide (x.resid < x.src + credWidth x.fmt * x.count)
  if decide (1 ≤ x.count) && decide (x.count ≤ 2 ^ 24) && ([0x05, 0x06, 0x07].contains x.fmt || floating) &&
      (decide (x.wire = x.fmt) || (scaledW && floating)) && decide (x.op ≠ 3) && decide (f / 32 = 0) &&
      decide (rfield r 0x1F 1 = 0) && (!scaledW || (decide (x.op = 0) && decide (x.count % block = 0) && decide (x.rnd ≠ 2))) &&
      (if x.res then scaledW && !overlap else decide (x.resid = 0)) then some x else none

/-- The rounding mode of a code (R49). -/
def rndOf (c : Nat) : Rnd :=
  match c with
  | 0 => .rne
  | 1 => .rtz
  | 2 => .sr
  | _ => .sat

/-- The floating format of a CRED element, f32 for the integer ones. -/
def credFmt (fmt : Nat) : FFmt :=
  match fmtTy fmt with
  | .flt f => f
  | .int _ _ => .f32

/-- Blocks of values quantised and dequantised (R78): exact values, rounded by no one yet (R62). -/
def requantise (f : FFmt) (mode : Rnd) (block : Nat) : Nat → List FVal → List FVal
  | 0, _ => []
  | n + 1, l =>
    let q := quantBlock f mode [] (l.take block)
    (q.2.map fun e => scaled f q.1 e) ++ requantise f mode block n (l.drop block)

/-- A member's contributions as patterns and its new residuals (R78, R284). -/
def contribute (r : CredRec) (x old : List Nat) : List Nat × List Nat :=
  match fmtTy r.fmt with
  | .int _ _ => (x, [])
  | .flt f =>
    if isScaled r.wire then
      let block := if r.wire = 0x12 then 128 else 64
      let t := (List.range r.count).map fun i =>
        r32 (if r.res then fadd (fval f (x.getD i 0)) (fval .f32 (old.getD i 0)) else fval f (x.getD i 0))
      let c := requantise (credFmt (elemCode r.wire)) (rndOf r.rnd) block (r.count / block) t
      (c.map (rne .f32), (t.zip c).map fun p => rne .f32 (fsub p.1 p.2))
    else (x.map fun e => rne .f32 (fval f e), [])

/-- One combination of the tree (R284). -/
def credCombine (r : CredRec) (a b : Nat) : Nat :=
  match fmtTy r.fmt with
  | .int w sg =>
    match r.op with
    | 0 => wrapN w (a + b)
    | 1 => laneMax (.int w sg) a b
    | _ => laneMin (.int w sg) a b
  | .flt _ =>
    match r.op with
    | 0 => add32 a b
    | 1 => fmaxBits .f32 a b
    | _ => fminBits .f32 a b

/-- The order of the members of a reduction: by rank, and where the cores of one die or one module share a rank, by module, die and
logical core, which is one order for every member (R28, R284; log 72). -/
def shareBefore (x y : CredShare) : Bool :=
  decide (x.rank < y.rank) || (decide (x.rank = y.rank) &&
    (decide (x.module < y.module) || (decide (x.module = y.module) &&
      (decide (x.die < y.die) || (decide (x.die = y.die) && decide (x.lid < y.lid))))))

/-- Shares in order, cut where a key changes. -/
def groupShares (key : CredShare → Nat) : List CredShare → List (List CredShare)
  | [] => []
  | x :: r =>
    match groupShares key r with
    | (y :: g) :: gs => if key x = key y then (x :: y :: g) :: gs else [x] :: (y :: g) :: gs
    | gs => [x] :: gs

/-- One element of a reduction over shares in order: at levels 0 to 2 over the cores; at level 3 over one contribution of each die, at
level 4 of each module, which is the tree over its dies (R27, R284; log 72). -/
def treeAt (level : Fin 5) (f : Nat → Nat → Nat) (value : CredShare → Nat) (l : List CredShare) : Nat :=
  let cores (g : List CredShare) : Nat := tree f 0 (g.map value)
  let dies (g : List CredShare) : Nat := tree f 0 ((groupShares (fun x => x.die) g).map cores)
  match level.val with
  | 3 => dies l
  | 4 => tree f 0 ((groupShares (fun x => x.module) l).map dies)
  | _ => cores l

/-- Shares put in the members' order. -/
def insertShare (x : CredShare) : List CredShare → List CredShare
  | [] => [x]
  | y :: r => if shareBefore x y then x :: y :: r else y :: insertShare x r

/-- This core's rank at a level (R28). -/
def rankAt (s : State) (level : Fin 5) : Nat := (s.core.dom[level.val]'level.isLt).toNat / 2 ^ 32 % 2 ^ 16

/-- The die on which a share's core lies, as the launch's domain has it where the core is of this module. -/
def shareDieOk (s : State) (o : CredShare) : Bool :=
  decide (o.module ≠ s.mod.modnum) || (placeOf s o.lid).any fun p => decide (p.toNat / 2 ^ 28 = o.die)

/-- The other modules of the gang (R27). -/
def otherModules (s : State) : List Nat :=
  match curLaunch s with
  | some l => l.gang.filter fun m => !decide (m = s.mod.modnum)
  | none => []

/-- Whether the shares that have come are those of every other member of the domain that has not withdrawn, one of each and of no core that
is no member, each for the same reduction of the level (R22, R284), and what happens before them has been applied here (R212, R285). At level 4 every other module of the gang has contributed, unless none of its cores is a
member any more; which are is not held here: free (log 28). -/
def sharesComplete (s : State) (level : Fin 5) (j : Job) (others : List CredShare) : Bool :=
  let mine := (others.filter fun o => decide (o.module = s.mod.modnum)).map fun o => o.lid
  others.all (fun o => decide (o.seq = j.seq) && shareDieOk s o && clockSeen s o.clock &&
      (decide (o.module = s.mod.modnum) || (decide (level.val = 4) && inGang s o.module))) && !mine.contains s.core.lid &&
    decide (others.map fun o => (o.module, o.lid)).Nodup &&
    ((List.range (domainSize s)).all fun l => decide (l = s.core.lid) || (inDomain s level l == mine.contains l)) &&
    (decide (level.val ≠ 4) || (otherModules s).all fun m =>
      others.any (fun o => decide (o.module = m)) || !Config.peerHolds (s.choice + m))

/-- The storage in which an address of the core's scratchpad or of device memory lies. -/
def storageOf (a : Nat) : Storage := if regionOf a = .hbm then .hbm else .spad

/-- A CRED's job goes on after what precedes the other members' in the storage of SRC and DST (R285). -/
def sharesJoined (s : State) (j : Job) (src dst : Nat) (others : List CredShare) : State :=
  others.foldl (fun s o => [storageOf src, storageOf dst].foldl (clockJoined · (.job j.id) o.clock ·) s) s

/-- A CRED job with the contributions of the other members (R284). -/
def runCred (level : Fin 5) (j : Job) (others : List CredShare) (s : State) : Ended :=
  match jobRecord j with
  | .error e => endsBad s e
  | .ok rec =>
    match credRec rec with
    | none => endsBad s .badDesc
    | some r =>
      let w := credWidth r.fmt
      if others.any fun o => decide (o.head ≠ (rec.drop 0x18).take 8) then endsBad s .badDesc
      else match engRead s reachLocal r.src (w * r.count), (if r.res then engRead s reachSpad r.resid (4 * r.count) else .ok []) with
        | .error e, _ => endsBad s e
        | _, .error e => endsBad s e
        | .ok xb, .ok ob =>
          let s := sharesJoined s j r.src r.dst others
          let c := contribute r (unpackBytes (8 * w) r.count xb) (unpackBytes 32 r.count ob)
          let me : CredShare :=
            { module := s.mod.modnum, die := (ownPlace s).toNat / 2 ^ 28, lid := s.core.lid, rank := rankAt s level, seq := j.seq,
              head := [], values := c.1 }
          let all := others.foldl (fun l o => insertShare o l) [me]
          let sum (i : Nat) := treeAt level (credCombine r) (fun m => m.values.getD i 0) all
          let out := (List.range r.count).map fun i =>
            if isIntFmt r.fmt then sum i else rne (credFmt r.fmt) (fval .f32 (sum i))
          match engWritePart s reachLocal r.dst (packBytes (8 * w) out) with
          | (s, k, some e) => (s, e, k / w)
          | (s, _, none) =>
            if r.res then
              match engWrite s reachSpad r.resid (packBytes 32 c.2) with
              | (s, some e) => (s, e, r.count)
              | (s, none) => (s, .ok, r.count)
            else (s, .ok, r.count)

/-- A CRED that a link loss ends: the bytes of DST are free (R285; log 17). -/
def loseCred (j : Job) (s : State) : State :=
  match jobRecord j with
  | .error _ => s
  | .ok rec =>
    match credRec rec with
    | none => s
    | some r => (engWritePart s.tickChoice reachLocal r.dst
        ((List.range (credWidth r.fmt * r.count)).map fun i => Config.lostCred s.choice i)).1

/-! ### CQPUT (R286, R287, R358) -/

/-- A queue header's fields. -/
structure QHeader where
  widx  : Nat
  ridx  : Nat
  size  : Nat
  slots : Nat
  ok    : Bool
deriving DecidableEq, Repr

/-- A queue header from its 64 bytes, with whether it is well formed (R286, R358). -/
def qHeader (h : List Byte) : QHeader :=
  let size := rfield h 0x10 4
  let slots := rfield h 0x18 8
  { widx := rfield h 0 8, ridx := rfield h 8 8, size := size, slots := slots,
    ok := decide (rfield h 0x14 4 = 1) && decide (1 ≤ size) && decide (size ≤ 2 ^ 24) && decide (2 ^ Nat.log2 size = size) &&
      decide (slots % 64 = 0) && decide (rfield h 0x28 24 = 0) }

/-- A CQPUT job. -/
def runCqput (j : Job) (s : State) : Ended :=
  match engRead s reachSpad j.b.toNat 64 with
  | .error e => endsBad s e
  | .ok pkt =>
    match place s j.a.toNat with
    | .error e => endsBad s e
    | .ok (.there _) =>
      match Config.remoteReply s.choice % 6 with
      | 0 => (s.tickChoice, .ok, 1)
      | 1 => (s.tickChoice, .queueFull, 0)
      | 2 => (s.tickChoice, .page, 0)
      | 3 => (s.tickChoice, .prot, 0)
      | 4 => (s.tickChoice, .poison, 0)
      | _ => (s.tickChoice, .badDesc, 0)
    | .ok (.here _ a) =>
      match engRead s reachHbm a 64 with
      | .error e => endsBad s e
      | .ok h =>
        let q := qHeader h
        if !q.ok then endsBad s .badDesc
        else if q.ridx + q.size ≤ q.widx then endsBad s .queueFull
        else match engWrite s reachHbm a (leBytes 8 ((q.widx + 1) % 2 ^ 64)) with
          | (s, some e) => endsBad s e
          | (s, none) =>
            let slot := q.slots + 64 * (q.widx % q.size)
            match engWrite s reachHbm slot (leBytes 4 ((q.widx + 1) % 2 ^ 32) ++ pkt.drop 4) with
            | (s, some e) => (s, e, 0)
            | (s, none) => (s, .ok, 1)

end Sys2Proof.Machine
end

