-- ==== Sys2Proof/Machine/Grammar.lean ====
section
/-! DEFINITION. The grammar sequencer (R245 to R270): the GR commands and their jobs. -/

namespace Sys2Proof.Machine

/-! ### Commands at issue (R255, R256) -/

/-- GBIND (R256, R259). -/
def execGbind (x : GbindArgs) (s : State) : Out :=
  command s x.gs (.gbind x) x.ga 0 (fun a _ => multipleOf 64 a) fun _ _ => true

/-- The limits of a rule range (R256). -/
def ruleRangeOk (a b : Word) : Bool := decide (a.toNat < 2 ^ 31) && decide (b.toNat < 2 ^ 32)

def execGeval (x : GrArgs) (s : State) : Out :=
  command s x.gs (.geval x.y) x.ga x.gb (fun _ _ => .ok ()) ruleRangeOk
def execGlen (x : GrArgs) (s : State) : Out :=
  command s x.gs (.glen x.y) x.ga x.gb (fun _ _ => .ok ()) ruleRangeOk

/-- A command with a record offset in ga (R256, R257); gb's value is tested, or is data alone, or is not used. -/
def gramRecord (s : State) (gs : GReg) (cmd : Cmd) (ga gb : GReg) (ok : Word → Bool) (tested data : Bool) : Out :=
  command s gs cmd ga gb (fun a _ => multipleOf 32 a) (fun a b => decide (a.toNat < spadSize) && ok b)
    (if tested then [ga, gb] else [ga]) (if data then [gb] else [])

/-- GSPINE: with SEED gb is the seed (R256, R262). -/
def execGspine (x : GrFlagArgs) (s : State) : Out :=
  gramRecord s x.gs (.gspine x.flag x.y) x.ga x.gb (fun _ => true) false x.flag

/-- GOCC: with SPLIT gb must be 0, without it is the first bias (R256, R263). -/
def execGocc (x : GrFlagArgs) (s : State) : Out :=
  gramRecord s x.gs (.gocc x.flag x.y) x.ga x.gb (fun b => !x.flag || decide (b = 0)) x.flag (!x.flag)

/-- GUNF: with SCAN gb is the first value (R256, R264). -/
def execGunf (x : GrFlagArgs) (s : State) : Out :=
  gramRecord s x.gs (.gunf x.flag x.y) x.ga x.gb (fun _ => true) false x.flag
def execGloc (x : GlocArgs) (s : State) : Out := gramRecord s x.gs (.gloc x.y) x.ga 0 (fun _ => true) false false

/-- GLOOK (R256, R266). -/
def execGlook (x : GrArgs) (s : State) : Out :=
  command s x.gs (.glook x.y) x.ga x.gb (fun _ b => multipleOf 4 b) fun a _ => decide (a.toNat < 2 ^ 31)

def execGrelease (x : GrelArgs) (s : State) : Out :=
  command s x.gs (.grelease x.y) 0 0 (fun _ _ => .ok ()) fun _ _ => true

/-! ### Bindings (R248, R250, R254) -/

/-- A field of a binding's descriptor (R248). -/
def gfield (g : GBinding) (off n : Nat) : Nat := rfield g.desc off n

/-- Whether the object is a matrix. -/
def GBinding.matrix (g : GBinding) : Bool := decide (gfield g 0 1 = 2)

/-- The rule count NR. -/
def GBinding.nr (g : GBinding) : Nat := gfield g 4 4

/-- Whether the RRT is distributed. -/
def GBinding.dist (g : GBinding) : Bool := bit (gfield g 3 1) 0

/-- The RRT entry format. -/
def GBinding.rfmt (g : GBinding) : Nat := gfield g 2 1

/-- The RRT entry width in bits (R248). -/
def GBinding.width (g : GBinding) : Nat := fmtBits g.rfmt

/-- The terminal format. -/
def GBinding.tfmt (g : GBinding) : Nat := gfield g 1 1

/-- The address of the RLT, 0 for none or for a matrix. -/
def GBinding.rlt (g : GBinding) : Nat := if g.matrix then 0 else gfield g 0x20 8

/-- The logical core that holds RRT entry i (R250). -/
def homeOf (g : GBinding) (i : Nat) : Nat := g.rank.getD (i / g.c % g.n) 0

/-- Whether this core holds entry i. -/
def homeHere (s : State) (g : GBinding) (i : Nat) : Bool := !g.dist || decide (homeOf g i = s.core.lid)

/-- The address of RRT entry i (R248, R250). -/
def rrtAddr (s : State) (g : GBinding) (i : Nat) : Nat :=
  let w := g.width / 8
  let base := gfield g 0x18 8
  if g.dist then
    let off := base + (i / (g.c * g.n) * g.c + i % g.c) * w
    if homeOf g i = s.core.lid then off else gwinLoc + homeOf g i * spadSize + off
  else base + i * w

/-- The lids of this core's block by rank (R29, R250). -/
def blockMap (s : State) : List Nat :=
  match s.core.blockLids with
  | some l => l
  | none =>
    match curLaunch s with
    | none => []
    | some l => if l.block = 0 then [] else
        ((List.range l.block).map fun i => s.core.lid / l.block * l.block + i).filter (holdsGroup s)

/-! ### Lift operators (R251 to R253) -/

/-- Combination of two values in the RRT format (R251). -/
def lift (op : LiftOp) (rfmt a b : Nat) : Nat :=
  let w := fmtBits rfmt
  let f : FFmt := if rfmt = 0x08 then .f64 else .f32
  match op with
  | .addw | .count => wrapN w (a + b)
  | .min => laneMin (.int w true) a b
  | .max => laneMax (.int w true) a b
  | .minn => min a b
  | .maxn => max a b
  | .and => a &&& b
  | .or => a ||| b
  | .xor => a ^^^ b
  | .faddg => rne f (fadd (fval f a) (fval f b))
  | .fmin => fminBits f a b
  | .fmax => fmaxBits f a b
  | .dot => if isIntFmt rfmt then wrapN w (a + b) else rne f (fadd (fval f a) (fval f b))
  | .satadd => a
  | .sub => a

/-- The identity of an operator (R253). -/
def identity (op : LiftOp) (rfmt : Nat) : Nat :=
  let w := fmtBits rfmt
  let f : FFmt := if rfmt = 0x08 then .f64 else .f32
  match op with
  | .min => 2 ^ (w - 1) - 1
  | .max => 2 ^ (w - 1)
  | .minn | .and => 2 ^ w - 1
  | .faddg => 2 ^ (w - 1)
  | .fmin => f.infEnc
  | .fmax => withSign f true f.infEnc
  | _ => 0

/-- A terminal widened to the RRT width (R251). -/
def widen (tfmt rfmt x : Nat) : Nat :=
  match fmtTy tfmt with
  | .int w sg => if sg then wrapI (fmtBits rfmt) (sInt w x) else x
  | .flt _ => x

/-- A symbol that is malformed in a sequence: a terminal with high bits set, or a rule number at or above NR; in a
matrix only the latter (R246). -/
def badSymbol (g : GBinding) (sym : Nat) : Bool :=
  if bit sym 31 then decide (g.nr ≤ sym % 2 ^ 31) else !g.matrix && decide (2 ^ fmtBits g.tfmt ≤ sym)

/-- Bytes that a job reads one by one where it has written some of them itself, from `own.1` to `own.2`: those as its writes left them, in
a published buffer's shadow too (R267). -/
def grBytes (s : State) (own : Nat × Nat) : Nat → Nat → Eng (List Byte)
  | 0, _ => .ok []
  | n + 1, a =>
    let b : Eng (List Byte) := if own.1 ≤ a ∧ a < own.2 then
        (match engLoc s reachTile true a with
          | .error e => .error e
          | .ok loc =>
            match engCheck s loc 1 with
            | .error e => .error e
            | .ok _ => .ok (readBytes s loc 1))
      else engRead s reachTile a 1
    match b, grBytes s own n (a + 1) with
    | .error e, _ => .error e
    | _, .error e => .error e
    | .ok x, .ok r => .ok (x ++ r)

/-- A read of a GR job that has itself written the bytes from `own.1` to `own.2`: it sees its own writes (R267). -/
def grRead (s : State) (own : Nat × Nat) (a n : Nat) : Eng (List Byte) :=
  if own.2 ≤ own.1 ∨ a + n ≤ own.1 ∨ own.2 ≤ a then engRead s reachTile a n else grBytes s own n a

/-- A number that a GR job reads. -/
def grReadNat (s : State) (own : Nat × Nat) (a n : Nat) : Eng Nat :=
  match grRead s own a n with
  | .ok bs => .ok (leNat bs)
  | .error e => .error e

/-- The value of a terminal symbol (R251). -/
def termVal (s : State) (g : GBinding) (sym : Nat) (own : Nat × Nat := (0, 0)) : Eng Nat :=
  match g.op with
  | .count => .ok 1
  | .dot =>
    match grRead s own (gfield g 0x30 8 + 8 * sym) 8 with
    | .error e => .error e
    | .ok p =>
      match grReadNat s own (gfield g 0x20 8 + 4 * rfield p 0 4) 4 with
      | .error e => .error e
      | .ok x =>
        let v := rfield p 4 4
        if isIntFmt g.rfmt then .ok (wrapI g.width (sInt 32 v * sInt 32 x))
        else
          let f : FFmt := if g.rfmt = 0x08 then .f64 else .f32
          .ok (rne f (fmul (fval .f32 v) (fval .f32 x)))
  | .faddg | .fmin | .fmax =>
    let f : FFmt := if g.rfmt = 0x08 then .f64 else .f32
    match fmtTy g.tfmt with
    | .flt t => .ok (rne f (fval t sym))
    | .int _ _ => .ok sym
  | _ => .ok (widen g.tfmt g.rfmt sym)

/-- val(symbol): a terminal's value, or the RRT entry (R251, R260). -/
def symVal (s : State) (g : GBinding) (sym : Nat) (own : Nat × Nat := (0, 0)) : Eng Nat :=
  if bit sym 31 then grReadNat s own (rrtAddr s g (sym % 2 ^ 31)) (g.width / 8) else termVal s g sym own

/-- len(symbol): 1, or the RLT entry (R261); one above 2^63 − 1 is BAD_GRAMMAR (R256). -/
def symLen (s : State) (g : GBinding) (sym : Nat) (own : Nat × Nat := (0, 0)) : Eng Nat :=
  if bit sym 31 then
    match grReadNat s own (g.rlt + 8 * (sym % 2 ^ 31)) 8 with
    | .error e => .error e
    | .ok n => if 2 ^ 63 ≤ n then .error .badGrammar else .ok n
  else .ok 1

/-- The children of rule i, checked: each nonterminal names a rule below i, each terminal is well formed (R246, R247). -/
def ruleOf (s : State) (g : GBinding) (i : Nat) (own : Nat × Nat := (0, 0)) : Eng (Nat × Nat) :=
  match grRead s own (gfield g 0x08 8 + 8 * i) 8 with
  | .error e => .error e
  | .ok r =>
    let l := rfield r 0 4
    let t := rfield r 4 4
    let bad (c : Nat) : Bool := if bit c 31 then decide (i ≤ c % 2 ^ 31) else badSymbol g c
    if bad l || bad t then .error .badGrammar else .ok (l, t)

/-! ### GBIND (R252, R259) -/

/-- Whether operator, kind and formats agree (R252). -/
def formatsAgree (op : LiftOp) (kind t r : Nat) : Bool :=
  let intR := [0x05, 0x06, 0x07].contains r
  let fltR := [0x08, 0x09].contains r
  match op with
  | .addw | .min | .max | .minn | .maxn | .and | .or | .xor => decide (kind = 1) && decide (1 ≤ t) && decide (t ≤ 4) && intR
  | .count => decide (kind = 1) && [0x01, 0x02, 0x03, 0x04, 0x0A, 0x0B].contains t && intR
  | .faddg | .fmin | .fmax => decide (kind = 1) && [0x0A, 0x0B].contains t && fltR
  | .dot => decide (kind = 2) && ((decide (t = 0x05) && intR) || (decide (t = 0x09) && fltR))
  | .satadd | .sub => false

/-- The limits of a grammar descriptor (R248); `n` is the size of the block domain. -/
def descriptorOk (d : List Byte) (n : Nat) : Bool :=
  let f := rfield d
  let kind := f 0 1
  let nr := f 4 4
  let w := fmtBits (f 2 1) / 8
  let nl := f 0x3C 2
  let c := f 0x3E 2
  let dist := bit (f 3 1) 0
  decide (kind = 1 ∨ kind = 2) && decide (f 3 1 ≤ 1) && decide (1 ≤ nr) && decide (nr < 2 ^ 31) &&
    decide (f 0x08 8 % 8 = 0) && decide (f 0x10 8 % 4 = 0) && decide (f 0x18 8 % w = 0) &&
    decide (f 0x20 8 % (if kind = 1 then 8 else 4) = 0) && decide (f 0x28 8 % 4 = 0) &&
    (if kind = 1 then decide (f 0x30 8 = 0) else decide (f 0x30 8 % 8 = 0)) &&
    decide (1 ≤ nl) && decide (nl ≤ nr) &&
    (if dist then
      decide (1 ≤ c) && decide (0 < n) && decide (f 0x18 8 < spadSize) &&
        decide (f 0x18 8 + (nr / (c * n) * c + min (nr % (c * n)) c) * w ≤ spadSize)
    else decide (c = 0))

/-- A list that starts at 0, increases strictly and stays below `n` (R259). -/
def levelsOk (n : Nat) (l : List Nat) : Bool :=
  decide (l.head? = some 0) && l.all (fun x => decide (x < n)) && (l.zip (l.drop 1)).all fun p => decide (p.1 < p.2)

/-- A GBIND job. -/
def runGbind (x : GbindArgs) (j : Job) (s : State) : Ended :=
  let s := setGram s j.ctx x.y none
  if x.op = .satadd ∨ x.op = .sub ∨ (x.op = .faddg ∧ x.reassoc = false) then endsBad s .notAssociative
  else match engRead s reachLocal j.a.toNat 64 with
    | .error e => endsBad s e
    | .ok d =>
      let map := blockMap s
      if !formatsAgree x.op (rfield d 0 1) (rfield d 1 1) (rfield d 2 1) || !descriptorOk d map.length then endsBad s .badDesc
      else match engRead s reachTile (rfield d 0x10 8) (4 * rfield d 0x3C 2) with
        | .error e => endsBad s e
        | .ok lv =>
          if !levelsOk (rfield d 4 4) (unpackBytes 32 (rfield d 0x3C 2) lv) then endsBad s .badDesc else
            let dist := bit (rfield d 3 1) 0
            let g : GBinding := { desc := d, op := x.op, reassoc := x.reassoc, n := if dist then map.length else 0,
                                  c := rfield d 0x3E 2, rank := if dist then map else [] }
            (setGram s j.ctx x.y (some g), .ok, 1)

/-! ### GEVAL and GLEN (R260, R261) -/

/-- Rules evaluated in order, `n` of them from rule i on, in a batch that began at `first`; entries written and what
stopped it. `lim` bounds the rules done; the first `skip` of the rules homed here have been done before. Entries of a distributed RRT lie
in scratchpads, where a job's writes go where its reads do (R250, R267). -/
def evalRules (g : GBinding) (first : Nat) : Nat → Nat → Nat → Nat → State → State × Nat × Option StatusCode
  | 0, _, _, _, s => (s, 0, none)
  | n + 1, i, lim, skip, s =>
    let w := g.width / 8
    let own := if g.dist then (0, 0) else (gfield g 0x18 8 + w * first, gfield g 0x18 8 + w * i)
    if lim = 0 then (s, 0, none)
    else if !homeHere s g i then evalRules g first n (i + 1) lim skip s
    else if 0 < skip then evalRules g first n (i + 1) lim (skip - 1) s
    else match ruleOf s g i own with
      | .error e => (s, 0, some e)
      | .ok (l, t) =>
        let far (c : Nat) : Bool := g.dist && bit c 31 && decide (first ≤ c % 2 ^ 31) && !homeHere s g (c % 2 ^ 31)
        if far l || far t then (s, 0, some .badGrammar)
        else match symVal s g l own, symVal s g t own with
          | .error e, _ => (s, 0, some e)
          | _, .error e => (s, 0, some e)
          | .ok a, .ok b =>
            match engWrite s reachTile (rrtAddr s g i) (leBytes w (lift g.op g.rfmt a b)) with
            | (s, some e) => (s, 0, some e)
            | (s, none) =>
              let r := evalRules g first n (i + 1) (lim - 1) 0 s
              (r.1, r.2.1 + 1, r.2.2)

/-- Rule lengths filled in order, in a batch that began at `first` (R261). -/
def lenRules (g : GBinding) (first : Nat) : Nat → Nat → Nat → State → State × Nat × Option StatusCode
  | 0, _, _, s => (s, 0, none)
  | n + 1, i, lim, s =>
    let own := (g.rlt + 8 * first, g.rlt + 8 * i)
    if lim = 0 then (s, 0, none)
    else match ruleOf s g i own with
      | .error e => (s, 0, some e)
      | .ok (l, t) =>
        match symLen s g l own, symLen s g t own with
        | .error e, _ => (s, 0, some e)
        | _, .error e => (s, 0, some e)
        | .ok a, .ok b =>
          if 2 ^ 63 ≤ a + b then (s, 0, some .badGrammar)
          else match engWrite s reachTile (g.rlt + 8 * i) (leBytes 8 (a + b)) with
            | (s, some e) => (s, 0, some e)
            | (s, none) =>
              let r := lenRules g first n (i + 1) (lim - 1) s
              (r.1, r.2.1 + 1, r.2.2)

/-- A loop's answer as a job's end, for a loop that went on after units done before. -/
def loopOn (done : Nat) (t : State × Nat × Option StatusCode) : Ended := (t.1, t.2.2.getD .ok, done + t.2.1)

/-- The binding that a job works with: its own copy since it started (R269), or the handle's. -/
def jobBinding (s : State) (j : Job) (y : Fin 4) : Option GBinding :=
  match j.binding with
  | some g => some g
  | none => getGram s j.ctx y

/-- A job on a bound handle (R256). -/
def bound (y : Fin 4) (j : Job) (s : State) (k : GBinding → Ended) : Ended :=
  match jobBinding s j y with
  | none => endsBad s .notBound
  | some g => k g

/-- A GEVAL job, stopped after `lim` rules more than it has done. -/
def runGeval (y : Fin 4) (j : Job) (lim : Nat) (s : State) : Ended :=
  bound y j s fun g =>
    if g.nr < j.a.toNat + j.b.toNat then endsBad s .badDesc
    else loopOn j.done (evalRules g j.a.toNat j.b.toNat j.a.toNat lim j.done s)

/-- A GLEN job, stopped after `lim` rules more than it has done. -/
def runGlen (y : Fin 4) (j : Job) (lim : Nat) (s : State) : Ended :=
  bound y j s fun g =>
    if g.matrix || decide (g.rlt = 0) || decide (g.nr < j.a.toNat + j.b.toNat) then endsBad s .badDesc
    else loopOn j.done (lenRules g j.a.toNat (j.b.toNat - j.done) (j.a.toNat + j.done) lim s)

/-! ### GSPINE (R262) -/

/-- Where a running job goes on after what it has done (R269): its resume point, kept in the job queue. -/
def setResume (s : State) (id : Nat) (r : List Nat) : State :=
  { s with clu := { s.clu with jobs := s.clu.jobs.map fun j => if j.id = id then { j with resume := r } else j } }

/-- A symbol of a list at an address, with the malformed ones refused. -/
def symbolAt (s : State) (g : GBinding) (base k : Nat) (own : Nat × Nat := (0, 0)) : Eng Nat :=
  match grReadNat s own (base + 4 * k) 4 with
  | .error e => .error e
  | .ok x => if badSymbol g x then .error .badGrammar else .ok x

/-- Symbols reduced from left to right: the value, the symbols done, and what stopped it. -/
def reduceSymbols (s : State) (g : GBinding) (base : Nat) (own : Nat × Nat) : Nat → Nat → Nat → Nat → Nat × Nat × Option StatusCode
  | 0, _, _, acc => (acc, 0, none)
  | n + 1, k, lim, acc =>
    if lim = 0 then (acc, 0, some .cancelled)
    else match symbolAt s g base k own with
      | .error e => (acc, 0, some e)
      | .ok x =>
        match symVal s g x own with
        | .error e => (acc, 0, some e)
        | .ok v =>
          let r := reduceSymbols s g base own n (k + 1) (lim - 1) (lift g.op g.rfmt acc v)
          (r.1, r.2.1 + 1, r.2.2)

/-- Rows of a matrix reduced from row `r` on, each written to its own place (R249, R262); `from_` symbols of the first have been reduced
before, to `acc`. One that stops within a row says where it goes on (R269). -/
def reduceRows (g : GBinding) (id first dest : Nat) : Nat → Nat → Nat → Nat → Nat → State → State × Nat × Option StatusCode
  | 0, _, _, _, _, s => (s, 0, none)
  | n + 1, r, from_, acc, lim, s =>
    let w := g.width / 8
    let tab := gfield g 0x28 8
    let own := (dest, dest + w * (r - first))
    match grReadNat s own (tab + 4 * r) 4, grReadNat s own (tab + 4 * (r + 1)) 4 with
    | .error e, _ => (s, 0, some e)
    | _, .error e => (s, 0, some e)
    | .ok a, .ok b =>
      if b < a then (s, 0, some .badGrammar) else
        let t := reduceSymbols s g (tab + 4 * (gfield g 0x38 4 + 1)) own (b - a - from_) (a + from_) lim acc
        match t.2.2 with
        | some e => (setResume s id [r, from_ + t.2.1, t.1], t.2.1, some e)
        | none =>
          match engWrite s reachTile (dest + w * (r - first)) (leBytes w t.1) with
          | (s, some e) => (s, t.2.1, some e)
          | (s, none) =>
            let u := reduceRows g id first dest n (r + 1) 0 (identity g.op g.rfmt) (lim - t.2.1) s
            (u.1, t.2.1 + u.2.1, u.2.2)

/-- A GSPINE job, stopped after `lim` symbols more than it has done. -/
def runGspine (seed : Bool) (y : Fin 4) (j : Job) (lim : Nat) (s : State) : Ended :=
  match jobRecord j with
  | .error e => bound y j s fun _ => endsBad s e
  | .ok rec => bound y j s fun g =>
    let a := rfield rec 0 8
    let n := rfield rec 8 8
    let dest := rfield rec 0x18 8
    if rfield rec 0x10 8 ≠ 0 ∨ dest % (g.width / 8) ≠ 0 ∨ gfield g 0x38 4 < a + n ∨ (g.matrix && seed) = true then
      endsBad s .badDesc
    else if g.matrix then
      let r := j.resume.getD 0 a
      loopOn j.done (reduceRows g j.id a dest (a + n - r) r (j.resume.getD 1 0) (j.resume.getD 2 (identity g.op g.rfmt)) lim s)
    else
      let acc := j.resume.getD 0 (if seed then j.b.toNat % 2 ^ g.width else identity g.op g.rfmt)
      let t := reduceSymbols s g (gfield g 0x28 8) (0, 0) (n - j.done) (a + j.done) lim acc
      match t.2.2 with
      | some e => (setResume s j.id [t.1], e, j.done + t.2.1)
      | none =>
        match engWrite s reachTile dest (leBytes (g.width / 8) t.1) with
        | (s, some e) => (s, e, j.done + t.2.1)
        | (s, none) => (s, .ok, j.done + t.2.1)

/-! ### GOCC (R263) -/

/-- An occurrence record's bytes (R263). -/
def occBytes (sym start bias len : Nat) : List Byte :=
  leBytes 4 sym ++ leBytes 4 0 ++ leBytes 8 (start % 2 ^ 64) ++ leBytes 8 bias ++ leBytes 8 len

/-- The length of a symbol whose RLT entry agrees with its children's (R263). -/
def checkedLen (s : State) (g : GBinding) (sym : Nat) (own : Nat × Nat := (0, 0)) : Eng Nat :=
  if !bit sym 31 then .ok 1 else
    match symLen s g sym own, ruleOf s g (sym % 2 ^ 31) own with
    | .error e, _ => .error e
    | _, .error e => .error e
    | .ok n, .ok (l, t) =>
      match symLen s g l own, symLen s g t own with
      | .error e, _ => .error e
      | _, .error e => .error e
      | .ok a, .ok b => if n ≠ a + b then .error .badGrammar else .ok n

/-- Occurrences of spine symbols written in order from `dest` on, where the job's records begin at `first`: each symbol's record, and then
the bias and position of the next. One that stops says with what it goes on (R269). -/
def occSpine (g : GBinding) (id first : Nat) : Nat → Nat → Nat → Nat → Nat → Nat → State → State × Nat × Option StatusCode
  | 0, _, _, _, _, _, s => (s, 0, none)
  | n + 1, k, dest, bias, pos, lim, s =>
    let own := (first, dest)
    if lim = 0 then (setResume s id [bias, pos], 0, none)
    else match symbolAt s g (gfield g 0x28 8) k own with
      | .error e => (s, 0, some e)
      | .ok x =>
        match checkedLen s g x own with
        | .error e => (s, 0, some e)
        | .ok len =>
          match engWrite s reachTile dest (occBytes x pos bias len) with
          | (s, some e) => (s, 0, some e)
          | (s, none) =>
            match symVal s g x (first, dest + 32) with
            | .error e => (s, 1, some e)
            | .ok v =>
              let r := occSpine g id first n (k + 1) (dest + 32) (lift g.op g.rfmt bias v) (pos + len) (lim - 1) s
              (r.1, r.2.1 + 1, r.2.2)

/-- Records written one after another; the count and what stopped it. -/
def writeRecords : List (List Byte) → Nat → State → State × Nat × Option StatusCode
  | [], _, s => (s, 0, none)
  | b :: r, dest, s =>
    match engWrite s reachTile dest b with
    | (s, some e) => (s, 0, some e)
    | (s, none) =>
      let t := writeRecords r (dest + b.length) s
      (t.1, t.2.1 + 1, t.2.2)

/-- What an input record splits into (R263). -/
def splitRecord (s : State) (g : GBinding) (rec : List Byte) (own : Nat × Nat := (0, 0)) : Eng (List (List Byte)) :=
  let sym := rfield rec 0 4
  if badSymbol g sym then .error .badGrammar
  else if !bit sym 31 then .ok [rec]
  else match checkedLen s g sym own, ruleOf s g (sym % 2 ^ 31) own with
    | .error e, _ => .error e
    | _, .error e => .error e
    | .ok _, .ok (l, t) =>
      match symLen s g l own, symLen s g t own, symVal s g l own with
      | .ok a, .ok b, .ok v =>
        let p := rfield rec 8 8
        let bias := rfield rec 0x10 8 % 2 ^ g.width
        .ok [occBytes l p bias a, occBytes t (p + a) (lift g.op g.rfmt bias v) b]
      | .error e, _, _ => .error e
      | _, .error e, _ => .error e
      | _, _, .error e => .error e

/-- Input records split in order, `at_` of them before; the job's records begin at `first`. One that stops says with which it goes on
(R269). -/
def occSplit (g : GBinding) (id first : Nat) : Nat → Nat → Nat → Nat → Nat → State → State × Nat × Option StatusCode
  | 0, _, _, _, _, s => (s, 0, none)
  | n + 1, at_, src, dest, lim, s =>
    let own := (first, dest)
    if lim = 0 then (setResume s id [at_], 0, none)
    else match grRead s own src 32 with
      | .error e => (s, 0, some e)
      | .ok rec =>
        match splitRecord s g rec own with
        | .error e => (s, 0, some e)
        | .ok out =>
          match writeRecords out dest s with
          | (s, k, some e) => (s, k, some e)
          | (s, k, none) =>
            let t := occSplit g id first n (at_ + 1) (src + 32) (dest + 32 * out.length) (lim - k) s
            (t.1, k + t.2.1, t.2.2)

/-- How many records an input list splits into, as far as it can be read. -/
def splitCount (s : State) : Nat → Nat → Nat
  | 0, _ => 0
  | n + 1, src =>
    match engReadNat s reachTile src 4 with
    | .ok x => (if bit x 31 then 2 else 1) + splitCount s n (src + 32)
    | .error _ => 0

/-- A GOCC job, stopped after `lim` records more than it has written. -/
def runGocc (split : Bool) (y : Fin 4) (j : Job) (lim : Nat) (s : State) : Ended :=
  match jobRecord j with
  | .error e => bound y j s fun _ => endsBad s e
  | .ok rec => bound y j s fun g =>
    let a := rfield rec 0 8
    let n := rfield rec 8 8
    let dest := rfield rec 0x18 8
    if g.matrix || decide (g.rlt = 0) || decide (rfield rec 0x10 8 ≠ 0) || decide (dest % 32 ≠ 0) then endsBad s .badDesc
    else if split then
      let i := plainAddr s a
      let o := plainAddr s dest
      if a % 32 ≠ 0 ∨ (j.done = 0 ∧ i < o + 32 * splitCount s n a ∧ o < i + 32 * n) then endsBad s .badDesc
      else
        let at_ := j.resume.getD 0 0
        loopOn j.done (occSplit g j.id dest (n - at_) at_ (a + 32 * at_) (dest + 32 * j.done) lim s)
    else if gfield g 0x38 4 < a + n then endsBad s .badDesc
    else loopOn j.done (occSpine g j.id dest (n - j.done) (a + j.done) (dest + 32 * j.done)
      (j.resume.getD 0 (j.b.toNat % 2 ^ g.width)) (j.resume.getD 1 0) lim s)

/-! ### Descent (R264, R265) -/

/-- The terminal at a position of a symbol, with the running value of the whole children passed over on the left; an
RLT entry of 0 or a position outside the symbol is BAD_GRAMMAR. -/
def descend (s : State) (g : GBinding) (scan : Bool) : Nat → Nat → Nat → Nat → Eng (Nat × Nat)
  | 0, _, _, _ => .error .badGrammar
  | n + 1, sym, pos, acc =>
    if badSymbol g sym then .error .badGrammar
    else if !bit sym 31 then (if pos = 0 then .ok (sym, acc) else .error .badGrammar)
    else match ruleOf s g (sym % 2 ^ 31) with
      | .error e => .error e
      | .ok (l, t) =>
        match symLen s g l with
        | .error e => .error e
        | .ok len =>
          if len = 0 then .error .badGrammar
          else if pos < len then descend s g scan n l pos acc
          else if !scan then descend s g scan n t (pos - len) acc
          else match symVal s g l with
            | .error e => .error e
            | .ok v => descend s g scan n t (pos - len) (lift g.op g.rfmt acc v)

/-- Depth that a descent from a symbol can reach: one below its rule at each step (R247). -/
def depthOf (sym : Nat) : Nat := sym % 2 ^ 31 + 2

/-- Terminals written in order (R264): raw, or the running value. One that stops says with which it goes on (R269). What it writes lies in
the scratchpad, where its reads find it (R267). -/
def unfold_ (g : GBinding) (id : Nat) (scan : Bool) (sym : Nat) : Nat → Nat → Nat → Nat → Nat → State → State × Nat × Option StatusCode
  | 0, _, _, _, _, s => (s, 0, none)
  | n + 1, pos, dest, acc, lim, s =>
    if lim = 0 then (setResume s id [acc], 0, none)
    else match descend s g false (depthOf sym) sym pos 0 with
    | .error e => (s, 0, some e)
    | .ok (x, _) =>
      match (if scan then termVal s g x else .ok x) with
      | .error e => (s, 0, some e)
      | .ok v =>
        let acc := if scan then lift g.op g.rfmt acc v else v
        let w := if scan then g.width / 8 else fmtBits g.tfmt / 8
        match engWrite s reachSpad dest (leBytes w acc) with
        | (s, some e) => (s, 0, some e)
        | (s, none) =>
          let r := unfold_ g id scan sym n (pos + 1) (dest + w) acc (lim - 1) s
          (r.1, r.2.1 + 1, r.2.2)

/-- A GUNF job, stopped after `lim` terminals more than it has written. DESIGN CHOICE (log 101): a symbol with
a bit set above bit 31 breaks the record's terms. -/
def runGunf (scan : Bool) (y : Fin 4) (j : Job) (lim : Nat) (s : State) : Ended :=
  match jobRecord j with
  | .error e => bound y j s fun _ => endsBad s e
  | .ok rec => bound y j s fun g =>
    let sym := rfield rec 0 8
    let pos := rfield rec 8 8
    let cap := rfield rec 0x10 8
    let dest := rfield rec 0x18 8
    if g.matrix || decide (g.rlt = 0) || decide (2 ^ 32 ≤ sym) then endsBad s .badDesc
    else if badSymbol g sym then endsBad s .badGrammar
    else match symLen s g sym with
      | .error e => (s, e, j.done)
      | .ok len =>
        let m := min cap (len - pos)
        let w := if scan then g.width / 8 else fmtBits g.tfmt / 8
        if dest % w ≠ 0 ∨ spadSize < dest + m * w then endsBad s .badDesc
        else if m = 0 then (s, .ok, 0)
        else
          let from_ : Eng (Nat × Nat) := match j.resume with
            | acc :: _ => .ok (0, acc)
            | [] => if scan then descend s g true (depthOf sym) sym pos (j.b.toNat % 2 ^ g.width) else .ok (0, 0)
          match from_ with
          | .error e => endsBad s e
          | .ok (_, acc) => loopOn j.done (unfold_ g j.id scan sym (m - j.done) (pos + j.done) (dest + w * j.done) acc lim s)

/-- The spine symbol that holds a position of a segment, and the position within it; none beyond its end (R265). -/
def passSymbols (s : State) (g : GBinding) : Nat → Nat → Nat → Eng (Option (Nat × Nat))
  | 0, _, _ => .ok none
  | n + 1, k, pos =>
    match symbolAt s g (gfield g 0x28 8) k with
    | .error e => .error e
    | .ok x =>
      match symLen s g x with
      | .error e => .error e
      | .ok len => if pos < len then .ok (some (x, pos)) else passSymbols s g n (k + 1) (pos - len)

/-- A GLOC job (R265). -/
def runGloc (y : Fin 4) (j : Job) (s : State) : Ended :=
  match jobRecord j with
  | .error e => bound y j s fun _ => endsBad s e
  | .ok rec => bound y j s fun g =>
    let a := rfield rec 0 8
    let n := rfield rec 8 8
    let dest := rfield rec 0x18 8
    if g.matrix || decide (g.rlt = 0) || decide (gfield g 0x38 4 < a + n) || decide (dest % 4 ≠ 0) then endsBad s .badDesc
    else match passSymbols s g n a (rfield rec 0x10 8) with
      | .error e => endsBad s e
      | .ok none => (s, .ok, 0)
      | .ok (some (sym, pos)) =>
        match descend s g false (depthOf sym) sym pos 0 with
        | .error e => endsBad s e
        | .ok (x, _) =>
          match engWrite s reachTile dest (leBytes 4 x) with
          | (s, some e) => (s, e, 0)
          | (s, none) => (s, .ok, 1)

/-- A GLOOK job (R266). -/
def runGlook (y : Fin 4) (j : Job) (s : State) : Ended :=
  bound y j s fun g =>
    let w := g.width / 8
    if g.nr ≤ j.a.toNat ∨ j.b.toNat % w ≠ 0 then endsBad s .badDesc
    else match engRead s reachTile (rrtAddr s g j.a.toNat) w with
      | .error e => endsBad s e
      | .ok bs =>
        match engWrite s reachTile j.b.toNat bs with
        | (s, some e) => (s, e, 0)
        | (s, none) => (s, .ok, 1)

/-- A GRELEASE job (R266). -/
def runGrelease (y : Fin 4) (j : Job) (s : State) : Ended :=
  bound y j s fun _ => (setGram s j.ctx y none, .ok, 1)

end Sys2Proof.Machine
end

