-- ==== Sys2Proof/Machine/Reef.lean ====
section
/-! DEFINITION. The reef unit (R292 to R296): matching, merging, restoring and the sizes' logarithms. -/

namespace Sys2Proof.Machine

/-! ### Commands at issue (R272, R273) -/

def execRfmatch (x : RfArgs) (s : State) : Out := recordCommand s x.gs (.rfmatch x.q) x.ga
def execRfmerge (x : RfArgs) (s : State) : Out := recordCommand s x.gs (.rfmerge x.q) x.ga
def execRfshake (x : RfArgs) (s : State) : Out := recordCommand s x.gs (.rfshake x.q) x.ga
def execRflogs (x : RfArgs) (s : State) : Out :=
  command s x.gs (.rflogs x.q) x.ga 0 (fun a _ => multipleOf 4 a) recordOk
def execRffree (x : RffreeArgs) (s : State) : Out :=
  command s x.gs (.rffree x.q) 0 0 (fun _ _ => .ok ()) fun _ _ => true

/-! ### Handles -/

/-- A reef handle of a context. -/
def getReef (s : State) (c : Fin 8) (q : Fin 4) : ReefMap := (s.ctx c).q[q.val]'q.isLt

/-- A reef handle replaced. -/
def setReef (s : State) (c : Fin 8) (q : Fin 4) (m : ReefMap) : State :=
  let x := s.ctx c
  s.setCtx c { x with q := x.q.set q.val m q.isLt }

/-! ### RFMATCH (R292, R293, R294) -/

/-- An RFMATCH record. -/
structure MatchRec where
  keys  : Nat
  sizes : Nat
  map   : Nat
  n     : Nat
  d     : Nat
  r     : Nat
  sized : Bool
deriving DecidableEq, Repr

/-- The record read, or none where it breaks R292. -/
def matchRec (b : List Byte) : Option MatchRec :=
  let x : MatchRec := { keys := rfield b 0 4, sizes := rfield b 4 4, map := rfield b 8 4, n := rfield b 0x0C 2,
                        d := rfield b 0x0E 2, r := rfield b 0x10 2, sized := bit (rfield b 0x12 2) 0 }
  if rfield b 0x12 2 < 2 ∧ rfield b 0x14 12 = 0 ∧ x.keys % 32 = 0 ∧ x.map % 4 = 0 ∧ (x.sized = false ∨ x.sizes % 2 = 0) ∧
      2 ≤ x.n ∧ x.n ≤ 512 ∧ x.d % 16 = 0 ∧ 16 ≤ x.d ∧ x.d ≤ 4096 ∧ x.r ≤ (x.n + 1) / 2 ∧
      x.keys + 2 * x.d * x.n ≤ spadSize ∧ x.map + 4 * x.n ≤ spadSize ∧
      (x.sized = false ∨ x.sizes + 2 * x.n ≤ spadSize) then some x else none

/-- The score of two keys of D bf16 values: chunks of 16 by tree, chunks in order (R293). -/
def scoreChunks : Nat → FVal → List FVal → List FVal → FVal
  | 0, acc, _, _ => acc
  | n + 1, acc, a, b =>
    let t := treeSum32 (((a.take 16).zip (b.take 16)).map fun p => fmul p.1 p.2)
    scoreChunks n (r32 (fadd acc t)) (a.drop 16) (b.drop 16)

/-- A pair's score. -/
def score (d : Nat) (a b : List FVal) : FVal :=
  let t := treeSum32 (((a.take 16).zip (b.take 16)).map fun p => fmul p.1 p.2)
  scoreChunks (d / 16 - 1) t (a.drop 16) (b.drop 16)

/-- An A token's best B token with its score: the highest, ties to the lowest index, NaN never (R293). -/
def bestOf (d : Nat) (a : List FVal) (bs : List (Nat × List FVal)) : Option (Nat × FVal) :=
  bs.foldl (fun best b =>
    let v := score d a b.2
    if v.isNan then best else match best with
      | none => some (b.1, v)
      | some (i, w) => if flt w v then some (b.1, v) else some (i, w)) none

/-- A token with a best put among those already ranked: highest score first, ties to the lowest A index. -/
def rankBest (x : Nat × Nat × FVal) : List (Nat × Nat × FVal) → List (Nat × Nat × FVal)
  | [] => [x]
  | y :: r => if flt y.2.2 x.2.2 then x :: y :: r else y :: rankBest x r

/-- The merges: A tokens with the B tokens they merge into (R293). -/
def mergesOf (d r : Nat) (keys : List (List FVal)) : List (Nat × Nat) :=
  let toks := keys.zipIdx.map fun p => (p.2, p.1)
  let bs := toks.filter fun t => decide (t.1 % 2 = 1)
  let cands := (toks.filter fun t => decide (t.1 % 2 = 0)).filterMap fun t =>
    match bestOf d t.2 bs with
    | some (b, v) => some (t.1, b, v)
    | none => none
  ((cands.foldl (fun l x => rankBest x l) []).take r).map fun x => (x.1, x.2.1)

/-- Each token's destination: unmerged A tokens in order, then B tokens in order (R293). -/
def destinations (n : Nat) (merges : List (Nat × Nat)) : List Nat :=
  let toks := List.range n
  let order := (toks.filter fun t => decide (t % 2 = 0) && !merges.any fun m => decide (m.1 = t)) ++
    toks.filter fun t => decide (t % 2 = 1)
  toks.map fun t => match merges.find? fun m => decide (m.1 = t) with
    | some m => order.idxOf m.2
    | none => order.idxOf t

/-- Sizes of the destinations. -/
def destSizes (m : Nat) (dests sizes : List Nat) : List Nat :=
  (List.range m).map fun d => ((dests.zip sizes).map fun p => if p.1 = d then p.2 else 0).sum

/-- An RFMATCH job; nothing stands when it is cut off before its end (`n` = 0). -/
def runRfmatch (q : Fin 4) (j : Job) (n : Nat) (s : State) : Ended :=
  if n = 0 then (s, .ok, 0) else
  match jobRecord j with
  | .error e => endsBad s e
  | .ok rec =>
    match matchRec rec, getReef s j.ctx q with
    | none, _ => endsBad s .badDesc
    | some _, .bound _ _ _ => endsBad s .badDesc
    | some r, _ =>
      match engRead s reachSpad r.keys (2 * r.d * r.n), (if r.sized then engRead s reachSpad r.sizes (2 * r.n) else .ok []) with
      | .error e, _ => endsBad s e
      | _, .error e => endsBad s e
      | .ok kb, .ok sb =>
        let sizes := if r.sized then unpackBytes 16 r.n sb else List.replicate r.n 1
        let elems := (unpackBytes 16 (r.d * r.n) kb).map (fval .bf16)
        let keys := (List.range r.n).map fun t => (elems.drop (r.d * t)).take r.d
        let merges := mergesOf r.d r.r keys
        let dests := destinations r.n merges
        let m := r.n - merges.length
        if sizes.contains 0 || (destSizes m dests sizes).any fun z => decide (65535 < z) then endsBad s .badDesc
        else
          let entries := (dests.zip sizes).map fun p => p.1 + p.2 * 2 ^ 16
          match engWrite s reachSpad r.map (packBytes 32 entries) with
          | (s, some e) => endsBad s e
          | (s, none) => (setReef s j.ctx q (.bound r.n m r.map), .ok, merges.length)

/-! ### Uses of a map (R294, R295) -/

/-- The map of a handle as it stands in scratchpad: M, destinations and sizes. An entry at or above M gives BAD_DESC, and
so does a map in which a size is 0 or a destination holds no token: no RFMATCH writes one (log 32). -/
def mapOf (s : State) (c : Fin 8) (q : Fin 4) : Eng (Nat × Nat × List Nat × List Nat) :=
  match getReef s c q with
  | .unbound => .error .notBound
  | .lost => .error .mapLost
  | .bound n m a =>
    match engRead s reachSpad a (4 * n) with
    | .error e => .error e
    | .ok bs =>
      let es := unpackBytes 32 n bs
      let dests := es.map fun e => e % 2 ^ 16
      let sizes := es.map fun e => e / 2 ^ 16
      if dests.any (fun d => decide (m ≤ d)) || sizes.contains 0 || (List.range m).any fun d => !dests.contains d then
        .error .badDesc
      else .ok (n, m, dests, sizes)

/-- An RFMERGE or RFSHAKE record. -/
structure MergeRec where
  src     : Nat
  dst     : Nat
  sizeOut : Nat
  e       : Nat
  fmt     : Nat
  sizes   : Bool
deriving DecidableEq, Repr

/-- Bytes of an element. -/
def MergeRec.width (r : MergeRec) : Nat := fmtBits r.fmt / 8

/-- The record read, or none where it breaks R295; `rows` of it are read and `out` written. -/
def mergeRec (b : List Byte) (rows out : Nat) : Option MergeRec :=
  let x : MergeRec := { src := rfield b 0 4, dst := rfield b 4 4, sizeOut := rfield b 8 4, e := rfield b 0x0C 2,
                        fmt := rfield b 0x0E 1, sizes := bit (rfield b 0x0F 1) 0 }
  let w := x.width
  if rfield b 0x0F 1 < 2 ∧ rfield b 0x10 16 = 0 ∧ 1 ≤ x.e ∧ x.e ≤ 4096 ∧ (x.fmt = 0x09 ∨ x.fmt = 0x0A) ∧
      x.src % w = 0 ∧ x.dst % w = 0 ∧ (x.src + rows * x.e * w ≤ x.dst ∨ x.dst + out * x.e * w ≤ x.src) then some x else none

/-- The merged row of tokens with their sizes, the B token first (R295); one token's row is taken as it is. -/
def mergeRow (r : MergeRec) (toks : List (Nat × List Nat)) : List Nat :=
  let f : FFmt := if r.fmt = 0x09 then .f32 else .bf16
  match toks with
  | [] => []
  | [t] => t.2
  | t :: rest =>
    let total := (toks.map fun t => t.1).sum
    (List.range r.e).map fun i =>
      let x (t : Nat × List Nat) : FVal := fmul (ofInt t.1) (fval f (t.2.getD i 0))
      let acc := rest.foldl (fun a t => r32 (fadd a (x t))) (r32 (x t))
      rne f (fdiv 24 acc (ofInt total))

/-- Tokens of a destination: the B tokens, then the A tokens, each in order. -/
def tokensOf (dests : List Nat) (d : Nat) : List Nat :=
  let ts := (List.range dests.length).filter fun t => decide (dests.getD t 0 = d)
  (ts.filter fun t => decide (t % 2 = 1)) ++ ts.filter fun t => decide (t % 2 = 0)

/-- Rows read, with what stopped the reading. -/
def reefRows (s : State) (r : MergeRec) : List Nat → Eng (List (List Nat))
  | [] => .ok []
  | t :: ts =>
    match engRead s reachSpad (r.src + t * r.e * r.width) (r.e * r.width) with
    | .error e => .error e
    | .ok bs =>
      match reefRows s r ts with
      | .error e => .error e
      | .ok l => .ok (unpackBytes (8 * r.width) r.e bs :: l)

/-- Output rows written in order, `n` of them from row d on; `pick d` names the input rows with their sizes. -/
def reefOut (r : MergeRec) (pick : Nat → List (Nat × Nat)) : Nat → Nat → State → State × Nat × Option StatusCode
  | 0, _, s => (s, 0, none)
  | n + 1, d, s =>
    let ts := pick d
    match reefRows s r (ts.map fun t => t.1) with
    | .error e => (s, 0, some e)
    | .ok rows =>
      let out := mergeRow r ((ts.map fun t => t.2).zip rows)
      match engWrite s reachSpad (r.dst + d * r.e * r.width) (packBytes (8 * r.width) out) with
      | (s, some e) => (s, 0, some e)
      | (s, none) =>
        let t := reefOut r pick n (d + 1) s
        (t.1, t.2.1 + 1, t.2.2)

/-- An RFMERGE job, stopped after `n` tokens. -/
def runRfmerge (q : Fin 4) (j : Job) (n : Nat) (s : State) : Ended :=
  match mapOf s j.ctx q with
  | .error e => endsBad s e
  | .ok (rows, m, dests, sizes) =>
    match jobRecord j with
    | .error e => endsBad s e
    | .ok rec =>
      match mergeRec rec rows m with
      | none => endsBad s .badDesc
      | some r =>
        match reefOut r (fun d => (tokensOf dests d).map fun t => (t, sizes.getD t 0)) (min n m) 0 s with
        | (s, k, some e) => (s, e, k)
        | (s, k, none) =>
          if r.sizes ∧ k = m then
            match engWrite s reachSpad r.sizeOut (packBytes 16 (destSizes m dests sizes)) with
            | (s, some e) => (s, e, k)
            | (s, none) => (s, .ok, k)
          else (s, .ok, k)

/-- An RFSHAKE job, stopped after `n` tokens. -/
def runRfshake (q : Fin 4) (j : Job) (n : Nat) (s : State) : Ended :=
  match mapOf s j.ctx q with
  | .error e => endsBad s e
  | .ok (rows, m, dests, _) =>
    match jobRecord j with
    | .error e => endsBad s e
    | .ok rec =>
      match mergeRec rec m rows with
      | none => endsBad s .badDesc
      | some r =>
        let t := reefOut r (fun t => [(dests.getD t 0, 1)]) (min n rows) 0 s
        (t.1, t.2.2.getD .ok, t.2.1)

/-- An RFLOGS job, stopped after `n` entries. -/
def runRflogs (q : Fin 4) (j : Job) (n : Nat) (s : State) : Ended :=
  match mapOf s j.ctx q with
  | .error e => endsBad s e
  | .ok (_, m, dests, sizes) =>
    let out := ((destSizes m dests sizes).take n).map log2Of
    let t := engWritePart s reachSpad j.a.toNat (packBytes 32 out)
    (t.1, t.2.2.getD .ok, t.2.1 / 4)

/-- An RFFREE job (R296). -/
def runRffree (q : Fin 4) (j : Job) (n : Nat) (s : State) : Ended :=
  if n = 0 then (s, .ok, 0) else
  match getReef s j.ctx q with
  | .unbound => endsBad s .notBound
  | _ => (setReef s j.ctx q .unbound, .ok, 1)

end Sys2Proof.Machine
end

