-- ==== Sys2Proof/Machine/Neuron.lean ====
section
/-! DEFINITION. The neuron bank (R297 to R304): its configuration, events that arrive, and advances. -/

namespace Sys2Proof.Machine

/-! ### Commands at issue (R272, R273) -/

def execNbcfg (x : Eng1Args) (s : State) : Out :=
  command s x.gs .nbcfg x.ga 0 (fun a _ => multipleOf 64 a) fun _ _ => true

/-- A scratchpad offset and a number of entries (R273). -/
def listOk (a b : Word) : Bool := decide (a.toNat < spadSize) && decide (1 ≤ b.toNat) && decide (b.toNat ≤ 4096)

def execNbpost (x : Eng2Args) (s : State) : Out :=
  command s x.gs .nbpost x.ga x.gb (fun a _ => multipleOf 8 a) listOk
def execNbadv (x : Eng1Args) (s : State) : Out :=
  command s x.gs .nbadv x.ga 0 (fun _ _ => .ok ()) fun a _ => decide (a.toNat < 2 ^ 32)

/-- A range of neurons: the first in bits [11:0], their count in bits [24:12] (R273). -/
def neuronRangeOk (a b : Word) : Bool :=
  let n := b.toNat / 2 ^ 12
  decide (a.toNat < spadSize) && decide (b.toNat < 2 ^ 25) && decide (1 ≤ n) && decide (b.toNat % 2 ^ 12 + n ≤ 4096)

def execNbrd (x : Eng2Args) (s : State) : Out :=
  command s x.gs .nbrd x.ga x.gb (fun a _ => multipleOf 16 a) neuronRangeOk
def execNbwr (x : Eng2Args) (s : State) : Out :=
  command s x.gs .nbwr x.ga x.gb (fun a _ => multipleOf 16 a) neuronRangeOk
def execNbspk (x : Eng2Args) (s : State) : Out :=
  command s x.gs .nbspk x.ga x.gb (fun a _ => multipleOf 8 a) listOk

/-! ### The bank's parts -/

/-- The bank replaced. -/
def setBank (s : State) (b : Bank) : State := { s with clu := { s.clu with bank := b } }

/-- A field of the configuration (R298). -/
def Bank.field (b : Bank) (off n : Nat) : Nat := rfield b.config off n

/-- A bank's number from its die and cluster index (R297). -/
def bankNumber (die cluster : Nat) : Nat := die * 6912 + cluster

/-- This cluster's bank number. -/
def ownBank (s : State) : Nat := bankNumber s.core.die (s.core.row * 64 + s.core.col)

/-- Whether a bank's cluster is in the launch domain (R300). -/
def bankInDomain (s : State) (b : Nat) : Bool :=
  match curLaunch s with
  | none => false
  | some l => l.domain.any fun p =>
      decide (bankNumber (bits p.toNat 28 4) (bits p.toNat 21 7 * 64 + bits p.toNat 15 6) = b)

/-- An event's target bank (R299). -/
def evBank (e : NbEvent) : Nat := bits e.word.toNat 47 17

/-- An event's target neuron (R299). -/
def evNeuron (e : NbEvent) : Nat := bits e.word.toNat 35 12

/-- An event's weight index (R299). -/
def evWeight (e : NbEvent) : Nat := bits e.word.toNat 20 15

/-- The full step of an event for a bank at step c (R299). -/
def evStep (e : NbEvent) (c : Nat) : Int :=
  let d : Int := ((bits e.word.toNat 0 20 : Int) - c) % 2 ^ 20
  if d < 2 ^ 19 then c + d else c + d - 2 ^ 20

/-- The order of events: step, source bank, source neuron, position (R299). -/
def eventBefore (x y : Stored) : Bool :=
  let e := x.ev
  let f := y.ev
  decide (x.step < y.step) || (decide (x.step = y.step) && (decide (e.srcBank < f.srcBank) || (decide (e.srcBank = f.srcBank) &&
    (decide (e.srcNeur < f.srcNeur) || (decide (e.srcNeur = f.srcNeur) && decide (e.pos < f.pos))))))

/-- An event put in its place; equal keys keep the order of arrival. -/
def insertEvent (e : Stored) : List Stored → List Stored
  | [] => [e]
  | x :: r => if eventBefore e x then e :: x :: r else x :: insertEvent e r

/-- An event received: it is stored or spilled, or none where both are full (R299, R300). -/
def Bank.put (b : Bank) (ev : NbEvent) : Option Bank :=
  let e : Stored := { step := evStep ev b.c, ev := ev }
  if b.pending.length + b.tardy.length < 4096 then
    some (if b.closed ∧ e.step = b.c then { b with tardy := b.tardy ++ [e] }
          else { b with pending := insertEvent e b.pending })
  else if b.spill.length < b.field 0x210 4 then some { b with spill := b.spill ++ [e] }
  else none

/-- Spilled events moved into the store as far as there is room, oldest first. -/
def Bank.refill : Nat → Bank → Bank
  | 0, b => b
  | n + 1, b =>
    match b.spill with
    | [] => b
    | e :: r => if b.pending.length + b.tardy.length < 4096 then
        Bank.refill n { b with spill := r, pending := insertEvent e b.pending }
      else b

/-- What became of an event that came to this bank: it was accepted, there is no room for it, or its spill ring cannot be reached. -/
inductive Placed where
  | accepted (s : State)
  | full
  | failed (c : StatusCode)

/-- An event put into the bank (R299, R300). One that spills is written into the spill ring in device memory: which entry, and what
bytes it gets, is free (R298 gives the ring's size in events and no layout; log 33). -/
def placeEvent (s : State) (e : NbEvent) : Placed :=
  match s.clu.bank.put e with
  | none => .full
  | some b =>
    if b.spill.length ≤ s.clu.bank.spill.length then .accepted (setBank s b) else
      let slot := b.field 0x208 8 + 8 * (Config.pick s.choice % max 1 (b.field 0x210 4))
      match engWrite s reachHbm slot ((List.range 8).map (Config.spillByte s.choice)) with
      | (_, some c) => .failed c
      | (t, none) => .accepted (setBank t b).tickChoice

/-- Events held in routers accepted in order as far as there is room (R300); one whose spill ring cannot be reached is held on
(log 33). -/
def takeHeld : Nat → State → State
  | 0, s => s
  | n + 1, s =>
    match s.clu.bank.held with
    | [] => s
    | e :: r => match placeEvent s e with
      | .accepted t => takeHeld n (setBank t { t.clu.bank with held := r })
      | .full | .failed _ => s

/-- The bank after room has come. -/
def settleBank (s : State) : State :=
  let b := s.clu.bank
  takeHeld b.held.length (setBank s (b.refill b.spill.length))

/-- NB_EVENT_ARRIVAL (R300): the event is stored, spilled or held; while the bank is saved it is held (R304). -/
def execNbEventArrival (e : NbEvent) (s : State) : Out :=
  if evBank e ≠ ownBank s then .refused .eventNotEnabled else
    let b := s.clu.bank
    let away := s.core.launch.isNone && s.saved.any fun r => r.bank.isSome
    let hold := setBank s { b with held := b.held ++ [e] }
    if away || !b.held.isEmpty then .next hold else
      match placeEvent s e with
      | .accepted t => .next t
      | .full | .failed _ => .next hold

/-! ### NBCFG (R298) -/

/-- The limits of a configuration. -/
def configOk (d : List Byte) : Bool :=
  let f := rfield d
  ((List.range 16).all fun p => decide (f (32 * p + 0x10) 8 % 8 = 0) && decide (f (32 * p + 0x18) 8 = 0)) &&
    decide (f 0x200 8 % 4 = 0) && decide (f 0x208 8 % 64 = 0) && decide (f 0x210 4 ≤ 2 ^ 28) &&
    decide (1 ≤ f 0x214 4) && decide (f 0x214 4 ≤ 2 ^ 28) && decide (f 0x218 8 % 64 = 0) && decide (f 0x224 4 ≤ 1) &&
    decide (f 0x228 24 = 0)

/-- An NBCFG job; nothing changes when it is cut off (`n` = 0). -/
def runNbcfg (j : Job) (n : Nat) (s : State) : Ended :=
  if n = 0 then (s, .ok, 0) else
  match engRead s reachLocal j.a.toNat 576 with
  | .error e => endsBad s e
  | .ok d =>
    if !configOk d then endsBad s .badDesc else
      let b := s.clu.bank
      let clear := decide (rfield d 0x224 4 = 1)
      let b := { b with configured := true, config := d, c := rfield d 0x220 4, closed := false, touched := [],
                        pending := if clear then [] else b.pending ++ b.tardy, tardy := [],
                        spill := if clear then [] else b.spill,
                        outPos := if clear then 0 else b.outPos % rfield d 0x214 4,
                        outCount := if clear then 0 else min b.outCount (rfield d 0x214 4) }
      (settleBank (setBank s b), .ok, 1)

/-! ### Events sent (R300, R301) -/

/-- What became of an event sent. -/
inductive Sent where
  | accepted (s : State)
  | outside
  | held
  | failed (c : StatusCode)

/-- An event sent to its bank: another bank of the domain accepts it, as a message; this one stores or spills it, where it can reach its
spill ring (R17; log 33). -/
def sendEvent (s : State) (e : NbEvent) : Sent :=
  if evBank e = ownBank s then
    match placeEvent s e with
    | .accepted t => .accepted t
    | .full => .held
    | .failed c => .failed c
  else if bankInDomain s (evBank e) then
    .accepted { s with mod := { s.mod with messages := s.mod.messages ++ [(evBank e, e.word.toNat)] } }
  else .outside

/-- Events posted in order, `n` of them from entry k on: how many, what stopped it; none while an event is held. -/
def postEvents (j : Job) : Nat → Nat → State → Option (State × Nat × Option StatusCode)
  | 0, _, s => some (s, 0, none)
  | n + 1, k, s =>
    match engReadNat s reachSpad (j.a.toNat + 8 * k) 8 with
    | .error e => some (s, 0, some e)
    | .ok w =>
      let e : NbEvent := { word := BitVec.ofNat 64 w, srcBank := ownBank s, srcNeur := 4096 + s.core.cix,
                           pos := s.clu.bank.posted }
      match sendEvent s e with
      | .outside => some (s, 0, some .prot)
      | .held => none
      | .failed c => some (s, 0, some c)
      | .accepted s =>
        let s := setBank s { s.clu.bank with posted := s.clu.bank.posted + 1 }
        match postEvents j n (k + 1) s with
        | none => none
        | some t => some (t.1, t.2.1 + 1, t.2.2)

/-- An NBPOST job, stopped after `n` events more than it has posted; none while an event of it is held (R300). -/
def runNbpost (j : Job) (n : Nat) (s : State) : Option Ended :=
  if !s.clu.bank.configured then some (endsBad s .notBound) else
    match postEvents j (min n (j.b.toNat - j.done)) j.done s with
    | none => none
    | some t => some (t.1, t.2.2.getD .ok, j.done + t.2.1)

/-! ### NBADV (R301, R302, R303) -/

/-- The location of a neuron's record. -/
def neuronAt (n : Nat) : Nat := neuronLoc + 16 * n

/-- The leak over d steps: ALPHA to the power d, each product rounded (R301). -/
def leakPower : Nat → Nat → FVal → FVal → FVal
  | 0, _, p, _ => p
  | k + 1, d, p, b => leakPower k (d / 2) (if d % 2 = 1 then r32 (fmul p b) else p) (r32 (fmul b b))

/-- A neuron's first touch at a step (R301). -/
def touchNeuron (s : State) (t n : Nat) : State :=
  let a := neuronAt n
  let pp := readLoc s (a + 12) 4 % 16
  let d := (t + 2 ^ 32 - readLoc s (a + 4) 4) % 2 ^ 32
  let p := leakPower 32 d (ofInt 1) (fval .f32 (s.clu.bank.field (32 * pp) 4))
  setLoc (setLoc s a 4 (rne .f32 (fmul p (fval .f32 (readLoc s a 4))))) (a + 4) 4 t

/-- An advance's running account: events applied, and what its status will tell. -/
structure Advance where
  s       : State
  applied : Nat
  late    : Bool
  outside : Bool
  full    : Bool
  stop    : Option StatusCode
  held    : Bool

/-- A step's events applied in order, as far as `lim` allows; those left over with whether each is late. -/
def applyEvents (t : Nat) : List (Bool × Stored) → Nat → Advance → Advance × List (Bool × Stored)
  | [], _, a => (a, [])
  | e :: r, lim, a =>
    if lim = 0 then ({ a with stop := some .cancelled }, e :: r)
    else
      let n := evNeuron e.2.ev
      let b := a.s.clu.bank
      match engReadNat a.s reachLocal (b.field 0x200 8 + 4 * evWeight e.2.ev) 4 with
      | .error c => ({ a with stop := some c }, e :: r)
      | .ok w =>
        let s := if b.touched.contains n then a.s else
          setBank (touchNeuron a.s t n) { b with touched := setInsert b.touched n }
        let v := rne .f32 (fadd (fval .f32 (readLoc s (neuronAt n) 4)) (fval .f32 w))
        let s := setLoc s (neuronAt n) 4 v
        let s := if e.1 then setBank s { s.clu.bank with late := s.clu.bank.late + 1 } else s
        applyEvents t r (lim - 1) { a with s := s, applied := a.applied + 1, late := a.late || e.1 }

/-- A record appended to the output ring, or discarded when it is full (R303). -/
def appendRecord (a : Advance) (t n pp : Nat) : Advance :=
  let b := a.s.clu.bank
  let size := b.field 0x214 4
  if size ≤ b.outCount then { a with full := true }
  else
    let addr := b.field 0x218 8 + 8 * ((b.outPos + b.outCount) % size)
    match engWrite a.s reachHbm addr (leBytes 8 (t % 2 ^ 32 + n * 2 ^ 32 + pp * 2 ^ 44)) with
    | (s, some c) => { a with s := s, stop := some c }
    | (s, none) => { a with s := setBank s { b with outCount := b.outCount + 1 } }

/-- A neuron's generated events sent in list order (R301, R302). DESIGN CHOICE (log 110): a list, as R298 says of the directory alone, is
read from device memory only; elsewhere the job ends with PROT. -/
def sendFanout (t n list : Nat) : Nat → Nat → Advance → Advance
  | 0, _, a => a
  | m + 1, k, a =>
    match engReadNat a.s reachHbm (list + 8 * k) 8 with
    | .error c => { a with stop := some c }
    | .ok w =>
      let word := w / 2 ^ 20 * 2 ^ 20 + (t + max 1 (w % 2 ^ 20)) % 2 ^ 20
      let e : NbEvent := { word := BitVec.ofNat 64 word, srcBank := ownBank a.s, srcNeur := n, pos := k }
      match sendEvent a.s e with
      | .accepted s => sendFanout t n list m (k + 1) { a with s := s }
      | .outside => sendFanout t n list m (k + 1) { a with outside := true }
      | .held => { a with held := true }
      | .failed c => { a with stop := some c }

/-- A touched neuron tested, and fired if it fires (R301). -/
def testNeuron (t n : Nat) (a : Advance) : Advance :=
  let s := setBank a.s { a.s.clu.bank with touched := setErase a.s.clu.bank.touched n }
  let a := { a with s := s }
  let b := s.clu.bank
  let at_ := neuronAt n
  let pp := readLoc s (at_ + 12) 4 % 16
  if readLoc s (at_ + 8) 4 ≤ t ∧ fle (fval .f32 (b.field (32 * pp + 4) 4)) (fval .f32 (readLoc s at_ 4)) = true then
    let s := setLoc s at_ 4 (b.field (32 * pp + 8) 4)
    let s := setLoc s (at_ + 8) 4 ((t + b.field (32 * pp + 12) 4 + 1) % 2 ^ 32)
    let a := appendRecord { a with s := s } t n pp
    if a.stop.isSome then a else
      match engReadNat a.s reachHbm (b.field (32 * pp + 0x10) 8 + 8 * n) 8 with
      | .error c => { a with stop := some c }
      | .ok d =>
        if d % 8 ≠ 0 then { a with stop := some .badDesc }
        else sendFanout t n (d % 2 ^ 48) (d / 2 ^ 48) 0 a
  else a

/-- The touched neurons tested in increasing order. -/
def testAll (t : Nat) : List Nat → Advance → Advance
  | [], a => a
  | n :: r, a => if a.stop.isSome || a.held then a else testAll t r (testNeuron t n a)

/-- The events that a step takes: those for it and the late ones, in order, each with whether it is late (R301). -/
def stepEvents (b : Bank) (t : Nat) : List (Bool × Stored) :=
  let on := (b.pending ++ b.spill).filter fun e => decide (e.step ≤ (t : Int))
  let all := (on ++ b.tardy).foldl (fun l e => insertEvent e l) []
  all.map fun e => (decide (e.step < (t : Int)) || b.tardy.contains e, e)

/-- The next step that has events to take, from c on and below `target`. -/
def nextStep (b : Bank) (target : Nat) : Nat :=
  let steps := (b.pending ++ b.spill).map fun e => max b.c e.step.toNat
  if b.closed || !b.tardy.isEmpty then b.c else steps.foldl min target

/-- One step processed (R301). -/
def processStep (t lim : Nat) (a : Advance) : Advance :=
  let b := a.s.clu.bank
  let evs := stepEvents b t
  let keep (e : Stored) : Bool := !decide (e.step ≤ (t : Int))
  let b1 := { b with c := t, closed := true, pending := b.pending.filter keep, spill := b.spill.filter keep, tardy := [] }
  let r := applyEvents t evs lim { a with s := setBank a.s b1 }
  let a := r.1
  if a.stop.isSome then
    let b := a.s.clu.bank
    let back := r.2.filter fun e => !(e.1 && decide (e.2.step = (t : Int)))
    let tardy := r.2.filter fun e => e.1 && decide (e.2.step = (t : Int))
    { a with s := setBank a.s { b with pending := (back.map fun e => e.2).foldl (fun l e => insertEvent e l) b.pending,
                                       tardy := tardy.map fun e => e.2 } }
  else
    let a := testAll t a.s.clu.bank.touched a
    if a.stop.isSome || a.held then a
    else { a with s := settleBank (setBank a.s { a.s.clu.bank with c := t + 1, closed := false, touched := [] }) }

/-- Steps processed up to the target; steps without events only pass. -/
def advanceTo (target : Nat) : Nat → Nat → Advance → Advance
  | 0, _, a => a
  | n + 1, lim, a =>
    let b := a.s.clu.bank
    if target ≤ b.c then a
    else
      let t := nextStep b target
      if target ≤ t then { a with s := setBank a.s { b with c := target } }
      else
        let x := processStep t (lim - a.applied) a
        if x.stop.isSome || x.held then x else advanceTo target n lim x

/-- An NBADV job, stopped after `lim` events; none while a generated event of it is held (R301). Where records were
discarded and events were sent outside the domain, either code is reported (log 33). -/
def runNbadv (j : Job) (lim : Nat) (s : State) : Option Ended :=
  let b := s.clu.bank
  if !b.configured then some (endsBad s .notBound) else
    let a := advanceTo j.a.toNat (j.a.toNat - b.c + 1) lim
      { s := s, applied := 0, late := false, outside := false, full := false, stop := none, held := false }
    if a.held then none else
      let both := a.outside && a.full
      let s := if both then a.s.tickChoice else a.s
      let code := match a.stop with
        | some c => c
        | none =>
          if both then (if Config.pick a.s.choice % 2 = 0 then .prot else .queueFull)
          else if a.outside then .prot else if a.full then .queueFull else if a.late then .lateEvents else .ok
      some (s, code, a.applied)

/-! ### NBRD, NBWR and NBSPK (R303) -/

/-- An NBRD job, stopped after `lim` neurons. -/
def runNbrd (j : Job) (lim : Nat) (s : State) : Ended :=
  if !s.clu.bank.configured then endsBad s .notBound else
    let first := j.b.toNat % 2 ^ 12
    let n := min lim (j.b.toNat / 2 ^ 12)
    let t := engWritePart s reachSpad j.a.toNat (readBytes s (neuronAt first) (16 * n))
    (t.1, t.2.2.getD .ok, t.2.1 / 16)

/-- An NBWR job, stopped after `lim` neurons. -/
def runNbwr (j : Job) (lim : Nat) (s : State) : Ended :=
  if !s.clu.bank.configured then endsBad s .notBound else
    let first := j.b.toNat % 2 ^ 12
    let n := j.b.toNat / 2 ^ 12
    match engRead s reachSpad j.a.toNat (16 * n) with
    | .error e => endsBad s e
    | .ok bs =>
      if (List.range n).any fun i => decide (16 ≤ rfield bs (16 * i + 12) 4) then endsBad s .badDesc
      else (setBytes s (neuronAt first) (bs.take (16 * min lim n)), .ok, min lim n)

/-- Records taken in ring order, `n` of them, to `a`. -/
def takeRecords : Nat → Nat → State → State × Nat × Option StatusCode
  | 0, _, s => (s, 0, none)
  | n + 1, a, s =>
    let b := s.clu.bank
    match engRead s reachHbm (b.field 0x218 8 + 8 * b.outPos) 8 with
    | .error e => (s, 0, some e)
    | .ok bs =>
      match engWrite s reachSpad a bs with
      | (s, some e) => (s, 0, some e)
      | (s, none) =>
        let s := setBank s { b with outPos := (b.outPos + 1) % b.field 0x214 4, outCount := b.outCount - 1 }
        let t := takeRecords n (a + 8) s
        (t.1, t.2.1 + 1, t.2.2)

/-- An NBSPK job, stopped after `lim` records. -/
def runNbspk (j : Job) (lim : Nat) (s : State) : Ended :=
  if !s.clu.bank.configured then endsBad s .notBound else
    let t := takeRecords (min lim (min j.b.toNat s.clu.bank.outCount)) j.a.toNat s
    (t.1, t.2.2.getD .ok, t.2.1)

end Sys2Proof.Machine
end

