-- ==== Sys2Proof/Machine/Engines.lean ====
section
/-! DEFINITION. The engines at work: a queued job's start, its slots into a handle, its end, and CCANCEL (R38, R41, R204,
R232, R275, R289). -/

namespace Sys2Proof.Machine

/-! ### Performing a job -/

/-- A bound on elements that stops no job. -/
def noLimit : Nat := 2 ^ 64

/-- A job whose only boundary is its end, stopped before it when the bound is 0. -/
def atEnd (lim : Nat) (s : State) (e : Ended) : Ended := if lim = 0 then (s, .ok, 0) else e

/-- A job performed in one step, stopped after `lim` of its elements; `others` are the other members' shares of a CRED.
None for a job that fills a handle slot by slot, and for one that cannot go on yet. -/
def perform (j : Job) (others : List CredShare) (lim : Nat) (s : State) : Option Ended :=
  match j.cmd with
  | .tld x => some (runTld x j s)
  | .tst x => if (cmdHandle (.tst x) j.a j.b).isSome then none else runTst x j s
  | .tmma x => runTmma x j s
  | .twld x => some (runTwld x j s)
  | .tcbt => some (runTcbt j s)
  | .tzero x => some (runTzero x j s)
  | .tscale x => some (runTscale x j s)
  | .tvfy x => some (runTvfy x j s)
  | .trem => some (runTrem j s)
  | .tcap => some (runTcap j s)
  | .tcfg => some (runTcfg j s)
  | .cpy x => if x.useH then none else some (runCpy x j lim s)
  | .cgather => some (runList false j lim s)
  | .cscatter => some (runList true j lim s)
  | .cred level => if sharesComplete s level j others then some (runCred level j others s) else none
  | .cqput => some (atEnd lim s (runCqput j s))
  | .gbind x => some (atEnd lim s (runGbind x j s))
  | .geval y => some (runGeval y j lim s)
  | .glen y => some (runGlen y j lim s)
  | .gspine seed y => some (runGspine seed y j lim s)
  | .gocc split y => some (runGocc split y j lim s)
  | .gunf scan y => some (runGunf scan y j lim s)
  | .gloc y => some (atEnd lim s (runGloc y j s))
  | .glook y => some (atEnd lim s (runGlook y j s))
  | .grelease y => some (atEnd lim s (runGrelease y j s))
  | .rfmatch q => some (runRfmatch q j lim s)
  | .rfmerge q => some (runRfmerge q j lim s)
  | .rfshake q => some (runRfshake q j lim s)
  | .rflogs q => some (runRflogs q j lim s)
  | .rffree q => some (runRffree q j lim s)
  | .nbcfg => some (runNbcfg j lim s)
  | .nbpost => runNbpost j lim s
  | .nbadv => runNbadv j lim s
  | .nbrd => some (runNbrd j lim s)
  | .nbwr => some (runNbwr j lim s)
  | .nbspk => some (runNbspk j lim s)

/-! ### Descriptors whose parity is broken (R60) -/

/-- A state in which no memory is poison to an engine but by broken descriptors, in the blocks given. -/
def onlyBroken (s : State) (broken : List Nat) : State :=
  { s with
    poison := []
    badParity := broken
    descs := s.descs.map fun d => if d.2.toNat % 256 = 0xFF then (d.1, d.2 - 0xFF) else d
    core := { s.core with
      tiles := Vector.ofFn fun t => (s.core.tiles[t]).map fun x => { x with poisoned := false }
      acc := Vector.ofFn fun t => { s.core.acc[t] with poisoned := false } } }

/-- Whether a run of a job comes to an outcome where broken descriptors in some blocks are all the poison that there is. -/
def sameEnd (run : State → Option Ended) (s : State) (broken : List Nat) (e : Ended) : Bool :=
  match run (onlyBroken s broken) with
  | some f => decide (f.2.1 = e.2.1) && decide (f.2.2 = e.2.2)
  | none => false

/-- The blocks with a broken descriptor that a run of a job has found, where with no poison its outcome would be another: each of them
alone brings it about. Where two do, as in one read whose count tells of neither, both were found (log 92). -/
def foundBroken (run : State → Option Ended) (s : State) (e : Ended) : List Nat :=
  s.badParity.filter fun b => sameEnd run s [b] e

/-- A job's end with POISON: where memory was poisoned, and not a sealed core the cause, the error is logged (R351; log 77), and a block
whose descriptor was found broken is poisoned (R60). -/
def poisonBroken (run : State → Option Ended) (s : State) (e : Ended) : Ended :=
  if e.2.1 ≠ .poison ∨ sameEnd run s [] e = true then e else
    (logEvent ((foundBroken run s e).foldl (fun t b => setDesc t b (descOf t b ||| 0xFF)) e.1) .uncorrectable, e.2)

/-- A job's run, with the blocks poisoned whose broken descriptors it has found. -/
def runChecked (run : State → Option Ended) (s : State) : Option Ended := (run s).map (poisonBroken run s)

/-! ### What a job leaves of the order (R210, R211, R215, R287) -/

/-- The locations of scratchpads, accumulators, borders and memory that have changed from a state to another. -/
def changedLocs (s t : State) : List Nat :=
  ((diffCells (s.mem.length + t.mem.length) s.mem t.mem).map fun d => d.1).filter fun l =>
    decide (l < accLoc + 0x1000) || (decide (boltLoc 64 ≤ l) && decide (l < boltLoc 68)) || decide (gwinLoc ≤ l)

/-- How wide the parts of a job's writes are that are single-copy atomic: bytes of a CPY, elements, entries and records (R275). -/
def jobGrain (s : State) (j : Job) : Nat :=
  let width (y : Fin 4) (k : GBinding → Nat) : Nat := ((jobBinding s j y).map k).getD 8
  max 1 (match j.cmd with
    | .cpy _ => 1
    | .cgather | .cscatter => rfield (recordNow s j) 0x14 4
    | .geval y | .gspine _ y | .glook y => width y fun g => g.width / 8
    | .gunf scan y => width y fun g => (if scan then g.width else fmtBits g.tfmt) / 8
    | .gocc _ _ => 32
    | .gloc _ => 4
    | _ => 8)

/-- Who may read past what a job writes: every agent but the job, its issuing context too until it has the status (R215), and but the
jobs that take effect after it (R275). -/
def jobReaders (s : State) (j : Job) : List Agent :=
  (otherAgents s (.job j.id)).filter fun a => !s.clu.jobs.any fun i =>
    decide (a = .job i.id) && inOneLine i j && (!i.started || decide (j.startNo < i.startNo))

/-- A CQPUT's writes (R287): its claim of a slot is a read-modify-write with an acquire and a release, and its sequence a release, which
everything before the CQPUT happens before. -/
def noteCqput (s : State) (j : Job) (w : Write) (locs : List Nat) : State :=
  let a := localAddr s j.a.toNat
  let q := qHeader (engReadPart s reachHbm a 64).1
  let header := runLocs (engSpan s reachHbm true 4 a 8).1
  let sequence := runLocs (engSpan s reachHbm true 4 (q.slots + 64 * (q.widx % q.size)) 4).1
  let m : AtMode := { plainMode with storage := .hbm, agent := .mod, order := .ar }
  let s := noteAs (readNewest s w.agent m (header.headD 0) 8) { w with order := .ar, storage := .hbm, rmw := true } header
  let s := noteAs s w (locs.filter fun l => !header.contains l && !sequence.contains l)
  noteAs s { w with order := .rel, storage := .hbm } sequence

/-- What a job's writes, which have made `t` of `s`, leave of the order: they are relaxed but for a CQPUT's, others may read past them,
and what left the core waits for its acknowledgement (R211, R212, R215). -/
def noteJob (s t : State) (j : Job) : State :=
  let locs := changedLocs s t
  if locs.isEmpty then t else
    let u := { t with mem := s.mem }
    let w : Write := { agent := .job j.id, reach := .clu, order := .rlx, storage := .all, rmw := false,
                       knows := fun v => v.behind (.job j.id) .hbm, readers := jobReaders u j, unit := fun l => l / jobGrain s j }
    let noted := match j.cmd with
      | .cqput => noteCqput u j w locs
      | _ => noteAs u w locs
    { t with vis := noted.vis, unacked := t.unacked || locs.any fun l => decide (gwinLoc ≤ l) }

/-! ### What a job reads (R211) -/

/-- The writes that a job may read past: it has not seen them, and they are to bytes of memory or of the scratchpad that belong to no tile
slot, whose check bits go with its bytes. CQPUT reads its header newest (log 8). -/
def jobMisses (s : State) (j : Job) : List Unseen :=
  match j.cmd with
  | .cqput => []
  | _ => s.vis.unseen.filter fun u => !u.knownTo (.job j.id) &&
      ((decide (u.loc < spadSize) && (slotsAt s u.loc 1).isEmpty) || decide (gwinLoc ≤ u.loc))

/-- The state as an engine finds it that passes over some writes. -/
def passing (s : State) (es : List Unseen) (out : List (Nat × Nat)) : State :=
  es.foldr (fun u t => if out.contains (u.stamp, u.unit) then setBytes t u.loc [u.old] else t) s

/-- A run of a job that passes over some writes: what it leaves alone of the bytes they wrote holds the newest value again. -/
def runPast (run : State → Option Ended) (s : State) (es : List Unseen) (out : List (Nat × Nat)) : Option Ended :=
  let v := passing s es out
  let kept (t : State) (l : Nat) : Bool := decide (Memory.get t.mem l = Memory.get v.mem l) &&
    (match run s with
      | some p => decide (Memory.get p.1.mem l = Memory.get s.mem l)
      | none => true)
  (run v).map fun e =>
    (es.foldl (fun t u => if out.contains (u.stamp, u.unit) && kept e.1 u.loc then setBytes t u.loc [Memory.get s.mem u.loc] else t) e.1,
      e.2)

/-- A job at work: a run of it, which may pass over writes that it has not seen (R211), with the broken descriptors poisoned that it
has found (R60) and what it leaves of the order. Of the writes that it does not pass over it has seen those that bear on its outcome
(log 8). -/
def worked (s : State) (j : Job) (run : State → Option Ended) : Option Ended :=
  let es := jobMisses s j
  if es.isEmpty then (runChecked run s).map fun e => (noteJob s e.1 j, e.2)
  else
    let out := passedOver (.job j.id) false (Config.seesOld s.choice) es
    let s := s.tickChoice
    let past := runPast (runChecked run) s es
    let read := (es.filter fun u => !out.contains (u.stamp, u.unit) && decide (past ((u.stamp, u.unit) :: out) ≠ past out)).map
      fun u => (u.stamp, u.unit)
    (past out).map fun e =>
      let t := { e.1 with vis := (e.1.vis.learn (.job j.id) false fun u => read.contains (u.stamp, u.unit)).tidy }
      (noteJob s t j, e.2)

/-! ### Targets (R204) -/

/-- Bytes that a job would write from now on. -/
def bytesToWrite (j : Job) (s : State) : Nat :=
  match perform j [] noLimit s with
  | some e => e.2.2
  | none => 0

/-- The ranges that a TST of `n` bytes writes (R233). -/
def tstTargets (a b : Word) (n : Nat) : List (Nat × Nat) :=
  let st := bits b.toNat 0 16
  if st = 0 then [(a.toNat, n)] else (List.range 16).map fun i => (a.toNat + i * st, n / 16)

/-- The ranges of virtual addresses that a job writes, as its record stands. -/
def jobTargets (s : State) (j : Job) : List (Nat × Nat) :=
  let rec_ := recordNow s j
  let dest := rfield rec_ 0x18 8
  let gram (y : Fin 4) (k : GBinding → List (Nat × Nat)) : List (Nat × Nat) :=
    match jobBinding s j y with
    | some g => k g
    | none => []
  match j.cmd with
  | .tst _ => tstTargets j.a j.b (bytesToWrite j s)
  | .trem =>
    match capNamesMe s j.a.toNat, remCommand (BitVec.ofNat 32 (rfield rec_ 0 4)) (rfield rec_ 0x10 8) with
    | true, some (.tst _) =>
      tstTargets (BitVec.ofNat 64 (rfield rec_ 8 8)) (BitVec.ofNat 64 (rfield rec_ 0x10 8)) (bytesToWrite { j with record := rec_ } s)
    | _, _ => []
  | .tcap => [(j.a.toNat, 8)]
  | .cpy x =>
    let r := cpyRec rec_
    let d := localAddr s r.dst
    if x.useH then [] else if x.bolt || decide (x.pack ≠ .none) then [(d, bytesToWrite j s)]
    else if r.ds = 0 then [(d, r.total)] else (List.range r.rows).map fun i => (d + i * r.dstep, r.rb)
  | .cgather => [(localAddr s (rfield rec_ 8 8), rfield rec_ 0x10 4 * rfield rec_ 0x14 4)]
  | .cscatter => (List.range (rfield rec_ 0x10 4)).map fun k =>
      (localAddr s (leNat (anyRead s (rfield rec_ 0 8 + 8 * k) 8).2.1), rfield rec_ 0x14 4)
  | .cred _ => [(rfield rec_ 8 8, rfield rec_ 0x18 4 * credWidth (rfield rec_ 0x1C 1))]
  | .cqput =>
    let a := localAddr s j.a.toNat
    match engRead s reachHbm a 64 with
    | .ok h => let q := qHeader h; [(a, 8), (q.slots + 64 * (q.widx % max 1 q.size), 64)]
    | .error _ => [(a, 8)]
  | .geval y => gram y fun g => (List.range j.b.toNat).map fun i => (rrtAddr s g (j.a.toNat + i), g.width / 8)
  | .glen y => gram y fun g => [(g.rlt + 8 * j.a.toNat, 8 * j.b.toNat)]
  | .gspine _ y => gram y fun g => [(dest, g.width / 8 * (if g.matrix then rfield rec_ 8 8 else 1))]
  | .gocc split y => gram y fun _ =>
      [(dest, 32 * (if split then splitCount s (rfield rec_ 8 8) (rfield rec_ 0 8) else rfield rec_ 8 8))]
  | .gloc _ => [(dest, 4)]
  | .glook y => gram y fun g => [(j.b.toNat, g.width / 8)]
  | .nbadv => [(s.clu.bank.field 0x218 8, 8 * s.clu.bank.field 0x214 4)]
  | _ => []

/-- The published buffers that a job targets. -/
def targetPubs (s : State) (j : Job) : List PubBuf := if s.mod.pubs.isEmpty then [] else pubsHit s (jobTargets s j)

/-! ### Starting (R38, R232, R275) -/

/-- Whether a job is the first of its context's jobs on its engine that has not started (R38). -/
def firstInLine (s : State) (j : Job) : Bool :=
  match s.clu.jobs.find? fun i => !i.started && i.status.isNone && decide (cmdEngine i.cmd = cmdEngine j.cmd) &&
      decide (i.ctx = j.ctx) && decide (i.remote.isSome = j.remote.isSome) with
  | some i => decide (i.id = j.id)
  | none => false

/-- Whether a queued job waits for nothing but its start: every predecessor has completed, its engine is free, its core
is not frozen (R305) and no buffer it targets is closed (R205). -/
def canStart (s : State) (j : Job) : Bool :=
  !j.started && j.status.isNone && j.preds.all (fun p => p.outcome.isSome) && firstInLine s j &&
    !(s.clu.jobs.any fun i => running i && sharesEngine i j) && !s.core.frozen && !s.core.saving && !s.core.fenced &&
    !(targetPubs s j).any fun p => p.closed

/-- The binding that a grammar job copies when it starts (R269); one that a save kept for a job that had not started stands
(R315). -/
def startBinding (s : State) (j : Job) : Option GBinding :=
  match j.cmd, j.binding with
  | .gbind _, _ => none
  | _, some g => some g
  | c, none => match cmdGram c with
    | some y => getGram s j.ctx y
    | none => none

/-- The bytes of a job's record, read once, at its start, as far as the job has seen what was written there (R211, R257, R273). A change
made since its issue may or may not be seen (log 21). -/
def readRecord (s : State) (j : Job) : List Byte × State :=
  let a := recordAddr j.cmd j.a j.b
  let n := recordLen j.cmd
  let locs := (List.range n).map fun i => a + i
  let t := if quietAt s.vis (.job j.id) false locs then (readBytes s a n, s) else
    let t := readAs s (.job j.id) plainMode 8 locs
    (t.1, t.2.tickChoice)
  if t.1 = j.record then t else (if Config.seesLateChange t.2.choice then t.1 else j.record, t.2.tickChoice)

/-- Whether a job starts on a grammar handle that is not bound: it reads nothing (R256). -/
def startsUnbound (s : State) (j : Job) : Bool :=
  match j.cmd, cmdGram j.cmd with
  | .gbind _, _ => false
  | _, some y => (jobBinding s j y).isNone
  | _, none => false

/-- The job with its record, or with what stopped the reading of it; a block whose descriptor is found broken is poisoned (R58, R60). -/
def recordTaken (s : State) (j : Job) : Job × State :=
  if startsUnbound s j then (j, s) else
    let a := recordAddr j.cmd j.a j.b
    match engRead s reachSpad a (recordLen j.cmd) with
    | .error e => ({ j with recordStop := some e }, if s.badParity.contains (a / 64) then blockFound s (a / 64) else s)
    | .ok _ =>
      let t := readRecord s j
      ({ j with record := t.1 }, t.2)

/-- The job started: it reads its descriptor (R257, R273) and binds to the shadows in force (R204). -/
def startJob (s : State) (j : Job) : State :=
  let r := recordTaken s j
  let i := { r.1 with started := true, startNo := s.clu.starts, binding := startBinding s j }
  let t := setJob r.2 { i with shadows := (targetPubs r.2 i).map fun p => p.desc }
  { t with clu := { t.clu with starts := t.clu.starts + 1 } }

/-- Whether every job of the engine that started before a running one has ended: effects come in the order of starts (R275). -/
def inTurn (s : State) (j : Job) : Bool :=
  !s.clu.jobs.any fun i => running i && decide (i.startNo < j.startNo) && inOneLine i j

/-! ### Misses (R17, R356) -/

/-- Whether a packet that tells of a job's miss is unanswered, at the masthead or at the driver. -/
def missOpen (s : State) (j : Job) : Bool := (s.mod.inbox ++ s.mod.driver).any fun p => decide (p.source = .engine j.id)

/-- The masthead is told that a job has met a page with no mapping at an address: the job waits for the mapping, freezes no core and
takes no fault policy (R17, R356). Its packet bears the command's address and word, and the byte's address (R307; log 73). -/
def missReport (s : State) (j : Job) (a : Nat) : State :=
  let s := observeTick (setJob s { j with missed := some a })
  let p : FaultPacket := {
    cls := .pageFault, ctx := j.ctx, info := 0, pid := corePid s, pc := j.pc, addr := BitVec.ofNat 64 a, insn := j.word,
    group := BitVec.ofNat 32 s.core.groupId, status := 0, tick := s.mod.tick, job := BitVec.ofNat 32 (curJobId s),
    fseq := BitVec.ofNat 32 s.mod.fseq, votes := BitVec.ofNat 32 s.core.votes, launch := s.core.launch, source := .engine j.id }
  { s with mod := { s.mod with inbox := s.mod.inbox ++ [p], fseq := s.mod.fseq + 1 } }

/-- What a job's run comes to. A page that it misses is first reported, and the job waits while that is unanswered; where the masthead
has answered and the page is still missed, the job ends with PAGE (R17, R356). The status of a remote command is its target's, whose
own masthead has been told. -/
def endOrReport (s : State) (j : Job) (e : Ended) (finish : State → StatusCode → Nat → State) : Out :=
  let ended : Out := .next (finish e.1 (StatusCode.plain e.2.1) e.2.2)
  match e.2.1, j.cmd with
  | .pageAt _, .trem => ended
  | .pageAt a, _ =>
    if missOpen s j then .refused .eventNotEnabled
    else if j.missed.any fun m => decide (m / 65536 = a / 65536) then ended
    else .next (missReport s j a)
  | _, _ => ended

/-- JOB_LAUNCH (R38): the job starts; or, when a predecessor has ended with an error, it ends CANCELLED with count 0. -/
def execJobLaunch (id : Nat) (s : State) : Out :=
  match findJob s id with
  | none => .refused .eventNotEnabled
  | some j =>
    if !j.started && j.status.isNone && j.preds.any fun p => decide (p.outcome = some true) then
      .next (setJob s { j with status := some (.cancelled, 0) })
    else if canStart s j then .next (startJob s j)
    else .refused .eventNotEnabled

/-! ### Slots into a handle (R41, R234, R278) -/

/-- A job's status set, to be written by its completion. -/
def endJob (s : State) (id : Nat) (e : StatusCode × Nat) : State :=
  match findJob s id with
  | some j => setJob s { j with status := some e }
  | none => s

/-- A slot of a copy into a handle as a run of its job; one after which the copy goes on has no status, here CANCELLED. -/
def pushRun (x : CpyArgs) (j : Job) (s : State) : Option Ended := (stepCpyH x j s).map fun r => (r.1, r.2.getD (.cancelled, 0))

/-- ENGINE_HANDLE_PUSH (R41): a slot of a CPY or TST completes and is pushed; the last one gives the status. -/
def execEngineHandlePush (id : Nat) (s : State) : Out :=
  match findJob s id with
  | none => .refused .eventNotEnabled
  | some j =>
    if !running j || !inTurn s j || s.core.fenced then .refused .eventNotEnabled else
      match j.cmd with
      | .cpy x =>
        if !x.useH then .refused .eventNotEnabled else
          match worked s j (pushRun x j) with
          | none => .refused .eventNotEnabled
          | some (t, .cancelled, _) => .next t
          | some e => endOrReport s j e fun t c n => endJob t id (c, n)
      | .tst x =>
        if (cmdHandle (.tst x) j.a j.b).isNone then .refused .eventNotEnabled else
          match worked s j (runTst x j) with
          | none => .refused .eventNotEnabled
          | some e => endOrReport s j e fun t c n => endJob t id (c, n)
      | _ => .refused .eventNotEnabled

/-! ### Ending (R35) -/

/-- Whether a job leads to another module (R280, R244). -/
def usesLink (s : State) (j : Job) : Bool :=
  let rec_ := recordNow s j
  match j.cmd with
  | .cpy _ => isRemote s (rfield rec_ 0 8) || isRemote s (rfield rec_ 8 8)
  | .cgather | .cscatter =>
    isRemote s (rfield rec_ 0 8) || isRemote s (rfield rec_ 8 8) ||
      (List.range (rfield rec_ 0x10 4)).any fun k => isRemote s (leNat (anyRead s (rfield rec_ 0 8 + 8 * k) 8).2.1)
  | .cqput => isRemote s j.a.toNat
  | .cred level => decide (level.val = 4)
  | .trem => decide (bits j.a.toNat 40 8 ≠ s.core.modId % 256)
  | _ => false

/-! ### Engine writes of a paired launch (R313) -/

/-- The bytes that a job writes outside its core's own scratchpad, on this module or another, by address. -/
def outsideTargets (s : State) (j : Job) : List (Nat × Nat) :=
  (jobTargets s j).filter fun r => decide (0 < r.2) && (leavesCore s r.1 || isRemote s r.1)

/-- Bytes cut into the pieces of 64 in which they leave the core. -/
def pieces (a : Nat) (bs : List Byte) : List (Nat × List Byte) :=
  (List.range ((bs.length + 63) / 64)).map fun k => (a + 64 * k, (bs.drop (64 * k)).take 64)

/-- What a job sends out of the core besides writes: a TREM's command to another core, and each event that NBPOST and NBADV send to
other banks (R313). -/
def outsideSends (s : State) (j : Job) : List (Nat × List Byte) :=
  match j.cmd with
  | .trem => if capNamesMe s j.a.toNat then [] else [(j.a.toNat, readBytes s j.b.toNat 32)]
  | .nbpost | .nbadv =>
    match perform j [] noLimit s with
    | some e => (e.1.mod.messages.drop s.mod.messages.length).map fun m => (m.1, leBytes 8 m.2)
    | none => []
  | _ => []

/-- The bytes that go to another module: those of the job's source. -/
def remoteData (s : State) (j : Job) : List Byte :=
  let r := recordNow s j
  match j.cmd with
  | .cpy _ => (anyRead s (rfield r 0 8) (cpyRec r).total).2.1
  | .cscatter => (anyRead s (rfield r 8 8) (rfield r 0x10 4 * rfield r 0x14 4)).2.1
  | .cqput => readBytes s j.b.toNat 64
  | _ => []

/-- The writes and messages of a job that leave the core, in order: its writes in pieces of 64 bytes, then what it sends (R313;
log 15). -/
def outsidePieces (s : State) (j : Job) : List (Nat × List Byte) :=
  let out := outsideTargets s j
  let t := match perform j [] noLimit s with
    | some e => e.1
    | none => s
  let here := (out.filter fun r => !isRemote s r.1).map fun r => pieces r.1 (engReadPart t reachCopy r.1 r.2).1
  let there := if out.any fun r => isRemote s r.1 then pieces (out.headD (0, 0)).1 (remoteData s j) else []
  here.flatten ++ there ++ outsideSends s j

/-- Whether a running job's writes and messages out of the core wait for the other copy's hashes (R313). -/
def awaitsTwin (s : State) (j : Job) : Bool :=
  s.core.twin.isSome && running j && j.remote.isNone && decide (j.agreed < (outsidePieces s j).length)

/-- The hash of the write or message that waits next (R313). -/
def jobHash (s : State) (j : Job) : Word :=
  let p := (outsidePieces s j).getD j.agreed (0, [])
  Config.pairHash p.1 (leNat p.2) j.word.toNat

/-- Whether a job's work with the others' shares is one event and its status word another: a CRED with other members, whose writes may
be seen before its status is (R215). -/
def sharesFirst (j : Job) (others : List CredShare) : Bool :=
  match j.cmd with
  | .cred _ => !others.isEmpty
  | _ => false

/-- JOB_COMPLETION (R35): the job ends and its status word is written; not before a paired launch's other copy has
agreed on what it writes outside the scratchpad (R313), nor before the jobs of its engine that started before it (R275). Of a CRED with
other members the first such event is the reduction, the next its status. The
requests of a fenced core get error replies, and its jobs POISON (R320, R356). -/
def execJobCompletion (id : Nat) (others : List CredShare) (s : State) : Out :=
  match findJob s id with
  | none => .refused .eventNotEnabled
  | some j =>
    match j.status with
    | some (code, n) => .next (finishJob s j code n)
    | none =>
      if !j.started || awaitsTwin s j || !inTurn s j then .refused .eventNotEnabled
      else if s.core.fenced then .next (finishJob s j .poison j.done)
      else match worked s j (perform j others noLimit) with
        | some e => endOrReport s j e fun t c n => if sharesFirst j others then endJob t id (c, n) else finishJob t j c n
        | none => .refused .eventNotEnabled

/-! ### Progress before the end (R215, R269, R279) -/

/-- Jobs that go on element by element, so that others may see part of what they write and a save finds them half done. -/
def canPart (c : Cmd) : Bool :=
  match c with
  | .cpy x => !x.useH && !x.bolt && decide (x.pack = .none)
  | .cgather | .cscatter | .geval _ | .glen _ | .gspine _ _ | .gocc _ _ | .gunf _ _ | .nbpost => true
  | _ => false

/-- Whether a running job can get on: its turn has come, its writes wait for no other copy, and its core is not fenced. -/
def canWork (s : State) (j : Job) : Bool := running j && inTurn s j && !awaitsTwin s j && !s.core.fenced

/-- A run of a job up to a free number of its elements (log 31). -/
def runPart (j : Job) (s : State) : Option Ended := perform j [] (Config.landed s.choice) s

/-- The elements of a job, and the status that they come to, when nothing stops it. -/
def wholeEnd (s : State) (j : Job) : Option (StatusCode × Nat) := (perform j [] noLimit s).map fun e => e.2

/-- A running job gets on by a free number of its elements (log 31): what it has written may be seen before its status is. One that has
done its last is done with its work (R269). -/
def jobProgress (s : State) : State :=
  let js := s.clu.jobs.filter fun j => canWork s j && canPart j.cmd
  match js[Config.pick s.choice % max 1 js.length]? with
  | none => s.tickChoice
  | some j =>
    let s := s.tickChoice
    match worked s j (runPart j) with
    | some (t, .ok, n) =>
      if wholeEnd s j = some (.ok, n) then endJob t j.id (.ok, n) else setJob t { (findJob t j.id).getD j with done := n }
    | some (t, .cancelled, n) => setJob t { (findJob t j.id).getD j with done := n }
    | _ => s

/-- A running job is done with its work before its status is written (R215): any that needs no other member's share, and misses no
page. -/
def jobPerforms (s : State) : State :=
  let js := s.clu.jobs.filter (canWork s)
  match js[Config.pick s.choice % max 1 js.length]? with
  | none => s.tickChoice
  | some j =>
    match worked s.tickChoice j (perform j [] noLimit) with
    | some (_, .pageAt _, _) | none => s.tickChoice
    | some (t, c, n) => setJob t { j with status := some (c, n) }

/-! ### Stopping short (R282, R289) -/

/-- Whether a code that a run came to stands although the job was stopped: an error had ended it before. A tile that failed its check
does not end a copy (R277), and a page that was missed has not (R17). -/
def endedBefore (c : StatusCode) : Bool :=
  match c with
  | .cancelled | .boltFail | .pageAt _ => false
  | c => c.isErr

/-- A running job stopped after a free number of elements (log 22): its count, and its own code where an error had ended
it before. A job that can stop nowhere else, or whose writes wait for the other copy (R313), has done nothing. -/
def stopShort (s : State) (j : Job) (code : StatusCode) : State :=
  let s1 := s.tickChoice
  let nothing := setJob s1 { j with status := some (code, j.done) }
  if awaitsTwin s j || !inTurn s j then nothing else
  match (match j.cmd with
    | .cpy x => if x.useH then none else worked s1 j (runPart j)
    | .gbind _ => none
    | _ => worked s1 j (runPart j)) with
  | some (t, c, n) => setJob t { j with status := some (if endedBefore c then c else code, n) }
  | none => nothing

/-- A running job that goes element by element stopped after a free number of them that leaves some undone (log 22); none where all
have landed. -/
def cutShort (s : State) (j : Job) (code : StatusCode) : Option State :=
  match worked s j (runPart j), wholeEnd s j with
  | some (t, .ok, n), some e | some (t, .cancelled, n), some e =>
    if n < e.2 then some (setJob t { j with status := some (code, n) }) else none
  | _, _ => none

/-- A running job that a sealed core's error reply ends with POISON after a free number of its elements that leaves some undone (R274,
R356; log 22); one that does not go element by element has written nothing. -/
def poisonShort (s : State) (j : Job) : State :=
  let s1 := s.tickChoice
  let nothing := setJob s1 { j with status := some (.poison, j.done) }
  if canPart j.cmd && inTurn s j && !awaitsTwin s j then (cutShort s1 j .poison).getD nothing else nothing

/-- A running job whose link is lost: with elements outstanding it ends with LINK_LOST and the count of those that had landed (R282;
log 22); one whose elements have all landed goes on to its own status. -/
def lostShort (s : State) (j : Job) : State :=
  let s1 := s.tickChoice
  let whole := match j.cmd with
    | .trem => true
    | .cpy x => x.useH
    | _ => false
  if whole || !inTurn s j || awaitsTwin s j then stopShort s j .linkLost else (cutShort s1 j .linkLost).getD s1

/-- CCANCEL (R289); it has no effect on a CRED (R285). -/
def execCcancel (gs : GReg) (s : State) : Out :=
  if gs = 0 then faultCls s .illegalOperand else
    let s' := match (s.ctx s.cur).pend[gs.val]'gs.isLt with
      | none => s
      | some id => match findJob s id with
        | none => s
        | some j =>
          if j.status.isSome then s
          else match j.cmd with
            | .cred _ => s
            | _ =>
              if !j.started then setJob s { j with status := some (.cancelled, 0) }
              else if cmdEngine j.cmd = .tile then s else stopShort s j .cancelled
    .next (retire s' s.cur 4)

/-! ### Error replies (R187, R311, R356) -/

/-- Whether a context's full/empty request is queued at a word of another core (R186). -/
def queuedAway (s : State) (c : Fin 8) : Bool :=
  s.feQueue.any fun r => decide (gwinLoc ≤ r.loc) && (match r.origin with
    | .own d _ _ => decide (d = c)
    | .remote _ => false)

/-- ERROR_REPLY: the full/empty request of a context that waits at a word of a core that is sealed now is answered, and the context
raises PEER_SEALED (R187, R311; any other access is answered at once, by `peerTest`); or an engine job's request is, and the job ends
with POISON (R356); a CRED ends so when a member is sealed (R285). -/
def execErrorReply (target : ErrTarget) (peer : BitVec 32) (s : State) : Out :=
  match target with
  | .context c =>
    if (s.ctx c).live && !(s.ctx c).stopped && queuedAway s c then
      .next (raise s c { cls := .peerSealed, addr := peer.zeroExtend 64 })
    else .refused .eventNotEnabled
  | .job id =>
    match findJob s id with
    | some j => if running j then .next (poisonShort s j) else .refused .eventNotEnabled
    | none => .refused .eventNotEnabled

/-! ### The swap of a published buffer (R205) -/

/-- Whether a command that waited for a buffer to reopen has not started yet although it could: it binds to the new shadow before
the next PUBL closes the buffer (R205). -/
def reopening (s : State) (p : PubBuf) : Bool :=
  s.clu.jobs.any fun j => canStart s j && (targetPubs s j).any fun q => decide (q.desc = p.desc) && decide (q.job = p.job)

/-- What a PUBL of a context does once its turn has come (R205): the swap, with the generation counted on as a release at its agent scope,
and true; or, of a tainted buffer, the taint's end, with nothing known of the shadow, and false. -/
def swapPub (s : State) (p : PubBuf) (c : Fin 8) (agent : AgentScope) : State × Bool :=
  let word (off : Nat) (m : AtMode) (v : Nat → Nat) (s : State) : State := match pubLoc s p off with
    | some l => store (noteStore s c m false ((List.range 8).map fun i => l + i)) l (leBytes 8 (v (readLoc s l 8)))
    | none => s
  if pubFlag s p 1 then
    let s := word 0x18 plainMode (fun v => v % 2 + v / 4 * 4) (spoilShadow (seenAt s (inBacking s p)) p)
    (setPub s p, false)
  else (swapBacking (word 0x10 { plainMode with order := .rel, storage := .hbm, agent := agent } (fun v => v + 1) s) p, true)

/-- Whether a PUBL waits for acknowledgements: its release does, at pod scope (R205, R212). -/
def publWaits (s : State) (p : PubBuf) (agent : AgentScope) : Bool := !pubFlag s p 1 && waitsAcks .hbm agent && s.unacked

/-- PUBL_SWAP (R205): with no job bound to the shadow, the swap, or the taint's end, and the buffer reopens; a PUBL that waited
behind another closes the buffer first, once the commands that wait have started. A frozen core's PUBL sleeps on (R305). -/
def execPublSwap (c : Fin 8) (s : State) : Out :=
  match (s.ctx c).wait, publFor s c with
  | some .publish, some (p, gd, agent) =>
    if s.core.frozen then .refused .eventNotEnabled
    else if p.closed = false then
      if reopening s p then .refused .eventNotEnabled else .next (setPub s { p with closed := true })
    else if shadowBusy s p || publWaits s p agent then .refused .eventNotEnabled
    else
      let t := swapPub s { p with waiting := p.waiting.drop 1, closed := false } c agent
      .next (wakePast (setG t.1 c gd (if t.2 then 1 else 0)) c 4)
  | _, _ => .refused .eventNotEnabled

end Sys2Proof.Machine
end

