-- ==== Sys2Proof/Machine/System.lean ====
section
/-! DEFINITION. The SYS class (R108 to R110, R314, R325 to R330), the writes of the exchange ring registers (R32) and the
start of a group (R20). -/

namespace Sys2Proof.Machine

/-! ### Control and status registers (R108 to R110) -/

/-- CORE_PID as a program reads it: in a paired launch the primary's, in both copies (R313). -/
def seenPid (s : State) : Nat :=
  match curLaunch s with
  | some l => if l.paired then (l.domain.getD s.core.lid (corePid s)).toNat else (corePid s).toNat
  | none => (corePid s).toNat

/-- What a CSR reads as, or none for an address not in the map (R109). The time registers pass some time first. MOD_ID and FEATACC are
as they were at the core's launch (log 80). -/
def csrRead (s : State) (a : Nat) : Option (Word × State) :=
  let c := s.core
  let n (x : Nat) : Option (Word × State) := some (BitVec.ofNat 64 x, s)
  let w (x : Word) : Option (Word × State) := some (x, s)
  match a with
  | 0x000 => n s.cur.val
  | 0x001 => n c.lid
  | 0x002 => n (seenPid s)
  | 0x003 => n (bits (seenPid s) 15 13)
  | 0x004 => n (bits (seenPid s) 28 4)
  | 0x005 => n c.modId
  | 0x006 => n c.groupId
  | 0x007 => n c.groupCnt
  | 0x008 => w c.launchArg
  | 0x009 => n (harvestLoc + bits (seenPid s) 28 4 * 0x2000)
  | 0x010 => w c.dom[0]
  | 0x011 => w c.dom[1]
  | 0x012 => w c.dom[2]
  | 0x013 => w c.dom[3]
  | 0x014 => w c.dom[4]
  | 0x020 => let t := observeCycles s; some (t.core.cycles, t)
  | 0x021 => let t := observeTick s; some (t.mod.tick, t)
  | 0x030 => w c.liveBase
  | 0x040 => w c.xringBase
  | 0x041 => w c.xringSize
  | 0x042 => w c.xspillBase
  | 0x043 => w c.xspillSize
  | 0x050 => w c.tolWide
  | 0x051 => w c.tolNarrow
  | 0x052 => w c.corrected
  | 0x053 => w c.unverified
  | 0x054 => w c.gamma
  | 0x060 => n s.clu.bank.late
  | 0x200 => w s.mod.feat0
  | 0x201 | 0x202 | 0x203 => n 0
  | 0x204 => w c.feat[0]
  | 0x205 => w c.feat[1]
  | 0x206 => w c.feat[2]
  | 0x207 => w c.feat[3]
  | _ => none

/-- CSRRD (R108). -/
def execCsrrd (csr : BitVec 10) (gd : GReg) (s : State) : Out :=
  withRegs s [] [gd]
    (match csrRead s csr.toNat with
     | none => faultCls s .illegalOperand
     | some (v, s) => .next (retire (setG s s.cur gd v) s.cur 4))

/-- A write to one of the four exchange ring registers (R32): refused while a ring holds a packet, where it breaks a
limit, and where base and size pass the end of scratchpad; accepted, it empties both rings. -/
def xringWrite (s : State) (csr : Fin 4) (v : Word) : Chk State :=
  let c := s.core
  let base := if csr.val = 0 then v else c.xringBase
  let size := if csr.val = 1 then v else c.xringSize
  let ok := decide (c.inCount = 0) && decide (c.ovCount = 0) &&
    match csr.val with
    | 0 => decide (v.toNat % 32 = 0)
    | 1 => decide (v.toNat ≤ 4096)
    | 2 => decide (v.toNat % 64 = 0)
    | _ => decide (v.toNat < 2 ^ 32)
  let fits := decide (1 < csr.val) || decide (base.toNat + 32 * size.toNat ≤ spadSize)
  (demand (ok && fits) .illegalOperand).andThen fun _ =>
    .ok { s with core := { c with
      xringBase := base, xringSize := size,
      xspillBase := if csr.val = 2 then v else c.xspillBase,
      xspillSize := if csr.val = 3 then v else c.xspillSize,
      inHead := 0, inCount := 0, ovHead := 0, ovCount := 0 } }

/-- A write to a CSR in the map: read-only ones are PROT_FAULT, limits ILLEGAL_OPERAND (R108, R109). -/
def csrWrite (s : State) (a : Nat) (v : Word) : Chk State :=
  let c := s.core
  let lim (ok : Bool) (c' : CoreRegs) : Chk State :=
    (demand ok .illegalOperand).andThen fun _ => .ok { s with core := c' }
  match a with
  | 0x030 => lim (decide (v.toNat % 32 = 0)) { c with liveBase := v }
  | 0x040 => xringWrite s 0 v
  | 0x041 => xringWrite s 1 v
  | 0x042 => xringWrite s 2 v
  | 0x043 => xringWrite s 3 v
  | 0x050 => lim (decide (v.toNat < 32)) { c with tolWide := v }
  | 0x051 => lim (decide (v.toNat < 32)) { c with tolNarrow := v }
  | 0x054 => lim (decide (v.toNat < 2 ^ 32)) { c with gamma := v }
  | _ => .error { cls := if (csrRead s a).isSome then .protFault else .illegalOperand }

/-- CSRWR (R108). An address that is not in the map is refused before ga is read (R105; log 84). -/
def execCsrwr (csr : BitVec 10) (ga : GReg) (s : State) : Out :=
  withRegs s [] [ga]
    (if (csrRead s csr.toNat).isNone then faultCls s .illegalOperand
     else withData s [ga] (Chk.run s (csrWrite s csr.toNat (getG s s.cur ga)) fun s => .next (retire s s.cur 4)))

/-- XRING_CSR_WRITE (R32): the checked write to one of the four registers, which a CSRWR brings to the router. -/
def execXringCsrWrite (csr : Fin 4) (value : Word) (s : State) : Out :=
  if awake s s.cur then Chk.run s (xringWrite s csr value) fun s => .next s else .refused .eventNotEnabled

/-! ### Helpers (R23, R326 to R328) -/

/-- A slot that starts: every register zero, handles unconfigured, generators as R52 says (R20, R23). -/
def startCtx (pc arg : Word) : Ctx := { Ctx.idle with live := true, pc := pc, g := Ctx.idle.g.set 1 arg }

/-- HSTART (R326). -/
def execHstart (slot : Fin 8) (gb ga : GReg) (s : State) : Out :=
  withRegs s [ga] [gb]
    (let a := getG s s.cur ga
     if a.getLsbD 0 then fault s { cls := .misaligned, addr := a }
     else if slot = 0 ∨ s.cur ≠ 0 ∨ (s.ctx slot).live = true then faultCls s .illegalOperand
     else withData s [gb]
       (let t := helperStarts s s.cur slot
        .next (retire (t.setCtx slot (startCtx a (getG t t.cur gb))) t.cur 4)))

/-- HJOIN (R327). -/
def execHjoin (slot : Fin 8) (gd : GReg) (s : State) : Out :=
  withRegs s [] [gd]
    (if slot = 0 ∨ s.cur ≠ 0 then faultCls s .illegalOperand
     else if (s.ctx slot).live then waitFor s (.join slot)
     else
       let t := helperJoined s s.cur slot
       .next (retire (setG t t.cur gd (t.ctx slot).exitVal) t.cur 4))

/-- A context that ends: its watch entries are disarmed, its handles, bindings and maps are gone, and predecessors not
taken are discarded (R20, R288, R296, R328, R329). -/
def endCtx (s : State) (c : Fin 8) (exit : Word) : State :=
  let s := retire (disarmAll s c) c 4
  s.setCtx c { s.ctx c with live := false, deps := [], exitVal := exit, h := Ctx.idle.h, y := Ctx.idle.y, q := Ctx.idle.q,
                            notice := false, owed := [] }

/-- HEND (R328). -/
def execHend (ga : GReg) (s : State) : Out :=
  withRegs s [ga] []
    (if s.cur = 0 then faultCls s .illegalOperand
     else if hasJobs s s.cur then waitFor s .helperEnd
     else .next (helperEnds (endCtx s s.cur (getG s s.cur ga)) s.cur))

/-! ### Groups (R20, R329) -/

/-- GEND (R329). -/
def execGend (s : State) : Out :=
  if s.cur ≠ 0 then faultCls s .illegalOperand
  else if helperLive s || hasJobs s s.cur then waitFor s .groupEnd
  else
    let s := endCtx s s.cur 0
    .next { s with core := { s.core with groupLive := false } }

/-- The core with a group started from the kernel's entry in the state of R20, its instruction cache empty (R82); what the groups before
it on the core did happens before it (R210). -/
def startGroup (s : State) (l : Launch) (g : Nat) : State :=
  groupStarts { s with
    ctxs := Vector.ofFn fun c : Fin 8 => if c = 0 then { Ctx.idle with live := true, pc := l.entry } else Ctx.idle
    icache := []
    core := { s.core with cur := 0, unit := none, groupLive := true, groupId := g, groupCnt := l.groups,
                          launchArg := l.arg, synced := false } }

/-- GROUP_START (R20): the next group dealt to this core starts after the one before has ended, and not while a
pre-emption request is pending (R349). -/
def execGroupStart (s : State) : Out :=
  match curLaunch s with
  | none => .refused .eventNotEnabled
  | some l =>
    if l.started && !s.core.groupLive && !s.core.frozen && !s.core.saving && !s.core.fenced && !s.core.preempt &&
        decide (s.core.nextGroup < l.groups) && decide (0 < l.n) then
      let s := startGroup s l s.core.nextGroup
      .next { s with core := { s.core with nextGroup := s.core.nextGroup + l.n, restarts := 0 } }
    else .refused .eventNotEnabled

/-! ### Pre-emption points (R122, R314) -/

/-- The ranges that a liveness descriptor names: start and length in bytes; an entry of length 0 is unused (R122). -/
def liveRanges (d : List Byte) : List (Nat × Nat) :=
  ((List.range 4).map fun i => (64 * rfield d (0x10 + 4 * i) 2, 64 * rfield d (0x12 + 4 * i) 2)).filter fun r =>
    decide (r.2 ≠ 0)

/-- Whether any two of the ranges overlap. -/
def overlapping : List (Nat × Nat) → Bool
  | [] => false
  | r :: t => t.any (fun q => decide (r.1 < q.1 + q.2) && decide (q.1 < r.1 + r.2)) || overlapping t

/-- Whether a liveness descriptor keeps the limits of R122 (R314). -/
def descriptorLegal (d : List Byte) : Bool :=
  !bit (rfield d 0 2) 0 && decide (rfield d 8 1 < 32) && decide (rfield d 9 7 = 0) &&
    (liveRanges d).all (fun r => decide (r.1 + r.2 ≤ spadSize)) && !overlapping (liveRanges d)

/-- PHINT (R314): it parks with its descriptor while a pre-emption request is pending. -/
def execPhint (index : BitVec 10) (s : State) : Out :=
  let c := s.cur
  if s.core.preempt then
    let a := (s.core.liveBase + BitVec.ofNat 64 (32 * index.toNat)).toNat
    Chk.run s (checkRead s a 32) fun runs => pairGate s a 0 56 fun s =>
      let d := runsBytes s runs
      if !descriptorLegal d then faultCls s .illegalOperand else
        let s := retire s c 4
        .next (s.setCtx c { s.ctx c with parked := some (.phint d), runTimer := 0 })
  else
    let s := retire s c 4
    .next (s.setCtx c { s.ctx c with runTimer := 0 })

/-! ### Traps (R330) -/

/-- TRAP (R330). -/
def execTrap (code : BitVec 10) (ga : GReg) (s : State) : Out :=
  withRegs s [ga] [] (fault s { cls := .swTrap, info := code.zeroExtend 16, status := getG s s.cur ga })

/-- BREAK (R330). -/
def execBrk (code : BitVec 10) (s : State) : Out := fault s { cls := .brk, info := code.zeroExtend 16 }

end Sys2Proof.Machine
end

