-- ==== Sys2Proof/Machine/Prepare.lean ====
section
/-! DEFINITION. What the launch unit does to a core: a job's memory as it reaches it (R339), the harvest bits (R12), membership
(R27 to R29) and the preparation of a core for a launch (R337). -/

namespace Sys2Proof.Machine

/-! ### The memory of a job, as the launch unit and the masthead reach it (R17, R339) -/

/-- A job's entry, killed or not. -/
def jobAny (s : State) (id : Nat) : Option JobEntry := s.mod.jobs.find? fun j => decide (j.id = id)

/-- The leaf of an address in a job's own tables, as the launch unit reaches it: with the features that the driver has accepted
(R339, R343). -/
def jobWalk (s : State) (job va : Nat) : Option Leaf :=
  match jobAny s job with
  | none => none
  | some j =>
    match walkFrom s s.mod.featAcc[0] va 4 j.ptRoot with
    | none => none
    | some l => if l.host || decide (l.base + l.size ≤ hbmSize) then some l else none

/-- The location of an address of a job: device memory or the host window, translated. -/
def jobLoc (s : State) (job va : Nat) (write : Bool) : Option Nat :=
  match regionOf va with
  | .hbm | .host =>
    match jobWalk s job va with
    | some l => if write && !l.w then none else some (leafLoc l va)
    | none => none
  | _ => none

/-- Bytes at an address of a job, block by block; none where a translation fails. -/
def jobBytes (s : State) (job : Nat) : Nat → Nat → Nat → Option (List Byte)
  | 0, _, _ => some []
  | fuel + 1, va, n =>
    if n = 0 then some [] else
      let k := min n (64 - va % 64)
      match jobLoc s job va false, jobBytes s job fuel (va + k) (n - k) with
      | some l, some r => some (readBytes s l k ++ r)
      | _, _ => none

/-- Bytes at an address of a job. -/
def jobRead (s : State) (job va n : Nat) : Option (List Byte) := jobBytes s job (n / 64 + 2) va n

/-- A store by the launch unit, which other agents may see later (R207, R211). -/
def unitStore (s : State) (release : Bool) (l : Nat) (bs : List Byte) : State :=
  store (noteUnit s release ((List.range bs.length).map fun i => l + i)) l bs

/-- Bytes written at an address of a job, block by block. DESIGN CHOICE (log 104): a block at an address outside device memory and the
host window, or without a mapping that may be written, is not written, and nothing tells of it: so is a completion record that a packet
places there, whose packet is accepted and whose DONESEQ goes on. -/
def jobPut (s : State) (job : Nat) (release : Bool) : Nat → Nat → List Byte → State
  | 0, _, _ => s
  | fuel + 1, va, bs =>
    if bs.isEmpty then s else
      let k := min bs.length (64 - va % 64)
      let t := match jobLoc s job va true with
        | some l => unitStore s release l (bs.take k)
        | none => s
      jobPut t job release fuel (va + k) (bs.drop k)

/-- Bytes written at an address of a job, as a release at agent scope pod, storage all, where `release` says so. -/
def jobWrite (s : State) (job va : Nat) (bs : List Byte) (release : Bool := false) : State :=
  jobPut s job release (bs.length / 64 + 2) va bs

/-! ### A core's contents (R309, R337) -/

/-- The locations from `lo` to `hi` cleared: bytes as unlisted, every tag empty, every descriptor 0x00, every check bit fresh. -/
def clearSpan (s : State) (lo hi : Nat) : State :=
  let out (n k : Nat) : Bool := decide (n * k + n ≤ lo) || decide (hi ≤ n * k)
  { s with mem := Memory.clear s.mem lo hi
           descs := s.descs.filter fun d => out 64 d.1
           badParity := s.badParity.filter (out 64)
           tags := s.tags.filter (out 4)
           poison := s.poison.filter (out 8) }

/-- This core's scratchpad with an image from offset 0 and zeros above (R309, R337). -/
def setSpad (s : State) (image : List Byte) : State :=
  let t := setBytes (clearSpan s 0 spadSize) 0 (image.take spadSize)
  { t with poison := t.poison.filter fun g => decide (g < tagGranule 0) || decide (tagGranule (spadSize / 4) ≤ g) }

/-- The scratchpads of the other cores of a domain of `n`, as they lie in the global window, with an image and zeros above
(R120, R337). When each of them is prepared is not seen here: with this core (log 79). -/
def setPeers (s : State) (lid n : Nat) (image : List Byte) : State :=
  (List.range n).foldl (fun t i =>
      if i = lid ∨ image.isEmpty = true then t else setBytes t (gwinLoc + spadSize * i) (image.take spadSize))
    (clearSpan s gwinLoc (gwinLoc + 2 ^ 20 * spadSize))

/-- The image of a launch, 0 where it cannot be read. -/
def launchImage (s : State) (l : Launch) : List Byte :=
  if l.image = 0 then [] else
    match jobRead s l.job l.image l.imageLen with
    | some bs => bs
    | none => []

/-! ### Harvest bits and places (R12, R109) -/

/-- Whether a core may be given to a job: its harvest bit is clear (R12, R19). -/
def coreUsable (s : State) (die cl c : Nat) : Bool :=
  !bit (Memory.get s.mem (harvestLoc + die * 0x2000 + cl)).toNat c

/-- A CORE_PID's parts: die, cluster row, cluster column, core in cluster (R109). -/
def pidParts (p : Nat) : Nat × Nat × Nat × Nat := (bits p 28 4, bits p 21 7, bits p 15 6, bits p 12 3)

/-! ### Membership (R22, R27 to R29) -/

/-- Logical cores of a launch that hold a group (R22). -/
def Launch.held (l : Launch) : Nat := min l.n l.groups

/-- Members that share a key with a logical core: their number and its rank among them. -/
def shareKey (l : Launch) (lid : Nat) (key : Nat → Nat) : Nat × Nat :=
  let ms := (List.range l.held).filter fun i => decide (key i = key lid)
  (ms.length, (ms.filter fun i => decide (i < lid)).length)

/-- Different values of a key among the members below a bound, in order of first appearance. -/
def keysBelow (l : Launch) (key : Nat → Nat) (ok : Nat → Bool) : Nat :=
  ((List.range l.held).map key).foldl (fun (acc : List Nat) k => if ok k && !acc.contains k then acc ++ [k] else acc) [] |>.length

/-- The membership registers of a logical core at launch (R27, R28, R29). -/
def domRegs (l : Launch) (lid modnum : Nat) : Vector Word 5 :=
  if l.held ≤ lid then Vector.replicate 5 0 else
    let pid (i : Nat) : Nat := (l.domain.getD i 0).toNat
    let clu (i : Nat) : Nat := pid i / 2 ^ 15
    let die (i : Nat) : Nat := pid i / 2 ^ 28
    let blk (i : Nat) : Nat := i / max 1 l.block
    let a := shareKey l lid clu
    let b := shareKey l lid blk
    let d := shareKey l lid die
    let before := ((List.range l.held).map clu).idxOf (clu lid)
    let index := ((List.range before).foldl (fun (acc : List Nat) i => if acc.contains (clu i) then acc else acc ++ [clu i]) []).length
    let gang := if l.gang.isEmpty then [modnum] else l.gang
    #v[domWord a.1 a.2 index, domWord b.1 b.2 (blk lid), domWord d.1 d.2 (die lid),
       domWord (keysBelow l die fun _ => true) (keysBelow l die fun k => decide (k < die lid)) modnum,
       domWord gang.length (gang.filter fun m => decide (m < modnum)).length 0]

/-! ### Preparing a core (R337) -/

/-- The core free for another launch, its place unchanged; nothing of the launch before is left in its instruction cache. -/
def freeCore (s : State) : State :=
  { s with
    ctxs := Vector.replicate 8 Ctx.idle
    icache := []
    core := { CoreRegs.reset with die := s.core.die, row := s.core.row, col := s.core.col, cix := s.core.cix,
                                  cycles := s.core.cycles, watchClock := s.core.watchClock, fenced := s.core.fenced,
                                  votes := s.core.votes } }

/-- The accumulator tiles at +0 with zero boltropes (R337). -/
def clearAccs (s : State) : State :=
  { s with mem := Memory.clear (Memory.clear s.mem accLoc (accLoc + 0x1000)) (boltLoc 64) (boltLoc 68)
           poison := s.poison.filter fun g => decide (8 * g + 8 ≤ accLoc) || decide (wbufLoc ≤ 8 * g) }

/-- The neuron bank reset: its records 0, its events gone, unconfigured, NB_LATE 0 (R304, R337). Events that its router holds stay
there (R300). -/
def resetBank (s : State) : State :=
  { s with mem := Memory.clear s.mem neuronLoc (neuronLoc + 0x10000)
           clu := { s.clu with bank := { Bank.reset with held := s.clu.bank.held } } }

/-- The core's registers at a launch as logical core `lid` at a place (R109, R313, R337). -/
def launchRegs (s : State) (l : Launch) (lid : Nat) (place : Nat) : CoreRegs :=
  let i := if l.paired ∧ l.domain.getD (l.n + lid) 0 = BitVec.ofNat 32 place then l.n + lid else lid
  { CoreRegs.reset with
    die := bits place 28 4, row := bits place 21 7, col := bits place 15 6, cix := bits place 12 3
    cycles := s.core.cycles, watchClock := s.core.watchClock, fenced := s.core.fenced
    launch := some l.id, lid := lid, liveBase := l.live, dom := domRegs l lid s.mod.modnum, groupCnt := l.groups
    launchArg := l.arg, nextGroup := lid, feat := s.mod.featAcc, modId := s.mod.modnum
    twin := if l.paired then l.domain[(i + l.n) % (2 * l.n)]? else none
    second := decide (l.n ≤ i) }

/-- The core prepared for a launch as its logical core `lid` (R313, R337); its cluster's bank is reset where no group of another
launch runs there (log 79). -/
def prepareCore (s : State) (l : Launch) (lid : Nat) : State :=
  let image := launchImage s l
  let t := setPeers (clearAccs (setSpad (freeCore s) image)) lid l.n image
  let t := if Config.clusterBusy s.choice then t else resetBank t
  let t := t.tickChoice
  { t with core := launchRegs s l lid (corePid s).toNat }

end Sys2Proof.Machine
end

