-- ==== Sys2Proof/Machine/Masthead.lean ====
section
/-! DEFINITION. The masthead (R305 to R309, R312): fault packets, fault policies, restarts, resumption, and the end of a
launch that a fault brings about. -/

namespace Sys2Proof.Machine

/-- The core's own waiting PUBLs withdrawn; a buffer that no PUBL waits for any more reopens (R205). -/
def withdrawPubls (s : State) : State :=
  let open_ (p : PubBuf) : PubBuf :=
    if p.job = curJobId s ∧ p.waiting ≠ [] then { p with waiting := [], closed := false } else p
  { s with mod := { s.mod with pubs := s.mod.pubs.map open_ } }

/-- Full/empty requests of this core's contexts withdrawn (R187). -/
def withdrawAll (s : State) : State :=
  { s with feQueue := s.feQueue.filter fun r => match r.origin with
      | .own _ _ _ => false
      | .remote _ => true }

/-- The core stopped for good: no context live, its own engine jobs ended without a status, its requests withdrawn (R322). -/
def stopCore (s : State) : State :=
  let s := withdrawAll (withdrawPubls s)
  { s with
    ctxs := Vector.replicate 8 Ctx.idle
    core := { s.core with frozen := true, unit := none, groupLive := false, phase := none, outgoing := none,
                          arriving := [], stepping := none, stepDone := false, heldWrites := [],
                          watch := Vector.replicate 8 none }
    clu := { s.clu with jobs := s.clu.jobs.filter fun j => j.remote.isSome } }

/-! ### The end of a launch (R308, R322, R332) -/

/-- A launch changed. -/
def setLaunch (s : State) (l : Launch) : State :=
  { s with mod := { s.mod with launches := s.mod.launches.map fun k => if k.id = l.id then l else k } }

/-- The core's records of a launch gone, those of a freeze's image too: nothing of an ended launch runs again (R322, R348). -/
def dropRecords (s : State) (id : Nat) : State :=
  let keep (r : SavedCore) : Bool := !decide (r.core.launch = some id)
  { s with saved := s.saved.filter keep
           mod := { s.mod with image := s.mod.image.map fun m => { m with saved := m.saved.filter keep } } }

/-- The masthead's packets of a launch gone. -/
def dropPackets (s : State) (id : Option Nat) : State :=
  let keep (p : FaultPacket) : Bool := !decide (p.launch = id)
  { s with mod := { s.mod with inbox := s.mod.inbox.filter keep, driver := s.mod.driver.filter keep } }

/-- A launch that ends with a result and a reason: the core stops if it runs it, with the remote commands and requests that its
other cores sent it (R322), and its packets and records are gone. -/
def endLaunch (s : State) (l : Launch) (result reason : Nat) : State :=
  let s := if s.core.launch = some l.id then
      let t := stopCore s
      { t with clu := { t.clu with jobs := [] }, feQueue := [] }
    else s
  setLaunch (dropRecords (dropPackets s (some l.id)) l.id) { l with ended := true, result := some (result, reason) }

/-- The class's code (R306). -/
def FaultClass.code (c : FaultClass) : Nat :=
  match c with
  | .illegalInsn => 1
  | .illegalPrefix => 2
  | .illegalOperand => 3
  | .misaligned => 4
  | .pageFault => 5
  | .protFault => 6
  | .spadRange => 7
  | .uncorrectable => 8
  | .peerSealed => 9
  | .boltMismatch => 10
  | .tripleDisagree => 11
  | .pairMismatch => 12
  | .illegalSync => 13
  | .watchdog => 14
  | .swTrap => 15
  | .brk => 16

/-! ### Resuming (R306, R308, R310) -/

/-- A handle as written through the debug window, after the tests of R310. -/
def testHandle (x : Handle) : Option Handle :=
  if handleShapeOk x.base x.size x.count && decide (x.head < x.count) && decide (x.tail < x.count) &&
      decide (x.fill ≤ x.count) && decide (x.head = (x.tail + x.fill) % x.count) then some x else none

/-- A handle entry of 16 bytes (R318, type 2). -/
def handleOf (w : Vec) : Handle :=
  let f (o n : Nat) := bits w.toNat (8 * o) (8 * n)
  { base := f 0 4, size := f 4 2, count := f 6 2, head := f 8 2, tail := f 10 2, fill := f 12 2 }

/-- One write through the debug window as it takes effect at resumption (R310); a pending status register keeps for its
status (R35). -/
def applyDebug (s : State) (c : Fin 8) (r : DbgReg) (w : Vec) : State :=
  let x := s.ctx c
  match r with
  | .ctxSel | .maddr => s
  | .pc => s.setCtx c { x with pc := w.truncate 64 }
  | .g r => if isPending s c r then s else setG s c r (w.truncate 64)
  | .l i =>
    let v : VCode := Fin.ofNat 32 i.val
    s.setCtx c { x with l := x.l.set i.val w i.isLt, poisoned := x.poisoned.filter fun n => !decide (n = RegName.vec v) }
  | .k i => setV s c (Fin.ofNat 32 (4 + i.val)) w
  | .v i => setV s c (Fin.ofNat 32 (12 + i.val)) w
  | .st j => s.setCtx c { x with st := x.st.set j.val (w.truncate 32) j.isLt }
  | .h i => setHandle s c i (testHandle (handleOf w))

/-- The held writes of the debug window take effect (R310). -/
def applyHeld (s : State) : State :=
  let t := s.core.heldWrites.foldl (fun s d => applyDebug s d.1 d.2.1 d.2.2) s
  { t with core := { t.core with heldWrites := [] } }

/-- A class after which the masthead may set the core running again (R306); of UNCORRECTABLE the seal tells, which a scrub under HOLD
takes away (R312). -/
def resumable (c : FaultClass) : Bool :=
  match c with
  | .pairMismatch | .illegalSync | .watchdog => false
  | _ => true

/-- A core that no longer is frozen takes up what waited for it: full/empty requests (R186, R305). -/
def thaw (s : State) : State := if s.core.frozen then s else serveAll s

/-- One context goes on, `skip` bytes further; its core runs again when no other context is stopped (R308). -/
def resumeCtx (s : State) (c : Fin 8) (skip : Nat) : State :=
  let s := applyHeld s
  let x := s.ctx c
  let s := s.setCtx c { x with stopped := false, pc := x.pc + BitVec.ofNat 64 skip }
  let more := slots.any fun d => (s.ctx d).stopped
  thaw { s with core := { s.core with frozen := more || s.core.sealed } }

/-- A saved core's context that goes on when its record is resumed, `skip` bytes further (R308). -/
def resumeSaved (s : State) (launch : Option Nat) (c : Fin 8) (skip : Nat) : State :=
  let go (r : SavedCore) : SavedCore :=
    if r.core.launch = launch then
      let x := r.ctxs[c.val]'c.isLt
      let xs := r.ctxs.set c.val { x with stopped := false, pc := x.pc + BitVec.ofNat 64 skip } c.isLt
      { r with ctxs := xs, core := { r.core with frozen := xs.toList.any (fun y => y.stopped) || r.core.sealed } }
    else r
  { s with saved := s.saved.map go }

/-- The context that a packet tells of goes on: on the core, or in its record where the core has been saved since (R308). -/
def resumeFor (s : State) (p : FaultPacket) (skip : Nat) : State :=
  if s.core.launch = p.launch then resumeCtx s p.ctx skip else resumeSaved s p.launch p.ctx skip

/-- The class of the fault that a context is stopped at. -/
def stoppedAt (x : Ctx) : Option FaultClass := if x.stopped then x.packet.map fun p => p.cls else none

/-- Whether the whole core may go on: it is not sealed, and no context is stopped at a fault whose class has no resumption
(R306). -/
def mayResume (s : State) : Bool := !s.core.sealed && slots.all fun c => (stoppedAt (s.ctx c)).all resumable

/-- The whole core goes on (R310, DBG_CTL resume): a context stopped at a TRAP or BREAK at the following instruction, any other at
its reported pc (R306; log 36). -/
def resumeAll (s : State) : State :=
  if !mayResume s then s else
    let s := applyHeld s
    let go (x : Ctx) : Ctx := match stoppedAt x with
      | some .swTrap | some .brk => { x with stopped := false, pc := x.pc + (if x.packet.any fun p => p.insn = 0 then 0 else 4) }
      | _ => { x with stopped := false }
    thaw { s with ctxs := Vector.ofFn fun c => go (s.ctx c), core := { s.core with frozen := false } }

/-! ### Restarting (R309) -/

/-- Whether the masthead refuses a restart (R309): the group, or in a paired launch either copy's, has retired a synchronisation, or
three restarts are made. What the other copy has retired is free (log 76). -/
def restartRefused (s : State) : Bool :=
  s.core.synced || decide (3 ≤ s.core.restarts) || (s.core.twin.isSome && Config.twinSynced s.choice)

/-- The cores of this core's region (R10). -/
def regionCores (s : State) : List (BitVec 32) :=
  (List.range 576).map fun i => pidWord s.core.die (s.core.row / 9 * 9 + i / 64) (s.core.col / 8 * 8 + i / 8 % 8) (i % 8)

/-- The cores of the region that are enabled, given to no launch, and free (R309). -/
def spareCores (s : State) : List (BitVec 32) :=
  (regionCores s).filter fun p =>
    let q := pidParts p.toNat
    coreUsable s q.1 (q.2.1 * 64 + q.2.2.1) q.2.2.2 && !decide (p = corePid s) &&
      !(s.mod.launches.any fun l => !l.ended && l.domain.contains p) && !Config.coreBusy s.choice p.toNat

/-- The spare core on which a group restarts, when one is free: any of them (R309; log 35). -/
def spareCore (s : State) : Option (BitVec 32) :=
  let ps := spareCores s
  ps[Config.pick s.choice % max 1 ps.length]?

/-- A launch whose logical core `lid`, in the copy that this core is, lies at a place (R309). -/
def placedAt (s : State) (l : Launch) (lid : Nat) (p : BitVec 32) : Launch :=
  { l with domain := l.domain.set (if s.core.second then l.n + lid else lid) p }

/-- The core at another place of the region, prepared for the launch; what the masthead knows of the group stays (R309). -/
def moveGroup (s : State) (l : Launch) (p : BitVec 32) : State :=
  let k := placedAt s l s.core.lid p
  let t := clearAccs (setLaunch s k)
  let c := launchRegs t k s.core.lid p.toNat
  let c := { c with groupId := s.core.groupId, nextGroup := s.core.nextGroup, withdrawn := s.core.withdrawn, votes := s.core.votes,
                    feat := s.core.feat, modId := s.core.modId }
  { t with icache := [], core := c }

/-- The core's group started again from the kernel's entry with its scratchpad as the launch prepared it, on a spare core of the
region where one is free, else on this one (R309). -/
def restartGroup (s : State) (l : Launch) : State :=
  let n := s.core.restarts
  let stopped := stopCore s
  let s := setSpad stopped (launchImage s l)
  let s : State := match spareCore s with
    | some p => moveGroup s l p
    | none =>
      let tiles := Vector.ofFn fun i : Fin 64 => (s.core.tiles[i.val]'i.isLt).map fun t => { t with unverified := true }
      { s with core := { s.core with tiles := tiles } }
  let s := { s.tickChoice with core := { s.core with frozen := false, sealed := false, restarts := n + 1 } }
  dropPackets (startGroup s l s.core.groupId) s.core.launch

/-! ### The policy (R308) -/

/-- The launch that a packet tells of. -/
def packetLaunch (s : State) (p : FaultPacket) : Option Launch :=
  s.mod.launches.find? fun l => decide (p.launch = some l.id) && !l.ended

/-- The launch's fault policy applied to a packet: of the launch that the packet tells of, whatever the core runs by now (R308). -/
def applyPolicy (s : State) (p : FaultPacket) : State :=
  match packetLaunch s p with
  | none => s
  | some l =>
    if l.policy = 2 then { s with mod := { s.mod with driver := s.mod.driver ++ [p] } }
    else if l.policy = 1 ∧ s.core.launch = p.launch ∧ restartRefused s = false then restartGroup s l
    else logEvent (endLaunch s l 2 p.cls.code) (.kill l.job)

/-- Whether a packet waits for what lets the core go on: a mapping, a peer's unsealing, or the driver's answer to a TRAP or
BREAK (R308, R312). -/
def waitsForAnswer (p : FaultPacket) : Bool :=
  match p.cls with
  | .pageFault | .peerSealed | .swTrap | .brk => true
  | _ => false

/-- Whether a packet is that of a debug step's end (R310): BREAK with INFO 0x3FF and no instruction word (log 36). -/
def endsStep (p : FaultPacket) : Bool := decide (p.cls = .brk) && decide (p.info = 0x3FF) && decide (p.insn = 0)

/-- Whether a packet is put to the driver and takes no policy when it comes: one that waits for an answer, an engine's miss (R17),
and a fault of the core's router, which only the exchange's abort follows (R34). -/
def toDriver (p : FaultPacket) : Bool := waitsForAnswer p || !decide (p.source = .context)

/-- Whether the fault policy can be applied to a packet now: a restart waits until a launch that has been saved is on the core again
(R308, R309; log 35). -/
def canApply (s : State) (p : FaultPacket) : Bool :=
  decide (s.core.launch = p.launch) ||
    match packetLaunch s p with
    | some l => decide (l.policy ≠ 1)
    | none => true

/-- Whether the masthead can deal with a packet now. -/
def canHandle (s : State) (p : FaultPacket) : Bool := endsStep p || toDriver p || canApply s p

/-- Whether a packet tells of an engine job's miss (R17). -/
def isMiss (p : FaultPacket) : Bool :=
  match p.source with
  | .engine _ => true
  | _ => false

/-- FAULT_PACKET (R308): the masthead takes the oldest packet that it can deal with. -/
def execFaultPacket (s : State) : Out :=
  match s.mod.inbox.find? (canHandle s) with
  | none => .refused .eventNotEnabled
  | some p =>
    let s := { s with mod := { s.mod with inbox := s.mod.inbox.erase p } }
    if endsStep p then .next s
    else if toDriver p then .next { s with mod := { s.mod with driver := s.mod.driver ++ [p] } }
    else .next (applyPolicy s p)

/-- The first packet at the driver that meets a test, and the others. -/
def takePacketWhere (s : State) (ok : FaultPacket → Bool) : Option (FaultPacket × State) :=
  match s.mod.driver.find? ok with
  | none => none
  | some p => some (p, { s with mod := { s.mod with driver := s.mod.driver.erase p } })

/-- Whether a packet is of TRAP or BREAK. -/
def isTrap (p : FaultPacket) : Bool := decide (p.cls = .swTrap) || decide (p.cls = .brk)

/-- DRIVER_RESUME_FAULT (R308): the core goes on after the TRAP or BREAK. -/
def execDriverResumeFault (s : State) : Out :=
  match takePacketWhere s isTrap with
  | none => .refused .eventNotEnabled
  | some (p, s) => .next (resumeFor s p 4)

/-- DRIVER_APPLY_POLICY (R308): the policy applies to a TRAP or BREAK, once it can be. -/
def execDriverApplyPolicy (s : State) : Out :=
  match takePacketWhere s fun p => isTrap p && canApply s p with
  | none => .refused .eventNotEnabled
  | some (p, s) => .next (applyPolicy s p)

/-- DRIVER_ANSWER_TIMEOUT (R320): the second limit has passed for the oldest packet of a context that is unanswered, and the policy
applies; an engine's miss is given up without one, and its job ends with PAGE (R17). -/
def execDriverAnswerTimeout (s : State) : Out :=
  match takePacketWhere s fun p => isMiss p || (decide (p.source = .context) && waitsForAnswer p && canApply s p) with
  | none => .refused .eventNotEnabled
  | some (p, s) => .next (if isMiss p then s else applyPolicy s p)

/-- Whether an address has a mapping in the tables of a packet's job, one that may be written where the packet is of the core's
router (R17, R34). -/
def mappedFor (s : State) (p : FaultPacket) (va : Nat) : Bool :=
  match jobWalk s p.job.toNat va with
  | some l => !decide (p.source = .router) || l.w
  | none => false

/-- Whether a mapping for an address answers a packet: its page was missing, or forbade the router's write (R17, R34, R308). -/
def answers (va : Nat) (p : FaultPacket) : Bool :=
  (decide (p.cls = .pageFault) || decide (p.source = .router)) && decide (p.addr.toNat / 65536 = va / 65536)

/-- The caches without a page of a job. -/
def tlbDrop (s : State) (job page : Nat) : State :=
  let keep (e : TlbEntry) : Bool := !(decide (e.job = job) && decide (e.page = page))
  { s with clu := { s.clu with tlb := s.clu.tlb.filter keep }, mod := { s.mod with tlb := s.mod.tlb.filter keep } }

/-- PAGE_MAPPING_SUPPLIED (R308): the mapping exists; a core goes on at the faulting instruction, packets held by the missing page are
delivered (R34), a job that waits for it tries again (R17). -/
def execPageMappingSupplied (va : Word) (s : State) : Out :=
  match takePacketWhere s fun p => answers va.toNat p && mappedFor s p va.toNat with
  | none => .refused .eventNotEnabled
  | some (p, t) =>
    let t := tlbDrop t p.job.toNat (va.toNat / 65536)
    match p.source with
    | .context => .next (resumeFor t p 0)
    | .router => .next (drainAll t)
    | .engine id => .next { t with clu := { t.clu with jobs := t.clu.jobs.map fun j => if j.id = id then { j with missed := none } else j } }

/-! ### Unsealing (R312) -/

/-- The scrub (R312): poisoned granules and registers become zero, broken and poisoned descriptors 0x00. -/
def scrub (s : State) : State :=
  let mine := s.poison.filter fun g => decide (8 * g < spadSize)
  let mem := mine.foldl (fun m g => Memory.putBytes m (8 * g) (List.replicate 8 0)) s.mem
  let bad (b : Nat) : Bool := decide (64 * b < spadSize) && (s.badParity.contains b || decide (fmtOf s b = 0xFF))
  let clean (c : Fin 8) : Ctx :=
    let t := (s.ctx c).poisoned.foldl (fun t n => match n with
      | .g r => setG t c r 0
      | .vec v =>
        if v.val < 4 then t.setCtx c { t.ctx c with l := Vector.ofFn fun i : Fin 4 => if i.val = v.val then 0 else (t.ctx c).l[i.val]'i.isLt }
        else setV t c v 0) s
    { t.ctx c with poisoned := [] }
  { s with
    mem := mem
    poison := s.poison.filter fun g => decide (spadSize ≤ 8 * g)
    descs := s.descs.filter fun d => !bad d.1
    badParity := s.badParity.filter fun b => decide (spadSize ≤ 64 * b)
    ctxs := Vector.ofFn clean }

/-- DBG_UNSEAL (R310, R312): the core is scrubbed and unsealed; its own contexts that asked it in vain may go on, and
packets held for it are delivered. -/
def execDbgUnseal (s : State) : Out :=
  let t := scrub s
  let me := (corePid s).zeroExtend 64
  let mine (p : FaultPacket) : Bool := decide (p.cls = .peerSealed) && decide (p.addr = me)
  let t := { t with
    ctxs := Vector.ofFn fun c => match (t.ctx c).packet with
      | some p => if mine p then { t.ctx c with stopped := false } else t.ctx c
      | none => t.ctx c
    core := { t.core with sealed := false }
    mod := { t.mod with driver := t.mod.driver.filter fun p => !mine p } }
  .next (drainAll t)

/-- A peer is unsealed: the contexts that its error replies froze go on at their requests, whose packets are dealt with (R312). -/
def peerUnsealed (s : State) (l : Nat) : State :=
  let at_ : Word := ((placeOf s l).getD 0).zeroExtend 64
  let mine (p : FaultPacket) : Bool := decide (p.cls = .peerSealed) && decide (p.addr = at_) && decide (p.launch = s.core.launch)
  let cs := slots.filter fun c => (s.ctx c).stopped && (s.ctx c).packet.any mine
  let t := { s with core := { s.core with sealedPeers := setErase s.core.sealedPeers l }
                    mod := { s.mod with inbox := s.mod.inbox.filter fun p => !mine p, driver := s.mod.driver.filter fun p => !mine p } }
  cs.foldl (fun t c => resumeCtx t c 0) t

/-- Whether a location lies in the scratchpad of another logical core. -/
def peerWord (l loc : Nat) : Bool := decide (gwinLoc + spadSize * l ≤ loc) && decide (loc < gwinLoc + spadSize * (l + 1))

/-- Another core of the launch is sealed, or is unsealed; which, and when, is free (R311, R312; log 93). Every request queued for the words
of a core that is sealed ends with PEER_SEALED at its requester (R187). -/
def peerSeals (s : State) : State :=
  let l := Config.pick s.choice % max 1 (domainSize s)
  let t := s.tickChoice
  if l = s.core.lid ∨ domainSize s ≤ l then t
  else if s.core.sealedPeers.contains l then peerUnsealed t l
  else sealWords { t with core := { t.core with sealedPeers := setInsert t.core.sealedPeers l } } (peerWord l) ((placeOf t l).getD 0)

end Sys2Proof.Machine
end

