-- ==== Sys2Proof/Machine/Debug.lean ====
section
/-! DEFINITION. The debug window (R310), the hash comparison of paired launches (R313) and soft errors (R311, R60, R227). -/

namespace Sys2Proof.Machine

/-! ### DBG_CTL (R310) -/

/-- The packets of the core's contexts dealt with. -/
def dealtWith (s : State) : State :=
  let keep (p : FaultPacket) : Bool := !(decide (p.launch = s.core.launch) && decide (p.source = .context))
  { s with mod := { s.mod with inbox := s.mod.inbox.filter keep, driver := s.mod.driver.filter keep } }

/-- DBG_RESUME (R310): the frozen core runs, and the packets it was frozen for are dealt with. A sealed core stays frozen, and so does
one stopped at a fault whose class has no resumption (R306); to a core that is not frozen the write does nothing. -/
def execDbgResume (s : State) : Out :=
  if s.core.frozen && mayResume s then .next (dealtWith (resumeAll s)) else .next s

/-- DBG_STEP (R310): the selected context goes on for one instruction; as DBG_RESUME otherwise. -/
def execDbgStep (s : State) : Out :=
  if s.core.frozen && mayResume s then
    let t := dealtWith (resumeAll s)
    let c := s.core.ctxSel
    .next { t with core := { t.core with stepping := some c, stepDone := false, cur := c } }
  else .next s

/-- DEBUG_STEP_BREAK (R310): after the stepped instruction the core freezes with BREAK, INFO 0x3FF. -/
def execDebugStepBreak (s : State) : Out :=
  match s.core.stepping with
  | some c =>
    if s.core.stepDone && s.core.unit.isNone then
      .next (raise (s.setCtx c { s.ctx c with insn := 0 }) c { cls := .brk, info := 0x3FF })
    else .refused .eventNotEnabled
  | none => .refused .eventNotEnabled

/-- DBG_FREEZE (R310): the core freezes with no packet. -/
def execDbgFreeze (s : State) : Out :=
  .next { s with core := { s.core with frozen := true, stepping := none, stepDone := false } }

/-- DBG_SEAL (R310, R311). -/
def execDbgSeal (s : State) : Out := .next (sealCore s)

/-! ### Data through the window (R225, R310) -/

/-- DBG_MDATA_WRITE (R310): eight bytes of scratchpad, accumulator tile or border, or a word's tag; ignored while the core
is not frozen. A tile's boltrope and state bits stay (R225). -/
def execDbgMdataWrite (value : Word) (s : State) : Out :=
  if !s.core.frozen then .next s else
    let a := s.core.maddr.toNat
    let b := a / 8 * 8
    if 0x30000 ≤ a ∧ a < 0x30000 + spadSize / 4 then
      let w := a - 0x30000
      .next { s with tags := if value.getLsbD 0 then setInsert s.tags w else setErase s.tags w }
    else match regionOf a with
      | .spad | .acc => .next (poke s b (leBytes 8 value.toNat))
      | .border => .next (setBytes s (directLoc s .border b) (leBytes 8 value.toNat))
      | _ => .next s

/-- DEBUG_REGISTER_WRITE (R310): ignored while the core is not frozen; a write to PC or a register takes effect when the
core resumes, and one to a pending status register is overtaken by the status. -/
def execDebugRegisterWrite (r : DbgReg) (value : Vec) (s : State) : Out :=
  if !s.core.frozen then .next s else
    let c := s.core.ctxSel
    match r with
    | .ctxSel => .next { s with core := { s.core with ctxSel := Fin.ofNat 8 value.toNat } }
    | .maddr => .next { s with core := { s.core with maddr := value.truncate 64 } }
    | .g g =>
      if isPending s c g then .next s
      else .next { s with core := { s.core with heldWrites := s.core.heldWrites ++ [(c, .g g, value)] } }
    | r => .next { s with core := { s.core with heldWrites := s.core.heldWrites ++ [(c, r, value)] } }

/-! ### Reading the window (R307, R310) -/

/-- The number of a core's window among those of its region, and its address (R310). -/
def debugIndex (s : State) : Nat := 8 * (s.core.row % 9 * 8 + s.core.col % 8) + s.core.cix
def debugWindow (s : State) : Nat := 0x10000000 + 0x1000 * debugIndex s

/-- A fault packet's 64 bytes (R307). -/
def packetBytes (p : FaultPacket) : List Byte :=
  leBytes 1 p.cls.code ++ leBytes 1 p.ctx.val ++ leBytes 2 p.info.toNat ++ leBytes 4 p.pid.toNat ++ leBytes 8 p.pc.toNat ++
    leBytes 8 p.addr.toNat ++ leBytes 4 p.insn.toNat ++ leBytes 4 p.group.toNat ++ leBytes 8 p.status.toNat ++
    leBytes 8 p.tick.toNat ++ leBytes 4 p.job.toNat ++ leBytes 4 p.fseq.toNat ++ leBytes 4 p.votes.toNat ++ leBytes 4 0

/-- A handle's entry of 16 bytes (R318, type 2). -/
def handleBytes (h : Option Handle) : List Byte :=
  match h with
  | some h => leBytes 4 h.base ++ leBytes 2 h.size ++ leBytes 2 h.count ++ leBytes 2 h.head ++ leBytes 2 h.tail ++
      leBytes 2 h.fill ++ List.replicate 2 0
  | none => List.replicate 16 0

/-- A mask of the numbers below n that a predicate holds for. -/
def maskOf (n : Nat) (p : Nat → Bool) : Nat := (List.range n).foldl (fun m i => if p i then m + 2 ^ i else m) 0

/-- A context's pending status registers as a mask. -/
def pendMask (x : Ctx) : Nat := maskOf 16 fun i => (x.pend.toList.getD i none).isSome

/-- The window's bytes from 0x400 (R310). -/
def windowBytes (x : Ctx) : List Byte :=
  leBytes 8 x.pc.toNat ++ leBytes 8 (pendMask x) ++ (x.g.toList.map fun w => leBytes 8 w.toNat).flatten ++
    (x.l.toList.map fun w => leBytes 32 w.toNat).flatten ++ (x.k.toList.map fun w => leBytes 32 w.toNat).flatten ++
    (x.v.toList.map fun w => leBytes 32 w.toNat).flatten ++ (x.st.toList.map fun w => leBytes 4 w.toNat).flatten ++
    (x.h.toList.map handleBytes).flatten

/-- DBG_STAT (R310). -/
def dbgStat (s : State) : Nat :=
  maskOf 8 (fun i => (s.ctxs.toList.getD i Ctx.idle).live) + 2 ^ 8 * maskOf 8 (fun i => (s.ctxs.toList.getD i Ctx.idle).stopped) +
    (if s.core.frozen then 2 ^ 16 else 0) + (if s.core.sealed then 2 ^ 17 else 0) + (if s.core.saving then 2 ^ 18 else 0)

/-- DBG_MDATA: eight bytes of scratchpad, accumulator tile or border, or a word's tag (R310). -/
def dbgMdata (s : State) : Nat :=
  let a := s.core.maddr.toNat
  let b := a / 8 * 8
  if 0x30000 ≤ a ∧ a < 0x30000 + spadSize / 4 then (if s.tags.contains (a - 0x30000) then 1 else 0)
  else match regionOf a with
    | .spad | .acc => readLoc s b 8
    | .border => readLoc s (directLoc s .border b) 8
    | _ => 0

/-- What the masthead reads, in eight bytes, at an offset of the window: all but DBG_STAT reads 0 while the core is not frozen
(R310). No row of the table is a read; the masthead's reads change nothing. -/
def dbgRead (s : State) (off : Nat) : Word :=
  let x := s.ctx s.core.ctxSel
  BitVec.ofNat 64 (
    if off = 0x008 then dbgStat s
    else if s.core.frozen = false then 0
    else if off = 0x010 then s.core.ctxSel.val
    else if off = 0x018 then s.core.votes
    else if off = 0x020 then s.core.maddr.toNat
    else if off = 0x028 then dbgMdata s
    else if 0x040 ≤ off ∧ off < 0x080 then leNat (((x.packet.map packetBytes).getD []).drop (off - 0x040) |>.take 8)
    else if 0x400 ≤ off ∧ off < 0x930 then leNat ((windowBytes x).drop (off - 0x400) |>.take 8)
    else 0)

/-! ### Paired launches (R313) -/

/-- The contexts whose requests wait for the other copy's hashes. -/
def pairWaiters (s : State) : List (Fin 8) := slots.filter fun c => decide ((s.ctx c).wait = some .pair)

/-- The jobs whose writes wait for the other copy's hashes. -/
def pairJobs (s : State) : List Job := s.clu.jobs.filter (awaitsTwin s)

/-- The fault of a job's request: its packet bears the command's first prefix and word (R306, R307). -/
def raiseJob (s : State) (j : Job) (f : Flt) : State :=
  let t := raise s j.ctx f
  let fix (p : FaultPacket) : FaultPacket := { p with pc := j.pc, insn := j.word }
  let x := t.ctx j.ctx
  let t := t.setCtx j.ctx { x with packet := x.packet.map fix }
  { t with mod := { t.mod with inbox := t.mod.inbox.dropLast ++ (t.mod.inbox.getLast?.map fix).toList } }

/-- Both copies differ, or the twin is silent: the first request that waits, a context's before a job's, freezes the core with
PAIR_MISMATCH, and ADDR names the other copy's core (R313). -/
def pairMismatch (twin : BitVec 32) (s : State) : Out :=
  match pairWaiters s, pairJobs s with
  | c :: _, _ => .next (raise (s.setCtx c { s.ctx c with pairHash := none }) c { cls := .pairMismatch, addr := twin.zeroExtend 64 })
  | [], j :: _ => .next (raiseJob s j { cls := .pairMismatch, addr := twin.zeroExtend 64 })
  | [], [] => .refused .eventNotEnabled

/-- PAIR_HASH_ARRIVAL (R313): the request that bears this hash, a context's or a job's next write, has agreed and goes on; where none
bears it, the two copies differ. -/
def execPairHashArrival (hash : Word) (twin : BitVec 32) (s : State) : Out :=
  match (pairWaiters s).find? fun c => decide ((s.ctx c).pairHash = some hash) with
  | some c => .next (wakeAgain (s.setCtx c { s.ctx c with pairOk := true }) c false)
  | none =>
    match (pairJobs s).find? fun j => decide (jobHash s j = hash) with
    | some j => .next (setJob s { j with agreed := j.agreed + 1 })
    | none => pairMismatch twin s

/-- PAIR_HASH_TIMEOUT (R313). -/
def execPairHashTimeout (twin : BitVec 32) (s : State) : Out := pairMismatch twin s

/-! ### Soft errors (R60, R227, R311) -/

/-- How many bits a mask flips. -/
def popCount {w : Nat} (x : BitVec w) : Nat := ((List.range w).filter fun i => x.getLsbD i).length

/-- Bytes with a mask applied. -/
def flipBytes (s : State) (loc n x : Nat) : State := setLoc s loc n (readLoc s loc n ^^^ x)

/-- What check bits that correct one flipped bit and detect two make of an error: nothing, poison, which is logged (R351), or a silent
change. -/
def eccOutcome (s : State) (flips : Nat) (detected : Bool) (poisoned silent : State) : State :=
  if flips ≤ 1 then s else if flips = 2 ∨ detected then logEvent poisoned .uncorrectable else silent

/-- Word k of 64 bits of the flips that strike a line. -/
def flipWord (f : BitVec 512) (k : Nat) : BitVec 64 := BitVec.ofNat 64 (f.toNat / 2 ^ (64 * k))

/-- The words of a weight-buffer line in which more than one bit flips: one flip in a word is corrected there (R227). -/
def struckWords (f : BitVec 512) : List Nat := (List.range 8).filter fun k => decide (1 < popCount (flipWord f k))

/-- What the check bits of a weight-buffer line, of each of its 64-bit words by itself, make of an error (R227, R351). -/
def lineOutcome (s : State) (i : Nat) (f : BitVec 512) (detected : Bool) : State :=
  let ws := struckWords f
  if ws.any fun k => decide (popCount (flipWord f k) = 2) || detected then
    logEvent (setWline s i { wline s i with poison := true }) .uncorrectable
  else ws.foldl (fun s k => flipBytes s (wbufLoc + 64 * i + 8 * k) 8 (flipWord f k).toNat) s

/-- A register marked as holding a poisoned value. -/
def poisonReg (s : State) (c : Fin 8) (n : RegName) : State :=
  let x := s.ctx c
  s.setCtx c { x with poisoned := if x.poisoned.contains n then x.poisoned else n :: x.poisoned }

/-- SOFT_ERROR (R227, R311). Scratchpad granules, device-memory lines and weight-buffer lines carry check bits; registers and
side arrays carry parity, which finds an odd number of flips; the tiles of the engine carry their boltrope alone. What check bits detect
and do not correct is logged at once, what parity finds when it is read (R351; log 77). -/
def execSoftError (t : SoftTarget) (s : State) : Out :=
  match t with
  | .spadData g f d =>
    if spadSize ≤ 8 * g then .refused .eventNotEnabled else
      .next (eccOutcome s (popCount f) d { s with poison := setInsert s.poison g } (flipBytes s (8 * g) 8 f.toNat))
  | .spadDesc b f =>
    if spadSize ≤ 64 * b then .refused .eventNotEnabled else
      let t := { s with descs := sparsePut (fun _ => 0) s.descs b (descOf s b ^^^ f) }
      .next (if popCount f % 2 = 1 then
        { t with badParity := if s.badParity.contains b then setErase s.badParity b else setInsert s.badParity b } else t)
  | .gReg c r => if r = 0 then .refused .eventNotEnabled else .next (poisonReg s c (.g r))
  | .vReg c v => .next (poisonReg s c (.vec v))
  | .hbmLine b f g d =>
    let loc := hbmLoc + 64 * b
    let silent := { flipBytes s loc 64 f.toNat with
      descs := sparsePut (fun _ => 0) s.descs (loc / 64) (descOf s (loc / 64) ^^^ g) }
    if hbmSize ≤ 64 * b then .refused .eventNotEnabled else
      .next (eccOutcome s (popCount f + popCount g) d (setDesc s (loc / 64) (descOf s (loc / 64) ||| 0xFF)) silent)
  | .wline i f d =>
    if 1024 ≤ i then .refused .eventNotEnabled else
      .next (lineOutcome s i f d)
  | .tile loc f =>
    if (accOfLoc loc).isNone then .refused .eventNotEnabled else .next (flipBytes s loc 1 f.toNat)
  | .boltrope t k f d =>
    let loc := boltLoc t + k
    if decide (68 ≤ t) || decide (256 ≤ k) then .refused .eventNotEnabled else
      .next (if popCount f % 2 = 1 ∨ d = true then { s with poison := setInsert s.poison (loc / 8) } else flipBytes s loc 1 f.toNat)
  | .tag w f d =>
    if spadSize ≤ 4 * w then .refused .eventNotEnabled else
      .next (if d then { s with poison := setInsert s.poison (tagGranule w) }
        else if f then { s with tags := if s.tags.contains w then setErase s.tags w else setInsert s.tags w }
        else s)
  | .execution f => .next { s with upsets := s.upsets ++ [f] }

end Sys2Proof.Machine
end

