-- ==== Sys2Proof/Machine/Preempt.lean ====
section
/-! DEFINITION. Pre-emption (R314 to R319), its bounds (R320, R321) and what of a core a save keeps (R242, R304, R315). -/

namespace Sys2Proof.Machine

/-! ### Requests and parking (R314) -/

/-- PREEMPTION_REQUEST (R314): a request from the scheduler, the watchdog or a freeze. -/
def execPreemptionRequest (s : State) : Out :=
  if s.core.launch.isNone then .refused .eventNotEnabled
  else .next { s with core := { s.core with preempt := true } }

/-- Whether a context sleeps (R24, R194) and so counts as parked (R314). -/
def sleeping (x : Ctx) : Bool :=
  match x.wait with
  | some w => !w.isStall
  | none => false

/-- Whether a context still runs as far as R314 is concerned. -/
def stillRunning (s : State) (c : Fin 8) : Bool :=
  let x := s.ctx c
  x.live && x.parked.isNone && !sleeping x

/-- FORCED_PARK (R314): contexts that still run 20 ms after a freeze's tick are parked at their next boundary, never inside
a unit (R93); one whose instruction is under way goes on until it retires. -/
def execForcedPark (s : State) : Out :=
  if s.core.preempt && s.core.fromFreeze && s.core.unit.isNone && !s.core.frozen then
    let park (c : Fin 8) : Ctx :=
      let x := s.ctx c
      if stillRunning s c && x.wait.isNone then { x with parked := some .forced }
      else x
    .next { s with ctxs := Vector.ofFn park }
  else .refused .eventNotEnabled

/-- Whether a core is pre-emptible (R314). -/
def preemptible (s : State) : Bool := s.core.unit.isNone && (s.core.frozen || !slots.any (stillRunning s))

/-! ### What descriptors name (R122, R314, R315) -/

/-- What is live in a context: masks by register file, and whether everything is (R314). -/
structure Live where
  all    : Bool
  desc   : List Byte

/-- A context's effective descriptor: a parked PHINT's own, everything otherwise. -/
def liveOf (x : Ctx) : Live :=
  match x.parked with
  | some (.phint d) => { all := false, desc := d }
  | _ => { all := true, desc := [] }

/-- Bit i of a descriptor's field. -/
def Live.named (l : Live) (off n i : Nat) : Bool := l.all || bit (rfield l.desc off n) i

/-- The handle and binding of saved jobs (R315). -/
def jobHandles (c : Fin 8) (jobs : List Job) : List (Fin 8) :=
  jobs.filterMap fun j => if j.ctx = c ∧ j.remote = none then cmdHandle j.cmd j.a j.b else none

/-- A context as its record keeps it: what its descriptor names, pending status registers, the handles that saved jobs
target; everything else zero, unconfigured, unbound or lost (R296, R315). -/
def saveCtx (s : State) (jobs : List Job) (c : Fin 8) : Ctx :=
  let x := s.ctx c
  if !x.live then { Ctx.idle with exitVal := x.exitVal, packet := x.packet } else
    let l := liveOf x
    let vl := rfield l.desc 4 4
    let on (i : Nat) : Bool := l.all || bit vl i
    let hs := jobHandles c jobs
    { x with
      pairHash := none
      pairOk := false
      g := Vector.ofFn fun i : Fin 16 => if l.named 0 2 i.val || (x.pend[i.val]'i.isLt).isSome then x.g[i.val]'i.isLt else 0
      k := Vector.ofFn fun i : Fin 8 => if l.named 2 1 i.val then x.k[i.val]'i.isLt else 0
      v := Vector.ofFn fun i : Fin 20 => if on i.val then x.v[i.val]'i.isLt else 0
      l := Vector.ofFn fun i : Fin 4 => if on (20 + i.val) then x.l[i.val]'i.isLt else 0
      h := Vector.ofFn fun i : Fin 8 => if l.named 3 1 i.val || hs.contains i then x.h[i.val]'i.isLt else none
      y := Vector.ofFn fun i : Fin 4 => if on (24 + i.val) then x.y[i.val]'i.isLt else none
      q := Vector.ofFn fun i : Fin 4 => if on (28 + i.val) then x.q[i.val]'i.isLt else .lost
      poisoned := x.poisoned.filter fun n => match n with
        | .g r => l.named 0 2 r.val
        | .vec v => if v.val < 4 then on (20 + v.val) else if v.val < 12 then l.named 2 1 (v.val - 4) else on (v.val - 12) }

/-- The scratchpad ranges that a save keeps: those the descriptors name, the rings of saved jobs' handles, and the maps of
saved reef handles (R296, R315). -/
def savedRanges (s : State) (jobs : List Job) : List (Nat × Nat) :=
  (slots.map fun c =>
    let x := s.ctx c
    let l := liveOf x
    if !x.live then [] else if l.all then [(0, spadSize)] else
      liveRanges l.desc ++
      ((jobHandles c jobs).filterMap fun h => match getHandle s c h with
        | some y => some (y.base, y.size * y.count)
        | none => none) ++
      ((List.range 4).filterMap fun i => if bit (rfield l.desc 4 4) (28 + i) then
          (match x.q.toList.getD i .unbound with
           | .bound n _ a => some (a, 4 * n)
           | _ => none)
        else none)).flatten

/-- Whether a location is in one of the ranges. -/
def inRanges (rs : List (Nat × Nat)) (a : Nat) : Bool := rs.any fun r => decide (r.1 ≤ a) && decide (a < r.1 + r.2)

/-- Whether some live context's descriptor names bit i of AMASK (R122). -/
def amaskNamed (s : State) (i : Nat) : Bool := slots.any fun c => (s.ctx c).live && (liveOf (s.ctx c)).named 8 1 i

/-- Whether a save keeps the neuron bank: a descriptor of some core of the cluster names it; what the other cores' name is free (R304;
log 85). -/
def bankNamed (s : State) : Bool := amaskNamed s 4 || Config.neighbourNames s.choice

/-! ### Engine work at a save (R316) -/

/-- Bytes that a copy, gather or scatter has still to write, the records of its tiles included (R274, R279). -/
def bytesLeft (s : State) (j : Job) : Nat :=
  let r := recordNow s j
  match j.cmd with
  | .cpy x => (if x.bolt || decide (x.pack ≠ .none) then bytesToWrite j s else (cpyRec r).total) - j.done
  | .cgather | .cscatter => (rfield r 0x10 4 - j.done) * rfield r 0x14 4
  | _ => 0

/-- Whether a started job is drained before the save: it has its fate by kind, a copy by what is left of it; one that
waits on a handle is saved (R316). -/
def drains (s : State) (j : Job) : Bool :=
  if j.status.isSome then true
  else if !j.started then false
  else match j.cmd with
    | .cred _ | .geval _ | .glen _ | .gspine _ _ | .gocc _ _ | .gunf _ _ | .gloc _ | .glook _ | .gbind _ | .grelease _ |
      .nbpost | .nbadv => false
    | .cpy x =>
      decide (bytesLeft s j ≤ 16384) && (!x.useH || (match getHandle s j.ctx x.h with
        | some h => decide (h.fill < h.count)
        | none => true))
    | .cgather | .cscatter => decide (bytesLeft s j ≤ 16384)
    | .tst x => (cmdHandle (.tst x) j.a j.b).isNone || (runTst x j s).isSome
    | .tmma x => (runTmma x j s).isSome
    | _ => true

/-! ### Saving (R315, R316) -/

/-- Cells of the scratchpad and of named tiles and neurons. -/
def savedCells (s : State) (rs : List (Nat × Nat)) (bank : Bool) : Cells :=
  s.mem.filter fun c =>
    (decide (c.1 < spadSize) && inRanges rs c.1) ||
    ((List.range 4).any fun i => amaskNamed s i &&
      ((decide (accLoc + 0x400 * i ≤ c.1) && decide (c.1 < accLoc + 0x400 * i + 0x400)) ||
       (decide (boltLoc (64 + i) ≤ c.1) && decide (c.1 < boltLoc (65 + i))))) ||
    (bank && decide (neuronLoc ≤ c.1) && decide (c.1 < neuronLoc + 0x10000))

/-- A job as its record keeps it (R269, R315): a started one works from its copy of its descriptor; a grammar job keeps its binding,
one that has not started that of its handle, unless a command before it binds or releases the handle. -/
def saveJob (s : State) (j : Job) : Job :=
  let rebinds (i : Job) : Bool := decide (i.id < j.id) && decide (i.ctx = j.ctx) && (match i.cmd, cmdGram j.cmd with
    | .gbind x, some y => decide (x.y = y)
    | .grelease x, some y => decide (x = y)
    | _, _ => false)
  { j with binding := if j.started || s.clu.jobs.any rebinds then j.binding else startBinding s j }

/-- Whether a granule of check bits belongs to what a save keeps: a scratchpad range, a word's tag in one, a named accumulator tile
or its boltrope (R311, R315). -/
def savedGranule (s : State) (rs : List (Nat × Nat)) (g : Nat) : Bool :=
  if 8 * g < spadSize then rs.any fun r => decide (r.1 < 8 * g + 8) && decide (8 * g < r.1 + r.2)
  else if tagGranule 0 ≤ g ∧ g < tagGranule (spadSize / 4) then inRanges rs (4 * (g - tagGranule 0))
  else (List.range 4).any fun i => amaskNamed s i && decide (boltLoc (64 + i) ≤ 8 * g) && decide (8 * g < boltLoc (65 + i))

/-- Whether a descriptor's block meets a range that a save keeps (R315). -/
def savedBlock (rs : List (Nat × Nat)) (b : Nat) : Bool :=
  decide (64 * b < spadSize) && rs.any fun r => decide (r.1 < 64 * b + 64) && decide (64 * b < r.1 + r.2)

/-- The core's record (R315, R316). Events held in posters' routers stay there (R300). -/
def recordCore (s : State) : SavedCore :=
  let jobs := s.clu.jobs.map (saveJob s)
  let rs := savedRanges s jobs
  let bank := bankNamed s
  { ctxs := Vector.ofFn (saveCtx s jobs)
    core := { s.core with
      acc := Vector.ofFn fun i : Fin 4 => if amaskNamed s i.val then s.core.acc[i.val]'i.isLt else { unverified := false, poisoned := false }
      tiles := Vector.ofFn fun i : Fin 64 => match s.core.tiles[i.val]'i.isLt with
        | some t => some { t with unverified := true, poisoned := false }
        | none => none
      watch := Vector.ofFn fun i : Fin 8 => match s.core.watch[i.val]'i.isLt with
        | some e => some { e with fired := false }
        | none => none }
    mem := savedCells s rs bank
    descs := s.descs.filter fun d => savedBlock rs d.1
    tags := s.tags.filter fun w => decide (4 * w < spadSize) && inRanges rs (4 * w)
    poison := s.poison.filter (savedGranule s rs)
    badParity := s.badParity.filter (savedBlock rs)
    jobs := jobs
    bank := if bank then some { s.clu.bank with held := [] } else none
    lost := [] }

/-- A job's lines and pattern table made invalid when it stops being resident (R227). -/
def invalidateLines (s : State) (job : Nat) : State :=
  { s with clu := { s.clu with
      wlines := s.clu.wlines.filter fun w => !decide (w.2.job = some job)
      pattern := if s.clu.pattern = some job then none else s.clu.pattern } }

/-- The same when a job leaves this core: it may be resident on another core of the cluster still (R227; log 100). -/
def leaveLines (s : State) (job : Nat) : State :=
  if Config.residentBeside s.choice then s.tickChoice else invalidateLines s.tickChoice job

/-! ### Resuming (R319) -/

/-- A context as it goes on (R192, R319): after its PHINT or YIELD, or executing a sleeping instruction again; a YIELDX has
retired, and its wait goes on (R194); the next WAITW returns reason 3; the run timer starts from zero. -/
def resumedCtx (x : Ctx) : Ctx :=
  if x.live then
    { x with parked := none, wait := if x.wait = some .cycles then x.wait else none, expired := false, notice := true,
             runTimer := 0 }
  else x

/-- The place at which a saved core resumes: the entry of its logical number, in its own copy of a paired launch, in the launch's
table, which a RESUME may have remapped (R19, R347, R349). -/
def resumePlace (s : State) (r : CoreRegs) : CoreRegs :=
  match s.mod.launches.find? fun l => decide (r.launch = some l.id) with
  | none => r
  | some l =>
    let i := if r.second then l.n + r.lid else r.lid
    let p := (l.domain.getD i (pidWord r.die r.row r.col r.cix)).toNat
    { r with die := bits p 28 4, row := bits p 21 7, col := bits p 15 6, cix := bits p 12 3,
             twin := if l.paired then l.domain[(i + l.n) % (2 * l.n)]? else none }

/-- The core rebuilt from a record (R304, R319): a bank that was not saved is reset. The resumption orders all that was written before
it, the save engine's writes too (R207). -/
def rebuildCore (s : State) (r : SavedCore) : State :=
  let t := resetBank (clearAccs (setSpad s []))
  let mem := r.mem.foldl (fun m c => Memory.put m c.1 c.2) t.mem
  let descs := r.descs.foldl (fun d e => sparsePut (fun _ => 0) d e.1 e.2) t.descs
  let bank := match r.bank with
    | some b => { b with held := t.clu.bank.held }
    | none => t.clu.bank
  settleBank { settle t with
    ctxs := Vector.ofFn fun c => resumedCtx (r.ctxs[c.val]'c.isLt)
    core := { resumePlace s r.core with cycles := s.core.cycles, preempt := false, fromFreeze := false, saving := false }
    mem := mem, descs := descs, icache := []
    tags := r.tags.foldl setInsert t.tags
    poison := r.poison.foldl setInsert t.poison
    badParity := r.badParity.foldl setInsert t.badParity
    clu := { t.clu with jobs := r.jobs ++ t.clu.jobs, bank := bank } }

/-! ### Who is served (R323) -/

/-- The priority of a launch: its queue's (R338). -/
def launchPrio (s : State) (l : Launch) : Nat :=
  match s.mod.queues.find? fun q => decide (q.hdr = l.queue) && decide (q.job = l.job) with
  | some q => q.prio
  | none => 0

/-- The deficit of a job (R323). -/
def jobDeficit (s : State) (job : Nat) : Int := ((jobAny s job).map fun j => j.deficit).getD 0

/-- Whether a launch is served before another: by priority, then by deficit (R323). -/
def servedBefore (s : State) (k l : Launch) : Bool :=
  decide (launchPrio s l < launchPrio s k) ||
    (decide (launchPrio s l = launchPrio s k) && decide (jobDeficit s l.job < jobDeficit s k.job))

/-- The launches that wait for this core: those that have not been granted it, and those saved from it. -/
def waitingLaunches (s : State) : List Launch :=
  s.mod.launches.filter fun l => !l.ended && ((!l.granted && l.domain.contains (corePid s)) ||
    s.saved.any fun r => decide (r.core.launch = some l.id))

/-- Whether a launch may be given the core: no other that waits for it is served before it (R323). -/
def mayServe (s : State) (l : Launch) : Bool := !(waitingLaunches s).any fun k => servedBefore s k l

/-- The records that may be resumed on the core now: any of them where several are equal (R323). -/
def resumableRecords (s : State) : List SavedCore :=
  s.saved.filter fun r => match s.mod.launches.find? fun l => decide (r.core.launch = some l.id) with
    | some l => mayServe s l
    | none => true

/-- CORE_RESUMPTION (R319): the core is rebuilt from a record, one that R323 serves first; a context whose save was abandoned raises
WATCHDOG. -/
def execCoreResumption (s : State) : Out :=
  let rs := resumableRecords s
  match rs[Config.pick s.choice % max 1 rs.length]? with
  | none => .refused .eventNotEnabled
  | some r =>
    let s := s.tickChoice
    if s.core.launch.isSome ∨ s.mod.frozen = true ∨ s.core.fenced = true then .refused .eventNotEnabled else
      let t := rebuildCore { s with saved := s.saved.erase r } r
      .next (r.lost.foldl (fun t c => raise t c { cls := .watchdog, info := 2 }) t)

/-! ### The watchdog (R320) -/

/-- Whether a context's run timer counts (R320). -/
def timed (s : State) (c : Fin 8) : Bool :=
  let x := s.ctx c
  x.live && x.parked.isNone && !x.stopped && !sleeping x && !s.core.frozen

/-- The limits of the launch's queue in milliseconds (R320, R338). -/
def limits (s : State) : Nat × Nat × Nat :=
  match curQueue s with
  | some q => (q.wd1, q.wd2, q.wd3)
  | none => (10, 100, 1000)

/-- A run timer that has reached a limit. -/
def reachLimit (s : State) (c : Fin 8) (n : Nat) : State :=
  let x := s.ctx c
  s.setCtx c { x with runTimer := max x.runTimer n }

/-- WATCHDOG_STEP1 (R320): a pre-emption request for the core. -/
def execWatchdogStep1 (c : Fin 8) (s : State) : Out :=
  if timed s c && decide ((s.ctx c).runTimer < (limits s).1) then
    let t := reachLimit s c (limits s).1
    .next { t with core := { t.core with preempt := true } }
  else .refused .eventNotEnabled

/-- WATCHDOG_STEP2 (R320): the timer, which has passed the first limit, reaches the second, and the context raises WATCHDOG with
INFO 1. -/
def execWatchdogStep2 (c : Fin 8) (s : State) : Out :=
  if timed s c && decide ((limits s).1 ≤ (s.ctx c).runTimer) && decide ((s.ctx c).runTimer < (limits s).2.1) then
    .next (raise (reachLimit s c (limits s).2.1) c { cls := .watchdog, info := 1 })
  else .refused .eventNotEnabled

/-- WATCHDOG_STEP3 (R320): a core that has not frozen by the third limit, which comes after the first, is fenced; its requests get error
replies (R351 logs it). A core that the second limit's fault should have frozen may not have done so (log 95). -/
def execWatchdogStep3 (c : Fin 8) (s : State) : Out :=
  if timed s c && decide ((limits s).1 ≤ (s.ctx c).runTimer) then
    let t := withdrawAll (reachLimit s c (limits s).2.2)
    .next (logEvent { t with core := { t.core with fenced := true }, mod := { t.mod with anyFenced := true } } .fenced)
  else .refused .eventNotEnabled

end Sys2Proof.Machine
end

