-- ==== Sys2Proof/Machine/Cellar.lean ====
section
/-! DEFINITION. The cellar: the layout of a core's record (R317, R318), and the save that writes it (R315, R316, R321). -/

namespace Sys2Proof.Machine

/-! ### Sections of a core record (R318) -/

/-- A section: its 8-byte header and its contents. -/
def recSection (type ctx index : Nat) (contents : List Byte) : List Byte :=
  leBytes 2 type ++ leBytes 1 ctx ++ leBytes 1 index ++ leBytes 4 (8 + contents.length) ++ contents

/-- The numbers below n that a predicate holds for. -/
def named (n : Nat) (p : Nat → Bool) : List Nat := (List.range n).filter p

/-- Whether a saved context keeps g register i: named, or pending (R315). -/
def keepsG (x : Ctx) (i : Nat) : Bool := (liveOf x).named 0 2 i || ((x.pend.toList.getD i none).isSome)

/-- Whether a saved context keeps handle i: named, or the target of a saved job (R315). -/
def keepsH (r : SavedCore) (c : Fin 8) (x : Ctx) (i : Nat) : Bool :=
  (liveOf x).named 3 1 i || ((jobHandles c r.jobs).map fun h => h.val).contains i

/-- The descriptor of what a context's record holds, in R122's layout (log 63). -/
def effectiveDesc (r : SavedCore) (c : Fin 8) (x : Ctx) : List Byte :=
  let l := liveOf x
  leBytes 2 (maskOf 16 fun i => decide (i ≠ 0) && keepsG x i) ++ leBytes 1 (maskOf 8 (l.named 2 1)) ++
    leBytes 1 (maskOf 8 (keepsH r c x)) ++ leBytes 4 (maskOf 32 (l.named 4 4)) ++
    (if l.all then leBytes 1 0x1F ++ List.replicate 7 0 ++ leBytes 4 (2048 * 2 ^ 16) ++ List.replicate 12 0
     else (l.desc.drop 8).take 24)

/-- STATE: how a saved context stands (R318). -/
def stateCode (r : SavedCore) (x : Ctx) : Nat :=
  match x.parked with
  | some (.phint _) => 0
  | some .yielded => 1
  | some .forced => 5
  | _ => if sleeping x then 2 else if r.core.frozen then 3 else 2

/-- Section 1 but for the registers, with a descriptor and a state. -/
def contextHead (x : Ctx) (desc : List Byte) (st : Nat) : List Byte :=
  leBytes 8 x.pc.toNat ++ desc ++ (x.st.toList.map fun w => leBytes 4 w.toNat).flatten ++
    leBytes 2 (maskOf 16 fun i => (x.pend.toList.getD i none).isSome) ++ leBytes 1 st ++
    leBytes 2 (maskOf 16 fun i => match x.pend.toList.getD i none with
      | some j => x.deps.any fun p => decide (p.job = j)
      | none => false) ++ List.replicate 3 0

/-- A binding's contents (type 3). -/
def bindingBytes (g : GBinding) : List Byte :=
  g.desc.take 64 ++ leBytes 1 (LiftOp.code g.op) ++ leBytes 1 (if g.reassoc then 1 else 0) ++ leBytes 2 g.n ++ leBytes 2 g.c ++
    List.replicate 2 0 ++ (g.rank.map (leBytes 4)).flatten

/-- The bindings of a context's record: those named, then saved grammar jobs' own copies (R269, R315). -/
def savedBindings (r : SavedCore) (c : Fin 8) (x : Ctx) : List (Nat × GBinding) :=
  let own := (List.range 4).filterMap fun i => (x.y.toList.getD i none).map fun g => (i, g)
  let jobs := r.jobs.filterMap fun j => if j.ctx = c ∧ j.remote = none then
    (match cmdGram j.cmd, j.binding with
     | some y, some g => some (y.val, g)
     | _, _ => none) else none
  own ++ (jobs.filter fun b => !own.contains b).eraseDups

/-- The sections of one context (types 1 to 4); of a lost one section 1 alone, with STATE 4 (R321). -/
def contextSections (r : SavedCore) (c : Fin 8) : List (List Byte) :=
  let x := r.ctxs[c.val]'c.isLt
  if !x.live then [] else if r.lost.contains c then [recSection 1 c.val 0 (contextHead x (List.replicate 32 0) 4)] else
    let vl := (liveOf x).named 4 4
    let regs := ((named 16 fun i => decide (i ≠ 0) && keepsG x i).map fun i => leBytes 8 (x.g.toList.getD i 0).toNat) ++
      ((named 8 ((liveOf x).named 2 1)).map fun i => leBytes 32 (x.k.toList.getD i 0).toNat) ++
      ((named 4 fun i => vl (20 + i)).map fun i => leBytes 32 (x.l.toList.getD i 0).toNat) ++
      ((named 20 vl).map fun i => leBytes 32 (x.v.toList.getD i 0).toNat)
    let hs := named 8 (keepsH r c x)
    [recSection 1 c.val 0 (contextHead x (effectiveDesc r c x) (stateCode r x) ++ regs.flatten)] ++
      (if hs.isEmpty then [] else [recSection 2 c.val 0 (hs.map fun i => handleBytes (x.h.toList.getD i none)).flatten]) ++
      ((savedBindings r c x).map fun b => recSection 3 c.val b.1 (bindingBytes b.2)) ++
      (List.range 4).filterMap fun i => match x.q.toList.getD i .unbound with
        | .bound n m a => some (recSection 4 c.val i (leBytes 2 n ++ leBytes 2 m ++ leBytes 4 a ++ Memory.bytes r.mem a (4 * n)))
        | _ => none

/-- Whether some saved context's descriptor names bit i of AMASK; a lost one's names nothing (R321). -/
def savedAmask (r : SavedCore) (i : Nat) : Bool :=
  slots.any fun c => (r.ctxs[c.val]'c.isLt).live && !r.lost.contains c && (liveOf (r.ctxs[c.val]'c.isLt)).named 8 1 i

/-- An accumulator's section (type 5). -/
def accSection (r : SavedCore) (i : Fin 4) : List Byte :=
  let a := r.core.acc[i.val]'i.isLt
  recSection 5 0 i.val (leBytes 1 ((if a.unverified then 1 else 0) + (if a.poisoned then 2 else 0)) ++ List.replicate 7 0 ++
    Memory.bytes r.mem (accLoc + 0x400 * i.val) 0x400 ++ Memory.bytes r.mem (boltLoc (64 + i.val)) 256)

/-- The scratchpad ranges of the record: those that descriptors name and the rings of saved jobs' handles. -/
def recordRanges (r : SavedCore) : List (Nat × Nat) :=
  (slots.map fun c =>
    let x := r.ctxs[c.val]'c.isLt
    let l := liveOf x
    if !x.live || r.lost.contains c then [] else if l.all then [(0, spadSize)] else
      liveRanges l.desc ++ (jobHandles c r.jobs).filterMap fun h => (x.h[h.val]'h.isLt).map fun y => (y.base, y.size * y.count)).flatten

/-- Runs of consecutive 32-byte pieces of scratchpad in a union of ranges, lowest first: start and length in bytes. -/
def mergedRuns (rs : List (Nat × Nat)) : List (Nat × Nat) :=
  if rs.isEmpty then [] else ((List.range (spadSize / 32)).foldr (fun i acc =>
    if inRanges rs (32 * i) then
      match acc with
      | (a, n) :: t => if a = 32 * i + 32 then (32 * i, n + 32) :: t else (32 * i, 32) :: acc
      | [] => [(32 * i, 32)]
    else acc) [])

/-- A scratchpad range's section (type 6): bytes, tags and block descriptors. -/
def rangeSection (r : SavedCore) (a n : Nat) : List Byte :=
  recSection 6 0 0 (leBytes 4 a ++ leBytes 4 n ++ Memory.bytes r.mem a n ++
    leBytes (n / 32) (maskOf (n / 4) fun i => r.tags.contains (a / 4 + i)) ++
    ((List.range ((a + n + 63) / 64 - a / 64)).map fun i =>
      leBytes 2 (sparseGet (fun _ => 0) r.descs (a / 64 + i)).toNat).flatten)

/-- The core state's section (type 7). -/
def coreSection (k : CoreRegs) : List Byte :=
  let watch (e : Option WatchEntry) : List Byte := match e with
    | some e => leBytes 8 (e.addr.toNat % 2 ^ 56 + e.owner.val * 2 ^ 56 + 2 ^ 63)
    | none => List.replicate 8 0
  let tile (i : Nat) : List Byte := match k.tiles.toList.getD i none with
    | some t => leBytes 4 t.off ++ leBytes 1 t.fmt ++ leBytes 1 i ++ List.replicate 2 0
    | none => List.replicate 8 0
  recSection 7 0 0 (([k.liveBase, k.xringBase, k.xringSize, k.xspillBase, k.xspillSize, k.tolWide, k.tolNarrow, k.gamma].map
      fun w => leBytes 8 w.toNat).flatten ++
    (k.watch.toList.map watch).flatten ++ ((List.range 64).map tile).flatten)

/-- A saved job's section (type 8). -/
def jobSection (i : Nat) (j : Job) : List Byte :=
  recSection 8 j.ctx.val (i % 256) (leBytes 1 j.sreg.val ++ leBytes 1 (cmdEngine j.cmd).unitNum ++ List.replicate 6 0 ++
    leBytes 4 j.word.toNat ++ leBytes 4 (j.word.toNat / 2 ^ 22) ++ leBytes 8 j.a.toNat ++ leBytes 8 j.b.toNat ++ leBytes 8 j.done ++
    (j.record ++ List.replicate 32 0).take 32)

/-- The neuron bank's section (type 9); events that came late for a closed step are pending too (R299). -/
def bankSection (r : SavedCore) (b : Bank) : List Byte :=
  recSection 9 0 0 (Memory.bytes r.mem neuronLoc 0x10000 ++ (b.config ++ List.replicate 576 0).take 576 ++ leBytes 4 b.c ++
    leBytes 4 b.outPos ++ leBytes 4 (b.pending ++ b.tardy).length ++ List.replicate 4 0 ++
    ((b.pending ++ b.tardy).map fun e => leBytes 8 e.ev.word.toNat ++ leBytes 8 (Config.eventSource e.ev.srcBank e.ev.srcNeur).toNat).flatten)

/-- The sections of a core record in order, with the section of type 0 that ends it. -/
def recordSections (r : SavedCore) : List (List Byte) :=
  (slots.map (contextSections r)).flatten ++
    (([0, 1, 2, 3] : List (Fin 4)).filter fun i => savedAmask r i.val).map (accSection r) ++
    ((mergedRuns (recordRanges r)).map fun a => rangeSection r a.1 a.2) ++ [coreSection r.core] ++
    (r.jobs.zipIdx.map fun j => jobSection j.2 j.1) ++
    (match r.bank with
     | some b => [bankSection r b]
     | none => []) ++ [recSection 0 0 0 []]

/-- The offsets of sections, each at a 64-byte boundary, and where the last ends. -/
def placed : Nat → List (List Byte) → List (Nat × List Byte) × Nat
  | e, [] => ([], e)
  | e, b :: r =>
    let o := (e + 63) / 64 * 64
    let t := placed (o + b.length) r
    ((o, b) :: t.1, t.2)

/-! ### The cellar (R317) -/

/-- Bytes stored into a job's cellar, as far as it reaches. -/
def cellarStore (s : State) (j : JobEntry) (off : Nat) (bs : List Byte) : State :=
  store s (hbmLoc + j.cellar + off) (bs.take (j.cellarLen - off))

/-- Where the records of a cellar lie, from the end of what precedes them; the gap before each is free (log 63). -/
def recordPlaces : Nat → Nat → List SavedCore → List (Nat × List (Nat × List Byte)) × Nat
  | _, e, [] => ([], e)
  | i, e, r :: rs =>
    let o := (e + 63) / 64 * 64 + 64 * (Config.cellarGap i % 64)
    let p := placed 0 (recordSections r)
    let t := recordPlaces (i + 1) (o + p.2) rs
    ((o, p.1) :: t.1, t.2)

/-- Whether a record is of a launch of a job, and that launch's number. -/
def recordLaunch (s : State) (job : Nat) (r : SavedCore) : Option Nat :=
  match s.mod.launches.find? fun l => decide (r.core.launch = some l.id) with
  | some l => if l.job = job then some l.seq else none
  | none => none

/-- The cellar of a job written anew: its header, the table of its saved cores and their records (R317). -/
def writeCellar (s : State) (job : Nat) : State :=
  match jobEntry s job with
  | none => s
  | some j =>
    let mine := s.saved.filter fun r => (recordLaunch s job r).isSome
    let table := 64 + 64 * (Config.cellarGap 0 % 64)
    let p := recordPlaces 1 (table + 16 * mine.length) mine
    let lost := mine.any fun r => !r.lost.isEmpty
    let head := leBytes 4 1 ++ leBytes 4 mine.length ++ leBytes 8 s.mod.tick.toNat ++ leBytes 8 table ++ leBytes 8 p.2 ++
      leBytes 8 (1 + (if lost then 2 else 0)) ++ List.replicate 24 0
    let entries := (mine.zip p.1).map fun q =>
      leBytes 4 q.1.core.lid ++ leBytes 4 ((recordLaunch s job q.1).getD 0) ++ leBytes 8 q.2.1
    let s := cellarStore (cellarStore s j 0 head) j table entries.flatten
    p.1.foldl (fun s q => q.2.foldl (fun s b => cellarStore s j (q.1 + b.1) b.2) s) s

/-! ### Saving (R315, R316, R321) -/

/-- CORE_SAVE (R315, R316): a pre-emptible core whose draining jobs have ended is written to the cellar, and is free. Every queued
full/empty request of the launch is withdrawn, those of its other cores at this core's words too (R187, R315); the park orders what was
written before (R207). -/
def execCoreSave (s : State) : Out :=
  if s.core.preempt && preemptible s && s.core.launch.isSome && !s.core.fenced &&
      !s.clu.jobs.any (drains s) then
    let job := curJobId s
    let r := recordCore s
    let t := leaveLines (settle (withdrawPubls s)) job
    let t := freeCore { t.tickChoice with saved := s.saved ++ [r], feQueue := [],
                                          clu := { t.clu with jobs := [], bank := { Bank.reset with held := t.clu.bank.held } } }
    .next (writeCellar { t with core := { t.core with saving := true } } job)
  else .refused .eventNotEnabled

/-- The maps of the reef handles that a record keeps (R296). -/
def recordMaps (r : SavedCore) : List (Nat × Nat) :=
  (slots.map fun c => if r.lost.contains c then [] else
    (r.ctxs[c.val]'c.isLt).q.toList.filterMap fun q => match q with
      | .bound n _ a => some (a, 4 * n)
      | _ => none).flatten

/-- The context of an abandoned save: of its record stands what section 1 gives (R318, R321). -/
def lostCtx (x : Ctx) : Ctx :=
  { Ctx.idle with live := x.live, pc := x.pc, st := x.st, pend := x.pend, deps := x.deps, q := Vector.replicate 4 .lost,
                  insn := x.insn, packet := x.packet, stopped := x.stopped }

/-- A record with a context's partial record discarded: its registers, its handles and bindings, and whatever of the core no other
context's descriptor names (R315, R321). -/
def discardCtx (s : State) (r : SavedCore) (c : Fin 8) : SavedCore :=
  let r := { r with lost := r.lost ++ [c], ctxs := r.ctxs.set c.val (lostCtx (r.ctxs[c.val]'c.isLt)) c.isLt }
  let rs := recordRanges r ++ recordMaps r
  let acc (i : Nat) : Bool := savedAmask r i
  let bank := savedAmask r 4 || Config.neighbourNames s.choice
  { r with
    core := { r.core with
      acc := Vector.ofFn fun i : Fin 4 => if acc i.val then r.core.acc[i.val]'i.isLt else { unverified := false, poisoned := false } }
    mem := r.mem.filter fun e =>
      (decide (e.1 < spadSize) && inRanges rs e.1) ||
      ((List.range 4).any fun i => acc i &&
        ((decide (accLoc + 0x400 * i ≤ e.1) && decide (e.1 < accLoc + 0x400 * i + 0x400)) ||
         (decide (boltLoc (64 + i) ≤ e.1) && decide (e.1 < boltLoc (65 + i))))) ||
      (bank && decide (neuronLoc ≤ e.1) && decide (e.1 < neuronLoc + 0x10000))
    descs := r.descs.filter fun d => savedBlock rs d.1
    tags := r.tags.filter fun w => inRanges rs (4 * w)
    poison := r.poison.filter fun g =>
      if 8 * g < spadSize then rs.any fun x => decide (x.1 < 8 * g + 8) && decide (8 * g < x.1 + x.2)
      else if tagGranule 0 ≤ g ∧ g < tagGranule (spadSize / 4) then inRanges rs (4 * (g - tagGranule 0))
      else (List.range 4).any fun i => acc i && decide (boltLoc (64 + i) ≤ 8 * g) && decide (8 * g < boltLoc (65 + i))
    badParity := r.badParity.filter (savedBlock rs)
    bank := if bank then r.bank else none }

/-- SAVE_CAP_EXPIRY (R321): a context's save took too long and is abandoned; its record says STATE 4. -/
def execSaveCapExpiry (c : Fin 8) (s : State) : Out :=
  match s.saved.getLast? with
  | none => .refused .eventNotEnabled
  | some r =>
    if s.core.saving && (r.ctxs[c.val]'c.isLt).live && !r.lost.contains c then
      let t := { s.tickChoice with saved := s.saved.dropLast ++ [discardCtx s r c] }
      .next (match s.mod.launches.find? fun l => decide (r.core.launch = some l.id) with
        | some l => writeCellar t l.job
        | none => t)
    else .refused .eventNotEnabled

end Sys2Proof.Machine
end

