-- ==== Sys2Proof/Machine/Cipher.lean ====
section
/-! DEFINITION. AES-256 (FIPS 197) and its XTS mode (IEEE 1619) over the 64-byte beats of a protected page (R291; log 19). -/

namespace Sys2Proof.Machine

/-! ### The field of 256 elements -/

/-- Doubling modulo x^8 + x^4 + x^3 + x + 1. -/
def xtime (b : Byte) : Byte := (b <<< 1) ^^^ (if b.msb then 0x1B else 0)

/-- Multiplication. -/
def gfMul (a b : Byte) : Byte :=
  ((List.range 8).foldl (fun (t : Byte × Byte) i => (if b.getLsbD i then t.1 ^^^ t.2 else t.1, xtime t.2)) (0, a)).1

/-- The inverse, 0 for 0: the 254th power. -/
def gfInv (a : Byte) : Byte :=
  ((List.range 7).foldl (fun (t : Byte × Byte) _ => let q := gfMul t.2 t.2; (gfMul t.1 q, q)) (1, a)).1

/-- The substitution of a byte, and its inverse. -/
def sBox (b : Byte) : Byte :=
  let c := gfInv b
  c ^^^ c.rotateLeft 1 ^^^ c.rotateLeft 2 ^^^ c.rotateLeft 3 ^^^ c.rotateLeft 4 ^^^ 0x63
def invSBox (b : Byte) : Byte := gfInv (b.rotateLeft 1 ^^^ b.rotateLeft 3 ^^^ b.rotateLeft 6 ^^^ 0x05)

/-! ### Rounds, over 16 bytes in the cipher's column order -/

/-- Bytes combined one by one. -/
def xorBytes (a b : List Byte) : List Byte := List.zipWith (· ^^^ ·) a b

/-- The rows rotated: byte r of column c comes from column c + k r. -/
def shiftRows (k : Nat) (b : List Byte) : List Byte :=
  (List.range 16).map fun i => b.getD (4 * ((i / 4 + k * (i % 4)) % 4) + i % 4) 0

/-- The columns multiplied by the circulant matrix whose first row is given. -/
def mixColumns (m : List Byte) (b : List Byte) : List Byte :=
  (List.range 16).map fun i =>
    (List.range 4).foldl (fun t k => t ^^^ gfMul (m.getD k 0) (b.getD (i / 4 * 4 + (i + k) % 4) 0)) 0

/-- Word i of a key schedule from the words before it. -/
def keyWord (ws : List (List Byte)) (i : Nat) : List Byte :=
  let t := ws.getD (i - 1) []
  let sub := t.map sBox
  let rcon : Byte := 1 <<< (i / 8 - 1)
  let t := if i % 8 = 0 then xorBytes (sub.drop 1 ++ sub.take 1) [rcon, 0, 0, 0] else if i % 8 = 4 then sub else t
  xorBytes (ws.getD (i - 8) []) t

/-- The fifteen round keys of a key of 32 bytes. -/
def roundKeys (key : List Byte) : List (List Byte) :=
  let ws := (List.range 52).foldl (fun ws i => ws ++ [keyWord ws (i + 8)])
    ((List.range 8).map fun i => (key.drop (4 * i)).take 4)
  (List.range 15).map fun r => ((ws.drop (4 * r)).take 4).flatten

/-- One block enciphered. -/
def aesEncrypt (ks : List (List Byte)) (b : List Byte) : List Byte :=
  let mid := (List.range 13).foldl
    (fun t r => xorBytes (mixColumns [2, 3, 1, 1] (shiftRows 1 (t.map sBox))) (ks.getD (r + 1) [])) (xorBytes b (ks.getD 0 []))
  xorBytes (shiftRows 1 (mid.map sBox)) (ks.getD 14 [])

/-- One block deciphered. -/
def aesDecrypt (ks : List (List Byte)) (b : List Byte) : List Byte :=
  let mid := (List.range 13).foldl
    (fun t r => mixColumns [14, 11, 13, 9] (xorBytes ((shiftRows 3 t).map invSBox) (ks.getD (13 - r) []))) (xorBytes b (ks.getD 14 []))
  xorBytes ((shiftRows 3 mid).map invSBox) (ks.getD 0 [])

/-! ### XTS (R291) -/

/-- A tweak multiplied by the primitive element of the field of 2^128 elements. -/
def tweakNext (t : Nat) : Nat := (2 * t % 2 ^ 128) ^^^ (if 2 ^ 127 ≤ t then 0x87 else 0)

/-- A 64-byte beat through a block cipher in XTS mode: the key's first half works on the data, its second on the tweak, which is the
beat's physical address (R291). -/
def xts (cipher : List (List Byte) → List Byte → List Byte) (key : List Byte) (addr : Nat) (beat : List Byte) : List Byte :=
  let ks := roundKeys (key.take 32)
  let t0 := leNat (aesEncrypt (roundKeys (key.drop 32)) (leBytes 16 addr))
  ((List.range 4).foldl (fun (t : List Byte × Nat) i =>
      let w := leBytes 16 t.2
      (t.1 ++ xorBytes (cipher ks (xorBytes ((beat.drop (16 * i)).take 16) w)) w, tweakNext t.2)) ([], t0)).1

/-- A beat of a protected page as memory stores it, and a stored one as the job reads it. -/
def xtsEncrypt (key : List Byte) (addr : Nat) (beat : List Byte) : List Byte := xts aesEncrypt key addr beat
def xtsDecrypt (key : List Byte) (addr : Nat) (beat : List Byte) : List Byte := xts aesDecrypt key addr beat

end Sys2Proof.Machine
end

