-- ==== Sys2Proof/Machine/Launch.lean ====
section
/-! DEFINITION. The launch unit (R331 to R337, R348): launch queues and packets, launch domains, gangs, the preparation of
a core, completion records; and the sharing of a die (R323) and the end of a kill (R322). -/

namespace Sys2Proof.Machine

/-! ### Queues (R286, R331, R358) -/

/-- A queue changed. -/
def setQueue (s : State) (q : LaunchQueue) : State :=
  { s with mod := { s.mod with queues := s.mod.queues.map fun p => if p.hdr = q.hdr ∧ p.job = q.job then q else p } }

/-- ERR bits set (R342). -/
def setErr (s : State) (bit : Nat) : State := { s with mod := { s.mod with errReg := s.mod.errReg ||| BitVec.ofNat 64 (2 ^ bit) } }

/-- The index of the slot that a queue waits at. -/
def QHeader.slotAddr (q : QHeader) : Nat := q.slots + 64 * (q.ridx % max 1 q.size)

/-- The sequence number that makes that slot valid (R286). -/
def QHeader.seq (q : QHeader) : Nat := (q.ridx + 1) % 2 ^ 32

/-- What the launch unit meets at the head of a queue (R331). -/
inductive Head where
  | nothing
  | broken
  | packet (h : QHeader) (raw : List Byte)

/-- The head of a launch queue: nothing where a translation fails or the slot is not valid. -/
def queueHead (s : State) (q : LaunchQueue) : Head :=
  match jobRead s q.job q.hdr 64 with
  | none => .nothing
  | some hb =>
    let h := qHeader hb
    if !h.ok then .broken else
      match jobRead s q.job h.slotAddr 64 with
      | none => .nothing
      | some raw => if rfield raw 0 4 = h.seq then .packet h raw else .nothing

/-- A packet is taken: RIDX, then ACCSEQ (R331). -/
def takeSlot (s : State) (q : LaunchQueue) (h : QHeader) : State :=
  let s := jobWrite s q.job (q.hdr + 8) (leBytes 8 (h.ridx + 1)) true
  jobWrite s q.job (q.hdr + 0x20) (leBytes 4 h.seq) true

/-- The largest completed sequence number and what is left of those completed out of order (R332). -/
def advanceDone : Nat → Nat → List Nat → Nat × List Nat
  | 0, d, l => (d, l)
  | n + 1, d, l =>
    let e := (d + 1) % 2 ^ 32
    if l.contains e then advanceDone n e (l.erase e) else (d, l)

/-- A completion record written: RESULT, REASON and TICK, then CSEQ (R332). -/
def writeRecord (s : State) (job compl seq result reason : Nat) : State :=
  let s := observeTick s
  let s := jobWrite s job (compl + 4) (leBytes 1 result ++ leBytes 1 reason ++ [0, 0] ++ leBytes 8 s.mod.tick.toNat)
  jobWrite s job compl (leBytes 4 seq) true

/-- A packet's completion (R332): its record, then DONESEQ, then the message that the queue's registration names. -/
def completePacket (s : State) (hdr job compl seq result reason : Nat) : State :=
  let s := writeRecord s job compl seq result reason
  match s.mod.queues.find? fun q => decide (q.hdr = hdr) && decide (q.job = job), jobRead s job (hdr + 0x24) 4 with
  | some q, some db =>
    let d := leNat db
    let r := advanceDone (q.done.length + 1) d (q.done ++ [seq])
    let s := setQueue s { q with done := r.2 }
    if r.1 = d then s else
      let s := jobWrite s job (hdr + 0x24) (leBytes 4 r.1) true
      match q.msix with
      | some v => { s with mod := { s.mod with msix := s.mod.msix ++ [v] } }
      | none => s
  | _, _ => s

/-! ### Domains (R19, R334, R335) -/

/-- The clusters of a rectangle entry, or none where it breaks R334. DESIGN CHOICE (log 107): one of 0 rows or 0 columns breaks it. -/
def rectClusters (e : List Byte) : Option (List Nat) :=
  let d := rfield e 0 1
  let r0 := rfield e 1 1
  let c0 := rfield e 2 1
  let rows := rfield e 3 1
  let cols := rfield e 4 1
  if rfield e 5 3 = 0 ∧ d < 12 ∧ 0 < rows ∧ 0 < cols ∧ r0 + rows ≤ 108 ∧ c0 + cols ≤ 64 then
    some ((List.range rows).map fun r => (List.range cols).map fun c => bankNumber d ((r0 + r) * 64 + c0 + c)).flatten
  else none

/-- The cores of a cluster that may be used, in order. -/
def clusterCores (s : State) (k : Nat) : List (BitVec 32) :=
  ((List.range 8).filter fun c => coreUsable s (k / 6912) (k % 6912) c).map fun c =>
    pidWord (k / 6912) (k % 6912 / 64) (k % 64) c

/-- The cores of rectangles in R19's order, or none where they break R334: two may not share a cluster. -/
def rectCores (s : State) (es : List (List Byte)) : Option (List (BitVec 32)) :=
  let cs := es.map rectClusters
  if cs.any Option.isNone then none else
    let all := (cs.filterMap id).flatten
    let sorted := all.foldl setInsert []
    if sorted.length ≠ all.length then none else some (sorted.map (clusterCores s)).flatten

/-- Whether a table entry names a usable core (R19, R334). -/
def entryUsable (s : State) (e : Nat) : Bool :=
  let p := pidParts e
  decide (e % 2 ^ 12 = 0) && decide (p.1 < 12) && decide (p.2.1 < 108) && coreUsable s p.1 (p.2.1 * 64 + p.2.2.1) p.2.2.2

/-- No number twice. -/
def distinct (l : List Nat) : Bool := decide ((l.foldl setInsert []).length = l.length)

/-- Runs of `n` bytes. -/
def chunks (n : Nat) : Nat → List Byte → List (List Byte)
  | 0, _ => []
  | k + 1, l => l.take n :: chunks n k (l.drop n)

/-- The dies that a domain record names, by entry (R334). -/
def domainDies (table : Bool) (count : Nat) (entries : List Byte) : List Nat :=
  if table then (chunks 4 count entries).map fun e => bits (leNat e) 28 4 else (chunks 8 count entries).map fun e => rfield e 0 1

/-- Whether a scratchpad image lies in device memory, 64-byte aligned and within its length's limits, or is none (R334). -/
def imageOk (img len : Nat) : Bool :=
  decide (len % 64 = 0) && decide (len ≤ spadSize) && decide (img % 64 = 0) &&
    (decide (img = 0) || (decide (regionOf img = .hbm) && decide (img + len ≤ regionEnd .hbm)))

/-- Whether a page that holds an address of a job lies in device memory, as far as it is mapped. -/
def deviceMapped (s : State) (job va : Nat) : Bool := (jobWalk s job va).all fun l => !l.host

/-- The cores that a domain record yields, in logical order (R19, R334, R336 reason 4). -/
def domainCores (s : State) (table : Bool) (count : Nat) (entries : List Byte) : Option (List (BitVec 32)) :=
  if table then
    let es := (chunks 4 count entries).map leNat
    if es.all (entryUsable s) && distinct es then some (es.map fun e => BitVec.ofNat 32 e) else none
  else rectCores s (chunks 8 count entries)

/-- The mesh position of a core (R8). -/
def meshPos (p : BitVec 32) : Nat × Nat :=
  let q := pidParts p.toNat
  (216 * (q.1 / 4) + 2 * q.2.1 + q.2.2.2 / 4, 256 * (q.1 % 4) + 4 * q.2.2.1 + q.2.2.2 % 4)

/-- The hops between two cores (R313). -/
def hops (p q : BitVec 32) : Nat :=
  let a := meshPos p
  let b := meshPos q
  (a.1 - b.1) + (b.1 - a.1) + ((a.2 - b.2) + (b.2 - a.2))

/-! ### Acceptance (R333, R336) -/

/-- The terms of reason 1. -/
def packetOk (raw : List Byte) : Bool :=
  let f := rfield raw 4 4
  let b := bits f 9 13
  decide (f % 8 = 1) && decide (f / 2 ^ 22 = 0) && decide (1 ≤ b) && decide (b ≤ 4096) && decide (bits f 7 2 ≠ 3) &&
    decide (1 ≤ rfield raw 0x10 4) && decide (rfield raw 8 8 % 2 = 0) && decide (rfield raw 0x28 8 % 32 = 0) &&
    decide (rfield raw 0x38 8 % 8 = 0) && (bit f 5 || decide (rfield raw 0x30 8 = 0))

/-- A feature that the driver has accepted (R343). -/
def accepted (s : State) (i : Nat) : Bool := (s.mod.featAcc[0]).getLsbD i

/-- A packet's launch, or the reason for which it is rejected: the tests of R336 in order. DESIGN CHOICE (log 108): a DOMAIN that is not
32-byte aligned is reason 4, and one outside device memory reason 9; a SPADIMG whose first byte lies on a page with HOST set is reason 4,
and a DOMAIN on such a page is read there. -/
def acceptLaunch (s : State) (q : LaunchQueue) (seq : Nat) (raw : List Byte) : Except Nat Launch :=
  let f := rfield raw 4 4
  let groups := rfield raw 0x10 4
  let start := rfield raw 0x30 8
  let da := rfield raw 0x18 8
  if !packetOk raw then .error 1
  else if rfield raw 0x14 4 ≠ q.job then .error 2
  else if (bit f 4 && !accepted s 5) || (bit f 5 && !accepted s 9) then .error 3
  else if da % 32 ≠ 0 then .error 4
  else match (if regionOf da = .hbm then jobRead s q.job da 32 else none) with
    | none => .error 9
    | some d =>
      let count := rfield d 4 4
      let gang := rfield d 8 8
      let img := rfield d 0x10 8
      let len := rfield d 0x18 4
      if gang ≠ 0 ∧ accepted s 8 = false then .error 3
      else if rfield d 0 1 ≠ (if bit f 6 then 2 else 1) ∨ rfield d 1 3 ≠ 0 ∨ count = 0 ∨ rfield d 0x1C 4 ≠ 0 ∨
          imageOk img len = false ∨ 12 * 55296 < count then .error 4
      else match jobRead s q.job (da + 32) (count * (if bit f 6 then 4 else 8)) with
        | none => .error 9
        | some es =>
          match domainCores s (bit f 6) count es with
          | none => .error 4
          | some cores =>
            let n := if bit f 4 then cores.length / 2 else cores.length
            let unserved := (domainDies (bit f 6) count es).any fun d => !bit q.dies d
            let onHost := decide (img ≠ 0) && !deviceMapped s q.job img
            if n = 0 || (bit f 4 && decide (cores.length % 2 = 1)) || unserved || onHost then .error 4
            else if bit f 3 ∧ n < groups then .error 5
            else if bit f 4 && (List.range n).any (fun i => decide (hops (cores.getD i 0) (cores.getD (n + i) 0) < 4)) then .error 6
            else if bit f 5 ∧ start ≤ s.mod.tick.toNat then .error 7
            else match (if gang = 0 then some [] else jobRead s q.job gang 32), (if img = 0 then some [] else jobRead s q.job img len) with
              | some gb, some _ =>
                .ok { id := s.mod.nextId, queue := q.hdr, job := q.job, seq := seq, entry := BitVec.ofNat 64 (rfield raw 8 8),
                      groups := groups, arg := BitVec.ofNat 64 (rfield raw 0x20 8), live := BitVec.ofNat 64 (rfield raw 0x28 8),
                      startTick := if bit f 5 then some start else none, compl := rfield raw 0x38 8, policy := bits f 7 2,
                      block := bits f 9 13, paired := bit f 4, domain := cores, n := n, image := img, imageLen := len,
                      gang := (List.range 256).filter fun m => bit (leNat gb) m, accepted := [], granted := false,
                      started := false, ended := false, result := none }
              | _, _ => .error 9

/-- A queue that the launch unit consumes (R331, R346). -/
def consumedQueue (s : State) (i : Nat) : Option LaunchQueue :=
  match s.mod.queues[i]? with
  | some q => if q.live && !q.stopped && !s.mod.frozen then some q else none
  | none => none

/-- A queue whose header is not well formed is consumed no further (R331). -/
def stopQueue (s : State) (q : LaunchQueue) : State := setErr (setQueue s { q with stopped := true }) 3

/-- A message to every other member of a gang (R337). -/
def gangMessages (s : State) (l : Launch) (value : Nat) : List (Nat × Nat) :=
  (l.gang.filter fun m => decide (m ≠ s.mod.modnum)).map fun m => (m, value)

/-- Whether a launch that arrives asks this core at once to make room: it comes from a priority-3 queue, and the core works for a launch
of a lower priority (R323). -/
def urgent (s : State) (q : LaunchQueue) (l : Launch) : Bool :=
  decide (q.prio = 3) && l.domain.contains (corePid s) && (curLaunch s).any fun k => decide (launchPrio s k < 3)

/-- LAUNCH_PACKET (R331, R336): the next packet of a queue is accepted or rejected; a broken header stops the queue. -/
def execLaunchPacket (q : Nat) (s : State) : Out :=
  match consumedQueue s q with
  | none => .refused .eventNotEnabled
  | some q =>
    match queueHead s q with
    | .nothing => .refused .eventNotEnabled
    | .broken => .next (stopQueue s q)
    | .packet h raw =>
      if rfield raw 4 4 % 8 = 0 then .refused .eventNotEnabled else
        let s := observeTick s
        match acceptLaunch s q h.seq raw with
        | .ok l =>
          let s := if urgent s q l then { s with core := { s.core with preempt := true } } else s
          let s := { s with mod := { s.mod with launches := s.mod.launches ++ [l], nextId := s.mod.nextId + 1,
                                                messages := s.mod.messages ++ gangMessages s l l.seq,
                                                outbox := s.mod.outbox ++ (gangMessages s l l.seq).map fun m => (4, m.1, m.2) } }
          .next (takeSlot s q h)
        | .error r => .next (takeSlot (completePacket s q.hdr q.job (rfield raw 0x38 8) h.seq 1 r) q h)

/-- LAUNCH_NOOP_PACKET (R333): a no-op is accepted and completes at once, or is rejected for a byte that must be 0. -/
def execLaunchNoopPacket (q : Nat) (s : State) : Out :=
  match consumedQueue s q with
  | none => .refused .eventNotEnabled
  | some q =>
    match queueHead s q with
    | .packet h raw =>
      if rfield raw 4 4 % 8 ≠ 0 then .refused .eventNotEnabled else
        let ok := decide (rfield raw 4 4 = 0) && decide (rfield raw 8 48 = 0) && decide (rfield raw 0x38 8 % 8 = 0)
        .next (takeSlot (completePacket s q.hdr q.job (rfield raw 0x38 8) h.seq (if ok then 0 else 1) (if ok then 0 else 1)) q h)
    | _ => .refused .eventNotEnabled

/-! ### Preparing a core (R28, R337) -/

/-- CORE_GRANT (R323, R337): a core of the domain that is free is granted, where no other launch is served first, and prepared; without
a start tick the launch starts. DESIGN CHOICE (log 109): so does one with a gang, without the other members' acceptances. -/
def execCoreGrant (l : Nat) (s : State) : Out :=
  match s.mod.launches.find? fun k => decide (k.id = l) with
  | none => .refused .eventNotEnabled
  | some l =>
    let i := l.domain.idxOf (corePid s)
    if s.core.launch.isSome || s.core.fenced || l.ended || l.granted || s.mod.frozen || decide (l.domain.length ≤ i) ||
        !mayServe s l then
      .refused .eventNotEnabled
    else
      let t := prepareCore s l (i % l.n)
      .next (setLaunch t { l with granted := true, started := l.started || l.startTick.isNone })

/-! ### Starting and gangs (R337) -/

/-- Time has come to a tick. -/
def reachTick (s : State) (t : Nat) : State :=
  { s with mod := { s.mod with tick := if s.mod.tick.toNat < t then BitVec.ofNat 64 t else s.mod.tick } }

/-- Whether every other member's acceptance has come. -/
def gangReady (s : State) (l : Launch) : Bool := l.gang.all fun m => decide (m = s.mod.modnum) || l.accepted.contains m

/-- LAUNCH_STARTTICK (R337): STARTTICK is reached and the groups start. -/
def execLaunchStarttick (l : Nat) (s : State) : Out :=
  match s.mod.launches.find? fun k => decide (k.id = l) with
  | none => .refused .eventNotEnabled
  | some l =>
    match l.startTick with
    | none => .refused .eventNotEnabled
    | some t =>
      if l.started || l.ended || s.mod.frozen || !gangReady s l then .refused .eventNotEnabled
      else .next (setLaunch (reachTick s t) { l with started := true })

/-- Whether the time in which a gang's acceptances count is over: STARTTICK − 10,000 (R337); a frozen module's launches keep their
distance to it (R346, R347). -/
def gangClosed (s : State) (l : Launch) : Bool := !s.mod.frozen && l.startTick.any fun t => decide (t ≤ s.mod.tick.toNat + 10000)

/-- GANG_ACCEPTANCE (R337): it counts unless it comes too late. -/
def execGangAcceptance (module l : Nat) (s : State) : Out :=
  match s.mod.launches.find? fun k => decide (k.id = l) with
  | some l => if l.gang.contains module && !l.accepted.contains module then
      if gangClosed s l then .next s else .next (setLaunch s { l with accepted := l.accepted ++ [module] })
    else .refused .eventNotEnabled
  | none => .refused .eventNotEnabled

/-- GANG_DEADLINE (R337): a module that lacks an acceptance rejects its packet and sends a withdrawal. -/
def execGangDeadline (l : Nat) (s : State) : Out :=
  match s.mod.launches.find? fun k => decide (k.id = l) with
  | none => .refused .eventNotEnabled
  | some l =>
    match l.startTick with
    | none => .refused .eventNotEnabled
    | some t =>
      if l.started || l.ended || s.mod.frozen || gangReady s l then .refused .eventNotEnabled else
        let s := reachTick s (t - 10000)
        let out := gangMessages s l (2 ^ 32 + l.seq)
        let s := { s with mod := { s.mod with messages := s.mod.messages ++ out,
                                              outbox := s.mod.outbox ++ out.map fun m => (4, m.1, m.2) } }
        .next (endLaunch s l 1 8)

/-- GANG_WITHDRAWAL (R337): the launch is rejected before its groups have started, killed after, which is logged (R351). -/
def execGangWithdrawal (l : Nat) (s : State) : Out :=
  match s.mod.launches.find? fun k => decide (k.id = l) with
  | none => .refused .eventNotEnabled
  | some l =>
    if l.ended || l.gang.isEmpty then .refused .eventNotEnabled
    else if l.started then .next (logEvent (endLaunch s l 3 2) (.kill l.job)) else .next (endLaunch s l 1 8)

/-! ### Completion (R332, R227) -/

/-- Whether a record of a launch is kept, in the cellar or in the image of a freeze (R315, R346). -/
def launchKept (s : State) (l : Launch) : Bool :=
  let own (r : SavedCore) : Bool := decide (r.core.launch = some l.id)
  s.saved.any own || s.mod.image.any fun im => im.saved.any own

/-- Whether this core's part of a launch is over: the launch has started, the core holds no more groups and no jobs, the tile commands
that others sent it among them (R244, R348), no request of the launch's other cores is queued, whose groups have not ended then (R186, R332),
and no record of it is kept. -/
def partDone (s : State) (l : Launch) : Bool :=
  if s.core.launch = some l.id then
    l.started && !s.core.groupLive && decide (l.groups ≤ s.core.nextGroup) && s.clu.jobs.isEmpty && s.feQueue.isEmpty
  else (l.started || l.startTick.isNone) && !launchKept s l && !l.domain.contains (corePid s)

/-- Whether a launch's completion waits: for the acknowledgement of what it has written (R332, R348), or, where it has not started on a
module that is frozen, for the resumption (R346). -/
def completionWaits (s : State) (l : Launch) : Bool :=
  (decide (s.core.launch = some l.id) && s.unacked) || (s.mod.frozen && !l.started && l.result.isNone)

/-- LAUNCH_COMPLETION (R332): the launch is done, or ended by a policy, a kill or a withdrawal: its record is written and
its cores are free, unless its job is killed and waits for its identifier's retirement (R322). -/
def execLaunchCompletion (l : Nat) (s : State) : Out :=
  match s.mod.launches.find? fun k => decide (k.id = l) with
  | none => .refused .eventNotEnabled
  | some l =>
    if !(l.result.isSome || partDone s l) || completionWaits s l then .refused .eventNotEnabled else
      let r := l.result.getD (0, 0)
      let s := completePacket s l.queue l.job l.compl l.seq r.1 r.2
      let retired := (jobEntry s l.job).isNone
      let s := if s.core.launch = some l.id ∧ retired = false then freeCore (leaveLines s l.job) else s
      .next { s with mod := { s.mod with launches := s.mod.launches.filter fun k => !decide (k.id = l.id) } }

/-! ### Retirement and sharing (R322, R323) -/

/-- RETIREMENT_ACK (R322): every place has acknowledged; the job's resources are free. -/
def execRetirementAck (job : Nat) (s : State) : Out :=
  if (s.mod.jobs.any fun j => decide (j.id = job) && j.retired) && !s.mod.launches.any fun l => decide (l.job = job) then
    let s := invalidateLines s job
    let s := if (s.core.launch.isSome && (curLaunch s).isNone) then freeCore s else s
    .next { s with
     clu := { s.clu with tlb := s.clu.tlb.filter fun e => !decide (e.job = job) }
     mod := { s.mod with
      jobs := s.mod.jobs.filter fun j => !decide (j.id = job)
      queues := s.mod.queues.filter fun q => !decide (q.job = job)
      pubs := s.mod.pubs.filter fun p => !decide (p.job = job)
      tlb := s.mod.tlb.filter fun e => !decide (e.job = job) } }
  else .refused .eventNotEnabled

/-- Core cycles of a quantum: 1 ms at 850 MHz (R43, R323; log 37). -/
def quantumCycles : Int := 850000

/-- A job's deficit after a quantum (R323). -/
def newDeficit (j : JobEntry) (c : Charge) : Int :=
  (if c.active then j.deficit + j.weight * c.cores * quantumCycles else 0) - c.coreCycles

/-- The priority of a job's queue. -/
def jobPriority (s : State) (job : Nat) : Nat :=
  match s.mod.queues.find? fun q => decide (q.job = job) with
  | some q => q.prio
  | none => 0

/-- QUANTUM_BOUNDARY (R323): deficits are updated, and a running job whose deficit is used up is asked to make room for a
waiting one of its priority with a positive deficit, or for one of a higher priority. -/
def execQuantumBoundary (charges : List Charge) (s : State) : Out :=
  let upd (j : JobEntry) : JobEntry := match charges.find? fun c => decide (c.job = j.id) with
    | some c => { j with deficit := newDeficit j c }
    | none => { j with deficit := 0 }
  let jobs := s.mod.jobs.map upd
  let deficit (id : Nat) : Int := ((jobs.find? fun j => decide (j.id = id)).map fun j => j.deficit).getD 0
  let me : Nat := curJobId s
  let wants := charges.any fun c => c.needs && decide (c.job ≠ me) &&
    (decide (jobPriority s me < jobPriority s c.job) ||
     (decide (jobPriority s c.job = jobPriority s me) && decide (0 < deficit c.job) && decide (deficit me ≤ 0)))
  .next { s with
    mod := { s.mod with jobs := jobs }
    core := { s.core with preempt := s.core.preempt || (s.core.launch.isSome && wants) } }

end Sys2Proof.Machine
end

