-- ==== Sys2Proof/Machine/Control.lean ====
section
/-! DEFINITION. The control queue's commands (R338, R342), kill (R322), freeze and resumption (R324, R346, R347, R349), the
register aperture (R342, R343) and the host's accesses to device memory (R340, R341, R353). -/

namespace Sys2Proof.Machine

/-! ### The control queue (R331, R338) -/

/-- The location of an address that the driver gives: physical device memory, or the host's own (log 34). -/
def ctlLoc (a : Nat) : Option Nat :=
  if a < hbmSize then some (hbmLoc + a) else if regionOf a = .host then some (hostLoc + a) else none

/-- Bytes at such an address. -/
def ctlRead (s : State) (a n : Nat) : Option (List Byte) := (ctlLoc a).map fun l => readBytes s l n

/-- Bytes written at such an address, as a release where `release` says so. -/
def ctlWrite (s : State) (a : Nat) (bs : List Byte) (release : Bool := false) : State :=
  match ctlLoc a with
  | some l => unitStore s release l bs
  | none => s

/-- The control queue's header, where it is well formed (R358). DESIGN CHOICE (log 105): while it is not, no command is taken and nothing
tells of it, as ERR[3] speaks of launch queues; once it is, commands are taken again. -/
def ctlHeader (s : State) : Option QHeader :=
  match ctlRead s s.mod.ctlq.toNat 64 with
  | some b => let h := qHeader b; if h.ok then some h else none
  | none => none

/-- The command at the head of the control queue, when its slot is valid and the command before it has completed. -/
def ctlHead (s : State) : Option (QHeader × List Byte) :=
  if s.mod.ctlBusy then none else
    match ctlHeader s with
    | none => none
    | some h =>
      match ctlRead s h.slotAddr 64 with
      | some raw => if rfield raw 0 4 = h.seq then some (h, raw) else none
      | none => none

/-- A command is taken: RIDX, then ACCSEQ (R331). -/
def ctlTake (s : State) (h : QHeader) : State :=
  let a := s.mod.ctlq.toNat
  ctlWrite (ctlWrite s (a + 8) (leBytes 8 (h.ridx + 1)) true) (a + 0x20) (leBytes 4 h.seq) true

/-- A command completes: its record, then DONESEQ (R332, R338). -/
def ctlComplete (s : State) (compl seq result reason : Nat) : State :=
  let s := observeTick s
  let s := ctlWrite s (compl + 4) (leBytes 1 result ++ leBytes 1 reason ++ [0, 0] ++ leBytes 8 s.mod.tick.toNat)
  let s := ctlWrite s compl (leBytes 4 seq) true
  ctlWrite s (s.mod.ctlq.toNat + 0x24) (leBytes 4 seq) true

/-- Whether every operand byte outside the ranges given is 0, the reserved bytes too, and COMPL is aligned (R332, R338). -/
def operandsOk (raw : List Byte) (used : List (Nat × Nat)) : Bool :=
  decide (rfield raw 5 3 = 0) && decide (rfield raw 8 8 % 8 = 0) &&
    (List.range 48).all fun i =>
      (used.any fun r => decide (r.1 ≤ 16 + i) && decide (16 + i < r.1 + r.2)) || decide (rfield raw (16 + i) 1 = 0)

/-- A command whose effect `k` answers none where it breaks its terms (R338). -/
def ctlCommand (s : State) (op : Nat → Bool) (used : List (Nat × Nat)) (k : State → List Byte → Option State) : Out :=
  match ctlHead s with
  | none => .refused .eventNotEnabled
  | some (h, raw) =>
    if !op (rfield raw 4 1) then .refused .eventNotEnabled else
      let compl := rfield raw 8 8
      match (if operandsOk raw used then k s raw else none) with
      | some t => .next (ctlTake (ctlComplete t compl h.seq 0 0) h)
      | none => .next (ctlTake (ctlComplete s compl h.seq 1 1) h)

/-- NOP; an operation that is not assigned breaks the terms of R338. -/
def execControlNop (s : State) : Out :=
  ctlCommand s (fun o => decide (o = 0) || decide (8 ≤ o)) [] fun s raw => if rfield raw 4 1 = 0 then some s else none

/-- The fields of a new cellar's header that have a reset value (R317). -/
def newCellar (s : State) (cel len : Nat) : State :=
  if len < 64 then s else
    store (store s (hbmLoc + cel) (leBytes 4 1)) (hbmLoc + cel + 0x20) (List.replicate 32 0)

/-- JOBNEW (R317, R338): the key is read once. -/
def execJobnew (s : State) : Out :=
  ctlCommand s (fun o => decide (o = 1)) [(0x10, 4), (0x18, 32)] fun s raw =>
    let id := rfield raw 0x10 4
    let root := rfield raw 0x18 8
    let ka := rfield raw 0x20 8
    let cel := rfield raw 0x28 8
    let len := rfield raw 0x30 8
    match (if ka = 0 then some [] else ctlRead s ka 64) with
    | none => none
    | some key =>
      if (s.mod.jobs.any fun j => decide (j.id = id)) || decide (root % 4096 ≠ 0) || decide (hbmSize ≤ root) ||
          decide (hbmSize < cel + len) then none
      else
        let j : JobEntry := { id := id, ptRoot := root, key := key, cellar := cel, cellarLen := len, retired := false,
                              weight := 1, deficit := 0 }
        let s := newCellar s cel len
        some { s with mod := { s.mod with jobs := s.mod.jobs ++ [j] } }

/-- The nonzero limits strictly increase (R338). -/
def increasing : List Nat → Bool
  | a :: b :: r => decide (a < b) && increasing (b :: r)
  | _ => true

/-- REGQ (R338, R358): a queue is registered, anew if it was before. One whose header stopped it is consumed again only after it has
been unregistered (R331); what has completed out of order stays known, so that DONESEQ goes on (R332). -/
def execRegq (s : State) : Out :=
  ctlCommand s (fun o => decide (o = 2)) [(0x10, 24)] fun s raw =>
    let hdr := rfield raw 0x10 8
    let job := rfield raw 0x18 4
    let prio := rfield raw 0x1C 1
    let msix := rfield raw 0x1D 1
    let weight := rfield raw 0x1E 2
    let w1 := rfield raw 0x20 2
    let w2 := rfield raw 0x22 2
    let w3 := rfield raw 0x24 2
    let dies := rfield raw 0x26 2
    let wellFormed := match jobRead s job hdr 64 with
      | some b => (qHeader b).ok
      | none => false
    if !wellFormed || (jobEntry s job).isNone || decide (hdr % 64 ≠ 0) || decide (3 < prio) || decide (weight = 0) ||
        !increasing ([w1, w2, w3].filter fun w => decide (w ≠ 0)) || decide (4096 ≤ dies) then none
    else
      let old := s.mod.queues.find? fun p => decide (p.hdr = hdr) && decide (p.job = job)
      let q : LaunchQueue := { hdr := hdr, job := job, prio := prio, msix := if msix = 0 then none else some (msix - 1),
                               weight := weight, wd1 := if w1 = 0 then 10 else w1, wd2 := if w2 = 0 then 100 else w2,
                               wd3 := if w3 = 0 then 1000 else w3, dies := dies, live := true,
                               stopped := old.any fun p => p.live && p.stopped, done := (old.map fun p => p.done).getD [] }
      some { s with mod := { s.mod with
        queues := (s.mod.queues.filter fun p => !(decide (p.hdr = hdr) && decide (p.job = job))) ++ [q]
        jobs := s.mod.jobs.map fun j => if j.id = job then { j with weight := weight } else j } }

/-- UNREGQ (R338): the queue is consumed no further; its launches go on. DESIGN CHOICE (log 106): HDR is an address in a job's space and
no job is named, so that the queues of every job with that header are unregistered. -/
def execUnregq (s : State) : Out :=
  ctlCommand s (fun o => decide (o = 3)) [(0x10, 8)] fun s raw =>
    let hdr := rfield raw 0x10 8
    if s.mod.queues.any fun q => decide (q.hdr = hdr) && q.live then
      some { s with mod := { s.mod with queues := s.mod.queues.map fun q => if q.hdr = hdr then { q with live := false } else q } }
    else none

/-- A job killed (R322): its launches end, and their saved cores with them, its identifier is retired and its key destroyed. -/
def killJob (s : State) (job : Nat) : State :=
  let s := logEvent s (.kill job)
  let s := (s.mod.launches.filter fun l => decide (l.job = job) && !l.ended).foldl (fun s l => endLaunch s l 3 1) s
  { s with mod := { s.mod with jobs := s.mod.jobs.map fun j => if j.id = job then { j with retired := true, key := [] } else j } }

/-- KILL (R322, R338). -/
def execKill (s : State) : Out :=
  ctlCommand s (fun o => decide (o = 4)) [(0x10, 4)] fun s raw =>
    let job := rfield raw 0x10 4
    if (jobEntry s job).isSome then some (killJob s job) else none

/-- PUBREG (R204, R338): the device writes the buffer's descriptor, which lies in device memory as the buffer does. -/
def execPubreg (s : State) : Out :=
  ctlCommand s (fun o => decide (o = 5)) [(0x10, 12), (0x20, 24)] fun s raw =>
    let desc := rfield raw 0x10 8
    let job := rfield raw 0x18 4
    let shadow := rfield raw 0x20 8
    let front := rfield raw 0x28 8
    let len := rfield raw 0x30 8
    match jobLoc s job desc false with
    | none => none
    | some l =>
      if (jobEntry s job).isNone || decide (desc % 64 ≠ 0) || decide (regionOf desc ≠ .hbm) || decide (front % 65536 ≠ 0) ||
          decide (len % 65536 ≠ 0) || decide (len = 0) || decide (hbmSize < shadow + len) || decide (regionOf front ≠ .hbm) ||
          decide (regionEnd .hbm < front + len) then none
      else
        let s := unitStore s false l (leBytes 8 front ++ leBytes 8 len ++ leBytes 8 0 ++ leBytes 8 1 ++ List.replicate 32 0)
        let p : PubBuf := { desc := desc, job := job, front := front, len := len, shadow := shadow, swapped := false,
                            closed := false, waiting := [] }
        some { s with mod := { s.mod with pubs := (s.mod.pubs.filter fun q => !(decide (q.desc = desc) && decide (q.job = job))) ++ [p] } }

/-! ### Freeze and resumption (R324, R346, R347, R349) -/

/-- The list of host buffers at IMG: address and length of each (R338). -/
def imageBufs (s : State) (img count : Nat) : List (Nat × Nat) :=
  (List.range count).map fun i => (readLoc s (hostLoc + img + 16 * i) 8, readLoc s (hostLoc + img + 16 * i + 8) 8)

/-- A command that completes at its tick is taken. -/
def ctlDefer (s : State) (op : Nat) (used : List (Nat × Nat)) (k : State → List Byte → TickCmd → Except Nat State) : Out :=
  match ctlHead s with
  | none => .refused .eventNotEnabled
  | some (h, raw) =>
    if rfield raw 4 1 ≠ op then .refused .eventNotEnabled else
      let s := observeTick s
      let c : TickCmd := { tick := rfield raw 0x10 8, seq := h.seq, compl := rfield raw 8 8,
                           map := if op = 7 then rfield raw 0x28 8 else 0,
                           bufs := imageBufs s (rfield raw 0x18 8) (rfield raw 0x20 4) }
      match (if operandsOk raw used then k s raw c else .error 1) with
      | .ok t => .next (ctlTake { t with mod := { t.mod with ctlBusy := true } } h)
      | .error r => .next (ctlTake (ctlComplete s c.compl h.seq 1 r) h)

/-- FREEZE (R346): the tick must lie ahead, or the command completes with REASON 7. -/
def execFreeze (s : State) : Out :=
  ctlDefer s 6 [(0x10, 20)] fun s _ c =>
    if s.mod.frozen then .error 1
    else if c.tick ≤ s.mod.tick.toNat then .error 7
    else .ok { s with mod := { s.mod with freeze := some c } }

/-- The image that the buffers of a command hold: this module's own, where it wrote it there, else what they hold from elsewhere (R347;
log 53). -/
def imageIn (s : State) (c : TickCmd) : Option Image :=
  let other := (Config.foreignImage c.bufs c.seq).map fun im => { im with bufs := c.bufs }
  match s.mod.image with
  | some im => if im.bufs = c.bufs then some im else other
  | none => other

/-- RESUME (R347): of this module's own image or of another's; buffers that hold no image break the command's terms. -/
def execResume (s : State) : Out :=
  ctlDefer s 7 [(0x10, 20), (0x28, 8)] fun s _ c =>
    if (imageIn s c).isNone then .error 1 else .ok { s with mod := { s.mod with resume := some c } }

/-- FREEZE_TICK (R324): the tick is reached; every core is asked to park. -/
def execFreezeTick (s : State) : Out :=
  match s.mod.freeze with
  | none => .refused .eventNotEnabled
  | some c =>
    if s.mod.frozen then .refused .eventNotEnabled else
      let s := reachTick s c.tick
      .next { s with
        mod := { s.mod with frozen := true, freezing := true }
        core := { s.core with preempt := s.core.launch.isSome, fromFreeze := s.core.launch.isSome } }

/-- The image's bytes in the host's buffers: free, as the image is opaque (R346; log 53). -/
def writeImage (s : State) (bufs : List (Nat × Nat)) : State :=
  bufs.zipIdx.foldl (fun t b =>
    store t (hostLoc + b.1.1) ((List.range b.1.2).map fun i => Config.imageByte s.choice b.2 i)) s.tickChoice

/-- What the freeze evicts: the jobs' pages and the cellars, with the cores' records and all that the launch unit keeps of the jobs
(R324, R346, R349). -/
def imageOf (s : State) (c : TickCmd) : Image where
  bufs := c.bufs
  tick := c.tick
  saved := s.saved
  jobs := s.mod.jobs
  queues := s.mod.queues
  launches := s.mod.launches
  pubs := s.mod.pubs
  mem := s.mem.filter fun x => decide (hbmLoc ≤ x.1) && decide (x.1 < hbmLoc + hbmSize)
  descs := s.descs.filter fun d => decide (hbmLoc ≤ 64 * d.1) && decide (64 * d.1 < hbmLoc + hbmSize)
  poison := s.poison.filter fun g => decide (hbmLoc ≤ 8 * g) && decide (8 * g < hbmLoc + hbmSize)

/-- FREEZE_IMAGE_COMPLETE (R346): with the core's record written the image is whole in the host's buffers, and the FREEZE
completes. -/
def execFreezeImageComplete (s : State) : Out :=
  match s.mod.freeze with
  | none => .refused .eventNotEnabled
  | some c =>
    if !s.mod.freezing || (s.core.launch.isSome && !s.core.fenced) then .refused .eventNotEnabled else
      let im := imageOf s c
      let s := ctlComplete (writeImage s c.bufs) c.compl c.seq 0 0
      .next { s with
        saved := []
        mod := { s.mod with freezing := false, freeze := none, ctlBusy := false, image := some im } }

/-- The pairs at an address up to the zero pair, `n` at most. -/
def pairsFrom (s : State) : Nat → Nat → List (Nat × Nat)
  | 0, _ => []
  | n + 1, a =>
    match ctlRead s a 16 with
    | none => []
    | some b => if leNat b = 0 then [] else (rfield b 0 8, rfield b 8 8) :: pairsFrom s n (a + 16)

/-- The pairs of a RESUME's MAP up to its zero pair, of which every pair before it has a listed byte (R338). -/
def mapPairs (s : State) (a : Nat) : List (Nat × Nat) := pairsFrom s (s.mem.length + 1) a

/-- The cores of a domain record of a launch's job, by R19 (R347). -/
def recordCores (s : State) (job da : Nat) : Option (List (BitVec 32)) :=
  match jobRead s job da 32 with
  | none => none
  | some d =>
    let table := decide (rfield d 0 1 = 2)
    match jobRead s job (da + 32) (rfield d 4 4 * (if table then 4 else 8)) with
    | some es => domainCores s table (rfield d 4 4) es
    | none => none

/-- A launch that a resumption loses: RESULT 3, REASON 3 (R332, R347), a kill, which is logged (R351). -/
def loseLaunch (s : State) (l : Launch) : State := logEvent (endLaunch s l 3 3) (.kill l.job)

/-- A launch on the domain that MAP gives it: as many cores as before, or it ends with RESULT 3, REASON 3 (R347, R349). -/
def remapLaunch (pairs : List (Nat × Nat)) (s : State) (l : Launch) : State :=
  match pairs.find? fun p => decide (p.1 = l.job * 2 ^ 32 + l.seq) with
  | none => s
  | some p =>
    match recordCores s l.job p.2 with
    | some cores =>
      if cores.length = l.domain.length then setLaunch s { l with domain := cores } else loseLaunch s l
    | none => loseLaunch s l

/-- An image of another module taken in: its pages, jobs, queues, launches and records beside those of this module, its launches under
new numbers (R347). -/
def takeImage (s : State) (im : Image) : State :=
  let n := s.mod.nextId
  let top := (im.launches.map fun l => l.id + 1).foldl max 0
  let old (j : JobEntry) : Bool := im.jobs.any fun k => decide (k.id = j.id)
  { s with
    mem := im.mem.foldl (fun m c => Memory.put m c.1 c.2) s.mem
    descs := im.descs.foldl (fun d e => sparsePut (fun _ => 0) d e.1 e.2) s.descs
    poison := im.poison.foldl setInsert s.poison
    saved := s.saved ++ im.saved.map fun r =>
      { r with core := { r.core with launch := r.core.launch.map fun i => i + n
                                     tiles := Vector.ofFn fun i : Fin 64 => (r.core.tiles[i.val]'i.isLt).filter slotGood }
               mem := r.mem.foldl (fun m c => Memory.put m c.1 c.2) [] }
    mod := { s.mod with
      jobs := (s.mod.jobs.filter fun j => !old j) ++ im.jobs
      queues := s.mod.queues ++ im.queues.map fun q => { q with live := false }
      launches := s.mod.launches ++ im.launches.map fun l => { l with id := l.id + n }
      pubs := s.mod.pubs ++ im.pubs
      nextId := n + top } }

/-- Whether an image is this module's own. -/
def ownImage (s : State) (im : Image) : Bool := s.mod.image.any fun own => decide (own.bufs = im.bufs)

/-- The image restored: this module's own, whose pages have stayed where they were, or another's. -/
def restoreImage (s : State) (im : Image) : State :=
  match s.mod.image with
  | some own => if ownImage s im then { s with saved := s.saved ++ own.saved } else takeImage s im
  | none => takeImage s im

/-- The launches that an image restores, by their numbers on this module (R347). -/
def imageLaunches (s : State) (im : Image) : List Nat :=
  im.launches.map fun l => if ownImage s im then l.id else l.id + s.mod.nextId

/-- Whether the cores of a launch are there: each may be given to a job, and this one is not fenced (R19, R320, R347). -/
def coresThere (s : State) (l : Launch) : Bool :=
  l.domain.all fun p =>
    let q := pidParts p.toNat
    coreUsable s q.1 (q.2.1 * 64 + q.2.2.1) q.2.2.2 && !(s.core.fenced && decide (p = corePid s))

/-- A launch after a resumption: on the domain that MAP gives it or its old cores; where they are not there, it ends with RESULT 3,
REASON 3 (R347, R349). -/
def settleLaunch (pairs : List (Nat × Nat)) (s : State) (l : Launch) : State :=
  let t := remapLaunch pairs s l
  match t.mod.launches.find? fun k => decide (k.id = l.id) with
  | some k => if k.ended || coresThere t k then t else loseLaunch t k
  | none => t

/-- RESUME_TICK (R347): the image is restored; of its launches those that have not started keep their distance to the tick, and each goes on
where MAP or its old domain says. Other launches of the module are left as they are, and a module that is frozen itself stays so, with its
own image, until that is resumed (R346; log 53). -/
def execResumeTick (s : State) : Out :=
  match s.mod.resume with
  | none => .refused .eventNotEnabled
  | some c =>
    match imageIn s c with
    | none =>
      .next (ctlComplete { s with mod := { s.mod with resume := none, ctlBusy := false } } c.compl c.seq 1 1)
    | some im =>
      let ids := imageLaunches s im
      let own := ownImage s im
      let s := restoreImage (reachTick s c.tick) im
      let shift (l : Launch) : Launch := match l.startTick with
        | some t => if l.started || !ids.contains l.id then l else { l with startTick := some (t + (c.tick - im.tick)) }
        | none => l
      let s := { s with
        mod := { s.mod with frozen := s.mod.frozen && !own, image := if own then none else s.mod.image, resume := none,
                            ctlBusy := false, launches := s.mod.launches.map shift } }
      let pairs := if c.map = 0 then [] else mapPairs s c.map
      .next (ctlComplete ((s.mod.launches.filter fun l => !l.ended && ids.contains l.id).foldl (settleLaunch pairs) s) c.compl c.seq 0 0)

/-! ### The register aperture (R342, R343) -/

/-- Whether the register aperture and the device memory aperture answer: after step 7, through a port that is up (R340, R353). -/
def hostAnswers (s : State) : Bool :=
  s.mod.spaly.standby && decide (s.mod.spaly.stage = 7) && s.mod.hosts.toList.any fun h => h.up

/-- Whether the host ports work as CXL 3.1 type-2 devices: their feature is accepted (R340, R343). HBM is then one host-managed device
memory range with host-bias coherence, and the host's accesses to it are those of the aperture (log 78). -/
def cxlMode (s : State) : Bool := accepted s 4

/-- MSTATE (R342). -/
def mstate (s : State) : Nat :=
  (if s.mod.frozen then 1 else 0) + (if s.mod.anyFenced then 2 else 0) + (if s.mod.ports.toList.any fun p => p.lost then 4 else 0)

/-- PODLINKp (R342). -/
def podLink (p : PodPort) : Nat := (if p.up then 1 else 0) + (if p.lost then 2 else 0) + p.replays % 2 ^ 32 * 2 ^ 16

/-- What the host reads, in eight bytes, at an offset of the register aperture, while it answers: offsets not listed read 0 (R342, R343).
No row of the table is a read; it changes nothing. -/
def registerRead (s : State) (off : Nat) : Word :=
  let n (x : Nat) : Word := BitVec.ofNat 64 x
  match off with
  | 0x0000 => n (0x4A12 + Config.stepping.toNat * 2 ^ 32)
  | 0x0008 => n s.mod.modnum
  | 0x0010 => s.mod.feat0
  | 0x0030 => s.mod.featAcc[0]
  | 0x0038 => s.mod.featAcc[1]
  | 0x0040 => s.mod.featAcc[2]
  | 0x0048 => s.mod.featAcc[3]
  | 0x0050 => s.mod.ctlq
  | 0x0058 => s.mod.tick
  | 0x0060 => n (mstate s)
  | 0x0068 => s.mod.errReg
  | _ =>
    if 0x1000 ≤ off ∧ off < 0x1100 ∧ off % 8 = 0 then n (podLink (s.mod.ports.toList.getD ((off - 0x1000) / 8) PodPort.reset)) else 0

/-- Whether a launch queue is registered. -/
def queueRegistered (s : State) : Bool := s.mod.queues.any fun q => q.live

/-- CTLQ_BLOCKED_TIMEOUT (R342): a claimed slot has stayed invalid for 1 s. -/
def execCtlqBlockedTimeout (s : State) : Out :=
  match ctlHeader s with
  | none => .refused .eventNotEnabled
  | some h =>
    if h.widx ≠ h.ridx ∧ (ctlHead s).isNone = true ∧ s.mod.ctlBusy = false then .next (setErr s 2)
    else .refused .eventNotEnabled

/-- MODNUM_WRITE (R342). -/
def execModnumWrite (value : Word) (s : State) : Out :=
  if !hostAnswers s then .refused .eventNotEnabled
  else if queueRegistered s then .next s
  else .next { s with mod := { s.mod with modnum := value.toNat % 256 } }

/-- FEATACC_WRITE (R342, R343). -/
def execFeataccWrite (i : Fin 4) (value : Word) (s : State) : Out :=
  if !hostAnswers s then .refused .eventNotEnabled
  else if queueRegistered s then .next (setErr s 0)
  else
    let adv := if i.val = 0 then s.mod.feat0 else 0
    .next { s with mod := { s.mod with featAcc := s.mod.featAcc.set i.val (value &&& adv) i.isLt } }

/-- Whether the control queue holds a command whose record is not written (R342). -/
def ctlPending (s : State) : Bool :=
  s.mod.ctlBusy || (match ctlHeader s with
    | some h => decide (h.widx ≠ h.ridx)
    | none => false)

/-- CTLQ_WRITE (R342): the register holds a 64-byte aligned address; the low bits are not stored (log 34). -/
def execCtlqWrite (value : Word) (s : State) : Out :=
  if !hostAnswers s then .refused .eventNotEnabled
  else if queueRegistered s || ctlPending s then .next (setErr s 1)
  else .next { s with mod := { s.mod with ctlq := BitVec.ofNat 64 (value.toNat / 64 * 64) } }

/-- ERR_WRITE (R342): write one to clear. -/
def execErrWrite (value : Word) (s : State) : Out :=
  if !hostAnswers s then .refused .eventNotEnabled
  else .next { s with mod := { s.mod with errReg := s.mod.errReg &&& ~~~value } }

/-! ### The device memory aperture (R290, R291, R340, R341, R346) -/

/-- The leaf under a table that covers a physical address and carries a mark of R290, if any. -/
def markedUnder (s : State) (p : Nat) : Nat → Nat → Option Leaf
  | 0, _ => none
  | n + 1, table =>
    (List.range (if n = 0 then 32 else 512)).findSome? fun i =>
      let e := readLoc s (hbmLoc + table + 8 * i) 8
      if !bit e 0 || !entryOk s.mod.featAcc[0] e then none
      else if bit e 1 then
        let l := leafOf e (2 ^ (if n = 0 then 16 else 12 + 9 * n))
        if decide (n ≠ 3) && (l.pk || l.pr) && !l.host && decide (l.base ≤ p) && decide (p < l.base + l.size) then some l else none
      else if n = 0 then none
      else markedUnder s p n (bits e 12 40 * 4096)

/-- The job, and its leaf, in whose tables a physical address lies in a packed or protected page. -/
def markedPage (s : State) (p : Nat) : Option (JobEntry × Leaf) :=
  s.mod.jobs.findSome? fun j => (markedUnder s p 4 j.ptRoot).map fun l => (j, l)

/-- Whether a block of a marked page is stored compressed: the page is packed and the block's format code is 0x01 to 0x0E; blocks of any
other code are stored whole (R290). -/
def compressed (s : State) (l : Leaf) (b : Nat) : Bool := l.pk && decide (1 ≤ fmtOf s b) && decide (fmtOf s b ≤ 0x0E)

/-- The stored form of a block of a marked page: compressed where R290 compresses it, then enciphered where it is protected (R290, R291;
log 19). -/
def storedBlock (s : State) (j : JobEntry) (l : Leaf) (p : Nat) : List Byte :=
  let b := hbmLoc / 64 + p / 64
  let raw := readBytes s (64 * b) 64
  let bs := if compressed s l b then (List.range 64).map (Config.packedForm (descOf s b).toNat (leNat raw)) else raw
  if !l.pr then bs
  else if j.key.isEmpty then (List.range 64).map (Config.keyless (p / 64 * 64 + leNat bs * 2 ^ 64))
  else xtsEncrypt j.key (p / 64 * 64) bs

/-- A byte as the aperture shows it: all ones above 768 GiB, the stored form of a marked page, else the byte (R291, R340). -/
def apertureByte (s : State) (p : Nat) : Byte :=
  if hbmSize ≤ p then 0xFF
  else match markedPage s p with
    | some (j, l) => (storedBlock s j l p).getD (p % 64) 0
    | none => Memory.get s.mem (hbmLoc + p)

/-- A reply noted. -/
def reply (s : State) (r : HostReply) : State := { s with mod := { s.mod with replies := s.mod.replies ++ [r] } }

/-- HOST_READ (R341, R346). -/
def execHostRead (off len : Nat) (s : State) : Out :=
  if !hostAnswers s then .refused .eventNotEnabled
  else if s.mod.frozen then .next (reply s .unsupported)
  else .next (reply s (.data ((List.range len).map fun i => apertureByte s (off + i))))

/-- Bytes that the host writes into a block of a marked page: what the job then reads is the stored form with them, deciphered where the
page is protected; of a block that is compressed, or without a key, that is free (R290, R291; log 19). -/
def writeStored (s : State) (p : Nat) (bs : List Byte) : State :=
  match markedPage s p with
  | none => store s (hbmLoc + p) bs
  | some (j, l) =>
    if compressed s l (hbmLoc / 64 + p / 64) || (l.pr && j.key.isEmpty) then
      store s.tickChoice (hbmLoc + p) ((List.range bs.length).map (Config.storedWrite s.choice))
    else if !l.pr then store s (hbmLoc + p) bs
    else
      let old := storedBlock s j l p
      let new := old.take (p % 64) ++ bs ++ old.drop (p % 64 + bs.length)
      store s (hbmLoc + p / 64 * 64) (xtsDecrypt j.key (p / 64 * 64) new)

/-- Bytes written block by block. -/
def writeBlocks : Nat → State → Nat → List Byte → State
  | 0, s, _, _ => s
  | n + 1, s, p, bs =>
    if bs.isEmpty then s else
      let k := min bs.length (64 - p % 64)
      writeBlocks n (writeStored s p (bs.take k)) (p + k) (bs.drop k)

/-- A host's write as a release at agent scope pod, storage hbm (R341); a fence waits for it where a read has read it (R214). -/
def noteHost (s : State) (rmw : Bool) (off n : Nat) : State :=
  { noteOutside s 12 [] (some (.pod, .hbm)) rmw ((List.range n).map fun i => hbmLoc + off + i) with unacked := true }

/-- Bytes that the host writes: those at or above 768 GiB are dropped, and each whole block gets descriptor 0x00 (R59, R340). -/
def apertureWrite (s : State) (rmw : Bool) (off : Nat) (data : List Byte) : State :=
  let bs := data.take (hbmSize - off)
  if bs.isEmpty then s else
    let s := noteHost s rmw off bs.length
    let marked := (List.range bs.length).any fun i => (markedPage s (off + i)).isSome
    let s := if marked then writeBlocks (bs.length / 64 + 2) s off bs else store s (hbmLoc + off) bs
    let first := (off + 63) / 64
    (List.range ((off + bs.length) / 64 - first)).foldl (fun s i => setDesc s ((hbmLoc / 64) + first + i) 0) s

/-- HOST_WRITE (R59, R341, R346). -/
def execHostWrite (off : Nat) (data : List Byte) (s : State) : Out :=
  if !hostAnswers s then .refused .eventNotEnabled
  else if s.mod.frozen then .next s
  else .next (apertureWrite s false off data)

/-- HOST_ATOMICOP (R183, R341): a read-modify-write of 4 or 8 aligned bytes; the reply holds the old value. -/
def execHostAtomicop (op : AtomicOp) (size : AtSize) (off : Nat) (operand compare : Word) (s : State) : Out :=
  let n := match size with
    | .w => 4
    | .x => 8
  if !hostAnswers s || decide (off % n ≠ 0) then .refused .eventNotEnabled
  else if s.mod.frozen then .next (reply s .unsupported)
  else
    let old := (List.range n).map fun i => apertureByte s (off + i)
    let o := leNat old
    let m := 2 ^ (8 * n)
    let new := match op with
      | .fetchAdd => (o + operand.toNat) % m
      | .swap => operand.toNat % m
      | .cas => if o = compare.toNat % m then operand.toNat % m else o
    .next (reply (apertureWrite s true off (leBytes n new)) (.data old))

/-- HOST_CONFIG_REQUEST (R353, R355): Configuration Request Retry Status until step 7 has completed. -/
def execHostConfigRequest (port : Fin 4) (s : State) : Out :=
  if (s.mod.hosts[port.val]'port.isLt).perst || !s.mod.spaly.standby then .refused .eventNotEnabled
  else .next (reply s (if s.mod.spaly.stage = 7 then .config else .retry))

/-- HOST_PORT_LINK_CHANGE (R340). -/
def execHostPortLinkChange (port : Fin 4) (up : Bool) (s : State) : Out :=
  let h := s.mod.hosts[port.val]'port.isLt
  if up && h.perst then .refused .eventNotEnabled
  else .next { s with mod := { s.mod with hosts := s.mod.hosts.set port.val { h with up := up } port.isLt } }

/-- PERST_CHANGE (R355): an asserted PERST# holds the port's link down. -/
def execPerstChange (port : Fin 4) (asserted : Bool) (s : State) : Out :=
  let h := s.mod.hosts[port.val]'port.isLt
  let h' := { h with perst := asserted, up := h.up && !asserted }
  .next { s with mod := { s.mod with hosts := s.mod.hosts.set port.val h' port.isLt } }

end Sys2Proof.Machine
end

