-- ==== Sys2Proof/Machine/Links.lean ====
section
/-! DEFINITION. The pod links (R345): flits, acknowledgement, replay, loss of a link and its retraining. -/

namespace Sys2Proof.Machine

/-! ### Flits -/

/-- One bit of the CRC: the ECMA-182 polynomial, most significant bit first (log 38). -/
def crcBit (c : Word) : Word := if c.msb then (c <<< 1) ^^^ 0x42F0E1EBA9EA3693 else c <<< 1

/-- One byte of the CRC. -/
def crcByte (c : Word) (b : Byte) : Word :=
  (List.range 8).foldl (fun c _ => crcBit c) (c ^^^ (b.setWidth 64 <<< 56))

/-- The CRC-64 of R345, from 0 (log 38). -/
def crc64 (bs : List Byte) : Word := bs.foldl crcByte 0

/-- A flit's header. -/
structure FlitHeader where
  type    : Nat
  dest    : Nat
  src     : Nat
  seq     : Nat
  ack     : Nat
  credits : Nat
deriving DecidableEq, Repr

/-- The header of a flit (R345). -/
def flitHeader (bs : List Byte) : FlitHeader :=
  let h := rfield bs 0 8
  { type := bits h 0 8, dest := bits h 8 8, src := bits h 16 8, seq := bits h 24 12, ack := bits h 36 12, credits := bits h 48 16 }

/-- Whether a flit passes its check (R345). -/
def flitOk (bs : List Byte) : Bool :=
  decide (bs.length = 128) && decide (crc64 (bs.take 120) = BitVec.ofNat 64 (rfield bs 120 8))

/-- A flit to send: its header, its payload filled with zeros to 112 bytes, its check. -/
def makeFlit (h : FlitHeader) (payload : List Byte) : List Byte :=
  let header := h.type + h.dest * 2 ^ 8 + h.src * 2 ^ 16 + h.seq * 2 ^ 24 + h.ack * 2 ^ 36 + h.credits * 2 ^ 48
  let body := leBytes 8 header ++ (payload ++ List.replicate (112 - payload.length) 0).take 112
  body ++ leBytes 8 (crc64 body).toNat

/-! ### Ports -/

/-- A port of the module. -/
def podPort (s : State) (p : Fin 32) : PodPort := s.mod.ports[p.val]'p.isLt

/-- A port set. -/
def setPort (s : State) (p : Fin 32) (x : PodPort) : State :=
  { s with mod := { s.mod with ports := s.mod.ports.set p.val x p.isLt } }

/-- An acknowledgement names the last flit received in order; the flits up to it leave the sender's store (log 38). -/
def acknowledge (x : PodPort) (ack : Nat) : PodPort :=
  let first := (x.sendSeq + 4096 - x.unacked.length % 4096) % 4096
  let n := (ack + 1 + 4096 - first) % 4096
  if n = 0 ∨ x.unacked.length < n then x else { x with unacked := x.unacked.drop n, tries := 0 }

/-- A flit received at an open port: one that passes its check and comes in order is taken and its acknowledgement used;
any other is discarded and a replay is requested (R345). -/
def receive (x : PodPort) (bs : List Byte) : PodPort :=
  let h := flitHeader bs
  if flitOk bs ∧ h.seq = x.recvSeq then
    { acknowledge x h.ack with recvSeq := (x.recvSeq + 1) % 4096, replayOf := none, credits := h.credits }
  else { x with replayOf := some x.recvSeq }

/-- A flit of a type received on a port. One that fails its check is of no type: whatever its type byte says, it is discarded, and a replay
is requested (R345). -/
def receiveFlit (type : Nat) (port : Fin 32) (f : Flit) (s : State) (k : State → State) : Out :=
  let x := podPort s port
  if !x.up || decide (f.bytes.length ≠ 128) || (flitOk f.bytes && decide ((flitHeader f.bytes).type ≠ type)) then .refused .eventNotEnabled else
    let t := setPort s port (receive x f.bytes)
    .next (if flitOk f.bytes ∧ (flitHeader f.bytes).seq = x.recvSeq then k t else t)

/-- FLIT_IDLE (R345). -/
def execFlitIdle (port : Fin 32) (f : Flit) (s : State) : Out := receiveFlit 0 port f s fun s => s

/-- FLIT_REQUEST (R345): the payload's layout is given nowhere, and what it asks comes as an event of its own (log 38). -/
def execFlitRequest (port : Fin 32) (f : Flit) (s : State) : Out := receiveFlit 1 port f s fun s => s

/-- FLIT_RESPONSE (R345; log 38). -/
def execFlitResponse (port : Fin 32) (f : Flit) (s : State) : Out := receiveFlit 2 port f s fun s => s

/-- FLIT_TIME (R345, R195): the tick counter is aligned, by an amount that no rule fixes. -/
def execFlitTime (port : Fin 32) (f : Flit) (s : State) : Out := receiveFlit 3 port f s observeTick

/-- FLIT_LAUNCH_CONTROL (R345; log 38). -/
def execFlitLaunchControl (port : Fin 32) (f : Flit) (s : State) : Out := receiveFlit 4 port f s fun s => s

/-! ### Sending (R345) -/

/-- A flit sent on a port: it takes the next sequence number, is held until it is acknowledged, and carries the acknowledgement of what
has been received. Requests, responses and launch control take one of the credits that the receiver has given (log 38). A closed port,
or one that holds 1,024 flits or has no credit left, sends nothing. -/
def sendFlit (src type dest : Nat) (payload : List Byte) (x : PodPort) : PodPort :=
  let counted := decide (type = 1) || decide (type = 2) || decide (type = 4)
  if !x.up || decide (1024 ≤ x.unacked.length) || (counted && decide (x.credits = 0)) then x else
    let h : FlitHeader := { type := type, dest := dest % 256, src := src % 256, seq := x.sendSeq,
                            ack := (x.recvSeq + 4095) % 4096, credits := 0 }
    let f := makeFlit h payload
    { x with unacked := x.unacked ++ [f], wire := x.wire ++ [f], sendSeq := (x.sendSeq + 1) % 4096,
             credits := if counted then x.credits - 1 else x.credits }

/-- TIME_FLIT_TIMER (R345): a time flit is sent on every open port whose store of 1,024 flits has room. -/
def execTimeFlitTimer (s : State) : Out :=
  if s.mod.spaly.standby = false ∨ s.mod.spaly.stage < 6 then .refused .eventNotEnabled else
    let s := observeTick s
    .next { s with mod := { s.mod with
      ports := Vector.ofFn fun p : Fin 32 => sendFlit s.mod.modnum 3 0 (leBytes 8 s.mod.tick.toNat) (podPort s p) } }

/-- The port that leads to a module (R345). -/
def routeTo (dest : Nat) : Fin 32 := Fin.ofNat 32 (Config.route dest)

/-- What is to go to another module next: the oldest answer or launch message, else a request of a running job, else nothing but an
idle flit. -/
def nextMessage (s : State) : Nat × Nat × Nat :=
  match s.mod.outbox with
  | m :: _ => m
  | [] => (if s.clu.jobs.any fun j => running j && usesLink s j then 1 else 0, Config.pick s.choice % 256, s.choice)

/-- A pod port sends what is to go next, if it can (R345). -/
def sendMessage (s : State) : State :=
  let m := nextMessage s
  let p := routeTo m.2.1
  let x := podPort s p
  let y := sendFlit s.mod.modnum m.1 m.2.1 ((List.range 112).map (Config.flitPayload m.2.2)) x
  let s := s.tickChoice
  if y = x then s else
    let s := setPort s p y
    { s with mod := { s.mod with outbox := s.mod.outbox.drop 1 } }

/-- A port replays the flits that are not acknowledged, in order, as its receiver has asked it or as it does of its own: any port that
holds some, short of the sixteenth time (R345). -/
def replayFlits (s : State) : State :=
  let p : Fin 32 := Fin.ofNat 32 (Config.pick s.choice)
  let x := podPort s p
  let s := s.tickChoice
  if !x.up || x.unacked.isEmpty || decide (15 ≤ x.tries) then s else
    setPort s p { x with wire := x.wire ++ x.unacked, tries := x.tries + 1, replays := x.replays + x.unacked.length }

/-! ### Loss and retraining (R345, R282, R285) -/

/-- A link is lost: it is closed and logged, and a job that runs with elements outstanding on it ends with LINK_LOST. Which port a job's
traffic takes is given nowhere: a free value (log 25). -/
def loseLink (s : State) (port : Fin 32) (replays : Nat) : State :=
  let s := setPort s port { podPort s port with up := false, lost := true, replays := replays }
  let s := logEvent s (.linkLost port.val)
  (s.clu.jobs.filter fun j => running j && usesLink s j).foldl
    (fun s j =>
      let carried := Config.pick s.choice % 2 = 1
      let s := s.tickChoice
      if carried then
        match j.cmd with
        | .cred _ => setJob (loseCred j s) { j with status := some (.linkLost, 0) }
        | _ => lostShort s j
      else s) s

/-- LINK_REPLAY_LIMIT (R345): the oldest flit is replayed until it has been 16 times; PODLINK counts the replays since reset
(R342). -/
def execLinkReplayLimit (port : Fin 32) (s : State) : Out :=
  let x := podPort s port
  if !x.up || x.unacked.isEmpty then .refused .eventNotEnabled else .next (loseLink s port (x.replays + (16 - x.tries)))

/-- LINK_ACK_TIMEOUT (R345): nothing has been acknowledged for 20 µs. -/
def execLinkAckTimeout (port : Fin 32) (s : State) : Out :=
  let x := podPort s port
  if !x.up || x.unacked.isEmpty then .refused .eventNotEnabled else .next (loseLink s port x.replays)

/-- POD_LINK_RETRAIN (R345): the driver retrains a closed link; its sequences and its store start anew (log 38). -/
def execPodLinkRetrain (port : Fin 32) (s : State) : Out :=
  if (podPort s port).up then .refused .eventNotEnabled else .next (setPort s port { PodPort.reset with up := true, replays := (podPort s port).replays })

end Sys2Proof.Machine
end

