-- ==== Sys2Proof/Machine/Management.lean ====
section
/-! DEFINITION. The Spaly controller's events: power-up, module reset and the firmware banks (R352, R353), power and
temperature (R350, R354), the event log (R351), attestation (R352). -/

namespace Sys2Proof.Machine

/-! ### Power-up (R352, R353) -/

/-- The other firmware bank. -/
def otherBank (b : Fin 2) : Fin 2 := if b = 0 then 1 else 0

/-- The stages in the order in which step 2 enables them (R353, R354): those of the link dies and the HBM sets, then each compute die's
four islands, and its memory stage with them (log 98). -/
def railOrder : List Nat :=
  [61, 62, 63, 64] ++ (List.range 12).map (fun i => 65 + i) ++
    ((List.range 12).map fun d => [1 + 4 * d, 2 + 4 * d, 3 + 4 * d, 4 + 4 * d, 49 + d]).flatten

/-- The stages where the sequence has come to a step: up after step 2; standby's alone where step 1 fails; where step 2 fails, those
before the one that gave no power-good, and that one enabled in vain (R353, R354). `n` picks it. -/
def railsAt (step n : Nat) : List Rail :=
  let bad := n % railOrder.length
  (List.range railVolts.length).map fun i =>
    let at_ := railOrder.idxOf i
    let v := railVolts.getD i 0
    if i = 0 ∨ 2 ≤ step then { enabled := true, volts := v, good := true }
    else if step = 0 ∨ bad < at_ then { enabled := false, volts := v, good := false }
    else { enabled := true, volts := v, good := decide (at_ < bad) }

/-- The machine after a power-up sequence from a bank has come to a step: reset, but for what the management flash keeps
(the log and the banks), its fuses, the core's place on the module, the host's PERST# lines and what the model's own fields hold. `rails`
are the power stages as the sequence leaves them. -/
def poweredUp (s : State) (bank : Fin 2) (stage : Nat) (rails : List Rail) : State :=
  let p := s.mod.spaly
  let sp := { Spaly.reset with stage := stage, rails := rails, log := p.log, banks := p.banks, active := bank, next := bank }
  let c := { CoreRegs.reset with die := s.core.die, row := s.core.row, col := s.core.col, cix := s.core.cix }
  let hosts := Vector.ofFn fun i : Fin 4 =>
    let h := s.mod.hosts[i.val]'i.isLt
    { h with up := decide (stage = 7) && !h.perst }
  let m := { Module.reset with spaly := sp, hosts := hosts, feat0 := s.mod.feat0, fuses := s.mod.fuses }
  { State.reset with mod := m, core := c, inputs := s.inputs, choice := s.choice, upsets := s.upsets }

/-! ### Fuses, mastheads and the harvest apertures (R10, R12) -/

/-- The fuse mask of a cluster: bit i for a core that is fused off. -/
def fuseMask (s : State) (cluster : Nat) : Nat :=
  match s.mod.fuses.find? fun f => decide (f.1 = cluster) with
  | some f => f.2 % 256
  | none => 0

/-- The highest-numbered enabled core of a cluster. -/
def topCore (s : State) (cluster : Nat) : Option Nat := [7, 6, 5, 4, 3, 2, 1, 0].find? fun i => !bit (fuseMask s cluster) i

/-- The clusters of a region of a die, by highest index first (R8, R10). -/
def regionClusters (die region : Nat) : List Nat :=
  (List.range 72).map fun k => die * 6912 + (region / 8 * 9 + (71 - k) / 8) * 64 + (region % 8 * 8 + (71 - k) % 8)

/-- A region's masthead (R10): core 7 of its last cluster, else that cluster's highest-numbered enabled core, else that of the
highest-indexed cluster that has one. -/
def masthead (s : State) (die region : Nat) : Option (Nat × Nat) :=
  (regionClusters die region).findSome? fun k => (topCore s k).map fun c => (k, c)

/-- A cluster's byte of the harvest aperture (R12): its fused cores, and its region's masthead if that lies in it. -/
def harvestByte (s : State) (cluster : Nat) : Byte :=
  let die := cluster / 6912
  let k := cluster % 6912
  let m := match masthead s die (k / 64 / 9 * 8 + k % 64 / 8) with
    | some (c, i) => if c = cluster then 2 ^ i else 0
    | none => 0
  BitVec.ofNat 8 (fuseMask s cluster ||| m)

/-- Step 3 of the power-up sequence (R353): the harvest apertures are filled from the fuses. Only clusters of regions with a fused core
differ from what an unlisted aperture byte reads as. -/
def fillHarvest (s : State) : State :=
  let regions := (s.mod.fuses.map fun f => (f.1 / 6912, f.1 % 6912 / 64 / 9 * 8 + f.1 % 64 / 8)).eraseDups
  regions.foldl (fun t r => (regionClusters r.1 r.2).foldl (fun t k =>
    if r.1 < 12 then setBytes t (harvestLoc + r.1 * 0x2000 + k % 6912) [harvestByte s k] else t) t) s

/-! ### The sequence (R352, R353) -/

/-- Whether a bank passes its signature check. -/
def bankSigned (s : State) (b : Fin 2) : Bool := (s.mod.spaly.banks[b.val]'b.isLt).signed

/-- A step of the sequence completed. -/
def setStage (s : State) (n : Nat) : State := { s with mod := { s.mod with spaly := { s.mod.spaly with stage := n } } }

/-- The steps of the sequence in order, each logged when it is complete, up to the one that is reached; a step that fails is logged as
fatal. From step 6 on, which starts the pod time base, the records bear its tick (R351, R353). -/
def logSteps (last : Nat) (s : State) : State :=
  let t := (List.range last).foldl (fun t n => logEvent (setStage t (n + 1)) (.powerStep (n + 1))) s
  if last < 7 then logEvent t (.powerFailed (last + 1)) else t

/-- How far the sequence comes: step 1 fails where no bank is signed; any other step may fail, by a rail that does not come up (R354),
fuses, HBM training, firmware or the time base, or none does: a free value (log 39). -/
def reached (s : State) (bank : Fin 2) : Nat :=
  if !bankSigned s bank then 0 else
    let n := Config.pick s.choice % 7
    if n = 0 then 7 else n

/-- A boot from a bank, or from the other one, logged, where its signature check fails (R352, R353). -/
def boot (s : State) (bank : Fin 2) : State :=
  let good := bankSigned s bank
  let b := if good then bank else otherBank bank
  let n := reached s b
  let t := poweredUp s.tickChoice.tickChoice b 0 (railsAt n (Config.pick (s.choice + 1)))
  let t := if good then t else logEvent t .bankFallback
  let t := logSteps n t
  let t := if 3 ≤ n then fillHarvest t else t
  { t with mod := { t.mod with hosts := Vector.ofFn fun i : Fin 4 =>
                       let h := t.mod.hosts[i.val]'i.isLt
                       { h with up := decide (n = 7) && !h.perst } } }

/-- STANDBY_POWER_ON (R353). -/
def execStandbyPowerOn (s : State) : Out :=
  if s.mod.spaly.standby then .refused .eventNotEnabled else .next (boot s s.mod.spaly.next)

/-- MODULE_RESET (R352): the image last written takes effect. -/
def execModuleReset (s : State) : Out :=
  if !s.mod.spaly.standby then .refused .eventNotEnabled else .next (boot s s.mod.spaly.next)

/-- FIRMWARE_BOOT_TIMEOUT (R352): step 5 is not reached within 30 s, and the other bank is booted. -/
def execFirmwareBootTimeout (s : State) : Out :=
  let p := s.mod.spaly
  if !p.standby || decide (5 ≤ p.stage) || decide (p.stage = 0) then .refused .eventNotEnabled
  else .next (boot (logEvent s .bankFallback) (otherBank p.active))

/-- Whether a power stage asserts power-good (R354). -/
def powerGood (s : State) (stage : Nat) : Bool := s.mod.spaly.rails[stage]?.any fun r => r.good

/-- The module without power but for its controller: nothing but a power-up goes on, and of the power stages standby's alone is up. -/
def powerDown (s : State) : State :=
  { s with mod := { s.mod with spaly := { s.mod.spaly with stage := 0, rails := railsAt 0 0 } } }

/-- POWER_GOOD_LOSS (R354): a stage of the module's drops power-good, and the module stops with a logged fatal event. Standby's own is
STANDBY_POWER_LOSS. -/
def execPowerGoodLoss (stage : Nat) (s : State) : Out :=
  if !s.mod.spaly.standby || decide (stage = 0) || !powerGood s stage then .refused .eventNotEnabled
  else .next (powerDown (logEvent s (.powerGoodLost stage)))

/-- No stage up. -/
def railsOff : List Rail := railVolts.map fun v => { enabled := false, volts := v, good := false }

/-- STANDBY_POWER_LOSS (R351): all stops; the record being written is lost, where one is: a free value. -/
def execStandbyPowerLoss (s : State) : Out :=
  let p := s.mod.spaly
  if !p.standby then .refused .eventNotEnabled else
    let log := if Config.pick s.choice % 2 = 0 then p.log else p.log.dropLast
    let p' := { p with standby := false, stage := 0, log := log, rails := railsOff }
    let s := s.tickChoice
    .next { s with mod := { s.mod with spaly := p' } }

/-! ### Sensors and power capping (R350) -/

/-- One step of 25 MHz down, to 300 MHz at least. -/
def clockDown (f : Nat) : Nat := max 300 (f - 25)

/-- One step of 25 MHz up, to 850 MHz at most. -/
def clockUp (f : Nat) : Nat := min 850 (f + 25)

/-- Islands put in order of falling drawn power. -/
def insertHot (powers : List Nat) (i : Nat) : List Nat → List Nat
  | [] => [i]
  | k :: r => if powers.getD k 0 < powers.getD i 0 then i :: k :: r else k :: insertHot powers i r

/-- The `n` islands that draw most. -/
def hottest (powers : List Nat) (n : Nat) : List Nat :=
  ((List.range powers.length).foldl (fun l i => insertHot powers i l) []).take n

/-- Module power in milliwatts (R350): what the power stages deliver together, as their telemetry gives it (R354; log 39). -/
def modulePower (r : SensorReading) : Nat := r.stages.foldl (fun n v => n + v.1 * v.2 / 1000) 0

/-- SENSOR_SAMPLE (R350): the readings are kept; the islands that draw most, one at least and otherwise any number, are lowered above
the cap and raised below it (log 39), and the islands' stages are set to voltages of their range (log 82); an island at 105 degrees is lowered whatever the cap; at 115 degrees the module powers down,
logged first. -/
def execSensorSample (r : SensorReading) (s : State) : Out :=
  let p := s.mod.spaly
  if !p.standby then .refused .eventNotEnabled else
    let hot := hottest r.powers (1 + Config.pick s.choice % 48)
    let total := modulePower r
    let temp (i : Nat) : Nat := r.temps.getD i 0
    let adjust (i f : Nat) : Nat :=
      if 105 ≤ temp i then clockDown f
      else if !hot.contains i then f
      else if p.cap * 1000 < total then clockDown f
      else if total < p.cap * 1000 then clockUp f
      else f
    let clocks := (List.range p.clocks.length).map fun i => adjust i (p.clocks.getD i 0)
    let set (k : Nat) (x : Rail) : Rail := if 1 ≤ k ∧ k ≤ 48 then { x with volts := 550 + 5 * (Config.islandVolts s.choice k % 71) } else x
    let rails := p.rails.zipIdx.map fun x => set x.2 x.1
    let s := { s.tickChoice with mod := { s.mod with spaly := { p with sample := r, clocks := clocks, rails := rails } } }
    let lowered := (List.range p.clocks.length).filter fun i => decide (clocks.getD i 0 < p.clocks.getD i 0)
    let s := lowered.foldl (fun s i => logEvent s (.throttled i)) s
    match (List.range p.clocks.length).find? fun i => decide (115 ≤ temp i) with
    | none => .next s
    | some i => .next (powerDown (logEvent s (.overheat i)))

/-- SET_POWER_CAP (R350): 3.0 kW to 6.4 kW in steps of 50 W; any other value is refused and changes nothing. -/
def execSetPowerCap (watts : Nat) (s : State) : Out :=
  if !s.mod.spaly.standby then .refused .eventNotEnabled
  else if 3000 ≤ watts ∧ watts ≤ 6400 ∧ watts % 50 = 0 then
    .next { s with mod := { s.mod with spaly := { s.mod.spaly with cap := watts } } }
  else .next s

/-! ### Firmware and attestation (R352) -/

/-- The bytes of a firmware bank (R355). -/
def bankSize : Nat := 96 * 2 ^ 20

/-- PLDM_FIRMWARE_UPDATE (R352): the bank not in use is written; it takes effect at the next module reset. An image that no bank has
room for is refused and changes nothing (R355; log 39). -/
def execPldmFirmwareUpdate (image : List Byte) (signed : Bool) (s : State) : Out :=
  let p := s.mod.spaly
  if !p.standby then .refused .eventNotEnabled
  else if bankSize < image.length then .next s
  else
    let b := otherBank p.active
    let p' := { p with banks := p.banks.set b.val { image := image, signed := signed } b.isLt, next := b }
    .next { s with mod := { s.mod with spaly := p' } }

/-- SPDM_REQUEST (R352): a measurement of the banks, the fuses and the active firmware is answered; how it is formed is named by its
standard alone, a free value of them (log 20). -/
def execSpdmRequest (index : Nat) (s : State) : Out :=
  let p := s.mod.spaly
  if !p.standby then .refused .eventNotEnabled
  else
    let m := Config.spdmMeasurement index (p.banks[0]).image (p.banks[1]).image s.mod.fuses p.active.val
    .next { s with mod := { s.mod with spaly := { p with answers := p.answers ++ [m] } } }

/-! ### The event log's records (R351) -/

/-- What kind of event a record is of, and the number that belongs to it. -/
def LogEvent.kind (e : LogEvent) : Nat × Nat :=
  match e with
  | .powerStep n => (0, n)
  | .powerFailed n => (1, n)
  | .kill job => (2, job)
  | .fenced => (3, 0)
  | .linkLost p => (4, p)
  | .uncorrectable => (5, 0)
  | .throttled i => (6, i)
  | .overheat i => (7, i)
  | .powerGoodLost n => (8, n)
  | .bankFallback => (9, 0)

/-- SEV: a step that fails and a stage that drops power-good are fatal (R353, R354); of no other event does a rule say it (log 77). -/
def LogEvent.sev (e : LogEvent) : Nat :=
  match e with
  | .powerFailed _ | .powerGoodLost _ => 3
  | e => Config.logSev e.kind.1 % 4

/-- A record's 32 bytes (R351). -/
def LogRecord.bytes (r : LogRecord) : List Byte :=
  let k := r.event.kind
  leBytes 8 r.tick.toNat ++ leBytes 2 (Config.logCode k.1) ++ leBytes 2 r.source ++ leBytes 1 r.event.sev ++ leBytes 3 0 ++
    (List.range 16).map (Config.logData k.1 k.2)

end Sys2Proof.Machine
end

