-- ==== Sys2Proof/Machine/Dispatch.lean ====
section
/-! DEFINITION. The meaning of each instruction: one arm per constructor, one call per arm. -/

namespace Sys2Proof.Machine

def exec (i : Instr) (s : State) : Host.Outcome State Fault Refusal :=
  match i with
  | .vaddShort x => Sys2Proof.Machine.execVaddShort x s
  | .vsubShort x => Sys2Proof.Machine.execVsubShort x s
  | .vmulShort x => Sys2Proof.Machine.execVmulShort x s
  | .vmac x => Sys2Proof.Machine.execVmac x s
  | .vminShort x => Sys2Proof.Machine.execVminShort x s
  | .vmaxShort x => Sys2Proof.Machine.execVmaxShort x s
  | .vandShort x => Sys2Proof.Machine.execVandShort x s
  | .vorShort x => Sys2Proof.Machine.execVorShort x s
  | .vxorShort x => Sys2Proof.Machine.execVxorShort x s
  | .vshlShort x => Sys2Proof.Machine.execVshlShort x s
  | .vshrShort x => Sys2Proof.Machine.execVshrShort x s
  | .vshrlShort x => Sys2Proof.Machine.execVshrlShort x s
  | .vmovShort x => Sys2Proof.Machine.execVmovShort x s
  | .vneg x => Sys2Proof.Machine.execVneg x s
  | .vabs x => Sys2Proof.Machine.execVabs x s
  | .vcmpltShort x => Sys2Proof.Machine.execVcmpltShort x s
  | .addShort x => Sys2Proof.Machine.execAddShort x s
  | .subShort x => Sys2Proof.Machine.execSubShort x s
  | .addi4 x => Sys2Proof.Machine.execAddi4 x s
  | .mov x => Sys2Proof.Machine.execMov x s
  | .li4 x => Sys2Proof.Machine.execLi4 x s
  | .andShort x => Sys2Proof.Machine.execAndShort x s
  | .orShort x => Sys2Proof.Machine.execOrShort x s
  | .xorShort x => Sys2Proof.Machine.execXorShort x s
  | .shliShort x => Sys2Proof.Machine.execShliShort x s
  | .shriShort x => Sys2Proof.Machine.execShriShort x s
  | .shrliShort x => Sys2Proof.Machine.execShrliShort x s
  | .lw16 x => Sys2Proof.Machine.execLw16 x s
  | .sw16 x => Sys2Proof.Machine.execSw16 x s
  | .lx16 x => Sys2Proof.Machine.execLx16 x s
  | .sx16 x => Sys2Proof.Machine.execSx16 x s
  | .sltShort x => Sys2Proof.Machine.execSltShort x s
  | .beqz x => Sys2Proof.Machine.execBeqz x s
  | .bnez x => Sys2Proof.Machine.execBnez x s
  | .bra disp => Sys2Proof.Machine.execBra disp s
  | .bltz x => Sys2Proof.Machine.execBltz x s
  | .nop => Sys2Proof.Machine.execNop s
  | .triple => Sys2Proof.Machine.execTriple s
  | .wide p => Sys2Proof.Machine.execWide p s
  | .yield => Sys2Proof.Machine.execYield s
  | .add x => Sys2Proof.Machine.execAdd x s
  | .sub x => Sys2Proof.Machine.execSub x s
  | .mul x => Sys2Proof.Machine.execMul x s
  | .mulh x => Sys2Proof.Machine.execMulh x s
  | .mulhn x => Sys2Proof.Machine.execMulhn x s
  | .div x => Sys2Proof.Machine.execDiv x s
  | .divn x => Sys2Proof.Machine.execDivn x s
  | .rem x => Sys2Proof.Machine.execRem x s
  | .remn x => Sys2Proof.Machine.execRemn x s
  | .and x => Sys2Proof.Machine.execAnd x s
  | .or x => Sys2Proof.Machine.execOr x s
  | .xor x => Sys2Proof.Machine.execXor x s
  | .andn x => Sys2Proof.Machine.execAndn x s
  | .shl x => Sys2Proof.Machine.execShl x s
  | .shr x => Sys2Proof.Machine.execShr x s
  | .shrl x => Sys2Proof.Machine.execShrl x s
  | .rol x => Sys2Proof.Machine.execRol x s
  | .slt x => Sys2Proof.Machine.execSlt x s
  | .sltn x => Sys2Proof.Machine.execSltn x s
  | .min x => Sys2Proof.Machine.execMin x s
  | .max x => Sys2Proof.Machine.execMax x s
  | .minn x => Sys2Proof.Machine.execMinn x s
  | .maxn x => Sys2Proof.Machine.execMaxn x s
  | .clz x => Sys2Proof.Machine.execClz x s
  | .ctz x => Sys2Proof.Machine.execCtz x s
  | .popc x => Sys2Proof.Machine.execPopc x s
  | .sel x => Sys2Proof.Machine.execSel x s
  | .exts x => Sys2Proof.Machine.execExts x s
  | .extz x => Sys2Proof.Machine.execExtz x s
  | .bfx x => Sys2Proof.Machine.execBfx x s
  | .bfi x => Sys2Proof.Machine.execBfi x s
  | .adds x => Sys2Proof.Machine.execAdds x s
  | .addi x => Sys2Proof.Machine.execAddi x s
  | .andi x => Sys2Proof.Machine.execAndi x s
  | .ori x => Sys2Proof.Machine.execOri x s
  | .xori x => Sys2Proof.Machine.execXori x s
  | .shli x => Sys2Proof.Machine.execShli x s
  | .shri x => Sys2Proof.Machine.execShri x s
  | .shrli x => Sys2Proof.Machine.execShrli x s
  | .slti x => Sys2Proof.Machine.execSlti x s
  | .sltni x => Sys2Proof.Machine.execSltni x s
  | .lis x => Sys2Proof.Machine.execLis x s
  | .addpc imm gd => Sys2Proof.Machine.execAddpc imm gd s
  | .muli x => Sys2Proof.Machine.execMuli x s
  | .beq x => Sys2Proof.Machine.execBeq x s
  | .bne x => Sys2Proof.Machine.execBne x s
  | .blt x => Sys2Proof.Machine.execBlt x s
  | .bge x => Sys2Proof.Machine.execBge x s
  | .bltn x => Sys2Proof.Machine.execBltn x s
  | .bgen x => Sys2Proof.Machine.execBgen x s
  | .jal disp link => Sys2Proof.Machine.execJal disp link s
  | .jalr base link => Sys2Proof.Machine.execJalr base link s
  | .vadd x => Sys2Proof.Machine.execVadd x s
  | .vsub x => Sys2Proof.Machine.execVsub x s
  | .vmul x => Sys2Proof.Machine.execVmul x s
  | .vmulh x => Sys2Proof.Machine.execVmulh x s
  | .vfma x => Sys2Proof.Machine.execVfma x s
  | .vfms x => Sys2Proof.Machine.execVfms x s
  | .vmin x => Sys2Proof.Machine.execVmin x s
  | .vmax x => Sys2Proof.Machine.execVmax x s
  | .vminn x => Sys2Proof.Machine.execVminn x s
  | .vmaxn x => Sys2Proof.Machine.execVmaxn x s
  | .vand x => Sys2Proof.Machine.execVand x s
  | .vor x => Sys2Proof.Machine.execVor x s
  | .vxor x => Sys2Proof.Machine.execVxor x s
  | .vshl x => Sys2Proof.Machine.execVshl x s
  | .vshr x => Sys2Proof.Machine.execVshr x s
  | .vshrl x => Sys2Proof.Machine.execVshrl x s
  | .vadds x => Sys2Proof.Machine.execVadds x s
  | .vaddsn x => Sys2Proof.Machine.execVaddsn x s
  | .vsubs x => Sys2Proof.Machine.execVsubs x s
  | .vabsd x => Sys2Proof.Machine.execVabsd x s
  | .vdiv x => Sys2Proof.Machine.execVdiv x s
  | .vsqrt x => Sys2Proof.Machine.execVsqrt x s
  | .vrcp x => Sys2Proof.Machine.execVrcp x s
  | .vexp2 x => Sys2Proof.Machine.execVexp2 x s
  | .vscale x => Sys2Proof.Machine.execVscale x s
  | .vcmpeq x => Sys2Proof.Machine.execVcmpeq x s
  | .vcmplt x => Sys2Proof.Machine.execVcmplt x s
  | .vcmple x => Sys2Proof.Machine.execVcmple x s
  | .vcmpltn x => Sys2Proof.Machine.execVcmpltn x s
  | .vsel x => Sys2Proof.Machine.execVsel x s
  | .vdot4 x => Sys2Proof.Machine.execVdot4 x s
  | .vdot2 x => Sys2Proof.Machine.execVdot2 x s
  | .vcvtff x => Sys2Proof.Machine.execVcvtff x s
  | .vcvtfi x => Sys2Proof.Machine.execVcvtfi x s
  | .vcvtif x => Sys2Proof.Machine.execVcvtif x s
  | .vcvtii x => Sys2Proof.Machine.execVcvtii x s
  | .vquant x => Sys2Proof.Machine.execVquant x s
  | .vdeq x => Sys2Proof.Machine.execVdeq x s
  | .vbcast x => Sys2Proof.Machine.execVbcast x s
  | .vget x => Sys2Proof.Machine.execVget x s
  | .vput x => Sys2Proof.Machine.execVput x s
  | .vperm x => Sys2Proof.Machine.execVperm x s
  | .vcompr x => Sys2Proof.Machine.execVcompr x s
  | .vexpnd x => Sys2Proof.Machine.execVexpnd x s
  | .vredadd x => Sys2Proof.Machine.execVredadd x s
  | .vredmax x => Sys2Proof.Machine.execVredmax x s
  | .vredmin x => Sys2Proof.Machine.execVredmin x s
  | .vscanadd x => Sys2Proof.Machine.execVscanadd x s
  | .vmask ga vd => Sys2Proof.Machine.execVmask ga vd s
  | .vpopm x => Sys2Proof.Machine.execVpopm x s
  | .vfirst x => Sys2Proof.Machine.execVfirst x s
  | .viota x => Sys2Proof.Machine.execViota x s
  | .vbmenc x => Sys2Proof.Machine.execVbmenc x s
  | .vbmdec x => Sys2Proof.Machine.execVbmdec x s
  | .vcbdec x => Sys2Proof.Machine.execVcbdec x s
  | .vmov x => Sys2Proof.Machine.execVmov x s
  | .vrndseed va mask => Sys2Proof.Machine.execVrndseed va mask s
  | .vclass x => Sys2Proof.Machine.execVclass x s
  | .lb x => Sys2Proof.Machine.execLb x s
  | .lbn x => Sys2Proof.Machine.execLbn x s
  | .lh x => Sys2Proof.Machine.execLh x s
  | .lhn x => Sys2Proof.Machine.execLhn x s
  | .lw x => Sys2Proof.Machine.execLw x s
  | .lwn x => Sys2Proof.Machine.execLwn x s
  | .lx x => Sys2Proof.Machine.execLx x s
  | .vld x => Sys2Proof.Machine.execVld x s
  | .vldb x => Sys2Proof.Machine.execVldb x s
  | .ldesc x => Sys2Proof.Machine.execLdesc x s
  | .lbHandle x => Sys2Proof.Machine.execLbHandle x s
  | .lbnHandle x => Sys2Proof.Machine.execLbnHandle x s
  | .lhHandle x => Sys2Proof.Machine.execLhHandle x s
  | .lhnHandle x => Sys2Proof.Machine.execLhnHandle x s
  | .lwHandle x => Sys2Proof.Machine.execLwHandle x s
  | .lwnHandle x => Sys2Proof.Machine.execLwnHandle x s
  | .lxHandle x => Sys2Proof.Machine.execLxHandle x s
  | .vldHandle x => Sys2Proof.Machine.execVldHandle x s
  | .vldbHandle x => Sys2Proof.Machine.execVldbHandle x s
  | .sb x => Sys2Proof.Machine.execSb x s
  | .sh x => Sys2Proof.Machine.execSh x s
  | .sw x => Sys2Proof.Machine.execSw x s
  | .sx x => Sys2Proof.Machine.execSx x s
  | .vst x => Sys2Proof.Machine.execVst x s
  | .vstm x => Sys2Proof.Machine.execVstm x s
  | .sdesc x => Sys2Proof.Machine.execSdesc x s
  | .sbHandle x => Sys2Proof.Machine.execSbHandle x s
  | .shHandle x => Sys2Proof.Machine.execShHandle x s
  | .swHandle x => Sys2Proof.Machine.execSwHandle x s
  | .sxHandle x => Sys2Proof.Machine.execSxHandle x s
  | .vstHandle x => Sys2Proof.Machine.execVstHandle x s
  | .vstmHandle x => Sys2Proof.Machine.execVstmHandle x s
  | .ldo x => Sys2Proof.Machine.execLdo x s
  | .sto x => Sys2Proof.Machine.execSto x s
  | .swap x => Sys2Proof.Machine.execSwap x s
  | .cas x => Sys2Proof.Machine.execCas x s
  | .fadd x => Sys2Proof.Machine.execFadd x s
  | .fand x => Sys2Proof.Machine.execFand x s
  | .atFor x => Sys2Proof.Machine.execAtFor x s
  | .fxor x => Sys2Proof.Machine.execFxor x s
  | .fmin x => Sys2Proof.Machine.execFmin x s
  | .fmax x => Sys2Proof.Machine.execFmax x s
  | .fminn x => Sys2Proof.Machine.execFminn x s
  | .fmaxn x => Sys2Proof.Machine.execFmaxn x s
  | .faddf x => Sys2Proof.Machine.execFaddf x s
  | .take x => Sys2Proof.Machine.execTake x s
  | .peek x => Sys2Proof.Machine.execPeek x s
  | .put x => Sys2Proof.Machine.execPut x s
  | .trytake x => Sys2Proof.Machine.execTrytake x s
  | .tryput x => Sys2Proof.Machine.execTryput x s
  | .fill x => Sys2Proof.Machine.execFill x s
  | .drain x => Sys2Proof.Machine.execDrain x s
  | .festat x => Sys2Proof.Machine.execFestat x s
  | .fence kind storage agent => Sys2Proof.Machine.execFence kind storage agent s
  | .watch ga gd => Sys2Proof.Machine.execWatch ga gd s
  | .waitw gb gd => Sys2Proof.Machine.execWaitw gb gd s
  | .unwatch all ga => Sys2Proof.Machine.execUnwatch all ga s
  | .yieldx gb => Sys2Proof.Machine.execYieldx gb s
  | .bsync level storage => Sys2Proof.Machine.execBsync level storage s
  | .xsend gb ga => Sys2Proof.Machine.execXsend gb ga s
  | .xrecv ga gd => Sys2Proof.Machine.execXrecv ga gd s
  | .xend storage => Sys2Proof.Machine.execXend storage s
  | .cbinit h gb ga => Sys2Proof.Machine.execCbinit h gb ga s
  | .cbwait free h gb gd => Sys2Proof.Machine.execCbwait free h gb gd s
  | .cbadv h gb => Sys2Proof.Machine.execCbadv h gb s
  | .cbpush h gb => Sys2Proof.Machine.execCbpush h gb s
  | .publ agent ga gd => Sys2Proof.Machine.execPubl agent ga gd s
  | .tick gd => Sys2Proof.Machine.execTick gd s
  | .waitt ga gd => Sys2Proof.Machine.execWaitt ga gd s
  | .dsplit gb ga => Sys2Proof.Machine.execDsplit gb ga s
  | .tld x => Sys2Proof.Machine.execTld x s
  | .tst x => Sys2Proof.Machine.execTst x s
  | .tmma x => Sys2Proof.Machine.execTmma x s
  | .twld x => Sys2Proof.Machine.execTwld x s
  | .tcbt x => Sys2Proof.Machine.execTcbt x s
  | .tzero x => Sys2Proof.Machine.execTzero x s
  | .tscale x => Sys2Proof.Machine.execTscale x s
  | .tvfy x => Sys2Proof.Machine.execTvfy x s
  | .trem x => Sys2Proof.Machine.execTrem x s
  | .tcap x => Sys2Proof.Machine.execTcap x s
  | .tcfg x => Sys2Proof.Machine.execTcfg x s
  | .cpy x => Sys2Proof.Machine.execCpy x s
  | .cgather x => Sys2Proof.Machine.execCgather x s
  | .cscatter x => Sys2Proof.Machine.execCscatter x s
  | .cred x => Sys2Proof.Machine.execCred x s
  | .cqput x => Sys2Proof.Machine.execCqput x s
  | .cdep x => Sys2Proof.Machine.execCdep x s
  | .ccancel gs => Sys2Proof.Machine.execCcancel gs s
  | .gbind x => Sys2Proof.Machine.execGbind x s
  | .geval x => Sys2Proof.Machine.execGeval x s
  | .glen x => Sys2Proof.Machine.execGlen x s
  | .gspine x => Sys2Proof.Machine.execGspine x s
  | .gocc x => Sys2Proof.Machine.execGocc x s
  | .gunf x => Sys2Proof.Machine.execGunf x s
  | .gloc x => Sys2Proof.Machine.execGloc x s
  | .glook x => Sys2Proof.Machine.execGlook x s
  | .grelease x => Sys2Proof.Machine.execGrelease x s
  | .rfmatch x => Sys2Proof.Machine.execRfmatch x s
  | .rfmerge x => Sys2Proof.Machine.execRfmerge x s
  | .rfshake x => Sys2Proof.Machine.execRfshake x s
  | .rflogs x => Sys2Proof.Machine.execRflogs x s
  | .rffree x => Sys2Proof.Machine.execRffree x s
  | .nbcfg x => Sys2Proof.Machine.execNbcfg x s
  | .nbpost x => Sys2Proof.Machine.execNbpost x s
  | .nbadv x => Sys2Proof.Machine.execNbadv x s
  | .nbrd x => Sys2Proof.Machine.execNbrd x s
  | .nbwr x => Sys2Proof.Machine.execNbwr x s
  | .nbspk x => Sys2Proof.Machine.execNbspk x s
  | .hstart slot gb ga => Sys2Proof.Machine.execHstart slot gb ga s
  | .hjoin slot gd => Sys2Proof.Machine.execHjoin slot gd s
  | .hend ga => Sys2Proof.Machine.execHend ga s
  | .phint index => Sys2Proof.Machine.execPhint index s
  | .trap code ga => Sys2Proof.Machine.execTrap code ga s
  | .csrrd csr gd => Sys2Proof.Machine.execCsrrd csr gd s
  | .csrwr csr ga => Sys2Proof.Machine.execCsrwr csr ga s
  | .gend => Sys2Proof.Machine.execGend s
  | .brk code => Sys2Proof.Machine.execBrk code s
  | .xringCsrWrite csr value => Sys2Proof.Machine.execXringCsrWrite csr value s
  | .groupStart => Sys2Proof.Machine.execGroupStart s
  | .contextWake c => Sys2Proof.Machine.execContextWake c s
  | .waitwTimeout c => Sys2Proof.Machine.execWaitwTimeout c s
  | .waittDeadline c => Sys2Proof.Machine.execWaittDeadline c s
  | .yieldxExpiry c => Sys2Proof.Machine.execYieldxExpiry c s
  | .bsyncComplete others clock => Sys2Proof.Machine.execBsyncComplete others s clock
  | .xendComplete clock => Sys2Proof.Machine.execXendComplete s clock
  | .exchangeDelivery arrives => Sys2Proof.Machine.execExchangeDelivery arrives s
  | .exchangeAbort => Sys2Proof.Machine.execExchangeAbort s
  | .feRequestArrival r => Sys2Proof.Machine.execFeRequestArrival r s
  | .writeApply loc data => Sys2Proof.Machine.execWriteApply loc data s
  | .pageWalk va => Sys2Proof.Machine.execPageWalk va s
  | .jobLaunch id => Sys2Proof.Machine.execJobLaunch id s
  | .engineHandlePush id => Sys2Proof.Machine.execEngineHandlePush id s
  | .jobCompletion id others => Sys2Proof.Machine.execJobCompletion id others s
  | .publSwap c => Sys2Proof.Machine.execPublSwap c s
  | .tremCommandArrival t => Sys2Proof.Machine.execTremCommandArrival t s
  | .nbEventArrival e => Sys2Proof.Machine.execNbEventArrival e s
  | .errorReply c peer => Sys2Proof.Machine.execErrorReply c peer s
  | .faultPacket => Sys2Proof.Machine.execFaultPacket s
  | .driverResumeFault => Sys2Proof.Machine.execDriverResumeFault s
  | .driverApplyPolicy => Sys2Proof.Machine.execDriverApplyPolicy s
  | .driverAnswerTimeout => Sys2Proof.Machine.execDriverAnswerTimeout s
  | .dbgResume => Sys2Proof.Machine.execDbgResume s
  | .dbgStep => Sys2Proof.Machine.execDbgStep s
  | .debugStepBreak => Sys2Proof.Machine.execDebugStepBreak s
  | .dbgFreeze => Sys2Proof.Machine.execDbgFreeze s
  | .dbgSeal => Sys2Proof.Machine.execDbgSeal s
  | .dbgUnseal => Sys2Proof.Machine.execDbgUnseal s
  | .dbgMdataWrite value => Sys2Proof.Machine.execDbgMdataWrite value s
  | .debugRegisterWrite r value => Sys2Proof.Machine.execDebugRegisterWrite r value s
  | .pairHashArrival hash twin => Sys2Proof.Machine.execPairHashArrival hash twin s
  | .pairHashTimeout twin => Sys2Proof.Machine.execPairHashTimeout twin s
  | .preemptionRequest => Sys2Proof.Machine.execPreemptionRequest s
  | .forcedPark => Sys2Proof.Machine.execForcedPark s
  | .coreSave => Sys2Proof.Machine.execCoreSave s
  | .saveCapExpiry c => Sys2Proof.Machine.execSaveCapExpiry c s
  | .coreResumption => Sys2Proof.Machine.execCoreResumption s
  | .watchdogStep1 c => Sys2Proof.Machine.execWatchdogStep1 c s
  | .watchdogStep2 c => Sys2Proof.Machine.execWatchdogStep2 c s
  | .watchdogStep3 c => Sys2Proof.Machine.execWatchdogStep3 c s
  | .retirementAck job => Sys2Proof.Machine.execRetirementAck job s
  | .quantumBoundary charges => Sys2Proof.Machine.execQuantumBoundary charges s
  | .freezeTick => Sys2Proof.Machine.execFreezeTick s
  | .freezeImageComplete => Sys2Proof.Machine.execFreezeImageComplete s
  | .resumeTick => Sys2Proof.Machine.execResumeTick s
  | .launchPacket q => Sys2Proof.Machine.execLaunchPacket q s
  | .launchNoopPacket q => Sys2Proof.Machine.execLaunchNoopPacket q s
  | .coreGrant l => Sys2Proof.Machine.execCoreGrant l s
  | .launchStarttick l => Sys2Proof.Machine.execLaunchStarttick l s
  | .gangAcceptance module l => Sys2Proof.Machine.execGangAcceptance module l s
  | .gangDeadline l => Sys2Proof.Machine.execGangDeadline l s
  | .gangWithdrawal l => Sys2Proof.Machine.execGangWithdrawal l s
  | .launchCompletion l => Sys2Proof.Machine.execLaunchCompletion l s
  | .controlNop => Sys2Proof.Machine.execControlNop s
  | .jobnew => Sys2Proof.Machine.execJobnew s
  | .regq => Sys2Proof.Machine.execRegq s
  | .unregq => Sys2Proof.Machine.execUnregq s
  | .kill => Sys2Proof.Machine.execKill s
  | .pubreg => Sys2Proof.Machine.execPubreg s
  | .freeze => Sys2Proof.Machine.execFreeze s
  | .resume => Sys2Proof.Machine.execResume s
  | .ctlqBlockedTimeout => Sys2Proof.Machine.execCtlqBlockedTimeout s
  | .modnumWrite value => Sys2Proof.Machine.execModnumWrite value s
  | .feataccWrite k value => Sys2Proof.Machine.execFeataccWrite k value s
  | .ctlqWrite value => Sys2Proof.Machine.execCtlqWrite value s
  | .errWrite value => Sys2Proof.Machine.execErrWrite value s
  | .hostRead off len => Sys2Proof.Machine.execHostRead off len s
  | .hostWrite off data => Sys2Proof.Machine.execHostWrite off data s
  | .hostAtomicop op size off operand compare => Sys2Proof.Machine.execHostAtomicop op size off operand compare s
  | .hostConfigRequest port => Sys2Proof.Machine.execHostConfigRequest port s
  | .flitIdle port f => Sys2Proof.Machine.execFlitIdle port f s
  | .flitRequest port f => Sys2Proof.Machine.execFlitRequest port f s
  | .flitResponse port f => Sys2Proof.Machine.execFlitResponse port f s
  | .flitTime port f => Sys2Proof.Machine.execFlitTime port f s
  | .flitLaunchControl port f => Sys2Proof.Machine.execFlitLaunchControl port f s
  | .timeFlitTimer => Sys2Proof.Machine.execTimeFlitTimer s
  | .linkReplayLimit port => Sys2Proof.Machine.execLinkReplayLimit port s
  | .linkAckTimeout port => Sys2Proof.Machine.execLinkAckTimeout port s
  | .standbyPowerOn => Sys2Proof.Machine.execStandbyPowerOn s
  | .moduleReset => Sys2Proof.Machine.execModuleReset s
  | .firmwareBootTimeout => Sys2Proof.Machine.execFirmwareBootTimeout s
  | .powerGoodLoss stage => Sys2Proof.Machine.execPowerGoodLoss stage s
  | .sensorSample r => Sys2Proof.Machine.execSensorSample r s
  | .setPowerCap watts => Sys2Proof.Machine.execSetPowerCap watts s
  | .pldmFirmwareUpdate image signed => Sys2Proof.Machine.execPldmFirmwareUpdate image signed s
  | .spdmRequest index => Sys2Proof.Machine.execSpdmRequest index s
  | .unassignedEncoding w => Sys2Proof.Machine.execUnassignedEncoding w s
  | .softError t => Sys2Proof.Machine.execSoftError t s
  | .pageMappingSupplied va => Sys2Proof.Machine.execPageMappingSupplied va s
  | .hostCompletion c refused => Sys2Proof.Machine.execHostCompletion c refused s
  | .hostPortLinkChange port up => Sys2Proof.Machine.execHostPortLinkChange port up s
  | .perstChange port asserted => Sys2Proof.Machine.execPerstChange port asserted s
  | .podLinkRetrain port => Sys2Proof.Machine.execPodLinkRetrain port s
  | .standbyPowerLoss => Sys2Proof.Machine.execStandbyPowerLoss s

end Sys2Proof.Machine
end

