-- ==== Sys2Proof/Machine/Fetch.lean ====
section
/-! DEFINITION. Fetching a form (R81), the pairings of TRIPLE and WIDE (R93, R94, R142) and the features that gate
instructions (R107). -/

namespace Sys2Proof.Machine

/-! ### Fetching (R81) -/

/-- The location of one byte that a fetch reads: the core's own scratchpad or a page of device memory that is not protected
(R81; log 43). DESIGN CHOICE (log 111): an address of device memory whose page has HOST set (R339) is one of device memory to a fetch, which
reads the host's bytes. -/
def fetchLoc (s : State) (a : Nat) : Chk Nat :=
  let at_ := BitVec.ofNat 64 a
  match regionOf a with
  | .spad => .ok a
  | .hbm =>
    match translation s a with
    | none => .error { cls := .pageFault, addr := at_ }
    | some l => if l.pr then .error { cls := .protFault, addr := at_ } else .ok (frontLoc s l a)
  | _ => .error { cls := .protFault, addr := at_ }

/-- Whether a fetch of a location meets poison: a block of format 0xFF in device memory, or a poisoned granule (R81). -/
def fetchPoison (s : State) (loc : Nat) : Bool :=
  (decide (hbmLoc ≤ loc) && decide (fmtOf s (loc / 64) = 0xFF)) || s.poison.contains (loc / 8)

/-- A byte as memory shows it to a fetch that misses the instruction cache; packed pages read back as R290 says. -/
def fetchView (s : State) (a loc : Nat) : Byte :=
  if inPacked s a then (packedBlock s (loc / 64)).getD (loc % 64) 0 else Memory.get s.mem loc

/-- The 32-byte block of a location as the instruction cache holds it (R82). -/
def cachedBlock (s : State) (block : Nat) : Option (List Byte) :=
  (s.icache.find? fun e => decide (e.1 = block)).map fun e => e.2

/-- One byte fetched: of a block in the instruction cache as it stood when it was cached, of any other as it stands. Which blocks
are cached, and since when, is free (R82: the spec allows either; log 74). DESIGN CHOICE (log 74): the poison is what stands now, of a
cached block too; the spec does not say whether a fetch that hits the cache meets a poisoning that came after the block was cached. -/
def fetchByte (s : State) (a : Nat) : Chk Byte :=
  (fetchLoc s a).andThen fun loc =>
    if fetchPoison s loc then .error { cls := .uncorrectable, addr := BitVec.ofNat 64 a } else
      .ok (match cachedBlock s (loc / 32) with
        | some bs => bs.getD (loc % 32) 0
        | none => fetchView s a loc)

/-- The instruction cache with the block of 32 bytes at an address as it stands now, where a fetch can reach it (R82). -/
def cacheAt (s : State) (a : Nat) : State :=
  match fetchLoc s a with
  | .ok loc =>
    let bs := (List.range 32).map fun i => fetchView s (a + i) (loc + i)
    { s with icache := (loc / 32, bs) :: s.icache.filter fun e => !decide (e.1 = loc / 32) }
  | .error _ => s

/-- The instruction cache takes in a block that a fetch can reach: any, at any time (R82; log 74). -/
def cacheBlock (s : State) : State := cacheAt s.tickChoice (32 * (Config.pick s.choice % 2 ^ 40))

/-- The instruction cache gives up one of its blocks: any (R82; log 74). -/
def dropBlock (s : State) : State :=
  match s.icache[Config.pick s.choice % max 1 s.icache.length]? with
  | some b => { s.tickChoice with icache := s.icache.filter fun e => !decide (e.1 = b.1) }
  | none => s.tickChoice

/-- Bytes fetched in order; the first fault found is the fetch's. -/
def fetchBytes (s : State) (a : Nat) : Nat → Chk (List Byte)
  | 0 => .ok []
  | n + 1 => (fetchByte s a).andThen fun b => (fetchBytes s (a + 1) n).andThen fun r => .ok (b :: r)

/-- The bytes of the form at an address: one parcel, and a second where bit 0 of the first is 1 (R80, R81). -/
def fetchForm (s : State) (a : Nat) : Chk (List Byte) :=
  (fetchBytes s a 2).andThen fun p =>
    if (p.headD 0).getLsbD 0 then (fetchBytes s (a + 2) 2).andThen fun q => .ok (p ++ q) else .ok p

/-! ### The unit's pairings (R93, R94, R142) and gates (R107), by the word -/

/-- The class of a long word (R96). -/
def wordClass (w : Nat) : Nat := bits w 1 4

/-- The opcode of a long word whose class has one of five bits (R96). -/
def wordOp (w : Nat) : Nat := bits w 5 5

/-- TRIPLE is accepted before SALU, SIMM and VA words and before VX words other than VRNDSEED and those with rnd2 = 10,
whether valid or not (R93, R94). -/
def acceptsTriple (w : Nat) : Bool :=
  decide (wordClass w = 0) || decide (wordClass w = 1) || decide (wordClass w = 3) ||
    (decide (wordClass w = 4) && decide (wordOp w ≠ 24) && !decide (bits w 30 2 = 2))

/-- WIDE is accepted before SIMM words and before the AT words STO to FMAXN, PUT, TRYPUT and FILL but for CAS (R94, R103). -/
def acceptsWide (w : Nat) : Bool :=
  decide (wordClass w = 1) ||
    (decide (wordClass w = 7) && [1, 2, 4, 5, 6, 7, 8, 9, 10, 11, 15, 17, 18].contains (wordOp w))

/-- Whether a form may follow what the unit holds: a short one only where it is the other form that precedes an instruction
(R93, R94). DEDUCED (log 44): an unassigned long word is judged by its class and opcode fields, as R93's 'whether its encoding is otherwise
valid or not' has it. DESIGN CHOICE (log 96): a parcel of TRIPLE's kind with a nonzero payload, which is ILLEGAL_INSN on its own (R92), is
not 'the other prefix' after WIDE, so that the pair is ILLEGAL_PREFIX; the spec names neither. -/
def unitAccepts (u : UnitForm) (w : Nat) : Bool :=
  if w % 2 = 0 then (decide (bits w 0 6 = 0x0E) && decide (bits w 6 10 = 0)) || decide (bits w 0 6 = 0x16)
  else (!u.triple || acceptsTriple w) && (!u.wide.isSome || acceptsWide w)

/-- The feature bit that a long word's instruction needs (R107). -/
def gateOf (w : Nat) : Option Nat :=
  if w % 2 = 0 then none
  else if wordClass w = 11 then some 0
  else if wordClass w = 12 then (if wordOp w ≤ 4 then some 1 else some 2)
  else none

/-- Whether an instruction's features are accepted: its own, and redundant issue where TRIPLE precedes it (R107, R142). -/
def featuresOk (s : State) (w : Nat) : Bool :=
  ((gateOf w).all fun f => feature s f) && (!tripled s || decide (w % 2 = 0) || feature s 3)

/-! ### Issuing -/

/-- The state in which a fetched form executes: its word is known to fault packets and to the job queue. -/
def withInsn (s : State) (w : Nat) : State :=
  s.setCtx s.cur { s.ctx s.cur with insn := BitVec.ofNat 32 w }

/-- What precedes execution, in R105's order: none where the instruction executes; the class of the fault where it does not. -/
def formFault (s : State) (w : Nat) : Option FaultClass :=
  match s.core.unit with
  | some u => if unitAccepts u w then (if featuresOk s w then none else some .illegalInsn) else some .illegalPrefix
  | none => if featuresOk s w then none else some .illegalInsn

/-- The device-memory blocks of 32 bytes that a fetch of `n` bytes asks for in a paired launch: those that the instruction cache does not
hold (R82, R313). -/
def fetchBlocks (s : State) (a n : Nat) : List Nat :=
  if s.core.twin.isNone then [] else
    [a / 32 * 32, (a + n - 1) / 32 * 32].eraseDups.filter fun b => decide (regionOf b = .hbm) && (match fetchLoc s b with
      | .ok loc => (cachedBlock s (loc / 32)).isNone
      | .error _ => false)

/-- A fetch's requests leave the core one by one, each once the other copy's hash agrees, and what they bring stands in the instruction
cache (R82, R313). -/
def fetchGate : List Nat → State → (State → Out) → Out
  | [], s, k => k s
  | b :: r, s, k => pairGateIf true s b 0 60 fun s => fetchGate r (cacheAt s b) k

/-- The current context issues its next form; `run` is the dispatch of a decoded instruction. -/
noncomputable def issueWith (run : Instr → State → Out) (s : State) : Out :=
  let pc := (s.ctx s.cur).pc.toNat
  match fetchForm s pc with
  | .error f => fault ((withInsn s (Config.unfetched s.choice).toNat).tickChoice) f
  | .ok bs => fetchGate (fetchBlocks s pc bs.length) s fun s =>
    let w := leNat bs
    let s := withInsn s w
    match formFault s w with
    | some c => faultCls s c
    | none =>
      match decode bs with
      | .ok (i, _) => run i s
      | .error _ => run (.unassignedEncoding (BitVec.ofNat 32 w)) s

end Sys2Proof.Machine
end

