-- ==== Sys2Proof/Machine/Schedule.lean ====
section
/-! DEFINITION. What happens next: the sticky issue selector (R24 to R26), the events that the machine brings about of its
own, and what the controller does while the module has no power (R350 to R354). -/

namespace Sys2Proof.Machine

noncomputable section

/-! ### The issue selector (R24, R25, R26) -/

/-- Whether the core may issue at all; at a module freeze contexts run on until they park (R324). -/
def coreRuns (s : State) : Bool :=
  !s.core.frozen && !s.core.fenced && !s.core.saving

/-- Whether a context is ready (R24): it owes no other context a turn (R26); a debug step is for one context, whatever it owes
(R310). -/
def ready (s : State) (c : Fin 8) : Bool :=
  coreRuns s && awake s c &&
    (match s.core.stepping with
     | some d => decide (d = c) && !s.core.stepDone
     | none => (s.ctx c).owed.isEmpty)

/-- The slots in the selector's order: c + 1, c + 2, … modulo 8 (R25). -/
def after (c : Fin 8) : List (Fin 8) := [c + 1, c + 2, c + 3, c + 4, c + 5, c + 6, c + 7]

/-- The context that issues: the current one unless it is not ready or stalls, else the first ready one after it (R25). -/
def select (s : State) (stall : Bool) : Option (Fin 8) :=
  match (after s.cur).find? (ready s) with
  | some d => if ready s s.cur && !stall then some s.cur else some d
  | none => if ready s s.cur then some s.cur else none

/-- The selector turns to a context, which has had its turn (R26). -/
def turnTo (s : State) (c : Fin 8) : State :=
  { s with ctxs := Vector.ofFn fun d => { s.ctx d with owed := (s.ctx d).owed.filter fun e => !decide (e = c) },
           core := { s.core with cur := c } }

/-- Where the current context has left the issue slot, by a stall, a sleep, a YIELD, its end or a park, the first ready context after it
is the current one; with none ready it goes on itself when it is ready (R25). -/
def passedOn (s : State) : State :=
  if ready s s.cur then s else match (after s.cur).find? (ready s) with
    | some d => { s with core := { s.core with cur := d } }
    | none => s

/-- What an issue leaves, with the slot passed on. -/
def passOn (o : Out) : Out :=
  match o with
  | .next t => .next (passedOn t)
  | .fault f => .fault f
  | .refused r => .refused r

/-- A context issues one form. -/
def issue (s : State) (c : Fin 8) : Out := passOn (issueWith exec (turnTo s c))

/-! ### The machine's own events -/

/-- Whether an event can happen. -/
def enabled (s : State) (i : Instr) : Bool :=
  match exec i s with
  | .refused _ => false
  | _ => true

/-- Events of a context that waits (R24). -/
def waitEvents (s : State) (c : Fin 8) : List Instr :=
  match (s.ctx c).wait with
  | none => []
  | some w =>
    .contextWake c :: (match w with
      | .watched timed => if timed then [.waitwTimeout c] else []
      | .tick _ => [.waittDeadline c]
      | .cycles => [.yieldxExpiry c]
      | .barrier _ _ => [.bsyncComplete [] []]
      | .exchange _ => [.xendComplete []]
      | .publish => [.publSwap c]
      | _ => [])

/-- Events of the cluster's engines (R35, R38, R41). -/
def engineEvents (s : State) : List Instr :=
  (s.clu.jobs.map fun j => [.jobLaunch j.id, .engineHandlePush j.id, .jobCompletion j.id []]).flatten

/-- Events of the core: a group's start (R20), a packet's way (R33), a debug step's end (R310), saving and resuming (R315,
R319). -/
def coreEvents (s : State) : List Instr :=
  (if s.core.launch.isSome && !s.core.groupLive then [.groupStart] else []) ++
  (if s.core.outgoing.isSome || !s.core.arriving.isEmpty then [.exchangeDelivery none] else []) ++
  (if s.core.stepDone then [.debugStepBreak] else []) ++
  (if s.core.preempt || s.core.saving then [.coreSave] else []) ++
  (if s.saved.isEmpty then [] else [.coreResumption]) ++
  (if s.mod.inbox.isEmpty then [] else [.faultPacket])

/-- Events of the launch unit (R331 to R337) and of a retired job (R322). -/
def launchEvents (s : State) : List Instr :=
  ((List.range s.mod.queues.length).map fun q => [.launchPacket q, .launchNoopPacket q]).flatten ++
  (s.mod.launches.map fun l => [.coreGrant l.id, .launchStarttick l.id, .launchCompletion l.id]).flatten ++
  (s.mod.jobs.filter fun j => j.retired).map fun j => .retirementAck j.id

/-- Commands of the control queue (R338) and the ticks that they set (R346, R347). -/
def controlEvents (s : State) : List Instr :=
  (if (ctlHead s).isSome then [.controlNop, .jobnew, .regq, .unregq, .kill, .pubreg, .freeze, .resume] else []) ++
  (if s.mod.freeze.isSome then [.freezeTick, .freezeImageComplete] else []) ++
  (if s.mod.resume.isSome then [.resumeTick] else [])

/-- What the machine can bring about of its own in a state. -/
def ownEvents (s : State) : List Instr :=
  ((slots.map (waitEvents s)).flatten ++ engineEvents s ++ coreEvents s ++ launchEvents s ++ controlEvents s).filter (enabled s)

/-! ### One step -/

/-- Nothing issues and nothing happens: time passes (R4). -/
def idle (s : State) : Out := .next (observeTick s)

/-- The core issues, or time passes. -/
def issueOrIdle (s : State) (stall : Bool) : Out :=
  match select s stall with
  | some c => issue s c
  | none => idle s

/-- The writes that have left the core are acknowledged (R212). -/
def acknowledged (s : State) : State := { s.tickChoice with unacked := false }

/-- Steps that no event row names: the instruction cache (R82), a job's progress and the end of its work (R215), writes that become
visible and are acknowledged (R211, R212), the other cores' entries in the job queue (R14), another core's withdrawal (R22), its sealing
and unsealing (R311, R312), and what a pod port sends (R345). Each changes nothing but the free choice where there is nothing for it to
do. -/
def silentSteps : List (State → State) :=
  [cacheBlock, dropBlock, jobProgress, jobPerforms, oldestSeen, acknowledged, queueBeside, peerWithdraws, peerSeals, replayFlits,
   sendMessage]

/-- A free choice among the machine's own events, its silent steps and the core's next form (log 11); a stall turns the selector
(log 24). -/
def choose (s : State) : Out :=
  let es := ownEvents s
  let n := Config.pick s.choice % (es.length + silentSteps.length + 1)
  match es[n]?, silentSteps[n - es.length]? with
  | some i, _ => exec i s.tickChoice
  | none, some f => .next (f s.tickChoice)
  | none, none => issueOrIdle s.tickChoice (Config.stalls (s.choice + 1))

/-- Whether the module has power (R350, R353). -/
def powered (s : State) : Bool := s.mod.spaly.standby && decide (s.mod.spaly.stage ≠ 0)

/-- Without power only the controller's own events happen: the return of standby power, and, while it has that, a module
reset, its firmware and its requests (R350, R352), and what the host's ports are asked or told before step 7 (R353, R355). -/
def unpowered (s : State) : Out :=
  match s.inputs with
  | some i :: r =>
    match i with
    | .standbyPowerOn | .moduleReset | .pldmFirmwareUpdate _ _ | .spdmRequest _ | .standbyPowerLoss | .setPowerCap _ |
      .hostConfigRequest _ | .perstChange _ _ | .sensorSample _ =>
      exec i { s with inputs := r }
    | _ => .refused .eventNotEnabled
  | _ => .fault .powerLost

/-- What happens at a boundary between units: the event or the issue that `inputs` gives, or a free choice. -/
def boundary (s : State) : Out :=
  match s.inputs with
  | some i :: r => exec i { s with inputs := r }
  | none :: r => issueOrIdle { s with inputs := r } false
  | [] => choose s

/-- One step of the machine: nothing comes between the forms of a unit (R93). -/
def stepOnce (s : State) : Out :=
  if !powered s then unpowered s
  else if s.core.unit.isSome && coreRuns s then passOn (issueWith exec s)
  else boundary s

end

end Sys2Proof.Machine
end

