-- ==== Sys2Proof/Machine/Step.lean ====
section
/-! DEFINITION. The step, and a state whose next step runs a given instruction. -/

namespace Sys2Proof.Machine

noncomputable section

/-- One step of the machine. -/
def step (s : State) : Host.Outcome State Fault Refusal := stepOnce s

/-- `s` with an instruction of `nbits` bits at address 0 of the core's scratchpad (zeros above), the control context live
there with every feature accepted, nothing in the instruction cache, and the next thing to happen being that it issues. It stands for the launch that would
have brought the program there (log 41). -/
def State.withFetchWord (s : State) (nbits w : Nat) : State :=
  let bs := leBytes 4 (w % 2 ^ nbits)
  let x := s.ctx 0
  let x' := { x with live := true, pc := 0, wait := none, parked := none, stopped := false, owed := [] }
  let c := { s.core with cur := 0, unit := none, frozen := false, sealed := false, fenced := false, saving := false,
                         stepping := none, stepDone := false, feat := #v[0x3FF, 0, 0, 0] }
  let p := { s.mod.spaly with standby := true, stage := 7 }
  let m := { s.mod with frozen := false, spaly := p }
  { s.setCtx 0 x' with core := c, mod := m, mem := Memory.putBytes s.mem 0 bs,
                       poison := setErase s.poison 0, icache := [], inputs := none :: s.inputs }

end

end Sys2Proof.Machine
end

