-- ==== Sys2Proof/Safety.lean ====
section
/-! DEFINITION. The terms that claims use: when an instruction may run, the registers it names, what a frame keeps, what a
lane-wise result is, and the invariants of the machine. -/

namespace Sys2Proof.Machine

/-! ### When an instruction may run -/

/-- No TRIPLE precedes the instruction, or no error strikes its three executions (R142 to R144). -/
def Quiet (s : State) : Prop := tripled s = false ∨ s.upsets = []

/-- Neither TRIPLE nor WIDE precedes the instruction (R93). -/
def Bare (s : State) : Prop := s.core.unit = none

/-- No register named is pending (R35), and none that is read has broken parity (R311). -/
def RegsFree (s : State) (reads writes : List GReg) : Prop :=
  (∀ r ∈ reads ++ writes, isPending s s.cur r = false) ∧ ∀ r ∈ reads, RegName.g r ∉ (s.ctx s.cur).poisoned

/-- No vector register read has broken parity (R311). -/
def VecsSound (s : State) (reads : List VCode) : Prop := ∀ v ∈ reads, RegName.vec v ∉ (s.ctx s.cur).poisoned

/-- The core is no copy of a paired launch, or the address stays within it, so that no request waits for a twin (R313). -/
def Unpaired (s : State) (a : Nat) : Prop := s.core.twin = none ∨ leavesCore s a = false

/-- A read of `n` aligned bytes at `a` may go on, whatever it may read: every check of R174 passes and gives the runs of locations, no
request waits for a twin, and no byte read lies in an accumulator tile that a job owns (R226). -/
def ReadReady (s : State) (a n align : Nat) (runs : List (Nat × Nat)) : Prop :=
  a % align = 0 ∧ checkRead s a n = .ok runs ∧ Unpaired s a ∧ (runLocs runs).any (earlyByte s) = false

/-- Bytes of which the current context can read nothing older than the newest write any more (R211), and whose newest write goes on no
release that a later fence might have to follow (R209). -/
def SeenAt (s : State) (runs : List (Nat × Nat)) : Prop :=
  ∀ l ∈ runLocs runs, oldFor s s.cur l = none ∧ s.vis.headsAt l = []

/-- As `ReadReady`, of bytes whose newest write is all that may be read. -/
def LoadReady (s : State) (a n align : Nat) (runs : List (Nat × Nat)) : Prop := ReadReady s a n align runs ∧ SeenAt s runs

/-- What a load of aligned words may show besides memory (R179, R211): of each 8 bytes the writes that it passes over are of those that its
context has not seen, bytes of one write and unit are passed over together, and a byte reads as the oldest of them found it. -/
def MayLoad (s : State) (runs : List (Nat × Nat)) (v : List Byte) : Prop :=
  v.length = (runLocs runs).length ∧ ∃ past : Nat → List (Nat × Nat),
    (∀ k l : Nat, (runLocs runs)[k]? = some l → v[k]? = some (match passedAt s.vis l (past (l / 8)) with
      | some u => u.old
      | none => Memory.get s.mem l)) ∧
    ∀ l ∈ runLocs runs, ∀ u ∈ s.vis.unseen, u.loc = l → (u.stamp, u.unit) ∈ past (l / 8) → u.knownTo (.ctx s.cur) = false

/-- A write of `n` aligned bytes at `a` may go on. -/
def StoreReady (s : State) (a n align : Nat) (runs : List (Nat × Nat)) : Prop :=
  a % align = 0 ∧ checkWrite s a n = .ok runs ∧ Unpaired s a

/-- An access in handle mode may go on at the address it forms from a slot position (R40): the handle is configured, the
access stays in one slot and within its need, and there are slots enough. -/
def HandleReady (s : State) (h : Fin 8) (o need n : Nat) (free : Bool) (x : Handle) : Prop :=
  getHandle s s.cur h = some x ∧ o % x.size + n ≤ x.size ∧ need ≤ x.count ∧ o + n ≤ need * x.size ∧
    need ≤ (if free then x.count - x.fill else x.fill)

/-- An atomic access of the word at `a` may go on, outside the host window (R174, R183). -/
def AtomicReady (s : State) (a n : Nat) (runs : List (Nat × Nat)) : Prop :=
  a % n = 0 ∧ regionOf a ≠ .host ∧ checkAtomic s a n = .ok runs ∧ Unpaired s a

/-- A write of this order at a location has no acknowledgement to wait for: it is no release there, or not one whose scopes wait, or none
is outstanding (R208, R212). -/
def Acked (s : State) (m : AtMode) (loc : Nat) : Prop :=
  releasesAt m loc = true → waitsAcks m.storage m.agent = true → s.unacked = false

/-- The data of an atomic instruction, modulo the access's width: WIDE's payload, which needs gb to be 0, or gb (R94, R180). -/
def AtomicData (s : State) (gb : GReg) (n data : Nat) : Prop :=
  match widePayload s with
  | some p => gb = 0 ∧ data = (p.signExtend 64).toNat % 2 ^ (8 * n)
  | none => data = (getG s s.cur gb).toNat % 2 ^ (8 * n)

/-- A value of `n` bytes, sign-extended. -/
def signedWord (n x : Nat) : Word := BitVec.ofInt 64 (sInt (8 * n) x)

/-! ### Results -/

/-- The state in which a g result has been written and the instruction has retired. -/
def doneG (s : State) (rd : GReg) (v : Word) (len : Nat) : State := retire (setG s s.cur rd v) s.cur len

/-- The state in which a vector result has been written and pushed and the instruction has retired. -/
def doneV (s : State) (vd : VCode) (v : Vec) (len : Nat) : State := retire (pushL (setV s s.cur vd v) s.cur v) s.cur len

/-- A lane-wise result (R85, R86, R143): the instruction completes with a vector of which every active element is the lane's
value, every other one keeps the destination's, or under agn without TRIPLE may be 0, and all above them is 0. -/
def LaneResult (o : Out) (s s' : State) (vd : VCode) (mask : Fin 8) (agn : Bool) (w n : Nat) (f : Nat → Nat) (len : Nat) :
    Prop :=
  ∃ v : Vec, o = .next (doneV (if agn then s'.tickChoice else s') vd v len) ∧
    (∀ e, e < n → active s mask n e = true → elem w v e = f e % 2 ^ w) ∧
    (∀ e, e < n → active s mask n e = false →
      elem w v e = elem w (getV s s.cur vd) e ∨ (agn = true ∧ tripled s = false ∧ elem w v e = 0)) ∧
    v.toNat < 2 ^ (w * n)

/-- An unmasked vector result. -/
def PlainResult (o : Out) (s : State) (vd : VCode) (w n : Nat) (f : Nat → Nat) (len : Nat) : Prop :=
  ∃ v : Vec, o = .next (doneV s vd v len) ∧ (∀ e, e < n → elem w v e = f e % 2 ^ w) ∧ v.toNat < 2 ^ (w * n)

/-- A vector instruction may run: its sources, its mask and, under a mask, its old destination are sound, and its destination
is not one of the codes 1 to 3 (R84, R86, R311). -/
def LanesReady (s : State) (reads : List VCode) (vd : VCode) (mask : Fin 8) : Prop :=
  Quiet s ∧ VecsSound s (reads ++ maskCode mask ++ mergeReads vd mask) ∧ goodDest vd = true

/-- A finite value as a rational number, and 0 for the others (R46). -/
def FVal.toRat (v : FVal) : ℚ :=
  match v with
  | .fin s m e => (if s then -1 else 1) * m * 2 ^ e
  | _ => 0

/-! ### Jobs that end -/

/-- A running job that nothing holds back: its register awaits it, no published buffer hangs on it, no twin is waited for, every
job of its engine that started before it has ended, the core is not fenced (R35, R204, R275, R313, R320), and it has seen every write that
it might read past (R211). -/
def Unhindered (s : State) (id : Nat) (j : Job) : Prop :=
  findJob s id = some j ∧ running j = true ∧ j.remote = none ∧ j.sreg ≠ 0 ∧ (s.ctx j.ctx).pend[j.sreg.val] = some id ∧
    j.shadows = [] ∧ awaitsTwin s j = false ∧ inTurn s j = true ∧ s.core.fenced = false ∧
    jobMisses s j = []

/-- The job ends: its register holds the status word with the code and the count and is pending no more (R35 to R37), and
`p` holds of the state. -/
def EndsWith (s : State) (id : Nat) (others : List CredShare) (j : Job) (code : StatusCode) (count : Nat) (p : State → Prop) :
    Prop :=
  ∃ t, exec (.jobCompletion id others) s = .next t ∧ p t ∧ isPending t j.ctx j.sreg = false ∧
    (getG t j.ctx j.sreg).toNat = 2 ^ 63 + (if code = .ok ∨ code = .boltFixed ∨ code = .lateEvents then 0 else 2 ^ 62) +
      code.num * 2 ^ 56 + (cmdEngine j.cmd).unitNum * 2 ^ 48 + count % 2 ^ 48

/-- As `EndsWith`, of a CRED: with other members its work is an event of its own, and the status that it sets then is written by the next
(R215). -/
def SharesEnd (s : State) (id : Nat) (others : List CredShare) (j : Job) (code : StatusCode) (count : Nat) (p : State → Prop) : Prop :=
  (others = [] → EndsWith s id others j code count p) ∧
  (others ≠ [] → ∃ t k, exec (.jobCompletion id others) s = .next t ∧ p t ∧ findJob t id = some k ∧ k.status = some (code, count))

/-- A tile as R216 lays it out: an accumulator, or a slot of a tile format whose bytes lie in the scratchpad. -/
def TileAt (s : State) (t loc fmt : Nat) : Prop :=
  tilePlace s t = some (loc, fmt) ∧ t < 68 ∧ isTileFmt fmt = true ∧ (t < 64 → loc % 64 = 0 ∧ loc + tileBytes fmt ≤ 0x20000)

/-- A job read its record at its start with nothing in the way (R257, R273), and begins at its beginning, with no resume point (R269,
R279). -/
def RecordStands (j : Job) : Prop :=
  j.done = 0 ∧ j.resume = [] ∧ j.recordStop = none

/-! ### Frames -/

/-- Every byte of memory, every descriptor and every tag is as before. -/
def MemoryKept (s t : State) : Prop :=
  (∀ loc, Memory.get t.mem loc = Memory.get s.mem loc) ∧ (∀ b, descOf t b = descOf s b) ∧ t.tags = s.tags

/-- A context keeps its vector registers, generator states and handles. -/
def VectorsKept (x y : Ctx) : Prop := y.l = x.l ∧ y.k = x.k ∧ y.v = x.v ∧ y.st = x.st ∧ y.h = x.h ∧ y.y = x.y ∧ y.q = x.q

/-- The core keeps its control and status registers but for the counters of time (R109). -/
def CsrsKept (s t : State) : Prop :=
  t.core.lid = s.core.lid ∧ t.core.groupId = s.core.groupId ∧ t.core.groupCnt = s.core.groupCnt ∧
  t.core.launchArg = s.core.launchArg ∧ t.core.dom = s.core.dom ∧ t.core.liveBase = s.core.liveBase ∧
  t.core.xringBase = s.core.xringBase ∧ t.core.xringSize = s.core.xringSize ∧ t.core.xspillBase = s.core.xspillBase ∧
  t.core.xspillSize = s.core.xspillSize ∧ t.core.tolWide = s.core.tolWide ∧ t.core.tolNarrow = s.core.tolNarrow ∧
  t.core.corrected = s.core.corrected ∧ t.core.unverified = s.core.unverified ∧ t.core.gamma = s.core.gamma

/-- Locations outside runs of bytes read as before. -/
def OutsideKept (s t : State) (runs : List (Nat × Nat)) : Prop :=
  ∀ loc, (∀ r ∈ runs, ¬ (r.1 ≤ loc ∧ loc < r.1 + r.2)) → Memory.get t.mem loc = Memory.get s.mem loc

/-! ### The registers an instruction names -/

/-- The g registers that an instruction reads or writes, but for the status register of an engine command. -/
def gNamed (i : Instr) : List GReg :=
  match i with
  | .addShort x | .subShort x | .andShort x | .orShort x | .xorShort x | .sltShort x => [x.gd, x.gs]
  | .addi4 x | .shliShort x | .shriShort x | .shrliShort x | .li4 x => [x.gd]
  | .mov x => [x.gs, x.gd]
  | .lw16 x | .lx16 x | .sw16 x | .sx16 x => [x.gs, x.gd]
  | .beqz x | .bnez x | .bltz x => [x.gs]
  | .add x | .sub x | .mul x | .mulh x | .mulhn x | .div x | .divn x | .rem x | .remn x | .and x | .or x | .xor x | .andn x
  | .shl x | .shr x | .shrl x | .rol x | .slt x | .sltn x | .min x | .max x | .minn x | .maxn x | .sel x | .exts x | .extz x
  | .bfx x | .bfi x | .adds x => [x.ga, x.gb, x.gd]
  | .clz x | .ctz x | .popc x => [x.ga, x.gd]
  | .addi x | .andi x | .ori x | .xori x | .slti x | .sltni x | .lis x | .muli x => [x.ga, x.gd]
  | .shli x | .shri x | .shrli x => [x.ga, x.gd]
  | .addpc _ gd => [gd]
  | .beq x | .bne x | .blt x | .bge x | .bltn x | .bgen x => [x.ga, x.gb]
  | .jal _ link => [link]
  | .jalr base link => [base, link]
  | .vquant x => [x.ga, x.gd]
  | .vdeq x => [x.ga]
  | .vcbdec x => [x.ga, pairReg x.ga]
  | .vbcast x => [x.ga]
  | .vget x | .vpopm x | .vfirst x => [x.gd]
  | .vput x => [x.ga, pairReg x.ga]
  | .vmask ga _ => [ga]
  | .vbmenc x => [x.gd]
  | .vbmdec x => [x.ga]
  | .lb x | .lbn x | .lh x | .lhn x | .lw x | .lwn x | .lx x | .ldesc x | .sb x | .sh x | .sw x | .sx x | .sdesc x =>
    [x.base, x.reg]
  | .vld x | .vldb x | .vst x => [x.base]
  | .vstm x => [x.base]
  | .lbHandle x | .lbnHandle x | .lhHandle x | .lhnHandle x | .lwHandle x | .lwnHandle x | .lxHandle x | .sbHandle x
  | .shHandle x | .swHandle x | .sxHandle x => [x.reg]
  | .ldo x | .take x | .peek x | .festat x => [x.ga, x.gd]
  | .sto x | .put x | .fill x => [x.ga, x.gb]
  | .swap x | .cas x | .fadd x | .fand x | .atFor x | .fxor x | .fmin x | .fmax x | .fminn x | .fmaxn x | .faddf x
  | .trytake x | .tryput x => [x.ga, x.gb, x.gd]
  | .drain x => [x.ga]
  | .watch ga gd | .xrecv ga gd | .waitt ga gd | .publ _ ga gd => [ga, gd]
  | .waitw gb gd | .cbwait _ _ gb gd => [gb, gd]
  | .unwatch all ga => if all then [] else [ga]
  | .yieldx gb | .cbadv _ gb | .cbpush _ gb => [gb]
  | .xsend gb ga | .cbinit _ gb ga | .dsplit gb ga => [gb, ga]
  | .tick gd => [gd]
  | .hstart _ gb ga => [gb, ga]
  | .hjoin _ gd | .csrrd _ gd => [gd]
  | .hend ga | .trap _ ga | .csrwr _ ga => [ga]
  | .tld x => [x.ga, x.gb]
  | .tst x => [x.ga, x.gb]
  | .tmma x => [x.ga, x.gb]
  | .twld x => [x.ga, x.gb]
  | .tscale x => [x.ga, x.gb]
  | .tzero x | .tvfy x => [x.gb]
  | .trem x | .tcap x | .tcfg x | .cqput x | .nbpost x | .nbrd x | .nbwr x | .nbspk x => [x.ga, x.gb]
  | .tcbt x | .cgather x | .cscatter x | .nbcfg x | .nbadv x => [x.ga]
  | .cpy x => [x.ga]
  | .cred x => [x.ga]
  | .gbind x => [x.ga]
  | .geval x | .glen x | .glook x => [x.ga, x.gb]
  | .gspine x | .gocc x | .gunf x => [x.ga, x.gb]
  | .gloc x => [x.ga]
  | .rfmatch x | .rfmerge x | .rfshake x | .rflogs x => [x.ga]
  | _ => []

/-- The g register that an instruction's own effect writes, and for TRYTAKE the second. -/
def gDest (i : Instr) : List GReg :=
  match i with
  | .addShort x | .subShort x | .andShort x | .orShort x | .xorShort x | .sltShort x | .mov x | .lw16 x | .lx16 x => [x.gd]
  | .addi4 x | .shliShort x | .shriShort x | .shrliShort x | .li4 x => [x.gd]
  | .add x | .sub x | .mul x | .mulh x | .mulhn x | .div x | .divn x | .rem x | .remn x | .and x | .or x | .xor x | .andn x
  | .shl x | .shr x | .shrl x | .rol x | .slt x | .sltn x | .min x | .max x | .minn x | .maxn x | .sel x | .exts x | .extz x
  | .bfx x | .bfi x | .adds x => [x.gd]
  | .clz x | .ctz x | .popc x => [x.gd]
  | .addi x | .andi x | .ori x | .xori x | .slti x | .sltni x | .lis x | .muli x => [x.gd]
  | .shli x | .shri x | .shrli x => [x.gd]
  | .addpc _ gd => [gd]
  | .jal _ link | .jalr _ link => [link]
  | .vquant x => [x.gd]
  | .vget x | .vpopm x | .vfirst x => [x.gd]
  | .vbmenc x => [x.gd]
  | .lb x | .lbn x | .lh x | .lhn x | .lw x | .lwn x | .lx x | .ldesc x => [x.reg]
  | .lbHandle x | .lbnHandle x | .lhHandle x | .lhnHandle x | .lwHandle x | .lwnHandle x | .lxHandle x => [x.reg]
  | .ldo x | .take x | .peek x | .festat x => [x.gd]
  | .swap x | .cas x | .fadd x | .fand x | .atFor x | .fxor x | .fmin x | .fmax x | .fminn x | .fmaxn x | .faddf x
  | .tryput x => [x.gd]
  | .trytake x => [x.gb, x.gd]
  | .watch _ gd | .xrecv _ gd | .waitt _ gd | .waitw _ gd | .cbwait _ _ _ gd | .tick gd | .hjoin _ gd | .csrrd _ gd => [gd]
  | _ => []

/-! ### Kinds of instructions -/

/-- Scalar instructions and branches: SALU, SIMM, BR, SB, and SS but for its loads and stores (R87 to R98). -/
def isScalar (i : Instr) : Bool :=
  match i with
  | .addShort _ | .subShort _ | .addi4 _ | .mov _ | .li4 _ | .andShort _ | .orShort _ | .xorShort _ | .shliShort _
  | .shriShort _ | .shrliShort _ | .sltShort _ | .beqz _ | .bnez _ | .bra _ | .bltz _ | .nop
  | .add _ | .sub _ | .mul _ | .mulh _ | .mulhn _ | .div _ | .divn _ | .rem _ | .remn _ | .and _ | .or _ | .xor _ | .andn _
  | .shl _ | .shr _ | .shrl _ | .rol _ | .slt _ | .sltn _ | .min _ | .max _ | .minn _ | .maxn _ | .clz _ | .ctz _ | .popc _
  | .sel _ | .exts _ | .extz _ | .bfx _ | .bfi _ | .adds _ | .addi _ | .andi _ | .ori _ | .xori _ | .shli _ | .shri _
  | .shrli _ | .slti _ | .sltni _ | .lis _ | .addpc _ _ | .muli _ | .beq _ | .bne _ | .blt _ | .bge _ | .bltn _ | .bgen _
  | .jal _ _ | .jalr _ _ => true
  | _ => false

/-- SALU and SIMM instructions (R94). -/
def isAlu (i : Instr) : Bool :=
  match i with
  | .add _ | .sub _ | .mul _ | .mulh _ | .mulhn _ | .div _ | .divn _ | .rem _ | .remn _ | .and _ | .or _ | .xor _ | .andn _
  | .shl _ | .shr _ | .shrl _ | .rol _ | .slt _ | .sltn _ | .min _ | .max _ | .minn _ | .maxn _ | .clz _ | .ctz _ | .popc _
  | .sel _ | .exts _ | .extz _ | .bfx _ | .bfi _ | .adds _ | .addi _ | .andi _ | .ori _ | .xori _ | .shli _ | .shri _
  | .shrli _ | .slti _ | .sltni _ | .lis _ | .addpc _ _ | .muli _ => true
  | _ => false

/-- SV and VA instructions (R87, R95). -/
def isLane (i : Instr) : Bool :=
  match i with
  | .vaddShort _ | .vsubShort _ | .vmulShort _ | .vmac _ | .vminShort _ | .vmaxShort _ | .vandShort _ | .vorShort _
  | .vxorShort _ | .vshlShort _ | .vshrShort _ | .vshrlShort _ | .vmovShort _ | .vneg _ | .vabs _ | .vcmpltShort _
  | .vadd _ | .vsub _ | .vmul _ | .vmulh _ | .vfma _ | .vfms _ | .vmin _ | .vmax _ | .vminn _ | .vmaxn _ | .vand _ | .vor _
  | .vxor _ | .vshl _ | .vshr _ | .vshrl _ | .vadds _ | .vaddsn _ | .vsubs _ | .vabsd _ | .vdiv _ | .vsqrt _ | .vrcp _
  | .vexp2 _ | .vscale _ | .vcmpeq _ | .vcmplt _ | .vcmple _ | .vcmpltn _ | .vsel _ | .vdot4 _ | .vdot2 _ => true
  | _ => false

/-- VX instructions that touch registers alone (R97, R159). -/
def isVx (i : Instr) : Bool :=
  match i with
  | .vcvtff _ | .vcvtfi _ | .vcvtif _ | .vcvtii _ | .vbcast _ | .vget _ | .vput _ | .vperm _ | .vcompr _ | .vexpnd _
  | .vredadd _ | .vredmax _ | .vredmin _ | .vscanadd _ | .vmask _ _ | .vpopm _ | .vfirst _ | .viota _ | .vbmenc _
  | .vbmdec _ | .vmov _ | .vrndseed _ _ | .vclass _ => true
  | _ => false

/-- Loads: LD, its handle forms, LW16 and LX16, LDO, VDEQ and VCBDEC (R162, R163, R171, R181). -/
def isLoad (i : Instr) : Bool :=
  match i with
  | .lw16 _ | .lx16 _ | .lb _ | .lbn _ | .lh _ | .lhn _ | .lw _ | .lwn _ | .lx _ | .vld _ | .vldb _ | .ldesc _
  | .lbHandle _ | .lbnHandle _ | .lhHandle _ | .lhnHandle _ | .lwHandle _ | .lwnHandle _ | .lxHandle _ | .vldHandle _
  | .vldbHandle _ | .ldo _ | .vdeq _ | .vcbdec _ => true
  | _ => false

/-- Engine commands, which enter the job queue (R35). -/
def isCommand (i : Instr) : Bool :=
  match i with
  | .tld _ | .tst _ | .tmma _ | .twld _ | .tcbt _ | .tzero _ | .tscale _ | .tvfy _ | .trem _ | .tcap _ | .tcfg _
  | .cpy _ | .cgather _ | .cscatter _ | .cred _ | .cqput _ | .gbind _ | .geval _ | .glen _ | .gspine _ | .gocc _ | .gunf _
  | .gloc _ | .glook _ | .grelease _ | .rfmatch _ | .rfmerge _ | .rfshake _ | .rflogs _ | .rffree _ | .nbcfg _ | .nbpost _
  | .nbadv _ | .nbrd _ | .nbwr _ | .nbspk _ => true
  | _ => false

/-- SY and SYS instructions that write no memory (R188, R325). -/
def isControl (i : Instr) : Bool :=
  match i with
  | .fence _ _ _ | .watch _ _ | .waitw _ _ | .unwatch _ _ | .yieldx _ | .bsync _ _ | .xsend _ _ | .xend _ | .cbinit _ _ _
  | .cbwait _ _ _ _ | .cbadv _ _ | .cbpush _ _ | .publ _ _ _ | .tick _ | .waitt _ _ | .dsplit _ _ | .cdep _ | .hstart _ _ _
  | .hjoin _ _ | .hend _ | .phint _ | .trap _ _ | .csrrd _ _ | .csrwr _ _ | .gend | .brk _ | .yield | .triple | .wide _
  | .festat _ | .unassignedEncoding _ => true
  | _ => false

/-- Full/empty accesses, which may let requests of other contexts proceed (R185, R186). -/
def isFullEmpty (i : Instr) : Bool :=
  match i with
  | .take _ | .peek _ | .put _ | .trytake _ | .tryput _ | .fill _ | .drain _ => true
  | _ => false

/-- Instructions that may write a vector register: SV, VA and VX, the vector loads and the block decoders. -/
def writesVector (i : Instr) : Bool :=
  isLane i || isVx i || match i with
    | .vld _ | .vldb _ | .vldHandle _ | .vldbHandle _ | .vdeq _ | .vcbdec _ => true
    | _ => false

/-- Instructions that store nothing. -/
def storesNothing (i : Instr) : Bool := isScalar i || isLane i || isVx i || isLoad i || isCommand i || isControl i

/-! ### The bytes that an instruction stores to -/

/-- The runs that a check of an access gives, and none where it fails. -/
def runsOr (x : Chk (List (Nat × Nat))) : List (Nat × Nat) :=
  match x with
  | .ok l => l
  | .error _ => []

/-- The runs of an access of `n` bytes in mode 0 at base + disp × n (R171). -/
def baseRuns (s : State) (base : GReg) (disp : Int) (n : Nat) : List (Nat × Nat) :=
  runsOr (checkWrite s (memAddr (getG s s.cur base) disp n) n)

/-- The runs of an access of `n` bytes in handle mode, counted from the head (R40). -/
def handleRuns (s : State) (h : Fin 8) (off n : Nat) : List (Nat × Nat) :=
  match getHandle s s.cur h with
  | some x => runsOr (checkWrite s (handleAddr x x.head (32 * off)) n)
  | none => []

/-- The runs of a read-modify-write of the word in a register (R180, R185). -/
def atomicRuns (s : State) (ga : GReg) (z : AtSize) : List (Nat × Nat) :=
  runsOr (checkAtomic s (getG s s.cur ga).toNat (AtSize.bytes z))

/-- The locations that an instruction stores to when it stores (R90, R161, R171, R172, R177, R181, R185, R198). -/
def storedRuns (s : State) (i : Instr) : List (Nat × Nat) :=
  match i with
  | .sb x => baseRuns s x.base x.disp.toInt 1
  | .sh x => baseRuns s x.base x.disp.toInt 2
  | .sw x => baseRuns s x.base x.disp.toInt 4
  | .sx x => baseRuns s x.base x.disp.toInt 8
  | .vst x => baseRuns s x.base x.disp.toInt 32
  | .vstm x => baseRuns s x.base x.disp.toInt 32
  | .sw16 x => baseRuns s x.gs 0 4
  | .sx16 x => baseRuns s x.gs 0 8
  | .sbHandle x => handleRuns s x.h x.off.val 1
  | .shHandle x => handleRuns s x.h x.off.val 2
  | .swHandle x => handleRuns s x.h x.off.val 4
  | .sxHandle x => handleRuns s x.h x.off.val 8
  | .vstHandle x => handleRuns s x.h x.off.val 32
  | .vstmHandle x => handleRuns s x.h x.off.val 32
  | .sto x => runsOr (checkWrite s (getG s s.cur x.ga).toNat (AtSize.bytes x.m.size))
  | .swap x | .cas x | .fadd x | .fand x | .atFor x | .fxor x | .fmin x | .fmax x | .fminn x | .fmaxn x | .faddf x
  | .trytake x | .tryput x => atomicRuns s x.ga x.m.size
  | .take x => atomicRuns s x.ga x.m.size
  | .put x | .fill x => atomicRuns s x.ga x.m.size
  | .drain x => atomicRuns s x.ga x.m.size
  | .xrecv ga _ => runsOr (checkWrite s (getG s s.cur ga).toNat 32)
  | .vquant x => [((getG s s.cur x.gd).toNat, 64)]
  | _ => []

/-! ### Invariants -/

/-- Every memory list of the state, those that a save or a freeze keeps among them, and the list of descriptors are in
canonical form. -/
def MemoryInv (s : State) : Prop :=
  Memory.wf s.mem = true ∧ sparseWf (fun _ => (0 : BitVec 16)) 0 s.descs = true ∧ (∀ r ∈ s.saved, Memory.wf r.mem = true) ∧
    ∀ i, s.mod.image = some i → ∀ r ∈ i.saved, Memory.wf r.mem = true

/-- Every configured tile slot, of the core and of what a save or a freeze keeps, keeps the limits of a tile table (R121, R216,
R242). -/
def TilesInv (s : State) : Prop :=
  let good (c : CoreRegs) : Prop := ∀ (i : Fin 64) (x : TileSlot), c.tiles[i.val] = some x → slotGood x = true
  good s.core ∧ (∀ r ∈ s.saved, good r.core) ∧ ∀ i, s.mod.image = some i → ∀ r ∈ i.saved, good r.core

end Sys2Proof.Machine
end

