-- ==== Sys2Proof/Certificates/Slice0/Obligations.lean ====
section
/-! DEFINITION. What is claimed of the machine: statements for the provers, each from a rule of the spec. -/

open Sys2Proof Sys2Proof.Machine

/-! ### Decoding and encoding (R80, R87 to R104) -/

/-- R80, R96, R104: the decoder reads from an instruction's own words exactly that instruction, whatever bytes follow. -/
def Obligations.DecodeReadsEncodedWords : Prop :=
  ∀ (i : Instr) (rest : List Byte), i.wf = true → 0 < i.len → decode (leBytes i.len (encode i) ++ rest) = .ok (i, rest)

/-- R104: no bit is ignored: bytes that decode are the words of the well-formed instruction they decode to. -/
def Obligations.DecodedBytesAreEncodings : Prop :=
  ∀ (bs rest : List Byte) (i : Instr), decode bs = .ok (i, rest) →
    i.wf = true ∧ 0 < i.len ∧ bs = leBytes i.len (encode i) ++ rest

/-- Words that the spec's own tables write out (R129, R134, R139, R146) decode to the instructions they stand for. -/
def Obligations.SpecWordsDecode : Prop :=
  decode (leBytes 4 0x003B28A1) = .ok (.div { gb := 7, ga := 6, gd := 5 }, []) ∧
  decode (leBytes 4 0xFE710C03) = .ok (.addi { imm := -100, ga := 4, gd := 3 }, []) ∧
  decode (leBytes 4 0xFFE04345) = .ok (.blt { disp := -32, gb := 4, ga := 3 }, []) ∧
  decode (leBytes 2 0x2182) = .ok (.addShort { gs := 4, gd := 3 }, []) ∧
  decode (leBytes 2 0x1044) = .ok (.beqz { disp := 8, gs := 2 }, []) ∧
  decode (leBytes 2 0x000E) = .ok (.triple, []) ∧
  decode (leBytes 2 0xFF96) = .ok (.wide (-2), []) ∧
  decode (leBytes 2 0x0006) = .ok (.nop, [])

/-! ### The step -/

/-- R25, R81, R93: when the bytes at the pc of the context that issues decode, the step is the dispatch of that instruction:
inside a unit the current context goes on, and between units, where the model's `inputs` lets the core issue next (log 61), the
context that the selector names. The slot passes on where the context leaves it.
R82, R313: in a paired launch a fetch from device memory whose block no instruction cache holds leaves the core, and waits at the router
until the other copy's hash agrees; the hash is the model's free value (Config.pairHash).
The model's own choice (log 61): what happens next may be given by the field `inputs` of the state, whose entry `none` lets the
core issue; a given event is what happens, between units and while the module has power. -/
def Obligations.StepRunsDecodedInstruction : Prop :=
  (∀ (s s' : State) (c : Fin 8) (bs rest : List Byte) (i : Instr), powered s = true →
     (s' = s ∧ s.core.unit.isSome = true ∧ coreRuns s = true ∨
       ∃ r, s.inputs = none :: r ∧ (s.core.unit.isSome && coreRuns s) = false ∧ select { s with inputs := r } false = some c ∧
         s' = turnTo { s with inputs := r } c) →
     let x := s'.ctx s'.cur
     let asks := fetchBlocks s' x.pc.toNat bs.length
     fetchForm s' x.pc.toNat = .ok bs →
     (asks = [] → formFault (withInsn s' (leNat bs)) (leNat bs) = none → decode bs = .ok (i, rest) →
       step s = passOn (exec i (withInsn s' (leNat bs)))) ∧
     (∀ (b : Nat) (r : List Nat), asks = b :: r → x.pairOk = false →
       step s = passOn (waitFor (s'.setCtx s'.cur { x with pairOk := false, pairHash := some (Config.pairHash b 0 60) }) .pair))) ∧
  (∀ (s : State) (i : Instr) (r : List (Option Instr)), powered s = true → (s.core.unit.isSome && coreRuns s) = false →
     s.inputs = some i :: r → step s = exec i { s with inputs := r })

/-- R25: the selector stays with the current context while it is ready and does not stall, and otherwise turns to the first
ready context after it in the order c + 1, c + 2, … modulo 8; some context is named whenever one is ready.
R24, R25, R26: a selector with a ready context names one, the current one if that is ready and does not stall; a context is ready
when the core runs and it is live, awake, neither stopped nor parked, and owes no other context a turn. An issue after which its context is
not ready, for a stall, a sleep, a YIELD, its end or a park, passes the slot to the first ready context after it, and the one that has
it then keeps it; with none ready the slot stays.
R93, R94, R107, R142: a form that may not follow what its unit holds raises ILLEGAL_PREFIX, one whose features were not
accepted ILLEGAL_INSN; both before anything executes (in a paired launch once the fetch's own requests have agreed). Which forms a prefix accepts where R93 names none is the model's choice
(log 44, log 96).
R93, R94, R103, R107, R142: TRIPLE is accepted before SALU, SIMM and VA words and before VX words but VRNDSEED and those with
rnd2 = 10, WIDE before SIMM words and the AT words that take data but CAS; of short forms only a prefix may follow. Grammar commands
need feature 0, reef commands 1, neuron commands 2, and a long form after TRIPLE feature 3. That an unassigned long word is judged by its
class and opcode fields (log 44), and that a parcel of TRIPLE's kind with a nonzero payload is no prefix after WIDE (log 96), is the
model's choice.
R104: bytes that the decoder refuses raise ILLEGAL_INSN. -/
def Obligations.IssueSelection : Prop :=
  (∀ (s : State) (stall : Bool) (c : Fin 8), select s stall = some c →
     ready s c = true ∧
     (c ≠ s.cur → (ready s s.cur = false ∨ stall = true) ∧
       ∀ d : Fin 8, ready s d = true → d ≠ s.cur → (c - s.cur).val ≤ (d - s.cur).val) ∧
     (c = s.cur → stall = true → ∀ d, d ≠ s.cur → ready s d = false)) ∧
  (∀ (s : State) (stall : Bool),
     ((∃ d, ready s d = true) → ∃ c, select s stall = some c) ∧
     ((∀ d, ready s d = false) → select s stall = none) ∧
     (ready s s.cur = true → stall = false → select s stall = some s.cur) ∧
     (∀ d, d ≠ s.cur → ready s d = true → ready s s.cur = false ∨ stall = true → ∃ c, c ≠ s.cur ∧ select s stall = some c) ∧
     (ready s s.cur = true → passedOn s = s) ∧
     (ready s s.cur = false → ∀ c, select s false = some c → passedOn s = { s with core := { s.core with cur := c } }) ∧
     ((∀ d, ready s d = false) → passedOn s = s) ∧
     (s.core.stepping = none → ∀ c, ready s c = true ↔
       s.core.frozen = false ∧ s.core.fenced = false ∧ s.core.saving = false ∧ (s.ctx c).live = true ∧ (s.ctx c).wait = none ∧
         (s.ctx c).stopped = false ∧ (s.ctx c).parked = none ∧ (s.ctx c).owed = [])) ∧
  (∀ (s : State) (bs : List Byte), fetchForm s (s.ctx s.cur).pc.toNat = .ok bs →
     fetchBlocks s (s.ctx s.cur).pc.toNat bs.length = [] →
     let w := leNat bs
     let s1 := withInsn s w
     let raised (f : FaultClass) : Prop := issueWith exec s = .next (raise s1 s.cur { cls := f })
     (∀ u, s.core.unit = some u → unitAccepts u w = false → raised .illegalPrefix) ∧
     ((∀ u, s.core.unit = some u → unitAccepts u w = true) → featuresOk s1 w = false → raised .illegalInsn)) ∧
  (∀ (u : UnitForm) (s : State) (w : Nat),
     let c := w / 2 % 16
     let op := w / 32 % 32
     let triple := c = 0 ∨ c = 1 ∨ c = 3 ∨ (c = 4 ∧ op ≠ 24 ∧ w / 2 ^ 30 % 4 ≠ 2)
     let wide := c = 1 ∨ (c = 7 ∧ op ∈ [1, 2, 4, 5, 6, 7, 8, 9, 10, 11, 15, 17, 18])
     (w % 2 = 1 → (unitAccepts u w = true ↔ (u.triple = true → triple) ∧ (u.wide.isSome = true → wide))) ∧
     (w % 2 = 0 → w < 2 ^ 16 → (unitAccepts u w = true ↔ w = 0x000E ∨ w % 64 = 0x16)) ∧
     (featuresOk s w = true ↔ w % 2 = 0 ∨
       ((c = 11 → feature s 0 = true) ∧ (c = 12 → op ≤ 4 → feature s 1 = true) ∧ (c = 12 → 5 ≤ op → feature s 2 = true) ∧
         (tripled s = true → feature s 3 = true)))) ∧
  (∀ (s : State) (bs : List Byte) (e : Reject), fetchForm s (s.ctx s.cur).pc.toNat = .ok bs →
     fetchBlocks s (s.ctx s.cur).pc.toNat bs.length = [] → formFault (withInsn s (leNat bs)) (leNat bs) = none → decode bs = .error e →
     ∃ t, issueWith exec s = .next t ∧ t.core.frozen = true ∧
       ∃ p, (t.ctx s.cur).packet = some p ∧ p.cls = .illegalInsn ∧ p.pc = unitStart s s.cur)

/-! ### Invariants and reset -/

/-- The model's own choice (log 1, Memory.wf): memory is a list of cells in one canonical form, addresses rising and no cell equal to
what an unlisted address reads as, so that equal memories are equal data. The memory of the machine, of every saved core and of a
freeze image, and the list of block descriptors, keep that form under every step, whatever R59's writes do to them. -/
def Obligations.StepKeepsMemoryCanonical : Prop :=
  ∀ s t : State, MemoryInv s → step s = .next t → MemoryInv t

/-! ### Rules of the whole instruction set (R35, R59, R83, R109, R175) -/

/-- R121, R216, R242: a step keeps every configured tile slot, of the core and of what a save or a freeze holds, within the limits of a
tile table: a tile format, a 64-byte aligned offset, all of it within the scratchpad. -/
def Obligations.StepKeepsTileSlotsLegal : Prop :=
  ∀ s t : State, TilesInv s → step s = .next t → TilesInv t

/-! ### Invariants and reset -/

/-- The model's own choice (log 1, Memory.wf): memory is in the canonical form at reset.
R242: no tile slot is configured at reset, so that every one is legal. -/
def Obligations.ResetMemoryIsCanonical : Prop :=
  (MemoryInv State.reset) ∧
  (TilesInv State.reset ∧ ∀ i : Fin 64, State.reset.core.tiles[i.val] = none)

/-- What R20, R52, R109, R184, R218, R297 and R342 state for reset, and where they state nothing the model's own zeros (log 2: the
registers of contexts before a start): generators at their seeds, BRT_TOL_WIDE 20,
BRT_TOL_NARROW 14, TE_GAMMA 1.0, the other writable registers and counters 0, every tag empty, every handle and tile slot
unconfigured, every boltrope and neuron record 0, and the module's registers 0 but for FEAT. -/
def Obligations.ResetValues : Prop :=
  let s := State.reset
  (∀ c : Fin 8, (s.ctx c).live = false ∧ (∀ j : Fin 8, (s.ctx c).st[j.val] = 0x6D2B79F5#32 ^^^ BitVec.ofNat 32 j.val) ∧
    (∀ h, getHandle s c h = none) ∧ ∀ r, getG s c r = 0) ∧
  s.core.tolWide = 20 ∧ s.core.tolNarrow = 14 ∧ s.core.gamma = 0x3F800000 ∧ s.core.corrected = 0 ∧ s.core.unverified = 0 ∧
  s.core.xringBase = 0 ∧ s.core.xringSize = 0 ∧ s.core.xspillBase = 0 ∧ s.core.xspillSize = 0 ∧ s.core.cycles = 0 ∧
  s.tags = [] ∧ (∀ i : Fin 64, s.core.tiles[i.val] = none) ∧ (∀ i : Fin 8, s.core.watch[i.val] = none) ∧
  (∀ t i, t < 68 → i < 256 → Memory.get s.mem (boltLoc t + i) = 0) ∧
  (∀ i, i < 0x10000 → Memory.get s.mem (neuronLoc + i) = 0) ∧ s.clu.bank.late = 0 ∧ s.clu.jobs = [] ∧
  s.mod.modnum = 0 ∧ s.mod.errReg = 0 ∧ s.mod.ctlq = 0 ∧ (∀ i : Fin 4, s.mod.featAcc[i.val] = 0)

/-! ### Scalar instructions (R123 to R141) -/

/-- R127, R128: the results of the two-source SALU instructions, written to gd (and discarded where gd is g0), the pc going
on by four bytes. -/
def Obligations.RegisterOperationResults : Prop :=
  ∀ (s : State) (x : SaluArgs), Quiet s → RegsFree s [x.ga, x.gb] [x.gd] →
    let a := getG s s.cur x.ga
    let b := getG s s.cur x.gb
    let k := b.toNat % 64
    let out (v : Word) : Out := .next (doneG s x.gd v 4)
    let flag (p : Prop) [Decidable p] : Word := if p then 1 else 0
    exec (.add x) s = out (a + b) ∧ exec (.sub x) s = out (a - b) ∧
    exec (.mul x) s = out (BitVec.ofInt 64 (a.toInt * b.toInt)) ∧
    exec (.mulh x) s = out (BitVec.ofInt 64 (a.toInt * b.toInt / 2 ^ 64)) ∧
    exec (.mulhn x) s = out (BitVec.ofNat 64 (a.toNat * b.toNat / 2 ^ 64)) ∧
    exec (.div x) s = out (if b = 0 then -1 else if a.toInt = -2 ^ 63 ∧ b.toInt = -1 then a
      else BitVec.ofInt 64 (a.toInt.tdiv b.toInt)) ∧
    exec (.rem x) s = out (if b = 0 then a else if a.toInt = -2 ^ 63 ∧ b.toInt = -1 then 0
      else BitVec.ofInt 64 (a.toInt.tmod b.toInt)) ∧
    exec (.divn x) s = out (if b = 0 then -1 else BitVec.ofNat 64 (a.toNat / b.toNat)) ∧
    exec (.remn x) s = out (if b = 0 then a else BitVec.ofNat 64 (a.toNat % b.toNat)) ∧
    exec (.and x) s = out (a &&& b) ∧ exec (.or x) s = out (a ||| b) ∧ exec (.xor x) s = out (a ^^^ b) ∧
    exec (.andn x) s = out (a &&& ~~~b) ∧
    exec (.shl x) s = out (BitVec.ofNat 64 (a.toNat * 2 ^ k)) ∧
    exec (.shr x) s = out (BitVec.ofInt 64 (a.toInt / 2 ^ k)) ∧
    exec (.shrl x) s = out (BitVec.ofNat 64 (a.toNat / 2 ^ k)) ∧
    exec (.rol x) s = out (BitVec.ofNat 64 (a.toNat * 2 ^ k) ||| BitVec.ofNat 64 (a.toNat / 2 ^ (64 - k))) ∧
    exec (.slt x) s = out (flag (a.toInt < b.toInt)) ∧ exec (.sltn x) s = out (flag (a.toNat < b.toNat)) ∧
    exec (.min x) s = out (BitVec.ofInt 64 (min a.toInt b.toInt)) ∧
    exec (.max x) s = out (BitVec.ofInt 64 (max a.toInt b.toInt)) ∧
    exec (.minn x) s = out (BitVec.ofNat 64 (min a.toNat b.toNat)) ∧
    exec (.maxn x) s = out (BitVec.ofNat 64 (max a.toNat b.toNat)) ∧
    exec (.exts x) s = out (BitVec.ofInt 64 (a.toNat % 2 ^ (k + 1) - if a.getLsbD k then 2 ^ (k + 1) else 0 : Int)) ∧
    exec (.extz x) s = out (BitVec.ofNat 64 (a.toNat % 2 ^ (k + 1))) ∧
    exec (.adds x) s = out (BitVec.ofInt 64 (max (-2 ^ 63) (min (2 ^ 63 - 1) (a.toInt + b.toInt)))) ∧
    (b.toNat / 2 ^ 8 % 128 ≤ 64 →
      exec (.bfx x) s = out (BitVec.ofNat 64 (a.toNat / 2 ^ k % 2 ^ (b.toNat / 2 ^ 8 % 128))))

/-- R127, R129: SEL and BFI, which also read gd.
R127: CLZ, CTZ and POPC: the number of bits above the highest set bit, below the lowest, and set; 64 of the first two
where no bit is set. -/
def Obligations.SelectInsertAndCountResults : Prop :=
  (∀ (s : State) (x : SaluArgs), Quiet s → RegsFree s [x.ga, x.gb, x.gd] [] →
     let a := getG s s.cur x.ga
     let b := getG s s.cur x.gb
     let old := getG s s.cur x.gd
     let pos := b.toNat % 64
     let len := b.toNat / 2 ^ 8 % 128
     exec (.sel x) s = .next (doneG s x.gd (if old = 0 then b else a) 4) ∧
     (len ≤ 64 → ∃ v : Word, exec (.bfi x) s = .next (doneG s x.gd v 4) ∧
       ∀ i, i < 64 → v.getLsbD i = if pos ≤ i ∧ i < pos + len then a.getLsbD (i - pos) else old.getLsbD i)) ∧
  (∀ (s : State) (x : Salu1Args), Quiet s → RegsFree s [x.ga] [x.gd] →
     let a := getG s s.cur x.ga
     (∃ n : Nat, n ≤ 64 ∧ exec (.clz x) s = .next (doneG s x.gd (BitVec.ofNat 64 n) 4) ∧
       (∀ i, 64 - n ≤ i → i < 64 → a.getLsbD i = false) ∧ (n < 64 → a.getLsbD (63 - n) = true)) ∧
     (∃ n : Nat, n ≤ 64 ∧ exec (.ctz x) s = .next (doneG s x.gd (BitVec.ofNat 64 n) 4) ∧
       (∀ i, i < n → a.getLsbD i = false) ∧ (n < 64 → a.getLsbD n = true)) ∧
     exec (.popc x) s = .next (doneG s x.gd (BitVec.ofNat 64 ((List.range 64).countP fun i => a.getLsbD i)) 4))

/-- R130 to R132, R94, R101: the immediate instructions, with imm14 or, after WIDE, imm24.
R90, R135: each short scalar form has the effect of its long equivalent on gd, in two bytes. -/
def Obligations.ImmediateAndShortResults : Prop :=
  (∀ (s : State) (x : SimmArgs) (y : ShiftArgs), Quiet s → RegsFree s [x.ga] [x.gd] → RegsFree s [y.ga] [y.gd] →
     let a := getG s s.cur x.ga
     let c := getG s s.cur y.ga
     let k := y.k.val
     let i : Int := match widePayload s with
       | some p => (p ++ x.imm).toInt
       | none => x.imm.toInt
     let lis : Word := match widePayload s with
       | some p => (a <<< 24) ||| (p ++ x.imm).zeroExtend 64
       | none => (a <<< 14) ||| x.imm.zeroExtend 64
     let w := BitVec.ofInt 64 i
     let out (v : Word) : Out := .next (doneG s x.gd v 4)
     let shifted (v : Word) : Out := .next (doneG s y.gd v 4)
     exec (.addi x) s = out (a + w) ∧ exec (.andi x) s = out (a &&& w) ∧ exec (.ori x) s = out (a ||| w) ∧
     exec (.xori x) s = out (a ^^^ w) ∧ exec (.slti x) s = out (if a.toInt < i then 1 else 0) ∧
     exec (.sltni x) s = out (if a.toNat < w.toNat then 1 else 0) ∧ exec (.lis x) s = out lis ∧
     exec (.muli x) s = out (BitVec.ofInt 64 (a.toInt * i)) ∧
     exec (.addpc x.imm x.gd) s = out ((s.ctx s.cur).pc + w) ∧
     ((∀ p, widePayload s = some p → p = 0) →
       exec (.shli y) s = shifted (BitVec.ofNat 64 (c.toNat * 2 ^ k)) ∧
       exec (.shri y) s = shifted (BitVec.ofInt 64 (c.toInt / 2 ^ k)) ∧
       exec (.shrli y) s = shifted (BitVec.ofNat 64 (c.toNat / 2 ^ k)))) ∧
  (∀ (s : State) (x : SsArgs) (y : SsImmArgs), Bare s →
     let d := getG s s.cur x.gd
     let a := getG s s.cur x.gs
     let e := getG s s.cur y.gd
     let i : Word := y.imm.signExtend 64
     let k := y.imm.toNat
     let out (v : Word) : Out := .next (doneG s x.gd v 2)
     let outI (v : Word) : Out := .next (doneG s y.gd v 2)
     (RegsFree s [x.gs] [x.gd] → exec (.mov x) s = out a) ∧ (RegsFree s [] [y.gd] → exec (.li4 y) s = outI i) ∧
     (RegsFree s [x.gd, x.gs] [] →
     exec (.addShort x) s = out (d + a) ∧ exec (.subShort x) s = out (d - a) ∧
     exec (.andShort x) s = out (d &&& a) ∧ exec (.orShort x) s = out (d ||| a) ∧ exec (.xorShort x) s = out (d ^^^ a) ∧
     exec (.sltShort x) s = out (if d.toInt < a.toInt then 1 else 0)) ∧
     (RegsFree s [y.gd] [] → exec (.addi4 y) s = outI (e + i) ∧
     exec (.shliShort y) s = outI (BitVec.ofNat 64 (e.toNat * 2 ^ k)) ∧
     exec (.shriShort y) s = outI (BitVec.ofInt 64 (e.toInt / 2 ^ k)) ∧
     exec (.shrliShort y) s = outI (BitVec.ofNat 64 (e.toNat / 2 ^ k))))

/-- R129, R132: a field length above 64 raises ILLEGAL_OPERAND, and a nonzero payload of WIDE before a shift ILLEGAL_INSN.
R84, R105: a vector destination of code 1 to 3 is ILLEGAL_OPERAND, and nothing is written, for every instruction that names a
vector destination: VA and VX forms as soon as their g registers are free, VLD after its alignment and the handle forms after
their own tests and before they sleep. That VDEQ and VCBDEC test it before the faults that R164 orders is the model's choice (log 46). -/
def Obligations.OperandBreachesFault : Prop :=
  ((∀ (s : State) (x : SaluArgs), RegsFree s [x.ga, x.gb, x.gd] [] → 64 < (getG s s.cur x.gb).toNat / 2 ^ 8 % 128 →
     exec (.bfx x) s = .next (raise s s.cur { cls := .illegalOperand }) ∧
     exec (.bfi x) s = .next (raise s s.cur { cls := .illegalOperand })) ∧
   ∀ (s : State) (y : ShiftArgs) (p : BitVec 10), widePayload s = some p → p ≠ 0 →
     exec (.shli y) s = .next (raise s s.cur { cls := .illegalInsn }) ∧
     exec (.shri y) s = .next (raise s s.cur { cls := .illegalInsn }) ∧
     exec (.shrli y) s = .next (raise s s.cur { cls := .illegalInsn })) ∧
  (∀ (s : State) (x : VaArgs) (y : VxArgs) (u : Va1Args) (z : VselArgs) (c : CvtArgs) (b : VbcastArgs) (p : VputArgs) (m : VcomprArgs)
     (r : VredArgs) (n : VbmdecArgs) (k : VdecArgs) (l : MemV) (h : HMemV) (q : Handle) (ga : GReg),
     (x.vd.val = 1 ∨ x.vd.val = 2 ∨ x.vd.val = 3) →
     y.vd = x.vd → u.vd = x.vd → z.vd = x.vd → c.vd = x.vd → b.vd = x.vd → p.vd = x.vd → m.vd = x.vd → r.vd = x.vd → n.vd = x.vd →
     k.vd = x.vd → l.reg = x.vd → h.reg = x.vd →
     let refused (i : Instr) : Prop := exec i s = .next (raise s s.cur { cls := .illegalOperand })
     let o := 32 * h.off.val
     let need := h.need.val + 1
     (refused (.vadd x) ∧ refused (.vsub x) ∧ refused (.vmul x) ∧ refused (.vmulh x) ∧ refused (.vfma x) ∧ refused (.vfms x) ∧
       refused (.vmin x) ∧ refused (.vmax x) ∧ refused (.vminn x) ∧ refused (.vmaxn x) ∧ refused (.vand x) ∧ refused (.vor x) ∧
       refused (.vxor x) ∧ refused (.vshl x) ∧ refused (.vshr x) ∧ refused (.vshrl x) ∧ refused (.vadds x) ∧ refused (.vaddsn x) ∧
       refused (.vsubs x) ∧ refused (.vabsd x) ∧ refused (.vdiv x) ∧ refused (.vscale x) ∧ refused (.vcmpeq x) ∧
       refused (.vcmplt x) ∧ refused (.vcmple x) ∧ refused (.vcmpltn x) ∧ refused (.vdot4 x) ∧ refused (.vdot2 x)) ∧
     (refused (.vsqrt u) ∧ refused (.vrcp u) ∧ refused (.vexp2 u) ∧ refused (.vsel z)) ∧
     (refused (.vcvtff c) ∧ refused (.vcvtfi c) ∧ refused (.vcvtif c) ∧ refused (.vcvtii c)) ∧
     (refused (.vperm y) ∧ refused (.vexpnd y) ∧ refused (.vmov y) ∧ refused (.viota y) ∧ refused (.vclass y) ∧ refused (.vcompr m)) ∧
     (refused (.vredadd r) ∧ refused (.vredmax r) ∧ refused (.vredmin r) ∧ refused (.vscanadd r)) ∧
     (RegsFree s [b.ga] [] → refused (.vbcast b)) ∧ (RegsFree s [p.ga, pairReg p.ga] [] → refused (.vput p)) ∧
     (RegsFree s [ga] [] → refused (.vmask ga x.vd)) ∧ (RegsFree s [n.ga] [] → refused (.vbmdec n)) ∧
     (RegsFree s [k.ga, pairReg k.ga] [] → VecsSound s (maskCode k.mask ++ mergeReads k.vd k.mask) →
       refused (.vdeq k) ∧ refused (.vcbdec k)) ∧
     (RegsFree s [l.base] [] → refused (.vldb l) ∧
       ((getG s s.cur l.base + BitVec.ofInt 64 (l.disp.toInt * 32)).toNat % 32 = 0 → refused (.vld l))) ∧
     (getHandle s s.cur h.h = some q → o % q.size + 32 ≤ q.size → need ≤ q.count → o + 32 ≤ need * q.size →
       refused (.vldHandle h) ∧ refused (.vldbHandle h)))

/-- R136, R139: a branch goes to its own address plus twice its displacement when its condition holds, and past itself when
it does not; it writes no register.
R137, R141: JAL and JALR write the link and jump, base being read first; NOP only goes on. An odd base is MISALIGNED and
writes nothing; that its packet's ADDR is that base is the model's choice (log 42). -/
def Obligations.BranchAndJumpResults : Prop :=
  (∀ (s : State) (x : BrArgs) (y : SbArgs), RegsFree s [x.ga, x.gb] [] → RegsFree s [y.gs] [] →
     let a := getG s s.cur x.ga
     let b := getG s s.cur x.gb
     let g := getG s s.cur y.gs
     let pc := (s.ctx s.cur).pc
     let go (take : Bool) : Out :=
       .next (retireTo s s.cur (if take then pc + BitVec.ofInt 64 (2 * x.disp.toInt) else pc + 4))
     let goS (take : Bool) : Out :=
       .next (retireTo s s.cur (if take then pc + BitVec.ofInt 64 (2 * y.disp.toInt) else pc + 2))
     exec (.beq x) s = go (decide (a = b)) ∧ exec (.bne x) s = go (decide (a ≠ b)) ∧
     exec (.blt x) s = go (decide (a.toInt < b.toInt)) ∧ exec (.bge x) s = go (decide (b.toInt ≤ a.toInt)) ∧
     exec (.bltn x) s = go (decide (a.toNat < b.toNat)) ∧ exec (.bgen x) s = go (decide (b.toNat ≤ a.toNat)) ∧
     exec (.beqz y) s = goS (decide (g = 0)) ∧ exec (.bnez y) s = goS (decide (g ≠ 0)) ∧
     exec (.bltz y) s = goS (decide (g.toInt < 0)) ∧ exec (.bra y.disp) s = goS true) ∧
  (∀ (s : State) (disp : BitVec 20) (base link : GReg), RegsFree s [base] [link] →
     let pc := (s.ctx s.cur).pc
     let t := getG s s.cur base
     exec (.jal disp link) s =
       .next (retireTo (setG s s.cur link (pc + 4)) s.cur (pc + BitVec.ofInt 64 (2 * disp.toInt))) ∧
     (t.getLsbD 0 = false → exec (.jalr base link) s = .next (retireTo (setG s s.cur link (pc + 4)) s.cur t)) ∧
     (t.getLsbD 0 = true → exec (.jalr base link) s = .next (raise s s.cur { cls := .misaligned, addr := t })) ∧
     exec .nop s = .next (retire s s.cur 2))

/-- R93, R104: TRIPLE and WIDE become part of the unit that starts at the first of them, and a second one of its kind raises
ILLEGAL_PREFIX; a parcel or word that is no instruction raises ILLEGAL_INSN.
R26, R141, R194: a context that retires YIELD, or YIELDX with a count below 2^32, goes on after it, owes a turn to every
other context that was awake, restarts its run timer, and parks while a pre-emption request is pending; with a nonzero count
YIELDX also leaves it waiting. -/
def Obligations.UnitsAndYields : Prop :=
  (∀ (s : State) (p : BitVec 10) (w : BitVec 32),
     let begun := (s.core.unit.getD { start := (s.ctx s.cur).pc, triple := false, wide := none })
     let grown (t : State) (u : UnitForm) : Prop := t.core.unit = some u ∧
       (t.ctx s.cur).pc = (s.ctx s.cur).pc + 2 ∧ (∀ c, c ≠ s.cur → t.ctx c = s.ctx c) ∧ MemoryKept s t ∧
       (∀ r, getG t s.cur r = getG s s.cur r) ∧ VectorsKept (s.ctx s.cur) (t.ctx s.cur)
     (begun.triple = false → ∃ t, exec .triple s = .next t ∧ grown t { begun with triple := true }) ∧
     (begun.wide = none → ∃ t, exec (.wide p) s = .next t ∧ grown t { begun with wide := some p }) ∧
     (begun.triple = true → exec .triple s = .next (raise s s.cur { cls := .illegalPrefix })) ∧
     (begun.wide.isSome = true → exec (.wide p) s = .next (raise s s.cur { cls := .illegalPrefix })) ∧
     ∃ t pk, exec (.unassignedEncoding w) s = .next t ∧ (t.ctx s.cur).packet = some pk ∧ pk.cls = .illegalInsn ∧
       pk.insn = w ∧ t.core.frozen = true ∧ (t.ctx s.cur).stopped = true) ∧
  (∀ (s : State) (gb : GReg), RegsFree s [gb] [] →
     let n := (getG s s.cur gb).toNat
     let turned (t : State) (len : Nat) (w : Option Wait) : Prop :=
       (t.ctx s.cur).pc = (s.ctx s.cur).pc + BitVec.ofNat 64 len ∧
       (∀ c, c ∈ (t.ctx s.cur).owed ↔ c ≠ s.cur ∧ awake s c = true) ∧ (t.ctx s.cur).runTimer = 0 ∧
       (t.ctx s.cur).parked = (if s.core.preempt then some .yielded else (s.ctx s.cur).parked) ∧ (t.ctx s.cur).wait = w ∧
       (∀ c, c ≠ s.cur → t.ctx c = s.ctx c) ∧ MemoryKept s t ∧ ∀ r, getG t s.cur r = getG s s.cur r
     (∃ t, exec .yield s = .next t ∧ turned t 2 (s.ctx s.cur).wait) ∧
     (n < 2 ^ 32 → ∃ t, exec (.yieldx gb) s = .next t ∧ turned t 4 (if n = 0 then (s.ctx s.cur).wait else some .cycles)) ∧
     (2 ^ 32 ≤ n → exec (.yieldx gb) s = .next (raise s s.cur { cls := .illegalOperand })))

/-! ### Redundant issue (R142 to R145) -/

/-- R143, R144, R145: of three executions whose results are struck by the errors given, a value that two agree on is written, an outvoted one is
counted, and none is written when all differ.
R145: when the three executions of a SALU or SIMM instruction that would complete all differ, it raises TRIPLE_DISAGREE
and writes nothing. -/
def Obligations.RedundantExecutionsVote : Prop :=
  (∀ (w : Nat) (s : State) (r : BitVec w), tripled s = true →
     let x := r ^^^ (s.upsets.getD 0 0).setWidth w
     let y := r ^^^ (s.upsets.getD 1 0).setWidth w
     let z := r ^^^ (s.upsets.getD 2 0).setWidth w
     (∀ v, (x = y ∧ v = x ∨ x = z ∧ v = x ∨ y = z ∧ v = y) → ∃ t, vote s r = some (v, t) ∧ t.ctxs = s.ctxs ∧
       t.mem = s.mem ∧ t.core.votes = if x = y ∧ y = z then s.core.votes else (s.core.votes + 1) % 2 ^ 32) ∧
     (x ≠ y → x ≠ z → y ≠ z → vote s r = none)) ∧
  (∀ (s t : State) (u : UnitForm) (i : Instr), isAlu i = true → s.core.unit = some u → u.triple = true →
     let hit (k : Nat) : Word := (s.upsets.getD k 0).setWidth 64
     hit 0 ≠ hit 1 → hit 0 ≠ hit 2 → hit 1 ≠ hit 2 → exec i { s with upsets := [] } = .next t → (t.ctx s.cur).stopped = false →
     (t.ctx s.cur).wait = none →
     exec i s = .next (raise { s with upsets := s.upsets.drop 3 } s.cur { cls := .tripleDisagree }))

/-! ### Numbers (R46 to R55) -/

/-- R46: sums, differences, products and scalings of finite values are exact.
R45, R49: a finite value of a format rounds to its own pattern in that format.
R49: a finite result of rounding to nearest is at least as near as every finite value of the format, and where another is
as near its pattern is the even one. -/
def Obligations.FloatArithmeticAndRounding : Prop :=
  (∀ x y : FVal, x.isFin = true → y.isFin = true →
     (fadd x y).toRat = x.toRat + y.toRat ∧ (fsub x y).toRat = x.toRat - y.toRat ∧ (fmul x y).toRat = x.toRat * y.toRat ∧
     (∀ k : Int, (fscale x k).toRat = x.toRat * 2 ^ k) ∧ (flt x y = true ↔ x.toRat < y.toRat) ∧
     (feq x y = true ↔ x.toRat = y.toRat)) ∧
  (∀ (f : FFmt) (x : Nat) (mode : Rnd) (r : Nat), x < 2 ^ f.width → (fval f x).isFin = true →
     fround f mode r (fval f x) = x) ∧
  (∀ (f : FFmt) (v : FVal) (y : Nat), v.isFin = true → y < 2 ^ f.width → (fval f y).isFin = true →
     (fval f (rne f v)).isFin = true →
     |v.toRat - (fval f (rne f v)).toRat| ≤ |v.toRat - (fval f y).toRat| ∧
     (|v.toRat - (fval f (rne f v)).toRat| = |v.toRat - (fval f y).toRat| →
       (fval f y).toRat ≠ (fval f (rne f v)).toRat → rne f v % 2 = 0))

/-! ### Vector instructions (R84 to R88, R147 to R170) -/

/-- R150: the integer lanes of the VA class, element by element at the width 8 × 2^ty. -/
def Obligations.IntegerLaneResults : Prop :=
  ∀ (s : State) (x : VaArgs), LanesReady s [x.va, x.vb] x.vd x.mask → x.ty.val < 4 →
    let w := 8 * 2 ^ x.ty.val
    let a (e : Nat) := elem w (getV s s.cur x.va) e
    let b (e : Nat) := elem w (getV s s.cur x.vb) e
    let A (e : Nat) : Int := sInt w (a e)
    let B (e : Nat) : Int := sInt w (b e)
    let lo : Int := -2 ^ (w - 1)
    let hi : Int := 2 ^ (w - 1) - 1
    let res (i : Instr) (f : Nat → Int) : Prop :=
      LaneResult (exec i s) s s x.vd x.mask x.agn w (256 / w) (fun e => (f e % 2 ^ w).toNat) 4
    res (.vadd x) (fun e => a e + b e) ∧ res (.vsub x) (fun e => a e - b e) ∧ res (.vmul x) (fun e => a e * b e) ∧
    res (.vmulh x) (fun e => A e * B e / 2 ^ w) ∧ res (.vmin x) (fun e => min (A e) (B e)) ∧
    res (.vmax x) (fun e => max (A e) (B e)) ∧ res (.vminn x) (fun e => min (a e) (b e)) ∧
    res (.vmaxn x) (fun e => max (a e) (b e)) ∧ res (.vand x) (fun e => (a e &&& b e : Nat)) ∧
    res (.vor x) (fun e => (a e ||| b e : Nat)) ∧ res (.vxor x) (fun e => (a e ^^^ b e : Nat)) ∧
    res (.vshl x) (fun e => a e * 2 ^ (b e % w)) ∧ res (.vshr x) (fun e => A e / 2 ^ (b e % w)) ∧
    res (.vshrl x) (fun e => a e / 2 ^ (b e % w)) ∧ res (.vadds x) (fun e => max lo (min hi (A e + B e))) ∧
    res (.vaddsn x) (fun e => min (2 ^ w - 1) (a e + b e)) ∧ res (.vsubs x) (fun e => max lo (min hi (A e - B e))) ∧
    res (.vabsd x) (fun e => |A e - B e|)

/-- R150: integer VFMA and VFMS, and floating lanes of the dual instructions, each formed exactly and rounded once.
R152 to R154, R157: division, square root, reciprocal, scaling, 2 to a power and dot products, by element. -/
def Obligations.FloatingLaneResults : Prop :=
  (∀ (s : State) (x : VaArgs), LanesReady s [x.va, x.vb, x.vd] x.vd x.mask →
     let w := (dualTy x.ty).width
     let a (e : Nat) := elem w (getV s s.cur x.va) e
     let b (e : Nat) := elem w (getV s s.cur x.vb) e
     let d (e : Nat) := elem w (getV s s.cur x.vd) e
     let res (i : Instr) (f : Nat → Nat) : Prop := LaneResult (exec i s) s s x.vd x.mask x.agn w (256 / w) f 4
     (∀ sg, dualTy x.ty = .int w sg →
       res (.vfma x) (fun e => (((d e : Int) + a e * b e) % 2 ^ w).toNat) ∧
       res (.vfms x) (fun e => (((d e : Int) - a e * b e) % 2 ^ w).toNat)) ∧
     ∀ f, dualTy x.ty = .flt f →
       res (.vadd x) (fun e => rne f (fadd (fval f (a e)) (fval f (b e)))) ∧
       res (.vsub x) (fun e => rne f (fsub (fval f (a e)) (fval f (b e)))) ∧
       res (.vmul x) (fun e => rne f (fmul (fval f (a e)) (fval f (b e)))) ∧
       res (.vfma x) (fun e => rne f (fadd (fval f (d e)) (fmul (fval f (a e)) (fval f (b e))))) ∧
       res (.vfms x) (fun e => rne f (fsub (fval f (d e)) (fmul (fval f (a e)) (fval f (b e))))) ∧
       res (.vmin x) (fun e => fminBits f (a e) (b e)) ∧ res (.vmax x) (fun e => fmaxBits f (a e) (b e))) ∧
  (∀ (s : State) (x : VaArgs) (y : Va1Args), LanesReady s [x.va, x.vb, x.vd] x.vd x.mask → LanesReady s [y.va] y.vd y.mask →
     let f := fltTy x.ty
     let g := fltTy y.ty
     let a (e : Nat) := fval f (elem f.width (getV s s.cur x.va) e)
     let b (e : Nat) := elem f.width (getV s s.cur x.vb) e
     let c (e : Nat) := fval g (elem g.width (getV s s.cur y.va) e)
     let res (i : Instr) (h : Nat → Nat) : Prop := LaneResult (exec i s) s s x.vd x.mask x.agn f.width (256 / f.width) h 4
     let res1 (i : Instr) (h : Nat → Nat) : Prop := LaneResult (exec i s) s s y.vd y.mask y.agn g.width (256 / g.width) h 4
     let dot (k : Nat) (j : Nat) : Nat := rne .f32 (fadd (fval .f32 (elem 32 (getV s s.cur x.vd) j))
       (treeSum32 (dotProducts f (getV s s.cur x.va) (getV s s.cur x.vb) k j)))
     res (.vdiv x) (fun e => rne f (fdiv f.frac (a e) (fval f (b e)))) ∧
     res (.vscale x) (fun e => rne f (fscale (a e) (sInt f.width (b e)))) ∧
     res1 (.vsqrt y) (fun e => rne g (fsqrt g.frac (c e))) ∧
     res1 (.vrcp y) (fun e => rne g (fdiv g.frac (.fin false 1 0) (c e))) ∧ res1 (.vexp2 y) (fun e => fexp2 g (c e)) ∧
     LaneResult (exec (.vdot4 x) s) s s x.vd x.mask x.agn 32 8 (dot 4) 4 ∧
     LaneResult (exec (.vdot2 x) s) s s x.vd x.mask x.agn 32 8 (dot 2) 4)

/-- R152: division and the square root are correctly rounded: what is rounded lies on the same side of every midpoint of two
neighbouring values of the format as the exact quotient or root. -/
def Obligations.DivisionAndRootRoundCorrectly : Prop :=
  ∀ (f : FFmt) (x y : Nat) (q : ℚ), x < 2 ^ f.width → y < 2 ^ f.width → (fval f x).isFin = true → (fval f y).isFin = true →
    (fval f x).toRat ≠ 0 → (fval f y).toRat ≠ 0 → (∃ (n : Int) (k : Int), q = n * 2 ^ k ∧ n.natAbs < 2 ^ (f.frac + 2)) →
    (q < (fval f x).toRat / (fval f y).toRat ↔ q < (fdiv f.frac (fval f x) (fval f y)).toRat) ∧
    ((fval f x).toRat / (fval f y).toRat < q ↔ (fdiv f.frac (fval f x) (fval f y)).toRat < q) ∧
    (signOf f x = false → 0 ≤ q →
      (q * q < (fval f x).toRat ↔ q < (fsqrt f.frac (fval f x)).toRat) ∧
      ((fval f x).toRat < q * q ↔ (fsqrt f.frac (fval f x)).toRat < q))

/-- R155, R156, R88: compares write one bit an element and 0 above; VSEL selects by the mask and writes every element. -/
def Obligations.CompareAndSelectResults : Prop :=
  ∀ (s : State) (x : VaArgs) (y : VselArgs) (z : SvArgs), LanesReady s [x.va, x.vb] x.vd x.mask →
    LanesReady s [y.va, y.vb] y.vd 0 → VecsSound s (maskCode y.mask) → LanesReady s [svDst z, svSrc z] (svDst z) 0 →
    let w := (dualTy x.ty).width
    let u := 8 * 2 ^ (x.ty.val % 4)
    let m := 8 * 2 ^ (y.ty.val % 4)
    let bit (p : Bool) : Nat := if p then 1 else 0
    let res (i : Instr) (w : Nat) (f : Nat → Bool) : Prop :=
      LaneResult (exec i s) s s x.vd x.mask x.agn 1 (256 / w) (fun e => bit (f e)) 4
    let rel (r : Cmp) (e : Nat) : Bool :=
      laneCmp r (dualTy x.ty) (elem w (getV s s.cur x.va) e) (elem w (getV s s.cur x.vb) e)
    res (.vcmpeq x) w (rel .eq) ∧ res (.vcmplt x) w (rel .lt) ∧ res (.vcmple x) w (rel .le) ∧
    res (.vcmpltn x) u (fun e => decide (elem u (getV s s.cur x.va) e < elem u (getV s s.cur x.vb) e)) ∧
    (y.mask ≠ 0 → PlainResult (exec (.vsel y) s) s y.vd m (256 / m)
      (fun e => if maskBit s s.cur y.mask e then elem m (getV s s.cur y.va) e else elem m (getV s s.cur y.vb) e) 4) ∧
    (y.mask = 0 → exec (.vsel y) s = .next (raise s s.cur { cls := .illegalOperand })) ∧
    PlainResult (exec (.vcmpltShort z) s) s (svDst z) 1 (256 / (shortTy z.ty).width)
      (fun e => bit (laneCmp .lt (shortTy z.ty) (elem (shortTy z.ty).width (getV s s.cur (svDst z)) e)
        (elem (shortTy z.ty).width (getV s s.cur (svSrc z)) e))) 2

/-- R88, R158: the short lane forms on a k register, with no mask, in two bytes.
R49, R51 to R54, R160: the conversions write min(256 / widths) elements and zeros above. A floating result is rounded by R49; an
integer one is rounded to a whole number by the mode and then saturates, NaN giving 0; VCVTII keeps the low bits, or saturates
under `.sat`. In stochastic mode element e draws the top half of its generator's new state; each active element advances it
once, in increasing order, by R52's xs_next, and nothing else changes. -/
def Obligations.ShortLaneAndConversionResults : Prop :=
  (∀ (s : State) (x : SvArgs), Bare s → LanesReady s [svSrc x] (svDst x) 0 →
     let t := shortTy x.ty
     let w := t.width
     let d (e : Nat) := elem w (getV s s.cur (svDst x)) e
     let a (e : Nat) := elem w (getV s s.cur (svSrc x)) e
     let l (e : Nat) := elem w (getV s s.cur 0) e
     let res (i : Instr) (f : Nat → Nat) : Prop := PlainResult (exec i s) s (svDst x) w (256 / w) f 2
     res (.vmovShort x) a ∧ res (.vneg x) (fun e => laneNeg t (a e)) ∧ res (.vabs x) (fun e => laneAbs t (a e)) ∧
     (VecsSound s [svDst x, 0] → res (.vmac x) (fun e => laneFma t (d e) (l e) (a e))) ∧
     (VecsSound s [svDst x] → res (.vaddShort x) (fun e => laneAdd t (d e) (a e)) ∧
     res (.vsubShort x) (fun e => laneSub t (d e) (a e)) ∧ res (.vmulShort x) (fun e => laneMul t (d e) (a e)) ∧
     res (.vminShort x) (fun e => laneMin t (d e) (a e)) ∧
     res (.vmaxShort x) (fun e => laneMax t (d e) (a e)) ∧ res (.vandShort x) (fun e => d e &&& a e) ∧
     res (.vorShort x) (fun e => d e ||| a e) ∧ res (.vxorShort x) (fun e => d e ^^^ a e) ∧
     res (.vshlShort x) (fun e => d e * 2 ^ (a e % w)) ∧ res (.vshrlShort x) (fun e => d e / 2 ^ (a e % w)) ∧
     res (.vshrShort x) (fun e => ((sInt w (d e) / 2 ^ (a e % w)) % 2 ^ w).toNat))) ∧
  (∀ (s : State) (x : CvtArgs), LanesReady s [x.va] x.vd x.mask →
     let xs (y : BitVec 32) : BitVec 32 :=
       let a := y ^^^ (y <<< 13)
       let b := a ^^^ (a >>> 17)
       b ^^^ (b <<< 5)
     let whole (r : Nat) (y : ℚ) : Int :=
       let m := |y|
       let lo := ⌊m⌋
       let up : Bool := match x.rnd with
         | .rtz => false
         | .sr => decide ((r : Int) < ⌊(m - lo) * 2 ^ 16⌋)
         | _ => decide (1 / 2 < m - lo ∨ (m - lo = 1 / 2 ∧ lo % 2 = 1))
       let k := if up then lo + 1 else lo
       if y < 0 then -k else k
     let least (t : LaneTy) : Int := match t with
       | .int w true => -2 ^ (w - 1)
       | _ => 0
     let most (t : LaneTy) : Int := match t with
       | .int w true => 2 ^ (w - 1) - 1
       | t => 2 ^ t.width - 1
     let number (t : LaneTy) (a : Nat) : Int := match t with
       | .int w true => sInt w a
       | _ => a
     let clamp (t : LaneTy) (k : Int) : Int := max (least t) (min (most t) k)
     let toWhole (t : LaneTy) (r : Nat) (v : FVal) : Nat :=
       ((match v with
         | .nan => 0
         | .inf sg => if sg then least t else most t
         | v => clamp t (whole r v.toRat)) % 2 ^ t.width).toNat
     let res (i : Instr) (src dst : LaneTy) (f : Nat → Nat → Nat) : Prop :=
       let n := 256 / max src.width dst.width
       let steps (j m : Nat) : Nat := (List.range m).countP fun k => decide (k % 8 = j) && active s x.mask n k
       let st (j : Fin 8) := (s.ctx s.cur).st[j.val]
       let draw (e : Nat) : Nat :=
         if x.rnd = .sr ∧ active s x.mask n e = true then (xs^[steps (e % 8) (e + 1)] (st (Fin.ofNat 8 e))).toNat / 2 ^ 16 else 0
       ∃ t, LaneResult (exec i s) s t x.vd x.mask x.agn dst.width n (fun e => f (draw e) (elem src.width (getV s s.cur x.va) e)) 4 ∧
         (∀ j : Fin 8, (t.ctx s.cur).st[j.val] = if x.rnd = .sr then xs^[steps j.val n] (st j) else st j) ∧
         (x.rnd ≠ .sr → t = s) ∧ MemoryKept s t ∧ (∀ c, c ≠ s.cur → t.ctx c = s.ctx c) ∧ (t.ctx s.cur).pc = (s.ctx s.cur).pc ∧
         (∀ r, getG t s.cur r = getG s s.cur r) ∧ ∀ v, getV t s.cur v = getV s s.cur v
     let fa := fltTy x.ta
     let fb := fltTy x.tb
     let ia := intTy x.ta
     let ib := intTy x.tb
     res (.vcvtff x) (.flt fa) (.flt fb) (fun r a => fround fb x.rnd r (fval fa a)) ∧
     res (.vcvtfi x) (.flt fa) ib (fun r a => toWhole ib r (fval fa a)) ∧
     res (.vcvtif x) ia (.flt fb) (fun r a => fround fb x.rnd r (ofInt (number ia a))) ∧
     res (.vcvtii x) ia ib (fun _ a => ((if x.rnd = .sat then clamp ib (number ia a) else number ia a) % 2 ^ ib.width).toNat))

/-- R165: broadcast, element reads and writes, permutation, compression, expansion, mask load and move. -/
def Obligations.ElementMoveResults : Prop :=
  (∀ (s : State) (x : VbcastArgs), LanesReady s [] x.vd x.mask → RegsFree s [x.ga] [] →
    LaneResult (exec (.vbcast x) s) s s x.vd x.mask x.agn (widthOf x.ta) (256 / widthOf x.ta)
      (fun _ => (getG s s.cur x.ga).toNat) 4) ∧
  (∀ (s : State) (x : VtoGArgs), Quiet s → RegsFree s [x.gd] [] → VecsSound s [x.va] →
    let w := widthOf x.ta
    let i := (getG s s.cur x.gd).toNat
    let v := elem w (getV s s.cur x.va) i
    (i < 256 / w → exec (.vget x) s =
      .next (doneG s x.gd (BitVec.ofInt 64 (if x.ta.val < 4 then sInt w v else (v : Int))) 4)) ∧
    (256 / w ≤ i → exec (.vget x) s = .next (raise s s.cur { cls := .illegalOperand }))) ∧
  (∀ (s : State) (x : VputArgs), LanesReady s [x.vd] x.vd 0 → RegsFree s [x.ga, pairReg x.ga] [] →
    let w := widthOf x.ta
    let i := (getG s s.cur (pairReg x.ga)).toNat
    (i < 256 / w → PlainResult (exec (.vput x) s) s x.vd w (256 / w)
      (fun e => if e = i then (getG s s.cur x.ga).toNat else elem w (getV s s.cur x.vd) e) 4) ∧
    (256 / w ≤ i → exec (.vput x) s = .next (raise s s.cur { cls := .illegalOperand }))) ∧
  (∀ (s : State) (x : VxArgs), LanesReady s [x.va] x.vd x.mask →
    let w := widthOf x.ta
    let n := 256 / w
    let a (e : Nat) := elem w (getV s s.cur x.va) e
    let res (i : Instr) (f : Nat → Nat) : Prop := LaneResult (exec i s) s s x.vd x.mask x.agn w n f 4
    (VecsSound s [x.vd] → res (.vperm x) (fun e => a (elem w (getV s s.cur x.vd) e % n))) ∧ res (.vmov x) a ∧
    res (.vexpnd x) (fun e => a ((List.range e).countP fun k => active s x.mask n k))) ∧
  (∀ (s : State) (x : VcomprArgs), LanesReady s [x.va] x.vd 0 → VecsSound s (maskCode x.mask) →
    let w := widthOf x.ta
    let n := 256 / w
    let on := (List.range n).filter (active s x.mask n)
    PlainResult (exec (.vcompr x) s) s x.vd w n
      (fun e => if h : e < on.length then elem w (getV s s.cur x.va) on[e] else 0) 4) ∧
  ∀ (s : State) (ga : GReg) (vd : VCode), LanesReady s [] vd 0 → RegsFree s [ga] [] →
    exec (.vmask ga vd) s = .next (doneV s vd (BitVec.ofNat 256 ((getG s s.cur ga).toNat % 2 ^ 32)) 4)

/-- R73, R74, R166: reductions by the tree into element 0, with the identity in place of a masked-off element, and the scan.
R167 to R170: mask words, bitmap leaves, classes and generator seeds. -/
def Obligations.ReductionAndMaskResults : Prop :=
  (∀ (s : State) (x : VredArgs), LanesReady s [x.va] x.vd 0 → VecsSound s (maskCode x.mask) →
     let t := selTy x.tb x.ta
     let w := t.width
     let n := 256 / w
     let input (z : Nat) : List Nat :=
       (List.range n).map fun e => if active s x.mask n e then elem w (getV s s.cur x.va) e else z
     let res (i : Instr) (f : Nat → Nat) : Prop := PlainResult (exec i s) s x.vd w n f 4
     let head (v : Nat) (e : Nat) : Nat := if e = 0 then v else 0
     res (.vredadd x) (head (tree (laneAdd t) 0 (input (addIdentity t)))) ∧
     res (.vredmax x) (head (tree (laneMax t) 0 (input (maxIdentity t)))) ∧
     res (.vredmin x) (head (tree (laneMin t) 0 (input (minIdentity t)))) ∧
     ∃ out : Nat → Nat, res (.vscanadd x) out ∧ out 0 = (input (addIdentity t)).getD 0 0 ∧
       ∀ e, e + 1 < n → out (e + 1) = laneAdd t (out e) ((input (addIdentity t)).getD (e + 1) 0)) ∧
  ((∀ (s : State) (x : VtoGArgs), Quiet s → RegsFree s [] [x.gd] → VecsSound s [x.va] →
     let n := 256 / widthOf x.ta
     let v := getV s s.cur x.va
     exec (.vpopm x) s = .next (doneG s x.gd (BitVec.ofNat 64 ((List.range n).countP fun e => v.getLsbD e)) 4) ∧
     ∃ r : Word, exec (.vfirst x) s = .next (doneG s x.gd r 4) ∧
       ((∀ e, e < n → v.getLsbD e = false) → r = -1) ∧
       ∀ e, e < n → v.getLsbD e = true → (∀ k, k < e → v.getLsbD k = false) → r = BitVec.ofNat 64 e) ∧
   (∀ (s : State) (x : VbmencArgs), Quiet s → RegsFree s [] [x.gd] → VecsSound s ([x.va] ++ maskCode x.mask) →
     let t := selTy x.tb x.ta
     let n := 256 / t.width
     ∃ r : Word, exec (.vbmenc x) s = .next (doneG s x.gd r 4) ∧
       ∀ e, e < 64 → r.getLsbD e = (decide (e < n) && active s x.mask n e &&
         !isZeroElem t (elem t.width (getV s s.cur x.va) e))) ∧
   (∀ (s : State) (x : VbmdecArgs), LanesReady s [x.vd] x.vd x.mask → RegsFree s [x.ga] [] →
     let w := (selTy x.tb x.ta).width
     let m := getG s s.cur x.ga
     LaneResult (exec (.vbmdec x) s) s s x.vd x.mask x.agn w (256 / w) (fun e =>
       if m.getLsbD e then elem w (getV s s.cur x.vd) ((List.range e).countP fun k => m.getLsbD k) else 0) 4) ∧
   (∀ (s : State) (x : VxArgs), LanesReady s [x.va] x.vd x.mask →
     let w := widthOf x.ta
     let f := fltTy x.ta
     LaneResult (exec (.viota x) s) s s x.vd x.mask x.agn w (256 / w)
       (fun e => (List.range e).countP fun k => (getV s s.cur x.va).getLsbD k) 4 ∧
     LaneResult (exec (.vclass x) s) s s x.vd x.mask x.agn f.width (256 / f.width)
       (fun e => classOf f (elem f.width (getV s s.cur x.va) e)) 4) ∧
   ∀ (s : State) (va : VCode) (mask : Fin 8), VecsSound s ([va] ++ maskCode mask) →
     ∃ t, exec (.vrndseed va mask) s = .next t ∧ (t.ctx s.cur).pc = (s.ctx s.cur).pc + 4 ∧ t.mem = s.mem ∧
       (∀ j : Fin 8, (t.ctx s.cur).st[j.val] =
         let seed := BitVec.ofNat 32 (elem 32 (getV s s.cur va) j.val)
         if maskBit s s.cur mask j.val then (if seed = 0 then 0x6D2B79F5#32 ^^^ BitVec.ofNat 32 j.val else seed)
         else (s.ctx s.cur).st[j.val]) ∧
       (∀ r, getG t s.cur r = getG s s.cur r) ∧ ∀ v, getV t s.cur v = getV s s.cur v)

/-- R83 to R85: what writing a vector result does: the named register holds it, code 0 names none, the last-result file holds
it in l0 and its earlier three entries behind, and nothing else changes. -/
def Obligations.VectorResultsArePushed : Prop :=
  ∀ (s : State) (vd : VCode) (v : Vec) (len : Nat), goodDest vd = true →
    let t := doneV s vd v len
    (∀ c : VCode, getV t s.cur c =
      if c.val = 0 then v else if c.val < 4 then getV s s.cur (c - 1) else if c = vd then v else getV s s.cur c) ∧
    (t.ctx s.cur).pc = (s.ctx s.cur).pc + BitVec.ofNat 64 len ∧ (∀ c, c ≠ s.cur → t.ctx c = s.ctx c) ∧
    (∀ r, getG t s.cur r = getG s s.cur r) ∧ (t.ctx s.cur).st = (s.ctx s.cur).st ∧ MemoryKept s t ∧ CsrsKept s t

/-! ### Loads and stores (R171 to R177) -/

/-- R90, R171: a scalar load whose checks pass writes the bytes at base + disp × size, sign- or zero-extended; the short forms
take their address from gs and go on by two bytes. The bytes are those of the newest write where nothing older may be read (log 8), and a
load of the host window completes at once (log 45): both are the model's choice.
R179, R206, R211: beyond the order that synchronisation makes a load may return an older write. Where its context has not seen a write, a
scalar load completes all the same, and changes nothing but its register, what may still be read and the model's free choice; it reads past
writes that its context has not seen, and past each of them, within 8 bytes, as a whole or not at all. Which older values are kept, and
that one stays readable until an event of the order, is the model's choice (log 8).
R171, R173: VLD from an aligned address and VLDB from any write 32 bytes to the destination and push them.
R40, R177, R203: a handle-mode load with slots enough reads at the slot offset counted from the tail, having seen what engines have
written there (`slotsSeen`), and each of them sleeps with too few.
R90, R171: a store whose checks pass stores the low bytes of its register at base + disp × size and goes on; nothing else is
written than what storing those bytes does. That a store of the host window completes at once is the model's choice (log 45).
R172, R177: VSTM stores the bytes that its mask selects and, when it selects none, writes and raises nothing, which also for
its address and its handle is the model's reading (log 46); the handle-mode stores write at the slot offset counted from the head,
and each of them sleeps with too few free slots. -/
def Obligations.LoadAndStoreResults : Prop :=
  (∀ (s : State) (x : MemG) (y : SsArgs) (runs : List (Nat × Nat)),
     let a (n : Nat) := (getG s s.cur x.base + BitVec.ofInt 64 (x.disp.toInt * n)).toNat
     let b := (getG s s.cur y.gs).toNat
     let v := leNat (runsBytes s runs)
     let out (w : Word) : Out := .next (doneG s x.reg w 4)
     (RegsFree s [x.base] [x.reg] →
       (LoadReady s (a 1) 1 1 runs → exec (.lb x) s = out (signedWord 1 v) ∧ exec (.lbn x) s = out (BitVec.ofNat 64 v)) ∧
       (LoadReady s (a 2) 2 2 runs → exec (.lh x) s = out (signedWord 2 v) ∧ exec (.lhn x) s = out (BitVec.ofNat 64 v)) ∧
       (LoadReady s (a 4) 4 4 runs → exec (.lw x) s = out (signedWord 4 v) ∧ exec (.lwn x) s = out (BitVec.ofNat 64 v)) ∧
       (LoadReady s (a 8) 8 8 runs → exec (.lx x) s = out (BitVec.ofNat 64 v))) ∧
     (RegsFree s [y.gs] [y.gd] →
       (LoadReady s b 4 4 runs → exec (.lw16 y) s = .next (doneG s y.gd (signedWord 4 v) 2)) ∧
       (LoadReady s b 8 8 runs → exec (.lx16 y) s = .next (doneG s y.gd (BitVec.ofNat 64 v) 2)))) ∧
  (∀ (s : State) (x : MemG) (runs : List (Nat × Nat)), RegsFree s [x.base] [x.reg] →
     let a (n : Nat) := (getG s s.cur x.base + BitVec.ofInt 64 (x.disp.toInt * n)).toNat
     let gives (i : Instr) (f : Nat → Word) : Prop := ∃ (u : Visibility) (n : Nat) (v : List Byte),
       exec i s = .next (doneG { s with vis := u, choice := n } x.reg (f (leNat v)) 4) ∧ MayLoad s runs v
     (ReadReady s (a 1) 1 1 runs → gives (.lb x) (signedWord 1) ∧ gives (.lbn x) (BitVec.ofNat 64)) ∧
     (ReadReady s (a 2) 2 2 runs → gives (.lh x) (signedWord 2) ∧ gives (.lhn x) (BitVec.ofNat 64)) ∧
     (ReadReady s (a 4) 4 4 runs → gives (.lw x) (signedWord 4) ∧ gives (.lwn x) (BitVec.ofNat 64)) ∧
     (ReadReady s (a 8) 8 8 runs → gives (.lx x) (BitVec.ofNat 64))) ∧
  (∀ (s : State) (x : MemV) (runs : List (Nat × Nat)), Quiet s → RegsFree s [x.base] [] → goodDest x.reg = true →
     let a := (getG s s.cur x.base + BitVec.ofInt 64 (x.disp.toInt * 32)).toNat
     let out : Out := .next (doneV s x.reg (BitVec.ofNat 256 (leNat (runsBytes s runs))) 4)
     (LoadReady s a 32 32 runs → exec (.vld x) s = out) ∧ (LoadReady s a 32 1 runs → exec (.vldb x) s = out)) ∧
  (∀ (s : State) (x : HMemG) (y : HMemV) (h : Handle) (runs : List (Nat × Nat)), y.off = x.off → y.need = x.need → y.h = x.h →
     let o := 32 * x.off.val
     let need := x.need.val + 1
     let a := h.base + (h.tail + o / h.size) % h.count * h.size + o % h.size
     let v := leNat (runsBytes s runs)
     let ready (n align : Nat) : Prop := HandleReady s x.h o need n false h ∧ LoadReady s a n align runs
     let lacks (n : Nat) : Prop := getHandle s s.cur x.h = some h ∧ o % h.size + n ≤ h.size ∧ need ≤ h.count ∧ o + n ≤ need * h.size ∧
       h.fill < need
     let sleeps (i : Instr) : Prop := exec i s = waitFor s (.handle x.h false need)
     let seen (n : Nat) : State := slotsSeen s (.ctx s.cur) a n
     let out (n : Nat) (w : Word) : Out := .next (doneG (seen n) x.reg w 4)
     let outV : Out := .next (doneV (seen 32) y.reg (BitVec.ofNat 256 v) 4)
     (RegsFree s [] [x.reg] →
       (ready 1 1 → exec (.lbHandle x) s = out 1 (signedWord 1 v) ∧ exec (.lbnHandle x) s = out 1 (BitVec.ofNat 64 v)) ∧
       (ready 2 2 → exec (.lhHandle x) s = out 2 (signedWord 2 v) ∧ exec (.lhnHandle x) s = out 2 (BitVec.ofNat 64 v)) ∧
       (ready 4 4 → exec (.lwHandle x) s = out 4 (signedWord 4 v) ∧ exec (.lwnHandle x) s = out 4 (BitVec.ofNat 64 v)) ∧
       (ready 8 8 → exec (.lxHandle x) s = out 8 (BitVec.ofNat 64 v)) ∧
       (lacks 1 → sleeps (.lbHandle x) ∧ sleeps (.lbnHandle x)) ∧ (lacks 2 → sleeps (.lhHandle x) ∧ sleeps (.lhnHandle x)) ∧
       (lacks 4 → sleeps (.lwHandle x) ∧ sleeps (.lwnHandle x)) ∧ (lacks 8 → sleeps (.lxHandle x))) ∧
     (Quiet s → goodDest y.reg = true →
       (ready 32 32 → exec (.vldHandle y) s = outV) ∧ (ready 32 1 → exec (.vldbHandle y) s = outV)) ∧
     (goodDest y.reg = true → lacks 32 → sleeps (.vldHandle y) ∧ sleeps (.vldbHandle y))) ∧
  (∀ (s : State) (x : MemG) (y : SsArgs) (z : MemV) (runs : List (Nat × Nat)),
     let a (n : Nat) := (getG s s.cur x.base + BitVec.ofInt 64 (x.disp.toInt * n)).toNat
     let b := (getG s s.cur y.gs).toNat
     let c := (getG s s.cur z.base + BitVec.ofInt 64 (z.disp.toInt * 32)).toNat
     let out (n v len : Nat) : Out := .next (retire (ctxStore s runs (leBytes n v)) s.cur len)
     let g := (getG s s.cur x.reg).toNat
     let d := (getG s s.cur y.gd).toNat
     (RegsFree s [x.base, x.reg] [] →
       (StoreReady s (a 1) 1 1 runs → exec (.sb x) s = out 1 (g % 2 ^ 8) 4) ∧
       (StoreReady s (a 2) 2 2 runs → exec (.sh x) s = out 2 (g % 2 ^ 16) 4) ∧
       (StoreReady s (a 4) 4 4 runs → exec (.sw x) s = out 4 (g % 2 ^ 32) 4) ∧
       (StoreReady s (a 8) 8 8 runs → exec (.sx x) s = out 8 g 4)) ∧
     (RegsFree s [y.gs, y.gd] [] →
       (StoreReady s b 4 4 runs → exec (.sw16 y) s = out 4 (d % 2 ^ 32) 2) ∧
       (StoreReady s b 8 8 runs → exec (.sx16 y) s = out 8 d 2)) ∧
     (RegsFree s [z.base] [] → VecsSound s [z.reg] → StoreReady s c 32 32 runs →
       exec (.vst z) s = out 32 (getV s s.cur z.reg).toNat 4)) ∧
  (∀ (s : State) (x : VstmArgs) (y : HMemG) (z : HMemV) (u : VstmHArgs) (h : Handle) (runs : List (Nat × Nat)),
     z.off = y.off → z.need = y.need → z.h = y.h → u.off.val = y.off.val → u.need = y.need → u.h = y.h →
     let a := (getG s s.cur x.base + BitVec.ofInt 64 (x.disp.toInt * 32)).toNat
     let o := 32 * y.off.val
     let need := y.need.val + 1
     let b := h.base + (h.head + o / h.size) % h.count * h.size + o % h.size
     let ready (n : Nat) : Prop := HandleReady s y.h o need n true h ∧ StoreReady s b n n runs
     let lacks (n : Nat) : Prop := getHandle s s.cur y.h = some h ∧ o % h.size + n ≤ h.size ∧ need ≤ h.count ∧ o + n ≤ need * h.size ∧
       h.count - h.fill < need
     let sleeps (i : Instr) : Prop := exec i s = waitFor s (.handle y.h true need)
     let out (n v : Nat) : Out := .next (retire (ctxStore s runs (leBytes n v)) s.cur 4)
     let masked (v : Vec) (m : Fin 8) : Out :=
       .next (retire (ctxStoreMasked s ((runs.headD (0, 0)).1) (leBytes 32 v.toNat) fun j => maskBit s s.cur m j) s.cur 4)
     let none_ (m : Fin 8) : Prop := ∀ j, j < 32 → maskBit s s.cur m j = false
     let g := (getG s s.cur y.reg).toNat
     (RegsFree s [x.base] [] → VecsSound s ([x.reg] ++ maskCode x.mask) →
       (none_ x.mask → exec (.vstm x) s = .next (retire s s.cur 4)) ∧
       (¬ none_ x.mask → StoreReady s a 32 32 runs → exec (.vstm x) s = masked (getV s s.cur x.reg) x.mask)) ∧
     (RegsFree s [y.reg] [] →
       (ready 1 → exec (.sbHandle y) s = out 1 (g % 2 ^ 8)) ∧ (ready 2 → exec (.shHandle y) s = out 2 (g % 2 ^ 16)) ∧
       (ready 4 → exec (.swHandle y) s = out 4 (g % 2 ^ 32)) ∧ (ready 8 → exec (.sxHandle y) s = out 8 g) ∧
       (lacks 1 → sleeps (.sbHandle y)) ∧ (lacks 2 → sleeps (.shHandle y)) ∧ (lacks 4 → sleeps (.swHandle y)) ∧
       (lacks 8 → sleeps (.sxHandle y))) ∧
     (VecsSound s [z.reg] → (ready 32 → exec (.vstHandle z) s = out 32 (getV s s.cur z.reg).toNat) ∧
       (lacks 32 → sleeps (.vstHandle z))) ∧
     (VecsSound s ([u.reg] ++ maskCode u.mask) →
       (none_ u.mask → exec (.vstmHandle u) s = .next (retire s s.cur 4)) ∧
       (¬ none_ u.mask → (ready 32 → exec (.vstmHandle u) s = masked (getV s s.cur u.reg) u.mask) ∧
         (lacks 32 → sleeps (.vstmHandle u)))))

/-- R59, R175, R190, R224: what storing bytes does: they read back, no other byte changes but the boltropes of configured tile
slots, tags and descriptors stay, and an entry that watches a word written has fired.
R206, R211: what a store by a context leaves of the order. Memory is as the store of its bytes leaves it; the writer reads its own
write from then on; every other live context may still read what stood at a byte that it wrote, where it could read nothing older
before; and what any context may read at other bytes stays. The rule allows it, and that it lasts until an event of the order is the
model's choice (log 8). -/
def Obligations.StoredBytesReadBack : Prop :=
  (∀ (s : State) (loc : Nat) (bs : List Byte), MemoryInv s → bs ≠ [] → (loc + bs.length ≤ boltLoc 0 ∨ boltLoc 64 ≤ loc) →
     let t := store s loc bs
     readBytes t loc bs.length = bs ∧
     (∀ a, (a < loc ∨ loc + bs.length ≤ a) → (a < boltLoc 0 ∨ boltLoc 64 ≤ a) → Memory.get t.mem a = Memory.get s.mem a) ∧
     t.tags = s.tags ∧ t.descs = s.descs ∧
     (∀ i : Fin 8, ∀ e, s.core.watch[i.val] = some e → loc < e.loc + 4 → e.loc < loc + bs.length →
       t.core.watch[i.val] = some { e with fired := true }) ∧
     ∀ c, (t.ctx c).g = (s.ctx c).g ∧ (t.ctx c).k = (s.ctx c).k ∧ (t.ctx c).v = (s.ctx c).v ∧ (t.ctx c).pc = (s.ctx c).pc) ∧
  (∀ (s : State) (loc : Nat) (bs : List Byte),
     let t := ctxStore s [(loc, bs.length)] bs
     t.mem = (storeRuns s [(loc, bs.length)] bs).mem ∧
     (∀ k, k < bs.length → oldFor t s.cur (loc + k) = none) ∧
     (∀ (c : Fin 8) (k : Nat), c ≠ s.cur → (s.ctx c).live = true → k < bs.length →
       oldFor s c (loc + k) = none → oldFor t c (loc + k) = some (Memory.get s.mem (loc + k))) ∧
     (∀ (c : Fin 8) (k : Nat) (v : Byte), c ≠ s.cur → oldFor s c (loc + k) = some v → oldFor t c (loc + k) = some v) ∧
     (∀ (c : Fin 8) (l : Nat), (l < loc ∨ loc + bs.length ≤ l) → oldFor t c l = oldFor s c l) ∧
     (t.unacked = (s.unacked || decide (gwinLoc ≤ loc ∧ bs ≠ [])) ∨ loc < gwinLoc ∧ gwinLoc < loc + bs.length))

/-- R174: a read or write of this core's own scratchpad reaches exactly the bytes named, past the checks of its blocks; bytes
at or above 0x2_0000 are SPAD_RANGE, an address in no range is PROT_FAULT, and so is a store to the windows of accumulators,
borders and harvest. An access to the scratchpad of a sealed peer is PEER_SEALED, after every other test, with the peer's CORE_PID as
ADDR (R307, R311); when a peer is known to be sealed here is the model's choice (log 28).
R58, R173: a misaligned access is MISALIGNED with the address, whatever else is wrong with it, and a read whose checks
fail takes their fault; neither writes a register or a byte. -/
def Obligations.AddressChecksAndFaults : Prop :=
  (∀ (s : State) (a n : Nat), 0 < n → n ≤ 32 →
     (a + n ≤ 0x20000 → checkWrite s a n = .ok [(a, n)] ∧
       (checkRuns s [(a, n)] a = .ok () → touchesPoisonedTile s a n = false → checkRead s a n = .ok [(a, n)])) ∧
     (a < 0x20000 → 0x20000 < a + n → (∃ f, checkRead s a n = .error f ∧ f.cls = .spadRange) ∧
       ∃ f, checkWrite s a n = .error f ∧ f.cls = .spadRange) ∧
     (regionOf a = .hole ∨ regionOf a = .debug → (∃ f, checkRead s a n = .error f ∧ f.cls = .protFault) ∧
       ∃ f, checkWrite s a n = .error f ∧ f.cls = .protFault) ∧
     (regionOf a = .acc ∨ regionOf a = .border ∨ regionOf a = .harvest →
       ∃ f, checkWrite s a n = .error f ∧ f.cls = .protFault) ∧
     (regionOf a = .hbm → a + n ≤ 0x200000000000 → translation s a = none →
       (∃ f, checkRead s a n = .error f ∧ f.cls = .pageFault ∧ f.addr = BitVec.ofNat 64 a) ∧
       ∃ f, checkWrite s a n = .error f ∧ f.cls = .pageFault) ∧
     (∀ (l : Nat) (place : BitVec 32), checkRange s a n true = .ok .gwin → sealedPeer s a = some l → placeOf s l = some place →
       let loc := directLoc s .gwin a
       let sealed : Flt := { cls := .peerSealed, addr := place.zeroExtend 64 }
       checkWrite s a n = .error sealed ∧
       (checkRuns s [(loc, n)] a = .ok () → touchesPoisonedTile s loc n = false → checkRead s a n = .error sealed))) ∧
  (∀ (s t : State) (x : MemG), RegsFree s [x.base, x.reg] [] →
     let a (n : Nat) := (getG s s.cur x.base + BitVec.ofInt 64 (x.disp.toInt * n)).toNat
     let mis (i : Instr) (n : Nat) : Prop :=
       a n % n ≠ 0 → exec i s = .next (raise s s.cur { cls := .misaligned, addr := BitVec.ofNat 64 (a n) })
     mis (.lh x) 2 ∧ mis (.lhn x) 2 ∧ mis (.lw x) 4 ∧ mis (.lwn x) 4 ∧ mis (.lx x) 8 ∧ mis (.sh x) 2 ∧ mis (.sw x) 4 ∧
     mis (.sx x) 8 ∧ mis (.ldesc x) 64 ∧ mis (.sdesc x) 64 ∧
     (∀ f, a 8 % 8 = 0 → checkRead s (a 8) 8 = .error f → exec (.lx x) s = .next (raise s s.cur f)) ∧
     (∀ f, a 8 % 8 = 0 → checkWrite s (a 8) 8 = .error f → exec (.sx x) s = .next (raise s s.cur f)) ∧
     (∀ f, t = raise s s.cur f → (∀ loc, Memory.get t.mem loc = Memory.get s.mem loc) ∧ ∀ c r, getG t c r = getG s c r))

/-- R176: LDESC reads the block's descriptor and SDESC writes it, refusing a reserved format code and bits above 15;
the ADDR of their faults is the model's choice where R307 gives none (log 42).
R161 to R163: VQUANT writes one quantised block and its descriptor value, and VDEQ and VCBDEC decode one register's worth
of elements of a block of this core's scratchpad. They read as loads do; here of bytes of which nothing older may be read (`SeenAt`, log 8), and that
NaN and zero blocks draw nothing is the model's choice (log 46). -/
def Obligations.DescriptorAndCodecResults : Prop :=
  (∀ (s : State) (x : MemG) (loc n : Nat), RegsFree s [x.base, x.reg] [] →
     let a := (getG s s.cur x.base + BitVec.ofInt 64 (x.disp.toInt * 64)).toNat
     let d := getG s s.cur x.reg
     let r := regionOf a
     a % 64 = 0 → Unpaired s a → sealedPeer s a = none →
     ((r = .spad ∨ r = .gwin ∨ r = .hbm) → checkRange s a 64 false = .ok r → locate s r a 64 false = .ok [(loc, n)] →
       s.badParity.contains (loc / 64) = false →
       exec (.ldesc x) s = .next (doneG s x.reg ((descOf s (loc / 64)).zeroExtend 64) 4)) ∧
     ((r = .acc ∨ r = .border) → checkRange s a 64 false = .ok r → exec (.ldesc x) s = .next (doneG s x.reg 9 4)) ∧
     (r = .harvest → checkRange s a 64 false = .ok r → exec (.ldesc x) s = .next (doneG s x.reg 0 4)) ∧
     (r = .host → checkRange s a 64 false = .ok r → locate s r a 64 false = .ok [(loc, n)] →
       exec (.ldesc x) s = .next (doneG s x.reg 0 4)) ∧
     (d.toNat < 2 ^ 16 → fmtAssigned (d.toNat % 256) = true → (r = .acc ∨ r = .border ∨ r = .harvest ∨ r = .host) →
       a + 64 ≤ regionEnd r → ∃ f, f.cls = .protFault ∧ exec (.sdesc x) s = .next (raise s s.cur f)) ∧
     (d.toNat < 2 ^ 16 → fmtAssigned (d.toNat % 256) = true → (r = .spad ∨ r = .gwin ∨ r = .hbm) →
       checkRange s a 64 true = .ok r → locate s r a 64 true = .ok [(loc, n)] →
       exec (.sdesc x) s = .next (retire (setDesc s (loc / 64) (d.truncate 16)) s.cur 4)) ∧
     (2 ^ 16 ≤ d.toNat ∨ fmtAssigned (d.toNat % 256) = false →
       exec (.sdesc x) s = .next (raise s s.cur { cls := .illegalOperand }))) ∧
  ((∀ (s : State) (x : VquantArgs), Quiet s → RegsFree s [x.ga, x.gd] [] →
     let f := fltTy x.tb
     let g := fltTy x.ta
     let n := if f = .e2m1 then 128 else 64
     let a := (getG s s.cur x.ga).toNat
     let b := (getG s s.cur x.gd).toNat
     let vals := (unpackBytes g.width n (readBytes s a (n * g.width / 8))).map (fval g)
     let t := roundElems x.rnd (fun _ => quantRounds vals) (fun _ r => r) (List.range n) s
     let q := quantBlock f x.rnd t.1 vals
     a % 64 = 0 → b % 64 = 0 → a + n * g.width / 8 ≤ 0x20000 → b + 64 ≤ 0x20000 →
     checkOwn s [(a, n * g.width / 8)] = .ok () → SeenAt s [(a, n * g.width / 8)] →
     exec (.vquant x) s = .next (doneG (ctxStore t.2 [(b, 32), (b + 32, 32)] (packBytes f.width q.2)) x.gd
       (BitVec.ofNat 64 (q.1 * 256 + scaledCode f)) 4)) ∧
   (∀ (s : State) (x : VdecArgs), LanesReady s [] x.vd x.mask → RegsFree s [x.ga] [] →
     let f := fltTy x.tb
     let n := 256 / f.width
     let a := (getG s s.cur x.ga).toNat
     ∀ ef : FFmt, fmtTy (fmtOf s (a / 64)) = .flt ef → isScaled (fmtOf s (a / 64)) = true → a + n * ef.width / 8 ≤ 0x20000 →
     a % 64 % (n * ef.width / 8) = 0 → checkOwn s [(a / 64 * 64, 64)] = .ok () → SeenAt s [(a / 64 * 64, 64)] →
     let raw (e : Nat) := bits (leNat (readBytes s (a / 64 * 64) 64)) (ef.width * ((a % 64) * 8 / ef.width + e)) ef.width
     let t := roundElems x.rnd (fun e => active s x.mask n e)
       (fun e r => fround f x.rnd r (scaled ef (scaleOf s (a / 64)) (raw e))) (List.range n) s
     LaneResult (exec (.vdeq x) s) s t.2 x.vd x.mask x.agn f.width n (fun e => t.1.getD e 0) 4) ∧
   ∀ (s : State) (x : VdecArgs), LanesReady s [] x.vd x.mask → RegsFree s [x.ga, pairReg x.ga] [] →
     let f := fltTy x.tb
     let n := 256 / f.width
     let a := (getG s s.cur x.ga).toNat
     let p := (getG s s.cur (pairReg x.ga)).toNat
     let index (i : Nat) := readLoc s (a + 2 * i) 2
     let word (i : Nat) := readLoc s (p + 4 * patternOf (index i)) 4
     a % 64 % (2 * (n / 8)) = 0 → p % 4 = 0 → a + 2 * (n / 8) ≤ 0x20000 → p + 512 ≤ 0x20000 →
     fmtOf s (a / 64) = 0x13 → checkOwn s [(a, 2 * (n / 8)), (p, 512)] = .ok () → (∀ i, i < n / 8 → word i < 2 ^ 24) →
     SeenAt s [(a, 2 * (n / 8)), (p, 512)] →
     let t := roundElems x.rnd (fun e => active s x.mask n e)
       (fun e r => fround f x.rnd r (scaledWeight (index (e / 8)) (word (e / 8)) (e % 8) (scaleOf s (a / 64)))) (List.range n) s
     LaneResult (exec (.vcbdec x) s) s t.2 x.vd x.mask x.agn f.width n (fun e => t.1.getD e 0) 4)

/-! ### Atomic and full/empty accesses (R180 to R187) -/

/-- R181: each read-modify-write reads the newest word, writes the value its row gives and returns the old one, sign-extended for
32 bits; outside the host window. Its acquire part comes with the read and its release part with the write (R208, R209; log 8), and a
release with writes still to be acknowledged waits (R212: `Acked`).
R181, R206, R211: CAS writes only where the newest word is the one expected; where it fails it is a read, and returns a value that is not
the one expected: the newest, or where its context has not seen a write what a load may return, as the model has it (log 8).
R181, R206, R208, R212: the ordered load and store, outside the host window. LDO completes with what a load may return (`MayLoad`);
STO stores at its order, and as a release that has to wait for acknowledgements stalls.
R206 to R214: what the order's operations do. A context that reads a location sees the newest write there, and as an acquire that reads
from a release whose scopes reach it (`headsAt`) every write in its storage scope that happens before that release (`carried`); at agent
scope ctx, or outside its storage scope, an access orders nothing else. What its context has seen in its storage scope, or what happens
before it (`behind`), happens before a release. A fence's acquire part does the same for the releases that earlier reads have met in its
scopes, its release part for what follows the fence; FENCE.sc leaves of what its context has seen nothing older in its storage scope. How
the model keeps the order, and which older values, is its own choice (log 8).
R183: only LDO, STO, SWAP, CAS and FADD reach the host window, and the other atomic accesses are ILLEGAL_OPERAND there; LDO, SWAP,
CAS and FADD wait there for their completion, and then perform. That a plain access or STO of the window completes at once is the
model's choice (log 45), and so is which older value a failing CAS or an LDO may return (log 8). -/
def Obligations.AtomicAccessResults : Prop :=
  (∀ (s : State) (x : AtArgs) (runs : List (Nat × Nat)) (b : Nat), RegsFree s [x.ga, x.gb] [x.gd] →
     let n := AtSize.bytes x.m.size
     let w := 8 * n
     let a := (getG s s.cur x.ga).toNat
     let loc := (runs.headD (0, 0)).1
     let old := leNat (readBytes s loc n)
     let g := (getG s s.cur x.gb).toNat % 2 ^ w
     let t (v : Nat) : Out :=
       .next (doneG (ctxStoreAs (readNewest s (.ctx s.cur) x.m loc n) x.m true [(loc, n)] (leBytes n v)) x.gd (signedWord n old) 4)
     let i (v : Nat) : Int := sInt w v
     AtomicReady s a n runs →
     (Acked s x.m loc → AtomicData s x.gb n b →
       exec (.swap x) s = t b ∧ exec (.fadd x) s = t ((old + b) % 2 ^ w) ∧ exec (.fand x) s = t (old &&& b) ∧
       exec (.atFor x) s = t (old ||| b) ∧ exec (.fxor x) s = t (old ^^^ b) ∧
       exec (.fmin x) s = t (if i b < i old then b else old) ∧ exec (.fmax x) s = t (if i old < i b then b else old) ∧
       exec (.fminn x) s = t (min old b) ∧ exec (.fmaxn x) s = t (max old b)) ∧
     (¬ Acked s x.m loc → AtomicData s x.gb n b → exec (.swap x) s = waitFor s .acks ∧ exec (.fadd x) s = waitFor s .acks) ∧
     (Acked s x.m loc → x.m.size = .w → exec (.faddf x) s = t (rne .f32 (fadd (fval .f32 old) (fval .f32 g)))) ∧
     (Acked s x.m loc → x.m.size = .x → exec (.faddf x) s = t (rne .f64 (fadd (fval .f64 old) (fval .f64 g)))) ∧
     (RegName.g x.gd ∉ (s.ctx s.cur).poisoned → Acked s x.m loc →
       let expected := (getG s s.cur x.gd).toNat % 2 ^ w
       let fails (v : Nat) : Prop := ∃ (u : Visibility) (k : Nat),
         exec (.cas x) s = .next (doneG { s with vis := u, choice := k } x.gd (signedWord n v) 4)
       ((old = expected ∧ exec (.cas x) s = t g) ∨ ∃ v, v ≠ expected ∧ fails v) ∧
       (LoadReady s a n n [(loc, n)] → (old = expected → exec (.cas x) s = t g) ∧ (old ≠ expected → fails old)))) ∧
  (∀ (s : State) (x : AtRdArgs) (y : AtWrArgs) (runs : List (Nat × Nat)) (b : Nat),
     let n := AtSize.bytes x.m.size
     let a := (getG s s.cur x.ga).toNat
     let k := AtSize.bytes y.m.size
     let c := (getG s s.cur y.ga).toNat
     (RegsFree s [x.ga] [x.gd] → regionOf a ≠ .host → ReadReady s a n n runs →
       (∃ (u : Visibility) (i : Nat) (v : List Byte), MayLoad s runs v ∧
         exec (.ldo x) s = .next (doneG { s with vis := u, choice := i } x.gd (signedWord n (leNat v)) 4)) ∧
       (Order.acquires x.m.order = false → SeenAt s runs →
         exec (.ldo x) s = .next (doneG s x.gd (signedWord n (leNat (runsBytes s runs))) 4))) ∧
     (RegsFree s [y.ga, y.gb] [] → StoreReady s c k k runs → AtomicData s y.gb k b →
       (Acked s y.m (runs.headD (0, 0)).1 → exec (.sto y) s = .next (retire (ctxStoreAs s y.m false runs (leBytes k b)) s.cur 4)) ∧
       (¬ Acked s y.m (runs.headD (0, 0)).1 → exec (.sto y) s = waitFor s .acks))) ∧
  (∀ (s : State) (m : AtMode) (loc n grain : Nat) (rmw : Bool) (z : Storage) (agent : AgentScope), 0 < n →
     let a := Agent.ctx s.cur
     let locs := (List.range n).map fun k => loc + k
     let t := readNewest s a m loc n
     let o := orderAt m loc
     let f (k : FenceKind) := fenced s k z agent
     let joined (h : Release) (y : Storage) (t : State) : Prop :=
       ∀ u ∈ s.vis.unseen, h.stamp ∈ u.carried → inStorage y u.loc = true →
         ∀ w ∈ t.vis.unseen, w.loc = u.loc → w.stamp ≤ u.stamp → w.knownTo a = true
     let heads (g : AgentScope) (h : Release) : Prop := ∃ k, k < n ∧ h ∈ s.vis.headsAt (loc + k) ∧ scopeRank h.reach ≤ scopeRank g
     MemoryKept s t ∧ (∀ c r, getG t c r = getG s c r) ∧
     (∀ k, k < n → oldFor t s.cur (loc + k) = none) ∧
     (∀ (c : Fin 8) (l : Nat), c ≠ s.cur → oldFor t c l = oldFor s c l) ∧
     (Order.acquires o = true → ∀ h, heads m.agent h → joined h m.storage t) ∧
     (Order.acquires o = true → (∀ k, k < n → oldFor s s.cur (loc + k) = none) →
       ∀ h, heads m.agent h → joined h m.storage (readAs s a m grain locs).2) ∧
     ((m.agent = .ctx ∨ inStorage m.storage loc = false) → ∀ l, l < loc ∨ loc + n ≤ l → oldFor t s.cur l = oldFor s s.cur l) ∧
     (Order.releases o = true → otherAgents s a ≠ [] →
       let q := noteStore s s.cur m rmw locs
       ∃ r : Release, r.owner = a ∧ r.storage = m.storage ∧ (∀ k, k < n → r ∈ q.vis.headsAt (loc + k)) ∧
         ∀ u ∈ q.vis.unseen, u.behind a m.storage = true → r.stamp ∈ u.carried) ∧
     (agent ≠ .ctx →
       (∀ k, k = .acq ∨ k = .ar → ∀ l h, (a, l, h) ∈ s.vis.met → inStorage z l = true → scopeRank h.reach ≤ scopeRank agent →
         joined h z (f k)) ∧
       (∀ k, k = .rel ∨ k = .ar → ∀ u ∈ (f k).vis.unseen, u.behind a z = true →
         ∃ r ∈ (f k).vis.fences, r.owner = a ∧ r.storage = z ∧ r.stamp ∈ u.carried) ∧
       (∀ u ∈ (f .sc).vis.unseen, u.knownTo a = true ∨ a ∈ u.firm → inStorage z u.loc = false) ∧
       (∀ k, k ≠ .sc → ∀ (c : Fin 8) (l : Nat), c ≠ s.cur → oldFor (f k) c l = oldFor s c l)) ∧
     (agent = .ctx → ∀ k, f k = s)) ∧
  (∀ (s : State) (x : AtArgs) (y : AtRdArgs) (runs : List (Nat × Nat)), RegsFree s [x.ga, x.gb] [x.gd] →
     widePayload s = none → y.m = x.m → y.ga = x.ga → y.gd = x.gd →
     let n := AtSize.bytes x.m.size
     let a := (getG s s.cur x.ga).toNat
     let mem := (runs.headD (0, 0)).1
     let old := leNat (readBytes s mem n)
     let g := (getG s s.cur x.gb).toNat % 2 ^ (8 * n)
     let s' := s.setCtx s.cur { s.ctx s.cur with expired := false }
     let put (v : Nat) : State := ctxStoreAs (readNewest s' (.ctx s.cur) x.m mem n) x.m true [(mem, n)] (leBytes n v)
     a % n = 0 → regionOf a = .host →
     let refused (i : Instr) : Prop := exec i s = .next (raise s s.cur { cls := .illegalOperand })
     (refused (.fand x) ∧ refused (.atFor x) ∧ refused (.fxor x) ∧ refused (.fmin x) ∧ refused (.fmax x) ∧ refused (.fminn x) ∧
       refused (.fmaxn x) ∧ refused (.faddf x)) ∧
     (checkAtomic s a n = .ok runs → s.core.twin = none → Acked s x.m mem → RegName.g x.gd ∉ (s.ctx s.cur).poisoned →
       let expected := (getG s s.cur x.gd).toNat % 2 ^ (8 * n)
       let fails (v : Nat) : Prop := ∃ (u : Visibility) (k : Nat),
         exec (.cas x) s = .next (doneG { s' with vis := u, choice := k } x.gd (signedWord n v) 4)
       let writes : Prop := exec (.cas x) s = .next (doneG (put g) x.gd (signedWord n old) 4)
       ((s.ctx s.cur).expired = false → exec (.cas x) s = waitFor s (.host (BitVec.ofNat 64 a))) ∧
       ((s.ctx s.cur).expired = true →
         ((old = expected ∧ writes) ∨ ∃ v, v ≠ expected ∧ fails v) ∧
         (LoadReady s a n n [(mem, n)] → (old = expected → writes) ∧ (old ≠ expected → fails old)))) ∧
     (checkAtomic s a n = .ok runs → s.core.twin = none → Acked s x.m mem →
       ((s.ctx s.cur).expired = false →
         exec (.swap x) s = waitFor s (.host (BitVec.ofNat 64 a)) ∧ exec (.fadd x) s = waitFor s (.host (BitVec.ofNat 64 a))) ∧
       ((s.ctx s.cur).expired = true →
         exec (.swap x) s = .next (doneG (put g) x.gd (signedWord n old) 4) ∧
         exec (.fadd x) s = .next (doneG (put ((old + g) % 2 ^ (8 * n))) x.gd (signedWord n old) 4))) ∧
     (ReadReady s a n n runs →
       ((s.ctx s.cur).expired = false → exec (.ldo y) s = waitFor s (.host (BitVec.ofNat 64 a))) ∧
       ((s.ctx s.cur).expired = true →
         (∃ (u : Visibility) (k : Nat) (v : List Byte), MayLoad s runs v ∧
           exec (.ldo y) s = .next (doneG { s' with vis := u, choice := k } y.gd (signedWord n (leNat v)) 4)) ∧
         (Order.acquires y.m.order = false → SeenAt s runs →
           exec (.ldo y) s = .next (doneG s' y.gd (signedWord n (leNat (runsBytes s runs))) 4)))))

/-- R185: on words whose condition holds, with no request queued on them, TAKE, PEEK, PUT, TRYTAKE, TRYPUT, FILL and DRAIN move the
value and the tag together and go on, and FESTAT reads the tags; a tag that is read must have good parity (R311; the state marks a bad
one among its poisoned granules from 0x10000 up). After WIDE the data of PUT, TRYPUT and FILL are its payload (R94).
R206, R212: one that writes and is a release with writes to be acknowledged waits; PEEK, FESTAT, and a TRYTAKE or TRYPUT that fails, only
read. -/
def Obligations.FullEmptyResults : Prop :=
  ∀ (s : State) (x : AtRdArgs) (y : AtWrArgs) (z : AtArgs) (u : AtAddrArgs) (loc b : Nat), MemoryInv s →
    y.m = x.m → z.m = x.m → u.m = x.m → y.ga = x.ga → z.ga = x.ga → u.ga = x.ga → z.gd = x.gd → z.gb = y.gb →
    RegsFree s [x.ga, y.gb] [x.gd] →
    let n := AtSize.bytes x.m.size
    let a := (getG s s.cur x.ga).toNat
    let words := if n = 4 then [loc / 4] else [loc / 4, loc / 4 + 1]
    let full (t : State) : Prop := ∀ w ∈ words, w ∈ t.tags
    let empty (t : State) : Prop := ∀ w ∈ words, w ∉ t.tags
    let old := leNat (readBytes s loc n)
    let value := signedWord n old
    let data := leBytes n b
    let on (o : Out) (q : State → Prop) : Prop := ∃ t, o = .next t ∧ q t ∧ (t.ctx s.cur).wait = none ∧
      (t.ctx s.cur).stopped = (s.ctx s.cur).stopped ∧ (t.ctx s.cur).pc = (s.ctx s.cur).pc + 4 ∧ t.feQueue = s.feQueue ∧
      ∀ w, w ∉ words → (w ∈ t.tags ↔ w ∈ s.tags)
    let same (t : State) : Prop := readBytes t loc n = readBytes s loc n
    let got (t : State) (r : GReg) (v : Word) : Prop := r ≠ 0 → getG t s.cur r = v
    AtomicReady s a n [(loc, n)] → loc + n ≤ 0x20000 → loc % n = 0 → (regionOf a = .spad ∨ regionOf a = .gwin) →
    checkRead s a n = .ok [(loc, n)] → (∀ w ∈ words, 0x10000 + w ∉ s.poison) →
    (∀ q ∈ s.feQueue, q.loc / 8 ≠ loc / 8) → (s.ctx s.cur).wait = none → AtomicData s y.gb n b →
    let stalls (i : Instr) : Prop := exec i s = waitFor s .acks
    (full s →
      (Acked s x.m loc → on (exec (.take x) s) (fun t => empty t ∧ same t ∧ got t x.gd value) ∧
        on (exec (.trytake z) s) (fun t => empty t ∧ same t ∧ got t z.gd 1 ∧ (z.gb ≠ z.gd → got t z.gb value))) ∧
      (¬ Acked s x.m loc → stalls (.take x) ∧ stalls (.trytake z)) ∧
      on (exec (.peek x) s) (fun t => full t ∧ same t ∧ got t x.gd value) ∧
      on (exec (.tryput z) s) (fun t => full t ∧ same t ∧ got t z.gd 0)) ∧
    (empty s →
      (Acked s x.m loc → on (exec (.put y) s) (fun t => full t ∧ readBytes t loc n = data) ∧
        on (exec (.tryput z) s) (fun t => full t ∧ readBytes t loc n = data ∧ got t z.gd 1)) ∧
      (¬ Acked s x.m loc → stalls (.put y) ∧ stalls (.tryput z)) ∧
      on (exec (.trytake z) s) (fun t => empty t ∧ same t ∧ got t z.gd 0)) ∧
    (Acked s x.m loc → on (exec (.fill y) s) (fun t => full t ∧ readBytes t loc n = data) ∧
      on (exec (.drain u) s) (fun t => empty t ∧ same t)) ∧
    (¬ Acked s x.m loc → stalls (.fill y) ∧ stalls (.drain u)) ∧
    on (exec (.festat x) s) (fun t => t.tags = s.tags ∧ same t ∧ ∀ k, k < words.length →
      (x.gd ≠ 0 → (getG t s.cur x.gd).getLsbD k = decide (words.getD k 0 ∈ s.tags)))

/-- R186, R187: a TAKE or PEEK of a word not all full, or a PUT of one not all empty, or one behind a queued request of its kind, joins
the queue of its home and its context sleeps at its unit; with 64 requests there it sleeps unqueued. A later FILL of the word lets a
waiting TAKE proceed with the value and leaves the word empty.
R185, R186, R212, R311, R322: another core's request at a word of this core acts as R185 says when it does not wait or its condition
holds, waits in the word's queue when it does not, and meets an error reply at a sealed or fenced core, as at a sealed peer's word; one
that would take a poisoned value is told so, a block whose descriptor it finds broken being poisoned (R60), and one of a retired job is
dropped. It comes once every write that happens before it has been applied; earlier the
event is not enabled (log 59), and what a clock counts is log 83. What the replies are noted as (2^64 for an error, 2^65 for a TRYTAKE or
TRYPUT that fails, 2^66 for poison) is log 49. All three are the model's choice. -/
def Obligations.FullEmptyRequestsWait : Prop :=
  ((∀ (s : State) (x : AtRdArgs) (y : AtWrArgs) (loc : Nat), Bare s → y.m = x.m → y.ga = x.ga →
     let n := AtSize.bytes x.m.size
     let a := (getG s s.cur x.ga).toNat
     let words := if n = 4 then [loc / 4] else [loc / 4, loc / 4 + 1]
     let behind (p : FeKind → Prop) : Prop := ∃ q ∈ s.feQueue, q.loc = loc ∧ p q.kind
     let waits (i : Instr) (k : FeKind) (v : Nat) (r : GReg) : Prop := ∃ t, exec i s = .next t ∧
       (t.ctx s.cur).wait = some .fullEmpty ∧ (t.ctx s.cur).pc = (s.ctx s.cur).pc ∧ t.tags = s.tags ∧ t.mem = s.mem ∧
       (∀ c, c ≠ s.cur → t.ctx c = s.ctx c) ∧ (∀ g, getG t s.cur g = getG s s.cur g) ∧
       t.feQueue = if queuedAtHome s loc < 64 then
           s.feQueue ++ [{ kind := k, loc := loc, size := x.m.size, value := BitVec.ofNat 64 v, origin := .own s.cur r 4,
                             mode := x.m, die := 0, clock := [], release := none }]
         else s.feQueue
     AtomicReady s a n [(loc, n)] → checkRead s a n = .ok [(loc, n)] → (regionOf a = .spad ∨ regionOf a = .gwin) →
     (∀ w ∈ words, 0x10000 + w ∉ s.poison) →
     (RegsFree s [x.ga] [x.gd] → (∃ w ∈ words, w ∉ s.tags) ∨ behind (fun k => k = .take ∨ k = .peek) →
       (Acked s x.m loc → waits (.take x) .take 0 x.gd) ∧ waits (.peek x) .peek 0 x.gd) ∧
     (RegsFree s [y.ga, y.gb] [] → Acked s x.m loc → (∃ w ∈ words, w ∈ s.tags) ∨ behind (fun k => k = .put) →
       waits (.put y) .put ((getG s s.cur y.gb).toNat % 2 ^ (8 * n)) 0)) ∧
   ∀ (s : State) (y : AtWrArgs) (loc : Nat) (d : Fin 8) (rd : GReg), Bare s → MemoryInv s → RegsFree s [y.ga, y.gb] [] →
     y.m.size = .w → d ≠ s.cur → s.core.frozen = false →
     AtomicReady s (getG s s.cur y.ga).toNat 4 [(loc, 4)] → loc + 4 ≤ 0x20000 → loc % 4 = 0 →
     (regionOf (getG s s.cur y.ga).toNat = .spad ∨ regionOf (getG s s.cur y.ga).toNat = .gwin) →
     checkRun s loc loc 4 = .ok () → Acked s y.m loc →
     ∀ q : FeReq, s.feQueue = [q] → q.kind = .take → q.loc = loc → q.size = .w → q.origin = .own d rd 4 → q.mode.size = .w →
     ∃ t, exec (.fill y) s = .next t ∧ loc / 4 ∉ t.tags ∧ t.feQueue = [] ∧ (t.ctx d).wait = none ∧
       (t.ctx d).pc = (s.ctx d).pc + 4 ∧
       (rd ≠ 0 → getG t d rd = signedWord 4 ((getG s s.cur y.gb).toNat % 2 ^ 32)) ∧
       (t.ctx s.cur).pc = (s.ctx s.cur).pc + 4) ∧
  (∀ (s : State) (r : RemoteFe), MemoryInv s →
     let n := AtSize.bytes r.size
     let i := Instr.feRequestArrival r
     let words := if n = 4 then [r.word / 4] else [r.word / 4, r.word / 4 + 1]
     let full (t : State) : Prop := ∀ w ∈ words, w ∈ t.tags
     let empty (t : State) : Prop := ∀ w ∈ words, w ∉ t.tags
     let old := leNat (readBytes s r.word n)
     let told (v : Nat) := s.mod.messages ++ [(r.origin, v)]
     let kept (t : State) : Prop := readBytes t r.word n = readBytes s r.word n
     let stored (t : State) : Prop := readBytes t r.word n = leBytes n (r.value.toNat % 2 ^ (8 * n))
     let does (q : State → Prop) : Prop := ∃ t, exec i s = .next t ∧ q t ∧ t.feQueue = s.feQueue ∧
       (∀ c g, getG t c g = getG s c g) ∧ ∀ w, w ∉ words → (w ∈ t.tags ↔ w ∈ s.tags)
     let s1 := if r.kind = .peek then s else countWrite s r.die
     let due := if r.kind = .peek then clockSeen s r.clock else clockMet s r.die r.clock
     let tells (v : Nat) : Prop := exec i s = .next { s1 with mod := { s1.mod with messages := told v } }
     let joins : Prop := exec i s = .next { s1 with feQueue := s.feQueue ++
       [{ kind := r.kind, loc := r.word, size := r.size, value := r.value, origin := .remote r.origin,
          mode := { plainMode with size := r.size }, die := r.die, clock := r.clock, release := r.release }] }
     let waits := r.kind = .take ∨ r.kind = .peek ∨ r.kind = .put
     (due = false → exec i s = .refused .eventNotEnabled) ∧
     (due = true → dropped s r.job = true → r.word < 0x20000 → exec i s = .next s1) ∧
     (due = true → dropped s r.job = false → gwinLoc ≤ r.word → r.word < gwinLoc + 2 ^ 20 * 0x20000 →
       (r.word - gwinLoc) / 0x20000 ∈ s.core.sealedPeers → tells (2 ^ 64)) ∧
     (due = true → dropped s r.job = false → r.word + n ≤ 0x20000 → (∀ p ∈ s.feQueue, p.loc / 8 ≠ r.word / 8) →
     (s.core.sealed = true ∨ s.core.fenced = true → tells (2 ^ 64)) ∧
     (s.core.sealed = false → s.core.fenced = false → (waits ∨ r.kind = .tryTake ∨ r.kind = .tryPut) →
       (∃ w ∈ words, 0x10000 + w ∈ s.poison) → tells (2 ^ 66)) ∧
     (s.core.sealed = false → s.core.fenced = false → (r.kind = .tryTake ∨ (r.kind = .take ∨ r.kind = .peek) ∧ full s) →
       ∀ f, feChecks s r.kind r.word r.size = .error f →
         (f.block = none → tells (2 ^ 66)) ∧
         (∀ b, f.block = some b → exec i s = .next (answer (blockFound s1 b) r.origin (2 ^ 66)))) ∧
     (s.core.sealed = false → s.core.fenced = false → (r.kind = .fill ∨ r.kind = .drain ∨ feChecks s r.kind r.word r.size = .ok ()) →
       (r.kind = .fill → does fun t => full t ∧ stored t) ∧ (r.kind = .drain → does fun t => empty t ∧ kept t) ∧
       (r.kind = .tryTake → (full s → does fun t => empty t ∧ kept t ∧ t.mod.messages = told old) ∧ (¬ full s → tells (2 ^ 65))) ∧
       (r.kind = .tryPut → (empty s → does fun t => full t ∧ stored t ∧ t.mod.messages = told 1) ∧ (¬ empty s → tells (2 ^ 65))) ∧
       (r.kind = .take → (full s → does fun t => empty t ∧ kept t ∧ t.mod.messages = told old) ∧
         (¬ full s → queuedAtHome s r.word < 64 → joins)) ∧
       (r.kind = .peek → (full s → does fun t => full t ∧ kept t ∧ t.mod.messages = told old) ∧
         (¬ full s → queuedAtHome s r.word < 64 → joins)) ∧
       (r.kind = .put → (empty s → does fun t => full t ∧ stored t ∧ ∃ v, t.mod.messages = told v) ∧
         (¬ empty s → queuedAtHome s r.word < 64 → joins)))))

/-! ### Time, control registers, watches (R108 to R110, R188 to R195) -/

/-- R189, R195, R208, R212, R214: FENCE goes on, and changes only what may still be read (`fenced`, of which the statement of acquires and
releases says what it does); it waits where a release of its scopes waits for acknowledgements, and where FENCE.sc at die or mod scope
does. That FENCE.acq waits for none at any scope is the model's choice (log 102), and so is which older writes are kept apart (log 8).
TICK reads the tick counter; WAITT returns it when it has reached the deadline and sleeps until then otherwise, and WAITT_DEADLINE ends
the sleep.
R204, R205, R212: PUBL of a registered valid buffer closes it, unless another waits before it, and its context sleeps behind those that came
before; the swap exchanges front and shadow, advances the generation, writes 1, wakes the first of them and opens the buffer. The
release of the generation waits at pod scope for acknowledgements, and is one more write to be acknowledged (R212, R214). A
tainted buffer is not swapped: its taint is cleared, its front stays, its shadow holds anything, and it is opened with 0. A PUBL that waited
behind another closes the buffer in its turn, once the commands that waited have started. The turns of several PUBLs of one buffer are
the model's choice (log 52), and so is that a swap whose time has not come is refused as a step (log 59). -/
def Obligations.TimeAndPublishedBufferResults : Prop :=
  (∀ (s : State) (k : FenceKind) (st : Storage) (ag : AgentScope) (ga gd : GReg) (c : Fin 8) (d : Word),
     let o := observeTick s
     let due := (getG s s.cur ga).toNat ≤ o.mod.tick.toNat
     (s.unacked = true → (k ≠ .acq ∧ waitsAcks st ag = true) ∨ (k = .sc ∧ (ag = .die ∨ ag = .mod)) →
       exec (.fence k st ag) s = waitFor s .acks) ∧
     (s.unacked = false ∨ ((k = .acq ∨ waitsAcks st ag = false) ∧ (k = .sc → ag ≠ .die ∧ ag ≠ .mod)) →
       exec (.fence k st ag) s = .next (retire (fenced s k st ag) s.cur 4) ∧ ∃ u : Visibility, fenced s k st ag = { s with vis := u }) ∧
     (RegsFree s [] [gd] → exec (.tick gd) s = .next (doneG o gd o.mod.tick 4)) ∧
     (RegsFree s [ga] [gd] →
       (due → exec (.waitt ga gd) s = .next (doneG o gd o.mod.tick 4)) ∧
       (¬ due → exec (.waitt ga gd) s = waitFor o (.tick (getG s s.cur ga)))) ∧
     ((s.ctx c).wait = some (.tick d) → s.core.frozen = false → ∃ t, exec (.waittDeadline c) s = .next t ∧ (t.ctx c).wait = none ∧
       (t.ctx c).pc = (s.ctx c).pc ∧ d.toNat ≤ t.mod.tick.toNat ∧ (∀ e, e ≠ c → t.ctx e = s.ctx e) ∧ t.mem = s.mem)) ∧
  ((∀ (s : State) (ag : AgentScope) (ga gd : GReg) (runs : List (Nat × Nat)) (p : PubBuf), RegsFree s [ga] [gd] →
     let a := (getG s s.cur ga).toNat
     let flags := leNat ((runsBytes s runs).drop 0x18)
     a % 64 = 0 → checkRead s a 64 = .ok runs → s.core.twin = none →
     (pubOf s a = some p → flags % 2 = 1 →
       ∃ t, exec (.publ ag ga gd) s = .next t ∧ (t.ctx s.cur).wait = some .publish ∧
         (t.ctx s.cur).pc = unitStart s s.cur ∧ t.mem = s.mem ∧
         t.mod.pubs = s.mod.pubs.map fun q =>
           if q.desc = p.desc ∧ q.job = p.job then
             { p with closed := p.closed || p.waiting.isEmpty, waiting := p.waiting ++ [(s.cur, gd, ag)] } else q) ∧
     (pubOf s a = some p → flags % 2 = 0 → exec (.publ ag ga gd) s = .next (raise s s.cur { cls := .illegalOperand }))) ∧
   ∀ (s : State) (c : Fin 8) (p : PubBuf) (gd : GReg) (ag : AgentScope) (rest : List (Fin 8 × GReg × AgentScope)) (gen loc : Nat),
     MemoryInv s → s.core.frozen = false → (s.ctx c).wait = some .publish → s.mod.pubs = [p] → p.waiting = (c, gd, ag) :: rest →
     pubLoc s p 0x18 = some (loc + 8) → pubLoc s p 0x10 = some loc → hbmLoc ≤ loc → readLoc s loc 8 = gen → gen + 1 < 2 ^ 64 →
     let opened (t : State) (v : Word) (swapped : Bool) : Prop := exec (.publSwap c) s = .next t ∧ (t.ctx c).wait = none ∧
       (t.ctx c).pc = (s.ctx c).pc + 4 ∧ (gd ≠ 0 → getG t c gd = v) ∧
       t.mod.pubs = [{ p with waiting := rest, closed := false, swapped := swapped }]
     let spoiled (a : Nat) : Prop := ∃ i l, i < p.len ∧ translation s (p.front + i) = some l ∧ shadowLoc s l (p.front + i) = a
     (p.closed = true → shadowBusy s p = false →
       (readLoc s (loc + 8) 8 = 1 →
         (waitsAcks .hbm ag = true → s.unacked = false → ∃ t, opened t 1 (!p.swapped) ∧ readLoc t loc 8 = gen + 1 ∧ t.unacked = true) ∧
         (waitsAcks .hbm ag = false → ∃ t, opened t 1 (!p.swapped) ∧ readLoc t loc 8 = gen + 1 ∧ t.unacked = true) ∧
         (waitsAcks .hbm ag = true → s.unacked = true → exec (.publSwap c) s = .refused .eventNotEnabled)) ∧
       (readLoc s (loc + 8) 8 = 3 → (tlbFind s p.desc).isSome = true → (∀ i, i < 16 → ¬ spoiled (loc + i)) →
         ∃ t, opened t 0 p.swapped ∧ readLoc t loc 8 = gen ∧ readLoc t (loc + 8) 8 = 1 ∧
           ∀ a, ¬ spoiled a → (a < loc + 8 ∨ loc + 16 ≤ a) → (a < boltLoc 0 ∨ boltLoc 64 ≤ a) →
             Memory.get t.mem a = Memory.get s.mem a)) ∧
     (p.closed = true → shadowBusy s p = true → exec (.publSwap c) s = .refused .eventNotEnabled) ∧
     (p.closed = false →
       exec (.publSwap c) s = if reopening s p then .refused .eventNotEnabled
         else .next { s with mod := { s.mod with pubs := [{ p with closed := true }] } }))

/-- R108, R109, R32, R343: what each register of the map reads as and takes; an address outside the map is ILLEGAL_OPERAND, a
write to a read-only register PROT_FAULT, a value past its limit ILLEGAL_OPERAND. Both copies of a paired launch read the primary's
place (R313). What MOD_ID and FEATACC hold is what the module's registers held when the core was launched (R109; log 80).
R32: a write to one of the four exchange ring registers is accepted only while both rings are empty and within the limits,
by CSRWR as by the event that performs it; then both rings are empty. -/
def Obligations.ControlRegisterResults : Prop :=
  (∀ (s : State) (ga gd : GReg), RegsFree s [ga] [gd] →
     let c := s.core
     let v := getG s s.cur ga
     let reads (a : BitVec 10) (w : Word) : Prop := exec (.csrrd a gd) s = .next (doneG s gd w 4)
     let n (x : Nat) : Word := BitVec.ofNat 64 x
     let places (pid : Nat) : Prop := reads 0x002 (n pid) ∧ reads 0x003 (n (pid / 2 ^ 15 % 2 ^ 13)) ∧ reads 0x004 (n (pid / 2 ^ 28)) ∧
       reads 0x009 (n (0xFF00000000 + 0x2000 * (pid / 2 ^ 28)))
     let takes (a : BitVec 10) (ok : Prop) (x : CoreRegs) : Prop :=
       (ok → exec (.csrwr a ga) s = .next (retire { s with core := x } s.cur 4)) ∧
       (¬ ok → exec (.csrwr a ga) s = .next (raise s s.cur { cls := .illegalOperand }))
     let fixed (a : BitVec 10) : Prop := exec (.csrwr a ga) s = .next (raise s s.cur { cls := .protFault })
     let readOnly : List (BitVec 10) := [0x000, 0x001, 0x002, 0x003, 0x004, 0x005, 0x006, 0x007, 0x008, 0x009, 0x010, 0x011,
       0x012, 0x013, 0x014, 0x020, 0x021, 0x052, 0x053, 0x060, 0x200, 0x201, 0x202, 0x203, 0x204, 0x205, 0x206, 0x207]
     let writable : List (BitVec 10) := [0x030, 0x040, 0x041, 0x042, 0x043, 0x050, 0x051, 0x054]
     reads 0x000 (n s.cur.val) ∧ reads 0x001 (n c.lid) ∧ reads 0x005 (n c.modId) ∧ reads 0x006 (n c.groupId) ∧
     reads 0x007 (n c.groupCnt) ∧ reads 0x008 c.launchArg ∧ reads 0x010 c.dom[0] ∧ reads 0x011 c.dom[1] ∧
     reads 0x012 c.dom[2] ∧ reads 0x013 c.dom[3] ∧ reads 0x014 c.dom[4] ∧ reads 0x030 c.liveBase ∧ reads 0x040 c.xringBase ∧
     reads 0x041 c.xringSize ∧ reads 0x042 c.xspillBase ∧ reads 0x043 c.xspillSize ∧ reads 0x050 c.tolWide ∧
     reads 0x051 c.tolNarrow ∧ reads 0x052 c.corrected ∧ reads 0x053 c.unverified ∧ reads 0x054 c.gamma ∧
     reads 0x060 (n s.clu.bank.late) ∧ reads 0x200 s.mod.feat0 ∧ reads 0x201 0 ∧ reads 0x202 0 ∧ reads 0x203 0 ∧
     reads 0x204 c.feat[0] ∧ reads 0x205 c.feat[1] ∧ reads 0x206 c.feat[2] ∧ reads 0x207 c.feat[3] ∧
     ((∀ l, curLaunch s = some l → l.paired = false) → c.die < 16 → c.row < 128 → c.col < 64 → c.cix < 8 →
       places (c.die * 2 ^ 28 + c.row * 2 ^ 21 + c.col * 2 ^ 15 + c.cix * 2 ^ 12)) ∧
     (∀ (l : Launch) (p : BitVec 32), curLaunch s = some l → l.paired = true → l.domain[c.lid]? = some p → places p.toNat) ∧
     (∃ t, exec (.csrrd 0x020 gd) s = .next t ∧ (t.ctx s.cur).pc = (s.ctx s.cur).pc + 4 ∧
       (gd ≠ 0 → getG t s.cur gd = t.core.cycles)) ∧
     (∃ t, exec (.csrrd 0x021 gd) s = .next t ∧ (t.ctx s.cur).pc = (s.ctx s.cur).pc + 4 ∧
       (gd ≠ 0 → getG t s.cur gd = t.mod.tick)) ∧
     takes 0x030 (v.toNat % 32 = 0) { c with liveBase := v } ∧ takes 0x050 (v.toNat < 32) { c with tolWide := v } ∧
     takes 0x051 (v.toNat < 32) { c with tolNarrow := v } ∧ takes 0x054 (v.toNat < 2 ^ 32) { c with gamma := v } ∧
     (∀ a ∈ readOnly, fixed a) ∧
     ∀ a, a ∉ readOnly → a ∉ writable → exec (.csrrd a gd) s = .next (raise s s.cur { cls := .illegalOperand }) ∧
       exec (.csrwr a ga) s = .next (raise s s.cur { cls := .illegalOperand })) ∧
  (∀ (s : State) (ga : GReg), RegsFree s [ga] [] →
     let c := s.core
     let v := getG s s.cur ga
     let idle := c.inCount = 0 ∧ c.ovCount = 0
     let emptied (x : CoreRegs) : CoreRegs := { x with inHead := 0, inCount := 0, ovHead := 0, ovCount := 0 }
     let takes (a : BitVec 10) (i : Fin 4) (ok : Prop) (x : CoreRegs) : Prop :=
       (ok → exec (.csrwr a ga) s = .next (retire { s with core := emptied x } s.cur 4) ∧
         (awake s s.cur = true → exec (.xringCsrWrite i v) s = .next { s with core := emptied x })) ∧
       (¬ ok → exec (.csrwr a ga) s = .next (raise s s.cur { cls := .illegalOperand }) ∧
         (awake s s.cur = true → exec (.xringCsrWrite i v) s = .next (raise s s.cur { cls := .illegalOperand })))
     takes 0x040 0 (idle ∧ v.toNat % 32 = 0 ∧ v.toNat + 32 * c.xringSize.toNat ≤ 0x20000) { c with xringBase := v } ∧
     takes 0x041 1 (idle ∧ v.toNat ≤ 4096 ∧ c.xringBase.toNat + 32 * v.toNat ≤ 0x20000) { c with xringSize := v } ∧
     takes 0x042 2 (idle ∧ v.toNat % 64 = 0) { c with xspillBase := v } ∧
     takes 0x043 3 (idle ∧ v.toNat < 2 ^ 32) { c with xspillSize := v })

/-- R190, R193: WATCH arms the entry that the context has for the word, or a free one, or, where all are armed and it owns
fewer than eight, the oldest of the others', whose owner gets a notice; with all eight its own it is ILLEGAL_OPERAND. UNWATCH
frees the entry for a word, or all that the context owns. The word may lie in scratchpad, the global window or device memory; of a
published buffer it is bound to the memory that is the front at the WATCH (log 90). Which free entry is taken is open (log 27).
R24, R191, R194: WAITW returns the lowest fired entry and clears its bit, else the notice, else that no entry is armed or
its time is up, and sleeps otherwise; a sleep ends when what it awaits has come, and by its own event. That a wake-up whose condition has
not come is refused as a step is the model's choice (log 59), as is what a fence or a release waits for (log 8), and that a frozen core's wake-ups wait its reading of R305 (log 65). -/
def Obligations.WatchesAndWaits : Prop :=
  (∀ (s : State) (ga gd : GReg) (loc : Nat), RegsFree s [ga] [gd] →
     let a := (getG s s.cur ga).toNat
     let w (t : State) (i : Fin 8) : Option WatchEntry := t.core.watch[i.val]
     let mine (i : Fin 8) : Prop := ∃ e, w s i = some e ∧ e.owner = s.cur ∧ e.loc = loc
     let others (i : Fin 8) (e : WatchEntry) : Prop := w s i = some e ∧ e.owner ≠ s.cur
     let armed (t : State) (i : Fin 8) : Prop :=
       (∃ e, w t i = some e ∧ e.owner = s.cur ∧ e.loc = loc ∧ e.addr = getG s s.cur ga ∧ e.fired = false ∧
         e.stamp = s.core.watchClock) ∧ (∀ j, j ≠ i → w t j = w s j) ∧ (t.ctx s.cur).pc = (s.ctx s.cur).pc + 4 ∧
         (gd ≠ 0 → getG t s.cur gd = BitVec.ofNat 64 i.val)
     let named : Prop := (a < 0x20000 ∧ loc = a) ∨ (regionOf a = .gwin ∧ checkRange s a 4 false = .ok .gwin ∧ loc = directLoc s .gwin a) ∨
       (regionOf a = .hbm ∧ translateCore s a false = .ok loc)
     a % 4 = 0 → named → s.core.twin = none ∨ leavesCore s a = false → sealedPeer s a = none →
     (∀ i, mine i → (∀ j, j < i → ¬ mine j) → ∃ t, exec (.watch ga gd) s = .next t ∧ armed t i) ∧
     ((∀ i, ¬ mine i) → (∃ i, w s i = none) → ∃ t i, exec (.watch ga gd) s = .next t ∧ w s i = none ∧ armed t i) ∧
     ((∀ i, ¬ mine i) → (∀ i, w s i ≠ none) → (∃ i e, others i e) →
       ∃ t i e, exec (.watch ga gd) s = .next t ∧ others i e ∧ (∀ j f, others j f → e.stamp ≤ f.stamp) ∧ armed t i ∧
         (t.ctx e.owner).notice = true) ∧
     ((∀ i, ¬ mine i) → (∀ i, ∃ e, w s i = some e ∧ e.owner = s.cur) →
       exec (.watch ga gd) s = .next (raise s s.cur { cls := .illegalOperand })) ∧
     (∃ t, exec (.unwatch false ga) s = .next t ∧ (t.ctx s.cur).pc = (s.ctx s.cur).pc + 4 ∧
       (∀ i, mine i → (∀ j, j < i → ¬ mine j) → w t i = none) ∧ ∀ i, ¬ mine i → w t i = w s i) ∧
     ∃ t, exec (.unwatch true 0) s = .next t ∧ (t.ctx s.cur).pc = (s.ctx s.cur).pc + 4 ∧
       ∀ i, (w s i = none → w t i = none) ∧ ∀ e, w s i = some e → w t i = if e.owner = s.cur then none else some e) ∧
  ((∀ (s : State) (gb gd : GReg), RegsFree s [gb] [gd] →
     let mine (i : Fin 8) (e : WatchEntry) : Prop := s.core.watch[i.val] = some e ∧ e.owner = s.cur
     let returns (t : State) (v : Nat) : Prop := exec (.waitw gb gd) s = .next t ∧ (t.ctx s.cur).pc = (s.ctx s.cur).pc + 4 ∧
       (t.ctx s.cur).wait = (s.ctx s.cur).wait ∧ (gd ≠ 0 → getG t s.cur gd = BitVec.ofNat 64 v)
     (∀ i e, mine i e → e.fired = true → (∀ j f, j < i → mine j f → f.fired = false) →
       ∃ t, returns t (1 + 256 * i.val) ∧ t.core.watch[i.val] = some { e with fired := false }) ∧
     ((∀ i e, mine i e → e.fired = false) →
       ((s.ctx s.cur).notice = true → ∃ t, returns t 3 ∧ (t.ctx s.cur).notice = false) ∧
       ((s.ctx s.cur).notice = false →
         ((∀ i e, ¬ mine i e) ∨ (s.ctx s.cur).expired = true → ∃ t, returns t 2) ∧
         ((∃ i e, mine i e) → (s.ctx s.cur).expired = false →
           exec (.waitw gb gd) s = waitFor s (.watched (decide (getG s s.cur gb ≠ 0))))))) ∧
   ∀ (s : State) (c d : Fin 8) (w : Wait) (r : GReg) (h : Fin 8) (n : Nat),
     let woken (t : State) (i : Instr) : Prop := exec i s = .next t ∧ (t.ctx c).wait = none ∧ (t.ctx c).pc = (s.ctx c).pc ∧
       (∀ e, e ≠ c → t.ctx e = s.ctx e) ∧ t.mem = s.mem ∧ t.core = s.core
     ((s.ctx c).wait = some w → waitOver s c w = true → s.core.frozen = false → ∃ t, woken t (.contextWake c)) ∧
     ((s.ctx c).wait = some w → s.core.frozen = true → exec (.contextWake c) s = .refused .eventNotEnabled) ∧
     ((s.ctx c).wait = some w → waitOver s c w = false → exec (.contextWake c) s = .refused .eventNotEnabled) ∧
     (waitOver s c (.join d) = true ↔ (s.ctx d).live = false) ∧
     (waitOver s c (.pending r) = true ↔ isPending s c r = false) ∧
     (waitOver s c .acks = true ↔ s.unacked = false) ∧
     (waitOver s c .queueFull = true ↔ s.clu.jobs.length < 32) ∧
     (∀ x, getHandle s c h = some x → (waitOver s c (.handle h true n) = true ↔ n ≤ x.count - x.fill) ∧
       (waitOver s c (.handle h false n) = true ↔ n ≤ x.fill)) ∧
     ((s.ctx c).wait = some (.watched true) → s.core.frozen = false → ∃ t, woken t (.waitwTimeout c) ∧ (t.ctx c).expired = true) ∧
     ((s.ctx c).wait = some .cycles → s.core.frozen = false → ∃ t, woken t (.yieldxExpiry c)) ∧
     ((s.ctx c).wait = some .cycles → s.core.frozen = true → exec (.yieldxExpiry c) s = .refused .eventNotEnabled))

/-! ### Handles and published buffers (R39, R202 to R205) -/

/-- R39, R202, R203: CBINIT configures or unconfigures a handle; CBADV and CBPUSH move its tail or head and its fill; CBWAIT
returns the fill or free count when there are enough, and sleeps when there are not. The clause of a CBINIT with gb = 0 says that it
unconfigures the handle whatever ga holds, a misaligned base too: that it looks at no base then is the model's choice (log 81). -/
def Obligations.HandleResults : Prop :=
  ∀ (s : State) (h : Fin 8) (gb ga gd : GReg), RegsFree s [gb, ga] [gd] →
    let v := (getG s s.cur gb).toNat
    let base := (getG s s.cur ga).toNat
    let size := v % 2 ^ 16
    let count := v / 2 ^ 16 % 2 ^ 9
    let becomes (i : Instr) (x : Option Handle) : Prop := exec i s = .next (retire (setHandle s s.cur h x) s.cur 4)
    let wrong (i : Instr) : Prop := exec i s = .next (raise s s.cur { cls := .illegalOperand })
    let shapeOk := base % 32 = 0 ∧ size % 32 = 0 ∧ 32 ≤ size ∧ size ≤ 8192 ∧ 1 ≤ count ∧ count ≤ 256 ∧
      base + size * count ≤ 0x20000
    (handleBusy s s.cur h = true → wrong (.cbinit h gb ga)) ∧
    (handleBusy s s.cur h = false →
      (v = 0 → becomes (.cbinit h gb ga) none) ∧
      (v ≠ 0 → v < 2 ^ 25 → shapeOk → becomes (.cbinit h gb ga)
        (some { base := base, size := size, count := count, head := 0, tail := 0, fill := 0 })) ∧
      (v ≠ 0 → 2 ^ 25 ≤ v ∨ ¬ shapeOk → wrong (.cbinit h gb ga))) ∧
    (getHandle s s.cur h = none →
      wrong (.cbadv h gb) ∧ wrong (.cbpush h gb) ∧ wrong (.cbwait true h gb gd) ∧ wrong (.cbwait false h gb gd)) ∧
    ∀ x, getHandle s s.cur h = some x →
      let have_ (free : Bool) := if free then x.count - x.fill else x.fill
      (v ≤ x.fill → becomes (.cbadv h gb) (some { x with tail := (x.tail + v) % x.count, fill := x.fill - v })) ∧
      (x.fill < v → wrong (.cbadv h gb)) ∧
      (v ≤ x.count - x.fill → becomes (.cbpush h gb) (some { x with head := (x.head + v) % x.count, fill := x.fill + v })) ∧
      (x.count - x.fill < v → wrong (.cbpush h gb)) ∧
      ∀ free, (1 ≤ v → v ≤ x.count → v ≤ have_ free →
          exec (.cbwait free h gb gd) s = .next (doneG s gd (BitVec.ofNat 64 (have_ free)) 4)) ∧
        (1 ≤ v → v ≤ x.count → have_ free < v → exec (.cbwait free h gb gd) s = waitFor s (.handle h free v)) ∧
        (v = 0 ∨ x.count < v → wrong (.cbwait free h gb gd))

/-! ### Barriers and exchange (R29 to R34, R196 to R200) -/

/-- R21, R29, R30, R34, R196, R199, R200: BSYNC, XEND and DSPLIT of the control context contribute, sleep, and complete into and out of
the exchange phase; from a helper, at a level the launch cannot synchronise, or in the wrong phase they raise ILLEGAL_SYNC, and an
XEND of an aborted phase WATCHDOG. A block barrier puts pending splits into force: the members of one colour, by key and then by old
rank, are the new block, whose index is 2^31 plus its lowest core; a class above 4,096 members is ILLEGAL_SYNC. A completion waits for what
happens before it, and at level 4 for this core's acknowledgements; that it is refused as a step until then is the model's choice (logs
59, 8).
R22, R31 to R34, R197, R198: XSEND to a member of the domain hands its 32 bytes to the router, which counts it; to a core without a
group or one that has withdrawn it is ILLEGAL_OPERAND, and in an aborted phase WATCHDOG, which stands between items 3 and 4 of R197: the
model's choice (log 103). XRECV takes the oldest packet of the inbound ring
and, when that is empty, of the overflow ring. What a load of the packet may read besides is log 8.
R31, R33, R34, R311: a packet that arrives goes to the inbound ring while that has room and no packet overflows, then to the
overflow ring, and else waits at its sender; a page of the overflow ring that may not be written is reported to the masthead and the
packet waits; a sealed core accepts none. This core's own packet leaves its router when it is delivered. An abort discards the packet
that such a page holds back, and the fault; a member in XEND stops with WATCHDOG. What the router's own packet to the masthead names is
the model's choice (log 56), and so is that a delivery whose room or packet is missing is refused as a step (log 59). A packet of a retired
job is dropped (R322), and one of a launch that this core does not run now, as while it is saved, or before what happens before it has
been applied, stays with its sender (R34, R212). -/
def Obligations.BarrierAndExchangeResults : Prop :=
  (∀ (s : State) (level : Fin 5) (st : Storage) (gb ga : GReg) (others : List SplitMember) (clock : List Nat),
     let wrong (i : Instr) (f : FaultClass) : Prop := exec i s = .next (raise s s.cur { cls := f })
     let contributed := s.setCtx s.cur { s.ctx s.cur with contributed := true }
     let colour := getG s s.cur ga
     let key := getG s s.cur gb
     let left (t : State) : Prop := (t.ctx 0).pc = (s.ctx 0).pc + 4 ∧ (t.ctx 0).wait = none ∧ (t.ctx 0).contributed = false ∧
       (∀ c, c ≠ 0 → t.ctx c = s.ctx c) ∧ MemoryKept s t
     let seen (l : Option (Fin 5)) : Prop := clockSeen s clock = true ∧ (l = some 4 → s.unacked = false)
     let waiting (l : Fin 5) : Prop := (s.ctx 0).wait = some (.barrier l st) ∧ (s.ctx 0).contributed = true ∧ s.core.frozen = false ∧
       seen (some l)
     let me := s.core.split.getD (0xFFFFFFFF, 0)
     let rank := (s.core.dom[1]).toNat / 2 ^ 32 % 2 ^ 16
     let mine := others.filter fun m => decide (m.colour = me.1)
     let members (c : BitVec 32) := (me.1 :: others.map fun m => m.colour).count c
     let before (m : SplitMember) : Bool := decide (m.key.toNat < me.2.toNat ∨ (m.key = me.2 ∧ m.rank < rank))
     let low := mine.foldl (fun a m => min a m.lid) s.core.lid
     (syncRefused s level = true → wrong (.bsync level st) .illegalSync) ∧
     (s.core.phase.isSome = true → wrong (.bsync level st) .illegalSync) ∧
     (s.cur = 0 → (level = 0 ∨ notCoResident s = false) → s.core.phase = none → s.core.twin = none →
       exec (.bsync level st) s = waitFor contributed (.barrier level st)) ∧
     (waiting level → (level ≠ 1 ∨ s.core.split = none ∧ others = []) →
       ∃ t, exec (.bsyncComplete others clock) s = .next t ∧ left t ∧ t.core.phase = some level ∧ t.core.sent = 0 ∧
         t.core.dom = s.core.dom) ∧
     (waiting 1 → (s.core.split ≠ none ∨ others ≠ []) → s.core.lid < 2 ^ 20 → (∀ m ∈ others, m.lid < 2 ^ 20 ∧ m.lid ≠ s.core.lid) →
       ((∀ c, members c ≤ 4096) → ∃ t, exec (.bsyncComplete others clock) s = .next t ∧ left t ∧ t.core.phase = some 1 ∧
         t.core.split = none ∧ (t.core.dom[1]).toNat / 2 ^ 48 = mine.length + 1 ∧
         (t.core.dom[1]).toNat / 2 ^ 32 % 2 ^ 16 = mine.countP before ∧ (t.core.dom[1]).toNat % 2 ^ 32 = 2 ^ 31 + low ∧
         ∀ i : Fin 5, i ≠ 1 → t.core.dom[i.val] = s.core.dom[i.val]) ∧
       ((∃ c, 4096 < members c) → exec (.bsyncComplete others clock) s =
         .next (raise (s.setCtx 0 { s.ctx 0 with contributed := false }) 0 { cls := .illegalSync }))) ∧
     (s.cur ≠ 0 ∨ s.core.phase = none → wrong (.xend st) .illegalSync) ∧
     (s.cur = 0 → s.core.phase.isSome = true → s.core.aborted = false → s.core.twin = none →
       exec (.xend st) s = waitFor contributed (.exchange st)) ∧
     (s.cur = 0 → s.core.phase.isSome = true → s.core.aborted = true →
       exec (.xend st) s = .next (raise s 0 { cls := .watchdog, info := 1 })) ∧
     ((s.ctx 0).wait = some (.exchange st) → (s.ctx 0).contributed = true → s.core.frozen = false → s.core.outgoing = none →
       s.core.arriving = [] → seen s.core.phase → ∃ t, exec (.xendComplete clock) s = .next t ∧ left t ∧ t.core.phase = none) ∧
     (RegsFree s [gb, ga] [] →
       (2 ^ 32 ≤ colour.toNat ∨ 2 ^ 32 ≤ key.toNat → wrong (.dsplit gb ga) .illegalOperand) ∧
       (colour.toNat < 2 ^ 32 → key.toNat < 2 ^ 32 → s.cur ≠ 0 ∨ notCoResident s = true →
         wrong (.dsplit gb ga) .illegalSync) ∧
       (colour.toNat < 2 ^ 32 → key.toNat < 2 ^ 32 → s.cur = 0 → notCoResident s = false →
         ∃ t, exec (.dsplit gb ga) s = .next t ∧ t.core.split = some (colour.truncate 32, key.truncate 32) ∧
           (t.ctx 0).pc = (s.ctx 0).pc + 4 ∧ MemoryKept s t))) ∧
  (∀ (s : State) (gb ga gd : GReg) (level : Fin 5) (l : Launch) (runs : List (Nat × Nat)), MemoryInv s → RegsFree s [gb, ga] [gd] →
     let a := (getG s s.cur ga).toNat
     let b := (getG s s.cur gb).toNat
     let c := s.core
     let slot := c.xringBase.toNat + 32 * c.inHead
     let spill := (c.xspillBase + BitVec.ofNat 64 (32 * c.ovHead)).toNat
     let module := if level.val = 4 then b / 2 ^ 32 else s.mod.modnum
     let packet : Packet := { module := module, lid := b % 2 ^ 32, payload := BitVec.ofNat 256 (leNat (readBytes s a 32)) }
     let taken (t : State) (bs : List Byte) : Prop := exec (.xrecv ga gd) s = .next t ∧ readBytes t a 32 = bs ∧
       (gd ≠ 0 → getG t s.cur gd = 1) ∧ (t.ctx s.cur).pc = (s.ctx s.cur).pc + 4
     (a % 32 = 0 → b < 2 ^ 48 → c.phase = none → exec (.xsend gb ga) s = .next (raise s s.cur { cls := .illegalSync })) ∧
     (a % 32 = 0 → b < 2 ^ 48 → c.phase = some level →
       (c.aborted = true → exec (.xsend gb ga) s = .next (raise s s.cur { cls := .watchdog, info := 1 })) ∧
       (c.aborted = false →
         (destOk s level b = false → exec (.xsend gb ga) s = .next (raise s s.cur { cls := .illegalOperand })) ∧
         (level.val ≤ 3 → curLaunch s = some l → 2 ^ 32 ≤ b ∨ min l.n l.groups ≤ b % 2 ^ 32 ∨ b % 2 ^ 32 ∈ c.withdrawn →
           exec (.xsend gb ga) s = .next (raise s s.cur { cls := .illegalOperand })) ∧
         (a + 32 ≤ 0x20000 → destOk s level b = true → checkRead s a 32 = .ok [(a, 32)] → c.twin = none →
           (c.outgoing ≠ none → exec (.xsend gb ga) s = waitFor s .held) ∧
           (c.outgoing = none → loadSettled s plainMode [(a, 32)] = true → ∃ t, exec (.xsend gb ga) s = .next t ∧ t.core.sent = c.sent + 1 ∧
             (t.ctx s.cur).pc = (s.ctx s.cur).pc + 4 ∧ MemoryKept s t ∧ t.core.outgoing = some packet)))) ∧
     (a % 32 = 0 → a + 32 ≤ 0x20000 →
       (c.inCount = 0 → c.ovCount = 0 → exec (.xrecv ga gd) s = .next (doneG s gd 0 4)) ∧
       (0 < c.inCount → checkRun s slot slot 32 = .ok () → ∃ t, taken t (readBytes s slot 32) ∧
         t.core.inCount = c.inCount - 1 ∧ t.core.inHead = (c.inHead + 1) % c.xringSize.toNat ∧ t.core.ovCount = c.ovCount) ∧
       (c.inCount = 0 → 0 < c.ovCount → checkRead s spill 32 = .ok runs → c.twin = none → (runsBytes s runs).length = 32 →
         ∃ t, taken t (runsBytes s runs) ∧ t.core.ovCount = c.ovCount - 1 ∧
           t.core.ovHead = (c.ovHead + 1) % c.xspillSize.toNat ∧ t.core.inCount = 0))) ∧
  (∀ (s : State) (x : Arrival) (loc : Nat) (f : Flt) (p : Packet), MemoryInv s →
     let v := x.payload
     let c := s.core
     let slot := c.xringBase.toNat + 32 * ((c.inHead + c.inCount) % c.xringSize.toNat)
     let spill := (c.xspillBase + BitVec.ofNat 64 (32 * ((c.ovHead + c.ovCount) % c.xspillSize.toNat))).toNat
     let roomIn := c.ovCount = 0 ∧ c.inCount < c.xringSize.toNat
     let roomOut := c.ovCount < c.xspillSize.toNat
     let arrives (q : State → Prop) : Prop := ∃ t, exec (.exchangeDelivery (some x)) s = .next t ∧ q t
     let waits (t : State) : Prop := t.core.arriving = c.arriving ++ [v] ∧ t.mem = s.mem
     let kept (q : FaultPacket) : Bool := !(decide (q.source = .router) && decide (q.launch = c.launch))
     let here := dropped s (some x.job) = false ∧ curJobId s = x.job ∧ c.launch = some x.launch ∧ clockSeen s x.clock = true
     (dropped s (some x.job) = true → exec (.exchangeDelivery (some x)) s = .next s) ∧
     (dropped s (some x.job) = false → ¬ here → exec (.exchangeDelivery (some x)) s = .refused .eventNotEnabled) ∧
     (here → c.sealed = true → arrives waits) ∧
     (here → c.sealed = false → c.arriving = [] →
       (roomIn → c.xringBase.toNat + 32 * c.xringSize.toNat ≤ 0x20000 → arrives fun t => readBytes t slot 32 = leBytes 32 v.toNat ∧
         t.core.inCount = c.inCount + 1 ∧ t.core.ovCount = 0 ∧ t.core.arriving = [] ∧ ∀ e, (t.ctx e).pc = (s.ctx e).pc) ∧
       (¬ roomIn → ¬ roomOut → arrives waits) ∧
       (¬ roomIn → roomOut → regionOf spill = .hbm →
         (translateCore s spill true = .ok loc → hbmLoc ≤ loc → arrives fun t => readBytes t loc 32 = leBytes 32 v.toNat ∧
           t.core.ovCount = c.ovCount + 1 ∧ t.core.inCount = c.inCount ∧ t.core.arriving = []) ∧
         (translateCore s spill true = .error f → routerStuck s = false → arrives fun t => waits t ∧ t.ctxs = s.ctxs ∧
           ∃ q, t.mod.inbox = s.mod.inbox ++ [q] ∧ q.cls = f.cls ∧ q.addr = f.addr ∧ q.source = .router))) ∧
     (c.arriving = [] → c.outgoing = some p →
       (p.module ≠ s.mod.modnum ∨ p.lid ≠ c.lid →
         exec (.exchangeDelivery none) s = .next { s with core := { c with outgoing := none } }) ∧
       (p.module = s.mod.modnum → p.lid = c.lid → c.sealed = false → roomIn →
         c.xringBase.toNat + 32 * c.xringSize.toNat ≤ 0x20000 → ∃ t, exec (.exchangeDelivery none) s = .next t ∧
           readBytes t slot 32 = leBytes 32 p.payload.toNat ∧ t.core.inCount = c.inCount + 1 ∧ t.core.outgoing = none) ∧
       (p.module = s.mod.modnum → p.lid = c.lid → c.sealed = true ∨ (¬ roomIn ∧ ¬ roomOut) →
         exec (.exchangeDelivery none) s = .refused .eventNotEnabled)) ∧
     (c.outgoing = some p → p.module ≠ s.mod.modnum ∨ p.lid ≠ c.lid → ∃ t, exec (.exchangeDelivery none) s = .next t ∧
       t.core.outgoing = none) ∧
     (c.phase.isSome = true →
       ((∀ z, (s.ctx 0).wait ≠ some (.exchange z)) → ∃ t, exec .exchangeAbort s = .next t ∧ t.core.aborted = true ∧ t.ctxs = s.ctxs ∧
         t.mem = s.mem ∧ t.mod.inbox = s.mod.inbox.filter kept ∧
         t.core.arriving = (if routerStuck s then c.arriving.drop 1 else c.arriving)) ∧
       (∀ z, (s.ctx 0).wait = some (.exchange z) → ∃ t q, exec .exchangeAbort s = .next t ∧ (t.ctx 0).packet = some q ∧
         q.cls = .watchdog ∧ q.info = 1 ∧ t.core.aborted = true)))

/-! ### Engine commands (R35, R230 to R244, R255, R271 to R273) -/

/-- R14, R35, R38, R105, R230, R231, R256, R273: an engine command with a misaligned operand raises MISALIGNED, one that breaks any other limit, or names g0 for its status register, ILLEGAL_OPERAND, and nothing is enqueued; within the
limits it enters the job queue with its operands and the recorded predecessors, its status register is pending from then on, and
its context goes on; it sleeps while that register is pending or the queue holds 32 jobs, those of the cluster's other cores among them,
whose number is the model's free value (log 99). The model's choices besides: that a MISALIGNED operand stands in ADDR (log 42), and that
the ring clause of a TST of a slot takes the slot's format as it is configured at issue (log 51). -/
def Obligations.EngineCommandsEnter : Prop :=
  ∀ s : State,
    let A (r : GReg) := (getG s s.cur r).toNat
    let raised (i : Instr) (f : Flt) : Prop := exec i s = .next (raise s s.cur f) ∧ (raise s s.cur f).clu = s.clu
    let enters (i : Instr) (gs : GReg) (cmd : Cmd) (ga gb : GReg) : Prop :=
      (isPending s s.cur gs = false → s.clu.jobs.length + s.clu.others < 32 → ∃ t j, exec i s = .next t ∧
        t.clu.jobs = s.clu.jobs ++ [j] ∧ j.cmd = cmd ∧ j.ctx = s.cur ∧ j.sreg = gs ∧ j.a = getG s s.cur ga ∧
        j.b = getG s s.cur gb ∧ j.preds = (s.ctx s.cur).deps ∧ j.started = false ∧ j.remote = none ∧
        (j.status = none ↔ ∀ p ∈ j.preds, p.outcome ≠ some true) ∧ isPending t s.cur gs = true ∧
        (t.ctx s.cur).pend[gs.val] = some j.id ∧ (t.ctx s.cur).deps = [] ∧ (t.ctx s.cur).pc = (s.ctx s.cur).pc + 4 ∧
        (∀ r, getG t s.cur r = getG s s.cur r) ∧ (∀ c, c ≠ s.cur → t.ctx c = s.ctx c) ∧ MemoryKept s t) ∧
      (isPending s s.cur gs = true → exec i s = waitFor s (.pending gs)) ∧
      (isPending s s.cur gs = false → 32 ≤ s.clu.jobs.length + s.clu.others → exec i s = waitFor s .queueFull)
    let rules (i : Instr) (gs : GReg) (cmd : Cmd) (ga gb : GReg) (aligned : List (GReg × Nat)) (limits : Prop) : Prop :=
      RegsFree s [0, ga, gb] [] →
        match aligned.find? fun p => decide (A p.1 % p.2 ≠ 0) with
        | some p => raised i { cls := .misaligned, addr := getG s s.cur p.1 }
        | none => (gs = 0 ∨ ¬ limits → raised i { cls := .illegalOperand }) ∧ (gs ≠ 0 → limits → enters i gs cmd ga gb)
    let spad (r : GReg) := A r < 0x20000
    let stride (r : GReg) := A r % 2 ^ 16
    let tile (ga gb : GReg) : List (GReg × Nat) := [(ga, if stride gb = 0 then 64 else 8)]
    let range (r : GReg) := A r < 2 ^ 25 ∧ 1 ≤ A r / 2 ^ 12 ∧ A r % 2 ^ 12 + A r / 2 ^ 12 ≤ 4096
    let code (r : GReg) := A r / 2 ^ 24 % 256
    let ring (x : TstArgs) : Prop := A x.ga < 8 ∧ stride x.gb = 0 ∧
      ∃ h, getHandle s s.cur (Fin.ofNat 8 (A x.ga)) = some h ∧
        ∀ n, (if x.s then (tilePlace s (A x.gb / 2 ^ 16 % 64)).map fun p => tileBytes p.2
          else some (tileBytes (if code x.gb = 0 then 9 else code x.gb))) = some n → n + (if x.bolt then 256 else 0) ≤ h.size
    (∀ x : TldArgs, rules (.tld x) x.gs (.tld x) x.ga x.gb (tile x.ga x.gb)
      (stride x.gb % 8 = 0 ∧ (x.bolt = true → stride x.gb = 0) ∧ A x.gb < (if x.s then 2 ^ 22 else 2 ^ 16))) ∧
    (∀ x : TstArgs, rules (.tst x) x.gs (.tst x) x.ga x.gb (if A x.gb / 2 ^ 32 % 2 = 1 then [] else tile x.ga x.gb)
      (A x.gb < 2 ^ 33 ∧ stride x.gb % 8 = 0 ∧ (x.bolt = true → stride x.gb = 0) ∧ A x.gb / 2 ^ 22 % 4 = 0 ∧
        (if x.s then code x.gb = 0 else A x.gb / 2 ^ 16 % 64 = 0 ∧ code x.gb ∈ [0x00, 0x09, 0x0A, 0x0B, 0x0C, 0x0D]) ∧
        (A x.gb / 2 ^ 32 % 2 = 1 → ring x))) ∧
    (∀ x : TmmaArgs, rules (.tmma x) x.gs (.tmma x) x.ga x.gb [] (A x.ga < (if x.h then 8 else 64) ∧ A x.gb < 1024)) ∧
    (∀ x : TwldArgs, rules (.twld x) x.gs (.twld x) x.ga x.gb [(x.ga, 64)]
      (A x.gb < 2 ^ 27 ∧ A x.gb / 2 ^ 10 % 64 = 0 ∧ 1 ≤ A x.gb / 2 ^ 16 ∧ A x.gb % 2 ^ 10 + A x.gb / 2 ^ 16 ≤ 1024)) ∧
    (∀ x : TileArgs,
      rules (.tzero x) x.gs (.tzero x) 0 x.gb [] (A x.gb < (if x.s then 64 else 1)) ∧
      rules (.tvfy x) x.gs (.tvfy x) 0 x.gb [] (A x.gb < (if x.s then 64 else 1))) ∧
    (∀ x : TscaleArgs, rules (.tscale x) x.gs (.tscale x) x.ga x.gb [] (A x.ga < 2 ^ 32 ∧ A x.gb < (if x.s then 64 else 1))) ∧
    (∀ x : Eng2Args,
      rules (.trem x) x.gs .trem x.ga x.gb [(x.gb, 32)] (spad x.gb) ∧
      rules (.tcap x) x.gs .tcap x.ga x.gb [(x.ga, 8)]
        (A x.gb < 2 ^ 31 ∧ A x.gb % 16 ≠ 0 ∧ A x.gb / 16 % 2 ^ 12 = 0 ∧ 1 ≤ A x.gb / 2 ^ 16) ∧
      rules (.tcfg x) x.gs .tcfg x.ga x.gb [(x.ga, 8)] (A x.gb ≤ 64) ∧
      rules (.cqput x) x.gs .cqput x.ga x.gb [(x.ga, 64), (x.gb, 64)] (spad x.gb) ∧
      rules (.nbpost x) x.gs .nbpost x.ga x.gb [(x.ga, 8)] (spad x.ga ∧ 1 ≤ A x.gb ∧ A x.gb ≤ 4096) ∧
      rules (.nbspk x) x.gs .nbspk x.ga x.gb [(x.ga, 8)] (spad x.ga ∧ 1 ≤ A x.gb ∧ A x.gb ≤ 4096) ∧
      rules (.nbrd x) x.gs .nbrd x.ga x.gb [(x.ga, 16)] (spad x.ga ∧ range x.gb) ∧
      rules (.nbwr x) x.gs .nbwr x.ga x.gb [(x.ga, 16)] (spad x.ga ∧ range x.gb)) ∧
    (∀ x : Eng1Args,
      rules (.tcbt x) x.gs .tcbt x.ga 0 [(x.ga, 64)] True ∧ rules (.nbcfg x) x.gs .nbcfg x.ga 0 [(x.ga, 64)] True ∧
      rules (.cgather x) x.gs .cgather x.ga 0 [(x.ga, 32)] (spad x.ga) ∧
      rules (.cscatter x) x.gs .cscatter x.ga 0 [(x.ga, 32)] (spad x.ga) ∧
      rules (.nbadv x) x.gs .nbadv x.ga 0 [] (A x.ga < 2 ^ 32)) ∧
    (∀ x : CpyArgs, rules (.cpy x) x.gs (.cpy x) x.ga 0 [(x.ga, 32)] (spad x.ga)) ∧
    (∀ x : CredArgs, RegsFree s [0, x.ga] [] →
      let refused := s.cur ≠ 0 ∨ (x.level ≠ 0 ∧ notCoResident s = true) ∨ s.core.phase.isSome = true
      (A x.ga % 32 ≠ 0 → raised (.cred x) { cls := .misaligned, addr := getG s s.cur x.ga }) ∧
      (A x.ga % 32 = 0 →
        (x.gs = 0 ∨ ¬ spad x.ga → raised (.cred x) { cls := .illegalOperand }) ∧
        (x.gs ≠ 0 → spad x.ga → (refused → raised (.cred x) { cls := .illegalSync }) ∧
          (¬ refused → enters (.cred x) x.gs (.cred x.level) x.ga 0)))) ∧
    (∀ x : GbindArgs, rules (.gbind x) x.gs (.gbind x) x.ga 0 [(x.ga, 64)] True) ∧
    (∀ x : GrArgs,
      rules (.geval x) x.gs (.geval x.y) x.ga x.gb [] (A x.ga < 2 ^ 31 ∧ A x.gb < 2 ^ 32) ∧
      rules (.glen x) x.gs (.glen x.y) x.ga x.gb [] (A x.ga < 2 ^ 31 ∧ A x.gb < 2 ^ 32) ∧
      rules (.glook x) x.gs (.glook x.y) x.ga x.gb [(x.gb, 4)] (A x.ga < 2 ^ 31)) ∧
    (∀ x : GrFlagArgs,
      rules (.gspine x) x.gs (.gspine x.flag x.y) x.ga x.gb [(x.ga, 32)] (spad x.ga) ∧
      rules (.gunf x) x.gs (.gunf x.flag x.y) x.ga x.gb [(x.ga, 32)] (spad x.ga) ∧
      rules (.gocc x) x.gs (.gocc x.flag x.y) x.ga x.gb [(x.ga, 32)] (spad x.ga ∧ (x.flag = true → A x.gb = 0))) ∧
    (∀ x : GlocArgs, rules (.gloc x) x.gs (.gloc x.y) x.ga 0 [(x.ga, 32)] (spad x.ga)) ∧
    (∀ x : GrelArgs, rules (.grelease x) x.gs (.grelease x.y) 0 0 [] True) ∧
    (∀ x : RfArgs,
      rules (.rfmatch x) x.gs (.rfmatch x.q) x.ga 0 [(x.ga, 32)] (spad x.ga) ∧
      rules (.rfmerge x) x.gs (.rfmerge x.q) x.ga 0 [(x.ga, 32)] (spad x.ga) ∧
      rules (.rfshake x) x.gs (.rfshake x.q) x.ga 0 [(x.ga, 32)] (spad x.ga) ∧
      rules (.rflogs x) x.gs (.rflogs x.q) x.ga 0 [(x.ga, 4)] (spad x.ga)) ∧
    ∀ x : RffreeArgs, rules (.rffree x) x.gs (.rffree x.q) 0 0 [] True

/-- R35 to R38, R41, R205, R211, R215, R257, R275, R288, R289, R320, R356: a job whose predecessors have ended well starts and reads its
descriptor once, one with a failed predecessor ends CANCELLED. Of a change made to the descriptor since the command was issued the model
leaves free whether it is seen (log 21). A job's work (`worked`) is a run that may pass over writes that the job has not seen (log 8); a CRED
with other members works in one event and writes its status in the next. A job's end, in the order of starts on its engine, writes its status word into its register,
which is pending no more, and frees its entry; a page it misses is first reported to the masthead, and it ends PAGE only where it misses
that page after the answer (log 73); on a fenced core it ends POISON; CDEP records the pending jobs of its registers; CCANCEL ends a job, at once when it has not started, but for a CRED and a
started tile job (log 54: a job that has met an error keeps its code, and the cancelled count is the model's free choice, log 22). That
an end whose time has not come is refused as a step is the model's choice (log 59).
R239, R266, R296: what three jobs do when they run to their end: TZERO leaves the elements and the boltrope of its tile 0 and
both its state bits clear, GRELEASE leaves a bound handle unbound, RFFREE a map handle. -/
def Obligations.JobsStartAndEnd : Prop :=
  (∀ (s : State) (id : Nat) (j : Job) (others : List CredShare) (gs : GReg) (x : Eng2Args), findJob s id = some j →
     let done (t : State) : Prop := (t.ctx s.cur).pc = (s.ctx s.cur).pc + 4 ∧ MemoryKept s t
     let reg (d : GReg) : Option Nat := (s.ctx s.cur).pend[d.val]
     let ready := running j = true ∧ inTurn s j = true ∧ s.core.fenced = false
     let misses (c : StatusCode) : Prop := (∃ a, c = .pageAt a) ∧ j.cmd ≠ .trem
     (j.started = false → j.status = none → (∃ p ∈ j.preds, p.outcome = some true) →
       exec (.jobLaunch id) s = .next (setJob s { j with status := some (.cancelled, 0) })) ∧
     (j.started = false → j.status = none → (∀ p ∈ j.preds, p.outcome = some false) → firstInLine s j = true →
       (∀ k ∈ s.clu.jobs, running k = true → sharesEngine k j = false) → s.core.frozen = false → s.core.saving = false →
       s.core.fenced = false → (∀ p ∈ targetPubs s j, p.closed = false) →
       let r := recordTaken s j
       let i := { r.1 with started := true, startNo := s.clu.starts, binding := startBinding s j }
       let a := recordAddr j.cmd j.a j.b
       let n := recordLen j.cmd
       (∃ t, exec (.jobLaunch id) s = .next t ∧ findJob t id = some { i with shadows := (targetPubs r.2 i).map fun p => p.desc } ∧
         running i = true ∧ i.cmd = j.cmd ∧ t.clu.starts = s.clu.starts + 1 ∧ t.mem = s.mem ∧ t.ctxs = s.ctxs) ∧
       (startsUnbound s j = true → i.record = j.record ∧ i.recordStop = j.recordStop) ∧
       (startsUnbound s j = false →
         (∀ e, engRead s reachSpad a n = .error e → i.recordStop = some e) ∧
         (∀ bs, engRead s reachSpad a n = .ok bs → i.recordStop = j.recordStop ∧
           (quietAt s.vis (.job id) false ((List.range n).map fun k => a + k) = true →
             i.record = readBytes s a n ∨ i.record = j.record)))) ∧
     (∀ c n, j.status = some (c, n) → j.remote = none → j.sreg ≠ 0 → (s.ctx j.ctx).pend[j.sreg.val] = some id → j.shadows = [] →
       ∃ t, exec (.jobCompletion id others) s = .next t ∧ isPending t j.ctx j.sreg = false ∧ (∀ k ∈ t.clu.jobs, k.id ≠ id) ∧
         t.mem = s.mem ∧ (getG t j.ctx j.sreg).toNat =
           2 ^ 63 + (if c = .ok ∨ c = .boltFixed ∨ c = .lateEvents then 0 else 2 ^ 62) + c.num * 2 ^ 56 +
             (cmdEngine j.cmd).unitNum * 2 ^ 48 + n % 2 ^ 48) ∧
     (∀ (run : State → Option Ended) (e : Ended), worked s j run = some e → ∃ (r : State) (out : List (Nat × Nat)) (f : Ended),
       (r = s ∨ r = s.tickChoice) ∧ runPast (runChecked run) r (jobMisses s j) out = some f ∧ e.2 = f.2 ∧ e.1.mem = f.1.mem) ∧
     (∀ u ∈ jobMisses s j, u ∈ s.vis.unseen ∧ u.knownTo (.job id) = false) ∧
     (ready → awaitsTwin s j = false → ∀ t c n, worked s j (perform j others noLimit) = some (t, c, n) →
       let ends : Prop := exec (.jobCompletion id others) s =
         .next (if sharesFirst j others then endJob t id (c.plain, n) else finishJob t j c.plain n)
       (¬ misses c → ends) ∧
       (∀ a, c = .pageAt a → j.cmd ≠ .trem →
         (missOpen s j = true → exec (.jobCompletion id others) s = .refused .eventNotEnabled) ∧
         (missOpen s j = false → (∃ m, j.missed = some m ∧ m / 0x10000 = a / 0x10000) → ends) ∧
         (missOpen s j = false → (∀ m, j.missed = some m → m / 0x10000 ≠ a / 0x10000) →
           ∃ u p k, exec (.jobCompletion id others) s = .next u ∧ u.mem = s.mem ∧ u.ctxs = s.ctxs ∧
             u.core.frozen = s.core.frozen ∧ u.mod.inbox = s.mod.inbox ++ [p] ∧ p.cls = .pageFault ∧ p.pc = j.pc ∧ p.insn = j.word ∧
             p.addr = BitVec.ofNat 64 a ∧ findJob u id = some k ∧ running k = true ∧ k.missed = some a))) ∧
     (running j = true → inTurn s j = true → awaitsTwin s j = false → s.core.fenced = true →
       exec (.jobCompletion id others) s = .next (finishJob s j .poison j.done)) ∧
     (ready → ∀ y t c n, j.cmd = .cpy y → y.useH = true → worked s j (pushRun y j) = some (t, c, n) →
       (c = .cancelled → exec (.engineHandlePush id) s = .next t) ∧
       (c ≠ .cancelled → ¬ misses c → exec (.engineHandlePush id) s = .next (endJob t id (c.plain, n)))) ∧
     (ready → ∀ y t c n, j.cmd = .tst y → j.b.getLsbD 32 = true → worked s j (runTst y j) = some (t, c, n) → ¬ misses c →
       exec (.engineHandlePush id) s = .next (endJob t id (c.plain, n))) ∧
     (∃ t, exec (.cdep x) s = .next t ∧ done t ∧ (∀ p ∈ (s.ctx s.cur).deps, p ∈ (t.ctx s.cur).deps) ∧
       (∀ d ∈ [x.gs, x.ga, x.gb], d ≠ 0 → ∀ k, reg d = some k → ∃ p ∈ (t.ctx s.cur).deps, p.job = k) ∧
       ∀ p ∈ (t.ctx s.cur).deps, p ∈ (s.ctx s.cur).deps ∨
         p.outcome = none ∧ ∃ d ∈ [x.gs, x.ga, x.gb], d ≠ 0 ∧ reg d = some p.job) ∧
     (gs = 0 → exec (.ccancel gs) s = .next (raise s s.cur { cls := .illegalOperand })) ∧
     (gs ≠ 0 →
       (reg gs = none → exec (.ccancel gs) s = .next (retire s s.cur 4)) ∧
       (reg gs = some id → j.status.isSome = true ∨ (∃ l, j.cmd = .cred l) ∨ (j.started = true ∧ cmdEngine j.cmd = .tile) →
         exec (.ccancel gs) s = .next (retire s s.cur 4)) ∧
       (reg gs = some id → j.status = none → j.started = false → (∀ l, j.cmd ≠ .cred l) →
         exec (.ccancel gs) s = .next (retire (setJob s { j with status := some (.cancelled, 0) }) s.cur 4)) ∧
       (reg gs = some id → running j = true → cmdEngine j.cmd ≠ .tile → (∀ l, j.cmd ≠ .cred l) →
         ∃ t k c n, exec (.ccancel gs) s = .next t ∧ (t.ctx s.cur).pc = (s.ctx s.cur).pc + 4 ∧ findJob t id = some k ∧
           k.status = some (c, n) ∧ c.isErr = true))) ∧
  (∀ (s : State) (id : Nat) (j : Job) (others : List CredShare), MemoryInv s → Unhindered s id j →
     (∀ (x : TileArgs) (t loc fmt : Nat), j.cmd = .tzero x → t = (if x.s then j.b.toNat % 64 else 64 + x.acc.val) →
       TileAt s t loc fmt → EndsWith s id others j .ok 1 fun u =>
         (∀ i, i < tileBytes fmt → Memory.get u.mem (loc + i) = 0) ∧ (∀ i, i < 256 → Memory.get u.mem (boltLoc t + i) = 0) ∧
         tileUnverified u t = false ∧ tilePoisoned u t = false ∧
         (t < 64 → ∀ i, i < tileBytes fmt / 64 → descOf u (loc / 64 + i) = BitVec.ofNat 16 fmt)) ∧
     (∀ (y : Fin 4) (g : GBinding), j.cmd = .grelease y → j.binding = some g → EndsWith s id others j .ok 1 fun u =>
         getGram u j.ctx y = none ∧ u.mem = s.mem) ∧
     ∀ (q : Fin 4), j.cmd = .rffree q → getReef s j.ctx q ≠ .unbound → EndsWith s id others j .ok 1 fun u =>
       getReef u j.ctx q = .unbound ∧ u.mem = s.mem)

/-! ### What the engines leave (R216 to R304) -/

/-- R220, R221: a line of an integer tile fails when its sum differs from the prediction; one of a float tile when both sums, the
allowance and the actual magnitude are finite and the sums differ by more than the allowance times 2^-n and 16 × 2^-126. check_fix
is OK when no line fails; it changes an element only where one row and one column fail and agree; the changed element's two lines must
not fail again; all else fails. That an element changed in vain stays changed in the tile is the model's choice (log 64).
R219, R222, R223, R224, R233, R234, R240, R241, R242: what TLD, TST, TSCALE and TVFY leave. A tile read that is unverified takes
its actual sums for its boltrope and is counted; a verified one is checked: OK, BOLT_FIXED with the element mended and counted, or
BOLT_FAIL and the tile poisoned; a poisoned one ends POISON, an unconfigured slot BAD_DESC. TLD takes the rows, transposed where asked,
and leaves the tile verified under its own sums, TLD.bolt checked against the record; TST writes the tile's bytes, an accumulator's
elements rounded to the format; TSCALE multiplies each element and checks against the boltrope scaled alike (log 51: the counts).
R29, R64, R75, R121, R227, R228, R229, R235, R236, R237, R238, R242, R243, R244: TWLD leaves the lines with their descriptors in the
weight buffer, poisoned where a check against its record fails, TCBT the pattern table; TMMA, with A from a slot or from a handle's
oldest slot, leaves in C each rounded combination of C with the scaled tree sum of products, checked against the predicted boltrope, and
ends BAD_DESC where the codes' widths differ; TCFG configures exactly the slots of a table that keeps its limits, none for no record; TCAP writes the capability; TREM ends as its command does here, CAP_REJECT where the capability is
stale or rejected, BAD_DESC where the record is none, and with another core's status otherwise (log 25). -/
def Obligations.TileResults : Prop :=
  ((∀ (w : Nat) (sg : Bool) (n x p : Nat) (m : FVal) (am : Nat), lineFails (.int w sg) n x p m am = decide (x ≠ p)) ∧
   (∀ (f : FFmt) (n x p : Nat) (m : FVal) (am : Nat),
     let X := fval .f32 x
     let P := fval .f32 p
     let finite := X.isFin = true ∧ P.isFin = true ∧ m.isFin = true ∧ (fval .f32 am).isFin = true
     (¬ finite → lineFails (.flt f) n x p m am = false) ∧
     (finite → (lineFails (.flt f) n x p m am = true ↔ m.toRat / 2 ^ n + 16 / 2 ^ 126 < |X.toRat - P.toRat|))) ∧
   ∀ (n : Nat) (t : TileData) (p : Bolt) (m : Mag),
     let act := tileSums t
     let row (a : Bolt) (i : Nat) := lineFails t.ty n (a.row.getD i 0) (p.row.getD i 0) (m.row.getD i .nan) (a.rowMag.getD i 0)
     let col (a : Bolt) (i : Nat) := lineFails t.ty n (a.col.getD i 0) (p.col.getD i 0) (m.col.getD i .nan) (a.colMag.getD i 0)
     let lone (f : Nat → Bool) (r : Nat) : Prop := r < 16 ∧ ∀ i, i < 16 → (f i = true ↔ i = r)
     let c := checkFix n t p m
     ((∀ i, i < 16 → row act i = false ∧ col act i = false) → c = (.ok, t, act, none)) ∧
     (∀ r k, lone (row act) r → lone (col act) k →
       let u := { t with raw := t.raw.set (16 * r + k) (fixElem t act p r (16 * r + k)) }
       (diffsAgree t.ty n act p m r k = false → c = (.fail, t, act, none)) ∧
       (diffsAgree t.ty n act p m r k = true →
         c = (if row (tileSums u) r = false ∧ col (tileSums u) k = false then (.fixed, u, tileSums u, some (16 * r + k))
           else (.fail, u, act, some (16 * r + k))))) ∧
     ((∃ i, i < 16 ∧ (row act i = true ∨ col act i = true)) → (¬ ∃ r k, lone (row act) r ∧ lone (col act) k) →
       c = (.fail, t, act, none)) ∧
     (∀ w sg, t.ty = .int w sg → ∀ r k, (fixElem t act p r k : Int) =
       ((t.raw.getD k 0 : Int) - ((act.row.getD r 0 : Int) - p.row.getD r 0)) % 2 ^ w)) ∧
  (∀ (s : State) (id : Nat) (j : Job) (others : List CredShare) (t loc fmt : Nat), MemoryInv s → Unhindered s id j →
     let a := j.a.toNat
     let st := j.b.toNat % 2 ^ 16
     let named (sl : Bool) (acc : Fin 4) (slot : Nat) : Prop := t = if sl then slot else 64 + acc.val
     let n := tileBytes fmt
     let rb := n / 16
     let w := fmtBits fmt
     let d := readTile s loc fmt
     let own (u : State) : Prop := tileBolt u t = tileSums (readTile u loc fmt) ∧ tileUnverified u t = false ∧ tilePoisoned u t = false
     let sound := tileUnverified s t = false ∧ tilePoisoned s t = false ∧ boltBroken s t = false ∧
       (t < 64 → ∃ bs, engRead s reachSpad loc n = .ok bs)
     let checked (u : State) : Prop := tileBolt u t = tileSums d
     (∀ x : TldArgs, j.cmd = .tld x → named x.s x.acc (j.b.toNat / 2 ^ 16 % 64) → TileAt s t loc fmt →
       ∀ rows : Nat → List Byte, (∀ i, i < 16 → engRead s reachTile (a + i * (if st = 0 then rb else st)) rb = .ok (rows i)) →
       (x.tr = .none ∨ (x.tr = .t8 ∧ w = 8) ∨ (x.tr = .t16 ∧ w = 16)) →
       (∀ i k, i < 16 → k < rb →
         let c := (engDesc s reachTile ((a + i * (if st = 0 then rb else st) + k) / 64)).toNat % 256
         c = 0 ∨ c = fmt ∨ (st = 0 ∧ x.tr = .none ∧ x.s = true ∧ scaledOf fmt = some c)) →
       (x.bolt = false → EndsWith s id others j .ok n fun u => own u ∧
         (x.tr = .none → ∀ i, i < 16 → readBytes u (loc + rb * i) rb = rows i) ∧
         (x.tr ≠ .none → ∀ i k, i < 16 → k < 16 →
           readBytes u (loc + w / 8 * (16 * k + i)) (w / 8) = ((rows i).drop (w / 8 * k)).take (w / 8))) ∧
       (x.bolt = true → (∃ bs, engRead s reachTile (a + n) 256 = .ok bs) → ∃ c : StatusCode, c ∈ [.ok, .boltFixed, .boltFail] ∧
         EndsWith s id others j c (n + 256) fun u => if c = .boltFail then tilePoisoned u t = true else own u)) ∧
     (∀ x : TstArgs, j.cmd = .tst x → named x.s x.acc (j.b.toNat / 2 ^ 16 % 64) → TileAt s t loc fmt → sound →
       (checkFix (jobTol s j t) d (tileBolt s t) (magOf (tileBolt s t))).1 = .ok → j.b.getLsbD 32 = false → st = 0 →
       x.bolt = false → (x.s = true → slotScaled s loc fmt = false ∨ a % 64 = 0) →
       let f := if j.b.toNat / 2 ^ 24 % 256 = 0 then 9 else j.b.toNat / 2 ^ 24 % 256
       ∀ g, fmtTy f = .flt g → isTileFmt f = true →
       let out := if x.s then readBytes s loc n else packBytes (fmtBits f) (d.raw.map fun e => rne g (fval .f32 e))
       let v := engWrite (setTileBolt s t (tileSums d)) reachTile a out
       tstReach s x (if x.s then fmt else f) a 0 = true → v.2 = none →
       EndsWith s id others j .ok out.length fun u => u.mem = v.1.mem) ∧
     (∀ x : TileArgs, j.cmd = .tvfy x → named x.s x.acc (j.b.toNat % 64) →
       (tilePlace s t = none → EndsWith s id others j .badDesc 0 fun u => u.mem = s.mem) ∧
       (TileAt s t loc fmt → tilePoisoned s t = true → EndsWith s id others j .poison 0 fun u => u.mem = s.mem) ∧
       (TileAt s t loc fmt → tileUnverified s t = true → tilePoisoned s t = false →
         (t < 64 → ∃ bs, engRead s reachSpad loc n = .ok bs) →
         EndsWith s id others j .ok 1 fun u => checked u ∧ own u ∧ readBytes u loc n = readBytes s loc n ∧
           u.core.unverified = s.core.unverified + 1) ∧
       (TileAt s t loc fmt → sound →
         let r := checkFix (jobTol s j t) d (tileBolt s t) (magOf (tileBolt s t))
         (r.1 = .ok → EndsWith s id others j .ok 1 fun u => own u ∧ readBytes u loc n = readBytes s loc n) ∧
         (r.1 = .fixed → EndsWith s id others j .boltFixed 1 fun u => own u ∧ readTile u loc fmt = r.2.1 ∧
           u.core.corrected = s.core.corrected + 1) ∧
         (r.1 = .fail → EndsWith s id others j .boltFail 1 fun u => tilePoisoned u t = true))) ∧
     (∀ (x : TscaleArgs) (g : FFmt), j.cmd = .tscale x → named x.s x.acc (j.b.toNat % 64) → TileAt s t loc fmt → fmtTy fmt = .flt g →
       sound → (checkFix (jobTol s j t) d (tileBolt s t) (magOf (tileBolt s t))).1 = .ok →
       let k := fval .f32 (j.a.toNat % 2 ^ 32)
       let b := tileSums d
       let up (l : List Nat) := l.map fun e => rne .f32 (fmul k (fval .f32 e))
       let mg (l : List Nat) := l.map fun e => fmul (fabs k) (fval .f32 e)
       let e : TileData := { d with raw := d.raw.map fun e => rne g (fmul k (fval g e)) }
       let r := checkFix (jobTol s j t) e { b with row := up b.row, col := up b.col } { row := mg b.rowMag, col := mg b.colMag }
       (r.1 = .ok → EndsWith s id others j .ok 1 fun u => (readTile u loc fmt).raw = e.raw ∧ tileBolt u t = tileSums e) ∧
       (r.1 = .fixed → EndsWith s id others j .boltFixed 1 fun u => (readTile u loc fmt).raw = r.2.1.raw) ∧
       (r.1 = .fail → EndsWith s id others j .boltFail 1 fun u => tilePoisoned u t = true))) ∧
  (∀ (s : State) (id : Nat) (j : Job) (others : List CredShare), MemoryInv s → Unhindered s id j →
     let a := j.a.toNat
     let b := j.b.toNat
     let o := observeTick s
     (∀ x : TwldArgs, j.cmd = .twld x → x.chk = false → ∀ line : Nat → List Byte,
       let n := b / 2 ^ 16 % 2 ^ 11
       let desc (i : Nat) := engDesc s reachTile (a / 64 + i)
       (∀ i, i < n → engRead s reachTile (a + 64 * i) 64 = .ok (line i) ∧ twldCode ((desc i).toNat % 256) = true) →
       b % 2 ^ 10 + n ≤ 1024 → EndsWith s id others j .ok n fun u => ∀ i, i < n →
         readBytes u (wbufLoc + 64 * (b % 2 ^ 10 + i)) 64 = line i ∧
         wline u (b % 2 ^ 10 + i) = { desc := desc i, poison := false, job := some (curJobId s) }) ∧
     (∀ x : TwldArgs, j.cmd = .twld x → x.chk = true →
       let n := b / 2 ^ 16 % 2 ^ 11
       let first := b % 2 ^ 10
       let desc (i : Nat) := engDesc s reachTile (a / 64 + i)
       let code := (desc 0).toNat % 256
       (bLines code ≠ some n → (∃ bs, engRead s reachTile a 64 = .ok bs) → EndsWith s id others j .badDesc 0 fun u => u.mem = s.mem) ∧
       ∀ (line : Nat → List Byte) (rec : List Byte), bLines code = some n → first + n ≤ 1024 →
         (∀ i, i < n → engRead s reachTile (a + 64 * i) 64 = .ok (line i) ∧ (desc i).toNat % 256 = code) →
         engRead s reachTile (a + 64 * n) 256 = .ok rec → (code = 0x13 → s.clu.pattern = some (curJobId s)) →
         let B := readB (loadLines s (List.range n) a first).1 first code
         let loaded (bad : Bool) (u : State) : Prop := ∀ i, i < n → readBytes u (wbufLoc + 64 * (first + i)) 64 = line i ∧
           wline u (first + i) = { desc := desc i, poison := bad, job := some (curJobId s) }
         (B = none → EndsWith s id others j .badDesc n (loaded false)) ∧
         ∀ v, B = some v →
           (bFails j.tolNarrow (bVals v) (boltOf rec) = false → EndsWith s id others j .ok n (loaded false)) ∧
           (bFails j.tolNarrow (bVals v) (boltOf rec) = true → EndsWith s id others j .boltFail n (loaded true))) ∧
     (j.cmd = .tcbt → ∀ bs, engRead s reachTile a 512 = .ok bs → EndsWith s id others j .ok 128 fun u =>
       readBytes u patLoc 512 = bs ∧ u.clu.pattern = some (curJobId s)) ∧
     (∀ (x : TmmaArgs) (y : Handle), j.cmd = .tmma x → x.h = true → getHandle s j.ctx (Fin.ofNat 8 a) = some y → y.fill = 0 →
       exec (.jobCompletion id others) s = .refused .eventNotEnabled) ∧
     (∀ (x : TmmaArgs) (A : AOperand) (code : Nat) (B : BTile), j.cmd = .tmma x →
       let h := Fin.ofNat 8 a
       let popped (y : Handle) : Handle := if x.adv then { y with tail := (y.tail + 1) % y.count, fill := y.fill - 1 } else y
       let fromHandle : Prop := ∃ (y : Handle) (c : Nat) (bs : List Byte), getHandle s j.ctx h = some y ∧ 0 < y.fill ∧ widthClass c ≠ 0 ∧
         c ≠ 0x13 ∧
         let at_ := y.base + y.tail * y.size
         let n := tileBytes (elemCode c)
         n ≤ y.size ∧ engRead s reachSpad at_ n = .ok bs ∧ (∀ k ∈ blocksOf at_ n, fmtOf s k = c) ∧
         A = { s := if x.adv then setHandle s j.ctx h (some (popped y)) else s, fix := .ok, tile := readTile s at_ (elemCode c),
               bolt := tileSums (readTile s at_ (elemCode c)), code := elemCode c }
       (if x.h then fromHandle else slotA s (a % 64) (jobTol s j (a % 64)) = .ok A) → A.fix = .ok → fetchB A.s (b % 2 ^ 10) = .ok (code, B) →
       (widthClass A.code = 0 ∨ widthClass A.code ≠ widthClass code → EndsWith s id others j .badDesc 0 fun _ => True) ∧
       (widthClass A.code ≠ 0 → widthClass A.code = widthClass code → ∀ (s2 : State) (C : TileData) (cb : Bolt),
         (x.ctl = .ovw → s2 = A.s) →
         (x.ctl ≠ .ovw → readChecked A.s (64 + x.acc.val) j.tolWide = .ok (s2, .ok, C, cb)) →
         let f := tileFmt A.tile
         let gamma := fval .f32 j.gamma.toNat
         let scale (k : Option Nat) : FVal := match k with
           | none => .fin false 1 0
           | some k => scaleVal k
         let S (i k : Nat) : FVal :=
           r32 (fmul (fmul (treeSum32 ((List.range 16).map fun q =>
             fmul (fval f (A.tile.raw.getD (16 * i + q) 0)) (B.val.getD (16 * q + k) .nan)))
               (scale (A.tile.scale.getD (16 * i) none))) (scale (B.scale.getD k none)))
         let elem (i k : Nat) : Nat :=
           let c := fval .f32 (C.raw.getD (16 * i + k) 0)
           rne .f32 (match x.ctl with
             | .ovw => S i k
             | .acc => fadd c (S i k)
             | .fade => fadd (fmul gamma c) (S i k)
             | .sub => fsub c (S i k))
         let T : TileData := { ty := .flt .f32, raw := (List.range 256).map fun e => elem (e / 16) (e % 16),
                               scale := List.replicate 256 none }
         let ps := predictS A.tile A.bolt (bVals B)
         let r := checkFix j.tolWide T (predictP x.ctl gamma cb ps) (predictM x.ctl gamma cb ps)
         let loc := accLoc + 0x400 * x.acc.val
         (x.ctl = .ovw → cb = { row := [], col := [], rowMag := [], colMag := [] }) →
         (x.h = true → r.1 = .ok → EndsWith s id others j .ok 1 fun u => ∀ y, getHandle s j.ctx h = some y →
           getHandle u j.ctx h = some (popped y)) ∧
         (r.1 = .ok → EndsWith s id others j .ok 1 fun u => readTile u loc 9 = T ∧ tileBolt u (64 + x.acc.val) = tileSums T ∧
           tileUnverified u (64 + x.acc.val) = false ∧ tilePoisoned u (64 + x.acc.val) = false) ∧
         (r.1 = .fixed → EndsWith s id others j .boltFixed 1 fun u => readTile u loc 9 = r.2.1) ∧
         (r.1 = .fail → EndsWith s id others j .boltFail 1 fun u => tilePoisoned u (64 + x.acc.val) = true))) ∧
     (j.cmd = .tcfg → b = 0 → EndsWith s id others j .ok 0 fun u => ∀ t, t < 64 → tileSlot u t = none) ∧
     (j.cmd = .tcfg → b ≠ 0 → ∀ bs, engRead s reachTile a (8 * b) = .ok bs →
       let field (i o n : Nat) := rfield bs (8 * i + o) n
       let off (i : Nat) := field i 0 4
       let len (i : Nat) := tileBytes (field i 4 1)
       let apart (i k : Nat) : Prop := field i 5 1 ≠ field k 5 1 ∧ (off i + len i ≤ off k ∨ off k + len k ≤ off i)
       let good := (∀ i, i < b → off i % 64 = 0 ∧ isTileFmt (field i 4 1) = true ∧ field i 5 1 < 64 ∧ field i 6 2 = 0 ∧
         off i + len i ≤ 0x20000) ∧ ∀ i k, i < k → k < b → apart i k
       (¬ good → EndsWith s id others j .badDesc 0 fun u => u.core.tiles = s.core.tiles) ∧
       (good → EndsWith s id others j .ok b fun u =>
         (∀ i, i < b → tileSlot u (field i 5 1) =
           some { off := off i, fmt := field i 4 1, unverified := true, poisoned := false }) ∧
         ∀ t, t < 64 → (∀ i, i < b → field i 5 1 ≠ t) → tileSlot u t = none)) ∧
     (j.cmd = .tcap →
       let body := (o.mod.tick.toNat / 2 ^ 20 + b / 2 ^ 16 % 2 ^ 16) % 2 ^ 16 + b % 16 * 2 ^ 16 + s.core.cix * 2 ^ 20 +
         (64 * s.core.row + s.core.col) * 2 ^ 23 + s.core.die * 2 ^ 36 + s.core.modId % 256 * 2 ^ 40
       let v := engWrite o reachCopy a (leBytes 8 ((Config.capCheck body (curJobId s)).toNat * 2 ^ 48 + body))
       v.2 = none → EndsWith s id others j .ok 1 fun u => u.mem = v.1.mem) ∧
     (j.cmd = .trem → j.recordStop = none →
       let rec_ := j.record
       let cmd := remCommand (BitVec.ofNat 32 (rfield rec_ 0 4)) (rfield rec_ 0x10 8)
       let ends (code : StatusCode) := EndsWith s id others j code 0 fun u => u.mem = s.mem
       (cmd = none ∨ rfield rec_ 4 4 ≠ 0 ∨ rfield rec_ 0x18 8 ≠ 0 → ends .badDesc) ∧
       ∀ c, cmd = some c → rfield rec_ 4 4 = 0 → rfield rec_ 0x18 8 = 0 →
         (capNamesMe o a = true → capRejected o a s.core.modId (remAcc c) = true → ends .capReject) ∧
         (capNamesMe o a = false → capStale o a s.core.modId (remAcc c) = true → ends .capReject) ∧
         (capNamesMe o a = true → capRejected o a s.core.modId (remAcc c) = false → ∀ t code n,
           runRemote c { j with a := BitVec.ofNat 64 (rfield rec_ 8 8), b := BitVec.ofNat 64 (rfield rec_ 0x10 8), cmd := c } o =
             (t, code, n) → EndsWith s id others j code n fun u => u.mem = t.mem) ∧
         (capNamesMe o a = false → capStale o a s.core.modId (remAcc c) = false →
           ∃ code n, EndsWith s id others j code n fun u => u.mem = s.mem)))

/-- R66, R67, R69, R70, R273, R275, R276, R277, R280, R281, R283, R284, R286, R287, R358: what CPY, CGATHER, CSCATTER, CRED and CQPUT
leave where source and destination do not meet. A plain copy moves its rows, a transposed one exchanges rows and columns of a tile, a
packed one writes the bitmap object of its elements, an unpacked one the dense tensor; gather and scatter move each element named;
CRED of integers adds every member's values modulo the width, and with other members writes its status in the next event (R215); CQPUT claims a slot, writes it with its sequence number, or ends
QUEUE_FULL; a descriptor that breaks its limits ends BAD_DESC with the count 0. Bytes of the scratchpad elsewhere stay. -/
def Obligations.CopyResults : Prop :=
  ∀ (s : State) (id : Nat) (j : Job) (others : List CredShare), MemoryInv s → Unhindered s id j →
    let apart (a n b m : Nat) : Prop := a + n ≤ b ∨ b + m ≤ a
    let reads (a n : Nat) : Prop := a + n ≤ 0x20000 ∧ ∃ bs, engRead s reachCopy a n = .ok bs
    let elsewhere (u : State) (p : Nat → Prop) : Prop := ∀ l, l < 0x20000 → ¬ p l → Memory.get u.mem l = Memory.get s.mem l
    (∀ x : CpyArgs, j.cmd = .cpy x → x.useH = false → RecordStands j →
      let r := cpyRec j.record
      let rows := r.rows
      (cpyOk x r = false → EndsWith s id others j .badDesc 0 fun u => u.mem = s.mem) ∧
      (cpyOk x r = true → x.bolt = false → nearSource s r = false →
        (x.pack = .none → x.tr = .none → (∀ i, i < rows → reads (r.src + i * r.sstep) r.rb) →
          r.src + (rows - 1) * r.sstep + r.rb ≤ 0x20000 → r.dst + (rows - 1) * r.dstep + r.rb ≤ 0x20000 →
          EndsWith s id others j .ok (r.rb * rows) fun u =>
            (∀ i, i < rows → readBytes u (r.dst + i * r.dstep) r.rb = readBytes s (r.src + i * r.sstep) r.rb) ∧
            elsewhere u fun l => ∃ i, i < rows ∧ r.dst + i * r.dstep ≤ l ∧ l < r.dst + i * r.dstep + r.rb) ∧
        (x.pack = .none → x.tr = .none → rows = 1 → ∀ bs ok v, anyRead s r.src r.rb = (s, bs, none) →
          place s r.dst = .ok (.here ok v) → (engWrite s ok v bs).2 = none →
          EndsWith s id others j .ok r.rb fun u => u.mem = (engWrite s ok v bs).1.mem) ∧
        (x.pack = .none → x.tr ≠ .none → rows = 16 → reads r.src (16 * r.rb) → r.dst + 16 * r.rb ≤ 0x20000 →
          EndsWith s id others j .ok (16 * r.rb) fun u => ∀ i k, i < 16 → k < 16 →
            let w := r.rb / 16
            readBytes u (r.dst + w * (16 * k + i)) w = readBytes s (r.src + w * (16 * i + k)) w) ∧
        (x.pack = .pack → x.tr = .none → ∀ bs l ok v, anyRead s r.src r.total = (s, bs, none) →
          let f := (anyDesc s r.src).toNat % 256
          let n := 8 * r.total / fmtBits f
          let obj := bitmapObject l f (unpackBytes (fmtBits f) n bs)
          f ≠ 0 → f ≤ 0x0E → r.dst % 64 = 0 → 8 * r.total % fmtBits f = 0 → bitmapLevels n = some l →
          place s r.dst = .ok (.here ok v) → (engWrite s ok v (obj.1 ++ obj.2)).2 = none →
          EndsWith s id others j .ok (obj.1 ++ obj.2).length fun u => u.mem = (engWrite s ok v (obj.1 ++ obj.2)).1.mem) ∧
        (x.pack = .unpack → x.tr = .none → ∀ (h nb vb : List Byte) (marked : List Nat) (ok : Reach) (v : Nat),
          let l := rfield h 0 1
          let f := rfield h 1 1
          let nodes := rfield h 4 4
          let n := rfield h 8 8
          let w := fmtBits f
          anyRead s r.src 64 = (s, h, none) → anyRead s (r.src + 64) (8 * nodes) = (s, nb, none) →
          anyRead s (r.src + (64 + (8 * nodes + 63) / 64 * 64)) ((rfield h 0x10 8 * w + 7) / 8) = (s, vb, none) →
          r.src % 64 = 0 → 2 ≤ l → l ≤ 4 → f ≠ 0 → f ≤ 0x0E → rfield h 2 2 = 0 → rfield h 0x18 40 = 0 →
          (anyDesc s r.src).toNat % 256 = 0x14 → n ≤ 64 ^ l → 8 * r.total = n * w →
          walkNodes l true [0] (unpackBytes 64 nodes nb) = some (marked, []) → marked.length = rfield h 0x10 8 →
          (∀ e ∈ marked, e < n) → place s r.dst = .ok (.here ok v) →
          let vals := unpackBytes w marked.length vb
          let out := packBytes w ((List.range n).map fun e => if e ∈ marked then vals.getD (marked.idxOf e) 0 else 0)
          (engWrite s ok v out).2 = none →
          EndsWith s id others j .ok out.length fun u => u.mem = (engWrite s ok v out).1.mem))) ∧
    (∀ scatter : Bool, j.cmd = (if scatter then .cscatter else .cgather) → RecordStands j →
      (listRec j.record = none → EndsWith s id others j .badDesc 0 fun u => u.mem = s.mem) ∧
      ∀ r, listRec j.record = some r →
        let e (k : Nat) := leNat (readBytes s (r.idx + 8 * k) 8)
        let b (k : Nat) := r.buf + k * r.elem
        let src (k : Nat) := if scatter then b k else e k
        let dst (k : Nat) := if scatter then e k else b k
        (∀ k, k < r.count → reads (r.idx + 8 * k) 8 ∧ e k % r.elem = 0 ∧ reads (src k) r.elem ∧ dst k + r.elem ≤ 0x20000) →
        (∀ k l, k < r.count → l < r.count → apart (dst k) r.elem (src l) r.elem ∧ apart (dst k) r.elem (r.idx + 8 * l) 8 ∧
          (k ≠ l → apart (dst k) r.elem (dst l) r.elem)) →
        EndsWith s id others j .ok r.count fun u =>
          (∀ k, k < r.count → readBytes u (dst k) r.elem = readBytes s (src k) r.elem) ∧
          elsewhere u fun l => ∃ k, k < r.count ∧ dst k ≤ l ∧ l < dst k + r.elem) ∧
    (∀ (level : Fin 5) (r : CredRec) (xb : List Byte), j.cmd = .cred level → RecordStands j → credRec j.record = some r →
      isIntFmt r.fmt = true → r.op = 0 → sharesComplete s level j others = true →
      let w := credWidth r.fmt
      ((∃ m ∈ others, m.head ≠ (j.record.drop 0x18).take 8) → SharesEnd s id others j .badDesc 0 fun u => u.mem = s.mem) ∧
      ((∀ m ∈ others, m.head = (j.record.drop 0x18).take 8) → engRead s reachLocal r.src (w * r.count) = .ok xb →
        let mine := unpackBytes (8 * w) r.count xb
        let sums := (List.range r.count).map fun i =>
          (mine.getD i 0 + (others.map fun m => m.values.getD i 0).sum) % 2 ^ (8 * w)
        let v := engWrite s reachLocal r.dst (packBytes (8 * w) sums)
        v.2 = none → SharesEnd s id others j .ok r.count fun u => u.mem = v.1.mem)) ∧
    (j.cmd = .cqput → ∀ (pkt h : List Byte) (ok : Reach) (a : Nat), engRead s reachSpad j.b.toNat 64 = .ok pkt →
      place s j.a.toNat = .ok (.here ok a) → engRead s reachHbm a 64 = .ok h →
      let wr := rfield h 0 8
      let rd := rfield h 8 8
      let size := rfield h 0x10 4
      let slots := rfield h 0x18 8
      let good := rfield h 0x14 4 = 1 ∧ (∃ k, k ≤ 24 ∧ size = 2 ^ k) ∧ slots % 64 = 0 ∧ rfield h 0x28 24 = 0
      (¬ good → EndsWith s id others j .badDesc 0 fun u => u.mem = s.mem) ∧
      (good → rd + size ≤ wr → EndsWith s id others j .queueFull 0 fun u => u.mem = s.mem) ∧
      (good → wr < rd + size →
        let v := engWrite s reachHbm a (leBytes 8 ((wr + 1) % 2 ^ 64))
        let z := engWrite v.1 reachHbm (slots + 64 * (wr % size)) (leBytes 4 ((wr + 1) % 2 ^ 32) ++ pkt.drop 4)
        v.2 = none → z.2 = none → EndsWith s id others j .ok 1 fun u => u.mem = z.1.mem))

/-- R246, R247, R248, R251, R252, R253, R256, R259, R260, R261, R262, R263, R264, R265, R266: what the grammar commands leave. On an unbound
handle each ends NOT_BOUND; GBIND binds a descriptor within its limits and otherwise leaves the handle unbound, NOT_ASSOCIATIVE for an
operator that may not be lifted; GEVAL writes a rule's lifted value, GLEN its length, or BAD_GRAMMAR where that reaches 2^63; GLOOK
copies an entry; GSPINE reduces a segment of the spine from the seed or the identity; GOCC writes an occurrence, GUNF and GLOC a
terminal reached by descent, or ends BAD_GRAMMAR where a length it reads is 2^63 or more. That a distributed table needs a block domain in
force is the model's choice (log 57). -/
def Obligations.GrammarResults : Prop :=
  ∀ (s : State) (id : Nat) (j : Job) (others : List CredShare), MemoryInv s → Unhindered s id j →
    let a := j.a.toNat
    let b := j.b.toNat
    let rec_ := j.record
    let ends (code : StatusCode) (n : Nat) (u : State) : Prop := EndsWith s id others j code n fun t => t.mem = u.mem
    let wrote (code : StatusCode) (n : Nat) (ok : Reach) (at_ : Nat) (bs : List Byte) : Prop :=
      (engWrite s ok at_ bs).2 = none → ends code n (engWrite s ok at_ bs).1
    (∀ y, cmdGram j.cmd = some y → (∀ x, j.cmd ≠ .gbind x) → jobBinding s j y = none → ends .notBound 0 s) ∧
    (∀ x : GbindArgs, j.cmd = .gbind x →
      let lifts := x.op ≠ .satadd ∧ x.op ≠ .sub ∧ (x.op = .faddg → x.reassoc = true)
      let free (code : StatusCode) : Prop := EndsWith s id others j code 0 fun u => getGram u j.ctx x.y = none ∧ u.mem = s.mem
      (¬ lifts → free .notAssociative) ∧
      (lifts → ∀ d, engRead s reachLocal a 64 = .ok d →
        let good := formatsAgree x.op (rfield d 0 1) (rfield d 1 1) (rfield d 2 1) = true ∧
          descriptorOk d (blockMap s).length = true
        (¬ good → free .badDesc) ∧
        (good → ∀ lv, engRead s reachTile (rfield d 0x10 8) (4 * rfield d 0x3C 2) = .ok lv →
          let starts (i : Nat) := rfield lv (4 * i) 4
          let rising := starts 0 = 0 ∧ ∀ i, i < rfield d 0x3C 2 → starts i < rfield d 4 4 ∧
            (i + 1 < rfield d 0x3C 2 → starts i < starts (i + 1))
          (¬ rising → free .badDesc) ∧
          (rising → EndsWith s id others j .ok 1 fun u => u.mem = s.mem ∧
            ∃ g, getGram u j.ctx x.y = some g ∧ g.desc = d ∧ g.op = x.op ∧ g.reassoc = x.reassoc)))) ∧
    (∀ (y : Fin 4) (g : GBinding), jobBinding s j y = some g →
      let w := g.width / 8
      let lone (i : Nat) : Prop := j.done = 0 ∧ b = 1 ∧ a = i ∧ i < g.nr
      (∀ i l r, lone i → ruleOf s g i = .ok (l, r) →
        (j.cmd = .geval y → homeHere s g i = true →
          (∀ c ∈ [l, r], bit c 31 = true → c % 2 ^ 31 < i ∨ g.dist = false ∨ homeHere s g (c % 2 ^ 31) = true) →
          ∀ p q, symVal s g l = .ok p → symVal s g r = .ok q →
            wrote .ok 1 reachTile (rrtAddr s g i) (leBytes w (lift g.op g.rfmt p q))) ∧
        (j.cmd = .glen y → g.matrix = false → g.rlt ≠ 0 → ∀ p q, symLen s g l = .ok p → symLen s g r = .ok q →
          (2 ^ 63 ≤ p + q → ends .badGrammar 0 s) ∧
          (p + q < 2 ^ 63 → wrote .ok 1 reachTile (g.rlt + 8 * i) (leBytes 8 (p + q))))) ∧
      (j.done = 0 → g.nr < a + b → j.cmd = .geval y ∨ j.cmd = .glen y → ends .badDesc 0 s) ∧
      (j.cmd = .glook y →
        (g.nr ≤ a ∨ b % w ≠ 0 → ends .badDesc 0 s) ∧
        (a < g.nr → b % w = 0 → ∀ bs, engRead s reachTile (rrtAddr s g a) w = .ok bs → wrote .ok 1 reachTile b bs)) ∧
      (RecordStands j →
        let first := rfield rec_ 0 8
        let n := rfield rec_ 8 8
        let third := rfield rec_ 0x10 8
        let dest := rfield rec_ 0x18 8
        (∀ (seed : Bool) (sym val : Nat → Nat), j.cmd = .gspine seed y → g.matrix = false → third = 0 → dest % w = 0 →
          first + n ≤ gfield g 0x38 4 →
          (∀ k, k < n → symbolAt s g (gfield g 0x28 8) (first + k) = .ok (sym k) ∧ symVal s g (sym k) = .ok (val k)) →
          wrote .ok n reachTile dest (leBytes w ((List.range n).foldl (fun acc k => lift g.op g.rfmt acc (val k))
            (if seed then b % 2 ^ g.width else identity g.op g.rfmt)))) ∧
        (∀ (x len v : Nat), j.cmd = .gocc false y → g.matrix = false → g.rlt ≠ 0 → third = 0 → dest % 32 = 0 → n = 1 →
          first < gfield g 0x38 4 → symbolAt s g (gfield g 0x28 8) first = .ok x → checkedLen s g x = .ok len →
          let o := engWrite s reachTile dest (leBytes 4 x ++ leBytes 4 0 ++ leBytes 8 0 ++ leBytes 8 (b % 2 ^ g.width) ++ leBytes 8 len)
          o.2 = none → symVal o.1 g x (dest, dest + 32) = .ok v → ends .ok 1 o.1) ∧
        (∀ bs, j.cmd = .gunf false y → g.matrix = false → g.rlt ≠ 0 → first < 2 ^ 32 → first / 2 ^ 31 = 1 → badSymbol g first = false →
          engRead s reachTile (g.rlt + 8 * (first % 2 ^ 31)) 8 = .ok bs → 2 ^ 63 ≤ leNat bs → ends .badGrammar 0 s) ∧
        (∀ (len x : Nat), j.cmd = .gunf false y → g.matrix = false → g.rlt ≠ 0 → first < 2 ^ 32 → badSymbol g first = false →
          symLen s g first = .ok len →
          let t := fmtBits g.tfmt / 8
          (n = len → dest % t = 0 → dest ≤ 0x20000 → ends .ok 0 s) ∧
          (third = 1 → n < len → dest % t = 0 → dest + t ≤ 0x20000 →
            descend s g false (first % 2 ^ 31 + 2) first n 0 = .ok (x, 0) → wrote .ok 1 reachSpad dest (leBytes t x))) ∧
        (∀ (sym len x : Nat), j.cmd = .gloc y → g.matrix = false → g.rlt ≠ 0 → dest % 4 = 0 → first + n ≤ gfield g 0x38 4 →
          (n = 0 → ends .ok 0 s) ∧
          (1 ≤ n → symbolAt s g (gfield g 0x28 8) first = .ok sym → symLen s g sym = .ok len → third < len →
            descend s g false (sym % 2 ^ 31 + 2) sym third 0 = .ok (x, 0) → wrote .ok 1 reachTile dest (leBytes 4 x)))))

/-- R292, R293, R294, R295, R296, R298, R299, R300, R301, R303: what the reef unit and the neuron bank leave. RFMATCH binds the
handle to a map in which each unmerged A token, then each B token, has its destination in order and a merged one its partner's;
RFSHAKE copies each token's row back, RFMERGE a lone token's row and weighs those of several by size, RFLOGS writes the sizes'
logarithms; an unbound map ends NOT_BOUND, a lost one MAP_LOST, and RFMATCH binds a lost handle anew (log 32). NBCFG configures the bank; NBPOST sends an event on or ends PROT; NBADV
passes steps without events and adds an event's weight to its neuron's leaked potential; NBRD and NBWR copy records, NBSPK takes the
output ring's. What a spilled event leaves in device memory is free (log 33), and an event sent to another bank is noted as a message
(log 49). -/
def Obligations.ReefAndNeuronResults : Prop :=
  ∀ (s : State) (id : Nat) (j : Job) (others : List CredShare), MemoryInv s → Unhindered s id j →
    let a := j.a.toNat
    let b := j.b.toNat
    let ends (code : StatusCode) (n : Nat) (p : State → Prop) : Prop := EndsWith s id others j code n p
    (∀ (q : Fin 4) (r : MatchRec) (kb sb : List Byte), j.cmd = .rfmatch q → RecordStands j → matchRec j.record = some r →
      ((∃ n m o, getReef s j.ctx q = .bound n m o) → ends .badDesc 0 fun u => u.mem = s.mem) ∧
      ((∀ n m o, getReef s j.ctx q ≠ .bound n m o) → engRead s reachSpad r.keys (2 * r.d * r.n) = .ok kb →
        (r.sized = true → engRead s reachSpad r.sizes (2 * r.n) = .ok sb) →
        let size (t : Nat) : Nat := if r.sized then rfield sb (2 * t) 2 else 1
        let key (t : Nat) := (List.range r.d).map fun i => fval .bf16 (rfield kb (2 * (r.d * t + i)) 2)
        let merges := mergesOf r.d r.r ((List.range r.n).map key)
        let merged (t : Nat) : Bool := merges.any fun m => decide (m.1 = t)
        let unmerged := (List.range r.n).filter fun t => decide (t % 2 = 0) && !merged t
        let place_ (t : Nat) : Nat := if t % 2 = 1 then unmerged.length + t / 2 else (unmerged.filter fun u => decide (u < t)).length
        let dest (t : Nat) : Nat := match merges.find? fun m => decide (m.1 = t) with
          | some m => place_ m.2
          | none => place_ t
        (∀ t, t < r.n → size t ≠ 0) →
        (∀ d : Nat, ((List.range r.n).map fun (t : Nat) => bif dest t == d then size t else 0).sum ≤ 65535) →
        ends .ok merges.length fun u => getReef u j.ctx q = .bound r.n (r.n - merges.length) r.map ∧
          ∀ t, t < r.n → readBytes u (r.map + 4 * t) 4 = leBytes 4 (dest t + size t * 2 ^ 16))) ∧
    (∀ (q : Fin 4), (j.cmd = .rfmerge q ∨ j.cmd = .rfshake q ∨ j.cmd = .rflogs q) →
      (getReef s j.ctx q = .unbound → ends .notBound 0 fun u => u.mem = s.mem) ∧
      (getReef s j.ctx q = .lost → ends .mapLost 0 fun u => u.mem = s.mem)) ∧
    (∀ (q : Fin 4) (n m : Nat) (dests sizes : List Nat), mapOf s j.ctx q = .ok (n, m, dests, sizes) → RecordStands j →
      let row (u : State) (r : MergeRec) (base t : Nat) := readBytes u (base + t * r.e * r.width) (r.e * r.width)
      let readable (r : MergeRec) (rows : Nat) : Prop := ∃ bs, engRead s reachSpad r.src (rows * r.e * r.width) = .ok bs
      (∀ r, j.cmd = .rfshake q → mergeRec j.record m n = some r → readable r m → r.dst + n * r.e * r.width ≤ 0x20000 →
        ends .ok n fun u => ∀ t, t < n → row u r r.dst t = row s r r.src (dests.getD t 0)) ∧
      (∀ r, j.cmd = .rfmerge q → mergeRec j.record n m = some r → r.sizes = false → readable r n →
        r.dst + m * r.e * r.width ≤ 0x20000 →
        ends .ok m fun u => ∀ d, d < m →
          let toks := (List.range n).filter fun t => decide (dests.getD t 0 = d)
          let order := (toks.filter fun t => decide (t % 2 = 1)) ++ toks.filter fun t => decide (t % 2 = 0)
          let f : FFmt := if r.fmt = 0x09 then .f32 else .bf16
          let x (t i : Nat) : FVal := fmul (ofInt (sizes.getD t 0)) (fval f (leNat (((row s r r.src t).drop (i * r.width)).take r.width)))
          (∀ t, order = [t] → row u r r.dst d = row s r r.src t) ∧
          (∀ t rest, order = t :: rest → rest ≠ [] → ∀ i, i < r.e →
            ((row u r r.dst d).drop (i * r.width)).take r.width = leBytes r.width
              (rne f (fdiv 24 (rest.foldl (fun acc t => r32 (fadd acc (x t i))) (r32 (x t i)))
                (ofInt (order.map fun t => sizes.getD t 0).sum))))) ∧
      (j.cmd = .rflogs q → a + 4 * m ≤ 0x20000 → ends .ok m fun u => ∀ d, d < m → readBytes u (a + 4 * d) 4 =
        leBytes 4 (log2Of ((List.range n).map fun t => if dests.getD t 0 = d then sizes.getD t 0 else 0).sum))) ∧
    (let bank := s.clu.bank
     (j.cmd = .nbcfg → ∀ d, engRead s reachLocal a 576 = .ok d →
       (configOk d = false → ends .badDesc 0 fun u => u.clu.bank = bank) ∧
       (configOk d = true → ends .ok 1 fun u => (bank.held = [] → u.mem = s.mem) ∧ u.clu.bank.configured = true ∧ u.clu.bank.config = d ∧
         u.clu.bank.c = rfield d 0x220 4 ∧ u.clu.bank.late = bank.late ∧
         (rfield d 0x224 4 = 1 → bank.held = [] → u.clu.bank.pending = [] ∧ u.clu.bank.spill = [] ∧ u.clu.bank.outCount = 0))) ∧
     (j.cmd ∈ [.nbpost, .nbadv, .nbrd, .nbwr, .nbspk] → bank.configured = false → ends .notBound 0 fun u => u.mem = s.mem) ∧
     (bank.configured = true → j.done = 0 →
       (∀ w, j.cmd = .nbpost → b = 1 → engRead s reachSpad a 8 = .ok (leBytes 8 w) → w < 2 ^ 64 →
         let to_ := w / 2 ^ 47
         let e : NbEvent := { word := BitVec.ofNat 64 w, srcBank := ownBank s, srcNeur := 4096 + s.core.cix, pos := bank.posted }
         (to_ ≠ ownBank s → bankInDomain s to_ = true → ends .ok 1 fun u => u.mem = s.mem ∧
           u.mod.messages = s.mod.messages ++ [(to_, w)] ∧ u.clu.bank.posted = bank.posted + 1) ∧
         (to_ ≠ ownBank s → bankInDomain s to_ = false → ends .prot 0 fun u => u.clu.bank = bank) ∧
         (to_ = ownBank s → bank.pending.length + bank.tardy.length < 4096 → ends .ok 1 fun u =>
           { step := evStep e bank.c, ev := e } ∈ u.clu.bank.pending ++ u.clu.bank.tardy)) ∧
       (j.cmd = .nbadv → bank.closed = false → bank.tardy = [] → bank.spill = [] → bank.held = [] →
         (bank.pending = [] → ends .ok 0 fun u => u.clu.bank.c = max bank.c a ∧ u.mem = s.mem) ∧
         ∀ (e : Stored) (w : Nat), bank.pending = [e] → bank.touched = [] → (bank.c : Int) ≤ e.step → e.step < (a : Int) → a < 2 ^ 32 →
           let t := e.step.toNat
           let n := neuronLoc + 16 * evNeuron e.ev
           engRead s reachLocal (bank.field 0x200 8 + 4 * evWeight e.ev) 4 = .ok (leBytes 4 w) → w < 2 ^ 32 →
           let pp := readLoc s (n + 12) 4 % 16
           let leak := leakPower 32 ((t + 2 ^ 32 - readLoc s (n + 4) 4) % 2 ^ 32) (ofInt 1) (fval .f32 (bank.field (32 * pp) 4))
           let v0 := rne .f32 (fmul leak (fval .f32 (readLoc s n 4)))
           let v := rne .f32 (fadd (fval .f32 v0) (fval .f32 w))
           ¬ (readLoc s (n + 8) 4 ≤ t ∧ fle (fval .f32 (bank.field (32 * pp + 4) 4)) (fval .f32 v) = true) →
           ends .ok 1 fun u => u.clu.bank.c = a ∧ u.clu.bank.pending = [] ∧ readLoc u n 4 = v ∧ readLoc u (n + 4) 4 = t ∧
             ∀ l, ¬ (n ≤ l ∧ l < n + 8) → Memory.get u.mem l = Memory.get s.mem l) ∧
       (let first := neuronLoc + 16 * (b % 2 ^ 12)
        let n := b / 2 ^ 12
        (j.cmd = .nbrd → a + 16 * n ≤ 0x20000 → ends .ok n fun u => readBytes u a (16 * n) = readBytes s first (16 * n)) ∧
        (j.cmd = .nbwr → ∀ bs, engRead s reachSpad a (16 * n) = .ok bs →
          ((∃ i, i < n ∧ 16 ≤ rfield bs (16 * i + 12) 4) → ends .badDesc 0 fun u => u.mem = s.mem) ∧
          ((∀ i, i < n → rfield bs (16 * i + 12) 4 < 16) → ends .ok n fun u => readBytes u first (16 * n) = bs))) ∧
       (j.cmd = .nbspk → (bank.outCount = 0 → ends .ok 0 fun u => u.mem = s.mem) ∧
         (b = 1 → 1 ≤ bank.outCount → a + 8 ≤ 0x20000 → ∀ bs, engRead s reachHbm (bank.field 0x218 8 + 8 * bank.outPos) 8 = .ok bs →
           ends .ok 1 fun u => readBytes u a 8 = bs ∧ u.clu.bank.outCount = bank.outCount - 1 ∧
             u.clu.bank.outPos = (bank.outPos + 1) % bank.field 0x214 4))))

/-! ### Engine commands (R35, R230 to R244, R255, R271 to R273) -/

/-- R243, R244, R299, R300, R311, R320: a remote tile command that arrives enters the queue when its capability is good and is answered
CAP_REJECT when it is not, BAD_DESC when it is none of the five, POISON by a sealed or fenced core (log 68), once what happens before it
has been applied (R210, R212; log 83); the model notes an answer
to another core as a message (log 49). A neuron event is stored in its step's order, spilled when the store is full, and held when both
are. A spilled event takes one of the ring's entries in device memory; which one and what bytes it gets are free, and where the ring
cannot be written the event is held (log 33). -/
def Obligations.ArrivingCommandsAndEvents : Prop :=
  (∀ (s : State) (r : TremCmd),
    let o := observeTick s
    let answers (o : State) (code : Nat) : Prop :=
      let w := 2 ^ 63 + 2 ^ 62 + code * 2 ^ 56 + 2 ^ 48
      exec (.tremCommandArrival r) s = .next { o with mod := { o.mod with
        messages := o.mod.messages ++ [(r.origin, w)], outbox := o.mod.outbox ++ [(2, r.origin, w)] } }
    (clockSeen s r.clock = false → exec (.tremCommandArrival r) s = .refused .eventNotEnabled) ∧
    (clockSeen s r.clock = true → s.core.sealed = true ∨ s.core.fenced = true → answers s 4) ∧
    (clockSeen s r.clock = true → s.core.saving = false → s.core.sealed = false → s.core.fenced = false → s.clu.jobs.length + s.clu.others < 32 →
      (remCommand r.cmd r.opb.toNat = none → answers o 13) ∧
      ∀ c, remCommand r.cmd r.opb.toNat = some c →
        let good := capNamesMe o r.cap.toNat = true ∧ capRejected o r.cap.toNat r.srcMod (remAcc c) = false
        (¬ good → answers o 11) ∧
        (good → ∃ t j, exec (.tremCommandArrival r) s = .next t ∧ t.clu.jobs = s.clu.jobs ++ [j] ∧ j.cmd = c ∧ j.a = r.opa ∧
          j.b = r.opb ∧ j.remote = some r.origin ∧ j.started = false ∧ t.ctxs = s.ctxs ∧ t.mem = s.mem))) ∧
  ∀ (s : State) (e : NbEvent), evBank e = ownBank s → s.core.launch.isSome = true → s.clu.bank.held = [] →
    let b := s.clu.bank
    let x : Stored := { step := evStep e b.c, ev := e }
    let full := 4096 ≤ b.pending.length + b.tardy.length
    let spillFull := b.field 0x210 4 ≤ b.spill.length
    let kept (t : State) : Prop := exec (.nbEventArrival e) s = .next t ∧ t.mem = s.mem ∧ t.ctxs = s.ctxs ∧ t.core = s.core
    (¬ full → ∃ t, kept t ∧ t.clu.bank.held = [] ∧ t.clu.bank.spill = b.spill ∧
      (x ∈ t.clu.bank.pending ∧ t.clu.bank.pending.length = b.pending.length + 1 ∧ t.clu.bank.tardy = b.tardy ∨
       t.clu.bank.tardy = b.tardy ++ [x] ∧ t.clu.bank.pending = b.pending)) ∧
    (full → ¬ spillFull → ∃ (k : Nat) (bs : List Byte), k < b.field 0x210 4 ∧ bs.length = 8 ∧
      let v := engWrite s reachHbm (b.field 0x208 8 + 8 * k) bs
      (v.2 = none → ∃ t, exec (.nbEventArrival e) s = .next t ∧ t.mem = v.1.mem ∧ t.clu.bank = { b with spill := b.spill ++ [x] }) ∧
      (v.2 ≠ none → ∃ t, kept t ∧ t.clu.bank = { b with held := [e] })) ∧
    (full → spillFull → ∃ t, kept t ∧ t.clu.bank = { b with held := [e] })

/-! ### Helpers and groups (R20 to R23, R326 to R329) -/

/-- R23, R52, R326 to R328: HSTART starts a helper at gs with its registers at their start values, HJOIN waits for a live helper
and returns what it ended with, HEND ends it once its jobs have ended; out of place each is ILLEGAL_OPERAND (log 42: a MISALIGNED of an
operand reports the operand in ADDR).
R20, R22, R329: GEND of the control context waits for its helpers and its jobs and then ends the group, and the next group
dealt to the core starts in the state that R20 gives. -/
def Obligations.HelperAndGroupResults : Prop :=
  (∀ (s : State) (slot : Fin 8) (gb ga gd : GReg), RegsFree s [gb, ga] [gd] →
     let a := getG s s.cur ga
     let wrong (i : Instr) : Prop := exec i s = .next (raise s s.cur { cls := .illegalOperand })
     let x := s.ctx s.cur
     (a.getLsbD 0 = true → exec (.hstart slot gb ga) s = .next (raise s s.cur { cls := .misaligned, addr := a })) ∧
     (a.getLsbD 0 = false → slot = 0 ∨ s.cur ≠ 0 ∨ (s.ctx slot).live = true → wrong (.hstart slot gb ga)) ∧
     (a.getLsbD 0 = false → slot ≠ 0 → s.cur = 0 → (s.ctx slot).live = false →
       ∃ t, exec (.hstart slot gb ga) s = .next t ∧ (t.ctx 0).pc = (s.ctx 0).pc + 4 ∧ MemoryKept s t ∧
         (t.ctx slot).live = true ∧ (t.ctx slot).pc = a ∧ (t.ctx slot).wait = none ∧
         (∀ r, getG t slot r = if r = 1 then getG s s.cur gb else 0) ∧ (∀ v, getV t slot v = 0) ∧
         (∀ j : Fin 8, (t.ctx slot).st[j.val] = 0x6D2B79F5#32 ^^^ BitVec.ofNat 32 j.val) ∧
         (∀ h, getHandle t slot h = none) ∧ ∀ c, c ≠ 0 → c ≠ slot → t.ctx c = s.ctx c) ∧
     (slot = 0 ∨ s.cur ≠ 0 → wrong (.hjoin slot gd)) ∧
     (slot ≠ 0 → s.cur = 0 →
       ((s.ctx slot).live = true → exec (.hjoin slot gd) s = waitFor s (.join slot)) ∧
       ((s.ctx slot).live = false → exec (.hjoin slot gd) s = .next (doneG s gd (s.ctx slot).exitVal 4))) ∧
     (s.cur = 0 → wrong (.hend ga)) ∧
     (s.cur ≠ 0 → hasJobs s s.cur = true → exec (.hend ga) s = waitFor s .helperEnd) ∧
     (s.cur ≠ 0 → hasJobs s s.cur = false → ∃ t, exec (.hend ga) s = .next t ∧ (t.ctx s.cur).live = false ∧
       (t.ctx s.cur).exitVal = a ∧ (t.ctx s.cur).g = x.g ∧ (∀ h, getHandle t s.cur h = none) ∧ (t.ctx s.cur).deps = [] ∧
       (∀ i : Fin 8, ∀ e, t.core.watch[i.val] = some e → e.owner ≠ s.cur) ∧ (∀ c, c ≠ s.cur → t.ctx c = s.ctx c) ∧
       MemoryKept s t)) ∧
  (∀ (s : State) (l : Launch),
     (s.cur ≠ 0 → exec .gend s = .next (raise s s.cur { cls := .illegalOperand })) ∧
     (s.cur = 0 → helperLive s = true ∨ hasJobs s 0 = true → exec .gend s = waitFor s .groupEnd) ∧
     (s.cur = 0 → helperLive s = false → hasJobs s 0 = false → ∃ t, exec .gend s = .next t ∧ t.core.groupLive = false ∧
       (t.ctx 0).live = false ∧ (∀ c, c ≠ 0 → t.ctx c = s.ctx c) ∧ MemoryKept s t) ∧
     (curLaunch s = some l → l.started = true → s.core.groupLive = false → s.core.frozen = false → s.core.saving = false →
       s.core.fenced = false → s.core.preempt = false → s.core.nextGroup < l.groups → 0 < l.n →
       ∃ t, exec .groupStart s = .next t ∧ t.cur = 0 ∧ t.core.groupLive = true ∧ t.core.groupId = s.core.nextGroup ∧
         t.core.nextGroup = s.core.nextGroup + l.n ∧ (t.ctx 0).live = true ∧ (t.ctx 0).pc = l.entry ∧ (t.ctx 0).wait = none ∧
         (∀ c, c ≠ 0 → (t.ctx c).live = false) ∧ (∀ c r, getG t c r = 0) ∧ (∀ c v, getV t c v = 0) ∧
         (∀ c, ∀ j : Fin 8, (t.ctx c).st[j.val] = 0x6D2B79F5#32 ^^^ BitVec.ofNat 32 j.val) ∧
         (∀ c h, getHandle t c h = none) ∧ t.icache = [] ∧ MemoryKept s t))

/-! ### Faults (R305 to R312, R330) -/

/-- R81, R305, R307, R311: taking a fault stops its context at the first form of its unit, freezes the core and sends one packet
that says what happened (log 42: what ADDR and INFO hold for a class is read from the rules of its access); no register changes and no
memory; UNCORRECTABLE also seals the core. -/
def Obligations.FaultEntry : Prop :=
  ∀ (s : State) (c : Fin 8) (f : Flt),
    let t := raise s c f
    t.core.frozen = true ∧ (t.ctx c).stopped = true ∧ (t.ctx c).pc = unitStart s c ∧ (t.ctx c).wait = none ∧
    t.core.unit = none ∧ (∀ d r, getG t d r = getG s d r) ∧ (∀ d v, getV t d v = getV s d v) ∧ t.mem = s.mem ∧
    t.tags = s.tags ∧ (f.block = none → t.descs = s.descs) ∧
    (t.core.sealed = true ↔ f.cls = .uncorrectable ∨ s.core.sealed = true) ∧
    ((f.cls ≠ .uncorrectable ∨ s.feQueue = []) →
      (∀ d, d ≠ c → t.ctx d = s.ctx d) ∧ t.mod.fseq = s.mod.fseq + 1 ∧
      ∃ p, (t.ctx c).packet = some p ∧ t.mod.inbox = s.mod.inbox ++ [p] ∧ p.cls = f.cls ∧ p.ctx = c ∧ p.info = f.info ∧
        p.pid = corePid s ∧ p.pc = unitStart s c ∧ p.addr = f.addr ∧ p.status = f.status ∧
        p.insn = (if f.cls = .watchdog then 0 else (s.ctx c).insn) ∧ p.group = BitVec.ofNat 32 s.core.groupId ∧
        p.job = BitVec.ofNat 32 (curJobId s) ∧ p.fseq = BitVec.ofNat 32 s.mod.fseq ∧
        p.votes = BitVec.ofNat 32 s.core.votes ∧ p.tick = (observeTick s).mod.tick ∧ p.launch = s.core.launch ∧ p.source = .context)

/-- R330: TRAP and BREAK take their faults, with the code in INFO, and TRAP with ga in STATUS.
R17, R34, R308, R309, R320: the masthead passes a packet that waits for an answer, an engine's miss and a router's fault to the
driver (log 55: the classes that wait are the model's reading) and applies the policy of the launch that the packet tells of to any
other, a restart only once that launch is on the core again (log 35; a step that must wait is refused, log 59); the driver lets a trapped context go on after its instruction, on
the core or in its record, or has the policy applied; a mapping that it supplies lets the context go on at its instruction, and an
engine's job try again.
R309: under policy 1 the group of a faulted core starts again from its kernel's entry, on a spare core of the region where one is
free, which of them the model leaves open (log 35), its core prepared as at a launch, at most three times and not after a
synchronising instruction of it or of the other copy (log 76: what the other copy has retired is free). -/
def Obligations.FaultsAreAnswered : Prop :=
  (∀ (s : State) (code : BitVec 10) (ga : GReg), RegsFree s [ga] [] →
     exec (.trap code ga) s =
       .next (raise s s.cur { cls := .swTrap, info := code.zeroExtend 16, status := getG s s.cur ga }) ∧
     exec (.brk code) s = .next (raise s s.cur { cls := .brk, info := code.zeroExtend 16 })) ∧
  (∀ (s : State) (p : FaultPacket) (l : Launch) (va : Word) (id : Nat),
     let passed := { s with mod := { s.mod with inbox := [], driver := s.mod.driver ++ [p] } }
     let asks := p.cls = .swTrap ∨ p.cls = .brk
     let taken := { s with mod := { s.mod with driver := [] } }
     let policed (i : Instr) (pol : Nat) (q : State → Prop) : Prop := packetLaunch s p = some l → l.policy = pol →
       ∃ t, exec i s = .next t ∧ q t
     let reported (t : State) : Prop := t.mod.driver = [p] ∧ t.ctxs = s.ctxs ∧ t.core = s.core
     let ended (t : State) : Prop := t.mod.launches = s.mod.launches.map (fun k => if k.id = l.id then
         { l with ended := true, result := some (2, p.cls.code) } else k) ∧
       (if s.core.launch = p.launch then ∀ c, (t.ctx c).live = false else t.ctxs = s.ctxs)
     let goesOn (t : State) (skip : Nat) : Prop := (t.ctx p.ctx).stopped = false ∧
       (t.ctx p.ctx).pc = (s.ctx p.ctx).pc + BitVec.ofNat 64 skip ∧ t.core.frozen = false ∧ t.mod.driver = [] ∧
       (∀ c, c ≠ p.ctx → t.ctx c = s.ctx c) ∧ t.mem = s.mem
     let here := s.core.launch = p.launch
     let lone := here ∧ (∀ c, c ≠ p.ctx → (s.ctx c).stopped = false) ∧ s.core.sealed = false ∧ s.core.heldWrites = [] ∧ s.feQueue = []
     let goesOnSaved (t : State) (skip : Nat) : Prop := t.ctxs = s.ctxs ∧ t.core = s.core ∧ t.mod.driver = [] ∧
       t.saved.length = s.saved.length ∧ ∀ (i : Nat) (r : SavedCore), s.saved[i]? = some r → r.core.launch = p.launch → ∃ q, t.saved[i]? = some q ∧
         (q.ctxs[p.ctx.val]).stopped = false ∧ (q.ctxs[p.ctx.val]).pc = (r.ctxs[p.ctx.val]).pc + BitVec.ofNat 64 skip ∧ q.mem = r.mem
     (s.mod.inbox = [p] → endsStep p = false → waitsForAnswer p = true ∨ p.source ≠ .context →
       exec .faultPacket s = .next passed) ∧
     (s.mod.inbox = [p] → endsStep p = true → exec .faultPacket s = .next { s with mod := { s.mod with inbox := [] } }) ∧
     (s.mod.inbox = [p] → s.mod.driver = [] → endsStep p = false → waitsForAnswer p = false → p.source = .context →
       policed .faultPacket 2 reported ∧ policed .faultPacket 0 ended ∧
       (packetLaunch s p = some l → l.policy = 1 → ¬ here → exec .faultPacket s = .refused .eventNotEnabled)) ∧
     (s.mod.driver = [p] →
       (asks → lone → ∃ t, exec .driverResumeFault s = .next t ∧ goesOn t 4) ∧
       (asks → ¬ here → ∃ t, exec .driverResumeFault s = .next t ∧ goesOnSaved t 4) ∧
       (asks → policed .driverApplyPolicy 2 reported ∧ policed .driverApplyPolicy 0 ended) ∧
       (p.source = .context → packetLaunch s p = some l → l.policy = 1 → ¬ here →
         (asks → exec .driverApplyPolicy s = .refused .eventNotEnabled) ∧ exec .driverAnswerTimeout s = .refused .eventNotEnabled) ∧
       (waitsForAnswer p = true → p.source = .context →
         policed .driverAnswerTimeout 2 reported ∧ policed .driverAnswerTimeout 0 ended) ∧
       (p.source = .engine id → exec .driverAnswerTimeout s = .next taken) ∧
       (p.cls = .pageFault → p.source = .context → jobWalk taken p.job.toNat va.toNat ≠ none →
         p.addr.toNat / 65536 = va.toNat / 65536 →
         (lone → ∃ t, exec (.pageMappingSupplied va) s = .next t ∧ goesOn t 0) ∧
         (¬ here → ∃ t, exec (.pageMappingSupplied va) s = .next t ∧ goesOnSaved t 0)) ∧
       (p.source = .engine id → p.cls = .pageFault → jobWalk taken p.job.toNat va.toNat ≠ none →
         p.addr.toNat / 65536 = va.toNat / 65536 → ∃ t, exec (.pageMappingSupplied va) s = .next t ∧
         t.ctxs = s.ctxs ∧ t.mem = s.mem ∧ t.mod.driver = [] ∧ ∀ j ∈ t.clu.jobs, j.id = id → j.missed = none))) ∧
  (∀ (s : State) (p : FaultPacket) (l : Launch), s.mod.inbox = [p] → endsStep p = false → waitsForAnswer p = false →
     p.source = .context → s.core.launch = p.launch → packetLaunch s p = some l → l.policy = 1 →
     (s.core.synced = false → s.core.restarts < 3 → (s.core.twin = none ∨ Config.twinSynced s.choice = false) → l.image = 0 →
       ∃ t, exec .faultPacket s = .next t ∧ t.core.restarts = s.core.restarts + 1 ∧ t.core.groupId = s.core.groupId ∧
         t.core.frozen = false ∧ t.core.sealed = false ∧ t.cur = 0 ∧ (t.ctx 0).live = true ∧ (t.ctx 0).pc = l.entry ∧
         (t.ctx 0).stopped = false ∧ (∀ c, c ≠ 0 → (t.ctx c).live = false) ∧ (∀ c r, getG t c r = 0) ∧ t.mod.inbox = [] ∧
         t.core.lid = s.core.lid ∧ (∀ i, i < 0x20000 → Memory.get t.mem i = 0) ∧
         (∀ i, 0x40000 ≤ i → Memory.get t.mem i = Memory.get s.mem i) ∧
         (corePid t = corePid s ∨ ∃ q, q ∈ regionCores s ∧ corePid t = q ∧ q ≠ corePid s ∧
           ((if s.core.second then l.n + s.core.lid else s.core.lid) < l.domain.length →
             ∃ k ∈ t.mod.launches, k.id = l.id ∧ q ∈ k.domain))) ∧
     (s.core.synced = true ∨ 3 ≤ s.core.restarts →
       ∃ t, exec .faultPacket s = .next t ∧ (∀ c, (t.ctx c).live = false) ∧ t.mod.launches = s.mod.launches.map fun k =>
         if k.id = l.id then { l with ended := true, result := some (2, p.cls.code) } else k))

/-- R306, R310, R312: what the debug window does to a core: freeze, seal, unseal, step, the end of the step (log 36: its BREAK bears no
instruction word), resume, which skips a TRAP or BREAK and has no effect on a core that is sealed, not frozen, or stopped at a class
with no resumption (log 55: that a resume of a sealed core has no effect is the model's reading), and its writes of data, tags and registers, which take effect on a frozen core alone, the registers' when the core
resumes; all but DBG_STAT reads 0 while the core is not frozen.
R60, R142, R145, R227, R311: a soft error of one flipped bit in a word with check bits changes nothing, one of two bits poisons it, as
it does a weight-buffer line, of which each 64-bit word has its own; one in a register poisons the register, one flipped bit of a descriptor breaks its parity, one of a boltrope or of a tag poisons what
it strikes, one in a tile changes its bytes, and one in an execution waits for the unit that it strikes (log 48). -/
def Obligations.DebugAndSoftErrorResults : Prop :=
  (∀ (s : State) (v : Word) (w : Vec) (r : GReg) (c : Fin 8), MemoryInv s →
     let a := s.core.maddr.toNat
     let b := a / 8 * 8
     let writes (d : DbgReg) : Prop := exec (.debugRegisterWrite d w) s =
       .next { s with core := { s.core with heldWrites := s.core.heldWrites ++ [(s.core.ctxSel, d, w)] } }
     let hopeless := ∃ c p, (s.ctx c).stopped = true ∧ (s.ctx c).packet = some p ∧ p.cls ∈ [.pairMismatch, .illegalSync, .watchdog]
     let trapped := (s.ctx c).stopped = true ∧ ∃ p, (s.ctx c).packet = some p ∧ (p.cls = .swTrap ∨ p.cls = .brk) ∧ p.insn ≠ 0
     let goes (t : State) : Prop := t.core.frozen = false ∧ (t.ctx c).stopped = false ∧ t.mem = s.mem ∧
       (trapped → (t.ctx c).pc = (s.ctx c).pc + 4) ∧ (¬ trapped → (t.ctx c).pc = (s.ctx c).pc)
     (∃ t, exec .dbgFreeze s = .next t ∧ t.core.frozen = true ∧ t.mod = s.mod ∧ t.ctxs = s.ctxs ∧ t.mem = s.mem) ∧
     (s.feQueue = [] → ∃ t, exec .dbgSeal s = .next t ∧ t.core.frozen = true ∧ t.core.sealed = true ∧ t.ctxs = s.ctxs ∧
       t.mem = s.mem ∧ ∀ j ∈ t.clu.jobs, j.started = false → j.status.isSome = true) ∧
     (s.core.arriving = [] → ∃ t, exec .dbgUnseal s = .next t ∧ t.core.sealed = false ∧ (t.ctx c).poisoned = [] ∧
       (∀ g ∈ t.poison, 0x20000 ≤ 8 * g) ∧ (∀ d ∈ t.badParity, 0x20000 ≤ 64 * d) ∧
       ∀ i, (∀ g ∈ s.poison, i / 8 ≠ g) → Memory.get t.mem i = Memory.get s.mem i) ∧
     (s.core.frozen = false ∨ s.core.sealed = true ∨ hopeless → exec .dbgResume s = .next s ∧ exec .dbgStep s = .next s) ∧
     (s.core.frozen = true → s.core.sealed = false → ¬ hopeless → s.core.heldWrites = [] → s.feQueue = [] →
       (∃ t, exec .dbgResume s = .next t ∧ goes t ∧ ∀ r, getG t c r = getG s c r) ∧
       ∃ t, exec .dbgStep s = .next t ∧ goes t ∧ t.core.stepping = some s.core.ctxSel ∧ t.core.stepDone = false ∧
         t.cur = s.core.ctxSel) ∧
     (s.core.frozen = true → s.core.sealed = false → ¬ hopeless → s.core.heldWrites = [(c, .g r, w)] → s.feQueue = [] →
       isPending s c r = false →
       ∃ t, exec .dbgResume s = .next t ∧ (r ≠ 0 → getG t c r = w.truncate 64) ∧ t.core.heldWrites = []) ∧
     (s.core.stepping = some c → s.core.stepDone = true → s.core.unit = none →
       ∃ t p, exec .debugStepBreak s = .next t ∧ (t.ctx c).packet = some p ∧ p.cls = .brk ∧ p.info = 0x3FF ∧ p.insn = 0 ∧
         t.core.frozen = true ∧ (t.ctx c).pc = (s.ctx c).pc) ∧
     (s.core.frozen = false → exec (.dbgMdataWrite v) s = .next s ∧ exec (.debugRegisterWrite .pc w) s = .next s ∧
       ∀ off, off ≠ 8 → dbgRead s off = 0) ∧
     (s.core.frozen = true →
       writes .pc ∧ writes (.l 0) ∧ writes (.k c) ∧ writes (.st c) ∧ writes (.h c) ∧
       (isPending s s.core.ctxSel r = false → writes (.g r)) ∧
       exec (.debugRegisterWrite .maddr w) s = .next { s with core := { s.core with maddr := w.truncate 64 } } ∧
       (a < 0x20000 → ∃ t, exec (.dbgMdataWrite v) s = .next t ∧ readLoc t b 8 = v.toNat ∧ t.tags = s.tags ∧
         ∀ i, (i < b ∨ b + 8 ≤ i) → Memory.get t.mem i = Memory.get s.mem i) ∧
       (0x30000 ≤ a → a < 0x38000 → ∃ t, exec (.dbgMdataWrite v) s = .next t ∧ t.mem = s.mem ∧
         ∀ k, k ∈ t.tags ↔ if k = a - 0x30000 then v.getLsbD 0 = true else k ∈ s.tags) ∧
       dbgRead s 0x18 = BitVec.ofNat 64 s.core.votes ∧ dbgRead s 0x20 = s.core.maddr ∧
       dbgRead s 0x400 = (s.ctx s.core.ctxSel).pc)) ∧
  (∀ (s : State) (g b : Nat) (f : Word) (d : BitVec 16) (c : Fin 8) (r : GReg) (v : VCode) (x : BitVec 512) (loc t k : Nat)
     (y : Byte) (z : Strike) (a : Bool), MemoryInv s → 8 * g < 0x20000 →
     let next (t : SoftTarget) (p : State → Prop) : Prop := ∃ u, exec (.softError t) s = .next u ∧ p u
     let same (t : SoftTarget) : Prop := exec (.softError t) s = .next s
     (popCount f ≤ 1 → same (.spadData g f a)) ∧
     (popCount f = 2 → next (.spadData g f a) fun u => g ∈ u.poison ∧ u.mem = s.mem ∧ u.ctxs = s.ctxs) ∧
     (64 * b < 0x20000 → popCount d % 2 = 1 → next (.spadDesc b d) fun u => descOf u b = descOf s b ^^^ d ∧
       (u.badParity.contains b = !s.badParity.contains b) ∧ u.mem = s.mem) ∧
     (r ≠ 0 → next (.gReg c r) fun u => RegName.g r ∈ (u.ctx c).poisoned ∧ u.mem = s.mem ∧ u.core = s.core) ∧
     next (.vReg c v) (fun u => RegName.vec v ∈ (u.ctx c).poisoned ∧ u.mem = s.mem ∧ u.core = s.core) ∧
     (64 * b < hbmSize → popCount x + popCount d ≤ 1 → same (.hbmLine b x d a)) ∧
     (64 * b < hbmSize → popCount x + popCount d = 2 → next (.hbmLine b x d a) fun u =>
       (descOf u (hbmLoc / 64 + b)).toNat % 256 = 0xFF ∧ u.mem = s.mem) ∧
     (b < 1024 → (∀ i, i < 8 → popCount (flipWord x i) ≤ 1) → same (.wline b x a)) ∧
     (b < 1024 → (∃ i, i < 8 ∧ popCount (flipWord x i) = 2) → next (.wline b x a) fun u => (wline u b).poison = true ∧ u.mem = s.mem) ∧
     (accOfLoc loc ≠ none → next (.tile loc y) fun u => Memory.get u.mem loc = Memory.get s.mem loc ^^^ y ∧
       ∀ i, i ≠ loc → Memory.get u.mem i = Memory.get s.mem i) ∧
     (t < 68 → k < 256 → popCount y % 2 = 1 → next (.boltrope t k y a) fun u => boltBroken u t = true ∧ u.mem = s.mem) ∧
     (loc < 0x8000 → next (.tag loc a true) fun u => tagGranule loc ∈ u.poison ∧ u.tags = s.tags ∧ u.mem = s.mem) ∧
     exec (.softError (.execution z)) s = .next { s with upsets := s.upsets ++ [z] })

/-! ### Requests of other agents (R17, R183, R187, R190, R212, R311, R313) -/

/-- R17, R183, R187, R212, R311, R322, R356: another agent's write is applied once every write that its clock puts before it has been,
unless the core is sealed or fenced, and dropped when it bears a retired job's identifier; a walk that ends well lets later accesses translate, and one that does not is PAGE_FAULT; a
host completion lets its context go on or is PROT_FAULT; an error reply to a full/empty request at a peer is PEER_SEALED, one to an
engine job ends it with POISON. The model's choices: what a clock's component counts (log 83), which context a failed walk stops (log
47), that an event which cannot happen is refused (log 59).
R306, R307, R313: in a paired launch a store that leaves the core, or a contribution to a barrier or an exchange, waits for the other
copy's hash; an equal one lets it go on, and an
unequal or missing one is PAIR_MISMATCH; so do a job's writes and messages outside the scratchpad, whose fault names the
command's first prefix and word, and the job ends no sooner. That a job's writes have one hash for each 64 bytes, in order, is the
model's choice (log 15). -/
def Obligations.RequestAndPairAnswers : Prop :=
  (∀ (s : State) (loc : Nat) (w : DieWrite) (va : Word) (c : Fin 8) (a : Word) (peer : BitVec 32) (j : Job),
     let raised (i : Instr) (d : Fin 8) (f : Flt) : Prop := exec i s = .next (raise s d f)
     let applied (t : State) (k : Nat) : Nat := t.mod.applied.toList.getD k 0
     let open_ := s.core.sealed = false ∧ s.core.fenced = false
     let seen := ∀ k, k < 12 → k ≠ w.die → w.clock.getD k 0 ≤ applied s k
     let here := loc + w.bytes.length ≤ 0x20000
     let done (p : State → Prop) : Prop := ∃ t, exec (.writeApply loc w) s = .next t ∧ t.mem = (store s loc w.bytes).mem ∧
       t.tags = (store s loc w.bytes).tags ∧ (MemoryInv s → readBytes t loc w.bytes.length = w.bytes) ∧ p t
     (here → open_ → seen → dropped s w.job = false →
       (12 ≤ w.die → done fun t => t.mod.applied = s.mod.applied) ∧
       (w.die < 12 → w.clock.getD w.die 0 = applied s w.die + 1 →
         done fun t => applied t w.die = applied s w.die + 1 ∧ ∀ k, k ≠ w.die → applied t k = applied s k)) ∧
     (here → open_ → seen → dropped s w.job = true → (w.die < 12 → w.clock.getD w.die 0 = applied s w.die + 1) →
       ∃ t, exec (.writeApply loc w) s = .next t ∧ t.mem = s.mem ∧ t.tags = s.tags ∧ t.ctxs = s.ctxs) ∧
     (¬ seen ∨ (w.die < 12 ∧ w.clock.getD w.die 0 ≠ applied s w.die + 1) → exec (.writeApply loc w) s = .refused .eventNotEnabled) ∧
     (here → w.bytes ≠ [] → ¬ open_ → exec (.writeApply loc w) s = .refused .eventNotEnabled) ∧
     (∀ l, walk s va.toNat = some l → ∃ t m, exec (.pageWalk va) s = .next t ∧ translation t va.toNat = some m ∧
       leafLoc m va.toNat = leafLoc l va.toNat ∧ m.w = l.w ∧ m.pk = l.pk ∧ m.pr = l.pr ∧ m.host = l.host ∧ t.mem = s.mem ∧
       t.ctxs = s.ctxs ∧ t.core = s.core) ∧
     (walk s va.toNat = none → awake s s.cur = true → raised (.pageWalk va) s.cur { cls := .pageFault, addr := va }) ∧
     ((s.ctx c).wait = some (.host a) →
       (∃ t, exec (.hostCompletion c false) s = .next t ∧ (t.ctx c).wait = none ∧ (t.ctx c).expired = true ∧
         (t.ctx c).pc = (s.ctx c).pc ∧ t.mem = s.mem ∧ ∀ d, d ≠ c → t.ctx d = s.ctx d) ∧
       raised (.hostCompletion c true) c { cls := .protFault, addr := a }) ∧
     ((s.ctx c).live = true → (s.ctx c).stopped = false → (∃ q ∈ s.feQueue, gwinLoc ≤ q.loc ∧ ∃ g n, q.origin = .own c g n) →
       raised (.errorReply (.context c) peer) c { cls := .peerSealed, addr := peer.zeroExtend 64 }) ∧
     (findJob s j.id = some j → running j = true → ∃ t k, exec (.errorReply (.job j.id) peer) s = .next t ∧
       findJob t j.id = some k ∧ k.status.map Prod.fst = some .poison ∧ k.sreg = j.sreg ∧ k.ctx = j.ctx)) ∧
  (∀ (s : State) (x : MemG) (runs : List (Nat × Nat)) (c : Fin 8) (hash : Word) (twin : BitVec 32) (j : Job) (level : Fin 5)
     (storage : Storage),
     let a := (getG s s.cur x.base + BitVec.ofInt 64 (x.disp.toInt * 8)).toNat
     let waits (c : Fin 8) : Prop := (s.ctx c).wait = some .pair
     let bears (c : Fin 8) : Prop := waits c ∧ (s.ctx c).pairHash = some hash
     let jobBears (k : Job) : Prop := k ∈ s.clu.jobs ∧ awaitsTwin s k = true ∧ jobHash s k = hash
     let unborne := (∀ d, ¬ bears d) ∧ ∀ k, ¬ jobBears k
     let mismatch (c : Fin 8) (i : Instr) (ok : FaultPacket → Prop) : Prop := ∃ t p, exec i s = .next t ∧ (t.ctx c).packet = some p ∧
       p.cls = .pairMismatch ∧ p.addr = twin.zeroExtend 64 ∧ t.core.frozen = true ∧ t.mem = s.mem ∧ ok p
     let ofCommand (p : FaultPacket) : Prop := p.pc = j.pc ∧ p.insn = j.word
     (RegsFree s [x.base, x.reg] [] → a % 8 = 0 → checkWrite s a 8 = .ok runs → s.core.twin.isSome = true →
       leavesCore s a = true → (s.ctx s.cur).pairOk = false →
       ∃ t, exec (.sx x) s = .next t ∧ (t.ctx s.cur).wait = some .pair ∧ (t.ctx s.cur).pairHash.isSome = true ∧ t.mem = s.mem) ∧
     (s.core.twin.isSome = true → (s.ctx s.cur).pairOk = false → (s.ctx s.cur).contributed = false →
       let contributes (i : Instr) : Prop := ∃ t, exec i s = .next t ∧ (t.ctx s.cur).wait = some .pair ∧
         (t.ctx s.cur).pairHash.isSome = true ∧ (t.ctx s.cur).contributed = false ∧ t.mem = s.mem
       (syncRefused s level = false → s.core.phase = none → contributes (.bsync level storage)) ∧
       (s.cur = 0 → s.core.phase.isSome = true → s.core.aborted = false → contributes (.xend storage))) ∧
     (bears c → (∀ d, bears d → d = c) → ∃ t, exec (.pairHashArrival hash twin) s = .next t ∧ (t.ctx c).wait = none ∧
       (t.ctx c).pairOk = true ∧ t.mem = s.mem ∧ ∀ d, d ≠ c → t.ctx d = s.ctx d) ∧
     (waits c → (∀ d, d < c → ¬ waits d) → (unborne → mismatch c (.pairHashArrival hash twin) fun _ => True) ∧
       mismatch c (.pairHashTimeout twin) fun _ => True) ∧
     (findJob s j.id = some j → awaitsTwin s j = true → ∀ l, exec (.jobCompletion j.id l) s = .refused .eventNotEnabled) ∧
     ((∀ d, ¬ bears d) → findJob s j.id = some j → jobBears j → (∀ k, jobBears k → k = j) →
       ∃ t, exec (.pairHashArrival hash twin) s = .next t ∧ findJob t j.id = some { j with agreed := j.agreed + 1 } ∧ t.mem = s.mem ∧
         t.ctxs = s.ctxs) ∧
     ((∀ d, ¬ waits d) → s.clu.jobs.find? (awaitsTwin s) = some j →
       (unborne → mismatch j.ctx (.pairHashArrival hash twin) ofCommand) ∧ mismatch j.ctx (.pairHashTimeout twin) ofCommand))

/-! ### Pre-emption (R122, R314 to R323) -/

/-- R314, R320: a pre-emption request waits for its core's contexts to park: PHINT parks with its descriptor while one is pending
and otherwise only restarts the run timer; contexts that still run after a freeze's limit are parked. The watchdog's three limits
ask for a pre-emption, raise WATCHDOG, and fence the core, whose own full/empty requests leave the queue; the second and third come after
the first. That the second may not have frozen the core (log 95), and that a step out of turn is refused (log 59), are the model's. -/
def Obligations.ParkingAndWatchdog : Prop :=
  ∀ (s : State) (index : BitVec 10) (runs : List (Nat × Nat)) (c : Fin 8),
    let a := (s.core.liveBase + BitVec.ofNat 64 (32 * index.toNat)).toNat
    let d := runsBytes s runs
    let stepped (t : State) : Prop := (t.ctx s.cur).pc = (s.ctx s.cur).pc + 4 ∧ (t.ctx s.cur).runTimer = 0 ∧
      (∀ c, c ≠ s.cur → t.ctx c = s.ctx c) ∧ MemoryKept s t ∧ ∀ r, getG t s.cur r = getG s s.cur r
    let runsNow := (s.ctx c).live = true ∧ (s.ctx c).parked = none ∧ (s.ctx c).stopped = false ∧ (s.ctx c).wait = none ∧
      s.core.frozen = false
    (s.core.launch.isSome = true →
      exec .preemptionRequest s = .next { s with core := { s.core with preempt := true } }) ∧
    (s.core.preempt = false → ∃ t, exec (.phint index) s = .next t ∧ stepped t ∧
      (t.ctx s.cur).parked = (s.ctx s.cur).parked) ∧
    (s.core.preempt = true → checkRead s a 32 = .ok runs → s.core.twin = none →
      (descriptorLegal d = true → ∃ t, exec (.phint index) s = .next t ∧ stepped t ∧
        (t.ctx s.cur).parked = some (.phint d)) ∧
      (descriptorLegal d = false → exec (.phint index) s = .next (raise s s.cur { cls := .illegalOperand }))) ∧
    (s.core.preempt = true → s.core.fromFreeze = true → s.core.unit = none → s.core.frozen = false →
      ∃ t, exec .forcedPark s = .next t ∧ MemoryKept s t ∧ (runsNow → (t.ctx c).parked = some .forced) ∧
        (t.ctx c).pc = (s.ctx c).pc ∧ ∀ r, getG t c r = getG s c r) ∧
    (runsNow →
      ((s.ctx c).runTimer < (limits s).1 → ∃ t, exec (.watchdogStep1 c) s = .next t ∧ t.core.preempt = true ∧
        (t.ctx c).runTimer = (limits s).1 ∧ t.mem = s.mem) ∧
      ((s.ctx c).runTimer < (limits s).1 → exec (.watchdogStep2 c) s = .refused .eventNotEnabled ∧
        exec (.watchdogStep3 c) s = .refused .eventNotEnabled) ∧
      ((limits s).1 ≤ (s.ctx c).runTimer → (s.ctx c).runTimer < (limits s).2.1 → ∃ t p, exec (.watchdogStep2 c) s = .next t ∧ (t.ctx c).packet = some p ∧
        p.cls = .watchdog ∧ p.info = 1 ∧ t.core.frozen = true ∧ t.mem = s.mem) ∧
      ((limits s).1 ≤ (s.ctx c).runTimer → ∃ t, exec (.watchdogStep3 c) s = .next t ∧ t.core.fenced = true ∧ t.mod.anyFenced = true ∧ t.mem = s.mem ∧
        (∀ r ∈ t.feQueue, ∃ x, r.origin = .remote x) ∧ t.mod.spaly.log.getLast?.map (fun r => r.event) = some .fenced))

/-- R314 to R316, R319, R321: a core whose contexts have parked is saved, each context with what its descriptor names and its pending
status registers, and is free; a core resumes from its record when no launch is served before it, its contexts awake and its jobs queued
again; a context whose save took too long is recorded as lost, what only it named is gone from the record, and it raises WATCHDOG when its
core resumes. The model's choices: what a
record keeps that no rule names (log 53), and that a YIELDX saved in its wait waits on (log 67). -/
def Obligations.SaveAndResumption : Prop :=
  ∀ (s : State) (c : Fin 8) (r : SavedCore), MemoryInv s →
    let x := s.ctx c
    let kept (y : Ctx) : Prop := y.pc = x.pc ∧ y.live = true
    let resumed (t : State) (e : Fin 8) : Prop :=
      let y := r.ctxs[e.val]
      y.live = true → (t.ctx e).live = true ∧ (t.ctx e).pc = y.pc ∧ (t.ctx e).g = y.g ∧ (t.ctx e).k = y.k ∧ (t.ctx e).v = y.v ∧
        (t.ctx e).l = y.l ∧ (t.ctx e).h = y.h ∧ (t.ctx e).pend = y.pend
    (s.core.preempt = true → preemptible s = true → s.core.launch.isSome = true → s.core.fenced = false →
      (∀ j ∈ s.clu.jobs, drains s j = false) →
      ∃ t q, exec .coreSave s = .next t ∧ t.saved = s.saved ++ [q] ∧ t.core.launch = none ∧ t.core.saving = true ∧
        t.clu.jobs = [] ∧ (∀ e, (t.ctx e).live = false) ∧ q.jobs.map (fun j => j.id) = s.clu.jobs.map (fun j => j.id) ∧
        (x.live = true → (∀ d, x.parked ≠ some (.phint d)) → kept q.ctxs[c.val] ∧ q.ctxs[c.val].g = x.g ∧
          q.ctxs[c.val].k = x.k ∧ q.ctxs[c.val].v = x.v ∧ q.ctxs[c.val].l = x.l ∧ q.ctxs[c.val].h = x.h ∧
          (∀ i, i < 0x20000 → Memory.get q.mem i = Memory.get s.mem i)) ∧
        (∀ d, x.live = true → x.parked = some (.phint d) → kept q.ctxs[c.val] ∧
          (∀ i : Fin 16, q.ctxs[c.val].g[i.val] =
            if bit (rfield d 0 2) i.val || (x.pend[i.val]).isSome then x.g[i.val] else 0) ∧
          (∀ i : Fin 8, q.ctxs[c.val].k[i.val] = if bit (rfield d 2 1) i.val then x.k[i.val] else 0) ∧
          (∀ i : Fin 20, q.ctxs[c.val].v[i.val] = if bit (rfield d 4 4) i.val then x.v[i.val] else 0) ∧
          ∀ i, i < 0x20000 → inRanges (liveRanges d) i = true → Memory.get q.mem i = Memory.get s.mem i)) ∧
    (s.saved.getLast? = some r → s.core.saving = true → (r.ctxs[c.val]).live = true → c ∉ r.lost →
      ∃ t q, exec (.saveCapExpiry c) s = .next t ∧ t.saved = s.saved.dropLast ++ [q] ∧ q.lost = r.lost ++ [c] ∧ q.jobs = r.jobs ∧
        (∀ e, e ≠ c → q.ctxs[e.val] = r.ctxs[e.val]) ∧ (q.ctxs[c.val]).pc = (r.ctxs[c.val]).pc ∧
        (∀ i : Fin 16, (q.ctxs[c.val]).g[i.val] = 0) ∧ (∀ i : Fin 8, (q.ctxs[c.val]).h[i.val] = none) ∧ (∀ x ∈ q.mem, x ∈ r.mem) ∧
        ((∀ e, e ≠ c → (r.ctxs[e.val]).live = false) → ∀ x ∈ q.mem, 0x20000 ≤ x.1)) ∧
    (s.saved = [r] → (∀ l ∈ s.mod.launches, r.core.launch = some l.id → mayServe s l = true) → s.core.launch = none →
      s.mod.frozen = false → s.core.fenced = false →
      (r.lost = [] → ∃ t, exec .coreResumption s = .next t ∧ t.saved = [] ∧ t.core.launch = r.core.launch ∧
        t.core.preempt = false ∧ t.core.lid = r.core.lid ∧ t.clu.jobs = r.jobs ++ s.clu.jobs ∧ (∀ e, resumed t e) ∧
        (∀ e, (r.ctxs[e.val]).live = true → (t.ctx e).wait = (if r.ctxs[e.val].wait = some .cycles then some .cycles else none) ∧ (t.ctx e).parked = none ∧ (t.ctx e).notice = true ∧
          (t.ctx e).runTimer = 0) ∧
        ∀ i, i < 0x20000 → Memory.get t.mem i = Memory.get r.mem i) ∧
      (r.lost = [c] → ∃ t p, exec .coreResumption s = .next t ∧ (t.ctx c).packet = some p ∧ p.cls = .watchdog ∧ p.info = 2))

/-! ### Launching (R22, R28, R286, R331 to R337) -/

/-- R331 to R336: the launch unit takes the packet at the head of a queue. Its tests come in the order of R336's table, and a record that
cannot be read is reason 9 where it is needed; a packet that keeps its terms is accepted with its operands; any other completes with
RESULT 1 and its reason, a no-op with RESULT 0; a header that is not well formed stops the queue and sets ERR bit 3. A completion
record that lies in one block bears the sequence number, RESULT, REASON and the tick. The model's choices: the reason of a DOMAIN that is
not 32-byte aligned or lies outside device memory, and of a SPADIMG on a page with HOST set (log 108). -/
def Obligations.LaunchPackets : Prop :=
  (∀ (s : State) (q : Nat) (k : LaunchQueue) (h : QHeader) (raw : List Byte), consumedQueue s q = some k →
    let compl := rfield raw 0x38 8
    let ends (i : Instr) (u : State) (result reason : Nat) : Prop := ∃ t, exec i s = .next t ∧
      t = takeSlot (completePacket u k.hdr k.job compl h.seq result reason) k h ∧ t.mod.launches = s.mod.launches ∧
      t.mod.nextId = s.mod.nextId
    (queueHead s k = .broken → ∃ t, exec (.launchPacket q) s = .next t ∧ t.mod.errReg.getLsbD 3 = true ∧
      t.mod.launches = s.mod.launches ∧ t.mem = s.mem ∧
      ∀ p ∈ t.mod.queues, p.hdr = k.hdr → p.job = k.job → p.stopped = true) ∧
    (queueHead s k = .packet h raw →
      let plain := rfield raw 4 4 = 0 ∧ rfield raw 8 48 = 0 ∧ compl % 8 = 0
      (rfield raw 4 4 % 8 = 0 → (plain → ends (.launchNoopPacket q) s 0 0) ∧ (¬ plain → ends (.launchNoopPacket q) s 1 1)) ∧
      (rfield raw 4 4 % 8 ≠ 0 →
        (∀ l, acceptLaunch (observeTick s) k h.seq raw = .ok l → ∃ t, exec (.launchPacket q) s = .next t ∧
          t.mod.launches = s.mod.launches ++ [l] ∧ t.mod.nextId = s.mod.nextId + 1 ∧
          (urgent (observeTick s) k l = true → t.core.preempt = true)) ∧
        ∀ e, acceptLaunch (observeTick s) k h.seq raw = .error e → ends (.launchPacket q) (observeTick s) 1 e))) ∧
  (∀ (s : State) (k : LaunchQueue) (seq : Nat) (raw : List Byte) (l : Launch),
    let flag (i : Nat) := bit (rfield raw 4 4) i
    let da := rfield raw 0x18 8
    let verdict := acceptLaunch s k seq raw
    let first := packetOk raw = true ∧ rfield raw 0x14 4 = k.job
    let featured := (flag 4 = true → accepted s 5 = true) ∧ (flag 5 = true → accepted s 9 = true)
    let size := if flag 6 then 4 else 8
    (packetOk raw = false → verdict = .error 1) ∧
    (packetOk raw = true → rfield raw 0x14 4 ≠ k.job → verdict = .error 2) ∧
    (first → ¬ featured → verdict = .error 3) ∧
    (first → featured → da % 32 ≠ 0 → verdict = .error 4) ∧
    (first → featured → da % 32 = 0 → jobRead s k.job da 32 = none → verdict = .error 9) ∧
    (∀ d, first → featured → da % 32 = 0 → regionOf da = .hbm → jobRead s k.job da 32 = some d →
      let count := rfield d 4 4
      let gang := rfield d 8 8
      let img := rfield d 0x10 8
      let len := rfield d 0x18 4
      let header := rfield d 0 1 = (if flag 6 then 2 else 1) ∧ rfield d 1 3 = 0 ∧ 0 < count ∧ rfield d 0x1C 4 = 0 ∧
        imageOk img len = true ∧ count ≤ 12 * 55296
      (gang ≠ 0 → accepted s 8 = false → verdict = .error 3) ∧
      ((gang = 0 ∨ accepted s 8 = true) →
        (¬ header → verdict = .error 4) ∧
        (header → jobRead s k.job (da + 32) (count * size) = none → verdict = .error 9) ∧
        ∀ es, header → jobRead s k.job (da + 32) (count * size) = some es →
          (domainCores s (flag 6) count es = none → verdict = .error 4) ∧
          ∀ cores, domainCores s (flag 6) count es = some cores →
            let n := if flag 4 then cores.length / 2 else cores.length
            let domain := 0 < n ∧ (flag 4 = true → cores.length % 2 = 0) ∧
              (∀ x ∈ domainDies (flag 6) count es, bit k.dies x = true) ∧ (img ≠ 0 → deviceMapped s k.job img = true)
            let wide := flag 3 = true → rfield raw 0x10 4 ≤ n
            let apart := flag 4 = true → ∀ i, i < n → 4 ≤ hops (cores.getD i 0) (cores.getD (n + i) 0)
            let timely := flag 5 = true → s.mod.tick.toNat < rfield raw 0x30 8
            let readable := (gang = 0 ∨ (jobRead s k.job gang 32).isSome) ∧ (img = 0 ∨ (jobRead s k.job img len).isSome)
            (¬ domain → verdict = .error 4) ∧ (domain → ¬ wide → verdict = .error 5) ∧
            (domain → wide → ¬ apart → verdict = .error 6) ∧ (domain → wide → apart → ¬ timely → verdict = .error 7) ∧
            (domain → wide → apart → timely → ¬ readable → verdict = .error 9) ∧
            (domain → wide → apart → timely → readable → ∃ l, verdict = .ok l ∧ l.domain = cores ∧ l.n = n ∧ l.image = img))) ∧
    (verdict = .ok l →
      first ∧ featured ∧ l.entry = BitVec.ofNat 64 (rfield raw 8 8) ∧
      l.groups = rfield raw 0x10 4 ∧ l.arg = BitVec.ofNat 64 (rfield raw 0x20 8) ∧
      l.live = BitVec.ofNat 64 (rfield raw 0x28 8) ∧ l.compl = rfield raw 0x38 8 ∧
      l.policy = rfield raw 4 4 / 2 ^ 7 % 4 ∧ l.block = rfield raw 4 4 / 2 ^ 9 % 2 ^ 13 ∧
      l.paired = flag 4 ∧ 0 < l.n ∧ l.job = k.job ∧ l.seq = seq ∧ l.started = false ∧ l.ended = false)) ∧
  ∀ (s : State) (job compl loc seq result reason : Nat), MemoryInv s → compl % 8 = 0 → compl % 64 ≤ 48 →
    jobLoc s job compl true = some loc →
    (∀ bs, bs.length = 12 → jobLoc (store (observeTick s) (loc + 4) bs) job compl true = some loc) →
    let t := writeRecord s job compl seq result reason
    readLoc t loc 4 = seq % 2 ^ 32 ∧ readLoc t (loc + 4) 1 = result % 256 ∧ readLoc t (loc + 5) 1 = reason % 256 ∧
      readLoc t (loc + 6) 2 = 0 ∧ readLoc t (loc + 8) 8 = t.mod.tick.toNat

/-- R20, R28, R120, R332, R337: a free core of an accepted launch's domain is prepared, with the image in its scratchpad and in its
peers', and granted when no launch is served before it; the launch starts at once, or when its tick and its gang's acceptances have
come in time; a gang that lacks one is rejected or killed; a launch that is done or ended leaves the launch unit and frees its core, once
what the core has written is acknowledged (R212, R348). On a frozen module no launch that has not started is rejected for its time or ends
(R346). When the peers are prepared, and whether another launch holds the cluster's bank, are the model's choices (log 79), as are that a
gang without a start tick starts at its grant (log 109) and that a step whose time has not come, such as the completion of a launch that
has not started, is refused (log 59).
R322, R323: a quantum moves each job's deficit by what it was due and what it used; a killed job whose places have all
acknowledged leaves the module with its queues, buffers and translations. A quantum's 850,000 core cycles are the model's choice (log 37). -/
def Obligations.LaunchLife : Prop :=
  (∀ (s : State) (id m : Nat) (l : Launch), s.mod.launches.find? (fun k => decide (k.id = id)) = some l →
     let i := l.domain.idxOf (corePid s)
     let bytes := launchImage s l
     let entry (t : State) (p : Launch → Prop) : Prop := ∀ k ∈ t.mod.launches, k.id = id → p k
     (MemoryInv s → s.core.launch = none → s.core.fenced = false → l.ended = false → l.granted = false → s.mod.frozen = false →
       i < l.domain.length → mayServe s l = true → l.n ≤ 2 ^ 20 →
       ∃ t, exec (.coreGrant id) s = .next t ∧ t.core.launch = some id ∧ t.core.lid = i % l.n ∧ t.core.liveBase = l.live ∧
         t.core.launchArg = l.arg ∧ t.core.groupCnt = l.groups ∧ t.core.nextGroup = i % l.n ∧
         t.core.dom = domRegs l (i % l.n) s.mod.modnum ∧ t.core.tolWide = 20 ∧ t.core.tolNarrow = 14 ∧
         t.core.gamma = 0x3F800000 ∧ (∀ c, (t.ctx c).live = false) ∧ t.core.feat = s.mod.featAcc ∧ t.core.modId = s.mod.modnum ∧
         (∀ j : Fin 64, t.core.tiles[j.val] = none) ∧ (∀ j : Fin 8, t.core.watch[j.val] = none) ∧
         (∀ a, a < 0x20000 → Memory.get t.mem a = bytes.getD a 0) ∧
         (∀ j a, j < l.n → j ≠ i % l.n → a < 0x20000 → Memory.get t.mem (gwinLoc + 0x20000 * j + a) = bytes.getD a 0) ∧
         (∀ a, a < 0x1000 → Memory.get t.mem (accLoc + a) = 0) ∧
         (Config.clusterBusy s.choice = false → t.clu.bank = { Bank.reset with held := s.clu.bank.held }) ∧
         (∀ w ∈ t.tags, 0x20000 ≤ 4 * w) ∧ (∀ b, b < 0x800 → descOf t b = 0) ∧
         entry t fun k => k.granted = true ∧ k.started = (l.started || l.startTick.isNone)) ∧
     (∀ tick, l.startTick = some tick → l.started = false → l.ended = false →
       (s.mod.frozen = false → gangReady s l = true → tick < 2 ^ 64 →
         ∃ t, exec (.launchStarttick id) s = .next t ∧ tick ≤ t.mod.tick.toNat ∧ entry t fun k => k.started = true) ∧
       (s.mod.frozen = false → gangReady s l = false → ∃ t, exec (.gangDeadline id) s = .next t ∧
         entry t fun k => k.ended = true ∧ k.result = some (1, 8)) ∧
       (l.result = none → exec (.launchCompletion id) s = .refused .eventNotEnabled)) ∧
     (m ∈ l.gang → m ∉ l.accepted →
       let late := s.mod.frozen = false ∧ ∃ tick, l.startTick = some tick ∧ tick ≤ s.mod.tick.toNat + 10000
       (¬ late → ∃ t, exec (.gangAcceptance m id) s = .next t ∧ entry t fun k => k.accepted = l.accepted ++ [m]) ∧
       (late → exec (.gangAcceptance m id) s = .next s)) ∧
     (l.ended = false → l.gang ≠ [] → ∃ t, exec (.gangWithdrawal id) s = .next t ∧
       (∀ r ∈ t.saved, r.core.launch ≠ some id) ∧
       entry t fun k => k.ended = true ∧ k.result = if l.started then some (3, 2) else some (1, 8)) ∧
     (l.result.isSome = true ∨ partDone s l = true →
       let acked := s.core.launch = some id → s.unacked = false
       let awake := s.mod.frozen = false ∨ l.started = true ∨ l.result.isSome = true
       (acked → awake → ∃ t, exec (.launchCompletion id) s = .next t ∧ (∀ k ∈ t.mod.launches, k.id ≠ id) ∧
         (s.core.launch = some id → (jobEntry s l.job).isSome = true → t.core.launch = none ∧ ∀ c, (t.ctx c).live = false)) ∧
       (¬ (acked ∧ awake) → exec (.launchCompletion id) s = .refused .eventNotEnabled))) ∧
  (∀ (s : State) (q : Charge) (job : Nat),
     (∃ t, exec (.quantumBoundary [q]) s = .next t ∧ t.mem = s.mem ∧ t.ctxs = s.ctxs ∧
       (s.core.launch = none → t.core.preempt = s.core.preempt) ∧
       t.mod.jobs = s.mod.jobs.map fun j => if q.job = j.id then
         { j with deficit := (if q.active then j.deficit + j.weight * q.cores * 850000 else 0) - q.coreCycles }
       else { j with deficit := 0 }) ∧
     ((∃ j ∈ s.mod.jobs, j.id = job ∧ j.retired = true) → (∀ l ∈ s.mod.launches, l.job ≠ job) →
       ∃ t, exec (.retirementAck job) s = .next t ∧ t.mem = s.mem ∧
         (∀ j, j ∈ t.mod.jobs ↔ j ∈ s.mod.jobs ∧ j.id ≠ job) ∧ (∀ k ∈ t.mod.queues, k.job ≠ job) ∧
         (∀ p ∈ t.mod.pubs, p.job ≠ job) ∧ (∀ e ∈ t.mod.tlb ++ t.clu.tlb, e.job ≠ job) ∧
         (∀ w ∈ t.clu.wlines, w.2.job ≠ some job) ∧ t.clu.pattern ≠ some job))

/-! ### The control queue (R331, R338, R342, R346, R347) -/

/-- R322, R331, R338: what the commands of the control queue do when they keep their terms; every command is taken, and one that
breaks its terms changes no job, queue, buffer or launch. That UNREGQ, which names no job, takes the queues of every job with its header
is the model's choice (log 106).
R324, R346 to R349: FREEZE of a tick that lies ahead and RESUME of an image wait for their ticks; a FREEZE whose tick has passed is
REASON 7 and one of a frozen module REASON 1, as is a RESUME whose buffers hold no image; at the freeze's tick the core is asked to park,
and when it is saved the image, its pages with it, is whole and the host's buffers are written; at the resumption's tick the module goes on
from it, a launch of the image whose cores are not there ending with RESULT 3, REASON 3, and other launches staying as they are. A
resumption of what buffers filled elsewhere hold leaves the module's own image and its freeze; what they hold is free (log 53); that a RESUME of buffers without an image breaks its terms, and that IMG's list lies in
host memory, are the model's readings (log 34). -/
def Obligations.ControlAndFreeze : Prop :=
  (∀ (s : State) (h : QHeader) (raw : List Byte), ctlHead s = some (h, raw) →
     let f (o n : Nat) := rfield raw o n
     let job := f 0x10 4
     let op := f 4 1
     let does (i : Instr) (p : State → Prop) : Prop := ∃ t, exec i s = .next t ∧ t.core.cur = s.core.cur ∧ p t
     let same (t : State) : Prop := t.mod.jobs = s.mod.jobs ∧ t.mod.queues = s.mod.queues ∧ t.mod.pubs = s.mod.pubs ∧
       t.mod.launches = s.mod.launches ∧ t.core.launch = s.core.launch
     let order := increasing ([f 0x20 2, f 0x22 2, f 0x24 2].filter fun w => decide (w ≠ 0)) = true
     (op = 0 ∨ 8 ≤ op → does .controlNop same) ∧
     (op = 1 → does .jobnew fun t => same t ∨ (operandsOk raw [(0x10, 4), (0x18, 32)] = true ∧
       (∀ j ∈ s.mod.jobs, j.id ≠ job) ∧ ∃ j, t.mod.jobs = s.mod.jobs ++ [j] ∧ j.id = job ∧ j.ptRoot = f 0x18 8 ∧
       j.cellar = f 0x28 8 ∧ j.cellarLen = f 0x30 8 ∧ j.retired = false ∧ j.weight = 1 ∧ j.deficit = 0)) ∧
     (op = 1 → operandsOk raw [(0x10, 4), (0x18, 32)] = true → (∀ j ∈ s.mod.jobs, j.id ≠ job) → f 0x18 8 % 4096 = 0 →
       f 0x18 8 < hbmSize → f 0x20 8 = 0 → f 0x28 8 + f 0x30 8 ≤ hbmSize →
       does .jobnew fun t => ∃ j, t.mod.jobs = s.mod.jobs ++ [j] ∧ j.id = job ∧ j.ptRoot = f 0x18 8 ∧ j.key = []) ∧
     (op = 2 →
       let old := s.mod.queues.find? fun p => decide (p.hdr = f 0x10 8) && decide (p.job = f 0x18 4)
       let ok := operandsOk raw [(0x10, 24)] = true ∧ (∃ b, jobRead s (f 0x18 4) (f 0x10 8) 64 = some b ∧ (qHeader b).ok = true) ∧
         (jobEntry s (f 0x18 4)).isSome ∧ f 0x10 8 % 64 = 0 ∧ f 0x1C 1 ≤ 3 ∧ 0 < f 0x1E 2 ∧ order ∧ f 0x26 2 < 4096
       (¬ ok → does .regq same) ∧
       (ok → does .regq fun t => ∃ q ∈ t.mod.queues, q.hdr = f 0x10 8 ∧ q.job = f 0x18 4 ∧ q.live = true ∧ q.dies = f 0x26 2 ∧
         q.msix = (if f 0x1D 1 = 0 then none else some (f 0x1D 1 - 1)) ∧
         (∀ p, old = some p → q.stopped = (p.live && p.stopped) ∧ q.done = p.done) ∧ (old = none → q.stopped = false ∧ q.done = []) ∧
         t.mod.launches = s.mod.launches ∧ t.mod.pubs = s.mod.pubs)) ∧
     (op = 2 → does .regq fun t => same t ∨ ∃ q ∈ t.mod.queues, q.hdr = f 0x10 8 ∧ q.job = f 0x18 4 ∧ q.prio = f 0x1C 1 ∧
       q.prio ≤ 3 ∧ 0 < q.weight ∧ q.weight = f 0x1E 2 ∧ q.live = true ∧
       q.wd1 = (if f 0x20 2 = 0 then 10 else f 0x20 2) ∧ q.wd2 = (if f 0x22 2 = 0 then 100 else f 0x22 2) ∧
       q.wd3 = (if f 0x24 2 = 0 then 1000 else f 0x24 2) ∧ order) ∧
     (op = 3 → does .unregq fun t =>
       let ok := operandsOk raw [(0x10, 8)] = true ∧ ∃ q ∈ s.mod.queues, q.hdr = f 0x10 8 ∧ q.live = true
       (ok → (∀ q ∈ t.mod.queues, q.hdr = f 0x10 8 → q.live = false) ∧ t.mod.launches = s.mod.launches) ∧ (¬ ok → same t)) ∧
     (op = 4 → does .kill fun t =>
       let ok := operandsOk raw [(0x10, 4)] = true ∧ (jobEntry s job).isSome = true
       (ok → (∀ j ∈ t.mod.jobs, j.id = job → j.retired = true ∧ j.key = []) ∧
         (∀ l ∈ t.mod.launches, l.job = job → l.ended = true) ∧
         ∀ l, curLaunch s = some l → l.job = job → l.ended = false → ∀ c, (t.ctx c).live = false) ∧ (¬ ok → same t)) ∧
     (op = 5 →
       let ok := operandsOk raw [(0x10, 12), (0x20, 24)] = true ∧ (jobLoc s (f 0x18 4) (f 0x10 8) false).isSome ∧
         (jobEntry s (f 0x18 4)).isSome ∧ f 0x10 8 % 64 = 0 ∧ f 0x28 8 % 65536 = 0 ∧ f 0x30 8 % 65536 = 0 ∧ 0 < f 0x30 8 ∧
         f 0x20 8 + f 0x30 8 ≤ hbmSize ∧ regionOf (f 0x28 8) = .hbm ∧ regionOf (f 0x10 8) = .hbm ∧
         f 0x28 8 + f 0x30 8 ≤ regionEnd .hbm
       (¬ ok → does .pubreg same) ∧
       (ok → does .pubreg fun t => ∃ p ∈ t.mod.pubs, p.desc = f 0x10 8 ∧ p.job = f 0x18 4)) ∧
     (op = 5 → does .pubreg fun t => same t ∨ ∃ p ∈ t.mod.pubs, p.desc = f 0x10 8 ∧ p.job = f 0x18 4 ∧ p.shadow = f 0x20 8 ∧
       p.front = f 0x28 8 ∧ p.len = f 0x30 8 ∧ p.swapped = false ∧ p.closed = false ∧ p.waiting = [] ∧ 0 < p.len ∧
       p.desc % 64 = 0 ∧ p.front % 65536 = 0 ∧ p.len % 65536 = 0)) ∧
  (∀ (s : State) (h : QHeader) (raw : List Byte) (c : TickCmd) (im : Image) (l : Launch),
     let o := observeTick s
     let tick := rfield raw 0x10 8
     let compl := rfield raw 8 8
     let bufs := imageBufs s (rfield raw 0x18 8) (rfield raw 0x20 4)
     let ends (i : Instr) (reason : Nat) : Prop := exec i s = .next (ctlTake (ctlComplete o compl h.seq 1 reason) h)
     let own := im.bufs = c.bufs
     (ctlHead s = some (h, raw) → rfield raw 4 1 = 6 → s.mod.frozen = false → operandsOk raw [(0x10, 20)] = true →
       (o.mod.tick.toNat < tick → ∃ t d, exec .freeze s = .next t ∧ t.mod.freeze = some d ∧ d.tick = tick ∧ d.seq = h.seq ∧
         d.bufs = bufs ∧ d.compl = compl ∧ t.mod.ctlBusy = true ∧ t.mod.frozen = false) ∧
       (tick ≤ o.mod.tick.toNat → ends .freeze 7)) ∧
     (ctlHead s = some (h, raw) → rfield raw 4 1 = 6 → (s.mod.frozen = true ∨ operandsOk raw [(0x10, 20)] = false) →
       ends .freeze 1) ∧
     (ctlHead s = some (h, raw) → rfield raw 4 1 = 7 → operandsOk raw [(0x10, 20), (0x28, 8)] = true →
       (s.mod.image = some im → im.bufs = bufs → ∃ t d, exec .resume s = .next t ∧ t.mod.resume = some d ∧ d.tick = tick ∧
         d.map = rfield raw 0x28 8 ∧ d.bufs = bufs ∧ t.mod.ctlBusy = true ∧ t.mod.image = some im) ∧
       (s.mod.image = none → Config.foreignImage bufs h.seq = none → ends .resume 1)) ∧
     (s.mod.freeze = some c → s.mod.frozen = false → c.tick < 2 ^ 64 → ∃ t, exec .freezeTick s = .next t ∧
       t.mod.frozen = true ∧ c.tick ≤ t.mod.tick.toNat ∧ t.core.preempt = s.core.launch.isSome ∧ t.ctxs = s.ctxs ∧
       t.mem = s.mem) ∧
     (s.mod.freeze = some c → s.mod.freezing = true → s.core.launch = none → ∃ t i, exec .freezeImageComplete s = .next t ∧
       t.mod.image = some i ∧ i.tick = c.tick ∧ i.saved = s.saved ∧ i.bufs = c.bufs ∧ i.launches = s.mod.launches ∧
       i.jobs = s.mod.jobs ∧ (∀ x ∈ s.mem, hbmLoc ≤ x.1 → x.1 < hbmLoc + hbmSize → x ∈ i.mem) ∧ t.saved = [] ∧
       t.mod.freeze = none ∧ t.mod.ctlBusy = false ∧
       (MemoryInv s → ∀ a, a < hbmLoc → Memory.get t.mem a = Memory.get s.mem a)) ∧
     (s.mod.resume = some c → s.mod.image = some im → own → c.map = 0 →
       (∀ k ∈ s.mod.launches, k.ended = true ∨ coresThere s k = true) →
       ∃ t, exec .resumeTick s = .next t ∧ t.mod.frozen = false ∧ t.saved = s.saved ++ im.saved ∧ t.mod.image = none ∧
         t.mod.resume = none ∧ t.mod.ctlBusy = false ∧
         ∀ k ∈ s.mod.launches, k.id ∉ im.launches.map (fun x => x.id) → k ∈ t.mod.launches) ∧
     (s.mod.resume = some c → s.mod.image = some im → ¬ own → ∃ t k, exec .resumeTick s = .next t ∧ t.mod.frozen = s.mod.frozen ∧
       t.mod.image = some k ∧ k.bufs = im.bufs ∧ k.tick = im.tick ∧ k.mem = im.mem ∧ k.launches = im.launches ∧
       t.mod.resume = none ∧ t.mod.ctlBusy = false) ∧
     (s.mod.resume = some c → s.mod.image = some im → own → c.map = 0 → s.mod.launches = [l] → l.ended = false →
       l.id ∈ im.launches.map (fun x => x.id) → coresThere s l = false → ∃ t, exec .resumeTick s = .next t ∧ t.mod.frozen = false ∧
         (∀ k ∈ t.mod.launches, k.ended = true ∧ k.result = some (3, 3)) ∧ ∀ r ∈ t.saved, r.core.launch ≠ some l.id))

/-! ### The host (R340 to R343, R353, R355) -/

/-- R342, R343: what the writable registers of the aperture take; the first two are fixed once a launch queue is registered, the
third while a queue is registered or a command is pending, and an ERR bit is cleared by writing 1.
R59, R183, R340, R341, R346, R353, R355: the host reads, writes and updates device memory through its aperture, where no page that it
reaches is packed or protected; a whole block it writes gets descriptor 0; a frozen module answers as unsupported, and one whose ports
are all down or which has not come to step 7 of power-up not at all; until then a configuration request is to be retried; PERST# holds a
port's link down. An access that gets no answer is refused as a step, the model's choice (log 59).
R342, R345: an open port takes a flit that passes its check in order, drops the flits it acknowledges from its store and records its
credits; any other flit, of whatever type byte where its check fails, is discarded and a replay is asked for; the timer sends a time flit, with its check, on every open port that has
room; a link that has replayed a flit 16 times or waited too long closes, and opens again by retraining. The model's choices: the CRC's
form, what an acknowledgement names, what retraining resets (log 38). -/
def Obligations.HostAndLinkResults : Prop :=
  (∀ (s : State) (v : Word) (i : Fin 4), hostAnswers s = true →
     let m := s.mod
     let err (b : Nat) : Out := .next { s with mod := { m with errReg := m.errReg ||| BitVec.ofNat 64 (2 ^ b) } }
     (queueRegistered s = true → exec (.modnumWrite v) s = .next s ∧ exec (.feataccWrite i v) s = err 0 ∧
       exec (.ctlqWrite v) s = err 1) ∧
     (queueRegistered s = false →
       exec (.modnumWrite v) s = .next { s with mod := { m with modnum := v.toNat % 256 } } ∧
       (∃ t, exec (.feataccWrite i v) s = .next t ∧ t.mod.errReg = m.errReg ∧
         ∀ j : Fin 4, t.mod.featAcc[j.val] = if j = i then (if i = 0 then v &&& m.feat0 else 0) else m.featAcc[j.val]) ∧
       (ctlPending s = true → exec (.ctlqWrite v) s = err 1) ∧
       (ctlPending s = false → v.toNat % 64 = 0 → exec (.ctlqWrite v) s = .next { s with mod := { m with ctlq := v } })) ∧
     exec (.errWrite v) s = .next { s with mod := { m with errReg := m.errReg &&& ~~~v } } ∧
     ∀ h, ctlHeader s = some h → h.widx ≠ h.ridx → ctlHead s = none → m.ctlBusy = false →
       exec .ctlqBlockedTimeout s = .next { s with mod := { m with errReg := m.errReg ||| 4 } }) ∧
  (∀ (s : State) (off : Nat) (bs : List Byte) (n : Nat) (op : AtomicOp) (v w : Word) (p : Fin 4) (up : Bool),
     MemoryInv s → hostAnswers s = true → off + n ≤ hbmSize → off + bs.length ≤ hbmSize →
     let answered (i : Instr) (r : HostReply) : Prop := exec i s = .next { s with mod := { s.mod with replies := s.mod.replies ++ [r] } }
     let old (k : Nat) := readLoc s (hbmLoc + off) k
     let new (k : Nat) : Nat := match op with
       | .fetchAdd => (old k + v.toNat) % 2 ^ (8 * k)
       | .swap => v.toNat % 2 ^ (8 * k)
       | .cas => if old k = w.toNat % 2 ^ (8 * k) then v.toNat % 2 ^ (8 * k) else old k
     let host := s.mod.hosts[p.val]
     let plain (k : Nat) : Prop := ∀ i, i < k → markedPage s (off + i) = none
     (s.mod.frozen = false →
       (plain n → answered (.hostRead off n) (.data (readBytes s (hbmLoc + off) n))) ∧
       (bs ≠ [] → plain bs.length → ∃ t, exec (.hostWrite off bs) s = .next t ∧ readBytes t (hbmLoc + off) bs.length = bs ∧
         (∀ a, (a < hbmLoc + off ∨ hbmLoc + off + bs.length ≤ a) → (a < boltLoc 0 ∨ boltLoc 64 ≤ a) →
           Memory.get t.mem a = Memory.get s.mem a) ∧
         ∀ b, off ≤ 64 * b → 64 * b + 64 ≤ off + bs.length → descOf t (hbmLoc / 64 + b) = 0) ∧
       (off % 4 = 0 → off + 4 ≤ hbmSize → plain 4 → ∃ t, exec (.hostAtomicop op .w off v w) s = .next t ∧
         t.mod.replies = s.mod.replies ++ [.data (readBytes s (hbmLoc + off) 4)] ∧ readLoc t (hbmLoc + off) 4 = new 4) ∧
       (off % 8 = 0 → off + 8 ≤ hbmSize → plain 8 → ∃ t, exec (.hostAtomicop op .x off v w) s = .next t ∧
         t.mod.replies = s.mod.replies ++ [.data (readBytes s (hbmLoc + off) 8)] ∧ readLoc t (hbmLoc + off) 8 = new 8)) ∧
     (s.mod.frozen = true → answered (.hostRead off n) .unsupported ∧ exec (.hostWrite off bs) s = .next s) ∧
     (host.perst = false → answered (.hostConfigRequest p) .config) ∧
     (∀ u : State, (u.mod.hosts[p.val]).perst = false → u.mod.spaly.standby = true → u.mod.spaly.stage ≠ 7 →
       exec (.hostConfigRequest p) u = .next { u with mod := { u.mod with replies := u.mod.replies ++ [.retry] } } ∧
       exec (.hostRead off n) u = .refused .eventNotEnabled ∧ exec (.hostWrite off bs) u = .refused .eventNotEnabled) ∧
     (∀ u : State, (∀ q : Fin 4, (u.mod.hosts[q.val]).up = false) →
       exec (.hostRead off n) u = .refused .eventNotEnabled ∧ exec (.hostWrite off bs) u = .refused .eventNotEnabled) ∧
     (up = false ∨ host.perst = false → ∃ t, exec (.hostPortLinkChange p up) s = .next t ∧
       t.mod.hosts[p.val] = { host with up := up } ∧ t.mem = s.mem) ∧
     ∃ t, exec (.perstChange p up) s = .next t ∧ t.mem = s.mem ∧
       t.mod.hosts[p.val] = { perst := up, up := host.up && !up }) ∧
  (∀ (s : State) (p : Fin 32) (f : Flit),
     let x := podPort s p
     let h := flitHeader f.bytes
     let good := flitOk f.bytes = true ∧ h.seq = x.recvSeq
     let first := (x.sendSeq + 4096 - x.unacked.length % 4096) % 4096
     let covered (n : Nat) : Prop := 0 < n ∧ n ≤ x.unacked.length ∧ h.ack = (first + n + 4095) % 4096
     let takes (i : Instr) (type : Nat) : Prop := h.type = type ∨ flitOk f.bytes = false → ∃ t, exec i s = .next t ∧ t.mem = s.mem ∧ t.ctxs = s.ctxs ∧
       t.core = s.core ∧ (∀ q, q ≠ p → podPort t q = podPort s q) ∧
       (good → (podPort t p).recvSeq = (x.recvSeq + 1) % 4096 ∧ (podPort t p).replayOf = none ∧
         (podPort t p).credits = h.credits ∧ (podPort t p).sendSeq = x.sendSeq ∧
         (∀ n, n < 4096 → covered n → (podPort t p).unacked = x.unacked.drop n ∧ (podPort t p).tries = 0) ∧
         (h.ack < 4096 → (∀ n, n < 4096 → ¬ covered n) → (podPort t p).unacked = x.unacked ∧ (podPort t p).tries = x.tries)) ∧
       (¬ good → podPort t p = { x with replayOf := some x.recvSeq })
     (x.up = true → f.bytes.length = 128 → takes (.flitIdle p f) 0 ∧ takes (.flitRequest p f) 1 ∧ takes (.flitResponse p f) 2 ∧
       takes (.flitTime p f) 3 ∧ takes (.flitLaunchControl p f) 4) ∧
     (s.mod.spaly.standby = true → 6 ≤ s.mod.spaly.stage → ∃ t, exec .timeFlitTimer s = .next t ∧ t.mem = s.mem ∧
       ∀ q, let y := podPort s q
         if y.up = true ∧ y.unacked.length < 1024 then ∃ b, (podPort t q).unacked = y.unacked ++ [b] ∧
           (podPort t q).wire = y.wire ++ [b] ∧ (podPort t q).sendSeq = (y.sendSeq + 1) % 4096 ∧ b.length = 128 ∧
           (podPort t q).credits = y.credits else podPort t q = y) ∧
     (x.up = true → x.unacked ≠ [] → s.clu.jobs = [] →
       (∃ t, exec (.linkReplayLimit p) s = .next t ∧ (podPort t p).up = false ∧ (podPort t p).lost = true ∧
         (podPort t p).replays = x.replays + (16 - x.tries) ∧ t.mem = s.mem) ∧
       ∃ t, exec (.linkAckTimeout p) s = .next t ∧ (podPort t p).up = false ∧ (podPort t p).lost = true ∧ t.mem = s.mem ∧
         (podPort t p).replays = x.replays) ∧
     (x.up = false → ∃ t, exec (.podLinkRetrain p) s = .next t ∧ (podPort t p).up = true ∧ (podPort t p).unacked = [] ∧
       (podPort t p).replays = x.replays ∧ t.mem = s.mem ∧ ∀ q, q ≠ p → podPort t q = podPort s q))

/-! ### The controller (R350 to R354) -/

/-- R350 to R355: power-up and module reset boot the bank that a sound signature selects, or the other, and come to a step; a step that
fails is logged as fatal, and a host's configuration requests wait for step 7; from step 2 on every stage is up, and loss of power
stops the module and all stages but standby's; a sample is kept, the
cap moves the clocks of islands that draw most by 25 MHz, 105 degrees lower an island's clock, 115 degrees power the module down;
a cap outside its range or its steps is refused; an update that fits writes the bank not in use. The model's choices: registers at reset
(log 2), its own fields over a power-up (log 6), the step that fails, how many islands move and what module power adds up (log 39), the
rails' order (log 98) and voltages (log 82, log 97), that a step which cannot come is refused (log 59). -/
def Obligations.PowerResults : Prop :=
  ∀ (s : State) (image : List Byte) (sg : Bool) (n stage watts : Nat) (r : SensorReading),
    let p := s.mod.spaly
    let other : Fin 2 := if p.active = 0 then 1 else 0
    let booted (t : State) (b : Fin 2) : Prop := t.mod.spaly.active = b ∧ t.ctxs = State.reset.ctxs ∧ t.tags = [] ∧
      (∀ x ∈ t.mem, harvestLoc ≤ x.1 ∧ x.1 < harvestLoc + 12 * 0x2000) ∧ (t.mod.fuses = [] → t.mem = []) ∧ t.mod.fuses = s.mod.fuses ∧
      t.clu = Cluster.reset ∧ t.core.launch = none ∧ t.mod.jobs = [] ∧ t.mod.queues = [] ∧ t.mod.errReg = 0 ∧
      t.mod.spaly.banks = p.banks ∧ t.mod.spaly.standby = true ∧ t.mod.spaly.stage ≤ 7 ∧ t.mod.spaly.cap = 6400 ∧
      (∀ q : Fin 4, (t.mod.hosts[q.val]).up = true → t.mod.spaly.stage = 7 ∧ (s.mod.hosts[q.val]).perst = false) ∧
      (2 ≤ t.mod.spaly.stage → ∀ (i : Nat) (x : Rail), t.mod.spaly.rails[i]? = some x → x.enabled = true ∧ x.good = true) ∧
      (t.mod.spaly.stage < 7 → t.mod.spaly.log.getLast?.map (fun e => e.event) = some (.powerFailed (t.mod.spaly.stage + 1)))
    let boots (i : Instr) (b : Fin 2) : Prop := ∃ t, exec i s = .next t ∧
      ((p.banks[b.val]).signed = true → booted t b ∧ 1 ≤ t.mod.spaly.stage) ∧
      ((p.banks[b.val]).signed = false → ∃ o : Fin 2, o ≠ b ∧ booted t o ∧
        ((p.banks[o.val]).signed = false → t.mod.spaly.stage = 0))
    let down (i : Instr) : Prop := ∃ t, exec i s = .next t ∧ t.mod.spaly.stage = 0 ∧ t.mem = s.mem ∧
      ∀ (k : Nat) (x : Rail), k ≠ 0 → t.mod.spaly.rails[k]? = some x → x.enabled = false ∧ x.good = false
    let sound := stage ≠ 0 ∧ ∃ x, p.rails[stage]? = some x ∧ x.good = true
    let total := (r.stages.map fun v => v.1 * v.2 / 1000).sum
    (p.standby = false → boots .standbyPowerOn p.next) ∧
    (p.standby = true →
      boots .moduleReset p.next ∧
      (p.stage ≠ 0 → p.stage < 5 → ∃ t, exec .firmwareBootTimeout s = .next t ∧
        ((p.banks[other.val]).signed = true → booted t other)) ∧
      (sound → down (.powerGoodLoss stage)) ∧ (¬ sound → exec (.powerGoodLoss stage) s = .refused .eventNotEnabled) ∧ down .standbyPowerLoss ∧
      ((∃ i, i < p.clocks.length ∧ 115 ≤ r.temps.getD i 0) → down (.sensorSample r)) ∧
      ((∀ i, r.temps.getD i 0 < 115) → ∃ t, exec (.sensorSample r) s = .next t ∧ t.mod.spaly.sample = r ∧
        t.mod.spaly.stage = p.stage ∧ t.mem = s.mem ∧ ∃ k, 1 ≤ k ∧ k ≤ 48 ∧
        ∀ i, i < p.clocks.length → t.mod.spaly.clocks.getD i 0 =
          let f := p.clocks.getD i 0
          if 105 ≤ r.temps.getD i 0 ∨ (i ∈ hottest r.powers k ∧ p.cap * 1000 < total) then max 300 (f - 25)
          else if i ∈ hottest r.powers k ∧ total < p.cap * 1000 then min 850 (f + 25) else f) ∧
      exec (.setPowerCap watts) s = .next (if 3000 ≤ watts ∧ watts ≤ 6400 ∧ watts % 50 = 0
        then { s with mod := { s.mod with spaly := { p with cap := watts } } } else s) ∧
      (image.length ≤ 96 * 2 ^ 20 → ∃ t, exec (.pldmFirmwareUpdate image sg) s = .next t ∧ t.mod.spaly.next = other ∧
        t.mod.spaly.banks[other.val] = { image := image, signed := sg } ∧
        t.mod.spaly.banks[p.active.val] = p.banks[p.active.val] ∧ t.mod.spaly.active = p.active ∧ t.mem = s.mem) ∧
      (96 * 2 ^ 20 < image.length → exec (.pldmFirmwareUpdate image sg) s = .next s) ∧
      ∃ t a, exec (.spdmRequest n) s = .next t ∧ t.mod.spaly.answers = p.answers ++ [a] ∧ t.mem = s.mem)

/-! ### Rules of the whole instruction set (R35, R59, R83, R109, R175) -/

/-- R35: an instruction that names a pending status register, as a source or a destination, executes nothing and its context
sleeps for that register at its unit's first form. -/
def Obligations.PendingRegistersAreAwaited : Prop :=
  ∀ (i : Instr) (s : State) (r : GReg), widePayload s = none → r ∈ gNamed i → isPending s s.cur r = true →
    ∃ q ∈ gNamed i, isPending s s.cur q = true ∧ exec i s = waitFor s (.pending q) ∧
      ∃ t, exec i s = .next t ∧ (t.ctx s.cur).wait = some (.pending q) ∧ (t.ctx s.cur).pc = unitStart s s.cur ∧
        MemoryKept s t ∧ (∀ g, getG t s.cur g = getG s s.cur g) ∧ ∀ c, c ≠ s.cur → t.ctx c = s.ctx c

/-- R83, R186, R289: whatever an encoded instruction does, a fault or a sleep included, it changes no g register of its context but its
destinations, nor of any other context but the helper that HSTART starts; CCANCEL changes none; and a full/empty access changes beside its
destination only those of requests that wait at a word and that it lets proceed. -/
def Obligations.OtherRegistersAreKept : Prop :=
  ∀ (i : Instr) (s t : State), 0 < i.len → exec i s = .next t →
    (isFullEmpty i = false →
      (∀ r, r ∉ gDest i → getG t s.cur r = getG s s.cur r) ∧
      ((∀ slot gb ga, i ≠ .hstart slot gb ga) → ∀ c, c ≠ s.cur → ∀ r, getG t c r = getG s c r)) ∧
    (isFullEmpty i = true → ∀ c r, (c = s.cur → r ∉ gDest i) →
      (∀ q ∈ s.feQueue, ∀ n, q.origin = .own c r n → wantsFull q.kind = false) → getG t c r = getG s c r) ∧
    ∀ gs, i = .ccancel gs → ∀ c r, getG t c r = getG s c r

/-- R84, R109: an encoded instruction that is no vector instruction, vector load or block decoder changes no vector register of its
context; none but CSRWR changes a control and status register of the core; and TRIPLE_VOTES grows only with a TRIPLE. A CCANCEL of a
running job is left out: the job that it stops has run on its engine (R289). -/
def Obligations.VectorsAndControlRegistersAreKept : Prop :=
  ∀ (i : Instr) (s t : State), 0 < i.len →
    (∀ gs id j, i = .ccancel gs → (s.ctx s.cur).pend[gs.val] = some id → findJob s id = some j → running j = false) → exec i s = .next t →
    (writesVector i = false → (t.ctx s.cur).l = (s.ctx s.cur).l ∧ (t.ctx s.cur).k = (s.ctx s.cur).k ∧
      (t.ctx s.cur).v = (s.ctx s.cur).v) ∧
    ((∀ csr ga, i ≠ .csrwr csr ga) → CsrsKept s t) ∧ (tripled s = false → t.core.votes = s.core.votes)

/-- R59, R171, R175: an encoded instruction that stores nothing leaves every byte of memory and every tag as they were; one that
stores changes no byte outside the runs that its own address computation gives, but the boltropes of configured tile slots,
and no tag unless it is a full/empty access. A full/empty access may also let requests that wait at its word write, so that none waits
in its clause; a CCANCEL of a running job is left out, since the job that it stops may have written (R289; log 22). -/
def Obligations.OtherMemoryIsKept : Prop :=
  ∀ (i : Instr) (s t : State), 0 < i.len →
    (∀ gs id j, i = .ccancel gs → (s.ctx s.cur).pend[gs.val] = some id → findJob s id = some j → running j = false) → exec i s = .next t →
    (storesNothing i = true → (∀ loc, Memory.get t.mem loc = Memory.get s.mem loc) ∧ t.tags = s.tags) ∧
    (isFullEmpty i = false ∨ s.feQueue = [] → ∀ loc, (∀ r ∈ storedRuns s i, ¬ (r.1 ≤ loc ∧ loc < r.1 + r.2)) →
      (loc < boltLoc 0 ∨ boltLoc 64 ≤ loc) → Memory.get t.mem loc = Memory.get s.mem loc) ∧
    (isFullEmpty i = false → t.tags = s.tags)
end

