-- ==== Sys2Proof/Laws/State.lean ====
section
/-! SUPPORT. One lemma per field of the state and named update: what the update leaves alone, and what reading a context
or a register gives after a write. -/

namespace Sys2Proof.Laws

open Sys2Proof.Machine

/-! ### setCtx -/

@[simp] theorem setCtx_core (s : State) (c : Fin 8) (x : Ctx) : (s.setCtx c x).core = s.core := rfl
@[simp] theorem setCtx_clu (s : State) (c : Fin 8) (x : Ctx) : (s.setCtx c x).clu = s.clu := rfl
@[simp] theorem setCtx_mod (s : State) (c : Fin 8) (x : Ctx) : (s.setCtx c x).mod = s.mod := rfl
@[simp] theorem setCtx_mem (s : State) (c : Fin 8) (x : Ctx) : (s.setCtx c x).mem = s.mem := rfl
@[simp] theorem setCtx_descs (s : State) (c : Fin 8) (x : Ctx) : (s.setCtx c x).descs = s.descs := rfl
@[simp] theorem setCtx_tags (s : State) (c : Fin 8) (x : Ctx) : (s.setCtx c x).tags = s.tags := rfl
@[simp] theorem setCtx_poison (s : State) (c : Fin 8) (x : Ctx) : (s.setCtx c x).poison = s.poison := rfl
@[simp] theorem setCtx_badParity (s : State) (c : Fin 8) (x : Ctx) : (s.setCtx c x).badParity = s.badParity := rfl
@[simp] theorem setCtx_icache (s : State) (c : Fin 8) (x : Ctx) : (s.setCtx c x).icache = s.icache := rfl
@[simp] theorem setCtx_vis (s : State) (c : Fin 8) (x : Ctx) : (s.setCtx c x).vis = s.vis := rfl
@[simp] theorem setCtx_unacked (s : State) (c : Fin 8) (x : Ctx) : (s.setCtx c x).unacked = s.unacked := rfl
@[simp] theorem setCtx_feQueue (s : State) (c : Fin 8) (x : Ctx) : (s.setCtx c x).feQueue = s.feQueue := rfl
@[simp] theorem setCtx_saved (s : State) (c : Fin 8) (x : Ctx) : (s.setCtx c x).saved = s.saved := rfl
@[simp] theorem setCtx_inputs (s : State) (c : Fin 8) (x : Ctx) : (s.setCtx c x).inputs = s.inputs := rfl
@[simp] theorem setCtx_choice (s : State) (c : Fin 8) (x : Ctx) : (s.setCtx c x).choice = s.choice := rfl
@[simp] theorem setCtx_upsets (s : State) (c : Fin 8) (x : Ctx) : (s.setCtx c x).upsets = s.upsets := rfl

/-! ### tickChoice -/

@[simp] theorem tickChoice_ctxs (s : State) : s.tickChoice.ctxs = s.ctxs := rfl
@[simp] theorem tickChoice_core (s : State) : s.tickChoice.core = s.core := rfl
@[simp] theorem tickChoice_clu (s : State) : s.tickChoice.clu = s.clu := rfl
@[simp] theorem tickChoice_mod (s : State) : s.tickChoice.mod = s.mod := rfl
@[simp] theorem tickChoice_mem (s : State) : s.tickChoice.mem = s.mem := rfl
@[simp] theorem tickChoice_descs (s : State) : s.tickChoice.descs = s.descs := rfl
@[simp] theorem tickChoice_tags (s : State) : s.tickChoice.tags = s.tags := rfl
@[simp] theorem tickChoice_poison (s : State) : s.tickChoice.poison = s.poison := rfl
@[simp] theorem tickChoice_badParity (s : State) : s.tickChoice.badParity = s.badParity := rfl
@[simp] theorem tickChoice_icache (s : State) : s.tickChoice.icache = s.icache := rfl
@[simp] theorem tickChoice_vis (s : State) : s.tickChoice.vis = s.vis := rfl
@[simp] theorem tickChoice_unacked (s : State) : s.tickChoice.unacked = s.unacked := rfl
@[simp] theorem tickChoice_feQueue (s : State) : s.tickChoice.feQueue = s.feQueue := rfl
@[simp] theorem tickChoice_saved (s : State) : s.tickChoice.saved = s.saved := rfl
@[simp] theorem tickChoice_inputs (s : State) : s.tickChoice.inputs = s.inputs := rfl
@[simp] theorem tickChoice_upsets (s : State) : s.tickChoice.upsets = s.upsets := rfl

/-! ### observeTick -/

@[simp] theorem observeTick_ctxs (s : State) : (observeTick s).ctxs = s.ctxs := rfl
@[simp] theorem observeTick_core (s : State) : (observeTick s).core = s.core := rfl
@[simp] theorem observeTick_clu (s : State) : (observeTick s).clu = s.clu := rfl
@[simp] theorem observeTick_mem (s : State) : (observeTick s).mem = s.mem := rfl
@[simp] theorem observeTick_descs (s : State) : (observeTick s).descs = s.descs := rfl
@[simp] theorem observeTick_tags (s : State) : (observeTick s).tags = s.tags := rfl
@[simp] theorem observeTick_poison (s : State) : (observeTick s).poison = s.poison := rfl
@[simp] theorem observeTick_badParity (s : State) : (observeTick s).badParity = s.badParity := rfl
@[simp] theorem observeTick_icache (s : State) : (observeTick s).icache = s.icache := rfl
@[simp] theorem observeTick_vis (s : State) : (observeTick s).vis = s.vis := rfl
@[simp] theorem observeTick_unacked (s : State) : (observeTick s).unacked = s.unacked := rfl
@[simp] theorem observeTick_feQueue (s : State) : (observeTick s).feQueue = s.feQueue := rfl
@[simp] theorem observeTick_saved (s : State) : (observeTick s).saved = s.saved := rfl
@[simp] theorem observeTick_inputs (s : State) : (observeTick s).inputs = s.inputs := rfl
@[simp] theorem observeTick_upsets (s : State) : (observeTick s).upsets = s.upsets := rfl

/-! ### observeCycles -/

@[simp] theorem observeCycles_ctxs (s : State) : (observeCycles s).ctxs = s.ctxs := rfl
@[simp] theorem observeCycles_clu (s : State) : (observeCycles s).clu = s.clu := rfl
@[simp] theorem observeCycles_mod (s : State) : (observeCycles s).mod = s.mod := rfl
@[simp] theorem observeCycles_mem (s : State) : (observeCycles s).mem = s.mem := rfl
@[simp] theorem observeCycles_descs (s : State) : (observeCycles s).descs = s.descs := rfl
@[simp] theorem observeCycles_tags (s : State) : (observeCycles s).tags = s.tags := rfl
@[simp] theorem observeCycles_poison (s : State) : (observeCycles s).poison = s.poison := rfl
@[simp] theorem observeCycles_badParity (s : State) : (observeCycles s).badParity = s.badParity := rfl
@[simp] theorem observeCycles_icache (s : State) : (observeCycles s).icache = s.icache := rfl
@[simp] theorem observeCycles_vis (s : State) : (observeCycles s).vis = s.vis := rfl
@[simp] theorem observeCycles_unacked (s : State) : (observeCycles s).unacked = s.unacked := rfl
@[simp] theorem observeCycles_feQueue (s : State) : (observeCycles s).feQueue = s.feQueue := rfl
@[simp] theorem observeCycles_saved (s : State) : (observeCycles s).saved = s.saved := rfl
@[simp] theorem observeCycles_inputs (s : State) : (observeCycles s).inputs = s.inputs := rfl
@[simp] theorem observeCycles_upsets (s : State) : (observeCycles s).upsets = s.upsets := rfl

/-! ### setBytes -/

@[simp] theorem setBytes_ctxs (s : State) (loc : Nat) (bs : List Byte) : (setBytes s loc bs).ctxs = s.ctxs := rfl
@[simp] theorem setBytes_core (s : State) (loc : Nat) (bs : List Byte) : (setBytes s loc bs).core = s.core := rfl
@[simp] theorem setBytes_clu (s : State) (loc : Nat) (bs : List Byte) : (setBytes s loc bs).clu = s.clu := rfl
@[simp] theorem setBytes_mod (s : State) (loc : Nat) (bs : List Byte) : (setBytes s loc bs).mod = s.mod := rfl
@[simp] theorem setBytes_descs (s : State) (loc : Nat) (bs : List Byte) : (setBytes s loc bs).descs = s.descs := rfl
@[simp] theorem setBytes_tags (s : State) (loc : Nat) (bs : List Byte) : (setBytes s loc bs).tags = s.tags := rfl
@[simp] theorem setBytes_poison (s : State) (loc : Nat) (bs : List Byte) : (setBytes s loc bs).poison = s.poison := rfl
@[simp] theorem setBytes_badParity (s : State) (loc : Nat) (bs : List Byte) : (setBytes s loc bs).badParity = s.badParity := rfl
@[simp] theorem setBytes_icache (s : State) (loc : Nat) (bs : List Byte) : (setBytes s loc bs).icache = s.icache := rfl
@[simp] theorem setBytes_vis (s : State) (loc : Nat) (bs : List Byte) : (setBytes s loc bs).vis = s.vis := rfl
@[simp] theorem setBytes_unacked (s : State) (loc : Nat) (bs : List Byte) : (setBytes s loc bs).unacked = s.unacked := rfl
@[simp] theorem setBytes_feQueue (s : State) (loc : Nat) (bs : List Byte) : (setBytes s loc bs).feQueue = s.feQueue := rfl
@[simp] theorem setBytes_saved (s : State) (loc : Nat) (bs : List Byte) : (setBytes s loc bs).saved = s.saved := rfl
@[simp] theorem setBytes_inputs (s : State) (loc : Nat) (bs : List Byte) : (setBytes s loc bs).inputs = s.inputs := rfl
@[simp] theorem setBytes_choice (s : State) (loc : Nat) (bs : List Byte) : (setBytes s loc bs).choice = s.choice := rfl
@[simp] theorem setBytes_upsets (s : State) (loc : Nat) (bs : List Byte) : (setBytes s loc bs).upsets = s.upsets := rfl

/-! ### setDesc -/

@[simp] theorem setDesc_ctxs (s : State) (b : Nat) (d : BitVec 16) : (setDesc s b d).ctxs = s.ctxs := rfl
@[simp] theorem setDesc_core (s : State) (b : Nat) (d : BitVec 16) : (setDesc s b d).core = s.core := rfl
@[simp] theorem setDesc_clu (s : State) (b : Nat) (d : BitVec 16) : (setDesc s b d).clu = s.clu := rfl
@[simp] theorem setDesc_mod (s : State) (b : Nat) (d : BitVec 16) : (setDesc s b d).mod = s.mod := rfl
@[simp] theorem setDesc_mem (s : State) (b : Nat) (d : BitVec 16) : (setDesc s b d).mem = s.mem := rfl
@[simp] theorem setDesc_tags (s : State) (b : Nat) (d : BitVec 16) : (setDesc s b d).tags = s.tags := rfl
@[simp] theorem setDesc_poison (s : State) (b : Nat) (d : BitVec 16) : (setDesc s b d).poison = s.poison := rfl
@[simp] theorem setDesc_icache (s : State) (b : Nat) (d : BitVec 16) : (setDesc s b d).icache = s.icache := rfl
@[simp] theorem setDesc_vis (s : State) (b : Nat) (d : BitVec 16) : (setDesc s b d).vis = s.vis := rfl
@[simp] theorem setDesc_unacked (s : State) (b : Nat) (d : BitVec 16) : (setDesc s b d).unacked = s.unacked := rfl
@[simp] theorem setDesc_feQueue (s : State) (b : Nat) (d : BitVec 16) : (setDesc s b d).feQueue = s.feQueue := rfl
@[simp] theorem setDesc_saved (s : State) (b : Nat) (d : BitVec 16) : (setDesc s b d).saved = s.saved := rfl
@[simp] theorem setDesc_inputs (s : State) (b : Nat) (d : BitVec 16) : (setDesc s b d).inputs = s.inputs := rfl
@[simp] theorem setDesc_choice (s : State) (b : Nat) (d : BitVec 16) : (setDesc s b d).choice = s.choice := rfl
@[simp] theorem setDesc_upsets (s : State) (b : Nat) (d : BitVec 16) : (setDesc s b d).upsets = s.upsets := rfl

/-! ### logEvent -/

@[simp] theorem logEvent_ctxs (s : State) (e : LogEvent) : (logEvent s e).ctxs = s.ctxs := rfl
@[simp] theorem logEvent_core (s : State) (e : LogEvent) : (logEvent s e).core = s.core := rfl
@[simp] theorem logEvent_clu (s : State) (e : LogEvent) : (logEvent s e).clu = s.clu := rfl
@[simp] theorem logEvent_mem (s : State) (e : LogEvent) : (logEvent s e).mem = s.mem := rfl
@[simp] theorem logEvent_descs (s : State) (e : LogEvent) : (logEvent s e).descs = s.descs := rfl
@[simp] theorem logEvent_tags (s : State) (e : LogEvent) : (logEvent s e).tags = s.tags := rfl
@[simp] theorem logEvent_poison (s : State) (e : LogEvent) : (logEvent s e).poison = s.poison := rfl
@[simp] theorem logEvent_badParity (s : State) (e : LogEvent) : (logEvent s e).badParity = s.badParity := rfl
@[simp] theorem logEvent_icache (s : State) (e : LogEvent) : (logEvent s e).icache = s.icache := rfl
@[simp] theorem logEvent_vis (s : State) (e : LogEvent) : (logEvent s e).vis = s.vis := rfl
@[simp] theorem logEvent_unacked (s : State) (e : LogEvent) : (logEvent s e).unacked = s.unacked := rfl
@[simp] theorem logEvent_feQueue (s : State) (e : LogEvent) : (logEvent s e).feQueue = s.feQueue := rfl
@[simp] theorem logEvent_saved (s : State) (e : LogEvent) : (logEvent s e).saved = s.saved := rfl
@[simp] theorem logEvent_inputs (s : State) (e : LogEvent) : (logEvent s e).inputs = s.inputs := rfl
@[simp] theorem logEvent_upsets (s : State) (e : LogEvent) : (logEvent s e).upsets = s.upsets := rfl

/-! ### withdraw -/

@[simp] theorem withdraw_ctxs (s : State) (c : Fin 8) : (withdraw s c).ctxs = s.ctxs := rfl
@[simp] theorem withdraw_core (s : State) (c : Fin 8) : (withdraw s c).core = s.core := rfl
@[simp] theorem withdraw_clu (s : State) (c : Fin 8) : (withdraw s c).clu = s.clu := rfl
@[simp] theorem withdraw_mod (s : State) (c : Fin 8) : (withdraw s c).mod = s.mod := rfl
@[simp] theorem withdraw_mem (s : State) (c : Fin 8) : (withdraw s c).mem = s.mem := rfl
@[simp] theorem withdraw_descs (s : State) (c : Fin 8) : (withdraw s c).descs = s.descs := rfl
@[simp] theorem withdraw_tags (s : State) (c : Fin 8) : (withdraw s c).tags = s.tags := rfl
@[simp] theorem withdraw_poison (s : State) (c : Fin 8) : (withdraw s c).poison = s.poison := rfl
@[simp] theorem withdraw_badParity (s : State) (c : Fin 8) : (withdraw s c).badParity = s.badParity := rfl
@[simp] theorem withdraw_icache (s : State) (c : Fin 8) : (withdraw s c).icache = s.icache := rfl
@[simp] theorem withdraw_vis (s : State) (c : Fin 8) : (withdraw s c).vis = s.vis := rfl
@[simp] theorem withdraw_unacked (s : State) (c : Fin 8) : (withdraw s c).unacked = s.unacked := rfl
@[simp] theorem withdraw_saved (s : State) (c : Fin 8) : (withdraw s c).saved = s.saved := rfl
@[simp] theorem withdraw_inputs (s : State) (c : Fin 8) : (withdraw s c).inputs = s.inputs := rfl
@[simp] theorem withdraw_choice (s : State) (c : Fin 8) : (withdraw s c).choice = s.choice := rfl
@[simp] theorem withdraw_upsets (s : State) (c : Fin 8) : (withdraw s c).upsets = s.upsets := rfl

/-! ### freezeWith -/

@[simp] theorem freezeWith_clu (s : State) (c : Fin 8) (f : Flt) : (freezeWith s c f).clu = s.clu := by simp only [freezeWith, observeTick, withdraw, State.setCtx]
@[simp] theorem freezeWith_mem (s : State) (c : Fin 8) (f : Flt) : (freezeWith s c f).mem = s.mem := by simp only [freezeWith, observeTick, withdraw, State.setCtx]
@[simp] theorem freezeWith_descs (s : State) (c : Fin 8) (f : Flt) : (freezeWith s c f).descs = s.descs := by simp only [freezeWith, observeTick, withdraw, State.setCtx]
@[simp] theorem freezeWith_tags (s : State) (c : Fin 8) (f : Flt) : (freezeWith s c f).tags = s.tags := by simp only [freezeWith, observeTick, withdraw, State.setCtx]
@[simp] theorem freezeWith_poison (s : State) (c : Fin 8) (f : Flt) : (freezeWith s c f).poison = s.poison := by simp only [freezeWith, observeTick, withdraw, State.setCtx]
@[simp] theorem freezeWith_badParity (s : State) (c : Fin 8) (f : Flt) : (freezeWith s c f).badParity = s.badParity := by simp only [freezeWith, observeTick, withdraw, State.setCtx]
@[simp] theorem freezeWith_icache (s : State) (c : Fin 8) (f : Flt) : (freezeWith s c f).icache = s.icache := by simp only [freezeWith, observeTick, withdraw, State.setCtx]
@[simp] theorem freezeWith_vis (s : State) (c : Fin 8) (f : Flt) : (freezeWith s c f).vis = s.vis := by simp only [freezeWith, observeTick, withdraw, State.setCtx]
@[simp] theorem freezeWith_unacked (s : State) (c : Fin 8) (f : Flt) : (freezeWith s c f).unacked = s.unacked := by simp only [freezeWith, observeTick, withdraw, State.setCtx]
@[simp] theorem freezeWith_saved (s : State) (c : Fin 8) (f : Flt) : (freezeWith s c f).saved = s.saved := by simp only [freezeWith, observeTick, withdraw, State.setCtx]
@[simp] theorem freezeWith_inputs (s : State) (c : Fin 8) (f : Flt) : (freezeWith s c f).inputs = s.inputs := by simp only [freezeWith, observeTick, withdraw, State.setCtx]
@[simp] theorem freezeWith_upsets (s : State) (c : Fin 8) (f : Flt) : (freezeWith s c f).upsets = s.upsets := by simp only [freezeWith, observeTick, withdraw, State.setCtx]

/-! ### retire -/

@[simp] theorem retire_clu (s : State) (c : Fin 8) (n : Nat) : (retire s c n).clu = s.clu := rfl
@[simp] theorem retire_mod (s : State) (c : Fin 8) (n : Nat) : (retire s c n).mod = s.mod := rfl
@[simp] theorem retire_mem (s : State) (c : Fin 8) (n : Nat) : (retire s c n).mem = s.mem := rfl
@[simp] theorem retire_descs (s : State) (c : Fin 8) (n : Nat) : (retire s c n).descs = s.descs := rfl
@[simp] theorem retire_tags (s : State) (c : Fin 8) (n : Nat) : (retire s c n).tags = s.tags := rfl
@[simp] theorem retire_poison (s : State) (c : Fin 8) (n : Nat) : (retire s c n).poison = s.poison := rfl
@[simp] theorem retire_badParity (s : State) (c : Fin 8) (n : Nat) : (retire s c n).badParity = s.badParity := rfl
@[simp] theorem retire_icache (s : State) (c : Fin 8) (n : Nat) : (retire s c n).icache = s.icache := rfl
@[simp] theorem retire_vis (s : State) (c : Fin 8) (n : Nat) : (retire s c n).vis = s.vis := rfl
@[simp] theorem retire_unacked (s : State) (c : Fin 8) (n : Nat) : (retire s c n).unacked = s.unacked := rfl
@[simp] theorem retire_feQueue (s : State) (c : Fin 8) (n : Nat) : (retire s c n).feQueue = s.feQueue := rfl
@[simp] theorem retire_saved (s : State) (c : Fin 8) (n : Nat) : (retire s c n).saved = s.saved := rfl
@[simp] theorem retire_inputs (s : State) (c : Fin 8) (n : Nat) : (retire s c n).inputs = s.inputs := rfl
@[simp] theorem retire_choice (s : State) (c : Fin 8) (n : Nat) : (retire s c n).choice = s.choice := rfl
@[simp] theorem retire_upsets (s : State) (c : Fin 8) (n : Nat) : (retire s c n).upsets = s.upsets := rfl

/-! ### retireTo -/

@[simp] theorem retireTo_clu (s : State) (c : Fin 8) (pc : Word) : (retireTo s c pc).clu = s.clu := rfl
@[simp] theorem retireTo_mod (s : State) (c : Fin 8) (pc : Word) : (retireTo s c pc).mod = s.mod := rfl
@[simp] theorem retireTo_mem (s : State) (c : Fin 8) (pc : Word) : (retireTo s c pc).mem = s.mem := rfl
@[simp] theorem retireTo_descs (s : State) (c : Fin 8) (pc : Word) : (retireTo s c pc).descs = s.descs := rfl
@[simp] theorem retireTo_tags (s : State) (c : Fin 8) (pc : Word) : (retireTo s c pc).tags = s.tags := rfl
@[simp] theorem retireTo_poison (s : State) (c : Fin 8) (pc : Word) : (retireTo s c pc).poison = s.poison := rfl
@[simp] theorem retireTo_badParity (s : State) (c : Fin 8) (pc : Word) : (retireTo s c pc).badParity = s.badParity := rfl
@[simp] theorem retireTo_icache (s : State) (c : Fin 8) (pc : Word) : (retireTo s c pc).icache = s.icache := rfl
@[simp] theorem retireTo_vis (s : State) (c : Fin 8) (pc : Word) : (retireTo s c pc).vis = s.vis := rfl
@[simp] theorem retireTo_unacked (s : State) (c : Fin 8) (pc : Word) : (retireTo s c pc).unacked = s.unacked := rfl
@[simp] theorem retireTo_feQueue (s : State) (c : Fin 8) (pc : Word) : (retireTo s c pc).feQueue = s.feQueue := rfl
@[simp] theorem retireTo_saved (s : State) (c : Fin 8) (pc : Word) : (retireTo s c pc).saved = s.saved := rfl
@[simp] theorem retireTo_inputs (s : State) (c : Fin 8) (pc : Word) : (retireTo s c pc).inputs = s.inputs := rfl
@[simp] theorem retireTo_choice (s : State) (c : Fin 8) (pc : Word) : (retireTo s c pc).choice = s.choice := rfl
@[simp] theorem retireTo_upsets (s : State) (c : Fin 8) (pc : Word) : (retireTo s c pc).upsets = s.upsets := rfl

/-! ### resumeCore -/

@[simp] theorem resumeCore_clu (s : State) (k : Option (Fin 8)) : (resumeCore s k).clu = s.clu := rfl
@[simp] theorem resumeCore_mod (s : State) (k : Option (Fin 8)) : (resumeCore s k).mod = s.mod := rfl
@[simp] theorem resumeCore_mem (s : State) (k : Option (Fin 8)) : (resumeCore s k).mem = s.mem := rfl
@[simp] theorem resumeCore_descs (s : State) (k : Option (Fin 8)) : (resumeCore s k).descs = s.descs := rfl
@[simp] theorem resumeCore_tags (s : State) (k : Option (Fin 8)) : (resumeCore s k).tags = s.tags := rfl
@[simp] theorem resumeCore_poison (s : State) (k : Option (Fin 8)) : (resumeCore s k).poison = s.poison := rfl
@[simp] theorem resumeCore_badParity (s : State) (k : Option (Fin 8)) : (resumeCore s k).badParity = s.badParity := rfl
@[simp] theorem resumeCore_icache (s : State) (k : Option (Fin 8)) : (resumeCore s k).icache = s.icache := rfl
@[simp] theorem resumeCore_vis (s : State) (k : Option (Fin 8)) : (resumeCore s k).vis = s.vis := rfl
@[simp] theorem resumeCore_unacked (s : State) (k : Option (Fin 8)) : (resumeCore s k).unacked = s.unacked := rfl
@[simp] theorem resumeCore_feQueue (s : State) (k : Option (Fin 8)) : (resumeCore s k).feQueue = s.feQueue := rfl
@[simp] theorem resumeCore_saved (s : State) (k : Option (Fin 8)) : (resumeCore s k).saved = s.saved := rfl
@[simp] theorem resumeCore_inputs (s : State) (k : Option (Fin 8)) : (resumeCore s k).inputs = s.inputs := rfl
@[simp] theorem resumeCore_choice (s : State) (k : Option (Fin 8)) : (resumeCore s k).choice = s.choice := rfl
@[simp] theorem resumeCore_upsets (s : State) (k : Option (Fin 8)) : (resumeCore s k).upsets = s.upsets := rfl

/-! ### setG -/

@[simp] theorem setG_core (s : State) (c : Fin 8) (r : GReg) (w : Word) : (setG s c r w).core = s.core := by unfold setG; split <;> rfl
@[simp] theorem setG_clu (s : State) (c : Fin 8) (r : GReg) (w : Word) : (setG s c r w).clu = s.clu := by unfold setG; split <;> rfl
@[simp] theorem setG_mod (s : State) (c : Fin 8) (r : GReg) (w : Word) : (setG s c r w).mod = s.mod := by unfold setG; split <;> rfl
@[simp] theorem setG_mem (s : State) (c : Fin 8) (r : GReg) (w : Word) : (setG s c r w).mem = s.mem := by unfold setG; split <;> rfl
@[simp] theorem setG_descs (s : State) (c : Fin 8) (r : GReg) (w : Word) : (setG s c r w).descs = s.descs := by unfold setG; split <;> rfl
@[simp] theorem setG_tags (s : State) (c : Fin 8) (r : GReg) (w : Word) : (setG s c r w).tags = s.tags := by unfold setG; split <;> rfl
@[simp] theorem setG_poison (s : State) (c : Fin 8) (r : GReg) (w : Word) : (setG s c r w).poison = s.poison := by unfold setG; split <;> rfl
@[simp] theorem setG_badParity (s : State) (c : Fin 8) (r : GReg) (w : Word) : (setG s c r w).badParity = s.badParity := by unfold setG; split <;> rfl
@[simp] theorem setG_icache (s : State) (c : Fin 8) (r : GReg) (w : Word) : (setG s c r w).icache = s.icache := by unfold setG; split <;> rfl
@[simp] theorem setG_vis (s : State) (c : Fin 8) (r : GReg) (w : Word) : (setG s c r w).vis = s.vis := by unfold setG; split <;> rfl
@[simp] theorem setG_unacked (s : State) (c : Fin 8) (r : GReg) (w : Word) : (setG s c r w).unacked = s.unacked := by unfold setG; split <;> rfl
@[simp] theorem setG_feQueue (s : State) (c : Fin 8) (r : GReg) (w : Word) : (setG s c r w).feQueue = s.feQueue := by unfold setG; split <;> rfl
@[simp] theorem setG_saved (s : State) (c : Fin 8) (r : GReg) (w : Word) : (setG s c r w).saved = s.saved := by unfold setG; split <;> rfl
@[simp] theorem setG_inputs (s : State) (c : Fin 8) (r : GReg) (w : Word) : (setG s c r w).inputs = s.inputs := by unfold setG; split <;> rfl
@[simp] theorem setG_choice (s : State) (c : Fin 8) (r : GReg) (w : Word) : (setG s c r w).choice = s.choice := by unfold setG; split <;> rfl
@[simp] theorem setG_upsets (s : State) (c : Fin 8) (r : GReg) (w : Word) : (setG s c r w).upsets = s.upsets := by unfold setG; split <;> rfl

/-! ### setV -/

@[simp] theorem setV_core (s : State) (c : Fin 8) (v : VCode) (w : Vec) : (setV s c v w).core = s.core := by unfold setV; split; rfl; split <;> rfl
@[simp] theorem setV_clu (s : State) (c : Fin 8) (v : VCode) (w : Vec) : (setV s c v w).clu = s.clu := by unfold setV; split; rfl; split <;> rfl
@[simp] theorem setV_mod (s : State) (c : Fin 8) (v : VCode) (w : Vec) : (setV s c v w).mod = s.mod := by unfold setV; split; rfl; split <;> rfl
@[simp] theorem setV_mem (s : State) (c : Fin 8) (v : VCode) (w : Vec) : (setV s c v w).mem = s.mem := by unfold setV; split; rfl; split <;> rfl
@[simp] theorem setV_descs (s : State) (c : Fin 8) (v : VCode) (w : Vec) : (setV s c v w).descs = s.descs := by unfold setV; split; rfl; split <;> rfl
@[simp] theorem setV_tags (s : State) (c : Fin 8) (v : VCode) (w : Vec) : (setV s c v w).tags = s.tags := by unfold setV; split; rfl; split <;> rfl
@[simp] theorem setV_poison (s : State) (c : Fin 8) (v : VCode) (w : Vec) : (setV s c v w).poison = s.poison := by unfold setV; split; rfl; split <;> rfl
@[simp] theorem setV_badParity (s : State) (c : Fin 8) (v : VCode) (w : Vec) : (setV s c v w).badParity = s.badParity := by unfold setV; split; rfl; split <;> rfl
@[simp] theorem setV_icache (s : State) (c : Fin 8) (v : VCode) (w : Vec) : (setV s c v w).icache = s.icache := by unfold setV; split; rfl; split <;> rfl
@[simp] theorem setV_vis (s : State) (c : Fin 8) (v : VCode) (w : Vec) : (setV s c v w).vis = s.vis := by unfold setV; split; rfl; split <;> rfl
@[simp] theorem setV_unacked (s : State) (c : Fin 8) (v : VCode) (w : Vec) : (setV s c v w).unacked = s.unacked := by unfold setV; split; rfl; split <;> rfl
@[simp] theorem setV_feQueue (s : State) (c : Fin 8) (v : VCode) (w : Vec) : (setV s c v w).feQueue = s.feQueue := by unfold setV; split; rfl; split <;> rfl
@[simp] theorem setV_saved (s : State) (c : Fin 8) (v : VCode) (w : Vec) : (setV s c v w).saved = s.saved := by unfold setV; split; rfl; split <;> rfl
@[simp] theorem setV_inputs (s : State) (c : Fin 8) (v : VCode) (w : Vec) : (setV s c v w).inputs = s.inputs := by unfold setV; split; rfl; split <;> rfl
@[simp] theorem setV_choice (s : State) (c : Fin 8) (v : VCode) (w : Vec) : (setV s c v w).choice = s.choice := by unfold setV; split; rfl; split <;> rfl
@[simp] theorem setV_upsets (s : State) (c : Fin 8) (v : VCode) (w : Vec) : (setV s c v w).upsets = s.upsets := by unfold setV; split; rfl; split <;> rfl

/-! ### pushL -/

@[simp] theorem pushL_core (s : State) (c : Fin 8) (w : Vec) : (pushL s c w).core = s.core := rfl
@[simp] theorem pushL_clu (s : State) (c : Fin 8) (w : Vec) : (pushL s c w).clu = s.clu := rfl
@[simp] theorem pushL_mod (s : State) (c : Fin 8) (w : Vec) : (pushL s c w).mod = s.mod := rfl
@[simp] theorem pushL_mem (s : State) (c : Fin 8) (w : Vec) : (pushL s c w).mem = s.mem := rfl
@[simp] theorem pushL_descs (s : State) (c : Fin 8) (w : Vec) : (pushL s c w).descs = s.descs := rfl
@[simp] theorem pushL_tags (s : State) (c : Fin 8) (w : Vec) : (pushL s c w).tags = s.tags := rfl
@[simp] theorem pushL_poison (s : State) (c : Fin 8) (w : Vec) : (pushL s c w).poison = s.poison := rfl
@[simp] theorem pushL_badParity (s : State) (c : Fin 8) (w : Vec) : (pushL s c w).badParity = s.badParity := rfl
@[simp] theorem pushL_icache (s : State) (c : Fin 8) (w : Vec) : (pushL s c w).icache = s.icache := rfl
@[simp] theorem pushL_vis (s : State) (c : Fin 8) (w : Vec) : (pushL s c w).vis = s.vis := rfl
@[simp] theorem pushL_unacked (s : State) (c : Fin 8) (w : Vec) : (pushL s c w).unacked = s.unacked := rfl
@[simp] theorem pushL_feQueue (s : State) (c : Fin 8) (w : Vec) : (pushL s c w).feQueue = s.feQueue := rfl
@[simp] theorem pushL_saved (s : State) (c : Fin 8) (w : Vec) : (pushL s c w).saved = s.saved := rfl
@[simp] theorem pushL_inputs (s : State) (c : Fin 8) (w : Vec) : (pushL s c w).inputs = s.inputs := rfl
@[simp] theorem pushL_choice (s : State) (c : Fin 8) (w : Vec) : (pushL s c w).choice = s.choice := rfl
@[simp] theorem pushL_upsets (s : State) (c : Fin 8) (w : Vec) : (pushL s c w).upsets = s.upsets := rfl

/-! ### setHandle -/

@[simp] theorem setHandle_core (s : State) (c h : Fin 8) (x : Option Handle) : (setHandle s c h x).core = s.core := rfl
@[simp] theorem setHandle_clu (s : State) (c h : Fin 8) (x : Option Handle) : (setHandle s c h x).clu = s.clu := rfl
@[simp] theorem setHandle_mod (s : State) (c h : Fin 8) (x : Option Handle) : (setHandle s c h x).mod = s.mod := rfl
@[simp] theorem setHandle_mem (s : State) (c h : Fin 8) (x : Option Handle) : (setHandle s c h x).mem = s.mem := rfl
@[simp] theorem setHandle_descs (s : State) (c h : Fin 8) (x : Option Handle) : (setHandle s c h x).descs = s.descs := rfl
@[simp] theorem setHandle_tags (s : State) (c h : Fin 8) (x : Option Handle) : (setHandle s c h x).tags = s.tags := rfl
@[simp] theorem setHandle_poison (s : State) (c h : Fin 8) (x : Option Handle) : (setHandle s c h x).poison = s.poison := rfl
@[simp] theorem setHandle_badParity (s : State) (c h : Fin 8) (x : Option Handle) : (setHandle s c h x).badParity = s.badParity := rfl
@[simp] theorem setHandle_icache (s : State) (c h : Fin 8) (x : Option Handle) : (setHandle s c h x).icache = s.icache := rfl
@[simp] theorem setHandle_vis (s : State) (c h : Fin 8) (x : Option Handle) : (setHandle s c h x).vis = s.vis := rfl
@[simp] theorem setHandle_unacked (s : State) (c h : Fin 8) (x : Option Handle) : (setHandle s c h x).unacked = s.unacked := rfl
@[simp] theorem setHandle_feQueue (s : State) (c h : Fin 8) (x : Option Handle) : (setHandle s c h x).feQueue = s.feQueue := rfl
@[simp] theorem setHandle_saved (s : State) (c h : Fin 8) (x : Option Handle) : (setHandle s c h x).saved = s.saved := rfl
@[simp] theorem setHandle_inputs (s : State) (c h : Fin 8) (x : Option Handle) : (setHandle s c h x).inputs = s.inputs := rfl
@[simp] theorem setHandle_choice (s : State) (c h : Fin 8) (x : Option Handle) : (setHandle s c h x).choice = s.choice := rfl
@[simp] theorem setHandle_upsets (s : State) (c h : Fin 8) (x : Option Handle) : (setHandle s c h x).upsets = s.upsets := rfl

/-! ### setTags -/

@[simp] theorem setTags_ctxs (s : State) (loc : Nat) (z : AtSize) (b : Bool) : (setTags s loc z b).ctxs = s.ctxs := rfl
@[simp] theorem setTags_core (s : State) (loc : Nat) (z : AtSize) (b : Bool) : (setTags s loc z b).core = s.core := rfl
@[simp] theorem setTags_clu (s : State) (loc : Nat) (z : AtSize) (b : Bool) : (setTags s loc z b).clu = s.clu := rfl
@[simp] theorem setTags_mod (s : State) (loc : Nat) (z : AtSize) (b : Bool) : (setTags s loc z b).mod = s.mod := rfl
@[simp] theorem setTags_mem (s : State) (loc : Nat) (z : AtSize) (b : Bool) : (setTags s loc z b).mem = s.mem := rfl
@[simp] theorem setTags_descs (s : State) (loc : Nat) (z : AtSize) (b : Bool) : (setTags s loc z b).descs = s.descs := rfl
@[simp] theorem setTags_badParity (s : State) (loc : Nat) (z : AtSize) (b : Bool) : (setTags s loc z b).badParity = s.badParity := rfl
@[simp] theorem setTags_icache (s : State) (loc : Nat) (z : AtSize) (b : Bool) : (setTags s loc z b).icache = s.icache := rfl
@[simp] theorem setTags_vis (s : State) (loc : Nat) (z : AtSize) (b : Bool) : (setTags s loc z b).vis = s.vis := rfl
@[simp] theorem setTags_unacked (s : State) (loc : Nat) (z : AtSize) (b : Bool) : (setTags s loc z b).unacked = s.unacked := rfl
@[simp] theorem setTags_feQueue (s : State) (loc : Nat) (z : AtSize) (b : Bool) : (setTags s loc z b).feQueue = s.feQueue := rfl
@[simp] theorem setTags_saved (s : State) (loc : Nat) (z : AtSize) (b : Bool) : (setTags s loc z b).saved = s.saved := rfl
@[simp] theorem setTags_inputs (s : State) (loc : Nat) (z : AtSize) (b : Bool) : (setTags s loc z b).inputs = s.inputs := rfl
@[simp] theorem setTags_choice (s : State) (loc : Nat) (z : AtSize) (b : Bool) : (setTags s loc z b).choice = s.choice := rfl
@[simp] theorem setTags_upsets (s : State) (loc : Nat) (z : AtSize) (b : Bool) : (setTags s loc z b).upsets = s.upsets := rfl

/-! ### pushJob -/

@[simp] theorem pushJob_core (s : State) (j : Job) : (pushJob s j).core = s.core := rfl
@[simp] theorem pushJob_mod (s : State) (j : Job) : (pushJob s j).mod = s.mod := rfl
@[simp] theorem pushJob_mem (s : State) (j : Job) : (pushJob s j).mem = s.mem := rfl
@[simp] theorem pushJob_descs (s : State) (j : Job) : (pushJob s j).descs = s.descs := rfl
@[simp] theorem pushJob_tags (s : State) (j : Job) : (pushJob s j).tags = s.tags := rfl
@[simp] theorem pushJob_poison (s : State) (j : Job) : (pushJob s j).poison = s.poison := rfl
@[simp] theorem pushJob_badParity (s : State) (j : Job) : (pushJob s j).badParity = s.badParity := rfl
@[simp] theorem pushJob_icache (s : State) (j : Job) : (pushJob s j).icache = s.icache := rfl
@[simp] theorem pushJob_unacked (s : State) (j : Job) : (pushJob s j).unacked = s.unacked := rfl
@[simp] theorem pushJob_feQueue (s : State) (j : Job) : (pushJob s j).feQueue = s.feQueue := rfl
@[simp] theorem pushJob_saved (s : State) (j : Job) : (pushJob s j).saved = s.saved := rfl
@[simp] theorem pushJob_inputs (s : State) (j : Job) : (pushJob s j).inputs = s.inputs := rfl
@[simp] theorem pushJob_choice (s : State) (j : Job) : (pushJob s j).choice = s.choice := rfl
@[simp] theorem pushJob_upsets (s : State) (j : Job) : (pushJob s j).upsets = s.upsets := rfl

/-! ### setJob -/

@[simp] theorem setJob_ctxs (s : State) (j : Job) : (setJob s j).ctxs = s.ctxs := rfl
@[simp] theorem setJob_core (s : State) (j : Job) : (setJob s j).core = s.core := rfl
@[simp] theorem setJob_mod (s : State) (j : Job) : (setJob s j).mod = s.mod := rfl
@[simp] theorem setJob_mem (s : State) (j : Job) : (setJob s j).mem = s.mem := rfl
@[simp] theorem setJob_descs (s : State) (j : Job) : (setJob s j).descs = s.descs := rfl
@[simp] theorem setJob_tags (s : State) (j : Job) : (setJob s j).tags = s.tags := rfl
@[simp] theorem setJob_poison (s : State) (j : Job) : (setJob s j).poison = s.poison := rfl
@[simp] theorem setJob_badParity (s : State) (j : Job) : (setJob s j).badParity = s.badParity := rfl
@[simp] theorem setJob_icache (s : State) (j : Job) : (setJob s j).icache = s.icache := rfl
@[simp] theorem setJob_vis (s : State) (j : Job) : (setJob s j).vis = s.vis := rfl
@[simp] theorem setJob_unacked (s : State) (j : Job) : (setJob s j).unacked = s.unacked := rfl
@[simp] theorem setJob_feQueue (s : State) (j : Job) : (setJob s j).feQueue = s.feQueue := rfl
@[simp] theorem setJob_saved (s : State) (j : Job) : (setJob s j).saved = s.saved := rfl
@[simp] theorem setJob_inputs (s : State) (j : Job) : (setJob s j).inputs = s.inputs := rfl
@[simp] theorem setJob_choice (s : State) (j : Job) : (setJob s j).choice = s.choice := rfl
@[simp] theorem setJob_upsets (s : State) (j : Job) : (setJob s j).upsets = s.upsets := rfl

/-! ### wakeAgain -/

@[simp] theorem wakeAgain_core (s : State) (c : Fin 8) (b : Bool) : (wakeAgain s c b).core = s.core := rfl
@[simp] theorem wakeAgain_clu (s : State) (c : Fin 8) (b : Bool) : (wakeAgain s c b).clu = s.clu := rfl
@[simp] theorem wakeAgain_mod (s : State) (c : Fin 8) (b : Bool) : (wakeAgain s c b).mod = s.mod := rfl
@[simp] theorem wakeAgain_mem (s : State) (c : Fin 8) (b : Bool) : (wakeAgain s c b).mem = s.mem := rfl
@[simp] theorem wakeAgain_descs (s : State) (c : Fin 8) (b : Bool) : (wakeAgain s c b).descs = s.descs := rfl
@[simp] theorem wakeAgain_tags (s : State) (c : Fin 8) (b : Bool) : (wakeAgain s c b).tags = s.tags := rfl
@[simp] theorem wakeAgain_poison (s : State) (c : Fin 8) (b : Bool) : (wakeAgain s c b).poison = s.poison := rfl
@[simp] theorem wakeAgain_badParity (s : State) (c : Fin 8) (b : Bool) : (wakeAgain s c b).badParity = s.badParity := rfl
@[simp] theorem wakeAgain_icache (s : State) (c : Fin 8) (b : Bool) : (wakeAgain s c b).icache = s.icache := rfl
@[simp] theorem wakeAgain_vis (s : State) (c : Fin 8) (b : Bool) : (wakeAgain s c b).vis = s.vis := rfl
@[simp] theorem wakeAgain_unacked (s : State) (c : Fin 8) (b : Bool) : (wakeAgain s c b).unacked = s.unacked := rfl
@[simp] theorem wakeAgain_feQueue (s : State) (c : Fin 8) (b : Bool) : (wakeAgain s c b).feQueue = s.feQueue := rfl
@[simp] theorem wakeAgain_saved (s : State) (c : Fin 8) (b : Bool) : (wakeAgain s c b).saved = s.saved := rfl
@[simp] theorem wakeAgain_inputs (s : State) (c : Fin 8) (b : Bool) : (wakeAgain s c b).inputs = s.inputs := rfl
@[simp] theorem wakeAgain_choice (s : State) (c : Fin 8) (b : Bool) : (wakeAgain s c b).choice = s.choice := rfl
@[simp] theorem wakeAgain_upsets (s : State) (c : Fin 8) (b : Bool) : (wakeAgain s c b).upsets = s.upsets := rfl

/-! ### wakePast -/

@[simp] theorem wakePast_clu (s : State) (c : Fin 8) (n : Nat) : (wakePast s c n).clu = s.clu := rfl
@[simp] theorem wakePast_mod (s : State) (c : Fin 8) (n : Nat) : (wakePast s c n).mod = s.mod := rfl
@[simp] theorem wakePast_mem (s : State) (c : Fin 8) (n : Nat) : (wakePast s c n).mem = s.mem := rfl
@[simp] theorem wakePast_descs (s : State) (c : Fin 8) (n : Nat) : (wakePast s c n).descs = s.descs := rfl
@[simp] theorem wakePast_tags (s : State) (c : Fin 8) (n : Nat) : (wakePast s c n).tags = s.tags := rfl
@[simp] theorem wakePast_poison (s : State) (c : Fin 8) (n : Nat) : (wakePast s c n).poison = s.poison := rfl
@[simp] theorem wakePast_badParity (s : State) (c : Fin 8) (n : Nat) : (wakePast s c n).badParity = s.badParity := rfl
@[simp] theorem wakePast_icache (s : State) (c : Fin 8) (n : Nat) : (wakePast s c n).icache = s.icache := rfl
@[simp] theorem wakePast_vis (s : State) (c : Fin 8) (n : Nat) : (wakePast s c n).vis = s.vis := rfl
@[simp] theorem wakePast_unacked (s : State) (c : Fin 8) (n : Nat) : (wakePast s c n).unacked = s.unacked := rfl
@[simp] theorem wakePast_feQueue (s : State) (c : Fin 8) (n : Nat) : (wakePast s c n).feQueue = s.feQueue := rfl
@[simp] theorem wakePast_saved (s : State) (c : Fin 8) (n : Nat) : (wakePast s c n).saved = s.saved := rfl
@[simp] theorem wakePast_inputs (s : State) (c : Fin 8) (n : Nat) : (wakePast s c n).inputs = s.inputs := rfl
@[simp] theorem wakePast_choice (s : State) (c : Fin 8) (n : Nat) : (wakePast s c n).choice = s.choice := rfl
@[simp] theorem wakePast_upsets (s : State) (c : Fin 8) (n : Nat) : (wakePast s c n).upsets = s.upsets := rfl

/-! ### armEntry -/

@[simp] theorem armEntry_ctxs (s : State) (i c : Fin 8) (loc : Nat) (a : Word) : (armEntry s i c loc a).ctxs = s.ctxs := rfl
@[simp] theorem armEntry_clu (s : State) (i c : Fin 8) (loc : Nat) (a : Word) : (armEntry s i c loc a).clu = s.clu := rfl
@[simp] theorem armEntry_mod (s : State) (i c : Fin 8) (loc : Nat) (a : Word) : (armEntry s i c loc a).mod = s.mod := rfl
@[simp] theorem armEntry_mem (s : State) (i c : Fin 8) (loc : Nat) (a : Word) : (armEntry s i c loc a).mem = s.mem := rfl
@[simp] theorem armEntry_descs (s : State) (i c : Fin 8) (loc : Nat) (a : Word) : (armEntry s i c loc a).descs = s.descs := rfl
@[simp] theorem armEntry_tags (s : State) (i c : Fin 8) (loc : Nat) (a : Word) : (armEntry s i c loc a).tags = s.tags := rfl
@[simp] theorem armEntry_poison (s : State) (i c : Fin 8) (loc : Nat) (a : Word) : (armEntry s i c loc a).poison = s.poison := rfl
@[simp] theorem armEntry_badParity (s : State) (i c : Fin 8) (loc : Nat) (a : Word) : (armEntry s i c loc a).badParity = s.badParity := rfl
@[simp] theorem armEntry_icache (s : State) (i c : Fin 8) (loc : Nat) (a : Word) : (armEntry s i c loc a).icache = s.icache := rfl
@[simp] theorem armEntry_vis (s : State) (i c : Fin 8) (loc : Nat) (a : Word) : (armEntry s i c loc a).vis = s.vis := rfl
@[simp] theorem armEntry_unacked (s : State) (i c : Fin 8) (loc : Nat) (a : Word) : (armEntry s i c loc a).unacked = s.unacked := rfl
@[simp] theorem armEntry_feQueue (s : State) (i c : Fin 8) (loc : Nat) (a : Word) : (armEntry s i c loc a).feQueue = s.feQueue := rfl
@[simp] theorem armEntry_saved (s : State) (i c : Fin 8) (loc : Nat) (a : Word) : (armEntry s i c loc a).saved = s.saved := rfl
@[simp] theorem armEntry_inputs (s : State) (i c : Fin 8) (loc : Nat) (a : Word) : (armEntry s i c loc a).inputs = s.inputs := rfl
@[simp] theorem armEntry_choice (s : State) (i c : Fin 8) (loc : Nat) (a : Word) : (armEntry s i c loc a).choice = s.choice := rfl
@[simp] theorem armEntry_upsets (s : State) (i c : Fin 8) (loc : Nat) (a : Word) : (armEntry s i c loc a).upsets = s.upsets := rfl

/-! ### disarmAll -/

@[simp] theorem disarmAll_ctxs (s : State) (c : Fin 8) : (disarmAll s c).ctxs = s.ctxs := rfl
@[simp] theorem disarmAll_clu (s : State) (c : Fin 8) : (disarmAll s c).clu = s.clu := rfl
@[simp] theorem disarmAll_mod (s : State) (c : Fin 8) : (disarmAll s c).mod = s.mod := rfl
@[simp] theorem disarmAll_mem (s : State) (c : Fin 8) : (disarmAll s c).mem = s.mem := rfl
@[simp] theorem disarmAll_descs (s : State) (c : Fin 8) : (disarmAll s c).descs = s.descs := rfl
@[simp] theorem disarmAll_tags (s : State) (c : Fin 8) : (disarmAll s c).tags = s.tags := rfl
@[simp] theorem disarmAll_poison (s : State) (c : Fin 8) : (disarmAll s c).poison = s.poison := rfl
@[simp] theorem disarmAll_badParity (s : State) (c : Fin 8) : (disarmAll s c).badParity = s.badParity := rfl
@[simp] theorem disarmAll_icache (s : State) (c : Fin 8) : (disarmAll s c).icache = s.icache := rfl
@[simp] theorem disarmAll_vis (s : State) (c : Fin 8) : (disarmAll s c).vis = s.vis := rfl
@[simp] theorem disarmAll_unacked (s : State) (c : Fin 8) : (disarmAll s c).unacked = s.unacked := rfl
@[simp] theorem disarmAll_feQueue (s : State) (c : Fin 8) : (disarmAll s c).feQueue = s.feQueue := rfl
@[simp] theorem disarmAll_saved (s : State) (c : Fin 8) : (disarmAll s c).saved = s.saved := rfl
@[simp] theorem disarmAll_inputs (s : State) (c : Fin 8) : (disarmAll s c).inputs = s.inputs := rfl
@[simp] theorem disarmAll_choice (s : State) (c : Fin 8) : (disarmAll s c).choice = s.choice := rfl
@[simp] theorem disarmAll_upsets (s : State) (c : Fin 8) : (disarmAll s c).upsets = s.upsets := rfl

/-! ### setPub -/

@[simp] theorem setPub_ctxs (s : State) (p : PubBuf) : (setPub s p).ctxs = s.ctxs := rfl
@[simp] theorem setPub_core (s : State) (p : PubBuf) : (setPub s p).core = s.core := rfl
@[simp] theorem setPub_clu (s : State) (p : PubBuf) : (setPub s p).clu = s.clu := rfl
@[simp] theorem setPub_mem (s : State) (p : PubBuf) : (setPub s p).mem = s.mem := rfl
@[simp] theorem setPub_descs (s : State) (p : PubBuf) : (setPub s p).descs = s.descs := rfl
@[simp] theorem setPub_tags (s : State) (p : PubBuf) : (setPub s p).tags = s.tags := rfl
@[simp] theorem setPub_poison (s : State) (p : PubBuf) : (setPub s p).poison = s.poison := rfl
@[simp] theorem setPub_badParity (s : State) (p : PubBuf) : (setPub s p).badParity = s.badParity := rfl
@[simp] theorem setPub_icache (s : State) (p : PubBuf) : (setPub s p).icache = s.icache := rfl
@[simp] theorem setPub_vis (s : State) (p : PubBuf) : (setPub s p).vis = s.vis := rfl
@[simp] theorem setPub_unacked (s : State) (p : PubBuf) : (setPub s p).unacked = s.unacked := rfl
@[simp] theorem setPub_feQueue (s : State) (p : PubBuf) : (setPub s p).feQueue = s.feQueue := rfl
@[simp] theorem setPub_saved (s : State) (p : PubBuf) : (setPub s p).saved = s.saved := rfl
@[simp] theorem setPub_inputs (s : State) (p : PubBuf) : (setPub s p).inputs = s.inputs := rfl
@[simp] theorem setPub_choice (s : State) (p : PubBuf) : (setPub s p).choice = s.choice := rfl
@[simp] theorem setPub_upsets (s : State) (p : PubBuf) : (setPub s p).upsets = s.upsets := rfl

/-! ### yieldTurn -/

@[simp] theorem yieldTurn_core (s : State) : (yieldTurn s).core = s.core := rfl
@[simp] theorem yieldTurn_clu (s : State) : (yieldTurn s).clu = s.clu := rfl
@[simp] theorem yieldTurn_mod (s : State) : (yieldTurn s).mod = s.mod := rfl
@[simp] theorem yieldTurn_mem (s : State) : (yieldTurn s).mem = s.mem := rfl
@[simp] theorem yieldTurn_descs (s : State) : (yieldTurn s).descs = s.descs := rfl
@[simp] theorem yieldTurn_tags (s : State) : (yieldTurn s).tags = s.tags := rfl
@[simp] theorem yieldTurn_poison (s : State) : (yieldTurn s).poison = s.poison := rfl
@[simp] theorem yieldTurn_badParity (s : State) : (yieldTurn s).badParity = s.badParity := rfl
@[simp] theorem yieldTurn_icache (s : State) : (yieldTurn s).icache = s.icache := rfl
@[simp] theorem yieldTurn_vis (s : State) : (yieldTurn s).vis = s.vis := rfl
@[simp] theorem yieldTurn_unacked (s : State) : (yieldTurn s).unacked = s.unacked := rfl
@[simp] theorem yieldTurn_feQueue (s : State) : (yieldTurn s).feQueue = s.feQueue := rfl
@[simp] theorem yieldTurn_saved (s : State) : (yieldTurn s).saved = s.saved := rfl
@[simp] theorem yieldTurn_inputs (s : State) : (yieldTurn s).inputs = s.inputs := rfl
@[simp] theorem yieldTurn_choice (s : State) : (yieldTurn s).choice = s.choice := rfl
@[simp] theorem yieldTurn_upsets (s : State) : (yieldTurn s).upsets = s.upsets := rfl

/-! ### extendUnit -/

@[simp] theorem extendUnit_clu (s : State) (u : UnitForm) : (extendUnit s u).clu = s.clu := rfl
@[simp] theorem extendUnit_mod (s : State) (u : UnitForm) : (extendUnit s u).mod = s.mod := rfl
@[simp] theorem extendUnit_mem (s : State) (u : UnitForm) : (extendUnit s u).mem = s.mem := rfl
@[simp] theorem extendUnit_descs (s : State) (u : UnitForm) : (extendUnit s u).descs = s.descs := rfl
@[simp] theorem extendUnit_tags (s : State) (u : UnitForm) : (extendUnit s u).tags = s.tags := rfl
@[simp] theorem extendUnit_poison (s : State) (u : UnitForm) : (extendUnit s u).poison = s.poison := rfl
@[simp] theorem extendUnit_badParity (s : State) (u : UnitForm) : (extendUnit s u).badParity = s.badParity := rfl
@[simp] theorem extendUnit_icache (s : State) (u : UnitForm) : (extendUnit s u).icache = s.icache := rfl
@[simp] theorem extendUnit_vis (s : State) (u : UnitForm) : (extendUnit s u).vis = s.vis := rfl
@[simp] theorem extendUnit_unacked (s : State) (u : UnitForm) : (extendUnit s u).unacked = s.unacked := rfl
@[simp] theorem extendUnit_feQueue (s : State) (u : UnitForm) : (extendUnit s u).feQueue = s.feQueue := rfl
@[simp] theorem extendUnit_saved (s : State) (u : UnitForm) : (extendUnit s u).saved = s.saved := rfl
@[simp] theorem extendUnit_inputs (s : State) (u : UnitForm) : (extendUnit s u).inputs = s.inputs := rfl
@[simp] theorem extendUnit_choice (s : State) (u : UnitForm) : (extendUnit s u).choice = s.choice := rfl
@[simp] theorem extendUnit_upsets (s : State) (u : UnitForm) : (extendUnit s u).upsets = s.upsets := rfl

/-! ### settle -/

@[simp] theorem settle_ctxs (s : State) : (settle s).ctxs = s.ctxs := rfl
@[simp] theorem settle_core (s : State) : (settle s).core = s.core := rfl
@[simp] theorem settle_clu (s : State) : (settle s).clu = s.clu := rfl
@[simp] theorem settle_mod (s : State) : (settle s).mod = s.mod := rfl
@[simp] theorem settle_mem (s : State) : (settle s).mem = s.mem := rfl
@[simp] theorem settle_descs (s : State) : (settle s).descs = s.descs := rfl
@[simp] theorem settle_tags (s : State) : (settle s).tags = s.tags := rfl
@[simp] theorem settle_poison (s : State) : (settle s).poison = s.poison := rfl
@[simp] theorem settle_badParity (s : State) : (settle s).badParity = s.badParity := rfl
@[simp] theorem settle_icache (s : State) : (settle s).icache = s.icache := rfl
@[simp] theorem settle_unacked (s : State) : (settle s).unacked = s.unacked := rfl
@[simp] theorem settle_feQueue (s : State) : (settle s).feQueue = s.feQueue := rfl
@[simp] theorem settle_saved (s : State) : (settle s).saved = s.saved := rfl
@[simp] theorem settle_inputs (s : State) : (settle s).inputs = s.inputs := rfl
@[simp] theorem settle_choice (s : State) : (settle s).choice = s.choice := rfl
@[simp] theorem settle_upsets (s : State) : (settle s).upsets = s.upsets := rfl
@[simp] theorem ctx_settle (s : State) (d : Fin 8) : (settle s).ctx d = s.ctx d := rfl

/-! ### seenAt -/

@[simp] theorem seenAt_ctxs (s : State) (p : Nat → Bool) : (seenAt s p).ctxs = s.ctxs := rfl
@[simp] theorem seenAt_core (s : State) (p : Nat → Bool) : (seenAt s p).core = s.core := rfl
@[simp] theorem seenAt_clu (s : State) (p : Nat → Bool) : (seenAt s p).clu = s.clu := rfl
@[simp] theorem seenAt_mod (s : State) (p : Nat → Bool) : (seenAt s p).mod = s.mod := rfl
@[simp] theorem seenAt_mem (s : State) (p : Nat → Bool) : (seenAt s p).mem = s.mem := rfl
@[simp] theorem seenAt_descs (s : State) (p : Nat → Bool) : (seenAt s p).descs = s.descs := rfl
@[simp] theorem seenAt_tags (s : State) (p : Nat → Bool) : (seenAt s p).tags = s.tags := rfl
@[simp] theorem seenAt_poison (s : State) (p : Nat → Bool) : (seenAt s p).poison = s.poison := rfl
@[simp] theorem seenAt_badParity (s : State) (p : Nat → Bool) : (seenAt s p).badParity = s.badParity := rfl
@[simp] theorem seenAt_icache (s : State) (p : Nat → Bool) : (seenAt s p).icache = s.icache := rfl
@[simp] theorem seenAt_unacked (s : State) (p : Nat → Bool) : (seenAt s p).unacked = s.unacked := rfl
@[simp] theorem seenAt_feQueue (s : State) (p : Nat → Bool) : (seenAt s p).feQueue = s.feQueue := rfl
@[simp] theorem seenAt_saved (s : State) (p : Nat → Bool) : (seenAt s p).saved = s.saved := rfl
@[simp] theorem seenAt_inputs (s : State) (p : Nat → Bool) : (seenAt s p).inputs = s.inputs := rfl
@[simp] theorem seenAt_choice (s : State) (p : Nat → Bool) : (seenAt s p).choice = s.choice := rfl
@[simp] theorem seenAt_upsets (s : State) (p : Nat → Bool) : (seenAt s p).upsets = s.upsets := rfl
@[simp] theorem ctx_seenAt (s : State) (p : Nat → Bool) (d : Fin 8) : (seenAt s p).ctx d = s.ctx d := rfl

/-! ### readNewest -/

@[simp] theorem readNewest_ctxs (s : State) (a : Agent) (m : AtMode) (loc n : Nat) : (readNewest s a m loc n).ctxs = s.ctxs := rfl
@[simp] theorem readNewest_core (s : State) (a : Agent) (m : AtMode) (loc n : Nat) : (readNewest s a m loc n).core = s.core := rfl
@[simp] theorem readNewest_clu (s : State) (a : Agent) (m : AtMode) (loc n : Nat) : (readNewest s a m loc n).clu = s.clu := rfl
@[simp] theorem readNewest_mod (s : State) (a : Agent) (m : AtMode) (loc n : Nat) : (readNewest s a m loc n).mod = s.mod := rfl
@[simp] theorem readNewest_mem (s : State) (a : Agent) (m : AtMode) (loc n : Nat) : (readNewest s a m loc n).mem = s.mem := rfl
@[simp] theorem readNewest_descs (s : State) (a : Agent) (m : AtMode) (loc n : Nat) : (readNewest s a m loc n).descs = s.descs := rfl
@[simp] theorem readNewest_tags (s : State) (a : Agent) (m : AtMode) (loc n : Nat) : (readNewest s a m loc n).tags = s.tags := rfl
@[simp] theorem readNewest_poison (s : State) (a : Agent) (m : AtMode) (loc n : Nat) : (readNewest s a m loc n).poison = s.poison := rfl
@[simp] theorem readNewest_badParity (s : State) (a : Agent) (m : AtMode) (loc n : Nat) : (readNewest s a m loc n).badParity = s.badParity := rfl
@[simp] theorem readNewest_icache (s : State) (a : Agent) (m : AtMode) (loc n : Nat) : (readNewest s a m loc n).icache = s.icache := rfl
@[simp] theorem readNewest_unacked (s : State) (a : Agent) (m : AtMode) (loc n : Nat) : (readNewest s a m loc n).unacked = s.unacked := rfl
@[simp] theorem readNewest_feQueue (s : State) (a : Agent) (m : AtMode) (loc n : Nat) : (readNewest s a m loc n).feQueue = s.feQueue := rfl
@[simp] theorem readNewest_saved (s : State) (a : Agent) (m : AtMode) (loc n : Nat) : (readNewest s a m loc n).saved = s.saved := rfl
@[simp] theorem readNewest_inputs (s : State) (a : Agent) (m : AtMode) (loc n : Nat) : (readNewest s a m loc n).inputs = s.inputs := rfl
@[simp] theorem readNewest_choice (s : State) (a : Agent) (m : AtMode) (loc n : Nat) : (readNewest s a m loc n).choice = s.choice := rfl
@[simp] theorem readNewest_upsets (s : State) (a : Agent) (m : AtMode) (loc n : Nat) : (readNewest s a m loc n).upsets = s.upsets := rfl
@[simp] theorem ctx_readNewest (s : State) (a : Agent) (m : AtMode) (loc n : Nat) (d : Fin 8) : (readNewest s a m loc n).ctx d = s.ctx d := rfl

/-! ### slotsSeen -/

@[simp] theorem slotsSeen_ctxs (s : State) (a : Agent) (loc n : Nat) : (slotsSeen s a loc n).ctxs = s.ctxs := rfl
@[simp] theorem slotsSeen_core (s : State) (a : Agent) (loc n : Nat) : (slotsSeen s a loc n).core = s.core := rfl
@[simp] theorem slotsSeen_clu (s : State) (a : Agent) (loc n : Nat) : (slotsSeen s a loc n).clu = s.clu := rfl
@[simp] theorem slotsSeen_mod (s : State) (a : Agent) (loc n : Nat) : (slotsSeen s a loc n).mod = s.mod := rfl
@[simp] theorem slotsSeen_mem (s : State) (a : Agent) (loc n : Nat) : (slotsSeen s a loc n).mem = s.mem := rfl
@[simp] theorem slotsSeen_descs (s : State) (a : Agent) (loc n : Nat) : (slotsSeen s a loc n).descs = s.descs := rfl
@[simp] theorem slotsSeen_tags (s : State) (a : Agent) (loc n : Nat) : (slotsSeen s a loc n).tags = s.tags := rfl
@[simp] theorem slotsSeen_poison (s : State) (a : Agent) (loc n : Nat) : (slotsSeen s a loc n).poison = s.poison := rfl
@[simp] theorem slotsSeen_badParity (s : State) (a : Agent) (loc n : Nat) : (slotsSeen s a loc n).badParity = s.badParity := rfl
@[simp] theorem slotsSeen_icache (s : State) (a : Agent) (loc n : Nat) : (slotsSeen s a loc n).icache = s.icache := rfl
@[simp] theorem slotsSeen_unacked (s : State) (a : Agent) (loc n : Nat) : (slotsSeen s a loc n).unacked = s.unacked := rfl
@[simp] theorem slotsSeen_feQueue (s : State) (a : Agent) (loc n : Nat) : (slotsSeen s a loc n).feQueue = s.feQueue := rfl
@[simp] theorem slotsSeen_saved (s : State) (a : Agent) (loc n : Nat) : (slotsSeen s a loc n).saved = s.saved := rfl
@[simp] theorem slotsSeen_inputs (s : State) (a : Agent) (loc n : Nat) : (slotsSeen s a loc n).inputs = s.inputs := rfl
@[simp] theorem slotsSeen_choice (s : State) (a : Agent) (loc n : Nat) : (slotsSeen s a loc n).choice = s.choice := rfl
@[simp] theorem slotsSeen_upsets (s : State) (a : Agent) (loc n : Nat) : (slotsSeen s a loc n).upsets = s.upsets := rfl
@[simp] theorem ctx_slotsSeen (s : State) (a : Agent) (loc n : Nat) (d : Fin 8) : (slotsSeen s a loc n).ctx d = s.ctx d := rfl

/-! ### inherit -/

@[simp] theorem inherit_ctxs (s : State) (a b : Agent) : (inherit s a b).ctxs = s.ctxs := rfl
@[simp] theorem inherit_core (s : State) (a b : Agent) : (inherit s a b).core = s.core := rfl
@[simp] theorem inherit_clu (s : State) (a b : Agent) : (inherit s a b).clu = s.clu := rfl
@[simp] theorem inherit_mod (s : State) (a b : Agent) : (inherit s a b).mod = s.mod := rfl
@[simp] theorem inherit_mem (s : State) (a b : Agent) : (inherit s a b).mem = s.mem := rfl
@[simp] theorem inherit_descs (s : State) (a b : Agent) : (inherit s a b).descs = s.descs := rfl
@[simp] theorem inherit_tags (s : State) (a b : Agent) : (inherit s a b).tags = s.tags := rfl
@[simp] theorem inherit_poison (s : State) (a b : Agent) : (inherit s a b).poison = s.poison := rfl
@[simp] theorem inherit_badParity (s : State) (a b : Agent) : (inherit s a b).badParity = s.badParity := rfl
@[simp] theorem inherit_icache (s : State) (a b : Agent) : (inherit s a b).icache = s.icache := rfl
@[simp] theorem inherit_unacked (s : State) (a b : Agent) : (inherit s a b).unacked = s.unacked := rfl
@[simp] theorem inherit_feQueue (s : State) (a b : Agent) : (inherit s a b).feQueue = s.feQueue := rfl
@[simp] theorem inherit_saved (s : State) (a b : Agent) : (inherit s a b).saved = s.saved := rfl
@[simp] theorem inherit_inputs (s : State) (a b : Agent) : (inherit s a b).inputs = s.inputs := rfl
@[simp] theorem inherit_choice (s : State) (a b : Agent) : (inherit s a b).choice = s.choice := rfl
@[simp] theorem inherit_upsets (s : State) (a b : Agent) : (inherit s a b).upsets = s.upsets := rfl
@[simp] theorem ctx_inherit (s : State) (a b : Agent) (d : Fin 8) : (inherit s a b).ctx d = s.ctx d := rfl

/-! ### noteAs -/

@[simp] theorem noteAs_ctxs (s : State) (w : Write) (locs : List Nat) : (noteAs s w locs).ctxs = s.ctxs := by unfold noteAs; dsimp only; split <;> rfl
@[simp] theorem noteAs_core (s : State) (w : Write) (locs : List Nat) : (noteAs s w locs).core = s.core := by unfold noteAs; dsimp only; split <;> rfl
@[simp] theorem noteAs_clu (s : State) (w : Write) (locs : List Nat) : (noteAs s w locs).clu = s.clu := by unfold noteAs; dsimp only; split <;> rfl
@[simp] theorem noteAs_mod (s : State) (w : Write) (locs : List Nat) : (noteAs s w locs).mod = s.mod := by unfold noteAs; dsimp only; split <;> rfl
@[simp] theorem noteAs_mem (s : State) (w : Write) (locs : List Nat) : (noteAs s w locs).mem = s.mem := by unfold noteAs; dsimp only; split <;> rfl
@[simp] theorem noteAs_descs (s : State) (w : Write) (locs : List Nat) : (noteAs s w locs).descs = s.descs := by unfold noteAs; dsimp only; split <;> rfl
@[simp] theorem noteAs_tags (s : State) (w : Write) (locs : List Nat) : (noteAs s w locs).tags = s.tags := by unfold noteAs; dsimp only; split <;> rfl
@[simp] theorem noteAs_poison (s : State) (w : Write) (locs : List Nat) : (noteAs s w locs).poison = s.poison := by unfold noteAs; dsimp only; split <;> rfl
@[simp] theorem noteAs_badParity (s : State) (w : Write) (locs : List Nat) : (noteAs s w locs).badParity = s.badParity := by unfold noteAs; dsimp only; split <;> rfl
@[simp] theorem noteAs_icache (s : State) (w : Write) (locs : List Nat) : (noteAs s w locs).icache = s.icache := by unfold noteAs; dsimp only; split <;> rfl
@[simp] theorem noteAs_unacked (s : State) (w : Write) (locs : List Nat) : (noteAs s w locs).unacked = s.unacked := by unfold noteAs; dsimp only; split <;> rfl
@[simp] theorem noteAs_feQueue (s : State) (w : Write) (locs : List Nat) : (noteAs s w locs).feQueue = s.feQueue := by unfold noteAs; dsimp only; split <;> rfl
@[simp] theorem noteAs_saved (s : State) (w : Write) (locs : List Nat) : (noteAs s w locs).saved = s.saved := by unfold noteAs; dsimp only; split <;> rfl
@[simp] theorem noteAs_inputs (s : State) (w : Write) (locs : List Nat) : (noteAs s w locs).inputs = s.inputs := by unfold noteAs; dsimp only; split <;> rfl
@[simp] theorem noteAs_choice (s : State) (w : Write) (locs : List Nat) : (noteAs s w locs).choice = s.choice := by unfold noteAs; dsimp only; split <;> rfl
@[simp] theorem noteAs_upsets (s : State) (w : Write) (locs : List Nat) : (noteAs s w locs).upsets = s.upsets := by unfold noteAs; dsimp only; split <;> rfl
@[simp] theorem ctx_noteAs (s : State) (w : Write) (locs : List Nat) (d : Fin 8) : (noteAs s w locs).ctx d = s.ctx d := by simp [State.ctx]

/-! ### noteStore -/

@[simp] theorem noteStore_ctxs (s : State) (c : Fin 8) (m : AtMode) (r : Bool) (locs : List Nat) : (noteStore s c m r locs).ctxs = s.ctxs := noteAs_ctxs ..
@[simp] theorem noteStore_core (s : State) (c : Fin 8) (m : AtMode) (r : Bool) (locs : List Nat) : (noteStore s c m r locs).core = s.core := noteAs_core ..
@[simp] theorem noteStore_clu (s : State) (c : Fin 8) (m : AtMode) (r : Bool) (locs : List Nat) : (noteStore s c m r locs).clu = s.clu := noteAs_clu ..
@[simp] theorem noteStore_mod (s : State) (c : Fin 8) (m : AtMode) (r : Bool) (locs : List Nat) : (noteStore s c m r locs).mod = s.mod := noteAs_mod ..
@[simp] theorem noteStore_mem (s : State) (c : Fin 8) (m : AtMode) (r : Bool) (locs : List Nat) : (noteStore s c m r locs).mem = s.mem := noteAs_mem ..
@[simp] theorem noteStore_descs (s : State) (c : Fin 8) (m : AtMode) (r : Bool) (locs : List Nat) : (noteStore s c m r locs).descs = s.descs := noteAs_descs ..
@[simp] theorem noteStore_tags (s : State) (c : Fin 8) (m : AtMode) (r : Bool) (locs : List Nat) : (noteStore s c m r locs).tags = s.tags := noteAs_tags ..
@[simp] theorem noteStore_poison (s : State) (c : Fin 8) (m : AtMode) (r : Bool) (locs : List Nat) : (noteStore s c m r locs).poison = s.poison := noteAs_poison ..
@[simp] theorem noteStore_badParity (s : State) (c : Fin 8) (m : AtMode) (r : Bool) (locs : List Nat) : (noteStore s c m r locs).badParity = s.badParity := noteAs_badParity ..
@[simp] theorem noteStore_icache (s : State) (c : Fin 8) (m : AtMode) (r : Bool) (locs : List Nat) : (noteStore s c m r locs).icache = s.icache := noteAs_icache ..
@[simp] theorem noteStore_feQueue (s : State) (c : Fin 8) (m : AtMode) (r : Bool) (locs : List Nat) : (noteStore s c m r locs).feQueue = s.feQueue := noteAs_feQueue ..
@[simp] theorem noteStore_saved (s : State) (c : Fin 8) (m : AtMode) (r : Bool) (locs : List Nat) : (noteStore s c m r locs).saved = s.saved := noteAs_saved ..
@[simp] theorem noteStore_inputs (s : State) (c : Fin 8) (m : AtMode) (r : Bool) (locs : List Nat) : (noteStore s c m r locs).inputs = s.inputs := noteAs_inputs ..
@[simp] theorem noteStore_choice (s : State) (c : Fin 8) (m : AtMode) (r : Bool) (locs : List Nat) : (noteStore s c m r locs).choice = s.choice := noteAs_choice ..
@[simp] theorem noteStore_upsets (s : State) (c : Fin 8) (m : AtMode) (r : Bool) (locs : List Nat) : (noteStore s c m r locs).upsets = s.upsets := noteAs_upsets ..
@[simp] theorem ctx_noteStore (s : State) (c : Fin 8) (m : AtMode) (r : Bool) (locs : List Nat) (d : Fin 8) : (noteStore s c m r locs).ctx d = s.ctx d := by simp [State.ctx]

/-! ### noteWrite -/

@[simp] theorem noteWrite_ctxs (s : State) (locs : List Nat) : (noteWrite s locs).ctxs = s.ctxs := noteStore_ctxs ..
@[simp] theorem noteWrite_core (s : State) (locs : List Nat) : (noteWrite s locs).core = s.core := noteStore_core ..
@[simp] theorem noteWrite_clu (s : State) (locs : List Nat) : (noteWrite s locs).clu = s.clu := noteStore_clu ..
@[simp] theorem noteWrite_mod (s : State) (locs : List Nat) : (noteWrite s locs).mod = s.mod := noteStore_mod ..
@[simp] theorem noteWrite_mem (s : State) (locs : List Nat) : (noteWrite s locs).mem = s.mem := noteStore_mem ..
@[simp] theorem noteWrite_descs (s : State) (locs : List Nat) : (noteWrite s locs).descs = s.descs := noteStore_descs ..
@[simp] theorem noteWrite_tags (s : State) (locs : List Nat) : (noteWrite s locs).tags = s.tags := noteStore_tags ..
@[simp] theorem noteWrite_poison (s : State) (locs : List Nat) : (noteWrite s locs).poison = s.poison := noteStore_poison ..
@[simp] theorem noteWrite_badParity (s : State) (locs : List Nat) : (noteWrite s locs).badParity = s.badParity := noteStore_badParity ..
@[simp] theorem noteWrite_icache (s : State) (locs : List Nat) : (noteWrite s locs).icache = s.icache := noteStore_icache ..
@[simp] theorem noteWrite_feQueue (s : State) (locs : List Nat) : (noteWrite s locs).feQueue = s.feQueue := noteStore_feQueue ..
@[simp] theorem noteWrite_saved (s : State) (locs : List Nat) : (noteWrite s locs).saved = s.saved := noteStore_saved ..
@[simp] theorem noteWrite_inputs (s : State) (locs : List Nat) : (noteWrite s locs).inputs = s.inputs := noteStore_inputs ..
@[simp] theorem noteWrite_choice (s : State) (locs : List Nat) : (noteWrite s locs).choice = s.choice := noteStore_choice ..
@[simp] theorem noteWrite_upsets (s : State) (locs : List Nat) : (noteWrite s locs).upsets = s.upsets := noteStore_upsets ..
@[simp] theorem ctx_noteWrite (s : State) (locs : List Nat) (d : Fin 8) : (noteWrite s locs).ctx d = s.ctx d := by simp [State.ctx]

/-! ### turnTo -/

@[simp] theorem turnTo_clu (s : State) (c : Fin 8) : (turnTo s c).clu = s.clu := rfl
@[simp] theorem turnTo_mod (s : State) (c : Fin 8) : (turnTo s c).mod = s.mod := rfl
@[simp] theorem turnTo_mem (s : State) (c : Fin 8) : (turnTo s c).mem = s.mem := rfl
@[simp] theorem turnTo_descs (s : State) (c : Fin 8) : (turnTo s c).descs = s.descs := rfl
@[simp] theorem turnTo_tags (s : State) (c : Fin 8) : (turnTo s c).tags = s.tags := rfl
@[simp] theorem turnTo_poison (s : State) (c : Fin 8) : (turnTo s c).poison = s.poison := rfl
@[simp] theorem turnTo_badParity (s : State) (c : Fin 8) : (turnTo s c).badParity = s.badParity := rfl
@[simp] theorem turnTo_icache (s : State) (c : Fin 8) : (turnTo s c).icache = s.icache := rfl
@[simp] theorem turnTo_vis (s : State) (c : Fin 8) : (turnTo s c).vis = s.vis := rfl
@[simp] theorem turnTo_unacked (s : State) (c : Fin 8) : (turnTo s c).unacked = s.unacked := rfl
@[simp] theorem turnTo_feQueue (s : State) (c : Fin 8) : (turnTo s c).feQueue = s.feQueue := rfl
@[simp] theorem turnTo_saved (s : State) (c : Fin 8) : (turnTo s c).saved = s.saved := rfl
@[simp] theorem turnTo_inputs (s : State) (c : Fin 8) : (turnTo s c).inputs = s.inputs := rfl
@[simp] theorem turnTo_choice (s : State) (c : Fin 8) : (turnTo s c).choice = s.choice := rfl
@[simp] theorem turnTo_upsets (s : State) (c : Fin 8) : (turnTo s c).upsets = s.upsets := rfl

/-! ### withInsn -/

@[simp] theorem withInsn_core (s : State) (w : Nat) : (withInsn s w).core = s.core := rfl
@[simp] theorem withInsn_clu (s : State) (w : Nat) : (withInsn s w).clu = s.clu := rfl
@[simp] theorem withInsn_mod (s : State) (w : Nat) : (withInsn s w).mod = s.mod := rfl
@[simp] theorem withInsn_mem (s : State) (w : Nat) : (withInsn s w).mem = s.mem := rfl
@[simp] theorem withInsn_descs (s : State) (w : Nat) : (withInsn s w).descs = s.descs := rfl
@[simp] theorem withInsn_tags (s : State) (w : Nat) : (withInsn s w).tags = s.tags := rfl
@[simp] theorem withInsn_poison (s : State) (w : Nat) : (withInsn s w).poison = s.poison := rfl
@[simp] theorem withInsn_badParity (s : State) (w : Nat) : (withInsn s w).badParity = s.badParity := rfl
@[simp] theorem withInsn_icache (s : State) (w : Nat) : (withInsn s w).icache = s.icache := rfl
@[simp] theorem withInsn_vis (s : State) (w : Nat) : (withInsn s w).vis = s.vis := rfl
@[simp] theorem withInsn_unacked (s : State) (w : Nat) : (withInsn s w).unacked = s.unacked := rfl
@[simp] theorem withInsn_feQueue (s : State) (w : Nat) : (withInsn s w).feQueue = s.feQueue := rfl
@[simp] theorem withInsn_saved (s : State) (w : Nat) : (withInsn s w).saved = s.saved := rfl
@[simp] theorem withInsn_inputs (s : State) (w : Nat) : (withInsn s w).inputs = s.inputs := rfl
@[simp] theorem withInsn_choice (s : State) (w : Nat) : (withInsn s w).choice = s.choice := rfl
@[simp] theorem withInsn_upsets (s : State) (w : Nat) : (withInsn s w).upsets = s.upsets := rfl

/-! ### Contexts -/

@[simp] theorem ctx_setCtx_same (s : State) (c : Fin 8) (x : Ctx) : (s.setCtx c x).ctx c = x := by
  simp [State.ctx, State.setCtx]

theorem ctx_setCtx_other {s : State} {c d : Fin 8} {x : Ctx} (h : d ≠ c) : (s.setCtx c x).ctx d = s.ctx d := by
  have : c.val ≠ d.val := fun e => h (Fin.ext e.symm)
  simp [State.ctx, State.setCtx, Vector.getElem_set_ne, this]

@[simp] theorem ctx_tickChoice (s : State) (c : Fin 8) : s.tickChoice.ctx c = s.ctx c := rfl

@[simp] theorem ctx_observeTick (s : State) (c : Fin 8) : (observeTick s).ctx c = s.ctx c := rfl

@[simp] theorem ctx_setBytes (s : State) (loc : Nat) (bs : List Byte) (c : Fin 8) : (setBytes s loc bs).ctx c = s.ctx c := rfl

@[simp] theorem ctx_setDesc (s : State) (b : Nat) (d : BitVec 16) (c : Fin 8) : (setDesc s b d).ctx c = s.ctx c := rfl

@[simp] theorem ctx_logEvent (s : State) (e : LogEvent) (c : Fin 8) : (logEvent s e).ctx c = s.ctx c := rfl



@[simp] theorem ctx_withdraw (s : State) (c d : Fin 8) : (withdraw s c).ctx d = s.ctx d := rfl

/-- The pc after an instruction of `n` bytes. -/
@[simp] theorem retire_pc (s : State) (c : Fin 8) (n : Nat) :
    ((retire s c n).ctx c).pc = (s.ctx c).pc + BitVec.ofNat 64 n := by simp [retire, State.ctx, State.setCtx]

@[simp] theorem retireTo_pc (s : State) (c : Fin 8) (pc : Word) : ((retireTo s c pc).ctx c).pc = pc := by
  simp [retireTo, State.ctx, State.setCtx]

/-- Retiring changes nothing of a context but its pc. -/
theorem retire_ctx (s : State) (c d : Fin 8) (n : Nat) :
    (retire s c n).ctx d = { s.ctx d with pc := ((retire s c n).ctx d).pc } := by
  by_cases h : d = c
  · subst h; simp [retire, State.ctx, State.setCtx]
  · have hv : c.val ≠ d.val := fun e => h (Fin.ext e.symm)
    simp [retire, State.ctx, State.setCtx, Vector.getElem_set_ne, hv]

theorem retireTo_ctx (s : State) (c d : Fin 8) (pc : Word) :
    (retireTo s c pc).ctx d = { s.ctx d with pc := ((retireTo s c pc).ctx d).pc } := by
  by_cases h : d = c
  · subst h; simp [retireTo, State.ctx, State.setCtx]
  · have hv : c.val ≠ d.val := fun e => h (Fin.ext e.symm)
    simp [retireTo, State.ctx, State.setCtx, Vector.getElem_set_ne, hv]

/-! ### Registers (R83 to R85) -/

@[simp] theorem getG_zero (s : State) (c : Fin 8) : getG s c 0 = 0 := rfl

@[simp] theorem setG_zero (s : State) (c : Fin 8) (w : Word) : setG s c 0 w = s := rfl

theorem getG_setG_same (s : State) (c : Fin 8) (r : GReg) (w : Word) (h : r ≠ 0) : getG (setG s c r w) c r = w := by
  simp [getG, setG, h, State.ctx, State.setCtx]

theorem getG_setG_other (s : State) (c d : Fin 8) (r q : GReg) (w : Word) (h : d ≠ c ∨ q ≠ r) :
    getG (setG s c r w) d q = getG s d q := by
  unfold getG setG
  split
  · rfl
  · split
    · rfl
    · by_cases hd : d = c
      · subst hd
        have hq : q ≠ r := h.resolve_left (fun e => e rfl)
        have hv : r.val ≠ q.val := fun e => hq (Fin.ext e.symm)
        simp [State.ctx, State.setCtx, Vector.getElem_set_ne, hv]
      · have hv : c.val ≠ d.val := fun e => hd (Fin.ext e.symm)
        simp [State.ctx, State.setCtx, Vector.getElem_set_ne, hv]

/-- A g register is one of the sixteen of its context, but that g0 reads 0. -/
theorem getG_of_ctx {s t : State} {c : Fin 8} (h : (t.ctx c).g = (s.ctx c).g) (r : GReg) : getG t c r = getG s c r := by
  simp [getG, h]

@[simp] theorem getG_retire (s : State) (c d : Fin 8) (n : Nat) (r : GReg) : getG (retire s c n) d r = getG s d r :=
  getG_of_ctx (by rw [retire_ctx]) r

@[simp] theorem getG_retireTo (s : State) (c d : Fin 8) (pc : Word) (r : GReg) :
    getG (retireTo s c pc) d r = getG s d r := getG_of_ctx (by rw [retireTo_ctx]) r

end Sys2Proof.Laws
end

