-- ==== Sys2Proof/Laws/Faults.lean ====
section
/-! SUPPORT. What taking a fault, waiting, reading registers and committing a result can do, said once each. -/

namespace Sys2Proof.Laws

open Sys2Proof.Machine

/-! ### What a context keeps -/

/-- A context keeps every register. -/
def RegsKept (x y : Ctx) : Prop := y.g = x.g ∧ VectorsKept x y

theorem regsKept_refl (x : Ctx) : RegsKept x x := ⟨rfl, rfl, rfl, rfl, rfl, rfl, rfl, rfl⟩

theorem regsKept_trans {x y z : Ctx} (h : RegsKept x y) (k : RegsKept y z) : RegsKept x z := by
  obtain ⟨h0, h1, h2, h3, h4, h5, h6, h7⟩ := h
  obtain ⟨k0, k1, k2, k3, k4, k5, k6, k7⟩ := k
  exact ⟨k0.trans h0, k1.trans h1, k2.trans h2, k3.trans h3, k4.trans h4, k5.trans h5, k6.trans h6, k7.trans h7⟩

/-- Every context keeps every register. -/
def AllRegsKept (s t : State) : Prop := ∀ c, RegsKept (s.ctx c) (t.ctx c)

theorem allRegsKept_refl (s : State) : AllRegsKept s s := fun c => regsKept_refl (s.ctx c)

theorem allRegsKept_trans {s t u : State} (h : AllRegsKept s t) (k : AllRegsKept t u) : AllRegsKept s u :=
  fun c => regsKept_trans (h c) (k c)

/-- A context put in its place with every register kept. -/
theorem allRegsKept_setCtx {s : State} {c : Fin 8} {x : Ctx} (h : RegsKept (s.ctx c) x) : AllRegsKept s (s.setCtx c x) := by
  intro d
  by_cases hd : d = c
  · subst hd; simpa using h
  · rw [ctx_setCtx_other hd]; exact regsKept_refl _

/-! ### Faults (R305, R311) -/

theorem freezeWith_regs (s : State) (c : Fin 8) (f : Flt) : AllRegsKept s (freezeWith s c f) := by
  intro d
  unfold freezeWith
  refine allRegsKept_setCtx (s := withdraw (observeTick s) c) ?_ d
  exact ⟨rfl, rfl, rfl, rfl, rfl, rfl, rfl, rfl⟩

/-- A frozen context stops at the start of its unit with its packet. -/
theorem freezeWith_stops (s : State) (c : Fin 8) (f : Flt) :
    ((freezeWith s c f).ctx c).stopped = true ∧ ((freezeWith s c f).ctx c).wait = none ∧
      (freezeWith s c f).core.frozen = true := by
  simp [freezeWith, State.ctx, State.setCtx]

/-- What a fault may change: contexts but for their registers, the core's run state, the queues and the masthead's inbox. -/
structure FaultFrame (s t : State) : Prop where
  mem       : t.mem = s.mem
  tags      : t.tags = s.tags
  poison    : t.poison = s.poison
  vis       : t.vis = s.vis
  unacked   : t.unacked = s.unacked
  saved     : t.saved = s.saved
  inputs    : t.inputs = s.inputs
  upsets    : t.upsets = s.upsets
  regs      : AllRegsKept s t
  csrs      : CsrsKept s t

theorem faultFrame_refl (s : State) : FaultFrame s s :=
  ⟨rfl, rfl, rfl, rfl, rfl, rfl, rfl, rfl, allRegsKept_refl s, by simp [CsrsKept]⟩

theorem csrsKept_trans {s t u : State} (h : CsrsKept s t) (k : CsrsKept t u) : CsrsKept s u := by
  unfold CsrsKept at *
  obtain ⟨h1, h2, h3, h4, h5, h6, h7, h8, h9, h10, h11, h12, h13, h14, h15⟩ := h
  obtain ⟨k1, k2, k3, k4, k5, k6, k7, k8, k9, k10, k11, k12, k13, k14, k15⟩ := k
  exact ⟨k1.trans h1, k2.trans h2, k3.trans h3, k4.trans h4, k5.trans h5, k6.trans h6, k7.trans h7, k8.trans h8,
    k9.trans h9, k10.trans h10, k11.trans h11, k12.trans h12, k13.trans h13, k14.trans h14, k15.trans h15⟩

theorem faultFrame_trans {s t u : State} (h : FaultFrame s t) (k : FaultFrame t u) : FaultFrame s u :=
  ⟨k.mem.trans h.mem, k.tags.trans h.tags, k.poison.trans h.poison, k.vis.trans h.vis,
    k.unacked.trans h.unacked, k.saved.trans h.saved, k.inputs.trans h.inputs,
    k.upsets.trans h.upsets, allRegsKept_trans h.regs k.regs, csrsKept_trans h.csrs k.csrs⟩

theorem freezeWith_frame (s : State) (c : Fin 8) (f : Flt) : FaultFrame s (freezeWith s c f) :=
  ⟨freezeWith_mem .., freezeWith_tags .., freezeWith_poison .., freezeWith_vis .., freezeWith_unacked .., freezeWith_saved .., freezeWith_inputs ..,
    freezeWith_upsets .., freezeWith_regs s c f, by simp [CsrsKept, freezeWith, State.setCtx]⟩

theorem setDesc_frame (s : State) (b : Nat) (d : BitVec 16) : FaultFrame s (setDesc s b d) :=
  ⟨rfl, rfl, rfl, rfl, rfl, rfl, rfl, rfl, fun _ => regsKept_refl _, by simp [CsrsKept]⟩

theorem sealFold_frame (pid : BitVec 32) (l : List FeReq) (s : State) :
    FaultFrame s (l.foldl (fun s r => match r.origin with
      | .own c _ _ => freezeWith s c { cls := .peerSealed, addr := pid.zeroExtend 64 }
      | .remote o => { s with mod := { s.mod with messages := s.mod.messages ++ [(o, 2 ^ 64)] } }) s) := by
  induction l generalizing s with
  | nil => exact faultFrame_refl s
  | cons r l ih =>
    refine faultFrame_trans ?_ (ih _)
    dsimp only
    split
    · exact freezeWith_frame ..
    · exact ⟨rfl, rfl, rfl, rfl, rfl, rfl, rfl, rfl, fun _ => regsKept_refl _, by simp [CsrsKept]⟩

theorem logEvent_frame (s : State) (e : LogEvent) : FaultFrame s (logEvent s e) := by
  refine ⟨by simp, by simp, by simp, by simp, by simp, by simp, by simp, by simp, fun c => ?_, by simp [CsrsKept]⟩
  rw [ctx_logEvent]; exact regsKept_refl _

/-- Requests turned away by a seal stop the contexts that made them, and nothing else (R187, R311). -/
theorem sealWords_frame (s : State) (p : Nat → Bool) (pid : BitVec 32) : FaultFrame s (sealWords s p pid) :=
  faultFrame_trans (t := { s with feQueue := s.feQueue.filter fun r => !p r.loc })
    ⟨rfl, rfl, rfl, rfl, rfl, rfl, rfl, rfl, fun _ => regsKept_refl _, by simp [CsrsKept]⟩ (sealFold_frame pid _ _)

theorem sealCore_frame (s : State) : FaultFrame s (sealCore s) := by
  unfold sealCore
  refine faultFrame_trans ?_ (sealWords_frame _ _ _)
  exact ⟨rfl, rfl, rfl, rfl, rfl, rfl, rfl, rfl, fun _ => regsKept_refl _, by simp [CsrsKept]⟩

theorem poisonFound_frame (s : State) (f : Flt) : FaultFrame s (poisonFound s f) := by
  unfold poisonFound
  split
  · exact faultFrame_refl s
  · exact setDesc_frame ..

/-- Taking a fault writes no memory and no register (R305). -/
theorem raise_frame (s : State) (c : Fin 8) (f : Flt) : FaultFrame s (raise s c f) := by
  have k := faultFrame_trans (poisonFound_frame s f) (freezeWith_frame (poisonFound s f) c f)
  unfold raise
  dsimp only
  split
  · exact faultFrame_trans k (faultFrame_trans (sealCore_frame _) (logEvent_frame _ _))
  · exact k

/-! ### Waiting (R24) -/

theorem waitFor_frame {s t : State} {w : Wait} (h : waitFor s w = .next t) : FaultFrame s t := by
  unfold waitFor at h
  cases h
  refine ⟨rfl, rfl, rfl, rfl, rfl, rfl, rfl, rfl, fun d => ?_, by simp [CsrsKept, State.setCtx]⟩
  refine allRegsKept_setCtx (s := s) ?_ d
  exact ⟨rfl, rfl, rfl, rfl, rfl, rfl, rfl, rfl⟩

/-! ### Reading registers (R35, R311) -/

/-- Data registers that are read raise UNCORRECTABLE or let the instruction go on. -/
theorem withData_cases {s t : State} {reads : List GReg} {k : Out} (h : withData s reads k = .next t) :
    faultCls s .uncorrectable = .next t ∨ k = .next t := by
  unfold withData at h
  split at h
  · exact .inl h
  · exact .inr h

/-- With its data registers sound an instruction goes on. -/
theorem withData_sound {s : State} {reads : List GReg} {k : Out}
    (h : ∀ r ∈ reads, RegName.g r ∉ (s.ctx s.cur).poisoned) : withData s reads k = k := by
  unfold withData
  have h2 : (reads.any fun r => (s.ctx s.cur).poisoned.contains (.g r)) = false := by
    rw [List.any_eq_false]
    intro r hr
    simp [h r hr]
  simp only [h2, Bool.false_eq_true, if_false]

/-- An instruction that names g registers sleeps, takes UNCORRECTABLE, or goes on. -/
theorem withRegs_cases {s t : State} {reads writes : List GReg} {k : Out} (h : withRegs s reads writes k = .next t) :
    (∃ r ∈ reads ++ writes, waitFor s (.pending r) = .next t) ∨ faultCls s .uncorrectable = .next t ∨ k = .next t := by
  unfold withRegs at h
  split at h
  · rename_i r hr
    exact .inl ⟨r, List.mem_of_find?_eq_some hr, h⟩
  · exact .inr (withData_cases h)

/-- With its registers free an instruction goes on. -/
theorem withRegs_free {s : State} {reads writes : List GReg} {k : Out} (h : RegsFree s reads writes) :
    withRegs s reads writes k = k := by
  unfold withRegs
  have h1 : (reads ++ writes).find? (isPending s s.cur) = none := by
    rw [List.find?_eq_none]
    intro r hr
    simp [h.1 r hr]
  rw [h1]
  exact withData_sound h.2

/-- With its vector registers sound an instruction goes on. -/
theorem withVecs_sound {s : State} {reads : List VCode} {k : Out} (h : VecsSound s reads) : withVecs s reads k = k := by
  unfold withVecs
  have h2 : (reads.any fun r => (s.ctx s.cur).poisoned.contains (.vec r)) = false := by
    rw [List.any_eq_false]
    intro r hr
    simp [h r hr]
  simp only [h2, Bool.false_eq_true, if_false]

theorem withVecs_cases {s t : State} {reads : List VCode} {k : Out} (h : withVecs s reads k = .next t) :
    faultCls s .uncorrectable = .next t ∨ k = .next t := by
  unfold withVecs at h
  split at h
  · exact .inl h
  · exact .inr h

/-! ### Committing (R85, R144, R145) -/

/-- Executions that no error strikes agree on their value. -/
theorem vote_quiet {w : Nat} {s : State} (h : Quiet s) (x : BitVec w) : vote s x = some (x, s) := by
  unfold vote
  rcases h with h | h
  · simp [h]
  · cases s
    simp only at h
    subst h
    split
    · rfl
    · simp

/-- A g result that no error strikes is written as it is. -/
theorem commitG_quiet {s : State} (h : Quiet s) (rd : GReg) (v : Word) (len : Nat) :
    commitG s rd v len = .next (doneG s rd v len) := by
  unfold commitG
  rw [vote_quiet h]
  rfl

/-- A vector result that no error strikes is written and pushed as it is. -/
theorem commitV_quiet {s : State} (h : Quiet s) (vd : VCode) (v : Vec) (len : Nat) :
    commitV s vd v len = .next (doneV s vd v len) := by
  unfold commitV
  rw [vote_quiet h]
  rfl

/-- What a vote may change: the strikes it consumes and the count of outvoted executions. -/
theorem vote_frame {w : Nat} {s t : State} {x v : BitVec w} (h : vote s x = some (v, t)) :
    t.mem = s.mem ∧ t.tags = s.tags ∧ t.ctxs = s.ctxs ∧ t.descs = s.descs ∧ CsrsKept s t ∧ t.core.cur = s.core.cur := by
  unfold vote at h
  split at h
  · cases h; simp [CsrsKept]
  · dsimp only at h
    split at h
    · cases h; simp [CsrsKept]
    · split at h
      · cases h; simp [CsrsKept]
      · split at h
        · cases h; simp [CsrsKept]
        · cases h

/-! ### Checks -/

theorem chkRun_cases {α : Type} {s t : State} {x : Chk α} {k : α → Out} (h : Chk.run s x k = .next t) :
    (∃ f, x = .error f ∧ fault s f = .next t) ∨ ∃ a, x = .ok a ∧ k a = .next t := by
  cases x with
  | error f => exact .inl ⟨f, rfl, h⟩
  | ok a => exact .inr ⟨a, rfl, h⟩

theorem fault_next {s t : State} {f : Flt} (h : fault s f = .next t) : t = raise s s.cur f := by
  unfold fault at h
  cases h
  rfl

end Sys2Proof.Laws
end

