-- ==== Sys2Proof/Laws/Memory.lean ====
section
/-! SUPPORT. Laws of the sparse maps and of memory: the canonical form is kept by every operation, a read after a write
gives the value written, and a write leaves every other place alone. -/

namespace Sys2Proof.Laws

open Sys2Proof.Machine

variable {α : Type} [DecidableEq α] {d : Nat → α}

/-- The canonical form from a later key is the canonical form from an earlier one. -/
theorem sparseWf_mono {l : List (Nat × α)} {lo lo' : Nat} (h : sparseWf d lo l = true) (hl : lo' ≤ lo) :
    sparseWf d lo' l = true := by
  cases l with
  | nil => rfl
  | cons p r =>
    obtain ⟨k, b⟩ := p
    simp only [sparseWf, Bool.and_eq_true, decide_eq_true_eq] at h ⊢
    exact ⟨⟨by omega, h.1.2⟩, h.2⟩

/-- A key below every listed one reads as unlisted. -/
theorem sparseGet_below {l : List (Nat × α)} {lo a : Nat} (h : sparseWf d lo l = true) (ha : a < lo) :
    sparseGet d l a = d a := by
  induction l generalizing lo with
  | nil => rfl
  | cons p r ih =>
    obtain ⟨k, b⟩ := p
    simp only [sparseWf, Bool.and_eq_true, decide_eq_true_eq] at h
    have hk : k ≠ a := by omega
    simp only [sparseGet, if_neg hk]
    exact ih h.2 (by omega)

/-- Writing keeps the canonical form. -/
theorem sparsePut_wf {l : List (Nat × α)} {lo a : Nat} {v : α} (h : sparseWf d lo l = true) (ha : lo ≤ a) :
    sparseWf d lo (sparsePut d l a v) = true := by
  induction l generalizing lo with
  | nil =>
    unfold sparsePut
    split
    · rfl
    · rename_i hv
      simp [sparseWf, ha, hv]
  | cons p r ih =>
    obtain ⟨k, b⟩ := p
    simp only [sparseWf, Bool.and_eq_true, decide_eq_true_eq] at h
    unfold sparsePut
    split
    · rename_i hk
      split
      · simpa [sparseWf] using h
      · rename_i hv
        simp only [sparseWf, Bool.and_eq_true, decide_eq_true_eq]
        exact ⟨⟨ha, hv⟩, ⟨by omega, h.1.2⟩, h.2⟩
    · split
      · rename_i hk
        split
        · exact sparseWf_mono h.2 (by omega)
        · rename_i hv
          simp only [sparseWf, Bool.and_eq_true, decide_eq_true_eq]
          exact ⟨⟨ha, hv⟩, hk ▸ h.2⟩
      · simp only [sparseWf, Bool.and_eq_true, decide_eq_true_eq]
        exact ⟨h.1, ih h.2 (by omega)⟩

/-- Leaving entries out keeps the canonical form. -/
theorem sparseFilter_wf {l : List (Nat × α)} {lo : Nat} (p : Nat × α → Bool) (h : sparseWf d lo l = true) :
    sparseWf d lo (l.filter p) = true := by
  induction l generalizing lo with
  | nil => rfl
  | cons q r ih =>
    obtain ⟨k, b⟩ := q
    simp only [sparseWf, Bool.and_eq_true, decide_eq_true_eq] at h
    rw [List.filter_cons]
    split
    · simp only [sparseWf, Bool.and_eq_true, decide_eq_true_eq]
      exact ⟨h.1, ih h.2⟩
    · exact sparseWf_mono (ih h.2) (by omega)

/-- A read after a write to the same key gives the value written. -/
theorem sparseGet_put_same {l : List (Nat × α)} {lo a : Nat} {v : α} (h : sparseWf d lo l = true) :
    sparseGet d (sparsePut d l a v) a = v := by
  induction l generalizing lo with
  | nil =>
    unfold sparsePut
    split
    · rename_i hv; simp [sparseGet, hv]
    · simp [sparseGet]
  | cons p r ih =>
    obtain ⟨k, b⟩ := p
    simp only [sparseWf, Bool.and_eq_true, decide_eq_true_eq] at h
    unfold sparsePut
    split
    · rename_i hk
      split
      · rename_i hv
        rw [hv]
        have hne : k ≠ a := by omega
        simp only [sparseGet, if_neg hne]
        exact sparseGet_below h.2 (by omega)
      · simp [sparseGet]
    · split
      · rename_i hk
        split
        · rename_i hv
          rw [hv]
          exact sparseGet_below h.2 (by omega)
        · simp [sparseGet]
      · rename_i hk hne
        have hne' : k ≠ a := fun e => hne e.symm
        simp only [sparseGet, if_neg hne']
        exact ih h.2

/-- A write leaves every other key alone, whatever the list. -/
theorem sparseGet_put_other {l : List (Nat × α)} {a c : Nat} {v : α} (hc : c ≠ a) :
    sparseGet d (sparsePut d l a v) c = sparseGet d l c := by
  have hne : a ≠ c := fun e => hc e.symm
  induction l with
  | nil =>
    unfold sparsePut
    split
    · rfl
    · simp [sparseGet, hne]
  | cons p r ih =>
    obtain ⟨k, b⟩ := p
    unfold sparsePut
    split
    · split
      · rfl
      · simp [sparseGet, hne]
    · split
      · rename_i hk
        subst hk
        split <;> simp [sparseGet, hne]
      · simp only [sparseGet]
        split
        · rfl
        · exact ih

/-! ### Memory -/

theorem memory_put_wf {m : Cells} {loc : Nat} {b : Byte} (h : Memory.wf m = true) : Memory.wf (Memory.put m loc b) = true :=
  sparsePut_wf h (Nat.zero_le _)

theorem memory_putBytes_wf {m : Cells} {loc : Nat} {bs : List Byte} (h : Memory.wf m = true) :
    Memory.wf (Memory.putBytes m loc bs) = true := by
  induction bs generalizing m loc with
  | nil => exact h
  | cons b r ih => exact ih (memory_put_wf h)

theorem memory_filter_wf {m : Cells} (p : Nat × Byte → Bool) (h : Memory.wf m = true) : Memory.wf (m.filter p) = true :=
  sparseFilter_wf p h

theorem memory_clear_wf {m : Cells} {lo hi : Nat} (h : Memory.wf m = true) : Memory.wf (Memory.clear m lo hi) = true :=
  memory_filter_wf _ h

theorem memory_get_put_same {m : Cells} {loc : Nat} {b : Byte} (h : Memory.wf m = true) :
    Memory.get (Memory.put m loc b) loc = b := sparseGet_put_same h

theorem memory_get_put_other {m : Cells} {loc c : Nat} {b : Byte} (hc : c ≠ loc) :
    Memory.get (Memory.put m loc b) c = Memory.get m c := sparseGet_put_other hc

/-- A run of bytes written leaves every location outside it alone. -/
theorem memory_get_putBytes_outside {m : Cells} {loc c : Nat} {bs : List Byte} (hc : c < loc ∨ loc + bs.length ≤ c) : Memory.get (Memory.putBytes m loc bs) c = Memory.get m c := by
  induction bs generalizing m loc with
  | nil => rfl
  | cons b r ih =>
    have hl : (b :: r).length = r.length + 1 := rfl
    have hne : c ≠ loc := by omega
    exact (ih (by omega)).trans (memory_get_put_other hne)

/-- A run of bytes written reads back byte by byte. -/
theorem memory_get_putBytes_inside {m : Cells} {loc i : Nat} {bs : List Byte} (h : Memory.wf m = true)
    (hi : i < bs.length) : Memory.get (Memory.putBytes m loc bs) (loc + i) = bs[i] := by
  induction bs generalizing m loc i with
  | nil => simp at hi
  | cons b r ih =>
    cases i with
    | zero =>
      have h0 : Memory.get (Memory.putBytes (Memory.put m loc b) (loc + 1) r) loc = b :=
        (memory_get_putBytes_outside (Or.inl (by omega))).trans (memory_get_put_same h)
      exact h0
    | succ n =>
      have hn : n < r.length := by simpa using hi
      have := ih (m := Memory.put m loc b) (loc := loc + 1) (memory_put_wf h) hn
      rw [show loc + (n + 1) = loc + 1 + n from by omega]
      exact this

/-- Reading a run back gives the bytes written. -/
theorem memory_bytes_putBytes {m : Cells} {loc : Nat} {bs : List Byte} (h : Memory.wf m = true) :
    Memory.bytes (Memory.putBytes m loc bs) loc bs.length = bs := by
  induction bs generalizing m loc with
  | nil => rfl
  | cons b r ih =>
    have h0 : Memory.get (Memory.putBytes (Memory.put m loc b) (loc + 1) r) loc = b :=
      (memory_get_putBytes_outside (Or.inl (by omega))).trans (memory_get_put_same h)
    show Memory.get _ loc :: Memory.bytes _ (loc + 1) r.length = b :: r
    rw [show Memory.putBytes m loc (b :: r) = Memory.putBytes (Memory.put m loc b) (loc + 1) r from rfl, h0,
      ih (memory_put_wf h)]

/-- Reset memory is canonical. -/
theorem reset_memory_wf : Memory.wf State.reset.mem = true := rfl

end Sys2Proof.Laws
end

