-- ==== Sys2Proof/Laws/Stores.lean ====
section
/-! SUPPORT. What a store can do, said once: which fields it leaves alone, that memory keeps its canonical form, and
that a poke writes exactly its own bytes. -/

namespace Sys2Proof.Laws

open Sys2Proof.Machine

/-- What a store may change: memory, check bits, watches with their notices, and the state bits of tile slots. -/
structure StoreFrame (s t : State) : Prop where
  descs     : t.descs = s.descs
  tags      : t.tags = s.tags
  badParity : t.badParity = s.badParity
  icache    : t.icache = s.icache
  vis       : t.vis = s.vis
  unacked   : t.unacked = s.unacked
  saved     : t.saved = s.saved
  module    : t.mod = s.mod
  cluster   : t.clu = s.clu
  feQueue   : t.feQueue = s.feQueue
  inputs    : t.inputs = s.inputs
  choice    : t.choice = s.choice
  upsets    : t.upsets = s.upsets
  regs      : AllRegsKept s t
  csrs      : CsrsKept s t
  memory    : Memory.wf s.mem = true → Memory.wf t.mem = true

theorem storeFrame_refl (s : State) : StoreFrame s s :=
  ⟨rfl, rfl, rfl, rfl, rfl, rfl, rfl, rfl, rfl, rfl, rfl, rfl, rfl, allRegsKept_refl s, by simp [CsrsKept], id⟩

theorem storeFrame_trans {s t u : State} (h : StoreFrame s t) (k : StoreFrame t u) : StoreFrame s u :=
  ⟨k.descs.trans h.descs, k.tags.trans h.tags, k.badParity.trans h.badParity, k.icache.trans h.icache, k.vis.trans h.vis,
    k.unacked.trans h.unacked, k.saved.trans h.saved,
    k.module.trans h.module, k.cluster.trans h.cluster, k.feQueue.trans h.feQueue, k.inputs.trans h.inputs,
    k.choice.trans h.choice, k.upsets.trans h.upsets, allRegsKept_trans h.regs k.regs, csrsKept_trans h.csrs k.csrs,
    fun m => k.memory (h.memory m)⟩

/-- A fold of steps that each keep the frame keeps it. -/
theorem storeFrame_foldl {α : Type} (f : State → α → State) (hf : ∀ s a, StoreFrame s (f s a)) (l : List α) (s : State) :
    StoreFrame s (l.foldl f s) := by
  induction l generalizing s with
  | nil => exact storeFrame_refl s
  | cons a l ih => exact storeFrame_trans (hf s a) (ih (f s a))

/-- A state with the canonical form keeps it through anything that keeps the frame. -/
theorem memoryInv_of_storeFrame {s t : State} (h : StoreFrame s t) (inv : MemoryInv s) : MemoryInv t := by
  obtain ⟨hm, hd, hs, hi⟩ := inv
  exact ⟨h.memory hm, by rw [h.descs]; exact hd, by rw [h.saved]; exact hs, by rw [h.module]; exact hi⟩

/-! ### The parts of a store -/

theorem setBytes_frame (s : State) (loc : Nat) (bs : List Byte) : StoreFrame s (setBytes s loc bs) :=
  ⟨rfl, rfl, rfl, rfl, rfl, rfl, rfl, rfl, rfl, rfl, rfl, rfl, rfl, fun _ => regsKept_refl _, by simp [CsrsKept, setBytes],
    fun m => memory_putBytes_wf m⟩

theorem setLoc_frame (s : State) (loc n x : Nat) : StoreFrame s (setLoc s loc n x) := setBytes_frame ..

/-- A context's wake-up notice. -/
theorem notice_frame (s : State) (c : Fin 8) : StoreFrame s (s.setCtx c { s.ctx c with notice := true }) :=
  ⟨rfl, rfl, rfl, rfl, rfl, rfl, rfl, rfl, rfl, rfl, rfl, rfl, rfl,
    allRegsKept_setCtx ⟨rfl, rfl, rfl, rfl, rfl, rfl, rfl, rfl⟩, by simp [CsrsKept, State.setCtx], id⟩

theorem fireWatches_frame (s : State) (loc n : Nat) : StoreFrame s (fireWatches s loc n) := by
  unfold fireWatches
  split
  · exact storeFrame_refl s
  · refine storeFrame_trans ?_ (storeFrame_foldl _ (fun s c => notice_frame s c) _ _)
    exact ⟨rfl, rfl, rfl, rfl, rfl, rfl, rfl, rfl, rfl, rfl, rfl, rfl, rfl, fun _ => regsKept_refl _, by simp [CsrsKept], id⟩

/-- Check bits made fresh change nothing else. -/
theorem poison_frame (s : State) (p : List Nat) : StoreFrame s { s with poison := p } :=
  ⟨rfl, rfl, rfl, rfl, rfl, rfl, rfl, rfl, rfl, rfl, rfl, rfl, rfl, fun _ => regsKept_refl _, by simp [CsrsKept], id⟩

/-- The watch table written. -/
theorem watch_frame (s : State) (w : Vector (Option WatchEntry) 8) : StoreFrame s { s with core := { s.core with watch := w } } :=
  ⟨rfl, rfl, rfl, rfl, rfl, rfl, rfl, rfl, rfl, rfl, rfl, rfl, rfl, fun _ => regsKept_refl _, by simp [CsrsKept], id⟩

/-- A poke (R175): the frame of a store. -/
theorem poke_frame (s : State) (loc : Nat) (bs : List Byte) : StoreFrame s (poke s loc bs) :=
  storeFrame_trans (storeFrame_trans (setBytes_frame s loc bs) (poison_frame _ _)) (fireWatches_frame _ _ _)

theorem fireWatches_mem (s : State) (loc n : Nat) : (fireWatches s loc n).mem = s.mem := by
  unfold fireWatches
  split
  · rfl
  · dsimp only
    generalize (List.map _ _) = l
    generalize hk : ({ s with core := _ } : State) = k
    have hm : k.mem = s.mem := by rw [← hk]
    rw [← hm]
    clear hm hk
    induction l generalizing k with
    | nil => rfl
    | cons a l ih => exact ih (k.setCtx a { k.ctx a with notice := true })

/-- A poke writes exactly its bytes. -/
theorem poke_mem (s : State) (loc : Nat) (bs : List Byte) : (poke s loc bs).mem = Memory.putBytes s.mem loc bs := by
  unfold poke
  rw [fireWatches_mem]
  rfl

/-- A poke's own bytes read back. -/
theorem poke_bytes {s : State} {loc : Nat} {bs : List Byte} (h : Memory.wf s.mem = true) :
    readBytes (poke s loc bs) loc bs.length = bs := by
  unfold readBytes
  rw [poke_mem]
  exact memory_bytes_putBytes h

/-! ### Tiles (R224) -/

theorem setTileBits_frame (s : State) (t : Nat) (u p : Bool) : StoreFrame s (setTileBits s t u p) := by
  unfold setTileBits
  split
  · split
    · exact storeFrame_refl s
    · exact ⟨rfl, rfl, rfl, rfl, rfl, rfl, rfl, rfl, rfl, rfl, rfl, rfl, rfl, fun _ => regsKept_refl _, by simp [CsrsKept], id⟩
  · split
    · exact ⟨rfl, rfl, rfl, rfl, rfl, rfl, rfl, rfl, rfl, rfl, rfl, rfl, rfl, fun _ => regsKept_refl _, by simp [CsrsKept], id⟩
    · exact storeFrame_refl s

theorem setTileBits_mem (s : State) (t : Nat) (u p : Bool) : (setTileBits s t u p).mem = s.mem := by
  unfold setTileBits
  split
  · split <;> rfl
  · split <;> rfl

theorem setTileBolt_frame (s : State) (t : Nat) (b : Bolt) : StoreFrame s (setTileBolt s t b) :=
  storeFrame_trans (setBytes_frame s _ _) (poison_frame _ _)

theorem storeIntoSlot_frame (old : State) (hit : Nat → Bool) (s : State) (t : Nat) :
    StoreFrame s (storeIntoSlot old hit s t) := by
  unfold storeIntoSlot
  split
  · exact storeFrame_refl s
  · split
    · exact storeFrame_refl s
    · dsimp only
      split
      · exact storeFrame_refl s
      · split
        · exact setTileBolt_frame ..
        · exact setTileBits_frame ..

/-- A store (R175, R224): everything but memory, check bits, watches and tile bits stays. -/
theorem store_frame (s : State) (loc : Nat) (bs : List Byte) : StoreFrame s (store s loc bs) :=
  storeFrame_trans (poke_frame s loc bs) (storeFrame_foldl _ (fun u t => storeIntoSlot_frame s _ u t) _ _)

/-- A store that overlaps no tile slot is a poke. -/
theorem store_of_no_slot {s : State} {loc : Nat} {bs : List Byte} (h : slotsAt s loc bs.length = []) :
    store s loc bs = poke s loc bs := by
  unfold store
  rw [h]
  rfl

theorem pokeMasked_frame (s : State) (loc : Nat) (bs : List Byte) (act : Nat → Bool) :
    StoreFrame s (pokeMasked s loc bs act) := by
  unfold pokeMasked
  exact storeFrame_trans (storeFrame_trans (storeFrame_trans
    (storeFrame_foldl (fun s i => setBytes s (loc + i) [bs.getD i 0]) (fun u i => setBytes_frame u (loc + i) _)
      ((List.range bs.length).filter act) s)
    (poison_frame _ _)) (watch_frame _ _)) (storeFrame_foldl _ (fun u (e : WatchEntry) => notice_frame u e.owner) _ _)

/-- A masked store (R172, R224). -/
theorem storeMasked_frame (s : State) (loc : Nat) (bs : List Byte) (act : Nat → Bool) :
    StoreFrame s (storeMasked s loc bs act) :=
  storeFrame_trans (pokeMasked_frame s loc bs act) (storeFrame_foldl _ (fun u t => storeIntoSlot_frame s _ u t) _ _)

/-- A store over runs of locations. -/
theorem storeRuns_frame (s : State) (runs : List (Nat × Nat)) (bs : List Byte) : StoreFrame s (storeRuns s runs bs) := by
  induction runs generalizing s bs with
  | nil => exact storeFrame_refl s
  | cons r runs ih => exact storeFrame_trans (store_frame s r.1 _) (ih _ _)

/-! ### The canonical form through whole operations -/

theorem store_inv {s : State} {loc : Nat} {bs : List Byte} (h : MemoryInv s) : MemoryInv (store s loc bs) :=
  memoryInv_of_storeFrame (store_frame s loc bs) h

theorem storeRuns_inv {s : State} {runs : List (Nat × Nat)} {bs : List Byte} (h : MemoryInv s) : MemoryInv (storeRuns s runs bs) :=
  memoryInv_of_storeFrame (storeRuns_frame s runs bs) h

theorem setDesc_inv {s : State} {b : Nat} {d : BitVec 16} (h : MemoryInv s) : MemoryInv (setDesc s b d) :=
  ⟨h.1, sparsePut_wf h.2.1 (Nat.zero_le _), h.2.2.1, h.2.2.2⟩

theorem setBytes_inv {s : State} {loc : Nat} {bs : List Byte} (h : MemoryInv s) : MemoryInv (setBytes s loc bs) :=
  memoryInv_of_storeFrame (setBytes_frame s loc bs) h

/-- A span cleared (R309, R337). -/
theorem clearSpan_inv {s : State} {lo hi : Nat} (h : MemoryInv s) : MemoryInv (clearSpan s lo hi) :=
  ⟨memory_clear_wf h.1, sparseFilter_wf _ h.2.1, h.2.2.1, h.2.2.2⟩

theorem setSpad_inv {s : State} {image : List Byte} (h : MemoryInv s) : MemoryInv (setSpad s image) := by
  unfold setSpad
  exact memoryInv_of_storeFrame (poison_frame _ _) (setBytes_inv (clearSpan_inv h))

theorem setPeers_inv {s : State} {lid n : Nat} {image : List Byte} (h : MemoryInv s) : MemoryInv (setPeers s lid n image) := by
  have step (u : State) (i : Nat) : StoreFrame u
      (if i = lid ∨ image.isEmpty = true then u else setBytes u (gwinLoc + spadSize * i) (image.take spadSize)) := by
    split
    · exact storeFrame_refl u
    · exact setBytes_frame ..
  unfold setPeers
  generalize gwinLoc + 2 ^ 20 * spadSize = hi
  exact memoryInv_of_storeFrame (storeFrame_foldl _ step _ _) (clearSpan_inv h)

theorem clearAccs_inv {s : State} (h : MemoryInv s) : MemoryInv (clearAccs s) :=
  ⟨memory_clear_wf (memory_clear_wf h.1), h.2.1, h.2.2.1, h.2.2.2⟩

theorem resetBank_inv {s : State} (h : MemoryInv s) : MemoryInv (resetBank s) :=
  ⟨memory_clear_wf h.1, h.2.1, h.2.2.1, h.2.2.2⟩

/-- A core prepared for a launch (R337). -/
theorem prepareCore_inv {s : State} {l : Launch} {lid : Nat} (h : MemoryInv s) : MemoryInv (prepareCore s l lid) := by
  have k : MemoryInv (setPeers (clearAccs (setSpad (freeCore s) (launchImage s l))) lid l.n (launchImage s l)) :=
    setPeers_inv (clearAccs_inv (setSpad_inv (s := freeCore s) h))
  have r := resetBank_inv k
  unfold prepareCore
  dsimp only
  split
  · exact k
  · exact r

/-- Taking a fault keeps the canonical form of memory (R305). -/
theorem faultFrame_memory {s t : State} (h : FaultFrame s t) (m : Memory.wf s.mem = true) : Memory.wf t.mem = true := by
  rw [h.mem]; exact m

end Sys2Proof.Laws
end

