-- ==== Sys2Proof/Laws/Order.lean ====
section
/-! SUPPORT. What the order of memory does (R206 to R215), said once: where no older value may be read any more, every operation on
the order leaves the state as it is, and a load shows memory; and what a store by a context can change. -/

namespace Sys2Proof.Laws

open Sys2Proof.Machine

/-! ### With nothing older to be read -/

@[simp] theorem settle_vis (s : State) : (settle s).vis = .settled s.vis.count := rfl

theorem settle_of_settled {s : State} (h : s.vis = .settled s.vis.count) : settle s = s := by
  unfold settle
  rw [← h]

@[simp] theorem settled_tidy (n : Nat) : (Visibility.settled n).tidy = .settled n := rfl

@[simp] theorem settled_learn (n : Nat) (a : Agent) (f : Bool) (p : Unseen → Bool) :
    (Visibility.settled n).learn a f p = .settled n := by cases f <;> rfl

@[simp] theorem settled_acquire (n : Nat) (a : Agent) (z : Storage) (rs : List Release) :
    (Visibility.settled n).acquire a z rs = .settled n := by
  unfold Visibility.acquire
  simp only [settled_learn]
  rfl

theorem oldFor_of_settled {s : State} {c : Fin 8} {loc : Nat} (h : s.vis.unseen = []) : oldFor s c loc = none := by
  simp [oldFor, h]

/-- With every write to them seen and none of them released, a read of locations leaves the order as it is (R209, R211). -/
theorem quietAt_of_settled {v : Visibility} {a : Agent} {q : Bool} {locs : List Nat} (h : v.unseen = []) (k : v.heads = []) :
    quietAt v a q locs = true := by simp [quietAt, h, k]

/-- A read of the newest value finds nothing of the order (R209). -/
theorem readNewest_of_settled {s : State} {a : Agent} {m : AtMode} {loc n : Nat} (h : s.vis = .settled s.vis.count) :
    readNewest s a m loc n = s := by
  have k (c : Nat) (o : Order) (l : List Nat) :
      ((Visibility.settled c).meet a m o (l.map fun i => ((Visibility.settled c).headsAt i).map fun r => (i, r)).flatten).tidy =
        .settled c := by
    have e : (l.map fun i => ((Visibility.settled c).headsAt i).map fun r => (i, r)).flatten = [] := by
      rw [List.flatten_eq_nil_iff]
      intro x hx
      obtain ⟨i, -, rfl⟩ := List.mem_map.mp hx
      rfl
    rw [e]
    unfold Visibility.meet
    split
    · rw [settled_acquire]; rfl
    · rfl
  unfold readNewest
  simp only
  rw [h, settled_learn, k, ← h]

/-- A fence orders what may be read of before a write, and nothing else (R214). -/
theorem fenced_of_settled {s : State} {k : FenceKind} {z : Storage} {a : AgentScope} (h : s.vis = .settled s.vis.count) :
    fenced s k z a = s := by
  have acq (n : Nat) (x : Agent) : fenceAcquire (.settled n) x z a = .settled n := by
    unfold fenceAcquire
    dsimp only
    rw [settled_acquire]
    rfl
  have rel (n : Nat) (x : Agent) : fenceRelease (.settled n) x z = .settled n := rfl
  have vis (n : Nat) (x : Agent) : fenceVisible (.settled n) x z = .settled n := rfl
  unfold fenced
  dsimp only
  split
  · rfl
  · rw [h]
    cases k <;> simp only [acq, rel, vis, settled_tidy] <;> rw [← h]

/-- A load where nothing older may be read shows memory (R211). -/
theorem loadAs_of_settled {s : State} {m : AtMode} {g : Nat} {runs : List (Nat × Nat)} (h : s.vis.unseen = []) (k : s.vis.heads = [])
    (e : ∀ l ∈ runLocs runs, earlyByte s l = false) :
    loadAs s m g runs = ((runs.map fun r => readBytes s r.1 r.2).flatten, s) := by
  have hs : loadSettled s m runs = true := by
    unfold loadSettled
    rw [quietAt_of_settled h k, Bool.and_true, List.all_eq_true]
    intro l hl
    simp [e l hl]
  unfold loadAs
  rw [if_pos hs]

/-! ### What an access leaves of the order -/

/-- A write by an agent that no other agent reads beside leaves every write seen (R211). -/
theorem noteAs_alone {s : State} {w : Write} {locs : List Nat} (h : w.readers = []) (u : s.vis = .settled s.vis.count) :
    noteAs s w locs = s := by
  unfold noteAs
  simp only [h, List.isEmpty_nil, Bool.true_or, if_true]
  rw [u, settled_learn, settled_tidy, ← u]

/-- A context's store within the core, with no other agent of the core, leaves every write seen (R211, R212). -/
theorem noteStore_alone {s : State} {c : Fin 8} {m : AtMode} {r : Bool} {locs : List Nat} (h : otherAgents s (.ctx c) = [])
    (u : s.vis = .settled s.vis.count) (k : ∀ l ∈ locs, l < gwinLoc) : noteStore s c m r locs = s := by
  have e : (locs.any fun l => decide (gwinLoc ≤ l)) = false := by
    rw [List.any_eq_false]
    intro l hl
    simpa using k l hl
  unfold noteStore
  dsimp only
  rw [noteAs_alone h u, e, Bool.or_false]

/-- A load changes nothing but what may still be read, and the free choice. -/
theorem loadAs_state (s : State) (m : AtMode) (g : Nat) (runs : List (Nat × Nat)) :
    ∃ v n, (loadAs s m g runs).2 = { s with vis := v, choice := n } := by
  unfold loadAs
  split
  · exact ⟨s.vis, s.choice, rfl⟩
  · exact ⟨_, _, rfl⟩

/-- A context's store leaves memory as the plain store does: what it notes of the order is no part of memory (R175, R211). -/
theorem ctxStoreAs_frame (s : State) (m : AtMode) (r : Bool) (runs : List (Nat × Nat)) (bs : List Byte) :
    StoreFrame (noteStore s s.cur m r (runLocs runs)) (ctxStoreAs s m r runs bs) := storeRuns_frame _ _ _

/-- Noting a write keeps the canonical form of memory. -/
theorem noteStore_inv {s : State} {c : Fin 8} {m : AtMode} {r : Bool} {locs : List Nat} (h : MemoryInv s) :
    MemoryInv (noteStore s c m r locs) := by
  unfold MemoryInv at *
  simpa using h

theorem ctxStoreAs_inv {s : State} {m : AtMode} {r : Bool} {runs : List (Nat × Nat)} {bs : List Byte} (h : MemoryInv s) :
    MemoryInv (ctxStoreAs s m r runs bs) :=
  memoryInv_of_storeFrame (ctxStoreAs_frame s m r runs bs) (noteStore_inv h)

/-- A masked store by a context keeps the canonical form of memory. -/
theorem ctxStoreMasked_inv {s : State} {loc : Nat} {bs : List Byte} {act : Nat → Bool} (h : MemoryInv s) :
    MemoryInv (ctxStoreMasked s loc bs act) :=
  memoryInv_of_storeFrame (storeMasked_frame _ loc bs act) (noteStore_inv h)

/-! ### The issue slot (R25) -/

/-- A context that may go on keeps the slot. -/
theorem passedOn_of_ready {s : State} (h : ready s s.cur = true) : passedOn s = s := by simp [passedOn, h]

/-- Passing the slot on changes the current context alone, to one that is ready, where one is. -/
theorem passedOn_cases (s : State) :
    passedOn s = s ∨ ∃ d ∈ after s.cur, ready s d = true ∧ passedOn s = { s with core := { s.core with cur := d } } := by
  unfold passedOn
  split
  · exact .inl rfl
  · split
    · rename_i d h
      exact .inr ⟨d, List.mem_of_find?_eq_some h, List.find?_some h, rfl⟩
    · exact .inl rfl

end Sys2Proof.Laws
end

