-- ==== Sys2Proof/Tests/Slice0.lean ====
section
/-! SUPPORT. Tests: ill-formed terms that the check refuses, words of the spec's encoding tables with the instructions they
stand for, one step of single instructions on small states with results worked out from the spec, and a concrete input that
meets the hypotheses of each claim. -/

set_option maxRecDepth 100000

namespace Sys2Proof.Tests

open Sys2Proof Sys2Proof.Machine

noncomputable section

/- One test is checked after the other: tests that wait for the kernel beside each other hold a thread with its stack each. -/
set_option Elab.async false

/-! ### Small states -/

/-- The control context live at 0x100 with the g registers given, nothing else started. -/
def start (g : List (GReg × Word)) : State :=
  g.foldl (fun s p => setG s 0 p.1 p.2) (State.reset.setCtx 0 { Ctx.idle with live := true, pc := 0x100 })

/-- The same with vector registers, the first listed being written first. -/
def startV (g : List (GReg × Word)) (v : List (VCode × Vec)) : State :=
  v.foldl (fun s p => setV s 0 p.1 p.2) (start g)

/-- The same behind a unit's first forms, which lie before it. -/
def inUnit (s : State) (triple : Bool) (wide : Option (BitVec 10)) : State :=
  { s with core := { s.core with unit := some { start := 0xFE, triple := triple, wide := wide } } }

/-- Bytes in memory, written directly. -/
def withBytes (s : State) (loc : Nat) (bs : List Byte) : State := { s with mem := Memory.putBytes s.mem loc bs }

/-- A value of the state after one instruction. -/
def after1 {α : Type} (s : State) (i : Instr) (f : State → α) : Option α :=
  match exec i s with
  | .next t => some (f t)
  | _ => none

/-- A g register after one instruction. -/
def gAfter (g : List (GReg × Word)) (i : Instr) (r : GReg) : Option Word := after1 (start g) i fun t => getG t 0 r

/-- A vector register after one instruction. -/
def vAfter (g : List (GReg × Word)) (v : List (VCode × Vec)) (i : Instr) (r : VCode) : Option Vec :=
  after1 (startV g v) i fun t => getV t 0 r

/-- The pc after one instruction. -/
def pcAfter (s : State) (i : Instr) : Option Word := after1 s i fun t => (t.ctx 0).pc

/-- The fault class that one instruction raises. -/
def faultOf (s : State) (i : Instr) : Option (Option FaultClass) :=
  after1 s i fun t => (t.ctx t.cur).packet.map fun p => p.cls

/-- 32-bit elements, element 0 first. -/
def vec32 (l : List Nat) : Vec := pack 32 l

/-- 16-bit elements, element 0 first. -/
def vec16 (l : List Nat) : Vec := pack 16 l

/-- 8-bit elements, element 0 first. -/
def vec8 (l : List Nat) : Vec := pack 8 l

/-! ### Well-formedness: an ill-formed term for each check, which the check refuses (R86, R95, R97, R102, R159, R230) -/

/-- A lane instruction whose agn bit has no mask (R86). -/
def agnNoMask : VaArgs := { vb := 5, va := 6, vd := 13, mask := 0, agn := true, ty := 2 }

/-- A lane instruction of a given type. -/
def typed (t : Fin 8) : VaArgs := { vb := 5, va := 6, vd := 13, mask := 1, agn := false, ty := t }

/-- A one-source lane instruction of a given type. -/
def typed1 (t : Fin 8) : Va1Args := { va := 6, vd := 13, mask := 1, agn := false, ty := t }

/-- A VX instruction of a given type. -/
def vxTyped (t : Fin 8) (mask : Fin 8) (agn : Bool) : VxArgs := { va := 6, vd := 13, mask := mask, agn := agn, ta := t }

/-- The order field of an atomic instruction. -/
def ordered (o : Order) : AtMode := { size := .w, storage := .all, agent := .clu, order := o }

/-- Short vector forms: bitwise and shift operations of a floating type, and VNEG and VABS of n32 (R88, R158). -/
theorem test_ill_formed_short : ([.vandShort ⟨1, 2, 4⟩, .vorShort ⟨1, 2, 4⟩, .vxorShort ⟨1, 2, 4⟩, .vshlShort ⟨1, 2, 4⟩,
    .vshrShort ⟨1, 2, 4⟩, .vshrlShort ⟨1, 2, 4⟩, .vneg ⟨1, 2, 3⟩, .vabs ⟨1, 2, 3⟩] : List Instr).all
      (fun i => !i.wf) = true := by decide

/-- Lane instructions: agn without a mask (R86). -/
theorem test_ill_formed_agn : ([.vadd agnNoMask, .vsub agnNoMask, .vmul agnNoMask, .vmulh agnNoMask, .vfma agnNoMask,
    .vfms agnNoMask, .vmin agnNoMask, .vmax agnNoMask, .vminn agnNoMask, .vmaxn agnNoMask, .vand agnNoMask, .vor agnNoMask,
    .vxor agnNoMask, .vshl agnNoMask, .vshr agnNoMask, .vshrl agnNoMask, .vadds agnNoMask, .vaddsn agnNoMask,
    .vsubs agnNoMask, .vabsd agnNoMask, .vdiv agnNoMask, .vscale agnNoMask, .vcmpeq agnNoMask, .vcmplt agnNoMask,
    .vcmple agnNoMask, .vcmpltn agnNoMask, .vdot4 { agnNoMask with ty := 4 }, .vdot2 agnNoMask,
    .vsqrt ⟨6, 13, 0, true, 1⟩, .vrcp ⟨6, 13, 0, true, 1⟩, .vexp2 ⟨6, 13, 0, true, 1⟩, .vcvtff ⟨.rne, 6, 13, 0, true, 2, 1⟩,
    .vcvtfi ⟨.rne, 6, 13, 0, true, 2, 1⟩, .vcvtif ⟨.rne, 6, 13, 0, true, 2, 1⟩, .vcvtii ⟨.rne, 6, 13, 0, true, 2, 1⟩,
    .vdeq ⟨.rne, 6, 13, 0, true, 1⟩, .vcbdec ⟨.rne, 6, 13, 0, true, 1⟩, .vbcast ⟨6, 13, 0, true, 1⟩, .vperm (vxTyped 1 0 true),
    .vexpnd (vxTyped 1 0 true), .viota (vxTyped 1 0 true), .vmov (vxTyped 1 0 true), .vclass (vxTyped 1 0 true),
    .vbmdec ⟨6, 13, 0, true, 0, 1⟩] : List Instr).all (fun i => !i.wf) = true := by decide

/-- Lane instructions: a type code that the instruction's table does not accept (R95, R150 to R157). -/
theorem test_ill_formed_lane_types : ([.vmulh (typed 4), .vminn (typed 4), .vmaxn (typed 4), .vand (typed 4), .vor (typed 4),
    .vxor (typed 4), .vshl (typed 4), .vshr (typed 4), .vshrl (typed 4), .vadds (typed 4), .vaddsn (typed 4), .vsubs (typed 4),
    .vabsd (typed 4), .vdiv (typed 4), .vsqrt (typed1 4), .vrcp (typed1 4), .vexp2 (typed1 0), .vexp2 (typed1 4),
    .vscale (typed 6), .vcmpltn (typed 4), .vsel ⟨5, 6, 13, 1, 4⟩, .vdot4 (typed 3), .vdot4 (typed 6), .vdot2 (typed 1),
    .vdot2 (typed 4)] : List Instr).all (fun i => !i.wf) = true := by decide

/-- VX instructions: types out of their tables, equal formats, VCVTII's modes, and a g pair that starts at g15 (R159 to R169). -/
theorem test_ill_formed_moves : ([.vcvtff ⟨.rne, 6, 13, 1, false, 7, 1⟩, .vcvtff ⟨.rne, 6, 13, 1, false, 1, 7⟩,
    .vcvtff ⟨.rne, 6, 13, 1, false, 1, 1⟩, .vcvtfi ⟨.rne, 6, 13, 1, false, 1, 7⟩, .vcvtif ⟨.rne, 6, 13, 1, false, 7, 1⟩,
    .vcvtii ⟨.rne, 6, 13, 1, false, 1, 1⟩, .vcvtii ⟨.rtz, 6, 13, 1, false, 1, 2⟩, .vcvtii ⟨.sr, 6, 13, 1, false, 1, 2⟩,
    .vquant ⟨.rne, 6, 7, 4, 0⟩, .vquant ⟨.rne, 6, 7, 4, 4⟩, .vquant ⟨.rne, 6, 7, 3, 1⟩, .vquant ⟨.rne, 6, 7, 7, 1⟩,
    .vdeq ⟨.rne, 6, 13, 1, false, 0⟩, .vdeq ⟨.rne, 6, 13, 1, false, 4⟩, .vcbdec ⟨.rne, 6, 13, 1, false, 0⟩,
    .vcbdec ⟨.rne, 6, 13, 1, false, 5⟩, .vcbdec ⟨.rne, 15, 13, 1, false, 1⟩, .vput ⟨15, 13, 1⟩, .vredadd ⟨6, 13, 1, 2, 1⟩,
    .vredadd ⟨6, 13, 1, 1, 4⟩, .vredmax ⟨6, 13, 1, 1, 4⟩, .vredmin ⟨6, 13, 1, 1, 4⟩, .vscanadd ⟨6, 13, 1, 1, 4⟩,
    .vbmenc ⟨6, 7, 1, 1, 7⟩, .vbmdec ⟨6, 13, 1, false, 1, 7⟩, .vmov (vxTyped 4 1 false), .vclass (vxTyped 7 1 false)]
      : List Instr).all (fun i => !i.wf) = true := by decide

/-- Atomic and synchronising instructions: orders and scopes that the instruction does not accept, TRYTAKE with one register
for both results, and UNWATCH of all with a register (R180 to R185, R193, R205). -/
theorem test_ill_formed_orders : ([.ldo ⟨ordered .rel, 6, 7⟩, .ldo ⟨ordered .ar, 6, 7⟩, .sto ⟨ordered .acq, 6, 7⟩,
    .sto ⟨ordered .ar, 6, 7⟩, .take ⟨ordered .rel, 6, 7⟩, .take ⟨ordered .rlx, 6, 7⟩, .peek ⟨ordered .rel, 6, 7⟩,
    .put ⟨ordered .acq, 6, 7⟩, .trytake ⟨ordered .rel, 5, 6, 7⟩, .trytake ⟨ordered .ar, 7, 6, 7⟩, .tryput ⟨ordered .acq, 5, 6, 7⟩,
    .fill ⟨ordered .acq, 6, 7⟩, .drain ⟨ordered .acq, 6⟩, .festat ⟨ordered .rel, 6, 7⟩, .unwatch true 6, .publ .ctx 6 7,
    .publ .core 6 7, .publ .clu 6 7] : List Instr).all (fun i => !i.wf) = true := by decide

/-- Engine commands: fields that go unused with S, a qualifier that needs another, a handle that is not used (R233 to R241,
R271). -/
theorem test_ill_formed_commands : ([.tld ⟨false, true, .none, 1, 6, 7, 8⟩, .tld ⟨false, false, .t8, 1, 6, 7, 8⟩,
    .tst ⟨false, true, 1, 6, 7, 8⟩, .tmma ⟨.ovw, false, true, 0, 6, 7, 8⟩, .tzero ⟨true, 1, 6, 7⟩, .tzero ⟨false, 1, 6, 7⟩,
    .tscale ⟨true, 1, 6, 7, 8⟩, .tscale ⟨false, 1, 6, 7, 8⟩, .tvfy ⟨true, 1, 6, 7⟩, .tvfy ⟨false, 1, 6, 7⟩,
    .cpy ⟨3, false, .none, false, .none, 6, 7⟩] : List Instr).all (fun i => !i.wf) = true := by decide

/-! ### Decoding: a word of every row with an encoding (R87 to R104) -/

/-- R88, R158: one word of each row, its fixed bits and its fields placed as the table places them. -/
theorem test_decode_short_vector_forms : ∀ p ∈ ([
    (0xB900, .vaddShort { src := 5, kd := 6, ty := 2 }),
    (0xB908, .vsubShort { src := 5, kd := 6, ty := 2 }),
    (0xB910, .vmulShort { src := 5, kd := 6, ty := 2 }),
    (0xB918, .vmac { src := 5, kd := 6, ty := 2 }),
    (0xB920, .vminShort { src := 5, kd := 6, ty := 2 }),
    (0xB928, .vmaxShort { src := 5, kd := 6, ty := 2 }),
    (0xB930, .vandShort { src := 5, kd := 6, ty := 2 }),
    (0xB938, .vorShort { src := 5, kd := 6, ty := 2 }),
    (0xB940, .vxorShort { src := 5, kd := 6, ty := 2 }),
    (0xB948, .vshlShort { src := 5, kd := 6, ty := 2 }),
    (0xB950, .vshrShort { src := 5, kd := 6, ty := 2 }),
    (0xB958, .vshrlShort { src := 5, kd := 6, ty := 2 }),
    (0xB960, .vmovShort { src := 5, kd := 6, ty := 2 }),
    (0xB968, .vneg { src := 5, kd := 6, ty := 2 }),
    (0xB970, .vabs { src := 5, kd := 6, ty := 2 }),
    (0xB978, .vcmpltShort { src := 5, kd := 6, ty := 2 })] : List (Nat × Instr)),
    decodeTableWord 16 p.1 = some p.2 := by decide

/-- R90: one word of each row, its fixed bits and its fields placed as the table places them. -/
theorem test_decode_short_scalar_forms : ∀ p ∈ ([
    (0x6182, .addShort { gs := 12, gd := 3 }),
    (0x618A, .subShort { gs := 12, gd := 3 }),
    (0x6B12, .addi4 { imm := 13, gd := 6 }),
    (0x619A, .mov { gs := 12, gd := 3 }),
    (0x6B22, .li4 { imm := 13, gd := 6 }),
    (0x61AA, .andShort { gs := 12, gd := 3 }),
    (0x61B2, .orShort { gs := 12, gd := 3 }),
    (0x61BA, .xorShort { gs := 12, gd := 3 }),
    (0x6B42, .shliShort { imm := 13, gd := 6 }),
    (0x6B4A, .shriShort { imm := 13, gd := 6 }),
    (0x6B52, .shrliShort { imm := 13, gd := 6 }),
    (0x61DA, .lw16 { gs := 12, gd := 3 }),
    (0x61E2, .sw16 { gs := 12, gd := 3 }),
    (0x61EA, .lx16 { gs := 12, gd := 3 }),
    (0x61F2, .sx16 { gs := 12, gd := 3 }),
    (0x61FA, .sltShort { gs := 12, gd := 3 })] : List (Nat × Instr)),
    decodeTableWord 16 p.1 = some p.2 := by decide

/-- R91: one word of each row, its fixed bits and its fields placed as the table places them. -/
theorem test_decode_short_branches : ∀ p ∈ ([
    (0x8B24, .beqz { disp := 0x45, gs := 9 }),
    (0x8B2C, .bnez { disp := 0x45, gs := 9 }),
    (0x8A14, .bra 0x45),
    (0x8B3C, .bltz { disp := 0x45, gs := 9 })] : List (Nat × Instr)),
    decodeTableWord 16 p.1 = some p.2 := by decide

/-- R92: one word of each row, its fixed bits and its fields placed as the table places them. -/
theorem test_decode_short_specials : ∀ p ∈ ([
    (0x0006, .nop),
    (0x000E, .triple),
    (0xA956, .wide 0x2A5),
    (0x001E, .yield)] : List (Nat × Instr)),
    decodeTableWord 16 p.1 = some p.2 := by decide

/-- R98, R127: one word of each row, its fixed bits and its fields placed as the table places them. -/
theorem test_decode_register_operations : ∀ p ∈ ([
    (0x004B6801, .add { gb := 9, ga := 6, gd := 13 }),
    (0x004B6821, .sub { gb := 9, ga := 6, gd := 13 }),
    (0x004B6841, .mul { gb := 9, ga := 6, gd := 13 }),
    (0x004B6861, .mulh { gb := 9, ga := 6, gd := 13 }),
    (0x004B6881, .mulhn { gb := 9, ga := 6, gd := 13 }),
    (0x004B68A1, .div { gb := 9, ga := 6, gd := 13 }),
    (0x004B68C1, .divn { gb := 9, ga := 6, gd := 13 }),
    (0x004B68E1, .rem { gb := 9, ga := 6, gd := 13 }),
    (0x004B6901, .remn { gb := 9, ga := 6, gd := 13 }),
    (0x004B6921, .and { gb := 9, ga := 6, gd := 13 }),
    (0x004B6941, .or { gb := 9, ga := 6, gd := 13 }),
    (0x004B6961, .xor { gb := 9, ga := 6, gd := 13 }),
    (0x004B6981, .andn { gb := 9, ga := 6, gd := 13 }),
    (0x004B69A1, .shl { gb := 9, ga := 6, gd := 13 }),
    (0x004B69C1, .shr { gb := 9, ga := 6, gd := 13 }),
    (0x004B69E1, .shrl { gb := 9, ga := 6, gd := 13 }),
    (0x004B6A01, .rol { gb := 9, ga := 6, gd := 13 }),
    (0x004B6A21, .slt { gb := 9, ga := 6, gd := 13 }),
    (0x004B6A41, .sltn { gb := 9, ga := 6, gd := 13 }),
    (0x004B6A61, .min { gb := 9, ga := 6, gd := 13 }),
    (0x004B6A81, .max { gb := 9, ga := 6, gd := 13 }),
    (0x004B6AA1, .minn { gb := 9, ga := 6, gd := 13 }),
    (0x004B6AC1, .maxn { gb := 9, ga := 6, gd := 13 }),
    (0x0004B2E1, .clz { ga := 9, gd := 6 }),
    (0x0004B301, .ctz { ga := 9, gd := 6 }),
    (0x0004B321, .popc { ga := 9, gd := 6 }),
    (0x004B6B41, .sel { gb := 9, ga := 6, gd := 13 }),
    (0x004B6B61, .exts { gb := 9, ga := 6, gd := 13 }),
    (0x004B6B81, .extz { gb := 9, ga := 6, gd := 13 }),
    (0x004B6BA1, .bfx { gb := 9, ga := 6, gd := 13 }),
    (0x004B6BC1, .bfi { gb := 9, ga := 6, gd := 13 }),
    (0x004B6BE1, .adds { gb := 9, ga := 6, gd := 13 })] : List (Nat × Instr)),
    decodeTableWord 32 p.1 = some p.2 := by decide

/-- R131, R132: one word of each row, its fixed bits and its fields placed as the table places them. -/
theorem test_decode_immediate_operations : ∀ p ∈ ([
    (0x8D165803, .addi { imm := 0x2345, ga := 9, gd := 6 }),
    (0x8D165823, .andi { imm := 0x2345, ga := 9, gd := 6 }),
    (0x8D165843, .ori { imm := 0x2345, ga := 9, gd := 6 }),
    (0x8D165863, .xori { imm := 0x2345, ga := 9, gd := 6 }),
    (0x00A65883, .shli { k := 41, ga := 9, gd := 6 }),
    (0x00A658A3, .shri { k := 41, ga := 9, gd := 6 }),
    (0x00A658C3, .shrli { k := 41, ga := 9, gd := 6 }),
    (0x8D1658E3, .slti { imm := 0x2345, ga := 9, gd := 6 }),
    (0x8D165903, .sltni { imm := 0x2345, ga := 9, gd := 6 }),
    (0x8D165923, .lis { imm := 0x2345, ga := 9, gd := 6 }),
    (0x8D142543, .addpc 0x2345 9),
    (0x8D165963, .muli { imm := 0x2345, ga := 9, gd := 6 })] : List (Nat × Instr)),
    decodeTableWord 32 p.1 = some p.2 := by decide

/-- R136, R137: one word of each row, its fixed bits and its fields placed as the table places them. -/
theorem test_decode_branches_and_jumps : ∀ p ∈ ([
    (0xA5C39605, .beq { disp := 0xA5C3, gb := 9, ga := 6 }),
    (0xA5C39625, .bne { disp := 0xA5C3, gb := 9, ga := 6 }),
    (0xA5C39645, .blt { disp := 0xA5C3, gb := 9, ga := 6 }),
    (0xA5C39665, .bge { disp := 0xA5C3, gb := 9, ga := 6 }),
    (0xA5C39685, .bltn { disp := 0xA5C3, gb := 9, ga := 6 }),
    (0xA5C396A5, .bgen { disp := 0xA5C3, gb := 9, ga := 6 }),
    (0xA5C319C5, .jal 0xA5C31 9),
    (0x000096E5, .jalr 9 6)] : List (Nat × Instr)),
    decodeTableWord 32 p.1 = some p.2 := by decide

/-- R95, R150: one word of each row, its fixed bits and its fields placed as the table places them. -/
theorem test_decode_lane_instructions : ∀ p ∈ ([
    (0xAE9B6807, .vadd { vb := 21, va := 26, vd := 13, mask := 5, agn := true, ty := 2 }),
    (0xAE9B6827, .vsub { vb := 21, va := 26, vd := 13, mask := 5, agn := true, ty := 2 }),
    (0xAE9B6847, .vmul { vb := 21, va := 26, vd := 13, mask := 5, agn := true, ty := 2 }),
    (0xAE9B6867, .vmulh { vb := 21, va := 26, vd := 13, mask := 5, agn := true, ty := 2 }),
    (0xAE9B6887, .vfma { vb := 21, va := 26, vd := 13, mask := 5, agn := true, ty := 2 }),
    (0xAE9B68A7, .vfms { vb := 21, va := 26, vd := 13, mask := 5, agn := true, ty := 2 }),
    (0xAE9B68C7, .vmin { vb := 21, va := 26, vd := 13, mask := 5, agn := true, ty := 2 }),
    (0xAE9B68E7, .vmax { vb := 21, va := 26, vd := 13, mask := 5, agn := true, ty := 2 }),
    (0xAE9B6907, .vminn { vb := 21, va := 26, vd := 13, mask := 5, agn := true, ty := 2 }),
    (0xAE9B6927, .vmaxn { vb := 21, va := 26, vd := 13, mask := 5, agn := true, ty := 2 }),
    (0xAE9B6947, .vand { vb := 21, va := 26, vd := 13, mask := 5, agn := true, ty := 2 }),
    (0xAE9B6967, .vor { vb := 21, va := 26, vd := 13, mask := 5, agn := true, ty := 2 }),
    (0xAE9B6987, .vxor { vb := 21, va := 26, vd := 13, mask := 5, agn := true, ty := 2 }),
    (0xAE9B69A7, .vshl { vb := 21, va := 26, vd := 13, mask := 5, agn := true, ty := 2 }),
    (0xAE9B69C7, .vshr { vb := 21, va := 26, vd := 13, mask := 5, agn := true, ty := 2 }),
    (0xAE9B69E7, .vshrl { vb := 21, va := 26, vd := 13, mask := 5, agn := true, ty := 2 }),
    (0xAE9B6A07, .vadds { vb := 21, va := 26, vd := 13, mask := 5, agn := true, ty := 2 }),
    (0xAE9B6A27, .vaddsn { vb := 21, va := 26, vd := 13, mask := 5, agn := true, ty := 2 }),
    (0xAE9B6A47, .vsubs { vb := 21, va := 26, vd := 13, mask := 5, agn := true, ty := 2 }),
    (0xAE9B6A67, .vabsd { vb := 21, va := 26, vd := 13, mask := 5, agn := true, ty := 2 }),
    (0xAE9B6A87, .vdiv { vb := 21, va := 26, vd := 13, mask := 5, agn := true, ty := 2 }),
    (0x069B6AA7, .vsqrt { va := 26, vd := 13, mask := 5, agn := true, ty := 2 }),
    (0x069B6AC7, .vrcp { va := 26, vd := 13, mask := 5, agn := true, ty := 2 }),
    (0x069B6AE7, .vexp2 { va := 26, vd := 13, mask := 5, agn := true, ty := 2 }),
    (0xAE9B6B07, .vscale { vb := 21, va := 26, vd := 13, mask := 5, agn := true, ty := 2 }),
    (0xAE9B6B27, .vcmpeq { vb := 21, va := 26, vd := 13, mask := 5, agn := true, ty := 2 }),
    (0xAE9B6B47, .vcmplt { vb := 21, va := 26, vd := 13, mask := 5, agn := true, ty := 2 }),
    (0xAE9B6B67, .vcmple { vb := 21, va := 26, vd := 13, mask := 5, agn := true, ty := 2 }),
    (0xAE9B6B87, .vcmpltn { vb := 21, va := 26, vd := 13, mask := 5, agn := true, ty := 2 }),
    (0xAE9B4BA7, .vsel { vb := 21, va := 26, vd := 13, mask := 5, ty := 2 }),
    (0xAE9B73C7, .vdot4 { vb := 21, va := 26, vd := 13, mask := 5, agn := true, ty := 4 }),
    (0xAE9B6BE7, .vdot2 { vb := 21, va := 26, vd := 13, mask := 5, agn := true, ty := 2 })] : List (Nat × Instr)),
    decodeTableWord 32 p.1 = some p.2 := by decide

/-- R97, R159: one word of each row, its fixed bits and its fields placed as the table places them. -/
theorem test_decode_vector_moves : ∀ p ∈ ([
    (0xF4DB5809, .vcvtff { rnd := .sat, va := 26, vd := 13, mask := 5, agn := true, tb := 2, ta := 6 }),
    (0xF4DB5829, .vcvtfi { rnd := .sat, va := 26, vd := 13, mask := 5, agn := true, tb := 2, ta := 6 }),
    (0xF4DB5849, .vcvtif { rnd := .sat, va := 26, vd := 13, mask := 5, agn := true, tb := 2, ta := 6 }),
    (0xF4DB5869, .vcvtii { rnd := .sat, va := 26, vd := 13, mask := 5, agn := true, tb := 2, ta := 6 }),
    (0x9260A889, .vquant { rnd := .sr, ga := 9, gd := 6, tb := 5, ta := 2 }),
    (0x536B60A9, .vdeq { rnd := .rtz, ga := 9, vd := 22, mask := 5, agn := true, tb := 3 }),
    (0x136B18C9, .vbcast { ga := 9, vd := 22, mask := 5, agn := true, ta := 6 }),
    (0x349014E9, .vget { va := 26, gd := 9, ta := 5 }),
    (0x13601509, .vput { ga := 9, vd := 22, ta := 5 }),
    (0x34DB0929, .vperm { va := 26, vd := 13, mask := 5, agn := true, ta := 2 }),
    (0x34DA1949, .vcompr { va := 26, vd := 13, mask := 5, ta := 6 }),
    (0x34DB0969, .vexpnd { va := 26, vd := 13, mask := 5, agn := true, ta := 2 }),
    (0x34DA2D89, .vredadd { va := 26, vd := 13, mask := 5, tb := 1, ta := 3 }),
    (0x34DA2DA9, .vredmax { va := 26, vd := 13, mask := 5, tb := 1, ta := 3 }),
    (0x34DA2DC9, .vredmin { va := 26, vd := 13, mask := 5, tb := 1, ta := 3 }),
    (0x34DA2DE9, .vscanadd { va := 26, vd := 13, mask := 5, tb := 1, ta := 3 }),
    (0x13600209, .vmask 9 22),
    (0x34901629, .vpopm { va := 26, gd := 9, ta := 5 }),
    (0x34901649, .vfirst { va := 26, gd := 9, ta := 5 }),
    (0x34DB0A69, .viota { va := 26, vd := 13, mask := 5, agn := true, ta := 2 }),
    (0x349A3A89, .vbmenc { va := 26, gd := 9, mask := 5, tb := 1, ta := 6 }),
    (0x136B3AA9, .vbmdec { ga := 9, vd := 22, mask := 5, agn := true, tb := 1, ta := 6 }),
    (0x536B62C9, .vcbdec { rnd := .rtz, ga := 9, vd := 22, mask := 5, agn := true, tb := 3 }),
    (0x34DB0AE9, .vmov { va := 26, vd := 13, mask := 5, agn := true, ta := 2 }),
    (0x340A0309, .vrndseed 26 5),
    (0x34DB0B29, .vclass { va := 26, vd := 13, mask := 5, agn := true, ta := 2 })] : List (Nat × Instr)),
    decodeTableWord 32 p.1 = some p.2 := by decide

/-- R99, R171, R177: one word of each row, its fixed bits and its fields placed as the table places them. -/
theorem test_decode_loads : ∀ p ∈ ([
    (0xD2E24C0B, .lb { disp := 0x1A5C, base := 9, reg := 6 }),
    (0xD2E24C2B, .lbn { disp := 0x1A5C, base := 9, reg := 6 }),
    (0xD2E24C4B, .lh { disp := 0x1A5C, base := 9, reg := 6 }),
    (0xD2E24C6B, .lhn { disp := 0x1A5C, base := 9, reg := 6 }),
    (0xD2E24C8B, .lw { disp := 0x1A5C, base := 9, reg := 6 }),
    (0xD2E24CAB, .lwn { disp := 0x1A5C, base := 9, reg := 6 }),
    (0xD2E24CCB, .lx { disp := 0x1A5C, base := 9, reg := 6 }),
    (0xD2E26CEB, .vld { disp := 0x1A5C, base := 9, reg := 22 }),
    (0xD2E26D0B, .vldb { disp := 0x1A5C, base := 9, reg := 22 }),
    (0xD2E24D2B, .ldesc { disp := 0x1A5C, base := 9, reg := 6 }),
    (0xA5AC120B, .lbHandle { off := 0xA5, need := 2, h := 5, reg := 9 }),
    (0xA5AC122B, .lbnHandle { off := 0xA5, need := 2, h := 5, reg := 9 }),
    (0xA5AC124B, .lhHandle { off := 0xA5, need := 2, h := 5, reg := 9 }),
    (0xA5AC126B, .lhnHandle { off := 0xA5, need := 2, h := 5, reg := 9 }),
    (0xA5AC128B, .lwHandle { off := 0xA5, need := 2, h := 5, reg := 9 }),
    (0xA5AC12AB, .lwnHandle { off := 0xA5, need := 2, h := 5, reg := 9 }),
    (0xA5AC12CB, .lxHandle { off := 0xA5, need := 2, h := 5, reg := 9 }),
    (0xA5AC2CEB, .vldHandle { off := 0xA5, need := 2, h := 5, reg := 22 }),
    (0xA5AC2D0B, .vldbHandle { off := 0xA5, need := 2, h := 5, reg := 22 })] : List (Nat × Instr)),
    decodeTableWord 32 p.1 = some p.2 := by decide

/-- R99, R171, R177: one word of each row, its fixed bits and its fields placed as the table places them. -/
theorem test_decode_stores : ∀ p ∈ ([
    (0xD2E24C0D, .sb { disp := 0x1A5C, base := 9, reg := 6 }),
    (0xD2E24C2D, .sh { disp := 0x1A5C, base := 9, reg := 6 }),
    (0xD2E24C4D, .sw { disp := 0x1A5C, base := 9, reg := 6 }),
    (0xD2E24C6D, .sx { disp := 0x1A5C, base := 9, reg := 6 }),
    (0xD2E26C8D, .vst { disp := 0x1A5C, base := 9, reg := 22 }),
    (0xB5326CAD, .vstm { mask := 5, disp := 0x2A6, base := 9, reg := 22 }),
    (0xD2E24CCD, .sdesc { disp := 0x1A5C, base := 9, reg := 6 }),
    (0xA5AC120D, .sbHandle { off := 0xA5, need := 2, h := 5, reg := 9 }),
    (0xA5AC122D, .shHandle { off := 0xA5, need := 2, h := 5, reg := 9 }),
    (0xA5AC124D, .swHandle { off := 0xA5, need := 2, h := 5, reg := 9 }),
    (0xA5AC126D, .sxHandle { off := 0xA5, need := 2, h := 5, reg := 9 }),
    (0xA5AC2C8D, .vstHandle { off := 0xA5, need := 2, h := 5, reg := 22 }),
    (0xB6B42CAD, .vstmHandle { mask := 5, off := 0x16, need := 2, h := 6, reg := 22 })] : List (Nat × Instr)),
    decodeTableWord 32 p.1 = some p.2 := by decide

/-- R100, R102, R180: one word of each row, its fixed bits and its fields placed as the table places them. -/
theorem test_decode_atomics : ∀ p ∈ ([
    (0x3442580F, .ldo { m := { size := .x, storage := .host, agent := .mod, order := .acq }, ga := 9, gd := 6 }),
    (0x2DA5802F, .sto { m := { size := .x, storage := .hbm, agent := .pod, order := .rel }, gb := 9, ga := 6 }),
    (0x1AE5944F, .swap { m := { size := .w, storage := .all, agent := .clu, order := .ar }, gb := 9, ga := 6, gd := 5 }),
    (0x1AE5946F, .cas { m := { size := .w, storage := .all, agent := .clu, order := .ar }, gb := 9, ga := 6, gd := 5 }),
    (0x1AE5948F, .fadd { m := { size := .w, storage := .all, agent := .clu, order := .ar }, gb := 9, ga := 6, gd := 5 }),
    (0x1AE594AF, .fand { m := { size := .w, storage := .all, agent := .clu, order := .ar }, gb := 9, ga := 6, gd := 5 }),
    (0x1AE594CF, .atFor { m := { size := .w, storage := .all, agent := .clu, order := .ar }, gb := 9, ga := 6, gd := 5 }),
    (0x1AE594EF, .fxor { m := { size := .w, storage := .all, agent := .clu, order := .ar }, gb := 9, ga := 6, gd := 5 }),
    (0x1AE5950F, .fmin { m := { size := .w, storage := .all, agent := .clu, order := .ar }, gb := 9, ga := 6, gd := 5 }),
    (0x1AE5952F, .fmax { m := { size := .w, storage := .all, agent := .clu, order := .ar }, gb := 9, ga := 6, gd := 5 }),
    (0x1AE5954F, .fminn { m := { size := .w, storage := .all, agent := .clu, order := .ar }, gb := 9, ga := 6, gd := 5 }),
    (0x1AE5956F, .fmaxn { m := { size := .w, storage := .all, agent := .clu, order := .ar }, gb := 9, ga := 6, gd := 5 }),
    (0x1AE5958F, .faddf { m := { size := .w, storage := .all, agent := .clu, order := .ar }, gb := 9, ga := 6, gd := 5 }),
    (0x344259AF, .take { m := { size := .x, storage := .host, agent := .mod, order := .acq }, ga := 9, gd := 6 }),
    (0x344259CF, .peek { m := { size := .x, storage := .host, agent := .mod, order := .acq }, ga := 9, gd := 6 }),
    (0x2DA581EF, .put { m := { size := .x, storage := .hbm, agent := .pod, order := .rel }, gb := 9, ga := 6 }),
    (0x1AE5960F, .trytake { m := { size := .w, storage := .all, agent := .clu, order := .ar }, gb := 9, ga := 6, gd := 5 }),
    (0x1AE5962F, .tryput { m := { size := .w, storage := .all, agent := .clu, order := .ar }, gb := 9, ga := 6, gd := 5 }),
    (0x2DA5824F, .fill { m := { size := .x, storage := .hbm, agent := .pod, order := .rel }, gb := 9, ga := 6 }),
    (0x2382426F, .drain { m := { size := .x, storage := .spad, agent := .die, order := .rel }, ga := 9 }),
    (0x34425A8F, .festat { m := { size := .x, storage := .host, agent := .mod, order := .acq }, ga := 9, gd := 6 })] : List (Nat × Instr)),
    decodeTableWord 32 p.1 = some p.2 := by decide

/-- R188: one word of each row, its fixed bits and its fields placed as the table places them. -/
theorem test_decode_synchronisation : ∀ p ∈ ([
    (0x3D000011, .fence .sc .host .mod),
    (0x00025831, .watch 9 6),
    (0x00241851, .waitw 9 6),
    (0x00024071, .unwatch false 9),
    (0x00240091, .yieldx 9),
    (0x1C0000B1, .bsync 3 .host),
    (0x002580D1, .xsend 9 6),
    (0x000258F1, .xrecv 9 6),
    (0x04000111, .xend .host),
    (0x28258131, .cbinit 5 9 6),
    (0x68241951, .cbwait true 5 9 6),
    (0x28240171, .cbadv 5 9),
    (0x28240191, .cbpush 5 9),
    (0x010259B1, .publ .mod 9 6),
    (0x000025D1, .tick 9),
    (0x000259F1, .waitt 9 6),
    (0x00258211, .dsplit 9 6)] : List (Nat × Instr)),
    decodeTableWord 32 p.1 = some p.2 := by decide

/-- R230: one word of each row, its fixed bits and its fields placed as the table places them. -/
theorem test_decode_tile_commands : ∀ p ∈ ([
    (0x0E259413, .tld { bolt := true, s := true, tr := .t16, acc := 0, gb := 9, ga := 6, gs := 5 }),
    (0x08A59433, .tst { bolt := true, s := false, acc := 2, gb := 9, ga := 6, gs := 5 }),
    (0x11A59453, .tmma { ctl := .fade, h := true, adv := false, acc := 2, gb := 9, ga := 6, gs := 5 }),
    (0x08259473, .twld { chk := true, gb := 9, ga := 6, gs := 5 }),
    (0x00025893, .tcbt { ga := 9, gs := 6 }),
    (0x042418B3, .tzero { s := true, acc := 0, gb := 9, gs := 6 }),
    (0x042594D3, .tscale { s := true, acc := 0, gb := 9, ga := 6, gs := 5 }),
    (0x042418F3, .tvfy { s := true, acc := 0, gb := 9, gs := 6 }),
    (0x00259513, .trem { gb := 9, ga := 6, gs := 5 }),
    (0x00259533, .tcap { gb := 9, ga := 6, gs := 5 }),
    (0x00259553, .tcfg { gb := 9, ga := 6, gs := 5 })] : List (Nat × Instr)),
    decodeTableWord 32 p.1 = some p.2 := by decide

/-- R271, R272: one word of each row, its fixed bits and its fields placed as the table places them. -/
theorem test_decode_copy_commands : ∀ p ∈ ([
    (0x5D425815, .cpy { h := 5, useH := true, pack := .unpack, bolt := true, tr := .t8, ga := 9, gs := 6 }),
    (0x00025835, .cgather { ga := 9, gs := 6 }),
    (0x00025855, .cscatter { ga := 9, gs := 6 }),
    (0x00C25875, .cred { level := 3, ga := 9, gs := 6 }),
    (0x00259495, .cqput { gb := 9, ga := 6, gs := 5 }),
    (0x002594B5, .cdep { gb := 9, ga := 6, gs := 5 }),
    (0x000024D5, .ccancel 9)] : List (Nat × Instr)),
    decodeTableWord 32 p.1 = some p.2 := by decide

/-- R255: one word of each row, its fixed bits and its fields placed as the table places them. -/
theorem test_decode_grammar_commands : ∀ p ∈ ([
    (0x1D825817, .gbind { reassoc := true, op := .satadd, y := 2, ga := 9, gs := 6 }),
    (0x00A59437, .geval { y := 2, gb := 9, ga := 6, gs := 5 }),
    (0x00A59457, .glen { y := 2, gb := 9, ga := 6, gs := 5 }),
    (0x10A59477, .gspine { flag := true, y := 2, gb := 9, ga := 6, gs := 5 }),
    (0x10A59497, .gocc { flag := true, y := 2, gb := 9, ga := 6, gs := 5 }),
    (0x10A594B7, .gunf { flag := true, y := 2, gb := 9, ga := 6, gs := 5 }),
    (0x008258D7, .gloc { y := 2, ga := 9, gs := 6 }),
    (0x00A594F7, .glook { y := 2, gb := 9, ga := 6, gs := 5 }),
    (0x00802517, .grelease { y := 2, gs := 9 })] : List (Nat × Instr)),
    decodeTableWord 32 p.1 = some p.2 := by decide

/-- R292, R298: one word of each row, its fixed bits and its fields placed as the table places them. -/
theorem test_decode_reef_and_neuron_commands : ∀ p ∈ ([
    (0x00825819, .rfmatch { q := 2, ga := 9, gs := 6 }),
    (0x00825839, .rfmerge { q := 2, ga := 9, gs := 6 }),
    (0x00825859, .rfshake { q := 2, ga := 9, gs := 6 }),
    (0x00825879, .rflogs { q := 2, ga := 9, gs := 6 }),
    (0x00802499, .rffree { q := 2, gs := 9 }),
    (0x000258B9, .nbcfg { ga := 9, gs := 6 }),
    (0x002594D9, .nbpost { gb := 9, ga := 6, gs := 5 }),
    (0x000258F9, .nbadv { ga := 9, gs := 6 }),
    (0x00259519, .nbrd { gb := 9, ga := 6, gs := 5 }),
    (0x00259539, .nbwr { gb := 9, ga := 6, gs := 5 }),
    (0x00259559, .nbspk { gb := 9, ga := 6, gs := 5 })] : List (Nat × Instr)),
    decodeTableWord 32 p.1 = some p.2 := by decide

/-- R325: one word of each row, its fixed bits and its fields placed as the table places them. -/
theorem test_decode_system_instructions : ∀ p ∈ ([
    (0x0165801B, .hstart 5 9 6),
    (0x0140243B, .hjoin 5 9),
    (0x0002405B, .hend 9),
    (0xA940007B, .phint 0x2A5),
    (0xA942409B, .trap 0x2A5 9),
    (0xA94024BB, .csrrd 0x2A5 9),
    (0xA94240DB, .csrwr 0x2A5 9),
    (0x000000FB, .gend),
    (0xA940011B, .brk 0x2A5)] : List (Nat × Instr)),
    decodeTableWord 32 p.1 = some p.2 := by decide

/-- Words that R104 refuses: classes 14 and 15, unassigned opcodes, unused bits, reserved codes of size, scope, control and
lift operator, bit 4 of a scalar code; and parcels: SS with bit 15, SP kinds 100 and 111, NOP, TRIPLE and YIELD with a payload,
BRA with a register. -/
theorem test_decode_refuses : ([0x1D, 0x1F, 0x183, 0x401, 0x00800001, 0x000802E1, 0x000100E5, 0x4000000F, 0x0600000F,
    0x20000053, 0x0F000017, 0x0000200B] : List Nat).all (fun w => decodeTableWord 32 w == none) = true ∧
    ([0x8002, 0x26, 0x3E, 0x46, 0x4E, 0x5E, 0x34] : List Nat).all (fun w => decodeTableWord 16 w == none) = true := by decide

/-- The three encodings worked through in the chapter on encoding. -/
theorem test_decode_worked : decodeTableWord 32 0x041CD087 = some (.vfma ⟨0, 16, 14, 3, false, 4⟩) ∧
    decodeTableWord 32 0x94629007 = some (.vadd ⟨18, 17, 17, 2, false, 4⟩) ∧
    decodeTableWord 32 0x001E06E7 = some (.vexp2 ⟨0, 15, 0, false, 1⟩) := by decide

/-- The words of the notes on scalar code. -/
theorem test_decode_notes : decodeTableWord 32 0x048C0D23 = some (.lis ⟨0x123, 0, 3⟩) ∧
    decodeTableWord 16 0x4556 = some (.wide 0x115) ∧ decodeTableWord 32 0x9E24CD23 = some (.lis ⟨0x2789, 3, 3⟩) ∧
    decodeTableWord 16 0x3B02 = some (.addShort ⟨7, 6⟩) ∧ decodeTableWord 16 0x7A12 = some (.addi4 ⟨15, 4⟩) ∧
    decodeTableWord 16 0x001E = some .yield ∧ decodeTableWord 16 0xFA8C = some (.bnez ⟨0x7D, 4⟩) ∧
    decodeTableWord 16 0x77F2 = some (.sx16 ⟨14, 15⟩) ∧ decodeTableWord 32 0x00800FC5 = some (.jal 0x800 15) ∧
    decodeTableWord 32 0x0000F0E5 = some (.jalr 15 0) := by decide

/-! ### Scalar instructions -/

/-- R128's example: −7 by 2 gives −3 and −1, 7 by −2 gives −3 and 1; by 0, and the one overflow. -/
theorem test_division : gAfter [(3, -7), (4, 2)] (.div ⟨4, 3, 5⟩) 5 = some (-3) ∧ gAfter [(3, -7), (4, 2)] (.rem ⟨4, 3, 5⟩) 5 = some (-1) ∧
    gAfter [(3, 7), (4, -2)] (.div ⟨4, 3, 5⟩) 5 = some (-3) ∧ gAfter [(3, 7), (4, -2)] (.rem ⟨4, 3, 5⟩) 5 = some 1 ∧
    gAfter [(3, 9)] (.div ⟨4, 3, 5⟩) 5 = some (-1) ∧ gAfter [(3, 9)] (.rem ⟨4, 3, 5⟩) 5 = some 9 ∧
    gAfter [(3, 0x8000000000000000), (4, -1)] (.div ⟨4, 3, 5⟩) 5 = some 0x8000000000000000 ∧
    gAfter [(3, 0x8000000000000000), (4, -1)] (.rem ⟨4, 3, 5⟩) 5 = some 0 ∧
    gAfter [(3, -7), (4, 2)] (.divn ⟨4, 3, 5⟩) 5 = some 0x7FFFFFFFFFFFFFFC ∧ gAfter [(3, -7), (4, 2)] (.remn ⟨4, 3, 5⟩) 5 = some 1 := by
  decide

/-- R127: sums, products, logic and selections, with gd as a source where it is one, and writes to g0 discarded. -/
theorem test_register_operations : gAfter [(3, -1), (4, 2)] (.add ⟨4, 3, 3⟩) 3 = some 1 ∧ gAfter [(3, 1), (4, 2)] (.sub ⟨4, 3, 5⟩) 5 = some (-1) ∧
    gAfter [(3, -3), (4, 5)] (.mul ⟨4, 3, 5⟩) 5 = some (-15) ∧ gAfter [(3, -3), (4, 5)] (.mulh ⟨4, 3, 5⟩) 5 = some (-1) ∧
    gAfter [(3, -3), (4, 5)] (.mulhn ⟨4, 3, 5⟩) 5 = some 4 ∧ gAfter [(3, 12), (4, 10)] (.and ⟨4, 3, 5⟩) 5 = some 8 ∧
    gAfter [(3, 12), (4, 10)] (.or ⟨4, 3, 5⟩) 5 = some 14 ∧ gAfter [(3, 12), (4, 10)] (.xor ⟨4, 3, 5⟩) 5 = some 6 ∧
    gAfter [(3, 12), (4, 10)] (.andn ⟨4, 3, 5⟩) 5 = some 4 ∧ gAfter [(3, 12), (4, 10), (5, 1)] (.sel ⟨4, 3, 5⟩) 5 = some 12 ∧
    gAfter [(3, 12), (4, 10)] (.sel ⟨4, 3, 5⟩) 5 = some 10 ∧ gAfter [(3, 12), (4, 10)] (.add ⟨4, 3, 0⟩) 0 = some 0 ∧
    gAfter [(3, 0x7FFFFFFFFFFFFFFF), (4, 1)] (.adds ⟨4, 3, 5⟩) 5 = some 0x7FFFFFFFFFFFFFFF := by decide

/-- R127, R129: shifts by b mod 64, counts, orders, extensions and fields; BFX's own example is 12 bits from bit 20. -/
theorem test_shifts_and_fields : gAfter [(3, -8), (4, 65)] (.shl ⟨4, 3, 5⟩) 5 = some (-16) ∧ gAfter [(3, -8), (4, 65)] (.shr ⟨4, 3, 5⟩) 5 = some (-4) ∧
    gAfter [(3, -8), (4, 65)] (.shrl ⟨4, 3, 5⟩) 5 = some 0x7FFFFFFFFFFFFFFC ∧ gAfter [(3, 0x8000000000000001), (4, 4)] (.rol ⟨4, 3, 5⟩) 5 = some 0x18 ∧
    gAfter [(3, -8), (4, 1)] (.slt ⟨4, 3, 5⟩) 5 = some 1 ∧ gAfter [(3, -8), (4, 1)] (.sltn ⟨4, 3, 5⟩) 5 = some 0 ∧
    gAfter [(3, -8), (4, 1)] (.min ⟨4, 3, 5⟩) 5 = some (-8) ∧ gAfter [(3, -8), (4, 1)] (.max ⟨4, 3, 5⟩) 5 = some 1 ∧
    gAfter [(3, -8), (4, 1)] (.minn ⟨4, 3, 5⟩) 5 = some 1 ∧ gAfter [(3, -8), (4, 1)] (.maxn ⟨4, 3, 5⟩) 5 = some (-8) ∧
    gAfter [(3, 0x100)] (.clz ⟨3, 5⟩) 5 = some 55 ∧ gAfter [(3, 0x100)] (.ctz ⟨3, 5⟩) 5 = some 8 ∧ gAfter [] (.clz ⟨3, 5⟩) 5 = some 64 ∧
    gAfter [(3, 0x107)] (.popc ⟨3, 5⟩) 5 = some 4 ∧ gAfter [(3, 0x1FF), (4, 7)] (.exts ⟨4, 3, 5⟩) 5 = some (-1) ∧
    gAfter [(3, 0x1FF), (4, 7)] (.extz ⟨4, 3, 5⟩) 5 = some 0xFF ∧ gAfter [(3, 0x123456789ABCDEF0), (4, 0x0C14)] (.bfx ⟨4, 3, 5⟩) 5 = some 0x9AB ∧
    gAfter [(3, 0xFF), (4, 0x0408), (5, -1)] (.bfi ⟨4, 3, 5⟩) 5 = some (-1) ∧ gAfter [(3, 0x5), (4, 0x0408), (5, -1)] (.bfi ⟨4, 3, 5⟩) 5 = some 0xFFFFFFFFFFFFF5FF ∧
    faultOf (start [(4, 0x4100)]) (.bfx ⟨4, 3, 5⟩) = some (some .illegalOperand) := by decide

/-- R131, R134: the immediates, the notes' chain of LIS, and R134's WIDE pair (−28,672; 4,096 without). -/
theorem test_immediates : gAfter [] (.addi ⟨0x1000, 0, 2⟩) 2 = some 4096 ∧ after1 (inUnit (start []) false (some 0x3FE)) (.addi ⟨0x1000, 0, 2⟩) (fun t => getG t 0 2) = some (-28672) ∧
    gAfter [(3, 0x77)] (.andi ⟨-16, 3, 5⟩) 5 = some 0x70 ∧ gAfter [(3, 1)] (.ori ⟨-16, 3, 5⟩) 5 = some (-15) ∧
    gAfter [(3, 1)] (.xori ⟨3, 3, 5⟩) 5 = some 2 ∧ gAfter [(3, 1)] (.slti ⟨-1, 3, 5⟩) 5 = some 0 ∧ gAfter [(3, 1)] (.sltni ⟨-1, 3, 5⟩) 5 = some 1 ∧
    gAfter [(3, -1)] (.sltni ⟨-1, 3, 5⟩) 5 = some 0 ∧ gAfter [(3, 3)] (.muli ⟨-5, 3, 5⟩) 5 = some (-15) ∧ gAfter [] (.lis ⟨0x123, 0, 3⟩) 3 = some 0x123 ∧
    after1 (inUnit (start [(3, 0x123)]) false (some 0x115)) (.lis ⟨0x2789, 3, 3⟩) (fun t => getG t 0 3) = some 0x123456789 ∧
    after1 (inUnit (start [(3, 0x123456789)]) false (some 0x2AF)) (.lis ⟨0xDEF, 3, 3⟩) (fun t => getG t 0 3) = some 0x0123456789ABCDEF ∧
    gAfter [] (.addpc 0x40 6) 6 = some 0x140 ∧ gAfter [(3, -8)] (.shli ⟨4, 3, 5⟩) 5 = some (-128) ∧ gAfter [(3, -8)] (.shri ⟨2, 3, 5⟩) 5 = some (-2) ∧
    gAfter [(3, -8)] (.shrli ⟨63, 3, 5⟩) 5 = some 1 := by decide

/-- R90, R135: the short scalar forms. -/
theorem test_short_scalars : gAfter [(3, 7), (4, 5)] (.addShort ⟨4, 3⟩) 3 = some 12 ∧ gAfter [(3, 7), (4, 5)] (.subShort ⟨4, 3⟩) 3 = some 2 ∧
    gAfter [(5, 1)] (.addi4 ⟨0xD, 5⟩) 5 = some (-2) ∧ gAfter [(4, 5)] (.mov ⟨4, 3⟩) 3 = some 5 ∧ gAfter [] (.li4 ⟨8, 3⟩) 3 = some (-8) ∧
    gAfter [(3, 7), (4, 5)] (.andShort ⟨4, 3⟩) 3 = some 5 ∧ gAfter [(3, 6), (4, 5)] (.orShort ⟨4, 3⟩) 3 = some 7 ∧
    gAfter [(3, 6), (4, 5)] (.xorShort ⟨4, 3⟩) 3 = some 3 ∧ gAfter [(3, -1)] (.shliShort ⟨15, 3⟩) 3 = some (-32768) ∧
    gAfter [(3, -32768)] (.shriShort ⟨15, 3⟩) 3 = some (-1) ∧ gAfter [(3, -1)] (.shrliShort ⟨15, 3⟩) 3 = some 0x1FFFFFFFFFFFF ∧
    gAfter [(3, -1), (4, 0)] (.sltShort ⟨4, 3⟩) 3 = some 1 ∧ pcAfter (start []) (.li4 ⟨8, 3⟩) = some 0x102 := by decide

/-- R136, R137, R139: taken and not taken, backwards, with the link; an odd base is MISALIGNED. -/
theorem test_branches : pcAfter (start [(3, 1), (4, 1)]) (.beq ⟨-32, 4, 3⟩) = some 0xC0 ∧ pcAfter (start [(3, 1), (4, 1)]) (.bne ⟨-32, 4, 3⟩) = some 0x104 ∧
    pcAfter (start [(3, -1), (4, 1)]) (.blt ⟨8, 4, 3⟩) = some 0x110 ∧ pcAfter (start [(3, -1), (4, 1)]) (.bge ⟨8, 4, 3⟩) = some 0x104 ∧
    pcAfter (start [(3, -1), (4, 1)]) (.bltn ⟨8, 4, 3⟩) = some 0x104 ∧ pcAfter (start [(3, -1), (4, 1)]) (.bgen ⟨8, 4, 3⟩) = some 0x110 ∧
    pcAfter (start []) (.beqz ⟨-3, 4⟩) = some 0xFA ∧ pcAfter (start []) (.bnez ⟨-3, 4⟩) = some 0x102 ∧ pcAfter (start [(4, -1)]) (.bltz ⟨8, 4⟩) = some 0x110 ∧
    pcAfter (start []) (.bra (-3)) = some 0xFA ∧ pcAfter (start []) (.jal 0x800 15) = some 0x1100 ∧ gAfter [] (.jal 0x800 15) 15 = some 0x104 ∧
    pcAfter (start [(15, 0x40)]) (.jalr 15 15) = some 0x40 ∧ gAfter [(15, 0x40)] (.jalr 15 15) 15 = some 0x104 ∧
    faultOf (start [(15, 0x41)]) (.jalr 15 0) = some (some .misaligned) ∧ pcAfter (start []) .nop = some 0x102 := by decide

/-- R93, R144, R145: prefixes form a unit; of three executions two that agree win and are counted; three that differ fault at the
unit's first form. -/
theorem test_triple : after1 (start []) .triple (fun t => (t.core.unit.map fun u => (u.start, u.triple), (t.ctx 0).pc)) = some (some (0x100, true), 0x102) ∧
    faultOf (inUnit (start []) true none) .triple = some (some .illegalPrefix) ∧
    after1 { inUnit (start [(3, 5), (4, 2)]) true none with upsets := [0, 1, 0] } (.add ⟨4, 3, 5⟩) (fun t => (getG t 0 5, t.core.votes)) = some (7, 1) ∧
    after1 { inUnit (start [(3, 5), (4, 2)]) true none with upsets := [4, 1, 0] } (.add ⟨4, 3, 5⟩)
      (fun t => ((t.ctx 0).packet.map fun p => (p.cls, p.pc), getG t 0 5)) = some (some (.tripleDisagree, 0xFE), 0) := by decide

/-! ### Vector instructions -/

/-- The notes' masked addition of 1 to 8 and 10 under 0x55: active elements added, the others kept, and the whole pushed into l0. -/
theorem test_masked_addition :
    let f : List Nat := [0x3F800000, 0x40000000, 0x40400000, 0x40800000, 0x40A00000, 0x40C00000, 0x40E00000, 0x41000000]
    let r := vec32 [0x41300000, 0x40000000, 0x41500000, 0x40800000, 0x41700000, 0x40C00000, 0x41880000, 0x41000000]
    let v := [(17, vec32 f), (18, vec32 (List.replicate 8 0x41200000)), (6, 0x55)]
    vAfter [] v (.vadd ⟨18, 17, 17, 2, false, 4⟩) 17 = some r ∧ vAfter [] v (.vadd ⟨18, 17, 17, 2, false, 4⟩) 0 = some r := by decide

/-- R150: integer lanes that wrap, saturate, take high halves and absolute differences. -/
theorem test_integer_lanes :
    let v := [(13, vec8 [0x80, 0xFF, 0x7F, 200]), (14, vec8 [0x01, 0x01, 0x01, 100])]
    let x : VaArgs := ⟨14, 13, 15, 0, false, 0⟩
    vAfter [] v (.vadd x) 15 = some (vec8 [0x81, 0x00, 0x80, 44]) ∧ vAfter [] v (.vsub x) 15 = some (vec8 [0x7F, 0xFE, 0x7E, 100]) ∧
    vAfter [] v (.vmul x) 15 = some (vec8 [0x80, 0xFF, 0x7F, 32]) ∧ vAfter [] v (.vmulh x) 15 = some (vec8 [0xFF, 0xFF, 0, 0xEA]) ∧
    vAfter [] v (.vmin x) 15 = some (vec8 [0x80, 0xFF, 1, 200]) ∧ vAfter [] v (.vmax x) 15 = some (vec8 [1, 1, 0x7F, 100]) ∧
    vAfter [] v (.vminn x) 15 = some (vec8 [1, 1, 1, 100]) ∧ vAfter [] v (.vmaxn x) 15 = some (vec8 [0x80, 0xFF, 0x7F, 200]) ∧
    vAfter [] v (.vadds x) 15 = some (vec8 [0x81, 0, 0x7F, 44]) ∧ vAfter [] v (.vaddsn x) 15 = some (vec8 [0x81, 0xFF, 0x80, 255]) ∧
    vAfter [] v (.vsubs x) 15 = some (vec8 [0x80, 0xFE, 0x7E, 0x80]) ∧ vAfter [] v (.vabsd x) 15 = some (vec8 [0x81, 2, 0x7E, 156]) := by decide

/-- R150: logic, shifts, fused lanes into the old destination, and compares. -/
theorem test_more_lanes :
    let v := [(13, vec16 [0xF0F0, 0x8000]), (14, vec16 [0x00FF, 0x0011]), (15, vec16 [5, 7])]
    let x : VaArgs := ⟨14, 13, 15, 0, false, 1⟩
    vAfter [] v (.vand x) 15 = some (vec16 [0x00F0, 0]) ∧ vAfter [] v (.vor x) 15 = some (vec16 [0xF0FF, 0x8011]) ∧
    vAfter [] v (.vxor x) 15 = some (vec16 [0xF00F, 0x8011]) ∧ vAfter [] v (.vshl x) 15 = some (vec16 [0, 0]) ∧
    vAfter [] v (.vshr x) 15 = some (vec16 [0xFFFF, 0xC000]) ∧ vAfter [] v (.vshrl x) 15 = some (vec16 [1, 0x4000]) ∧
    vAfter [] v (.vfma x) 15 = some (vec16 [0xFF15, 0x8007]) ∧ vAfter [] v (.vfms x) 15 = some (vec16 [0x00F5, 0x8007]) ∧
    vAfter [] v (.vcmpeq x) 15 = some 0xFFFC ∧ vAfter [] v (.vcmplt x) 15 = some 3 ∧ vAfter [] v (.vcmple x) 15 = some 0xFFFF ∧
    vAfter [] v (.vcmpltn x) 15 = some 0 := by decide

/-- R87, R158: short forms on k registers; VMAC multiplies by l0; R156: VSEL writes every element. -/
theorem test_short_lanes :
    let v := [(8, vec32 [7, 5]), (13, vec32 [3, 0xFFFFFFFF])]
    let x : SvArgs := ⟨5, 4, 2⟩
    (svSrc x, svDst x) = (13, 8) ∧
    vAfter [] v (.vaddShort x) 8 = some (vec32 [10, 4]) ∧ vAfter [] v (.vsubShort x) 8 = some (vec32 [4, 6]) ∧
    vAfter [] v (.vmulShort x) 8 = some (vec32 [21, 0xFFFFFFFB]) ∧ vAfter [] v (.vmac x) 8 = some (vec32 [7, 5]) ∧
    vAfter [] v (.vminShort x) 8 = some (vec32 [3, 0xFFFFFFFF]) ∧ vAfter [] v (.vmaxShort x) 8 = some (vec32 [7, 5]) ∧
    vAfter [] v (.vmovShort x) 8 = some (vec32 [3, 0xFFFFFFFF]) ∧ vAfter [] v (.vneg x) 8 = some (vec32 [0xFFFFFFFD, 1]) ∧
    vAfter [] v (.vabs x) 8 = some (vec32 [3, 1]) ∧ vAfter [] v (.vcmpltShort x) 8 = some 0 ∧
    vAfter [] v (.vandShort x) 8 = some (vec32 [3, 5]) ∧ vAfter [] v (.vorShort x) 8 = some (vec32 [7, 0xFFFFFFFF]) ∧
    vAfter [] v (.vxorShort x) 8 = some (vec32 [4, 0xFFFFFFFA]) ∧ vAfter [] v (.vshlShort x) 8 = some (vec32 [56, 0x80000000]) ∧
    vAfter [] v (.vshrShort x) 8 = some (vec32 [0, 0]) ∧ vAfter [] v (.vshrlShort x) 8 = some (vec32 [0, 0]) ∧
    vAfter [] [(13, vec32 [1, 2]), (14, vec32 [3, 4]), (5, 2)] (.vsel ⟨14, 13, 15, 1, 2⟩) 15 = some (vec32 [3, 2]) := by decide

/-- R152 to R154, R157: division, roots, scaling and powers of 2 on small exact values, and a dot product of e4m3 ones. -/
theorem test_float_functions :
    let v := [(13, vec32 [0x40C00000, 0x41800000]), (14, vec32 [0x40000000, 0x40800000])]
    vAfter [] v (.vdiv ⟨14, 13, 15, 0, false, 1⟩) 15 = some (vec32 [0x40400000, 0x40800000, 0x7FC00000, 0x7FC00000, 0x7FC00000, 0x7FC00000,
      0x7FC00000, 0x7FC00000]) ∧
    vAfter [] v (.vsqrt ⟨14, 15, 0, false, 1⟩) 15 = some (vec32 [0x3FB504F3, 0x40000000]) ∧
    vAfter [] v (.vrcp ⟨14, 15, 0, false, 1⟩) 15 = some (vec32 ([0x3F000000, 0x3E800000] ++ List.replicate 6 0x7F800000)) ∧
    vAfter [] [(13, vec32 [0x3F800000, 0xC0400000])] (.vexp2 ⟨13, 15, 0, false, 1⟩) 15 = some (vec32 ([0x40000000, 0x3E000000] ++ List.replicate 6 0x3F800000)) ∧
    vAfter [] [(13, vec32 [0x3F800000, 0x40400000]), (14, vec32 [3, 0xFFFFFFFF])] (.vscale ⟨14, 13, 15, 0, false, 1⟩) 15 =
      some (vec32 [0x41000000, 0x3FC00000]) ∧
    vAfter [] [(13, vec8 [0x38, 0x38, 0x38, 0x38]), (14, vec8 [0x38, 0x40, 0x38, 0x38]), (15, vec32 [0x3F800000])]
      (.vdot4 ⟨14, 13, 15, 0, false, 4⟩) 15 = some (vec32 [0x40C00000]) ∧
    vAfter [] [(13, vec16 [0x3F80, 0x4000]), (14, vec16 [0x3F80, 0x4000])] (.vdot2 ⟨14, 13, 15, 0, false, 2⟩) 15 = some (vec32 [0x40A00000]) := by decide

/-- The notes' stochastic rounding of element 0 with st[0] = 1: 0x3F80_0005 rounds up, 0x3F80_0004 stays, and the generator holds
0x0004_2021; conversions to integers saturate and of integers narrow. -/
theorem test_conversions :
    let st (s : State) : State := s.setCtx 0 { s.ctx 0 with st := (s.ctx 0).st.set 0 1 }
    let cv (m : Fin 8) : CvtArgs := ⟨.sr, 13, 15, m, false, 2, 1⟩
    after1 (st (startV [] [(13, vec32 [0x3F800005]), (5, 1)])) (.vcvtff (cv 1)) (fun t => (elem 16 (getV t 0 15) 0, (t.ctx 0).st[0])) = some (0x3F81, 0x00042021) ∧
    after1 (st (startV [] [(13, vec32 [0x3F800004]), (5, 1)])) (.vcvtff (cv 1)) (fun t => elem 16 (getV t 0 15) 0) = some 0x3F80 ∧
    vAfter [] [(13, vec32 [0x43960000, 0xC3960000, 0x40200000])] (.vcvtfi ⟨.rne, 13, 15, 0, false, 0, 1⟩) 15 = some (vec8 [0x7F, 0x80, 2]) ∧
    vAfter [] [(13, vec32 [0xFFFFFFFE, 3])] (.vcvtif ⟨.rne, 13, 15, 0, false, 1, 2⟩) 15 = some (vec32 [0xC0000000, 0x40400000]) ∧
    vAfter [] [(13, vec32 [0x12345, 0xFFFFFFFE])] (.vcvtii ⟨.sat, 13, 15, 0, false, 0, 2⟩) 15 = some (vec8 [0x7F, 0xFE]) ∧
    vAfter [] [(13, vec32 [0x12345, 0xFFFFFFFE])] (.vcvtii ⟨.rne, 13, 15, 0, false, 0, 2⟩) 15 = some (vec8 [0x45, 0xFE]) := by decide

/-- The notes' softmax steps and their sum of 2^24 and seven ones, by the tree and in order. -/
theorem test_reductions :
    let ones := vec32 (0x4B800000 :: List.replicate 7 0x3F800000)
    let x : VredArgs := ⟨13, 15, 0, 1, 1⟩
    vAfter [] [(13, ones)] (.vredadd x) 15 = some (vec32 [0x4B800003]) ∧
    after1 (startV [] [(13, ones)]) (.vscanadd x) (fun t => elem 32 (getV t 0 15) 7) = some 0x4B800000 ∧
    vAfter [] [(13, vec32 [0x40800000, 0x40400000, 0x40000000, 0x40800000, 0x3F800000])] (.vredmax x) 0 = some (vec32 [0x40800000]) ∧
    vAfter [] [(13, vec32 [3, 0xFFFFFFFF, 7]), (5, 5)] (.vredmin ⟨13, 15, 1, 0, 2⟩) 15 = some (vec32 [3]) := by decide

/-- R165, R167 to R170: moves of elements, masks, bitmap leaves, classes and seeds. -/
theorem test_element_moves :
    let v := [(13, vec32 [10, 20, 30, 40]), (5, 0xA), (14, vec32 [3, 2, 1, 0])]
    vAfter [(3, 0x1FF)] [] (.vbcast ⟨3, 15, 0, false, 0⟩) 15 = some (vec8 (List.replicate 32 0xFF)) ∧
    after1 (startV [(3, 2)] v) (.vget ⟨13, 3, 2⟩) (fun t => getG t 0 3) = some 30 ∧
    vAfter [(3, 99), (4, 1)] v (.vput ⟨3, 13, 2⟩) 13 = some (vec32 [10, 99, 30, 40]) ∧
    vAfter [] v (.vperm ⟨13, 14, 0, false, 2⟩) 14 = some (vec32 [40, 30, 20, 10, 10, 10, 10, 10]) ∧
    vAfter [] v (.vcompr ⟨13, 15, 1, 2⟩) 15 = some (vec32 [20, 40]) ∧ vAfter [] v (.vexpnd ⟨13, 15, 1, false, 2⟩) 15 = some (vec32 [0, 10, 0, 20]) ∧
    vAfter [] v (.vmov ⟨13, 14, 1, false, 2⟩) 14 = some (vec32 [3, 20, 1, 40]) ∧ vAfter [(3, 0x1FFFFFFFF)] v (.vmask 3 15) 15 = some 0xFFFFFFFF ∧
    after1 (startV [] v) (.vpopm ⟨5, 3, 2⟩) (fun t => getG t 0 3) = some 2 ∧ after1 (startV [] v) (.vfirst ⟨5, 3, 2⟩) (fun t => getG t 0 3) = some 1 ∧
    vAfter [] v (.viota ⟨5, 15, 0, false, 2⟩) 15 = some (vec32 [0, 0, 1, 1, 2, 2, 2, 2]) ∧
    after1 (startV [] [(13, vec16 [0x8000, 0, 0x3C00, 0x7E00])]) (.vbmenc ⟨13, 3, 0, 1, 3⟩) (fun t => getG t 0 3) = some 0xC ∧
    vAfter [(3, 0xA)] v (.vbmdec ⟨3, 13, 0, false, 0, 2⟩) 13 = some (vec32 [0, 10, 0, 20]) ∧
    after1 (startV [] v) (.vrndseed 14 0) (fun t => ((t.ctx 0).st[0], (t.ctx 0).st[3])) = some (3, 0x6D2B79F6) := by decide

/-! ### Memory -/

/-- R171, R173: loads extend, stores store low bytes, displacements count in units of the size, misaligned accesses fault. -/
theorem test_loads_and_stores :
    let s := withBytes (start [(3, 0x1008), (4, 0x1122334455667788)]) 0x1000 [0xF0, 0xF1, 0xF2, 0xF3, 0xF4, 0xF5, 0xF6, 0x77]
    let g (i : Instr) := after1 s i fun t => getG t 0 5
    let m (i : Instr) := after1 s i fun t => readLoc t 0x1000 8
    let x (d : BitVec 13) (r : GReg) : MemG := ⟨d, 3, r⟩
    g (.lb (x (-8) 5)) = some (-16) ∧ g (.lbn (x (-8) 5)) = some 0xF0 ∧ g (.lh (x (-4) 5)) = some (-3600) ∧ g (.lhn (x (-4) 5)) = some 0xF1F0 ∧
    g (.lw (x (-2) 5)) = some (-202182160) ∧ g (.lwn (x (-1) 5)) = some 0x77F6F5F4 ∧ g (.lx (x (-1) 5)) = some 0x77F6F5F4F3F2F1F0 ∧
    m (.sb (x (-8) 4)) = some 0x77F6F5F4F3F2F188 ∧ m (.sh (x (-4) 4)) = some 0x77F6F5F4F3F27788 ∧ m (.sw (x (-2) 4)) = some 0x77F6F5F455667788 ∧
    m (.sx (x (-1) 4)) = some 0x1122334455667788 ∧ faultOf (start [(3, 0x1001)]) (.lw (x 0 5)) = some (some .misaligned) ∧
    faultOf (start [(3, 0x20000)]) (.sb (x 0 5)) = some (some .protFault) ∧
    after1 (withBytes (start [(3, 0x1004)]) 0x1004 [0, 0, 0, 0x80]) (.lw16 ⟨3, 5⟩) (fun t => getG t 0 5) = some 0xFFFFFFFF80000000 ∧
    after1 (withBytes (start [(3, 0x1008)]) 0x1008 [1, 2]) (.lx16 ⟨3, 5⟩) (fun t => getG t 0 5) = some 0x201 ∧
    after1 (start [(3, 0x1008), (5, -1)]) (.sw16 ⟨3, 5⟩) (fun t => readLoc t 0x1008 8) = some 0xFFFFFFFF ∧
    after1 (start [(3, 0x1008), (5, -1)]) (.sx16 ⟨3, 5⟩) (fun t => readLoc t 0x1008 8) = some 0xFFFFFFFFFFFFFFFF := by decide

/-- R171, R172: vector loads and stores, at any byte address for VLDB, under a byte mask for VSTM; R176: descriptors. -/
theorem test_vector_memory :
    let s := withBytes (startV [(3, 0x1020), (4, 0x1003), (6, 0x7F10)] [(13, vec8 ((List.range 32).map fun i => i + 1)), (5, 0x80000001)]) 0x1000 [9, 8, 7, 6, 5]
    after1 s (.vld ⟨-1, 3, 14⟩) (fun t => getV t 0 14) = some (vec8 [9, 8, 7, 6, 5]) ∧ after1 s (.vldb ⟨0, 4, 14⟩) (fun t => getV t 0 0) = some (vec8 [6, 5]) ∧
    after1 s (.vst ⟨-1, 3, 13⟩) (fun t => readLoc t 0x1018 8) = some 0x201F1E1D1C1B1A19 ∧
    after1 s (.vstm ⟨1, -1, 3, 13⟩) (fun t => (readLoc t 0x1000 8, readLoc t 0x1018 8)) = some (0x0000000506070801, 0x2000000000000000) ∧
    after1 { s with descs := [(0x41, 0x850B)] } (.ldesc ⟨0, 7, 5⟩) (fun t => getG t 0 5) = some 0 ∧
    after1 (start [(3, 0x1040), (6, 0x7F10)]) (.sdesc ⟨0, 3, 6⟩) (fun t => descOf t 0x41) = some 0x7F10 ∧
    faultOf (start [(3, 0x1040), (6, 0x15)]) (.sdesc ⟨0, 3, 6⟩) = some (some .illegalOperand) ∧
    faultOf s (.vld ⟨0, 4, 14⟩) = some (some .misaligned) := by decide

/-- R40, R177: loads count slots from the tail, stores from the head, round the ring. -/
theorem test_handles :
    let h : Handle := { base := 0x1000, size := 64, count := 3, head := 1, tail := 2, fill := 2 }
    let s := withBytes (setHandle (startV [(6, 0x55AA)] [(13, vec8 [1, 2, 3]), (5, 6)]) 0 5 (some h)) 0x1080 [0x80, 0xFF, 0xFF, 0xFF, 0xFF, 0xFF, 0xFF, 0x7F]
    let x : HMemG := ⟨0, 0, 5, 7⟩
    let y : HMemG := ⟨0, 0, 5, 6⟩
    let g (i : Instr) := after1 s i fun t => getG t 0 7
    let m (i : Instr) := after1 s i fun t => readLoc t 0x1040 8
    g (.lbHandle x) = some (-128) ∧ g (.lbnHandle x) = some 0x80 ∧ g (.lhHandle x) = some (-128) ∧ g (.lhnHandle x) = some 0xFF80 ∧
    g (.lwHandle x) = some (-128) ∧ g (.lwnHandle x) = some 0xFFFFFF80 ∧ g (.lxHandle x) = some 0x7FFFFFFFFFFFFF80 ∧
    after1 s (.vldHandle ⟨0, 0, 5, 14⟩) (fun t => (getV t 0 14).toNat) = some 0x7FFFFFFFFFFFFF80 ∧
    after1 s (.vldbHandle ⟨0, 0, 5, 14⟩) (fun t => (getV t 0 14).toNat) = some 0x7FFFFFFFFFFFFF80 ∧
    m (.sbHandle y) = some 0xAA ∧ m (.shHandle y) = some 0x55AA ∧ m (.swHandle y) = some 0x55AA ∧ m (.sxHandle y) = some 0x55AA ∧
    m (.vstHandle ⟨0, 0, 5, 13⟩) = some 0x030201 ∧ m (.vstmHandle ⟨1, 0, 0, 5, 13⟩) = some 0x030200 ∧
    after1 s (.lbHandle ⟨0, 2, 5, 7⟩) (fun t => (t.ctx 0).wait) = some (some (.handle 5 false 3)) := by decide

/-- R203: CBWAIT, CBADV, CBPUSH on a ring of three slots with two filled; R202: CBINIT. -/
theorem test_ring_commands :
    let h : Handle := { base := 0x1000, size := 64, count := 3, head := 1, tail := 2, fill := 2 }
    let s := setHandle (start [(3, 2), (4, 0x30040), (5, 0x1000), (6, 1)]) 0 5 (some h)
    let at5 (i : Instr) := after1 s i fun t => getHandle t 0 5
    at5 (.cbadv 5 3) = some (some { h with tail := 1, fill := 0 }) ∧ at5 (.cbpush 5 6) = some (some { h with head := 2, fill := 3 }) ∧
    faultOf s (.cbpush 5 3) = some (some .illegalOperand) ∧ after1 s (.cbwait false 5 3 7) (fun t => getG t 0 7) = some 2 ∧
    after1 s (.cbwait true 5 6 7) (fun t => getG t 0 7) = some 1 ∧ after1 s (.cbwait true 5 3 7) (fun t => (t.ctx 0).wait) = some (some (.handle 5 true 2)) ∧
    at5 (.cbinit 5 4 5) = some (some { h with head := 0, tail := 0, fill := 0 }) ∧ at5 (.cbinit 5 0 5) = some none := by decide

/-- R181, R185: read-modify-writes return the old word, sign-extended, and the word and the tag move together. -/
theorem test_atomics :
    let m : AtMode := { size := .w, storage := .all, agent := .clu, order := .ar }
    let s := withBytes (start [(3, 0x1004), (4, 3), (5, 0xFFFFFFF0)]) 0x1004 [0xF0, 0xFF, 0xFF, 0xFF]
    let x : AtArgs := ⟨m, 4, 3, 7⟩
    let r (i : Instr) := after1 s i fun t => (getG t 0 7, readLoc t 0x1004 4)
    r (.swap x) = some (-16, 3) ∧ r (.fadd x) = some (-16, 0xFFFFFFF3) ∧ r (.fand x) = some (-16, 0) ∧ r (.atFor x) = some (-16, 0xFFFFFFF3) ∧
    r (.fxor x) = some (-16, 0xFFFFFFF3) ∧ r (.fmin x) = some (-16, 0xFFFFFFF0) ∧ r (.fmax x) = some (-16, 3) ∧ r (.fminn x) = some (-16, 3) ∧
    r (.fmaxn x) = some (-16, 0xFFFFFFF0) ∧ after1 s (.cas ⟨m, 4, 3, 5⟩) (fun t => (getG t 0 5, readLoc t 0x1004 4)) = some (-16, 3) ∧
    r (.cas x) = some (-16, 0xFFFFFFF0) ∧ after1 s (.ldo ⟨{ m with order := .acq }, 3, 7⟩) (fun t => getG t 0 7) = some (-16) ∧
    after1 s (.sto ⟨{ m with order := .rel }, 4, 3⟩) (fun t => readLoc t 0x1004 4) = some 3 ∧
    after1 (withBytes (start [(3, 0x1004), (4, 0x40000000)]) 0x1004 [0, 0, 0x80, 0x3F]) (.faddf x) (fun t => (getG t 0 7, readLoc t 0x1004 4)) =
      some (0x3F800000, 0x40400000) := by decide

/-- R185 to R187: TAKE of a full word, PUT of an empty one, TAKE of an empty one waits, and FILL lets it proceed. -/
theorem test_full_empty :
    let m : AtMode := { size := .w, storage := .all, agent := .clu, order := .ar }
    let s := withBytes (start [(3, 0x1004), (4, 3)]) 0x1004 [7]
    let full := { s with tags := [0x401] }
    let waiting := { s with feQueue := [{ kind := .take, loc := 0x1004, size := .w, value := 0, origin := .own 2 7 4, mode := plainMode, die := 0, clock := [], release := none }] }
    after1 full (.take ⟨m, 3, 7⟩) (fun t => (getG t 0 7, t.tags)) = some (7, []) ∧ after1 full (.peek ⟨m, 3, 7⟩) (fun t => (getG t 0 7, t.tags)) = some (7, [0x401]) ∧
    after1 s (.put ⟨m, 4, 3⟩) (fun t => (readLoc t 0x1004 4, t.tags)) = some (3, [0x401]) ∧ after1 s (.take ⟨m, 3, 7⟩) (fun t => (t.ctx 0).wait) = some (some .fullEmpty) ∧
    after1 full (.trytake ⟨m, 5, 3, 7⟩) (fun t => (getG t 0 7, getG t 0 5, t.tags)) = some (1, 7, []) ∧
    after1 s (.trytake ⟨m, 5, 3, 7⟩) (fun t => (getG t 0 7, getG t 0 5)) = some (0, 0) ∧
    after1 full (.tryput ⟨m, 4, 3, 7⟩) (fun t => (getG t 0 7, readLoc t 0x1004 4)) = some (0, 7) ∧
    after1 s (.fill ⟨m, 4, 3⟩) (fun t => (readLoc t 0x1004 4, t.tags)) = some (3, [0x401]) ∧ after1 full (.drain ⟨m, 3⟩) (fun t => t.tags) = some [] ∧
    after1 full (.festat ⟨m, 3, 7⟩) (fun t => getG t 0 7) = some 1 ∧
    after1 waiting (.fill ⟨m, 4, 3⟩) (fun t => (getG t 2 7, t.tags, t.feQueue.length)) = some (3, [], 0) := by decide

/-! ### Synchronisation and the system -/

/-- R190, R191, R193: an armed entry fires on a store to its word, and WAITW returns it and clears its bit. -/
theorem test_watch :
    let e : WatchEntry := { owner := 0, loc := 0x1004, addr := 0x1004, fired := false, stamp := 0 }
    let s0 := start [(3, 0x1004), (4, 3)]
    let s := { s0 with core := { s0.core with watch := s0.core.watch.set 2 (some e), watchClock := 1 } }
    let fired := { s0 with core := { s0.core with watch := s0.core.watch.set 2 (some { e with fired := true }) } }
    faultOf (start [(3, 0x1002)]) (.watch 3 7) = some (some .misaligned) ∧
    after1 s (.watch 3 7) (fun t => getG t 0 7) = some 2 ∧
    after1 s (.sw ⟨0, 3, 4⟩) (fun t => (t.core.watch[2]).map fun x => x.fired) = some (some true) ∧
    after1 fired (.waitw 0 7) (fun t => (getG t 0 7, (t.core.watch[2]).map fun x => x.fired)) = some (0x201, some false) ∧
    after1 s (.waitw 0 7) (fun t => (t.ctx 0).wait) = some (some (.watched false)) ∧ after1 s0 (.waitw 0 7) (fun t => getG t 0 7) = some 2 ∧
    after1 s (.unwatch false 3) (fun t => (t.core.watch[2]).isNone) = some true ∧ after1 s (.unwatch true 0) (fun t => (t.core.watch[2]).isNone) = some true := by
  decide

/-- R108, R109: reads and writes of control registers, a read-only one, and an address outside the map. -/
theorem test_csrs : gAfter [] (.csrrd 0x050 7) 7 = some 20 ∧ gAfter [] (.csrrd 0x200 7) 7 = some 0x3FF ∧ gAfter [] (.csrrd 0x009 7) 7 = some 0xFF00000000 ∧
    after1 (start [(3, 9)]) (.csrwr 0x051 3) (fun t => t.core.tolNarrow) = some 9 ∧ faultOf (start [(3, 32)]) (.csrwr 0x051 3) = some (some .illegalOperand) ∧
    faultOf (start []) (.csrwr 0x002 3) = some (some .protFault) ∧ faultOf (start []) (.csrrd 0x0FF 7) = some (some .illegalOperand) ∧
    after1 (start [(3, 0x1000)]) (.csrwr 0x040 3) (fun t => t.core.xringBase) = some 0x1000 := by decide

/-- R326 to R330, R141, R194: helpers, traps, yields and the end of a group. -/
theorem test_system :
    let helper := { (start [(3, 42)]).setCtx 2 { (start [(3, 42)]).ctx 0 with live := true } with core := { (start []).core with cur := 2 } }
    after1 (start [(3, 0x200), (4, 9)]) (.hstart 2 4 3) (fun t => ((t.ctx 2).live, (t.ctx 2).pc, getG t 2 1)) = some (true, 0x200, 9) ∧
    faultOf (start [(3, 0x200)]) (.hstart 0 4 3) = some (some .illegalOperand) ∧
    after1 helper (.hend 3) (fun t => ((t.ctx 2).live, (t.ctx 2).exitVal)) = some (false, 42) ∧ faultOf (start []) (.hend 3) = some (some .illegalOperand) ∧
    after1 helper (.csrrd 0x000 7) (fun t => getG t 2 7) = some 2 ∧ gAfter [] (.hjoin 2 7) 7 = some 0 ∧
    after1 (start [(3, 5)]) (.trap 0x2A5 3) (fun t => (t.ctx 0).packet.map fun p => (p.cls, p.info, p.status, p.pc)) = some (some (.swTrap, 0x2A5, 5, 0x100)) ∧
    faultOf (start []) (.brk 1) = some (some .brk) ∧ after1 (start []) .gend (fun t => (t.ctx 0).live) = some false ∧
    after1 (start [(3, 5)]) (.yieldx 3) (fun t => ((t.ctx 0).wait, (t.ctx 0).pc)) = some (some .cycles, 0x104) ∧ pcAfter (start []) .yield = some 0x102 ∧
    pcAfter (start []) (.phint 3) = some 0x104 ∧ pcAfter (start []) (.fence .sc .host .mod) = some 0x104 := by decide

/-! ### Engine commands and jobs -/

/-- R35, R37, R239: TZERO enters the queue, leaves its register pending, runs, zeroes its tile and writes its status word. -/
theorem test_tzero_job :
    let s := withBytes { start [(3, 9)] with core := { (start []).core with groupLive := true } } 0x20404 [1, 2, 3]
    let queued := after1 s (.tzero ⟨false, 1, 0, 3⟩) id
    let run (i : Instr) (o : Option State) : Option State := o.bind fun t => after1 t i id
    (queued.map fun t => (t.clu.jobs.length, isPending t 0 3)) = some (1, true) ∧
    (queued.bind fun t => after1 t (.mov ⟨3, 4⟩) fun u => (u.ctx 0).wait) = some (some (.pending 3)) ∧
    ((run (.jobCompletion 0 []) (run (.jobLaunch 0) queued)).map fun t => (getG t 0 3, readLoc t 0x20404 4, t.clu.jobs.length)) =
      some (0x8001000000000001, 0, 0) := by decide

/-- R63's decoding of a codebook index, worked in the notes: 0x5A0B with pattern word 0xFA_C688. -/
theorem test_codebook_index : (List.range 8).map (fun k => fround .e4m3 .rne 0 (scaledWeight 0x5A0B 0xFAC688 k 127)) =
    [0x30, 0xBC, 0x42, 0xC6, 0xC9, 0x4B, 0xCD, 0x4F] ∧ patternOf 0x5A0B = 5 := by decide

/-- VQUANT of a block of zeros of both signs writes scale 0x7F, code 0x10 and zeros (notes, R71). -/
theorem test_quantise_zeros :
    let s := withBytes (start [(3, 0x1000), (5, 0x2000)]) 0x1004 [0, 0, 0, 0x80]
    after1 s (.vquant ⟨.rne, 3, 5, 4, 1⟩) (fun t => (getG t 0 5, readLoc t 0x2000 8)) = some (0x7F10, 0) := by decide

/-! ### Inputs that meet the hypotheses of the claims

Each theorem names a claim and shows a concrete input for which all its hypotheses hold together; a claim with several clauses
has an input for each, at a boundary of its range where it has one. -/

/-- Memory of the control context's program: a word at 0x100. -/
def withCode (s : State) (w : Nat) : State := withBytes s 0x100 (leBytes 4 w)

/-- Two contexts live. -/
def two : State := (start []).setCtx 3 { Ctx.idle with live := true }

/-- DecodeReadsEncodedWords. -/
theorem meets_encoded_words : (Instr.bfi ⟨15, 0, 7⟩).wf = true ∧ 0 < (Instr.bfi ⟨15, 0, 7⟩).len := by decide

/-- DecodedBytesAreEncodings. -/
theorem meets_decoded_bytes : decode ([0xA1, 0x28, 0x3B, 0x00] ++ [7]) = .ok (.div ⟨7, 6, 5⟩, [7]) := by rfl

/-- StepRunsDecodedInstruction: between units, with `add g3, g3, g4` where the next form is fetched, and inside a unit. -/
theorem meets_step_decodes :
    let s := State.reset.withFetchWord 32 0x00219801
    let s' := turnTo { s with inputs := [] } 0
    let u := inUnit (withCode (start []) 0x00219801) false none
    let bs : List Byte := [0x01, 0x98, 0x21, 0x00]
    (powered s = true ∧ s.inputs = [none] ∧ (s.core.unit.isSome && coreRuns s) = false ∧
      select { s with inputs := [] } false = some 0) ∧
    (fetchForm s' (s'.ctx s'.cur).pc.toNat = .ok bs ∧ formFault (withInsn s' (leNat bs)) (leNat bs) = none) ∧
    (powered u = true ∧ u.core.unit.isSome = true ∧ coreRuns u = true ∧ fetchForm u (u.ctx u.cur).pc.toNat = .ok bs ∧
      formFault (withInsn u (leNat bs)) (leNat bs) = none) ∧
    decode bs = .ok (.add ⟨4, 3, 3⟩, []) :=
  ⟨by decide, ⟨rfl, by decide⟩, ⟨by decide, by decide, by decide, rfl, by decide⟩, rfl⟩

/-- StepRunsDecodedInstruction's second claim, a given event. -/
theorem meets_step_event :
    let s := { State.reset with inputs := [some .moduleReset] }
    powered s = true ∧ (s.core.unit.isSome && coreRuns s) = false ∧ s.inputs = [some .moduleReset] := by decide

/-- IssueSelection: to another context, and staying where no other is ready. -/
theorem meets_selector : select two true = some 3 ∧ select two false = some 0 ∧ select (start []) true = some 0 ∧ two.cur = 0 := by decide

/-- IssueSelection: a grammar command without its feature, a branch behind TRIPLE, and a word of class 14. -/
theorem meets_unusable_forms :
    let a := withCode (start []) 0x17
    let b := inUnit (withCode (start []) 0xFFE04345) true none
    let c := withCode (start []) 0x1D
    (fetchForm a 0x100 = .ok (leBytes 4 0x17) ∧ formFault (withInsn a 0x17) 0x17 = some .illegalInsn) ∧
    (fetchForm b 0x100 = .ok (leBytes 4 0xFFE04345) ∧ formFault (withInsn b 0xFFE04345) 0xFFE04345 = some .illegalPrefix) ∧
    (fetchForm c 0x100 = .ok (leBytes 4 0x1D) ∧ formFault (withInsn c 0x1D) 0x1D = none ∧ decode (leBytes 4 0x1D) = .error .reservedClass) :=
  ⟨⟨rfl, by decide⟩, ⟨rfl, by decide⟩, rfl, by decide, rfl⟩

/-- StepKeepsMemoryCanonical, StepKeepsTileSlotsLegal: reset, and a machine that takes a step. -/
theorem meets_memory_inv :
    let s := { withBytes State.reset 0x1000 [1, 0, 2] with inputs := [some (.hostPortLinkChange 0 false)] }
    MemoryInv State.reset ∧ MemoryInv s ∧ TilesInv s ∧ ∃ t, step s = .next t := by
  refine ⟨?_, ?_, ⟨?_, ?_, ?_⟩, _, rfl⟩
  · exact ⟨by decide, by decide, by simp [State.reset], by simp [State.reset, Module.reset]⟩
  · exact ⟨by decide, by decide, by simp [withBytes, State.reset], by simp [withBytes, State.reset, Module.reset]⟩
  · intro i x h
    have k : ∀ i : Fin 64, State.reset.core.tiles[i.val] = none := by decide
    cases h.symm.trans (k i)
  · simp [withBytes, State.reset]
  · simp [withBytes, State.reset, Module.reset]

/-- RegisterOperationResults, with BFX's longest field. -/
theorem meets_register_operations : Quiet (start [(4, 0x4000)]) ∧ RegsFree (start [(4, 0x4000)]) [3, 4] [5] ∧
    (getG (start [(4, 0x4000)]) 0 4).toNat / 2 ^ 8 % 128 ≤ 64 := by
  simp only [Quiet, RegsFree]; decide

/-- SelectInsertAndCountResults. -/
theorem meets_select_and_count : Quiet (inUnit (start [(4, 0x4000)]) true none) ∧ RegsFree (start [(4, 0x4000)]) [3, 4, 5] [] ∧
    RegsFree (start []) [3] [5] ∧ (getG (start [(4, 0x4000)]) 0 4).toNat / 2 ^ 8 % 128 ≤ 64 := by
  simp only [Quiet, RegsFree]; decide

/-- ImmediateAndShortResults: after WIDE with payload 0 and without; the short forms alone. -/
theorem meets_immediates :
    let s := inUnit (start [(3, 5)]) false (some 0)
    Quiet s ∧ RegsFree s [3] [5] ∧ (∀ p, widePayload s = some p → p = 0) ∧ Bare (start []) ∧ RegsFree (start []) [3] [5] ∧
    RegsFree (start []) [5, 3] [] ∧ RegsFree (start []) [5] [] ∧ RegsFree (start []) [] [5] := by
  refine ⟨?_, ?_, ?_, rfl, ?_, ?_, ?_, ?_⟩
  · simp only [Quiet]; decide
  · simp only [RegsFree]; decide
  · intro p h
    exact (Option.some.inj (h.symm.trans (rfl : widePayload (inUnit (start [(3, 5)]) false (some 0)) = some 0)))
  all_goals (simp only [RegsFree]; decide)

/-- OperandBreachesFault: a field of 65 bits, a payload before a shift, and the codes 1 and 3. -/
theorem meets_operand_breaches : RegsFree (start [(4, 0x4100)]) [3, 4, 5] [] ∧ 64 < (getG (start [(4, 0x4100)]) 0 4).toNat / 2 ^ 8 % 128 ∧
    widePayload (inUnit (start []) false (some 1)) = some 1 ∧ (1 : VCode).val = 1 ∧ (3 : VCode).val = 3 := by
  simp only [RegsFree]; decide

/-- BranchAndJumpResults: an even and an odd base. -/
theorem meets_branches : RegsFree (start [(3, 0x200), (4, 0x201)]) [3, 4] [] ∧ RegsFree (start []) [3] [] ∧
    RegsFree (start [(3, 0x200), (4, 0x201)]) [3] [15] ∧ RegsFree (start [(3, 0x200), (4, 0x201)]) [4] [15] ∧
    (getG (start [(3, 0x200), (4, 0x201)]) 0 3).getLsbD 0 = false ∧ (getG (start [(3, 0x200), (4, 0x201)]) 0 4).getLsbD 0 = true := by
  simp only [RegsFree]; and_intros <;> decide

/-- UnitsAndYields: each prefix first and second; YIELDX's limit. -/
theorem meets_units :
    let f (s : State) := s.core.unit.getD { start := (s.ctx s.cur).pc, triple := false, wide := none }
    (f (start [])).triple = false ∧ (f (start [])).wide = none ∧ (f (inUnit (start []) true (some 3))).triple = true ∧
    (f (inUnit (start []) true (some 3))).wide.isSome = true ∧ RegsFree (start [(4, 0xFFFFFFFF), (5, 0x100000000)]) [4] [] ∧
    (getG (start [(4, 0xFFFFFFFF), (5, 0x100000000)]) 0 4).toNat < 2 ^ 32 ∧
    2 ^ 32 ≤ (getG (start [(4, 0xFFFFFFFF), (5, 0x100000000)]) 0 5).toNat := by
  simp only [RegsFree]; decide

/-- RedundantExecutionsVote: two that agree, three that differ, and an instruction that all three would complete. -/
theorem meets_vote :
    let s := { inUnit (start [(3, 1)]) true none with upsets := [1, 2, 4] }
    let a : Word := 5 ^^^ ((State.upsets { s with upsets := [0, 1, 0] }).getD 0 0).setWidth 64
    let d : Word := 5 ^^^ ((State.upsets { s with upsets := [0, 1, 0] }).getD 2 0).setWidth 64
    let hit (k : Nat) : Word := (s.upsets.getD k 0).setWidth 64
    tripled s = true ∧ a = d ∧ isAlu (.add ⟨4, 3, 5⟩) = true ∧ s.core.unit = some { start := 0xFE, triple := true, wide := none } ∧
    hit 0 ≠ hit 1 ∧ hit 0 ≠ hit 2 ∧ hit 1 ≠ hit 2 ∧
    after1 { s with upsets := [] } (.add ⟨4, 3, 5⟩) (fun t => ((t.ctx s.cur).stopped, (t.ctx s.cur).wait)) = some (false, none) := by
  decide

/-- FloatArithmeticAndRounding: f32 one and its half; a value between two patterns of e4m3. -/
theorem meets_rounding : (fval .f32 0x3F800000).isFin = true ∧ (fval .f32 0x3F000000).isFin = true ∧ 0x3F800000 < 2 ^ FFmt.f32.width ∧
    (fval .e4m3 0x38).isFin = true ∧ 0x38 < 2 ^ FFmt.e4m3.width ∧ (fval .e4m3 (rne .e4m3 (fval .f32 0x3F880000))).isFin = true ∧
    (fval .f32 0x3F880000).isFin = true := by decide

/-- IntegerLaneResults, FloatingLaneResults: any sources, with and without a mask, at the widest integer type. -/
theorem meets_lanes : LanesReady (startV [] [(13, 7)]) [13, 14] 15 1 ∧ LanesReady (startV [] [(13, 7)]) [13, 14, 15] 15 0 ∧
    LanesReady (startV [] [(13, 7)]) [13] 15 7 ∧ (3 : Fin 8).val < 4 ∧ dualTy 3 = .int 64 true ∧ dualTy 7 = .flt .f64 := by
  simp only [LanesReady, Quiet, VecsSound]; and_intros <;> decide

/-- DivisionAndRootRoundCorrectly: 3 by 2 in f32, and 1.5. -/
theorem meets_division : (fval .f32 0x40400000).isFin = true ∧ (fval .f32 0x40000000).isFin = true ∧
    (fval .f32 0x40400000).toRat ≠ 0 ∧ (fval .f32 0x40000000).toRat ≠ 0 ∧ signOf .f32 0x40400000 = false ∧
    (∃ (n : Int) (k : Int), (3 / 2 : ℚ) = n * 2 ^ k ∧ n.natAbs < 2 ^ (FFmt.f32.frac + 2)) ∧ (0 : ℚ) ≤ 3 / 2 := by
  have h1 : fval .f32 0x40400000 = .fin false 12582912 (-22) := by rfl
  have h2 : fval .f32 0x40000000 = .fin false 8388608 (-22) := by rfl
  refine ⟨by decide, by decide, ?_, ?_, by decide, ⟨3, -1, by norm_num, by decide⟩, by norm_num⟩
  · rw [h1]; norm_num [FVal.toRat]
  · rw [h2]; norm_num [FVal.toRat]

/-- CompareAndSelectResults, ShortLaneAndConversionResults. -/
theorem meets_compares :
    let x : SvArgs := ⟨7, 7, 2⟩
    LanesReady (start []) [13, 14] 15 7 ∧ LanesReady (start []) [13, 14] 15 0 ∧ VecsSound (start []) (maskCode 7) ∧
    LanesReady (start []) [svDst x, svSrc x] (svDst x) 0 ∧ Bare (start []) ∧ LanesReady (start []) [svSrc x] (svDst x) 0 ∧
    VecsSound (start []) [svDst x, 0] ∧ VecsSound (start []) [svDst x] ∧ LanesReady (start []) [13] 15 3 := by
  simp only [LanesReady, Quiet, VecsSound, Bare]; and_intros <;> decide

/-- ElementMoveResults: the last index inside and the first outside. -/
theorem meets_element_moves :
    let s := start [(3, 7), (4, 7), (5, 8)]
    LanesReady s [] 15 1 ∧ RegsFree s [3] [] ∧ RegsFree s [4] [3] ∧ RegsFree s [] [3] ∧ VecsSound s [13] ∧
    (getG s 0 3).toNat < 256 / widthOf 2 ∧ 256 / widthOf 2 ≤ (getG s 0 5).toNat ∧ RegsFree s [3, pairReg 3] [] ∧
    (getG s 0 (pairReg 3)).toNat < 256 / widthOf 2 ∧ 256 / widthOf 2 ≤ (getG s 0 (pairReg 4)).toNat ∧ LanesReady s [13] 15 1 ∧
    VecsSound s [15] ∧ VecsSound s (maskCode 1) ∧ LanesReady s [] 15 0 := by
  simp only [LanesReady, Quiet, VecsSound, RegsFree]; and_intros <;> decide

/-- ReductionAndMaskResults: a mask word with bits set, and with none. -/
theorem meets_reductions :
    let s := startV [] [(13, 0x90)]
    LanesReady s [13] 15 0 ∧ VecsSound s (maskCode 1) ∧ Quiet s ∧ RegsFree s [] [3] ∧ VecsSound s [13] ∧ VecsSound s ([13] ++ maskCode 2) ∧
    LanesReady s [15] 15 1 ∧ RegsFree s [3] [] ∧ (getV s 0 13).getLsbD 4 = true ∧ (∀ k : Nat, k < 4 → (getV s 0 13).getLsbD k = false) ∧
    ∀ e, e < 8 → (getV s 0 14).getLsbD e = false := by
  simp only [LanesReady, Quiet, VecsSound, RegsFree]; and_intros <;> decide

/-- VectorResultsArePushed: a named destination and code 0. -/
theorem meets_pushes : goodDest 4 = true ∧ goodDest 0 = true := by decide

/-- The invariant of memory where nothing is saved. -/
theorem memoryInv_of {t : State} (h1 : Memory.wf t.mem = true) (h2 : t.descs = []) (h3 : t.saved = []) (h4 : t.mod.image = none) :
    MemoryInv t :=
  ⟨h1, by rw [h2]; rfl, by simp [h3], by simp [h4]⟩

/-- A read of one run outside the accumulator and border windows may go on when its checks pass, and reads the newest write where no
older value is left to read. -/
theorem loadReady_of {s : State} {a n align loc m : Nat} (h1 : a % align = 0) (h2 : checkRead s a n = .ok [(loc, m)])
    (h3 : s.core.twin = none) (h4 : (runLocs [(loc, m)]).any (earlyByte s) = false) (h5 : s.vis = .settled 0) :
    LoadReady s a n align [(loc, m)] :=
  ⟨⟨h1, h2, .inl h3, h4⟩, fun l _ => by simp [oldFor, Visibility.headsAt, Visibility.settled, h5]⟩

/-- The top of the scratchpad and addresses in g3. -/
def top : State := startV [(3, 0x1FFF8), (4, 0x1FFE0), (5, 0x1FFFF)] [(13, 7), (5, 0x80000000)]

/-- LoadAndStoreResults: aligned scalars of each size at the top, the short forms, and 32 bytes. -/
theorem meets_loads : RegsFree top [3] [7] ∧ Quiet top ∧ RegsFree top [4] [] ∧ goodDest 15 = true ∧
    LoadReady top 0x1FFFF 1 1 [(0x1FFFF, 1)] ∧ LoadReady top 0x1FFF8 2 2 [(0x1FFF8, 2)] ∧
    LoadReady top 0x1FFF8 4 4 [(0x1FFF8, 4)] ∧ LoadReady top 0x1FFF8 8 8 [(0x1FFF8, 8)] ∧
    LoadReady top 0x1FFE0 32 32 [(0x1FFE0, 32)] ∧ LoadReady top 0x1FFDF 32 1 [(0x1FFDF, 32)] ∧
    (getG top 0 3 + BitVec.ofInt 64 (0 * 8)).toNat = 0x1FFF8 ∧ (getG top 0 4 + BitVec.ofInt 64 (0 * 32)).toNat = 0x1FFE0 := by
  refine ⟨?_, ?_, ?_, rfl, ?_, ?_, ?_, ?_, ?_, ?_, rfl, rfl⟩
  · simp only [RegsFree]; decide
  · simp only [Quiet]; decide
  · simp only [RegsFree]; decide
  all_goals exact loadReady_of rfl rfl rfl rfl rfl

/-- A release by context 5, its number 2. -/
def aRelease : Release := { stamp := 2, owner := .ctx 5, reach := .core, storage := .all }

/-- The top of the scratchpad with a byte that contexts 0 and 3 may still read as 9; context 5's write there happens before its release,
which stands elsewhere and which context 0 has read, or not. -/
def older (told : Bool) : State :=
  let u : Unseen := { stamp := 1, unit := 0x3FFF, loc := 0x1FFF8, old := 9, heads := [], owner := .ctx 5, readers := [.ctx 0, .ctx 3],
                      firm := [.ctx 5], ended := [], carried := [2] }
  { top with vis := { unseen := [u], heads := if told then [(0x1FF00, aRelease)] else [],
                      met := if told then [(.ctx 0, 0x1FF00, aRelease)] else [], fences := [], count := 2 } }

/-- OlderValuesMayBeLoaded: aligned scalars of each size that hold such a byte. -/
theorem meets_older_values : RegsFree (older false) [3] [7] ∧ oldFor (older false) 0 0x1FFF8 = some 9 ∧
    ReadReady (older false) 0x1FFF8 1 1 [(0x1FFF8, 1)] ∧ ReadReady (older false) 0x1FFF8 2 2 [(0x1FFF8, 2)] ∧
    ReadReady (older false) 0x1FFF8 4 4 [(0x1FFF8, 4)] ∧ ReadReady (older false) 0x1FFF8 8 8 [(0x1FFF8, 8)] := by
  refine ⟨?_, by decide, ⟨rfl, rfl, .inl rfl, rfl⟩, ⟨rfl, rfl, .inl rfl, rfl⟩, ⟨rfl, rfl, .inl rfl, rfl⟩, ⟨rfl, rfl, .inl rfl, rfl⟩⟩
  simp only [RegsFree]; decide

/-- A ring of two slots that reaches the top of the scratchpad, with one slot filled. -/
def topRing : Handle := { base := 0x1FFC0, size := 32, count := 2, head := 0, tail := 1, fill := 1 }

/-- The state with that ring in h5. -/
def ringed : State := setHandle top 0 5 (some topRing)

/-- LoadAndStoreResults in handle mode: with slots enough, and a load that must sleep. -/
theorem meets_handle_accesses : RegsFree ringed [] [7] ∧ RegsFree ringed [7] [] ∧ goodDest 15 = true ∧ Quiet ringed ∧
    (HandleReady ringed 5 0 1 8 false topRing ∧ LoadReady ringed 0x1FFE0 8 8 [(0x1FFE0, 8)]) ∧
    (HandleReady ringed 5 0 1 32 false topRing ∧ LoadReady ringed 0x1FFE0 32 32 [(0x1FFE0, 32)]) ∧
    (HandleReady ringed 5 0 1 1 true topRing ∧ StoreReady ringed 0x1FFC0 1 1 [(0x1FFC0, 1)]) ∧
    (HandleReady ringed 5 0 1 2 true topRing ∧ StoreReady ringed 0x1FFC0 2 2 [(0x1FFC0, 2)]) ∧
    (HandleReady ringed 5 0 1 4 true topRing ∧ StoreReady ringed 0x1FFC0 4 4 [(0x1FFC0, 4)]) ∧
    (HandleReady ringed 5 0 1 8 true topRing ∧ StoreReady ringed 0x1FFC0 8 8 [(0x1FFC0, 8)]) ∧
    (HandleReady ringed 5 0 1 32 true topRing ∧ StoreReady ringed 0x1FFC0 32 32 [(0x1FFC0, 32)]) ∧
    (getHandle ringed ringed.cur 5 = some topRing ∧ 0 % 32 + 8 ≤ 32 ∧ 2 ≤ topRing.count ∧ 0 + 8 ≤ 2 * topRing.size ∧ topRing.fill < 2) := by
  have hl {n align : Nat} {loc m : Nat} (h1 : loc % align = 0) (h2 : checkRead ringed loc n = .ok [(loc, m)])
      (h4 : (runLocs [(loc, m)]).any (earlyByte ringed) = false) :
      LoadReady ringed loc n align [(loc, m)] := loadReady_of h1 h2 rfl h4 rfl
  refine ⟨?_, ?_, rfl, ?_, ⟨?_, hl rfl rfl rfl⟩, ⟨?_, hl rfl rfl rfl⟩, ⟨?_, rfl, rfl, .inl rfl⟩, ⟨?_, rfl, rfl, .inl rfl⟩, ⟨?_, rfl, rfl, .inl rfl⟩,
    ⟨?_, rfl, rfl, .inl rfl⟩, ⟨?_, rfl, rfl, .inl rfl⟩, ?_⟩ <;> (try simp only [RegsFree, Quiet, HandleReady]) <;> decide

/-- LoadAndStoreResults: aligned stores at the top, a mask with bits and one without. -/
theorem meets_stores : RegsFree top [3, 7] [] ∧ RegsFree top [4] [] ∧ VecsSound top [13] ∧ StoreReady top 0x1FFFF 1 1 [(0x1FFFF, 1)] ∧
    StoreReady top 0x1FFF8 2 2 [(0x1FFF8, 2)] ∧ StoreReady top 0x1FFF8 4 4 [(0x1FFF8, 4)] ∧ StoreReady top 0x1FFF8 8 8 [(0x1FFF8, 8)] ∧
    StoreReady top 0x1FFE0 32 32 [(0x1FFE0, 32)] ∧ VecsSound top ([13] ++ maskCode 1) ∧ VecsSound top ([13] ++ maskCode 2) ∧
    maskBit top 0 1 31 = true ∧ ∀ j, j < 32 → maskBit top 0 2 j = false := by
  refine ⟨?_, ?_, ?_, ⟨rfl, rfl, .inl rfl⟩, ⟨rfl, rfl, .inl rfl⟩, ⟨rfl, rfl, .inl rfl⟩, ⟨rfl, rfl, .inl rfl⟩, ⟨rfl, rfl, .inl rfl⟩, ?_, ?_, ?_, ?_⟩ <;>
    (try simp only [RegsFree, VecsSound]) <;> decide

/-- StoredBytesReadBack: a store with a watch armed on the word. -/
theorem meets_stored_bytes :
    let e : WatchEntry := { owner := 0, loc := 0x1FFFC, addr := 0x1FFFC, fired := false, stamp := 0 }
    let s := { top with core := { top.core with watch := top.core.watch.set 7 (some e) } }
    MemoryInv s ∧ ([1] : List Byte) ≠ [] ∧ 0x1FFFF + 1 ≤ boltLoc 0 ∧ boltLoc 64 ≤ boltLoc 64 ∧ s.core.watch[7] = some e ∧
    0x1FFFF < e.loc + 4 ∧ e.loc < 0x1FFFF + 1 := by
  exact ⟨memoryInv_of rfl rfl rfl rfl, by decide, by decide, by decide, rfl, by decide, by decide⟩

/-- StoresLeaveOlderValues: another live context that has nothing older to read at a byte that changes, and one that has. -/
theorem meets_older_values_left :
    ((two.ctx 3).live = true ∧ (3 : Fin 8) ≠ two.cur ∧ ([1] : List Byte)[0]? = some 1 ∧ oldFor two 3 (0x1FFF8 + 0) = none ∧
      1 ≠ Memory.get two.mem (0x1FFF8 + 0)) ∧
    (3 ≠ (older false).cur ∧ oldFor (older false) 3 (0x1FFF8 + 0) = some 9) := by decide

/-- A job with a table of pages: everything from 0x1000_0000_0000 on is one page of 1 GiB at 0, writable. -/
def paged : State :=
  let l : Launch := { id := 1, queue := 0x100000, job := 9, seq := 1, entry := 0x100000000000, groups := 1, arg := 0, live := 0, startTick := none,
                      compl := 0, policy := 2, block := 1, paired := false, domain := [0], n := 1, image := 0, imageLen := 0,
                      gang := [], accepted := [], granted := true, started := true, ended := false, result := none }
  let j : JobEntry := { id := 9, ptRoot := 0x4000, key := [], cellar := 0, cellarLen := 0, retired := false, weight := 1, deficit := 0 }
  let e : TlbEntry := { job := 9, page := 0x10000000, base := 0x100000, w := true, pk := false, pr := false, host := false }
  let h : TlbEntry := { job := 9, page := 0x80000000, base := 0x200000, w := true, pk := false, pr := false, host := true }
  let s := start [(3, 0x100000000040), (4, 0x1FFFFFFFFFF8), (5, 0x800000000008), (6, 0x850B), (8, 0x20040)]
  { s with core := { s.core with launch := some 1, groupLive := true }, mod := { s.mod with launches := [l], jobs := [j], tlb := [e, h] } }

/-- A launch of two cores. -/
def beside : State := { paged with mod := { paged.mod with launches := paged.mod.launches.map fun l => { l with n := 2, groups := 2, domain := [0, 0x1000] } } }

/-- AddressChecksAndFaults: the last word of a peer that is sealed. -/
theorem meets_sealed_peer :
    let s := { beside with core := { beside.core with sealedPeers := [1] } }
    checkRange s 0x1000003FFFC 4 true = .ok .gwin ∧ sealedPeer s 0x1000003FFFC = some 1 ∧ placeOf s 1 = some 0x1000 ∧
    checkRuns s [(directLoc s .gwin 0x1000003FFFC, 4)] 0x1000003FFFC = .ok () ∧
    touchesPoisonedTile s (directLoc s .gwin 0x1000003FFFC) 4 = false := by
  exact ⟨rfl, by decide, by decide, rfl, by decide⟩

/-- AddressChecksAndFaults: the last bytes of the scratchpad, a crossing of its end, holes, windows, an unmapped page; and the
faults of MemG accesses. -/
theorem meets_address_checks :
    (0x1FFFF + 1 ≤ 0x20000 ∧ checkRuns (start []) [(0x1FFFF, 1)] 0x1FFFF = .ok () ∧ touchesPoisonedTile (start []) 0x1FFFF 1 = false) ∧
    (0x1FFFF < 0x20000 ∧ 0x20000 < 0x1FFFF + 2) ∧ regionOf 0x21200 = .hole ∧ regionOf 0x10000000 = .debug ∧ regionOf 0x20FFF = .acc ∧
    regionOf 0x211FF = .border ∧ regionOf 0xFF00017FFF = .harvest ∧
    (regionOf 0x1FFFFFFFFFFF = .hbm ∧ 0x1FFFFFFFFFFF + 1 ≤ 0x200000000000 ∧ translation (start []) 0x1FFFFFFFFFFF = none) ∧
    RegsFree (start [(3, 0x1001)]) [3, 7] [] ∧ (getG (start [(3, 0x1001)]) 0 3 + BitVec.ofInt 64 (0 * 2)).toNat % 2 ≠ 0 ∧
    checkRead (start []) 0x20000 8 = .ok [(0x20000, 8)] ∧
    checkWrite (start []) 0x20000 8 = .error { cls := .protFault, addr := 0x20000 } ∧
    checkRead (start []) 0x21200 8 = .error { cls := .protFault, addr := 0x21200 } := by
  refine ⟨⟨by decide, rfl, by decide⟩, by decide, by decide, by decide, by decide, by decide, by decide, by decide, ?_, by decide, rfl, rfl, rfl⟩
  simp only [RegsFree]; decide

/-- DescriptorAndCodecResults: descriptors of scratchpad and device memory, read and written, of the other windows, and refused ones. -/
theorem meets_descriptors :
    (RegsFree paged [3, 7] [] ∧ RegsFree paged [8, 7] [] ∧ Unpaired paged 0x100000000040 ∧ 0x100000000040 % 64 = 0 ∧
      sealedPeer paged 0x100000000040 = none) ∧
    (checkRange paged 0x100000000040 64 false = .ok .hbm ∧ locate paged .hbm 0x100000000040 64 false = .ok [(0x100000100040, 64)] ∧
      locate paged .hbm 0x100000000040 64 true = .ok [(0x100000100040, 64)] ∧ paged.badParity.contains (0x100000100040 / 64) = false) ∧
    (regionOf 0x20040 = .acc ∧ checkRange paged 0x20040 64 false = .ok .acc ∧ 0x20040 + 64 ≤ regionEnd .acc) ∧
    (regionOf 0xFF00000000 = .harvest ∧ checkRange paged 0xFF00000000 64 false = .ok .harvest) ∧
    (regionOf 0x800000000000 = .host ∧ checkRange paged 0x800000000000 64 false = .ok .host ∧
      locate paged .host 0x800000000000 64 false = .ok [(hostLoc + 0x200000, 64)]) ∧
    ((getG paged 0 6).toNat < 2 ^ 16 ∧ fmtAssigned ((getG paged 0 6).toNat % 256) = true) ∧
    (fmtAssigned (0x15 % 256) = false ∧ 2 ^ 16 ≤ 0x10000) := by
  refine ⟨⟨?_, ?_, .inl rfl, by decide, by decide⟩, ⟨rfl, rfl, rfl, by decide⟩, ⟨by decide, rfl, by decide⟩, ⟨by decide, rfl⟩, ⟨by decide, rfl, rfl⟩, by decide,
    by decide⟩ <;> (try simp only [RegsFree]) <;> decide

/-- DescriptorAndCodecResults: a block to quantise at the top of the scratchpad, a scaled block and a codebook block to decode. -/
theorem meets_codecs :
    let s := { start [(3, 0x1FF00), (5, 0x1FFC0), (6, 0x1FFC0), (7, 0x1FE00)] with descs := [(0x7FF, 0x7F10)] }
    let c := { start [(6, 0x1FFC0), (7, 0x1FE00)] with descs := [(0x7FF, 0x7F13)] }
    (Quiet s ∧ RegsFree s [3, 5] [] ∧ 0x1FF00 % 64 = 0 ∧ 0x1FFC0 % 64 = 0 ∧ 0x1FF00 + 64 * FFmt.f16.width / 8 ≤ 0x20000 ∧ 0x1FFC0 + 64 ≤ 0x20000 ∧
      checkOwn s [(0x1FF00, 64 * FFmt.f16.width / 8)] = .ok ()) ∧
    (LanesReady s [] 15 1 ∧ RegsFree s [6] [] ∧ fmtTy (fmtOf s 0x7FF) = .flt .e4m3 ∧ isScaled (fmtOf s 0x7FF) = true ∧
      0x1FFC0 + 8 * FFmt.e4m3.width / 8 ≤ 0x20000 ∧ 0x1FFC0 % 64 % (8 * FFmt.e4m3.width / 8) = 0 ∧ checkOwn s [(0x1FFC0, 64)] = .ok ()) ∧
    (LanesReady c [] 15 1 ∧ RegsFree c [6, pairReg 6] [] ∧ 0x1FFC0 % 64 % (2 * (8 / 8)) = 0 ∧ 0x1FE00 % 4 = 0 ∧ 0x1FE00 + 512 ≤ 0x20000 ∧
      fmtOf c 0x7FF = 0x13 ∧ checkOwn c [(0x1FFC0, 2), (0x1FE00, 512)] = .ok () ∧ ∀ i : Fin 1, readLoc c (0x1FE00 + 4 * patternOf (readLoc c (0x1FFC0 + 2 * i) 2)) 4 < 2 ^ 24) := by
  simp only [Quiet, RegsFree, LanesReady, VecsSound]
  refine ⟨⟨by decide, by decide, by decide, by decide, by decide, by decide, rfl⟩,
    ⟨by decide, by decide, by decide, by decide, by decide, by decide, rfl⟩,
    ⟨by decide, by decide, by decide, by decide, by decide, by decide, rfl, by decide⟩⟩

/-! ### Atomic and full/empty accesses -/

/-- A word of the scratchpad in g3, a word of the host window in g5. -/
def words : State := { paged with tags := [0x401] }

/-- A mode of an atomic instruction. -/
def plain (z : AtSize) : AtMode := { size := z, storage := .all, agent := .clu, order := .ar }

/-- AtomicAccessResults: a ready word, data from gb and from WIDE, and a word of the host window before and
after its completion. -/
theorem meets_atomics :
    let s := start [(3, 0x1FFFC), (4, 5)]
    let w := inUnit s false (some 3)
    let c := paged.setCtx 0 { paged.ctx 0 with expired := true }
    RegsFree s [3, 4] [7] ∧ AtomicReady s 0x1FFFC 4 [(0x1FFFC, 4)] ∧ AtomicData s 4 4 5 ∧ AtomicData w 0 4 3 ∧ RegName.g 7 ∉ (s.ctx 0).poisoned ∧
    RegsFree s [3] [7] ∧ regionOf 0x1FFFC ≠ .host ∧ LoadReady s 0x1FFFC 4 4 [(0x1FFFC, 4)] ∧ StoreReady s 0x1FFFC 4 4 [(0x1FFFC, 4)] ∧
    (RegsFree paged [5, 4] [7] ∧ widePayload paged = none ∧ 0x800000000008 % 8 = 0 ∧ regionOf 0x800000000008 = .host ∧
      checkAtomic paged 0x800000000008 8 = .ok [(hostLoc + 0x200008, 8)] ∧ paged.core.twin = none ∧ (paged.ctx 0).expired = false ∧
      LoadReady paged 0x800000000008 8 8 [(hostLoc + 0x200008, 8)]) ∧
    (c.ctx 0).expired = true ∧ checkAtomic c 0x800000000008 8 = .ok [(hostLoc + 0x200008, 8)] := by
  refine ⟨?_, ⟨rfl, by decide, rfl, .inl rfl⟩, rfl, ⟨rfl, rfl⟩, by decide, ?_, by decide, loadReady_of rfl rfl rfl rfl rfl, ⟨rfl, rfl, .inl rfl⟩,
    ⟨?_, rfl, rfl, by decide, rfl, rfl, rfl, loadReady_of rfl rfl rfl rfl rfl⟩, rfl, rfl⟩ <;> (try simp only [RegsFree]) <;> decide

/-- AtomicAccessResults: a release that has nothing to wait for, one that has, and an acquire of a word with an older value. -/
theorem meets_releases :
    let u := { older false with unacked := true }
    Acked (older false) (plain .w) 0x1FFF8 ∧ ¬ Acked u (plain .w) 0x1FFF8 ∧ Acked u { plain .w with order := .acq } 0x1FFF8 ∧
    ReadReady u 0x1FFF8 8 8 [(0x1FFF8, 8)] :=
  ⟨fun _ _ => rfl, fun h => absurd (h rfl rfl) (by decide), fun h => absurd h (by decide), rfl, rfl, .inl rfl, rfl⟩

/-- AcquiresAndReleasesOrder: an acquire that reads a release in its scopes, with nothing older to read of its own location; another context;
a release that others may not see; a release met before a fence, and a write that the fence's context has seen. -/
theorem meets_orders :
    let s := older true
    let t := { s with vis := { s.vis with unseen := s.vis.unseen.map fun u => { u with readers := [.ctx 3] } } }
    (Order.acquires (orderAt (plain .w) 0x1FF00) = true ∧ aRelease ∈ s.vis.headsAt (0x1FF00 + 0) ∧
      scopeRank aRelease.reach ≤ scopeRank (plain .w).agent ∧ oldFor s s.cur (0x1FF00 + 0) = none ∧ (3 : Fin 8) ≠ s.cur) ∧
    (Order.releases (orderAt (plain .w) 0x1FF00) = true ∧ otherAgents two (.ctx two.cur) ≠ []) ∧
    (AgentScope.clu ≠ .ctx ∧ (Agent.ctx s.cur, 0x1FF00, aRelease) ∈ s.vis.met ∧ inStorage .spad 0x1FF00 = true ∧
      scopeRank aRelease.reach ≤ scopeRank .clu) ∧
    (∃ u ∈ (fenced t .rel .spad .clu).vis.unseen, u.behind (.ctx t.cur) .spad = true) ∧ (fenced s .sc .hbm .clu).vis.unseen.length = 1 := by
  decide

/-- FullEmptyResults: a full pair and an empty one, and data from WIDE; FullEmptyRequestsWait: an empty word, and a waiting TAKE. -/
theorem meets_full_empty :
    let s := start [(3, 0x1FFF8), (4, 5)]
    let f := { s with tags := [0x7FFE, 0x7FFF] }
    let w := inUnit f false (some 3)
    let q := { start [(3, 0x1FFF8)] with feQueue := [{ kind := .take, loc := 0x1FFF8, size := .w, value := 0, origin := .own 2 7 4, mode := plain .w, die := 0, clock := [], release := none }] }
    (MemoryInv f ∧ RegsFree f [3, 4] [7] ∧ AtomicReady f 0x1FFF8 8 [(0x1FFF8, 8)] ∧ checkRead f 0x1FFF8 8 = .ok [(0x1FFF8, 8)] ∧
      (∀ w ∈ [0x7FFE, 0x7FFF], w ∈ f.tags) ∧ (f.ctx 0).wait = none ∧ f.feQueue = [] ∧ Acked f (plain .x) 0x1FFF8 ∧ AtomicData f 4 8 5) ∧
    (RegsFree w [3, 0] [7] ∧ AtomicReady w 0x1FFF8 8 [(0x1FFF8, 8)] ∧ AtomicData w 0 8 3) ∧
    (AtomicReady s 0x1FFF8 8 [(0x1FFF8, 8)] ∧ checkRead s 0x1FFF8 8 = .ok [(0x1FFF8, 8)] ∧ ∀ w ∈ [0x7FFE, 0x7FFF], w ∉ s.tags) ∧
    (Bare s ∧ RegsFree s [3] [7] ∧ AtomicReady s 0x1FFF8 4 [(0x1FFF8, 4)] ∧ 0x7FFE ∉ s.tags ∧ queuedAtHome s 0x1FFF8 < 64) ∧
    (Bare q ∧ MemoryInv q ∧ RegsFree q [3, 4] [] ∧ AtomicReady q 0x1FFF8 4 [(0x1FFF8, 4)] ∧ (2 : Fin 8) ≠ q.cur ∧
      checkRun q 0x1FFF8 0x1FFF8 4 = .ok () ∧ Acked q (plain .w) 0x1FFF8) := by
  refine ⟨⟨memoryInv_of rfl rfl rfl rfl, ?_, ⟨rfl, by decide, rfl, .inl rfl⟩, rfl, by decide, rfl, rfl, fun _ _ => rfl, rfl⟩,
    ⟨?_, ⟨rfl, by decide, rfl, .inl rfl⟩, rfl, rfl⟩, ⟨⟨rfl, by decide, rfl, .inl rfl⟩, rfl, by decide⟩,
    ⟨rfl, ?_, ⟨rfl, by decide, rfl, .inl rfl⟩, by decide, by decide⟩,
    ⟨rfl, memoryInv_of rfl rfl rfl rfl, ?_, ⟨rfl, by decide, rfl, .inl rfl⟩, by decide, rfl, fun _ _ => rfl⟩⟩ <;>
      (try simp only [RegsFree]) <;> decide

/-- RemoteRequestsArrive: a request that comes in its turn and one that comes too soon; at a full word, at an empty one, at a poisoned
tag and a poisoned word; of a retired job; at a sealed core. -/
theorem meets_remote_requests :
    let s := start []
    let f := { s with tags := [0x7FFE, 0x7FFF] }
    let r : RemoteFe := { kind := .tryTake, word := 0x1FFF8, size := .x, value := 0, origin := 4, die := 1, clock := [0, 1], job := none }
    (clockMet s r.die r.clock = true ∧ clockSeen s [0] = true ∧ clockMet s r.die [0, 2] = false ∧ dropped s r.job = false ∧
      dropped s (some 9) = true ∧ r.word + 8 ≤ 0x20000 ∧ s.feQueue = [] ∧ s.core.sealed = false ∧ s.core.fenced = false) ∧
    (∀ w ∈ [0x7FFE, 0x7FFF], w ∈ f.tags ∧ w ∉ s.tags) ∧ 0x10000 + 0x7FFE ∈ { f with poison := [0x17FFE] }.poison ∧
    feChecks f .tryTake 0x1FFF8 .x = .ok () ∧ (∃ e, feChecks { f with poison := [0x3FFF] } .tryTake 0x1FFF8 .x = .error e) ∧
    queuedAtHome s 0x1FFF8 < 64 ∧ { s with core := { s.core with sealed := true } }.core.sealed = true :=
  ⟨by decide, by decide, by decide, rfl, ⟨_, rfl⟩, by decide, rfl⟩

/-! ### Synchronisation, control registers, handles, barriers and the exchange -/

/-- A job of the control context in the queue, with status register g3. -/
def aJob (c : Cmd) : Job := { id := 0, ctx := 0, sreg := 3, cmd := c, word := 0, pc := 0x80, a := 0x1000, b := 0, gamma := 0, tolWide := 20, tolNarrow := 14, preds := [],
                              started := false, done := 0, resume := [], record := [], recordStop := none, status := none, binding := none, shadows := [],
                              remote := none, agreed := 0, missed := none, startNo := 0, seq := 0, unbinds := false }

/-- A core with the control context waiting. -/
def waiting (s : State) (w : Wait) : State := s.setCtx 0 { s.ctx 0 with wait := some w }

/-- A core's registers replaced. -/
def withCore (s : State) (f : CoreRegs → CoreRegs) : State := { s with core := f s.core }

/-- A published buffer of one page, its descriptor at 0x1000_0000_0040. -/
def published : State :=
  let p : PubBuf := { desc := 0x100000000040, job := 9, front := 0x100000010000, len := 0x10000, shadow := 0x300000, swapped := false, closed := false,
                      waiting := [(0, 7, .pod)] }
  withBytes { paged with mod := { paged.mod with pubs := [p] } } 0x100000100050 [5, 0, 0, 0, 0, 0, 0, 0, 1]

/-- TimeAndPublishedBufferResults: a deadline of 0 is due, and one that the counter has not reached; a registered valid buffer; and a
PUBL that waits for its swap. -/
theorem meets_time_and_publishing :
    RegsFree (start []) [] [7] ∧ RegsFree (start []) [3] [7] ∧ (getG (start []) 0 3).toNat ≤ (observeTick (start [])).mod.tick.toNat ∧
    (((waiting (start []) (.tick 5)).ctx 0).wait = some (.tick 5) ∧ (waiting (start []) (.tick 5)).core.frozen = false) ∧
    (RegsFree published [3] [7] ∧ 0x100000000040 % 64 = 0 ∧ checkRead published 0x100000000040 64 = .ok [(0x100000100040, 64)] ∧
      published.core.twin = none ∧ (pubOf published 0x100000000040).isSome = true ∧
      leNat ((runsBytes published [(0x100000100040, 64)]).drop 0x18) % 2 = 1) ∧
    ((waiting published .publish).core.frozen = false ∧ ((waiting published .publish).ctx 0).wait = some .publish ∧ MemoryInv (waiting published .publish) ∧
      (∃ p, (waiting published .publish).mod.pubs = [p] ∧ p.waiting = (0, 7, .pod) :: [] ∧ shadowBusy (waiting published .publish) p = false ∧
        pubLoc (waiting published .publish) p 0x18 = some (0x100000100050 + 8) ∧ pubLoc (waiting published .publish) p 0x10 = some 0x100000100050) ∧
      hbmLoc ≤ 0x100000100050 ∧ readLoc (waiting published .publish) (0x100000100050 + 8) 8 = 1 ∧ readLoc (waiting published .publish) 0x100000100050 8 = 5 ∧
      5 + 1 < 2 ^ 64) := by
  refine ⟨?_, ?_, ?_, ⟨rfl, rfl⟩, ⟨?_, rfl, rfl, rfl, rfl, rfl⟩,
    ⟨rfl, rfl, memoryInv_of rfl rfl rfl rfl, ⟨_, rfl, rfl, rfl, rfl, rfl⟩, by decide, rfl, rfl, by decide⟩⟩
  · simp only [RegsFree]; decide
  · simp only [RegsFree]; decide
  · exact Nat.zero_le _
  · simp only [RegsFree]; decide

/-- TimeAndPublishedBufferResults: a fence with nothing to wait for, releases and a FENCE.sc with acknowledgements outstanding, an
acquire that does not wait for them, and older values inside and outside the storage scope. -/
theorem meets_fences :
    let u := { older true with unacked := true }
    (older true).unacked = false ∧ u.unacked = true ∧ FenceKind.rel ≠ .acq ∧ waitsAcks .host .clu = true ∧ AgentScope.die ≠ .ctx ∧
    waitsAcks .spad .clu = false ∧ waitsAcks .spad .die = false ∧ inStorage .spad 0x1FFF8 = true ∧ inStorage .hbm 0x1FFF8 = false ∧
    (fenced u .sc .hbm .clu).vis.unseen.length = 1 ∧ (fenced u .rel .spad .clu).vis.unseen.length = 1 := by decide

/-- TimeAndPublishedBufferResults: whatever time has passed, one of the deadlines 0 and 2^64 − 1 is either due or not. -/
theorem meets_deadline_not_due (h : (observeTick (start [])).mod.tick ≠ -1) :
    ¬ (getG (start [(3, -1)]) 0 3).toNat ≤ (observeTick (start [])).mod.tick.toNat := by
  have h2 : (getG (start [(3, -1)]) 0 3).toNat = 2 ^ 64 - 1 := by decide
  have h3 := (observeTick (start [])).mod.tick.isLt
  intro h4
  exact h (BitVec.eq_of_toNat_eq (by rw [show (-1 : Word).toNat = 2 ^ 64 - 1 by decide]; omega))

/-- ControlRegisterResults: no launch, a single and a paired launch, a core within its limits, values at the limits and past them. -/
theorem meets_csrs :
    let s := start [(3, 31), (4, 32), (5, 0x1FFE0), (6, 4097)]
    let paired := { paged with mod := { paged.mod with launches := paged.mod.launches.map fun l => { l with paired := true } } }
    (RegsFree s [3] [7] ∧ curLaunch s = none ∧ (curLaunch paged).map (fun l => l.paired) = some false ∧
      (curLaunch paired).map (fun l => (l.paired, l.domain[paired.core.lid]?)) = some (true, some 0) ∧ s.core.die < 16 ∧ s.core.row < 128 ∧ s.core.col < 64 ∧ s.core.cix < 8) ∧
    (getG s 0 3).toNat < 32 ∧ ¬ (getG s 0 4).toNat < 32 ∧ (getG s 0 4).toNat % 32 = 0 ∧ ¬ (getG s 0 3).toNat % 32 = 0 ∧ (getG s 0 3).toNat < 2 ^ 32 ∧
    ((s.core.inCount = 0 ∧ s.core.ovCount = 0) ∧ (getG s 0 5).toNat % 32 = 0 ∧ (getG s 0 5).toNat + 32 * s.core.xringSize.toNat ≤ 0x20000) ∧
    ¬ (getG s 0 6).toNat ≤ 4096 ∧ awake s 0 = true := by
  refine ⟨⟨?_, by decide⟩, by decide⟩
  simp only [RegsFree]; decide

/-- A table with entries of context 0 and of context 1. -/
def table (owners : List (Fin 8)) : State :=
  withCore (start [(3, 0x1FFFC)]) fun c => { c with
    watch := Vector.ofFn fun i : Fin 8 => (owners[i.val]?).map fun o => { owner := o, loc := 4 * i.val, addr := 0, fired := false, stamp := i.val } }

/-- WatchesAndWaits: a word of its own, a free entry, a table full of others' entries, and one full of its own. -/
theorem meets_watch_table :
    let own := withCore (table []) fun c => { c with watch := c.watch.set 3 (some { owner := 0, loc := 0x1FFFC, addr := 0x1FFFC, fired := true, stamp := 0 }) }
    let mine (s : State) (i : Fin 8) : Bool := match s.core.watch[i.val] with
      | some e => decide (e.owner = s.cur) && decide (e.loc = 0x1FFFC)
      | none => false
    (RegsFree (table []) [3] [7] ∧ (getG (table []) 0 3).toNat % 4 = 0 ∧ (getG (table []) 0 3).toNat < 0x20000 ∧
      (table []).core.twin = none ∧ sealedPeer (table []) 0x1FFFC = none) ∧
    (regionOf 0x1000003FFFC = .gwin ∧ checkRange beside 0x1000003FFFC 4 false = .ok .gwin ∧ sealedPeer beside 0x1000003FFFC = none) ∧
    (regionOf 0x100000000040 = .hbm ∧ translateCore paged 0x100000000040 false = .ok 0x100000100040 ∧ sealedPeer paged 0x100000000040 = none) ∧
    (mine own 3 = true ∧ ∀ i : Fin 8, i < 3 → mine own i = false) ∧ ((∀ i, mine (table [1]) i = false) ∧ (table [1]).core.watch[7] = none) ∧
    ((∀ i, mine (table [1, 1, 0, 0, 1, 1, 2, 2]) i = false) ∧ ∀ i : Fin 8, ((table [1, 1, 0, 0, 1, 1, 2, 2]).core.watch[i.val]).isSome = true) ∧
    ((∀ i, mine (table [0, 0, 0, 0, 0, 0, 0, 0]) i = false) ∧
      ∀ i : Fin 8, ((table [0, 0, 0, 0, 0, 0, 0, 0]).core.watch[i.val]).any (fun e => decide (e.owner = 0)) = true) := by
  refine ⟨⟨?_, by decide⟩, by decide⟩
  simp only [RegsFree]; decide

/-- WatchesAndWaits: a fired entry, a notice, an expired wait, an armed entry that has not fired; waits that are over and one that is
not. -/
theorem meets_waits :
    let e : WatchEntry := { owner := 0, loc := 4, addr := 4, fired := true, stamp := 0 }
    let f := withCore (table []) fun c => { c with watch := c.watch.set 7 (some e) }
    let noticed := (table []).setCtx 0 { (table []).ctx 0 with notice := true }
    let j := waiting (start []) (.join 2)
    let h := waiting two (.join 3)
    RegsFree f [3] [7] ∧ (f.core.watch[7] = some e ∧ e.owner = f.cur ∧ e.fired = true ∧ ∀ i : Fin 8, i < 7 → f.core.watch[i.val] = none) ∧
    ((noticed.ctx 0).notice = true ∧ ∀ i : Fin 8, noticed.core.watch[i.val] = none) ∧
    ((table [0]).core.watch[0] = some { e with loc := 0, addr := 0, fired := false } ∧ ((table [0]).ctx 0).notice = false ∧ ((table [0]).ctx 0).expired = false) ∧
    ((j.ctx 0).wait = some (.join 2) ∧ waitOver j 0 (.join 2) = true ∧ j.core.frozen = false) ∧ ((h.ctx 0).wait = some (.join 3) ∧ waitOver h 0 (.join 3) = false) ∧
    (((waiting (start []) .acks).ctx 0).wait = some .acks ∧ waitOver (start []) 0 .acks = true ∧ waitOver { start [] with unacked := true } 0 .acks = false) ∧
    (((waiting two .cycles).ctx 0).wait = some .cycles ∧ (withCore (waiting two .cycles) fun c => { c with frozen := true }).core.frozen = true) ∧
    getHandle ringed 0 5 = some topRing ∧ ((waiting (start []) (.watched true)).ctx 0).wait = some (.watched true) ∧
    (waiting (start []) (.watched true)).core.frozen = false ∧ ((waiting (start []) .cycles).ctx 0).wait = some .cycles := by
  refine ⟨?_, by decide⟩
  simp only [RegsFree]; decide

/-- HandleResults: the largest shape, a bad one, no handle, and the limits of the three ring commands. -/
theorem meets_handles :
    let s := setHandle (start [(3, 0x1FFC0), (4, 0x00020020), (5, 0x02000020), (6, 0x20020), (8, 1), (9, 2), (10, 3)]) 0 5 (some topRing)
    RegsFree s [4, 3] [7] ∧ handleBusy s 0 5 = false ∧ getHandle s 0 6 = none ∧ getHandle s 0 5 = some topRing ∧
    ((getG s 0 4).toNat ≠ 0 ∧ (getG s 0 4).toNat < 2 ^ 25 ∧ 0x1FFC0 % 32 = 0 ∧ 0x20 % 32 = 0 ∧ 0x1FFC0 + 0x20 * 2 ≤ 0x20000) ∧
    2 ^ 25 ≤ (getG s 0 5).toNat ∧ (getG s 0 8).toNat ≤ topRing.fill ∧ topRing.fill < (getG s 0 9).toNat ∧
    (getG s 0 8).toNat ≤ topRing.count - topRing.fill ∧ topRing.count - topRing.fill < (getG s 0 9).toNat ∧
    (1 ≤ (getG s 0 9).toNat ∧ (getG s 0 9).toNat ≤ topRing.count) ∧ topRing.count < (getG s 0 10).toNat ∧
    handleBusy { s with clu := { s.clu with jobs := [aJob (.cpy ⟨5, true, .none, false, .none, 3, 3⟩)] } } 0 5 = true := by
  refine ⟨?_, by decide⟩
  simp only [RegsFree]; decide

/-- A launch of two groups on one core. -/
def crowded : State := { paged with mod := { paged.mod with launches := paged.mod.launches.map fun l => { l with groups := 2 } } }

/-- BarrierAndExchangeResults: contributing, completing, refused levels and phases, and DSPLIT's limits. -/
theorem meets_barriers :
    let inPhase := withCore paged fun c => { c with phase := some 1 }
    let done (w : Wait) (s : State) : State := s.setCtx 0 { s.ctx 0 with wait := some w, contributed := true }
    (clockSeen paged [] = true ∧ paged.unacked = false) ∧
    syncRefused crowded 1 = true ∧ inPhase.core.phase.isSome = true ∧ (paged.cur = 0 ∧ notCoResident paged = false ∧ paged.core.phase = none) ∧
    (((done (.barrier 1 .all) paged).ctx 0).wait = some (.barrier 1 .all) ∧ ((done (.barrier 1 .all) paged).ctx 0).contributed = true ∧ (done (.barrier 1 .all) paged).core.frozen = false ∧ (done (.barrier 1 .all) paged).core.split = none) ∧
    (inPhase.cur = 0 ∧ inPhase.core.aborted = false) ∧
    (((done (.exchange .all) inPhase).ctx 0).wait = some (.exchange .all) ∧ (done (.exchange .all) inPhase).core.frozen = false ∧ (done (.exchange .all) inPhase).core.outgoing = none ∧ (done (.exchange .all) inPhase).core.arriving = []) ∧
    RegsFree (start [(3, 0xFFFFFFFF), (4, 0x100000000)]) [3, 4] [] ∧ (getG (start [(3, 0xFFFFFFFF)]) 0 3).toNat < 2 ^ 32 ∧
    2 ^ 32 ≤ (getG (start [(4, 0x100000000)]) 0 4).toNat ∧ notCoResident crowded = true := by
  refine ⟨by decide, by decide, by decide, by decide, by decide, by decide, by decide, ?_, by decide⟩
  simp only [RegsFree]; decide

/-- A core in the cluster's exchange with a ring of two packets at 0x1FFC0, one packet in it. -/
def exchanging (n : Nat) : State :=
  withCore paged fun c => { c with phase := some 0, xringBase := 0x1FFC0, xringSize := 2, inCount := n, dom := c.dom.set 0 0x0000000000000001 }

/-- BarrierAndExchangeResults: a member of the domain, empty rings and one packet, room in the ring, a sealed core, an abort. -/
theorem meets_exchange :
    let s := (exchanging 1)
    MemoryInv s ∧ RegsFree s [4, 6] [7] ∧ (0x1FFE0 % 32 = 0 ∧ 0x1FFE0 + 32 ≤ 0x20000) ∧ s.core.phase = some 0 ∧ s.core.aborted = false ∧ destOk s 0 0 = true ∧
    checkRead s 0x1FFE0 32 = .ok [(0x1FFE0, 32)] ∧ loadSettled s plainMode [(0x1FFE0, 32)] = true ∧ s.core.outgoing = none ∧ paged.core.phase = none ∧
    ((exchanging 0).core.inCount = 0 ∧ (exchanging 0).core.ovCount = 0) ∧
    (0 < s.core.inCount ∧ checkRun s (0x1FFC0 + 32 * s.core.inHead) (0x1FFC0 + 32 * s.core.inHead) 32 = .ok ()) ∧
    (0x1FFC0 + 32 * 2 ≤ 0x20000 ∧ s.core.arriving = [] ∧ s.core.sealed = false ∧ s.core.inCount < 2) ∧
    (dropped s (some 9) = false ∧ dropped s (some 8) = true ∧ curJobId s = 9 ∧ s.core.launch = some 1 ∧ s.core.launch ≠ some 2 ∧ clockSeen s [] = true ∧
      (withCore s fun c => { c with arriving := [7], outgoing := some { module := 1, lid := 0, payload := 0 } }).core.outgoing.map (fun p => p.module) =
        some (s.mod.modnum + 1)) ∧
    (withCore s fun c => { c with sealed := true }).core.sealed = true ∧ s.core.phase.isSome = true ∧ (s.ctx 0).wait ≠ some (.exchange .all) ∧
    ((waiting s (.exchange .all)).ctx 0).wait = some (.exchange .all) := by
  refine ⟨memoryInv_of rfl rfl rfl rfl, ?_, by decide, rfl, rfl, by decide, rfl, rfl, rfl, rfl, by decide, ⟨by decide, rfl⟩, by decide, by decide, rfl, rfl, by decide, rfl⟩
  simp only [RegsFree]; decide

/-! ### Engine commands and jobs -/

/-- EngineCommandsEnter: a free status register and an empty queue, a pending register, a full queue. -/
theorem meets_command_entry :
    let p := (start []).setCtx 0 { (start []).ctx 0 with pend := ((start []).ctx 0).pend.set 3 (some 0) }
    let full := { start [] with clu := { (start []).clu with jobs := List.replicate 32 (aJob .tcfg) } }
    RegsFree (start []) [0] [] ∧ isPending (start []) 0 15 = false ∧ (start []).clu.jobs.length < 32 ∧ isPending p 0 3 = true ∧
    isPending full 0 3 = false ∧ 32 ≤ full.clu.jobs.length := by
  refine ⟨?_, by decide⟩
  simp only [RegsFree]; decide

/-- EngineCommandsEnter, tile engine: operands at their limits, dense and strided, of a slot and of an accumulator. -/
theorem meets_tile_commands :
    let A (g : List (GReg × Word)) (r : GReg) := (getG (start g) 0 r).toNat
    let range (v : Word) := A [(4, v)] 4
    RegsFree (start [(3, -64), (4, 0x3F0000)]) [0, 3, 4] [] ∧
    (A [(3, -64)] 3 % 64 = 0 ∧ range 0x3F0000 % 2 ^ 16 = 0 ∧ range 0x3F0000 < 2 ^ 22) ∧ (A [(3, -8)] 3 % 8 = 0 ∧ range 0xFFF8 % 8 = 0 ∧ range 0xFFF8 < 2 ^ 16) ∧
    (range 0x0D00FFF8 < 2 ^ 32 ∧ range 0x0D00FFF8 / 2 ^ 22 % 4 = 0 ∧ range 0x0D00FFF8 / 2 ^ 16 % 64 = 0 ∧ range 0x0D00FFF8 / 2 ^ 24 = 0x0D) ∧
    (getHandle (setHandle (start [(3, 7)]) 0 7 (some { topRing with size := 1280 })) 0 7 = some { topRing with size := 1280 } ∧ tileBytes 9 + 256 ≤ 1280) ∧
    (range 1023 < 1024 ∧ range 63 < 64) ∧
    (range 0x4000000 < 2 ^ 27 ∧ range 0x4000000 / 2 ^ 10 % 64 = 0 ∧ 1 ≤ range 0x4000000 / 2 ^ 16 ∧ range 0x4000000 % 2 ^ 10 + range 0x4000000 / 2 ^ 16 ≤ 1024) ∧
    range 0xFFFFFFFF < 2 ^ 32 ∧ (A [(3, 0x1FFE0)] 3 % 32 = 0 ∧ A [(3, 0x1FFE0)] 3 < 0x20000) ∧
    (range 0x7FFF000F < 2 ^ 31 ∧ range 0x7FFF000F % 16 ≠ 0 ∧ range 0x7FFF000F / 16 % 2 ^ 12 = 0 ∧ 1 ≤ range 0x7FFF000F / 2 ^ 16) ∧ range 64 ≤ 64 := by
  refine ⟨?_, by decide⟩
  simp only [RegsFree]; decide

/-- EngineCommandsEnter, the other engines. -/
theorem meets_other_commands :
    let A (v : Word) := (getG (start [(4, v)]) 0 4).toNat
    (A (-64) % 64 = 0 ∧ A 0x1FFC0 % 64 = 0 ∧ A 0x1FFC0 < 0x20000) ∧ (A 0x1FFF8 % 8 = 0 ∧ A 0x1FFF8 < 0x20000 ∧ 1 ≤ A 4096 ∧ A 4096 ≤ 4096) ∧
    (A 0x1FFF0 % 16 = 0 ∧ A 0x1FFF0 < 0x20000 ∧ A 0x1000000 < 2 ^ 25 ∧ 1 ≤ A 0x1000000 / 2 ^ 12 ∧ A 0x1000000 % 2 ^ 12 + A 0x1000000 / 2 ^ 12 ≤ 4096) ∧
    A 0xFFFFFFFF < 2 ^ 32 ∧ ((start []).cur = 0 ∧ notCoResident paged = false ∧ (start []).core.phase = none) ∧ (A 0x7FFFFFFF < 2 ^ 31 ∧ A (-4) % 4 = 0) ∧
    (A 0x1FFFC % 4 = 0 ∧ A 0x1FFFC < 0x20000) := by decide

/-- A job in the queue, its status register pending. -/
def queued (j : Job) : State :=
  let s := start []
  { s.setCtx 0 { s.ctx 0 with pend := (s.ctx 0).pend.set 3 (some 0) } with clu := { s.clu with jobs := [j] } }

/-- A packet of a class, of the control context, as launch 1 raised it. -/
def aPacket (f : FaultClass) : FaultPacket :=
  { cls := f, ctx := 0, info := 0, pid := 0, pc := 0x100, addr := 0x100000000000, insn := 0, group := 0, status := 0, tick := 0, job := 9, fseq := 0, votes := 0,
    launch := some 1, source := .context }

/-- Tile slot 4 configured at 0x2000 for s8 elements. -/
def slotAt4 (s : State) : State := withCore s fun c => { c with tiles := c.tiles.set 4 (some { off := 0x2000, fmt := 1, unverified := true, poisoned := false }) }

/-- JobsStartAndEnd: a failed predecessor, a job first in line, an ended one, and one that runs to its end. -/
theorem meets_jobs :
    let z : Cmd := .tzero ⟨false, 1, 0, 3⟩
    let bad := { aJob z with preds := [{ job := 7, outcome := some true }] }
    let good := { aJob z with preds := [{ job := 7, outcome := some false }] }
    let ended := { aJob z with status := some (.badDesc, 5), started := true }
    let run := { aJob z with started := true }
    (findJob (queued bad) 0 = some bad ∧ bad.started = false ∧ bad.status = none ∧ ∃ p ∈ bad.preds, p.outcome = some true) ∧
    (findJob (queued good) 0 = some good ∧ (∀ p ∈ good.preds, p.outcome = some false) ∧ firstInLine (queued good) good = true ∧
      (∀ k ∈ (queued good).clu.jobs, running k = true → sharesEngine k good = false) ∧ (queued good).core.frozen = false ∧
      (queued good).core.saving = false ∧ (queued good).mod.pubs = []) ∧
    (findJob (queued ended) 0 = some ended ∧ ended.remote = none ∧ ended.sreg ≠ 0 ∧ ((queued ended).ctx ended.ctx).pend[3] = some 0 ∧ ended.shadows = []) ∧
    (findJob (queued run) 0 = some run ∧ running run = true ∧ awaitsTwin (queued run) run = false ∧ cmdEngine run.cmd = .tile ∧ ∃ t c n, perform run [] noLimit (queued run) = some (t, c, n)) := by
  refine ⟨by decide, by decide, by decide, by decide, by decide, by decide, by decide, ?_⟩
  exact ⟨_, _, _, rfl⟩

/-- JobsStartAndEnd: a load of a page with no mapping: not yet reported, with its packet still open, and answered. -/
theorem meets_page_misses :
    let z : Cmd := .tld ⟨false, true, .none, 0, 4, 5, 3⟩
    let run := { aJob z with started := true, a := 0x100000000000, b := 0x40000 }
    let told := { run with missed := some 0x100000000000 }
    let s := slotAt4 (queued run)
    let o := { slotAt4 (queued told) with mod := { (queued told).mod with inbox := [{ aPacket .pageFault with source := .engine 0 }] } }
    (running run = true ∧ inTurn s run = true ∧ s.core.fenced = false ∧ awaitsTwin s run = false ∧ missOpen s run = false ∧ run.missed = none ∧
      (perform run [] noLimit s).map (fun r => r.2.1) = some (.pageAt 0x100000000000)) ∧
    (missOpen o told = true ∧ missOpen (slotAt4 (queued told)) told = false ∧ told.missed.map (fun m => m / 0x10000) = some (0x100000000000 / 0x10000)) := by
  decide +kernel

/-- JobsStartAndEnd: a copy and a tile that push a slot into a handle. -/
theorem meets_handle_pushes :
    let rec_ := leBytes 8 0x2000 ++ leBytes 8 0 ++ leBytes 4 32 ++ leBytes 4 2 ++ leBytes 8 0
    let y : CpyArgs := ⟨5, true, .none, false, .none, 3, 3⟩
    let cj := { aJob (.cpy y) with started := true, record := rec_ }
    let cs := setHandle (queued cj) 0 5 (some topRing)
    let x : TstArgs := ⟨false, false, 0, 4, 3, 3⟩
    let tj := { aJob (.tst x) with started := true, a := 5, b := 0x109000000 }
    let ts := setHandle (queued tj) 0 5 (some { base := 0x1000, size := 1024, count := 1, head := 0, tail := 0, fill := 0 })
    (running cj = true ∧ y.useH = true ∧ findJob cs 0 = some cj ∧ ∃ t, stepCpyH y cj cs = some (t, none)) ∧
    (running tj = true ∧ tj.b.getLsbD 32 = true ∧ findJob ts 0 = some tj ∧ ∃ t c n, runTst x tj ts = some (t, c, n)) := by
  refine ⟨⟨by decide, by decide, by decide, _, rfl⟩, by decide, by decide, by decide, _, _, _, rfl⟩

/-- JobsStartAndEnd: TZERO, GRELEASE of a bound handle and RFFREE of a bound map. -/
theorem meets_release_jobs :
    let run (c : Cmd) := { aJob c with started := true }
    let g : GBinding := { desc := [], op := .addw, reassoc := false, n := 1, c := 1, rank := [] }
    let q := (queued (run (.rffree 2))).setCtx 0 { (queued (run (.rffree 2))).ctx 0 with q := ((queued (run (.rffree 2))).ctx 0).q.set 2 (.bound 4 2 0) }
    MemoryInv (queued (run (.tzero ⟨false, 3, 0, 3⟩))) ∧ running (run (.grelease 1)) = true ∧ { run (.grelease 1) with binding := some g }.binding = some g ∧
    getReef q 0 2 ≠ .unbound ∧ (run (.rffree 2)).remote = none ∧ (run (.rffree 2)).shadows = [] ∧ (q.ctx 0).pend[3] = some 0 :=
  ⟨memoryInv_of rfl rfl rfl rfl, by decide, by decide, by decide, by decide, by decide, by decide⟩

/-- ArrivingCommandsAndEvents: a record that is no command, and a store that is empty, full, and full with its spill ring. -/
theorem meets_arrivals :
    let s := withCore paged fun c => { c with launch := some 1 }
    let e : NbEvent := { word := 0, srcBank := 0, srcNeur := 0, pos := 0 }
    let x : Stored := { step := evStep e s.clu.bank.c, ev := e }
    let full (k : List Stored) := { s with clu := { s.clu with bank := { s.clu.bank with pending := List.replicate 4096 x, spill := k, config := List.replicate 0x210 0 ++ [1, 0, 0, 0] } } }
    (s.core.saving = false ∧ s.core.sealed = false ∧ s.clu.jobs.length < 32 ∧ remCommand 0x1F 0 = none ∧ remCommand 0xB3 0 = some (.tzero ⟨false, 0, 0, 0⟩)) ∧
    (evBank e = ownBank s ∧ s.core.launch.isSome = true ∧ s.clu.bank.held = [] ∧ ¬ 4096 ≤ s.clu.bank.pending.length + s.clu.bank.tardy.length) ∧
    4096 ≤ (full []).clu.bank.pending.length + (full []).clu.bank.tardy.length ∧
    (¬ (full []).clu.bank.field 0x210 4 ≤ (full []).clu.bank.spill.length ∧ (engWrite (full []) reachHbm 0 (leBytes 8 0)).2 ≠ none ∧
      (full []).clu.bank.field 0x208 8 = 0) ∧ (full [x]).clu.bank.field 0x210 4 ≤ (full [x]).clu.bank.spill.length := by
  refine ⟨⟨by decide, by decide, by decide, by decide, by rfl⟩, by decide, ?_, by decide, by decide⟩
  simp

/-- ArrivingCommandsAndEvents: for whatever time has passed there is a capability of accumulator tile 0 that is good. -/
theorem meets_good_capability :
    let o := observeTick { paged with core := { paged.core with groupLive := true } }
    ∃ (cap : Word) (src : Nat), capNamesMe o cap.toNat = true ∧ capRejected o cap.toNat src 0 = false := by
  intro o
  have hg : o.core.groupLive = true := rfl
  have hb : capBody o 0 0 / 2 ^ 20 = 0 := by
    have e : capBody o 0 0 = (o.mod.tick.toNat / 2 ^ 20 + 0) % 2 ^ 16 := by
      have h1 : o.core.cix = 0 := rfl
      have h2 : o.core.row = 0 := rfl
      have h3 : o.core.col = 0 := rfl
      have h4 : o.core.die = 0 := rfl
      have h5 : o.core.modId = 0 := rfl
      simp only [capBody, h1, h2, h3, h4, h5]; omega
    rw [e]; have := Nat.mod_lt (o.mod.tick.toNat / 2 ^ 20 + 0) (show 0 < 2 ^ 16 by decide); omega
  obtain ⟨l, hl⟩ : ∃ l, l = (o.mod.tick.toNat / 2 ^ 20 + 1) % 2 ^ 16 := ⟨_, rfl⟩
  obtain ⟨k, hk⟩ : ∃ k, k = (Config.capCheck (2 ^ 16 + l) (curJobId o)).toNat := ⟨_, rfl⟩
  have hk16 : k < 2 ^ 16 := by rw [hk]; exact (Config.capCheck _ _).isLt
  have hl16 : l < 2 ^ 16 := by rw [hl]; exact Nat.mod_lt _ (by decide)
  obtain ⟨n, hn⟩ : ∃ n, n = k * 2 ^ 48 + (2 ^ 16 + l) := ⟨_, rfl⟩
  have hn64 : n < 2 ^ 64 := by omega
  refine ⟨BitVec.ofNat 64 n, 0, ?_, ?_⟩
  · rw [BitVec.toNat_ofNat, Nat.mod_eq_of_lt hn64]
    simp only [capNamesMe, hb, bits, decide_eq_true_eq]; omega
  · rw [BitVec.toNat_ofNat, Nat.mod_eq_of_lt hn64]
    have h1 : bits n 0 48 = 2 ^ 16 + l := by unfold bits; omega
    have h2 : bits n 48 16 = k := by unfold bits; omega
    have h3 : bits n 40 8 = 0 := by unfold bits; omega
    have h4 : bits n 0 16 = l := by unfold bits; omega
    have h5 : bit n (16 + 0) = true := by simp only [bit, beq_iff_eq]; omega
    simp only [capRejected, capStale, h1, h2, h3, h4, h5, hg, ← hk]
    generalize o.mod.tick.toNat / 2 ^ 20 = u at *
    simp; omega

/-! ### Helpers, groups and faults -/

/-- HelperAndGroupResults: each place of HSTART, HJOIN, HEND and GEND, and a group to start. -/
theorem meets_helpers :
    let s := start [(3, 0x200), (5, 0x201)]
    let h := withCore two fun c => { c with cur := 3 }
    let hj := { h with clu := { h.clu with jobs := [{ aJob .tcfg with ctx := 3 }] } }
    let l := withCore paged fun c => { c with groupLive := false }
    RegsFree s [4, 3] [7] ∧ RegsFree s [4, 5] [7] ∧ (getG s 0 5).getLsbD 0 = true ∧ (getG s 0 3).getLsbD 0 = false ∧ (s.cur = 0 ∧ (s.ctx 7).live = false) ∧
    h.cur ≠ 0 ∧ (two.cur = 0 ∧ (two.ctx 3).live = true ∧ helperLive two = true) ∧ hasJobs hj hj.cur = true ∧ hasJobs h h.cur = false ∧
    (helperLive s = false ∧ hasJobs s 0 = false) ∧
    ((curLaunch l).any (fun k => k.started && decide (l.core.nextGroup < k.groups) && decide (0 < k.n)) = true ∧ l.core.groupLive = false ∧ l.core.frozen = false ∧
      l.core.saving = false ∧ l.core.fenced = false ∧ l.core.preempt = false) := by
  refine ⟨?_, ?_, by decide⟩ <;> (simp only [RegsFree]; decide)

/-- The core stopped at a fault of a class, its packet at the masthead or with the driver, under a policy. -/
def faulted (p : FaultPacket) (pol : Nat) (driver : Bool) : State :=
  let s := paged.setCtx 0 { paged.ctx 0 with stopped := true, packet := some p }
  let m : Module := { s.mod with launches := s.mod.launches.map fun (l : Launch) => { l with policy := pol } }
  let m := if driver then { m with driver := [p] } else { m with inbox := [p] }
  let z := withCore s fun c => { c with frozen := true }
  { z with mod := m }

/-- FaultsAreAnswered: packets that wait, of an engine and of the router, and one that does not; each policy, on the core and with it
saved; a lone trapped context; a restart, and a group that has synchronised. -/
theorem meets_fault_answers :
    let t := aPacket .swTrap
    let p := aPacket .protFault
    let pol (n : Nat) := fun (l : Launch) => decide (l.policy = n) && decide (l.image = 0)
    let gone (n : Nat) := withCore (faulted p n false) fun c => { c with launch := none }
    RegsFree (start []) [3] [] ∧
    ((faulted t 0 false).mod.inbox = [t] ∧ waitsForAnswer t = true ∧ endsStep t = false ∧ endsStep { aPacket .brk with info := 0x3FF } = true ∧
      ({ t with source := .router } : FaultPacket).source ≠ .context) ∧
    ((faulted p 2 false).mod.inbox = [p] ∧ (faulted p 2 false).mod.driver = [] ∧ waitsForAnswer p = false ∧ endsStep p = false ∧ p.source = .context) ∧
    ((packetLaunch (faulted p 2 false) p).any (pol 2) = true ∧ (packetLaunch (faulted p 0 false) p).any (pol 0) = true ∧
      (packetLaunch (gone 1) p).any (pol 1) = true ∧ (gone 1).core.launch ≠ p.launch) ∧
    ((faulted t 0 true).mod.driver = [t] ∧ (faulted t 0 true).core.launch = t.launch ∧
      (∀ c : Fin 8, c ≠ 0 → ((faulted t 0 true).ctx c).stopped = false) ∧ (faulted t 0 true).core.sealed = false ∧
      (faulted t 0 true).core.heldWrites = [] ∧ (faulted t 0 true).feQueue = []) ∧
    ((packetLaunch (faulted p 1 false) p).any (pol 1) = true ∧ (faulted p 1 false).core.launch = p.launch ∧ (faulted p 1 false).core.synced = false ∧
      (faulted p 1 false).core.restarts < 3 ∧ (faulted p 1 false).core.twin = none) ∧
    (withCore (faulted p 1 false) fun c => { c with synced := true }).core.synced = true := by
  refine ⟨?_, by decide⟩
  simp only [RegsFree]; decide

/-- FaultsAreAnswered: the missing page of a PAGE_FAULT, of a context and of an engine, is there: the table at 0x4000 leads to a
2 MiB page. -/
theorem meets_mapping_supplied :
    let p := aPacket .pageFault
    let s := faulted p 0 true
    let t := withBytes (withBytes (withBytes { s with mod := { s.mod with tlb := [], driver := [] } } (hbmLoc + 0x4000 + 8 * 32) (leBytes 8 0x5001))
      (hbmLoc + 0x5000) (leBytes 8 0x6001)) (hbmLoc + 0x6000) (leBytes 8 0x200007)
    s.mod.driver = [p] ∧ p.source = .context ∧ p.cls = .pageFault ∧ jobWalk t p.job.toNat 0x100000000000 ≠ none ∧
    p.addr.toNat / 65536 = 0x100000000000 / 65536 ∧ waitsForAnswer p = true ∧ ({ p with source := .engine 0 } : FaultPacket).source = .engine 0 := by decide

/-- DebugAndSoftErrorResults: a frozen core with nothing held, a held write, a step that is done, addresses of data and of tags; and
flips of one bit and of two. -/
theorem meets_debug :
    let f := withCore (start []) fun c => { c with frozen := true, maddr := 0x1FFFF }
    let hw := withCore f fun c => { c with heldWrites := [(0, .g 3, 9)] }
    let st := withCore (start []) fun c => { c with stepping := some 0, stepDone := true }
    MemoryInv f ∧ f.feQueue = [] ∧ f.core.arriving = [] ∧ (f.core.frozen = true ∧ f.core.sealed = false ∧ f.core.heldWrites = []) ∧
    (hw.core.heldWrites = [(0, .g 3, 9)] ∧ isPending hw 0 3 = false) ∧ (st.core.stepping = some 0 ∧ st.core.stepDone = true ∧ st.core.unit = none) ∧
    (start []).core.frozen = false ∧ f.core.maddr.toNat < 0x20000 ∧ (0x30000 ≤ 0x37FFF ∧ 0x37FFF < 0x38000) ∧
    (8 * 0x3FFF < 0x20000 ∧ popCount (1 : Word) ≤ 1 ∧ popCount (3 : Word) = 2 ∧ 64 * 0x7FF < 0x20000 ∧ popCount (1 : BitVec 16) % 2 = 1 ∧ 64 * 5 < hbmSize ∧
      popCount (3 : BitVec 512) = 2 ∧ accOfLoc 0x20FFF ≠ none) :=
  ⟨memoryInv_of rfl rfl rfl rfl, by decide, by decide, by decide, by decide, by decide, by decide, by decide, by decide, by decide⟩

/-! ### Answers to requests, pre-emption -/

/-- Job 9's tables: 0x1000_0000_0000 leads to a 2 MiB page at 0x200000 of device memory. -/
def mapped (s : State) : State :=
  withBytes (withBytes (withBytes s (hbmLoc + 0x4000 + 8 * 32) (leBytes 8 0x5001)) (hbmLoc + 0x5000) (leBytes 8 0x6001)) (hbmLoc + 0x6000) (leBytes 8 0x200007)

/-- FaultEntry: a fault other than UNCORRECTABLE, of an instruction that strikes no block. -/
theorem meets_fault_entry :
    let f : Flt := { cls := .protFault, addr := 0x21200 }
    f.block = none ∧ (f.cls ≠ .uncorrectable ∨ (start []).feQueue = []) := by decide

/-- RequestAndPairAnswers: a write of the host, the next one of another die, one too early, one of a retired job, and a sealed core; a
walk that ends well and one that does not; a context that waits for the host, one with a request at a peer, and a running job. -/
theorem meets_answers :
    let w := waiting (start []) (.host 0x800000000000)
    let sealed := withCore (start []) fun c => { c with sealed := true }
    let j : Job := { aJob .tcap with a := 0x100000000040, started := true }
    let far := { start [] with feQueue := [{ kind := .take, loc := 0x1000003FFF8, size := .w, value := 0, origin := .own 0 7 4, mode := plainMode, die := 0, clock := [], release := none }] }
    let near : DieWrite := { bytes := [1], die := 12, clock := [], job := none }
    let next : DieWrite := { bytes := [1], die := 3, clock := [0, 0, 0, 1, 0, 0, 0, 0, 0, 0, 0, 0], job := some 9 }
    let early : DieWrite := { next with clock := [0, 0, 0, 1, 1] }
    (0x1FFFF + near.bytes.length ≤ 0x20000 ∧ (start []).core.sealed = false ∧ (start []).core.fenced = false ∧ sealed.core.sealed = true ∧
      near.bytes ≠ [] ∧ 12 ≤ near.die ∧ next.die < 12 ∧ dropped paged next.job = false ∧ dropped (start []) next.job = true ∧
      next.clock.getD 3 0 = (start []).mod.applied.toList.getD 3 0 + 1 ∧
      (∀ k, k < 12 → k ≠ 3 → next.clock.getD k 0 ≤ (start []).mod.applied.toList.getD k 0) ∧
      (start []).mod.applied.toList.getD 4 0 < early.clock.getD 4 0) ∧
    (walk (mapped paged) 0x100000000000 ≠ none ∧ walk paged 0x100000000000 = none ∧ awake paged paged.cur = true) ∧
    ((w.ctx 0).wait = some (.host 0x800000000000) ∧ (w.ctx 0).live = true ∧ (w.ctx 0).stopped = false ∧ running j = true) ∧
    ((far.ctx 0).live = true ∧ (far.ctx 0).stopped = false ∧ far.feQueue.any (fun q => decide (gwinLoc ≤ q.loc ∧ q.origin = .own 0 7 4)) = true) :=
  ⟨by decide, ⟨by decide, rfl, by decide⟩, by decide, by decide⟩

/-- RequestAndPairAnswers: a store that leaves a paired core, a context that waits for its twin and a hash that is its own and one that is
not, and a job whose write waits, with its hash and with another. -/
theorem meets_pair_answers :
    let q := withCore paged fun c => { c with twin := some 5 }
    let p := (start []).setCtx 0 { (start []).ctx 0 with wait := some .pair, pairHash := some 7 }
    let j : Job := { aJob .tcap with a := 0x100000000040, started := true }
    let jq : State := { q with clu := { q.clu with jobs := [j] } }
    (RegsFree q [3, 4] [] ∧ 0x100000000040 % 8 = 0 ∧ checkWrite q 0x100000000040 8 = .ok [(0x100000100040, 8)] ∧ q.core.twin.isSome = true ∧
      leavesCore q 0x100000000040 = true ∧ (q.ctx q.cur).pairOk = false) ∧
    ((p.ctx 0).wait = some .pair ∧ (p.ctx 0).pairHash = some 7 ∧ (∀ d : Fin 8, d ≠ 0 → (p.ctx d).wait = none) ∧ p.clu.jobs = [] ∧
      (p.ctx 0).pairHash ≠ some 8) ∧
    ((∀ d : Fin 8, (jq.ctx d).wait ≠ some .pair) ∧ findJob jq j.id = some j ∧ jq.clu.jobs = [j] ∧ awaitsTwin jq j = true ∧
      jq.clu.jobs.find? (awaitsTwin jq) = some j ∧ jobHash jq j ≠ jobHash jq j + 1) := by
  refine ⟨⟨?_, by decide, rfl, rfl, rfl, rfl⟩, ⟨rfl, rfl, by decide, rfl, by decide⟩, by decide, rfl, rfl, by decide, rfl, ?_⟩
  · simp only [RegsFree]; decide
  · generalize jobHash _ _ = x
    intro h
    bv_omega

/-- A core with a pre-emption request pending, its liveness descriptors in the scratchpad from 0. -/
def wanted : State := withCore paged fun c => { c with preempt := true }

/-- ParkingAndWatchdog: a descriptor that is legal and one that names helper slot 0, a freeze's request, and timers below the limits. -/
theorem meets_parking :
    let bad := withBytes wanted 0 [1]
    let fr := withCore wanted fun c => { c with fromFreeze := true }
    let late := fr.setCtx 0 { fr.ctx 0 with runTimer := (limits fr).1 }
    paged.core.launch.isSome = true ∧ paged.core.preempt = false ∧
    (wanted.core.preempt = true ∧ checkRead wanted 0x7FE0 32 = .ok [(0x7FE0, 32)] ∧ wanted.core.twin = none ∧
      descriptorLegal (runsBytes wanted [(0x7FE0, 32)]) = true ∧ descriptorLegal (runsBytes bad [(0, 32)]) = false) ∧
    (fr.core.preempt = true ∧ fr.core.fromFreeze = true ∧ fr.core.unit = none ∧ fr.core.frozen = false) ∧
    ((fr.ctx 0).live = true ∧ (fr.ctx 0).parked = none ∧ (fr.ctx 0).stopped = false ∧ (fr.ctx 0).wait = none ∧ fr.core.frozen = false) ∧
    (fr.ctx 0).runTimer < (limits fr).1 ∧ (limits late).1 ≤ (late.ctx 0).runTimer ∧ (late.ctx 0).runTimer < (limits late).2.1 := by
  refine ⟨by decide, by decide, ⟨by decide, rfl, by decide, by decide, by decide⟩, by decide, by decide, by decide, by decide, by decide⟩

/-- What is kept of a parked core. -/
def kept (lost : List (Fin 8)) : SavedCore :=
  { ctxs := paged.ctxs, core := paged.core, mem := [], descs := [], tags := [], poison := [], badParity := [], jobs := [], bank := none, lost := lost }

/-- SaveAndResumption: a core parked by PHINT and one parked by a freeze, a save that goes on, and records to resume from. -/
theorem meets_saving :
    let parked (p : Park) := wanted.setCtx 0 { wanted.ctx 0 with parked := some p }
    let d := leBytes 2 0xFFFE ++ List.replicate 30 (0 : Byte)
    let saving := { (withCore (start []) fun c => { c with saving := true }) with saved := [kept []] }
    MemoryInv wanted ∧ (wanted.core.preempt = true ∧ preemptible (parked .forced) = true ∧ wanted.core.launch.isSome = true ∧ wanted.core.fenced = false ∧
      ∀ j ∈ wanted.clu.jobs, drains wanted j = false) ∧ preemptible (parked (.phint d)) = true ∧
    ((parked (.phint d)).ctx 0).parked = some (.phint d) ∧ (((parked .forced).ctx 0).live = true ∧ ∀ d, ((parked .forced).ctx 0).parked ≠ some (.phint d)) ∧
    (saving.saved.getLast? = some (kept []) ∧ saving.core.saving = true ∧ ((kept []).ctxs[0]).live = true ∧ 0 ∉ (kept []).lost ∧
      ∀ e : Fin 8, e ≠ 0 → ((kept []).ctxs[e.val]).live = false) ∧
    ({ start [] with saved := [kept [0]] }.saved = [kept [0]] ∧ (∀ l ∈ ({ paged with saved := [kept [0]] } : State).mod.launches,
        (kept [0]).core.launch = some l.id → mayServe { paged with saved := [kept [0]] } l = true) ∧ (start []).core.launch = none ∧ (start []).mod.frozen = false ∧
      (start []).core.fenced = false ∧ (kept [0]).lost = [0]) := by
  refine ⟨memoryInv_of rfl rfl rfl rfl, by decide, by decide, by decide, ⟨by decide, ?_⟩, ⟨rfl, rfl, by decide, by decide, by decide⟩, ⟨rfl, by decide, rfl, rfl, rfl, rfl⟩⟩
  intro d h; exact absurd (Option.some.inj h) (by intro k; cases k)

/-- The record of the notes' run, with context 0 parked at `phint chunk`: the offsets and length fields of its sections and its
end. Source: spec/20, When does a request save more than the descriptor names. -/
theorem test_cellar_record :
    let d := leBytes 2 0x0C06 ++ List.replicate 6 (0 : Byte) ++ leBytes 1 1 ++ List.replicate 23 (0 : Byte)
    let r : SavedCore := { kept [] with ctxs := (kept []).ctxs.set 0 { (kept []).ctxs[0] with parked := some (.phint d) } }
    let p := placed 0 (recordSections r)
    (p.1.map fun s => (s.1, rfield s.2 0 2, rfield s.2 4 4)) = [(0, 1, 120), (128, 5, 1296), (1472, 7, 648), (2176, 0, 8)] ∧ p.2 = 2184 := by
  decide +kernel

/-! ### Launching and the control queue -/

/-- The header of a queue of one slot at the address given, format 1. -/
def header (slots : Nat) : List Byte :=
  leBytes 8 1 ++ leBytes 8 0 ++ leBytes 4 1 ++ leBytes 4 1 ++ leBytes 8 slots ++ List.replicate 32 0

/-- A launch queue of job 9. -/
def aQueue : LaunchQueue :=
  { hdr := 0x100000000000, job := 9, prio := 0, msix := none, weight := 1, wd1 := 10, wd2 := 100, wd3 := 1000, dies := 0xFFF, live := true, stopped := false, done := [] }

/-- The core at rest with that queue, whose header is at 0x1000_0000_0000 and whose slot, at +64, holds the packet given; a domain
record's header at +128 and its entries behind it. -/
def launchingOn (hdr packet record entries : List Byte) : State :=
  let s := withBytes (withBytes (mapped { start [] with mod := { paged.mod with queues := [aQueue], launches := [] } }) (hbmLoc + 0x200000) hdr) (hbmLoc + 0x200040) packet
  withBytes s (hbmLoc + 0x200080) (record ++ entries)

/-- A domain record's header of one entry: its kind, its gang bitmap's address, its image's address and length. -/
def recordOf (kind gang img len : Nat) : List Byte :=
  leBytes 4 kind ++ leBytes 4 1 ++ leBytes 8 gang ++ leBytes 8 img ++ leBytes 4 len ++ leBytes 4 0

/-- The same with a domain of one cluster. -/
def launching (hdr packet : List Byte) : State := launchingOn hdr packet (recordOf 1 0 0 0) [0, 0, 0, 1, 1, 0, 0, 0]

/-- A launch of one group on one cluster at entry 0x1000_0000_1000, of a job. -/
def packetOf (job : Nat) : List Byte :=
  leBytes 4 1 ++ leBytes 4 0x201 ++ leBytes 8 0x100000001000 ++ leBytes 4 1 ++ leBytes 4 job ++ leBytes 8 0x100000000080 ++ List.replicate 32 0

/-- A queue's head is a packet. -/
def headIsPacket (h : Head) (p : List Byte) : Bool :=
  match h with
  | .packet _ raw => decide (raw = p)
  | _ => false

/-- A queue's head is broken. -/
def headIsBroken (h : Head) : Bool :=
  match h with
  | .broken => true
  | _ => false

/-- Whether a launch was accepted, or the reason why not. -/
def verdict (e : Except Nat Launch) : Nat :=
  match e with
  | .ok _ => 0
  | .error r => r

/-- LaunchPackets: a packet that is accepted, one of another job, a no-op and a header that is not well formed. -/
theorem meets_launch_packets :
    let s (p : List Byte) := launching (header 0x100000000040) p
    let q := aQueue
    let noop := leBytes 4 1 ++ List.replicate 60 (0 : Byte)
    consumedQueue (s []) 0 = some q ∧ headIsBroken (queueHead (launching (List.replicate 64 0) []) q) = true ∧
    headIsPacket (queueHead (s noop) q) noop = true ∧ headIsPacket (queueHead (s (packetOf 9)) q) (packetOf 9) = true ∧
    rfield noop 4 4 % 8 = 0 ∧ rfield (packetOf 9) 4 4 % 8 ≠ 0 := by decide

/-- A packet of job 9 with flags, groups, a domain record's address and a start tick. -/
def packetWith (flags groups da start : Nat) : List Byte :=
  leBytes 4 1 ++ leBytes 4 flags ++ leBytes 8 0x100000001000 ++ leBytes 4 groups ++ leBytes 4 9 ++ leBytes 8 da ++ List.replicate 16 0 ++
    leBytes 8 start ++ List.replicate 8 0

/-- LaunchPackets: a packet for each reason of R336's table in its order, and those that are accepted. -/
theorem meets_launch_verdicts :
    let q := aQueue
    let s := launching (header 0x100000000040) []
    let f (s : State) : State := { s with mod := { s.mod with featAcc := #v[0x3FF, 0, 0, 0] } }
    let on (r : List Byte) : State := launchingOn (header 0x100000000040) [] r [0, 0, 0, 1, 1, 0, 0, 0]
    let v (s : State) (p : List Byte) := verdict (acceptLaunch s q 1 p)
    let good := packetWith 0x201 1 0x100000000080 0
    (packetOk [] = false ∧ packetOk (packetOf 8) = true ∧ rfield (packetOf 8) 0x14 4 ≠ q.job) ∧
    (packetOk good = true ∧ rfield good 0x14 4 = q.job ∧ jobRead s q.job 0x100000000080 32 = some (recordOf 1 0 0 0) ∧ regionOf 0x100000000080 = .hbm) ∧
    (v s [] = 1 ∧ v s (packetOf 8) = 2 ∧ v s (packetWith 0x211 1 0x100000000080 0) = 3 ∧ v s (packetWith 0x201 1 0x100000000081 0) = 4 ∧
      v s (packetWith 0x201 1 0x1FFFE0000000 0) = 9) ∧
    (v (on (recordOf 1 0x100000000800 0 0)) good = 3 ∧ v (on (recordOf 2 0 0 0)) good = 4 ∧
      v (withBytes s (hbmLoc + 0x3FFFE0) (recordOf 1 0 0 0)) (packetWith 0x201 1 0x1000001FFFE0 0) = 9 ∧
      v (launchingOn [] [] (recordOf 1 0 0 0) [0, 0, 0, 0, 1, 0, 0, 0]) good = 4 ∧ verdict (acceptLaunch s { q with dies := 0 } 1 good) = 4) ∧
    (v s (packetWith 0x209 9 0x100000000080 0) = 5 ∧ v s (packetWith 0x209 8 0x100000000080 0) = 0 ∧
      v (f s) (packetWith 0x211 1 0x100000000080 0) = 6 ∧ v (f s) (packetWith 0x221 1 0x100000000080 0) = 7 ∧
      v (f s) (packetWith 0x221 1 0x100000000080 1) = 0 ∧ v (on (recordOf 1 0 0x1FFFE0000000 64)) good = 9 ∧
      v (on (recordOf 1 0 0x100000000800 64)) good = 0 ∧ v s good = 0) := by
  decide +kernel

/-- LaunchPackets: a completion record in one block, whose page its own bytes do not move. -/
theorem meets_record :
    let s := launching (header 0x100000000040) []
    MemoryInv s ∧ 0x100000000430 % 8 = 0 ∧ 0x100000000430 % 64 ≤ 48 ∧ jobLoc s 9 0x100000000430 true = some (hbmLoc + 0x200430) ∧
    jobLoc (store s (hbmLoc + 0x200434) (List.replicate 12 7)) 9 0x100000000430 true = some (hbmLoc + 0x200430) :=
  ⟨memoryInv_of (by decide) rfl rfl rfl, by decide, by decide, by decide, by decide⟩

/-- LaunchLife: a launch that may be granted, one that waits for its tick, with a gang that has come and one that has not; an ended
and a done launch. -/
theorem meets_launch_life :
    let l := paged.mod.launches[0]'(by decide)
    let v (k : Launch) : State := { start [] with mod := { paged.mod with launches := [k] } }
    let fresh := { l with granted := false, started := false }
    let timed := { fresh with startTick := some 5, gang := [0, 3] }
    let found (k : Launch) := (v k).mod.launches.find? fun x => decide (x.id = 1)
    found fresh = some fresh ∧ ((v fresh).core.launch = none ∧ (v fresh).core.fenced = false ∧ fresh.ended = false ∧ fresh.granted = false ∧
      (v fresh).mod.frozen = false ∧ fresh.domain.idxOf (corePid (v fresh)) < fresh.domain.length ∧ mayServe (v fresh) fresh = true ∧ fresh.n ≤ 2 ^ 20) ∧
    (timed.startTick = some 5 ∧ timed.started = false ∧ timed.ended = false ∧ gangReady (v timed) timed = false ∧
      gangReady (v { timed with accepted := [3] }) { timed with accepted := [3] } = true) ∧
    (3 ∈ timed.gang ∧ 3 ∉ timed.accepted ∧ timed.gang ≠ [] ∧ timed.result = none ∧ 5 ≤ (v timed).mod.tick.toNat + 10000 ∧
      ¬ (10001 : Nat) ≤ (v { timed with startTick := some 10001 }).mod.tick.toNat + 10000) ∧ { l with result := some (1, 8) }.result.isSome = true ∧
    partDone (withCore paged fun c => { c with groupLive := false, nextGroup := 1 }) l = true ∧ (jobEntry paged l.job).isSome = true := by decide

/-- LaunchLife: a retired job without launches. -/
theorem meets_retirement :
    let s := { start [] with mod := { paged.mod with launches := [], jobs := paged.mod.jobs.map fun (j : JobEntry) => { j with retired := true } } }
    (∃ j ∈ s.mod.jobs, j.id = 9 ∧ j.retired = true) ∧ ∀ l ∈ s.mod.launches, l.job ≠ 9 := by decide

/-- A control queue of one slot at 0x8000 of device memory, its command with the operands given, beside the launch queue's header. -/
def controlled (op : Nat) (args : List Byte) : State :=
  let c := leBytes 4 1 ++ [BitVec.ofNat 8 op, 0, 0, 0] ++ leBytes 8 0 ++ args ++ List.replicate (48 - args.length) 0
  let s := withBytes (mapped paged) (hbmLoc + 0x200000) (header 0x100000000040)
  withBytes (withBytes { s with mod := { s.mod with ctlq := 0x8000 } } (hbmLoc + 0x8000) (header 0x8040)) (hbmLoc + 0x8040) c

/-- The opcode at the head of the control queue, with whether its operands lie in the ranges given. -/
def headOp (s : State) (used : List (Nat × Nat)) : Option (Nat × Bool) :=
  (ctlHead s).map fun h => (rfield h.2 4 1, operandsOk h.2 used)

/-- ControlAndFreeze: each command at the head of the queue, the terms of JOBNEW, UNREGQ and KILL. -/
theorem meets_commands :
    let new := controlled 1 (leBytes 4 7 ++ leBytes 4 0 ++ leBytes 8 0x5000 ++ leBytes 8 0 ++ leBytes 8 0x100000 ++ leBytes 8 0x1000)
    headOp (controlled 0 []) [] = some (0, true) ∧ headOp (controlled 8 []) [] = some (8, true) ∧ headOp new [(0x10, 4), (0x18, 32)] = some (1, true) ∧
    ((∀ j ∈ new.mod.jobs, j.id ≠ 7) ∧ 0x5000 % 4096 = 0 ∧ 0x5000 < hbmSize ∧ 0x100000 + 0x1000 ≤ hbmSize) ∧
    headOp (controlled 2 []) [] = some (2, true) ∧ headOp (controlled 3 (leBytes 8 0x100000)) [(0x10, 8)] = some (3, true) ∧
    headOp (controlled 4 (leBytes 4 9)) [(0x10, 4)] = some (4, true) ∧ (jobEntry (controlled 4 []) 9).isSome = true ∧ headOp (controlled 5 []) [] = some (5, true) := by
  decide

/-- ControlAndFreeze: the terms of REGQ and of PUBREG, kept. -/
theorem meets_registrations :
    let reg := controlled 2 (leBytes 8 0x100000000000 ++ leBytes 4 9 ++ [3, 0] ++ leBytes 2 1 ++ leBytes 2 10 ++ leBytes 2 0 ++ leBytes 2 20 ++ leBytes 2 0xFFF)
    let pub := controlled 5 (leBytes 8 0x100000000440 ++ leBytes 4 9 ++ leBytes 4 0 ++ leBytes 8 0x300000 ++ leBytes 8 0x100000010000 ++ leBytes 8 0x10000)
    (headOp reg [(0x10, 24)] = some (2, true) ∧ jobRead reg 9 0x100000000000 64 = some (header 0x100000000040) ∧
      (qHeader (header 0x100000000040)).ok = true ∧ (jobEntry reg 9).isSome = true ∧ increasing [10, 20] = true ∧ 0xFFF < 4096) ∧
    (headOp pub [(0x10, 12), (0x20, 24)] = some (5, true) ∧ (jobLoc pub 9 0x100000000440 false).isSome = true ∧ (jobEntry pub 9).isSome = true ∧
      0x300000 + 0x10000 ≤ hbmSize ∧ regionOf 0x100000010000 = .hbm ∧ regionOf 0x100000000440 = .hbm ∧
      0x100000010000 + 0x10000 ≤ regionEnd .hbm) := by decide

/-- ControlAndFreeze: FREEZE and RESUME at the head of the queue, and a freeze and a resumption on their way, with the core there and
with it fenced. -/
theorem meets_freezing :
    let c : TickCmd := { tick := 5, seq := 1, compl := 0, map := 0, bufs := [] }
    let im : Image := { bufs := [], tick := 5, saved := [], jobs := [], queues := [], launches := [], pubs := [], mem := [], descs := [], poison := [] }
    let f := { start [] with mod := { (start []).mod with freeze := some c, freezing := true } }
    let l := paged.mod.launches[0]'(by decide)
    let r := { start [] with mod := { paged.mod with frozen := true, resume := some c, image := some im } }
    let z := withCore r fun k => { k with fenced := true }
    let o := controlled 7 (leBytes 8 0)
    (headOp (controlled 6 (leBytes 8 0)) [(0x10, 20)] = some (6, true) ∧ (controlled 6 []).mod.frozen = false ∧
      headOp (controlled 6 (List.replicate 48 1)) [(0x10, 20)] = some (6, false)) ∧
    headOp o [(0x10, 20), (0x28, 8)] = some (7, true) ∧ imageBufs o 0 0 = [] ∧ im.bufs = [] ∧ r.mod.image = some im ∧ (start []).mod.image = none ∧
    (f.mod.freeze = some c ∧ f.mod.frozen = false ∧ c.tick < 2 ^ 64 ∧ f.mod.freezing = true ∧ f.core.launch = none) ∧
    (r.mod.resume = some c ∧ im.bufs = c.bufs ∧ c.map = 0 ∧ ∀ k ∈ r.mod.launches, k.ended = true ∨ coresThere r k = true) ∧
    (z.mod.launches = [l] ∧ l.ended = false ∧ coresThere z l = false ∧ l.id ∈ ({ im with launches := [l] } : Image).launches.map (fun x => x.id)) ∧
    (∃ k ∈ r.mod.launches, k.id ∉ im.launches.map fun x => x.id) ∧ MemoryInv f := by
  refine ⟨by decide, by decide, rfl, rfl, by decide, by decide, by decide, ⟨rfl, rfl, rfl, ?_⟩, by decide, by decide, memoryInv_of rfl rfl rfl rfl⟩
  decide

/-- ControlAndFreeze: a RESUME of buffers that hold no image, where what they hold is none. -/
theorem meets_no_image (h : Config.foreignImage [] 1 = none) : (start []).mod.image = none ∧ Config.foreignImage [] 1 = none := ⟨rfl, h⟩

/-- ControlAndFreeze: whatever time has passed, the tick 0 does not lie ahead, and one more than the counter does unless it is the last. -/
theorem meets_freeze_ticks (h' : (observeTick (start [])).mod.tick.toNat + 1 < 2 ^ 64) :
    let n := (observeTick (start [])).mod.tick.toNat
    rfield (leBytes 8 0) 0 8 ≤ n ∧ n < (BitVec.ofNat 64 (n + 1)).toNat := by
  refine ⟨Nat.zero_le _, ?_⟩
  show (observeTick (start [])).mod.tick.toNat < _
  rw [BitVec.toNat_ofNat, Nat.mod_eq_of_lt h']; omega

/-! ### The host, the links and the controller -/

/-- HostAndLinkResults: registered and not, a pending command, a claimed slot that is not valid, the last bytes of device memory. -/
theorem meets_host :
    let reg := { start [] with mod := { (launching [] []).mod with launches := [] } }
    let claimed := withBytes (start []) hbmLoc (header 0x40)
    let sp (stage : Nat) := { (start []).mod.spaly with stage := stage }
    let b (stage : Nat) := { start [] with mod := { (start []).mod with spaly := sp stage, hosts := Vector.replicate 4 { up := false, perst := false } } }
    hostAnswers (start []) = true ∧ queueRegistered reg = true ∧ queueRegistered (start []) = false ∧ ctlPending (start []) = false ∧
    ctlPending (controlled 0 []) = true ∧ (0x40 : Word).toNat % 64 = 0 ∧
    ((ctlHeader claimed).any (fun h => decide (h.widx ≠ h.ridx)) = true ∧ ctlHead claimed = none ∧ claimed.mod.ctlBusy = false) ∧
    ((start []).mod.jobs = [] ∧ (hbmSize - 8) + 8 ≤ hbmSize ∧ hostAnswers paged = true ∧ (start []).mod.frozen = false ∧ [(1 : Byte)] ≠ [] ∧ (hbmSize - 8) % 8 = 0) ∧
    ({ start [] with mod := { (start []).mod with frozen := true } }.mod.frozen = true ∧ ((start []).mod.hosts[0]).perst = false) ∧
    (((b 6).mod.hosts[3]).perst = false ∧ (b 6).mod.spaly.standby = true ∧ (b 6).mod.spaly.stage ≠ 7 ∧
      ∀ q : Fin 4, ((b 7).mod.hosts[q.val]).up = false) := by decide

/-- HostAndLinkResults: the last bytes of device memory lie in no packed or protected page of a job whose tables map none. -/
theorem meets_plain_pages : paged.mod.jobs ≠ [] ∧ ∀ i, i < 8 → markedPage paged (hbmSize - 8 + i) = none := by decide +kernel

/-- HostAndLinkResults: device memory is canonical at first. -/
theorem meets_host_memory : MemoryInv (start []) := memoryInv_of rfl rfl rfl rfl

/-- A machine whose port 31 is open, with an unacknowledged flit. -/
def linked (unacked : List (List Byte)) : State :=
  setPort (start []) 31 { podPort (start []) 31 with up := true, unacked := unacked }

/-- HostAndLinkResults: a good flit and a damaged one, of each type, and a port with a flit in its store. -/
theorem meets_links :
    let f (t : Nat) := makeFlit { type := t, dest := 0, src := 1, seq := 0, ack := 0xFFF, credits := 5 } []
    (podPort (linked []) 31).up = true ∧ ((f 0).length = 128 ∧ flitOk (f 0) = true ∧ (flitHeader (f 0)).seq = (podPort (linked []) 31).recvSeq) ∧
    ((flitHeader (f 0)).type = 0 ∧ (flitHeader (f 1)).type = 1 ∧ (flitHeader (f 2)).type = 2 ∧ (flitHeader (f 3)).type = 3 ∧ (flitHeader (f 4)).type = 4) ∧
    ((List.replicate 128 (1 : Byte)).length = 128 ∧ flitOk (List.replicate 128 1) = false) ∧
    ((start []).mod.spaly.standby = true ∧ 6 ≤ (start []).mod.spaly.stage) ∧
    (let g := flitHeader (makeFlit { type := 0, dest := 0, src := 1, seq := 0, ack := 0, credits := 5 } [])
      let x := { podPort (linked [f 0]) 31 with sendSeq := 1 }
      let first := (x.sendSeq + 4096 - x.unacked.length % 4096) % 4096
      0 < 1 ∧ 1 ≤ x.unacked.length ∧ g.ack = (first + 1 + 4095) % 4096 ∧ (flitHeader (f 0)).ack < 4096 ∧
        (flitHeader (f 0)).ack ≠ (first + 1 + 4095) % 4096) ∧
    ((podPort (linked [f 0]) 31).unacked ≠ [] ∧ (linked [f 0]).clu.jobs = [] ∧ (podPort (start []) 31).up = false) := by decide

/-- PowerResults: no standby power, a sound bank and one that is not, a boot under way, readings and an image at the limits. -/
theorem meets_power :
    let p := (start []).mod.spaly
    let bad := { p with banks := p.banks.set 0 { image := [], signed := false } }
    p.standby = true ∧ (p.banks[p.next.val]).signed = true ∧ (bad.banks[bad.next.val]).signed = false ∧ { p with standby := false }.standby = false ∧
    (p.rails[76]?.any (fun x => x.good) = true ∧ p.rails[77]? = none) ∧
    (({ p with stage := 4 }).stage ≠ 0 ∧ ({ p with stage := 4 }).stage < 5 ∧ (p.banks[1]).signed = true) ∧
    (∃ i, i < p.clocks.length ∧ 115 ≤ [20, 115].getD i 0) ∧ (3000 ≤ 6400 ∧ 6400 ≤ 6400 ∧ 6400 % 50 = 0) ∧ ([7] : List Byte).length ≤ 96 * 2 ^ 20 := by
  refine ⟨by decide, by decide, by decide, by decide, by decide, by decide, ⟨1, by decide⟩, by decide, by decide⟩

/-- PowerResults: an image that no bank has room for. -/
theorem meets_large_image : 96 * 2 ^ 20 < (List.replicate (96 * 2 ^ 20 + 1) (0 : Byte)).length := by
  rw [List.length_replicate]; omega

/-- PowerResults: readings below 115 degrees everywhere. -/
theorem meets_cool : ∀ i, [114, 105].getD i 0 < 115 := by
  intro i; match i with
  | 0 => decide
  | 1 => decide
  | _ + 2 => exact (by decide : 0 < 115)

/-! ### Every instruction -/

/-- PendingRegistersAreAwaited: ADD of a pending register, behind no WIDE. -/
theorem meets_pending :
    let p := (start []).setCtx 0 { (start []).ctx 0 with pend := ((start []).ctx 0).pend.set 3 (some 0) }
    widePayload p = none ∧ 3 ∈ gNamed (.add ⟨3, 4, 5⟩) ∧ isPending p p.cur 3 = true := by decide

/-- OtherRegistersAreKept, VectorsAndControlRegistersAreKept, OtherMemoryIsKept: instructions that go on, a store among them, and what
they exclude. -/
theorem meets_kept :
    let a : Instr := .add ⟨3, 4, 5⟩
    let st : Instr := .sx ⟨0, 4, 3⟩
    0 < a.len ∧ isFullEmpty a = false ∧ (0 < (Instr.ccancel 3).len ∧ ∃ t, exec (.ccancel 3) (queued (aJob .tcap)) = .next t ∧
      ((queued (aJob .tcap)).ctx 0).pend[3] = some 0 ∧ findJob (queued (aJob .tcap)) 0 = some (aJob .tcap) ∧ running (aJob .tcap) = false) ∧ (∀ x y z, a ≠ .hstart x y z) ∧ (∀ x y, a ≠ .csrwr x y) ∧
    (∃ t, exec a (start []) = .next t) ∧ writesVector a = false ∧ tripled (start []) = false ∧ storesNothing a = true ∧
    (∃ t, exec st (start [(4, 0x100)]) = .next t) ∧ (start [(4, 0x100)]).feQueue = [] ∧ ∃ loc, ∀ r ∈ storedRuns (start [(4, 0x100)]) st, ¬ (r.1 ≤ loc ∧ loc < r.1 + r.2) := by
  refine ⟨by decide, by decide, ⟨by decide, _, rfl, rfl, by decide, rfl⟩, ?_, ?_, ⟨_, rfl⟩, by decide, by decide, by decide, ⟨_, rfl⟩, rfl, 0, by decide⟩
  · intro x y z h; cases h
  · intro x y h; cases h

/-! ### Further clauses -/

/-- IssueSelection: several contexts ready, none ready, and forms that a unit or a launch's features refuse. -/
theorem meets_issue :
    let a := withCode (start []) 0x17
    let b := inUnit (withCode (start []) 0xFFE04345) true none
    let u : UnitForm := { start := 0xFE, triple := true, wide := none }
    (ready two 0 = true ∧ ready two 3 = true ∧ (3 : Fin 8) ≠ two.cur ∧ two.core.stepping = none) ∧
    (∀ d, ready (waiting (start []) .cycles) d = false) ∧
    (b.core.unit = some u ∧ unitAccepts u 0xFFE04345 = false) ∧ (a.core.unit = none ∧ featuresOk (withInsn a 0x17) 0x17 = false) ∧
    (0x17 % 2 = 1 ∧ 0x000E % 2 = 0 ∧ 0x000E < 2 ^ 16) := by decide

/-- OperandBreachesFault: each way a vector destination is named, the loads aligned and the handle filled. -/
theorem meets_bad_destinations :
    let l : MemV := ⟨0, 4, 3⟩
    RegsFree ringed [4] [] ∧ RegsFree ringed [4, pairReg 4] [] ∧ VecsSound ringed (maskCode 1 ++ mergeReads 3 1) ∧
    (getG ringed 0 l.base + BitVec.ofInt 64 (l.disp.toInt * 32)).toNat % 32 = 0 ∧
    (getHandle ringed 0 5 = some topRing ∧ 0 % topRing.size + 32 ≤ topRing.size ∧ 1 ≤ topRing.count ∧ 0 + 32 ≤ 1 * topRing.size) := by
  simp only [RegsFree, VecsSound]; decide

/-- LoadAndStoreResults: handle-mode accesses of every size that find too few slots filled, and too few free. -/
theorem meets_handle_waits :
    (∀ n ∈ [1, 2, 4, 8, 32], getHandle ringed 0 5 = some topRing ∧ 0 % topRing.size + n ≤ topRing.size ∧ 2 ≤ topRing.count ∧
      0 + n ≤ 2 * topRing.size ∧ topRing.fill < 2 ∧ topRing.count - topRing.fill < 2) ∧
    VecsSound ringed [13] ∧ VecsSound ringed ([13] ++ maskCode 1) ∧ (¬ ∀ j, j < 32 → maskBit ringed 0 1 j = false) := by
  simp only [VecsSound]
  refine ⟨by decide, by decide, by decide, fun h => absurd (h 31 (by decide)) (by decide)⟩

/-- AtomicAccessResults: CAS on the host window, its completion awaited and there, its expected value met and not. -/
theorem meets_host_cas :
    let c := paged.setCtx 0 { paged.ctx 0 with expired := true }
    RegName.g 7 ∉ (paged.ctx 0).poisoned ∧ RegName.g 6 ∉ (c.ctx 0).poisoned ∧ c.core.twin = none ∧ RegsFree c [5, 4] [7] ∧ RegsFree c [5, 4] [6] ∧
    leNat (readBytes c (hostLoc + 0x200008) 8) = (getG c 0 7).toNat % 2 ^ 64 ∧ leNat (readBytes c (hostLoc + 0x200008) 8) ≠ (getG c 0 6).toNat % 2 ^ 64 ∧
    LoadReady c 0x800000000008 8 8 [(hostLoc + 0x200008, 8)] := by
  refine ⟨by decide, by decide, rfl, ?_, ?_, by decide, by decide, loadReady_of rfl rfl rfl rfl rfl⟩ <;> (simp only [RegsFree]; decide)

/-- FullEmptyResults, FullEmptyRequestsWait: tags of good parity at the top of the scratchpad; a full word for a PUT, a word behind
another's request, and a home with 64 requests. -/
theorem meets_full_empty_waits :
    let s := start [(3, 0x1FFF8), (4, 5)]
    let f := { s with tags := [0x7FFE, 0x7FFF] }
    let q : FeReq := { kind := .peek, loc := 0x1FFF8, size := .w, value := 0, origin := .remote 4, mode := plainMode, die := 0, clock := [], release := none }
    (s.poison = [] ∧ regionOf 0x1FFF8 = .spad ∧ 0x1FFF8 + 8 ≤ 0x20000 ∧ 0x1FFF8 % 8 = 0) ∧ (∃ w ∈ [0x7FFE], w ∈ f.tags) ∧
    (∃ p ∈ { s with feQueue := [q] }.feQueue, p.loc = 0x1FFF8 ∧ p.kind = .peek) ∧ 64 ≤ queuedAtHome { s with feQueue := List.replicate 64 q } 0x1FFF8 := by
  decide

/-- FullEmptyRequestsWait: another core's request at the last word, full and empty, of each kind, and at a sealed and a fenced core. -/
theorem meets_remote_kinds :
    let s := start []
    let f := { s with tags := [0x7FFF] }
    let r (k : FeKind) : RemoteFe := { kind := k, word := 0x1FFFC, size := .w, value := 9, origin := 4, die := 1, clock := [0, 1], job := none }
    MemoryInv s ∧ (∀ k ∈ [FeKind.fill, .drain, .take, .peek, .put, .tryTake, .tryPut], (r k).word + 4 ≤ 0x20000 ∧ (r k).kind = k) ∧ s.feQueue = [] ∧
    0x7FFF ∈ f.tags ∧ 0x7FFF ∉ s.tags ∧ queuedAtHome s 0x1FFFC < 64 ∧ s.core.sealed = false ∧ s.core.fenced = false ∧
    (withCore s fun c => { c with sealed := true }).core.sealed = true ∧ (withCore s fun c => { c with fenced := true }).core.fenced = true :=
  ⟨memoryInv_of rfl rfl rfl rfl, by decide, rfl, by decide⟩

/-- A published buffer's PUBL, the buffer's flags and shape given. -/
def publishing (flags : Byte) (f : PubBuf → PubBuf) (jobs : List Job) : State :=
  let s := withBytes (waiting published .publish) 0x100000100058 [flags]
  { s with mod := { s.mod with pubs := s.mod.pubs.map f }, clu := { s.clu with jobs := jobs } }

/-- TimeAndPublishedBufferResults: a buffer that is not valid, a closed one with its shadow free, tainted, and in use, and one that
another PUBL has just opened, before and after the commands that wait have started. -/
theorem meets_publ_swaps :
    let shut (p : PubBuf) : PubBuf := { p with closed := true }
    let bound : Job := { aJob .tcfg with started := true, shadows := [0x100000000040] }
    let next := aJob (.cpy ⟨0, false, .none, false, .none, 3, 3⟩)
    let held := publishing 1 id [{ next with record := [] }]
    let p0 : PubBuf := { desc := 0x100000000040, job := 9, front := 0x100000010000, len := 0x10000, shadow := 0x300000, swapped := false, closed := false,
                         waiting := [(0, 7, .pod)] }
    leNat ((runsBytes (publishing 0 id []) [(0x100000100040, 64)]).drop 0x18) % 2 = 0 ∧
    ((publishing 1 shut []).mod.pubs = [shut p0] ∧ (shut p0).closed = true ∧ shadowBusy (publishing 1 shut []) (shut p0) = false) ∧
    ((publishing 3 shut []).mod.pubs = [shut p0] ∧ readLoc (publishing 3 shut []) 0x100000100058 8 = 3 ∧ (tlbFind (publishing 3 shut []) (shut p0).desc).isSome = true ∧
      hbmLoc + 0x300000 > 0x100000100060) ∧
    shadowBusy (publishing 1 shut [bound]) (shut p0) = true ∧ (held.mod.pubs = [p0] ∧ p0.closed = false) ∧ reopening (publishing 1 id []) p0 = false ∧
    readLoc (publishing 1 shut []) 0x100000100058 8 = 1 := by
  decide

/-- BarrierAndExchangeResults: a pending split and another member's, within the limit and past it, and a phase that has been aborted. -/
theorem meets_splits :
    let s := (withCore paged fun c => { c with split := some (5, 1) }).setCtx 0 { paged.ctx 0 with wait := some (.barrier 1 .all), contributed := true }
    let m : SplitMember := { lid := 1, rank := 1, colour := 5, key := 0 }
    ((s.ctx 0).wait = some (.barrier 1 .all) ∧ (s.ctx 0).contributed = true ∧ s.core.frozen = false ∧ s.core.split ≠ none ∧ s.core.lid < 2 ^ 20) ∧
    (m.lid < 2 ^ 20 ∧ m.lid ≠ s.core.lid) ∧ (∀ c : BitVec 32, ((5 : BitVec 32) :: [m].map fun m => m.colour).count c ≤ 4096) ∧
    (∀ n, n < ((5 : BitVec 32) :: (List.replicate n m).map fun m => m.colour).count 5) ∧
    (withCore (exchanging 1) fun c => { c with aborted := true }).core.aborted = true := by
  refine ⟨by decide, by decide, fun c => Nat.le_trans List.count_le_length (by decide), fun n => ?_, rfl⟩
  rw [List.map_replicate, List.count_cons_self, List.count_replicate_self]
  exact Nat.lt_succ_self n

/-- The exchange with both inbound slots full and an overflow ring of two packets at the address given. -/
def overflowing (base : Word) (n : Nat) (out : Option Packet) : State :=
  withCore (exchanging 2) fun c => { c with xspillBase := base, xspillSize := 2, ovCount := n, outgoing := out }

/-- BarrierAndExchangeResults: a core without a group and one that has withdrawn; a packet held in the router; a packet in the overflow
ring, room there in a page that may be written and in one that is not there; no room at all; this core's own packet and another's. -/
theorem meets_overflow :
    let s := overflowing 0x100000000800 1 none
    let e := withCore s fun c => { c with inCount := 0 }
    let gone := withCore (exchanging 0) fun c => { c with withdrawn := [0] }
    let bad := overflowing 0x100000020000 0 none
    let p : Packet := { module := 0, lid := 0, payload := 7 }
    let own := withCore (exchanging 1) fun c => { c with outgoing := some p }
    let f : Flt := { cls := .pageFault, addr := 0x100000020000 }
    (curLaunch (exchanging 0)).any (fun l => decide (min l.n l.groups ≤ 1)) = true ∧ 0 ∈ gone.core.withdrawn ∧ destOk gone 0 0 = false ∧ own.core.outgoing ≠ none ∧
    (e.core.inCount = 0 ∧ 0 < e.core.ovCount ∧ checkRead e 0x100000000800 32 = .ok [(hbmLoc + 0x100800, 32)] ∧ e.core.twin = none ∧
      (runsBytes e [(hbmLoc + 0x100800, 32)]).length = 32) ∧
    (¬ (s.core.ovCount = 0 ∧ s.core.inCount < 2) ∧ s.core.ovCount < 2 ∧ regionOf 0x100000000820 = .hbm ∧
      translateCore s 0x100000000820 true = .ok (hbmLoc + 0x100820) ∧ hbmLoc ≤ hbmLoc + 0x100820) ∧
    (regionOf 0x100000020000 = .hbm ∧ translateCore bad 0x100000020000 true = .error f ∧ routerStuck bad = false ∧ ¬ bad.core.inCount < 2) ∧
    ¬ (overflowing 0x100000000800 2 none).core.ovCount < 2 ∧
    (own.core.arriving = [] ∧ own.core.outgoing = some p ∧ p.module = own.mod.modnum ∧ p.lid = own.core.lid ∧ own.core.inCount < 2) ∧
    ({ p with lid := 1 }.lid ≠ own.core.lid) ∧ (overflowing 0x100000000800 2 (some p)).core.outgoing = some p ∧
    MemoryInv s ∧ s.core.sealed = false := by
  refine ⟨by decide, by decide, by decide, by decide, ⟨rfl, by decide, rfl, rfl, rfl⟩, ⟨by decide, by decide, by decide, rfl, by decide⟩,
    ⟨by decide, rfl, by decide, by decide⟩, by decide, by decide, by decide, by decide, memoryInv_of rfl rfl rfl rfl, rfl⟩

/-- A started job with its operands and the record that it read. -/
def runs (c : Cmd) (a b : Word) (rec : List Byte) : Job := { aJob c with a := a, b := b, record := rec, started := true }

/-- A started job that nothing holds back. -/
theorem unhindered_of {s : State} {j : Job} (h : s.clu.jobs = [j]) (h1 : running j = true) (h2 : j.id = 0) (h3 : j.remote = none)
    (h4 : j.sreg ≠ 0) (h5 : (s.ctx j.ctx).pend[j.sreg.val] = some 0) (h6 : j.shadows = []) (h7 : s.core.twin = none)
    (h8 : s.core.fenced = false) (h9 : s.vis = .settled 0) : Unhindered s 0 j := by
  refine ⟨?_, h1, h3, h4, h5, h6, ?_, ?_, h8, ?_⟩
  · simp [findJob, h, h2]
  · simp [awaitsTwin, h7]
  · simp [inTurn, h]
  · simp only [jobMisses, h9, Visibility.settled]; cases j.cmd <;> rfl

/-- EngineCommandsEnter: a misaligned operand beside an aligned one, one limit broken, and g0 for the status register. -/
theorem meets_command_faults :
    let s := start [(3, 0x1FFE1), (4, 0x1FFC0), (5, 0x20000), (6, 65)]
    let A (r : GReg) := (getG s 0 r).toNat
    RegsFree s [0, 3, 4] [] ∧ [((3 : GReg), 64), (4, 64)].find? (fun p => decide (A p.1 % p.2 ≠ 0)) = some (3, 64) ∧
    [((4 : GReg), 64), (5, 64)].find? (fun p => decide (A p.1 % p.2 ≠ 0)) = none ∧ ¬ A 5 < 0x20000 ∧ ¬ A 6 ≤ 64 ∧
    ((3 : Fin 8) ≠ 0 ∧ notCoResident crowded = true ∧ (exchanging 0).core.phase.isSome = true) := by
  simp only [RegsFree]; decide

/-- JobsStartAndEnd: a job whose turn it is, one that misses a page, before and after the masthead knows, one on a fenced core; a copy
that runs, a tile job that runs and a CRED, for CCANCEL; and no pending job. -/
theorem meets_more_jobs :
    let run (c : Cmd) := { aJob c with started := true }
    let far := { run .tcbt with a := 0x100000020000 }
    let y : CpyArgs := ⟨0, false, .none, false, .none, 3, 3⟩
    let q (j : Job) : Job × State := (j, queued j)
    (running far = true ∧ inTurn (queued far) far = true ∧ (queued far).core.fenced = false ∧ awaitsTwin (queued far) far = false ∧ far.missed = none ∧ far.cmd ≠ .trem ∧
      perform far [] noLimit (queued far) = some (queued far, .pageAt 0x100000020000, 0)) ∧
    (inTurn (withCore (queued far) fun c => { c with fenced := true }) far = true ∧ (withCore (queued far) fun c => { c with fenced := true }).core.fenced = true) ∧
    ((q (run (.cpy y))).2.ctx 0).pend[3] = some 0 ∧ running (run (.cpy y)) = true ∧ cmdEngine (.cpy y) ≠ .tile ∧ cmdEngine .tcbt = .tile ∧
    ((queued (aJob (.cred 1))).ctx 0).pend[3] = some 0 ∧ (aJob (.cred 1)).status = none ∧ (∀ l, (aJob .tcbt).cmd ≠ .cred l) ∧
    ((start []).ctx 0).pend[3] = none ∧ findJob (queued far) 0 = some far := by
  refine ⟨⟨by decide, by decide, by decide, by decide, by decide, by decide, rfl⟩, by decide, by decide, by decide, by decide, by decide, by decide, by decide,
    (fun l h => by cases h), by decide, by decide⟩

/-- ArrivingCommandsAndEvents: a capability that names another core's tile, and a fenced core. -/
theorem meets_bad_capability :
    let o := observeTick (start [])
    remCommand 0xB3 0 = some (.tzero ⟨false, 0, 0, 0⟩) ∧ capNamesMe o (2 ^ 20) = false ∧ (withCore (start []) fun c => { c with fenced := true }).core.fenced = true := by
  refine ⟨by rfl, ?_, rfl⟩
  have h : capBody (observeTick (start [])) 0 0 / 2 ^ 20 = 0 := by
    have h1 : (observeTick (start [])).core = (start []).core := rfl
    simp only [capBody, h1]
    have h2 : (start []).core.cix = 0 := by decide
    have h3 : (start []).core.row = 0 := by decide
    have h4 : (start []).core.col = 0 := by decide
    have h6 : (start []).core.die = 0 := by decide
    have h7 : (start []).core.modId = 0 := by decide
    simp only [h2, h3, h4, h6, h7]
    omega
  simp only [capNamesMe, h]
  decide

/-! ### What the engines leave -/

/-- Whether a read goes well. -/
def isOk {α : Type} (e : Eng α) : Bool := match e with
  | .ok _ => true
  | .error _ => false

/-- A read that goes well gives something. -/
theorem ok_of_isOk {α : Type} {e : Eng α} (h : isOk e = true) : ∃ a, e = .ok a := by
  cases e with
  | ok a => exact ⟨a, rfl⟩
  | error _ => cases h

/-- Bytes placed at several locations. -/
def placed (s : State) (l : List (Nat × List Byte)) : State := l.foldl (fun s p => withBytes s p.1 p.2) s

/-- A tile slot configured. -/
def tiled (s : State) (slot : Fin 64) (x : TileSlot) : State := withCore s fun c => { c with tiles := c.tiles.set slot (some x) }

/-- A running job alone in its queue, with bytes in memory. -/
def working (c : Cmd) (a b : Word) (rec : List Byte) (l : List (Nat × List Byte)) : State := placed (queued (runs c a b rec)) l

/-- Sixteen rows of sixteen bytes, 1 to 16 and on. -/
def squares : List Byte := (List.range 256).map fun i => BitVec.ofNat 8 (i + 1)

/-- Nothing holds back a job of the states below, and its record stands. -/
theorem meets_unhindered (c : Cmd) (a b : Word) (rec : List Byte) (hc : running (runs c a b rec) = true) :
    Unhindered (queued (runs c a b rec)) 0 (runs c a b rec) ∧ RecordStands (runs c a b rec) :=
  ⟨unhindered_of rfl hc rfl rfl (by decide : (3 : GReg) ≠ 0) rfl rfl rfl rfl rfl, rfl, rfl, rfl⟩

/-- A tile slot 4 of s8 elements at 0x2000 in the state given. -/
def slot4 (unv poi : Bool) (s : State) : State := tiled s 4 { off := 0x2000, fmt := 1, unverified := unv, poisoned := poi }

/-- The boltrope of those squares. -/
def squareBolt : Bolt := tileSums (readTile (withBytes (start []) 0x2000 squares) 0x2000 1)

/-- TileResults: a tile whose lines hold, one with a row and a column that fail and agree, and one with two failing rows. -/
theorem meets_bolt_checks :
    let t := readTile (withBytes (start []) 0x2000 squares) 0x2000 1
    let one := { t with raw := t.raw.set 3 9 }
    let two_ := { one with raw := one.raw.set 20 9 }
    let m := magOf squareBolt
    let fails (u : TileData) := (List.range 16).filter fun i => lineFails u.ty 14 ((tileSums u).row.getD i 0) (squareBolt.row.getD i 0) (m.row.getD i .nan) ((tileSums u).rowMag.getD i 0)
    fails t = [] ∧ fails one = [0] ∧ fails two_ = [0, 1] ∧ diffsAgree one.ty 14 (tileSums one) squareBolt m 0 3 = true ∧
    (checkFix 14 t squareBolt m).1 = .ok ∧ (checkFix 14 one squareBolt m).1 = .fixed ∧ (checkFix 14 two_ squareBolt m).1 = .fail ∧
    (fval .f32 0x3F800000).isFin = true ∧ (fval .f32 0x7F800000).isFin = false := by decide +kernel

/-- A slot to load from rows in the scratchpad, transposed. -/
def loading : State := slot4 true false (working (.tld ⟨false, true, .t8, 0, 4, 5, 3⟩) 0x3000 0x40000 [] [(0x3000, squares)])

/-- A slot of zeros to verify, its state bits and bytes of its boltrope given. -/
def verifying (unv poi : Bool) (l : List (Nat × List Byte)) : State := slot4 unv poi (working (.tvfy ⟨true, 0, 4, 3⟩) 0 4 [] l)

/-- What the check finds of that slot. -/
def found (l : List (Nat × List Byte)) : Fix :=
  let s := verifying false false l
  (checkFix 14 (readTile s 0x2000 1) (tileBolt s 4) (magOf (tileBolt s 4))).1

/-- TileResults: a slot to load from rows in the scratchpad, which bear no code. -/
theorem meets_tile_load : TileAt loading 4 0x2000 1 ∧ (engDesc loading reachTile (0x3000 / 64)).toNat % 256 = 0 ∧ fmtBits 1 = 8 ∧
    ∀ i : Fin 16, isOk (engRead loading reachTile (0x3000 + i * 16) 16) = true := by
  unfold TileAt; decide +kernel

/-- TileResults: slots to verify that are not configured, poisoned and unverified. -/
theorem meets_tile_verify : tilePlace (verifying true false []) 5 = none ∧ tilePoisoned (verifying false true []) 4 = true ∧
    tileUnverified (verifying true false []) 4 = true ∧ tilePoisoned (verifying true false []) 4 = false := by decide +kernel

/-- TileResults: a sound slot. -/
theorem meets_tile_sound :
    let s := verifying false false []
    tileUnverified s 4 = false ∧ tilePoisoned s 4 = false ∧ boltBroken s 4 = false ∧ isOk (engRead s reachSpad 0x2000 256) = true ∧
    jobTol s (runs (.tvfy ⟨true, 0, 4, 3⟩) 0 4 []) 4 = 14 := by
  decide +kernel

/-- TileResults: each outcome of a check, of a boltrope that holds, one wrong in a row and a column, and one wrong in a row. -/
theorem meets_tile_checks : found [] = .ok ∧ found [(boltLoc 4 + 12, [5]), (boltLoc 4 + 72, [5])] = .fixed ∧ found [(boltLoc 4 + 12, [5])] = .fail := by
  decide +kernel

/-- An accumulator to store at 0x4000 as e4m3. -/
def storing : State := working (.tst ⟨false, false, 0, 4, 5, 3⟩) 0x4000 0x0D000000 [] []

/-- TileResults: an accumulator of zeros to store, and to scale. -/
theorem meets_tile_store : TileAt storing 64 accLoc 9 ∧ tileUnverified storing 64 = false ∧ tilePoisoned storing 64 = false ∧
    boltBroken storing 64 = false ∧ tstReach storing ⟨false, false, 0, 4, 5, 3⟩ 0x0D 0x4000 0 = true := by
  unfold TileAt; decide +kernel

/-- TileResults: that accumulator's check. -/
theorem meets_acc_check : (checkFix 20 (readTile storing accLoc 9) (tileBolt storing 64) (magOf (tileBolt storing 64))).1 = .ok := by
  decide +kernel

/-- TileResults: its bytes may be written. -/
theorem meets_acc_write : (engWrite storing reachTile 0x4000 (List.replicate 256 0)).2 = none := by decide +kernel

/-- TileResults: one line to load into the weight buffer, and a pattern table. -/
theorem meets_weight_loads :
    let s := working (.twld ⟨false, 4, 5, 3⟩) 0x3000 0x103FF [] []
    let p := working .tcbt 0x3000 0 [] []
    isOk (engRead s reachTile 0x3000 64) = true ∧ twldCode ((engDesc s reachTile (0x3000 / 64)).toNat % 256) = true ∧ 0x103FF % 2 ^ 10 + 0x103FF / 2 ^ 16 ≤ 1024 ∧
    isOk (engRead p reachTile 0x3000 512) = true := by decide +kernel

/-- TileResults: four e4m3 lines of ones to load with their check, under a record that fails, and a code whose B tile
has another number of lines. -/
theorem meets_checked_weights :
    let s := working (.twld ⟨true, 4, 5, 3⟩) 0x3000 0x40000 [] [(0x3000, List.replicate 256 0x38)]
    let c := setDesc (setDesc (setDesc (setDesc s 0xC0 0x0C) 0xC1 0x0C) 0xC2 0x0C) 0xC3 0x0C
    let at_ (i : Nat) := isOk (engRead c reachTile (0x3000 + 64 * i) 64) && decide ((engDesc c reachTile (0x3000 / 64 + i)).toNat % 256 = 0x0C)
    bLines 0x0C = some 4 ∧ bLines 0 ≠ some 4 ∧ (engDesc s reachTile (0x3000 / 64)).toNat % 256 = 0 ∧ isOk (engRead s reachTile 0x3000 64) = true ∧
    (List.range 4).all at_ = true ∧ isOk (engRead c reachTile 0x3100 256) = true ∧
    (match readB (loadLines c (List.range 4) 0x3000 0).1 0 0x0C with
      | some v => bFails 14 (bVals v) (boltOf (List.replicate 256 0))
      | none => false) = true := by decide +kernel

/-- TileResults: a handle whose oldest slot holds an e4m3 tile, for TMMA that pops it, and one with nothing in it. -/
theorem meets_handle_product :
    let s := working (.tmma ⟨.ovw, true, true, 1, 4, 5, 3⟩) 5 0 [] [(0x2000, List.replicate 256 0x38)]
    let h : Handle := { base := 0x2000, size := 256, count := 2, head := 1, tail := 0, fill := 1 }
    let t := setHandle ((List.range 4).foldl (fun s i => setDesc s (0x80 + i) 0x0C) s) 0 5 (some h)
    getHandle t 0 (Fin.ofNat 8 5) = some h ∧ 0 < h.fill ∧ widthClass 0x0C ≠ 0 ∧ tileBytes (elemCode 0x0C) ≤ h.size ∧
    isOk (engRead t reachSpad 0x2000 (tileBytes (elemCode 0x0C))) = true ∧ (∀ k ∈ blocksOf 0x2000 (tileBytes (elemCode 0x0C)), fmtOf t k = 0x0C) ∧
    getHandle (setHandle s 0 5 (some { h with fill := 0 })) 0 (Fin.ofNat 8 5) = some { h with fill := 0 } := by decide +kernel

/-- A bf16 slot 4 of zeros and eight bf16 lines of the job's in the weight buffer, for TMMA into accumulator 1. -/
def multiplying (ctl : TmmaCtl) (code : BitVec 16) : State :=
  let s := tiled (working (.tmma ⟨ctl, false, false, 1, 4, 5, 3⟩) 4 0 [] []) 4 { off := 0x2000, fmt := 0x0A, unverified := false, poisoned := false }
  { s with clu := { s.clu with wlines := (List.range 8).map fun i => (i, { desc := code, poison := false, job := some (curJobId s) }) } }

/-- TileResults: an A tile and a B tile of widths that agree and that do not, the accumulator it adds to, and the check of its result. -/
theorem meets_products :
    let s := multiplying .acc 0x0A
    let A := slotA s 4 14
    let zeros : TileData := { ty := .flt .f32, raw := List.replicate 256 0, scale := List.replicate 256 none }
    (match A with
      | .ok a => decide (a.fix = .ok) && decide (a.code = 0x0A) && isOk (fetchB a.s 0) && isOk (readChecked a.s 65 20)
      | .error _ => false) = true ∧ widthClass 0x0A = widthClass 0x0B ∧ widthClass 0x0A ≠ 0 ∧ widthClass 0x0A ≠ widthClass 0x0C ∧
    (checkFix 20 zeros (tileSums zeros) (magOf (tileSums zeros))).1 = .ok := by decide +kernel

/-- TileResults: a table of one slot at its limit, one that passes it, a capability's place, and records that TREM takes. -/
theorem meets_tables :
    let t := working .tcfg 0x3000 1 [] [(0x3000, leBytes 4 0x1FF00 ++ [1, 63, 0, 0])]
    let c := working .tcap 0x3000 0x10001 [] []
    let r := working .trem 0 0x3000 [] [(0x3000, [0xB3])]
    isOk (engRead t reachTile 0x3000 8) = true ∧ 0x1FF00 % 64 = 0 ∧ isTileFmt 1 = true ∧ 0x1FF00 + tileBytes 1 ≤ 0x20000 ∧ 0x20000 < 0x1FF40 + tileBytes 1 ∧
    (engWrite c reachCopy 0x3000 (leBytes 8 5)).2 = none ∧ isOk (engRead r reachSpad 0x3000 32) = true ∧ remCommand 0xB3 0 = some (.tzero ⟨false, 0, 0, 0⟩) ∧ remCommand 0x1F 0 = none := by
  decide +kernel

/-- A CPY descriptor. -/
def copyOf (src dst rb rows ss ds : Nat) : List Byte :=
  leBytes 8 src ++ leBytes 8 dst ++ leBytes 4 rb ++ leBytes 4 rows ++ leBytes 4 ss ++ leBytes 4 ds

/-- Whether a read for the copy unit leaves the state as it is and goes well. -/
def readsWell (s : State) (a n : Nat) : Bool :=
  let r := anyRead s a n
  decide (r.1 = s) && decide (r.2.2 = none)

/-- A CPY of those terms, running. -/
def copying (x : CpyArgs) (rec : List Byte) : State := working (.cpy x) 0 0 rec []

/-- CopyResults: rows apart, a descriptor with no rows, a transpose, a packed tensor of f32 and the object of a tensor of no nonzero
element. -/
theorem meets_copies :
    let x : CpyArgs := ⟨0, false, .none, false, .none, 4, 3⟩
    let c := copyOf 0x3000 0x4000 5 3 8 6
    let t := copyOf 0x3000 0x4000 16 16 0 0
    let s := copying x c
    (cpyOk x (cpyRec c) = true ∧ nearSource s (cpyRec c) = false ∧ ∀ i : Fin 3, isOk (engRead s reachCopy (0x3000 + i * 8) 5) = true) ∧
    cpyOk x (cpyRec (copyOf 0x3000 0x4000 5 0 8 6)) = false ∧ readsWell s 0x3000 5 = true ∧
    (cpyOk { x with tr := .t8 } (cpyRec t) = true ∧ nearSource s (cpyRec t) = false ∧ isOk (engRead s reachCopy 0x3000 256) = true) := by decide +kernel

/-- CopyResults: the terms of PACK, its object written. -/
theorem meets_pack :
    let p := copyOf 0x3000 0x4000 16 1 0 0
    let s := setDesc (copying ⟨0, false, .pack, false, .none, 4, 3⟩ p) (0x3000 / 64) 9
    let o := bitmapObject 2 9 [0, 0, 0, 0]
    cpyOk ⟨0, false, .pack, false, .none, 4, 3⟩ (cpyRec p) = true ∧ readsWell s 0x3000 16 = true ∧ (anyDesc s 0x3000).toNat % 256 = 9 ∧
    bitmapLevels 4 = some 2 ∧ (match place s 0x4000 with
      | .ok (.here ok v) => decide ((engWrite s ok v (o.1 ++ o.2)).2 = none)
      | _ => false) = true := by decide +kernel

/-- CopyResults: the terms of UNPACK of an object whose root is its only node. -/
theorem meets_unpack :
    let p := copyOf 0x3000 0x4000 16 1 0 0
    let o := bitmapObject 2 9 [0, 0, 0, 0]
    let s := setDesc (placed (copying ⟨0, false, .unpack, false, .none, 4, 3⟩ p) [(0x3000, (o.1 ++ o.2).take 24)]) (0x3000 / 64) 0x14
    let n := rfield o.1 4 4
    (cpyOk ⟨0, false, .unpack, false, .none, 4, 3⟩ (cpyRec p) = true ∧ readsWell s 0x3000 64 = true ∧ readsWell s 0x3040 (8 * n) = true ∧
      readsWell s (0x3000 + (64 + (8 * n + 63) / 64 * 64)) 0 = true ∧ (anyDesc s 0x3000).toNat % 256 = 0x14) ∧
    (rfield o.1 0 1 = 2 ∧ rfield o.1 1 1 = 9 ∧ rfield o.1 2 2 = 0 ∧ rfield o.1 8 8 = 4 ∧ rfield o.1 0x10 8 = 0 ∧ rfield o.1 0x18 40 = 0) ∧
    walkNodes 2 true [0] (unpackBytes 64 n ((o.1.drop 64).take (8 * n))) = some ([], []) := by decide +kernel

/-- CopyResults: a list of one element at the top of the scratchpad, gathered and scattered, and one of no elements. -/
theorem meets_lists :
    let l (n : Nat) := leBytes 8 0x3000 ++ leBytes 8 0x4000 ++ leBytes 4 n ++ leBytes 4 4 ++ leBytes 8 0
    let s := working .cgather 0 0 (l 1) [(0x3000, leBytes 8 0x1FFFC)]
    listRec (l 1) = some { idx := 0x3000, buf := 0x4000, count := 1, elem := 4 } ∧ listRec (l 0) = none ∧ leNat (readBytes s 0x3000 8) = 0x1FFFC ∧
    isOk (engRead s reachCopy 0x3000 8) = true ∧ isOk (engRead s reachCopy 0x1FFFC 4) = true ∧ isOk (engRead s reachCopy 0x4000 4) = true ∧ 0x4000 + 4 ≤ 0x1FFFC := by
  decide +kernel

/-- CopyResults: CRED of integers by the one core of its domain, and with another that disagrees. -/
theorem meets_cred :
    let r := leBytes 8 0x3000 ++ leBytes 8 0x4000 ++ leBytes 8 0 ++ leBytes 4 2 ++ [7, 7, 0, 0]
    let j := runs (.cred 3) 0 0 r
    let s := { working (.cred 3) 0 0 r [] with mod := paged.mod, core := paged.core }
    let t := { s with mod := beside.mod }
    let m : CredShare := { module := 0, die := 0, lid := 1, rank := 1, seq := 0, head := [9], values := [] }
    (credRec r).any (fun x => decide (x.fmt = 7) && decide (x.op = 0) && decide (x.count = 2)) = true ∧ isIntFmt 7 = true ∧ sharesComplete s 3 j [] = true ∧
    sharesComplete t 3 j [m] = true ∧ m.head ≠ (r.drop 0x18).take 8 ∧ isOk (engRead s reachLocal 0x3000 (credWidth 7 * 2)) = true ∧
    (engWrite s reachLocal 0x4000 (List.replicate 16 0)).2 = none := by decide +kernel

/-- A CQPUT to a queue with its write and read index and its size. -/
def queueing (wr rd size : Nat) : State :=
  { working .cqput 0x100000000000 0x3000 [] [(hbmLoc + 0x100000, leBytes 8 wr ++ leBytes 8 rd ++ leBytes 4 size ++ leBytes 4 1 ++ leBytes 8 0x100000000400)] with
    mod := paged.mod, core := { paged.core with launch := some 1 } }

/-- CopyResults: a queue with a slot free, one that is full and one of a size that is no power of 2. -/
theorem meets_cqput :
    let s := queueing 4 3 2
    let at_ (a : Nat) (f : Reach → Nat → Bool) : Bool := match place s a with
      | .ok (.here ok v) => f ok v
      | _ => false
    isOk (engRead s reachSpad 0x3000 64) = true ∧ (at_ 0x100000000000 fun _ v => isOk (engRead s reachHbm v 64)) = true ∧
    (at_ 0x100000000000 fun _ v => decide ((engWrite s reachHbm v (leBytes 8 5)).2 = none)) = true ∧
    (engWrite s reachHbm 0x100000000400 (leBytes 4 5)).2 = none ∧ (4 < 3 + 2 ∧ 3 + 1 ≤ 4 ∧ ∀ k, k ≤ 24 → 3 ≠ 2 ^ k) := by
  decide +kernel

/-- A grammar of two rules over bytes: rule 0 is 3 4, rule 1 is rule 0 twice; its spine is rule 1 and 5. -/
def grammar : List Byte :=
  [1, 2, 5, 0] ++ leBytes 4 2 ++ leBytes 8 0x3000 ++ leBytes 8 0x3100 ++ leBytes 8 0x3200 ++ leBytes 8 0x3300 ++ leBytes 8 0x3400 ++ leBytes 8 0 ++
    leBytes 4 2 ++ leBytes 2 2 ++ leBytes 2 0

/-- A nonterminal. -/
def rule (i : Nat) : List Byte := leBytes 4 (2 ^ 31 + i)

/-- The same bound for sums, its results and lengths in the scratchpad. -/
def summed : GBinding := { desc := grammar, op := .addw, reassoc := false, n := 1, c := 1, rank := [] }

/-- A grammar job. -/
def parsing (c : Cmd) (a b : Word) (rec : List Byte) : State :=
  placed (queued { runs c a b rec with binding := some summed })
    [(0x2000, grammar), (0x3000, leBytes 4 3 ++ leBytes 4 4 ++ rule 0 ++ rule 0), (0x3104, [1]), (0x3200, [7]), (0x3300, leBytes 8 2 ++ leBytes 8 4), (0x3400, rule 1 ++ leBytes 4 5)]

/-- Whether a read gives a value. -/
def gives (e : Eng Nat) (v : Nat) : Bool := match e with
  | .ok x => decide (x = v)
  | .error _ => false

/-- GrammarResults: an unbound handle; an operator that does not lift, a descriptor within its limits and one of other formats, rising
levels and others. -/
theorem meets_gbind :
    let x : GbindArgs := ⟨false, .addw, 1, 4, 3⟩
    let s := parsing (.gbind x) 0x2000 0 []
    let lv (i : Nat) := leNat (readBytes s (0x3100 + 4 * i) 4)
    (jobBinding (queued (runs (.geval 1) 0 1 [])) (runs (.geval 1) 0 1 []) 1 = none ∧ cmdGram (.geval 1) = some 1) ∧
    ((x.op ≠ .satadd ∧ x.op ≠ .sub ∧ (x.op = .faddg → x.reassoc = true)) ∧ LiftOp.sub = .sub) ∧ gives (engReadNat s reachLocal 0x2000 1) 1 = true ∧
    isOk (engRead s reachLocal 0x2000 64) = true ∧ readBytes s 0x2000 64 = grammar ∧
    (formatsAgree .addw 1 2 5 = true ∧ descriptorOk grammar (blockMap s).length = true ∧ formatsAgree .addw 2 2 5 = false) ∧
    isOk (engRead s reachTile 0x3100 8) = true ∧ (lv 0 = 0 ∧ lv 0 < 2 ∧ lv 0 < lv 1 ∧ lv 1 < 2) := by decide +kernel

/-- GrammarResults: the last rule to evaluate and to measure, a rule past the last, entries whose length overflows, an entry to look up. -/
theorem meets_rules :
    let g := summed
    let s := parsing (.geval 1) 1 1 []
    let big := placed s [(0x3300, leBytes 8 (2 ^ 62))]
    (1 < g.nr ∧ g.nr < 1 + 2 ∧ homeHere s g 1 = true ∧ g.dist = false ∧ g.matrix = false ∧ g.rlt ≠ 0) ∧
    (match ruleOf s g 1 with
      | .ok p => decide (p = (2 ^ 31, 2 ^ 31))
      | .error _ => false) = true ∧ gives (symVal s g (2 ^ 31)) 7 = true ∧ gives (symLen s g (2 ^ 31)) 2 = true ∧ 2 + 2 < 2 ^ 63 ∧
    gives (symLen big g (2 ^ 31)) (2 ^ 62) = true ∧ 2 ^ 63 ≤ 2 ^ 62 + 2 ^ 62 ∧ (engWrite s reachTile (rrtAddr s g 1) (leBytes 4 14)).2 = none ∧
    (engWrite s reachTile (g.rlt + 8 * 1) (leBytes 8 4)).2 = none ∧ (0 < g.nr ∧ 0x4000 % (g.width / 8) = 0 ∧ g.nr ≤ 2 ∧ 0x4001 % (g.width / 8) ≠ 0) ∧
    isOk (engRead s reachTile (rrtAddr s g 0) 4) = true ∧ (engWrite s reachTile 0x4000 (leBytes 4 7)).2 = none := by decide +kernel

/-- GrammarResults: a segment of the spine, one occurrence, a terminal reached by descent, all of a rule skipped, and no symbols. -/
theorem meets_spines :
    let g := summed
    let s := parsing (.gspine true 1) 0 100 (leBytes 8 0 ++ leBytes 8 2 ++ leBytes 8 0 ++ leBytes 8 0x4000)
    (gives (symbolAt s g (gfield g 0x28 8) 0) (2 ^ 31 + 1) = true ∧ gives (symbolAt s g (gfield g 0x28 8) 1) 5 = true ∧ gives (symVal s g (2 ^ 31 + 1)) 0 = true ∧
      gives (symVal s g 5) 5 = true ∧ 0 + 2 ≤ gfield g 0x38 4 ∧ 0x4000 % (g.width / 8) = 0 ∧ (engWrite s reachTile 0x4000 (leBytes 4 105)).2 = none) ∧
    (gives (checkedLen s g (2 ^ 31 + 1)) 4 = true ∧ (engWrite s reachTile 0x4000 (List.replicate 32 1)).2 = none ∧
      gives (symVal (engWrite s reachTile 0x4000 (List.replicate 32 1)).1 g (2 ^ 31 + 1)) 0 = true) ∧
    (badSymbol g (2 ^ 31 + 1) = false ∧ gives (symLen s g (2 ^ 31 + 1)) 4 = true ∧ 2 ^ 31 + 1 < 2 ^ 32 ∧ 3 < 4 ∧ 0x4000 % (fmtBits g.tfmt / 8) = 0) ∧
    (match descend s g false 3 (2 ^ 31 + 1) 3 0 with
      | .ok p => decide (p = (4, 0))
      | .error _ => false) = true ∧ (engWrite s reachSpad 0x4000 (leBytes 1 4)).2 = none := by decide +kernel

/-- GrammarResults: a length entry of 2^63 that GUNF reads. -/
theorem meets_long_length :
    let s := placed (parsing (.gunf false 1) 0x2000 0 []) [(0x3308, leBytes 8 (2 ^ 63))]
    badSymbol summed (2 ^ 31 + 1) = false ∧ (2 ^ 31 + 1) / 2 ^ 31 = 1 ∧
    (match engRead s reachTile (summed.rlt + 8 * ((2 ^ 31 + 1) % 2 ^ 31)) 8 with
      | .ok bs => decide (2 ^ 63 ≤ leNat bs)
      | .error _ => false) = true := by decide +kernel

/-- Keys of four tokens of 16 elements: all alike. -/
def matching (q : ReefMap) (rec : List Byte) : State :=
  let s := working (.rfmatch 2) 0 0 rec []
  s.setCtx 0 { s.ctx 0 with q := (s.ctx 0).q.set 2 q }

/-- ReefAndNeuronResults: four tokens of which one merges, with their sizes and without, on a handle free, bound and lost. -/
theorem meets_rfmatch :
    let r (fl : Nat) := leBytes 4 0x3000 ++ leBytes 4 0x3800 ++ leBytes 4 0x4000 ++ leBytes 2 4 ++ leBytes 2 16 ++ leBytes 2 1 ++ leBytes 2 fl ++ leBytes 12 0
    let s := matching .unbound (r 0)
    matchRec (r 0) = some { keys := 0x3000, sizes := 0x3800, map := 0x4000, n := 4, d := 16, r := 1, sized := false } ∧ (matchRec (r 1)).isSome = true ∧
    isOk (engRead s reachSpad 0x3000 128) = true ∧ isOk (engRead s reachSpad 0x3800 8) = true ∧ getReef s 0 2 = .unbound ∧
    getReef (matching (.bound 4 3 0) (r 0)) 0 2 = .bound 4 3 0 ∧ getReef (matching .lost (r 0)) 0 2 = .lost ∧
    (∀ t, t < 4 → (fun _ => 1 : Nat → Nat) t ≠ 0) ∧ (mergesOf 16 1 (List.replicate 4 (List.replicate 16 (fval .bf16 0)))).length = 1 := by decide +kernel

/-- A bound map of four tokens on three rows: the first two share one. -/
def merging (c : Cmd) (a : Word) (rec : List Byte) : State :=
  let s := working c a 0 rec [(0x4000, leBytes 4 0x10001 ++ leBytes 4 0x10001 ++ leBytes 4 0x10000 ++ leBytes 4 0x20002)]
  s.setCtx 0 { s.ctx 0 with q := (s.ctx 0).q.set 2 (.bound 4 3 0x4000) }

/-- ReefAndNeuronResults: that map, and the terms of RFMERGE, RFSHAKE and RFLOGS over it. -/
theorem meets_rfmerge :
    let r := leBytes 4 0x3000 ++ leBytes 4 0x5000 ++ leBytes 4 0 ++ leBytes 2 1 ++ [9, 0] ++ leBytes 16 0
    let s := merging (.rfmerge 2) 0 r
    (match mapOf s 0 2 with
      | .ok p => decide (p = (4, 3, [1, 1, 0, 2], [1, 1, 1, 2]))
      | .error _ => false) = true ∧ (mergeRec r 4 3).any (fun x => !x.sizes && decide (x.e = 1)) = true ∧ (mergeRec r 3 4).isSome = true ∧
    isOk (engRead s reachSpad 0x3000 16) = true ∧ isOk (engRead s reachSpad 0x3000 12) = true ∧ 0x5000 + 4 * 4 ≤ 0x20000 := by decide +kernel

/-- A neuron descriptor: weights at 0x1000_0000_0400, an output ring of one event at 0x1000_0000_0800, step 5, cleared. -/
def bankDesc : List Byte :=
  leBytes 4 0x3F000000 ++ leBytes 4 0x41200000 ++ List.replicate 504 0 ++ leBytes 8 0x100000000400 ++ leBytes 8 0 ++ leBytes 4 0 ++ leBytes 4 1 ++
    leBytes 8 0x100000000800 ++ leBytes 4 5 ++ leBytes 4 1 ++ leBytes 24 0

/-- A neuron job on a bank of that descriptor. -/
def firing (c : Cmd) (a b : Word) (l : List (Nat × List Byte)) (f : Bank → Bank) : State :=
  let s := { working c a b [] l with mod := paged.mod }
  { withCore s (fun c => { c with launch := some 1 }) with clu := { s.clu with bank := f { s.clu.bank with configured := true, config := bankDesc, c := 5 } } }

/-- ReefAndNeuronResults: descriptors within the limits and not; an unconfigured bank; an event for this bank, for another of the
domain and for one outside it. -/
theorem meets_bank :
    let s := firing .nbpost 0x3000 1 [(0x3000, leBytes 8 (7 + 2 ^ 20))] id
    (configOk bankDesc = true ∧ configOk ([1] ++ bankDesc.drop 1) = true ∧ configOk (List.replicate 552 0 ++ leBytes 24 1) = false ∧ rfield bankDesc 0x224 4 = 1) ∧
    (start []).clu.bank.configured = false ∧ s.clu.bank.configured = true ∧ isOk (engRead s reachSpad 0x3000 8) = true ∧ readLoc s 0x3000 8 = 7 + 2 ^ 20 ∧
    ((7 + 2 ^ 20) / 2 ^ 47 = ownBank s ∧ 1 ≠ ownBank s ∧ bankInDomain s 1 = false ∧ bankInDomain s (ownBank s) = true) ∧
    s.clu.bank.pending.length + s.clu.bank.tardy.length < 4096 := by decide +kernel

/-- ReefAndNeuronResults: steps with no event, one event for the last neuron, below its threshold; records read and written, a record
that breaks its limit; the output ring empty and filled. -/
theorem meets_neurons :
    let e : NbEvent := { word := BitVec.ofNat 64 (7 + 2 ^ 20 * 3 + 2 ^ 35 * 4095), srcBank := 0, srcNeur := 0, pos := 0 }
    let s := firing .nbadv 9 0 [] fun b => { b with pending := [{ step := 7, ev := e }] }
    let k := firing .nbspk 0x3000 1 [] fun b => { b with outCount := 1 }
    let pp := readLoc s (neuronLoc + 16 * 4095 + 12) 4 % 16
    (s.clu.bank.closed = false ∧ s.clu.bank.tardy = [] ∧ s.clu.bank.spill = [] ∧ s.clu.bank.held = [] ∧ s.clu.bank.touched = [] ∧ (5 : Int) ≤ 7 ∧ (7 : Int) < 9) ∧
    (evNeuron e = 4095 ∧ evWeight e = 3 ∧ isOk (engRead s reachHbm (s.clu.bank.field 0x200 8 + 12) 4) = true) ∧
    ¬ (readLoc s (neuronLoc + 16 * 4095 + 8) 4 ≤ 7 ∧ fle (fval .f32 (s.clu.bank.field (32 * pp + 4) 4)) (fval .f32 0) = true) ∧
    (isOk (engRead s reachSpad 0x3000 32) = true ∧ rfield (leBytes 12 0 ++ leBytes 4 15) 12 4 < 16 ∧ 16 ≤ rfield (leBytes 12 0 ++ leBytes 4 16) 12 4 ∧ 0x1FFF0 + 16 * 1 ≤ 0x20000) ∧
    (1 ≤ k.clu.bank.outCount ∧ isOk (engRead k reachHbm (k.clu.bank.field 0x218 8 + 8 * k.clu.bank.outPos) 8) = true ∧ s.clu.bank.outCount = 0) := by
  decide +kernel

/-- ReefAndNeuronResults: a bank of another cluster of the domain. -/
theorem meets_far_bank :
    let s := firing .nbpost 0x3000 1 [(0x3000, leBytes 8 (2 ^ 47))] id
    let t := { s with mod := { s.mod with launches := s.mod.launches.map fun l => { l with domain := [0, 0x8000] } } }
    1 ≠ ownBank t ∧ bankInDomain t 1 = true ∧ readLoc t 0x3000 8 / 2 ^ 47 = 1 := by decide +kernel

/-- OtherRegistersAreKept: a full/empty access that lets no request proceed, and CCANCEL of no job. -/
theorem meets_kept_registers :
    isFullEmpty (.fill ⟨plain .w, 4, 3⟩) = true ∧ (∃ t, exec (.fill ⟨plain .w, 4, 3⟩) (start [(3, 0x100)]) = .next t) ∧
    (start [(3, 0x100)]).feQueue = [] ∧ (∃ t, exec (.ccancel 3) (start []) = .next t) ∧ isFullEmpty (.ccancel 3) = false :=
  ⟨rfl, ⟨_, rfl⟩, rfl, ⟨_, rfl⟩, rfl⟩

/-! ### The order of memory, paired requests, and what waits -/

/-- StepRunsDecodedInstruction: a core of a paired launch whose next form lies in device memory, in a block that no cache holds. -/
theorem meets_paired_fetch :
    let q := (withCore paged fun c => { c with twin := some 5 }).setCtx 0 { paged.ctx 0 with pc := 0x100000000080 }
    fetchForm q (q.ctx 0).pc.toNat = .ok [0, 0] ∧ fetchBlocks q (q.ctx 0).pc.toNat 2 = [0x100000000080] ∧ (q.ctx 0).pairOk = false ∧
    fetchBlocks paged 0x100000000080 2 = [] := by
  exact ⟨rfl, by decide, rfl, rfl⟩

/-- RequestAndPairAnswers: contributions of a paired core to a barrier and to an exchange. -/
theorem meets_paired_contributions :
    let q := withCore paged fun c => { c with twin := some 5 }
    let x := withCore (exchanging 0) fun c => { c with twin := some 5 }
    (q.core.twin.isSome = true ∧ (q.ctx q.cur).pairOk = false ∧ (q.ctx q.cur).contributed = false ∧ syncRefused q 0 = false ∧ q.core.phase = none) ∧
    (x.core.twin.isSome = true ∧ x.cur = 0 ∧ x.core.phase.isSome = true ∧ x.core.aborted = false ∧ (x.ctx 0).contributed = false) := by decide

/-- LaunchLife: a launch that has ended whose core awaits acknowledgements and one on a frozen module that has not started; on a module
that is not frozen neither waits. -/
theorem meets_completion_waits :
    let l := paged.mod.launches[0]'(by decide)
    let e := { l with result := some (1, 8) }
    let u := { paged with mod := { paged.mod with launches := [e] }, unacked := true }
    let k := { l with started := false, granted := false, domain := [0x1000] }
    let f := { start [] with mod := { paged.mod with launches := [k], frozen := true } }
    (e.result.isSome = true ∧ u.core.launch = some 1 ∧ u.unacked = true ∧ u.mod.frozen = false ∧ paged.unacked = false ∧ e.started = true) ∧
    (partDone f k = true ∧ f.mod.frozen = true ∧ k.started = false ∧ k.result = none ∧ f.core.launch ≠ some 1) := by decide

/-- ControlAndFreeze: a resumption from other buffers than those of the module's own image. -/
theorem meets_foreign_resumption :
    let c : TickCmd := { tick := 5, seq := 1, compl := 0, map := 0, bufs := [(0x1000, 64)] }
    let im : Image := { bufs := [], tick := 5, saved := [], jobs := [], queues := [], launches := [], pubs := [], mem := [], descs := [], poison := [] }
    let r := { start [] with mod := { paged.mod with frozen := true, resume := some c, image := some im } }
    r.mod.resume = some c ∧ r.mod.image = some im ∧ im.bufs ≠ c.bufs := by decide

/-- DebugAndSoftErrorResults: two flips in one word of a weight-buffer line, and one in each of two words. -/
theorem meets_line_flips :
    (1023 < 1024 ∧ ∃ i, i < 8 ∧ popCount (flipWord (3 <<< 448) i) = 2) ∧ ∀ i, i < 8 → popCount (flipWord (1 + (1 <<< 64)) i) ≤ 1 := by
  exact ⟨⟨by decide, 7, by decide, by decide +kernel⟩, by decide +kernel⟩

/-- TimeAndPublishedBufferResults: a PUBL at pod scope with writes to be acknowledged and without, and one at agent scope core. -/
theorem meets_publ_acks :
    let u := { published with unacked := true }
    waitsAcks .hbm .pod = true ∧ waitsAcks .hbm .core = false ∧ u.unacked = true ∧ published.unacked = false := by decide

/-- FullEmptyRequestsWait: a request at a word of a sealed peer, one that finds a broken descriptor, and one that comes before what happens
before it has been applied. -/
theorem meets_peer_requests :
    let s := { beside with core := { beside.core with sealedPeers := [1] } }
    let b := { start [] with badParity := [0x7FF], tags := [0x7FFE, 0x7FFF] }
    let r : RemoteFe := { kind := .peek, word := 0x1FFF8, size := .x, value := 0, origin := 4, die := 1, clock := [1], job := none }
    (gwinLoc ≤ gwinLoc + 0x3FFF8 ∧ gwinLoc + 0x3FFF8 < gwinLoc + 2 ^ 20 * 0x20000 ∧ (gwinLoc + 0x3FFF8 - gwinLoc) / 0x20000 ∈ s.core.sealedPeers) ∧
    (∃ f : Flt, feChecks b .tryTake 0x1FFF8 .x = .error f ∧ f.block = some 0x7FF) ∧ clockSeen (start []) r.clock = false := by
  refine ⟨by decide, ⟨_, rfl, rfl⟩, by decide⟩

/-- EngineCommandsEnter: a queue that the other cores of the cluster have filled. -/
theorem meets_others_queued :
    let s := { start [] with clu := { (start []).clu with others := 32 } }
    s.clu.jobs.length + s.clu.others = 32 ∧ (start []).clu.jobs.length + (start []).clu.others < 32 := by decide

/-- JobsStartAndEnd: a command that reads its record at the start, one whose record lies outside its reach, one whose handle is not bound,
and runs of jobs at work that see all there is. -/
theorem meets_work :
    let c := aJob .cgather
    let far := { c with a := 0x20000 }
    let g := aJob (.geval 1)
    let run := { aJob (.tzero ⟨false, 1, 0, 3⟩) with started := true }
    let m : CredShare := { module := 0, die := 0, lid := 1, rank := 1, seq := 0, head := [], values := [] }
    (startsUnbound (queued c) c = false ∧ isOk (engRead (queued c) reachSpad (recordAddr c.cmd c.a c.b) (recordLen c.cmd)) = true ∧
      quietAt (queued c).vis (.job 0) false ((List.range (recordLen c.cmd)).map fun k => recordAddr c.cmd c.a c.b + k) = true) ∧
    (startsUnbound (queued far) far = false ∧ isOk (engRead (queued far) reachSpad (recordAddr far.cmd far.a far.b) (recordLen far.cmd)) = false) ∧
    startsUnbound (queued g) g = true ∧ (worked (queued run) run (perform run [] noLimit)).isSome = true ∧
    sharesFirst (aJob (.cred 3)) [m] = true ∧ sharesFirst run [m] = false := by
  refine ⟨⟨by decide, by decide, by decide⟩, ⟨by decide, by decide⟩, by decide, rfl, rfl, rfl⟩

/-- JobsStartAndEnd: a write that a job has not seen, and a copy and a tile at work that push a slot. -/
theorem meets_pushes_at_work :
    let rec_ := leBytes 8 0x2000 ++ leBytes 8 0 ++ leBytes 4 32 ++ leBytes 4 2 ++ leBytes 8 0
    let y : CpyArgs := ⟨5, true, .none, false, .none, 3, 3⟩
    let cj := { aJob (.cpy y) with started := true, record := rec_ }
    let cs := setHandle (queued cj) 0 5 (some topRing)
    let x : TstArgs := ⟨false, false, 0, 4, 3, 3⟩
    let tj := { aJob (.tst x) with started := true, a := 5, b := 0x109000000 }
    let ts := setHandle (queued tj) 0 5 (some { base := 0x1000, size := 1024, count := 1, head := 0, tail := 0, fill := 0 })
    let old := (older false).vis
    let late : State := { queued cj with vis := { old with unseen := old.unseen.map fun u => { u with readers := [.job 0] } } }
    (worked cs cj (pushRun y cj)).isSome = true ∧ (worked ts tj (runTst x tj)).isSome = true ∧ (jobMisses late cj).length = 1 := by
  refine ⟨rfl, rfl, by decide⟩

/-- TileResults: the record of a remote command read at the start, and commands that come after what happens before them, or too soon. -/
theorem meets_remote_clocks : (aJob .trem).recordStop = none ∧ clockSeen (start []) [0] = true ∧ clockSeen (start []) [0, 1] = false := by decide

end

end Sys2Proof.Tests
end

