-- ==== Sys2Proof/Proofs/MachineRules.lean ====
section
/-! PROOFS. Rules of the shared operations that the proofs of the machine's own statements use: faults and their packets,
retiring, waiting, and the issue of a form. -/

namespace Sys2Proof.Proofs

open Sys2Proof.Machine Sys2Proof.Laws

/-! ### Contexts -/

@[simp] theorem cur_setCtx (s : State) (c : Fin 8) (x : Ctx) : (s.setCtx c x).cur = s.cur := rfl

@[simp] theorem cur_withInsn (s : State) (w : Nat) : (withInsn s w).cur = s.cur := rfl

@[simp] theorem cur_retire (s : State) (c : Fin 8) (n : Nat) : (retire s c n).cur = s.cur := rfl

theorem ctx_retire_same (s : State) (c : Fin 8) (n : Nat) :
    (retire s c n).ctx c = { s.ctx c with pc := (s.ctx c).pc + BitVec.ofNat 64 n } := by
  rw [retire_ctx, retire_pc]

theorem ctx_retire_other {s : State} {c d : Fin 8} {n : Nat} (h : d ≠ c) : (retire s c n).ctx d = s.ctx d :=
  ctx_setCtx_other h

theorem mem_slots (c : Fin 8) : c ∈ slots := by revert c; decide

/-- A context's registers read the same in any state that has the same slot. -/
theorem getG_congr {s t : State} {c : Fin 8} (h : t.ctx c = s.ctx c) (r : GReg) : getG t c r = getG s c r :=
  getG_of_ctx (by rw [h]) r

/-! ### Faults (R305, R307) -/

/-- A fault that seals nothing and poisons nothing only freezes the core (R305). -/
theorem raise_plain {s : State} {c : Fin 8} {f : Flt} (hc : f.cls ≠ .uncorrectable) (hb : f.block = none) :
    raise s c f = freezeWith s c f := by
  unfold raise poisonFound
  simp [hc, hb]

/-- The packet of a fault bears its class, its unit's address and the word executed (R307). -/
theorem freezeWith_packet (s : State) (c : Fin 8) (f : Flt) :
    ∃ p, ((freezeWith s c f).ctx c).packet = some p ∧ p.cls = f.cls ∧ p.pc = unitStart s c ∧
      (f.cls ≠ .watchdog → p.insn = (s.ctx c).insn) := by
  refine ⟨_, by simp [freezeWith, State.ctx, State.setCtx]; rfl, rfl, rfl, fun h => ?_⟩
  simp [h, State.ctx]

theorem faultCls_eq (s : State) (cls : FaultClass) : faultCls s cls = .next (raise s s.cur { cls := cls }) := rfl

/-- A word that is no instruction freezes the core with ILLEGAL_INSN at its unit's start (R104). -/
theorem unassigned_freezes (s : State) (w : BitVec 32) :
    ∃ t p, exec (.unassignedEncoding w) s = .next t ∧ t.core.frozen = true ∧ (t.ctx s.cur).stopped = true ∧
      (t.ctx s.cur).packet = some p ∧ p.cls = .illegalInsn ∧ p.pc = unitStart s s.cur ∧ p.insn = w := by
  let u := s.setCtx s.cur { s.ctx s.cur with insn := w }
  obtain ⟨hstop, -, hfroz⟩ := freezeWith_stops u s.cur { cls := .illegalInsn }
  obtain ⟨p, hp, hcls, hpc, hinsn⟩ := freezeWith_packet u s.cur { cls := .illegalInsn }
  refine ⟨freezeWith u s.cur { cls := .illegalInsn }, p, ?_, hfroz, hstop, hp, hcls, ?_, ?_⟩
  · show faultCls u .illegalInsn = _
    rw [faultCls_eq, raise_plain (by decide) rfl]
    rfl
  · rw [hpc]
    simp [unitStart, u]
  · rw [hinsn (by decide)]
    simp [u]

/-! ### Issuing a form (R81, R93, R104, R313) -/

/-- A form that decodes and that nothing precedes is dispatched. -/
theorem issueWith_decoded {run : Instr → State → Out} {s : State} {bs rest : List Byte} {i : Instr}
    (h : fetchForm s (s.ctx s.cur).pc.toNat = .ok bs) (hb : fetchBlocks s (s.ctx s.cur).pc.toNat bs.length = [])
    (hf : formFault (withInsn s (leNat bs)) (leNat bs) = none) (hd : decode bs = .ok (i, rest)) :
    issueWith run s = run i (withInsn s (leNat bs)) := by
  unfold issueWith
  simp only [h, hb, fetchGate, hf, hd]

/-- A form that the decoder refuses is dispatched as a word that is no instruction (R104). -/
theorem issueWith_undecoded {run : Instr → State → Out} {s : State} {bs : List Byte} {e : Reject}
    (h : fetchForm s (s.ctx s.cur).pc.toNat = .ok bs) (hb : fetchBlocks s (s.ctx s.cur).pc.toNat bs.length = [])
    (hf : formFault (withInsn s (leNat bs)) (leNat bs) = none) (hd : decode bs = .error e) :
    issueWith run s = run (.unassignedEncoding (BitVec.ofNat 32 (leNat bs))) (withInsn s (leNat bs)) := by
  unfold issueWith
  simp only [h, hb, fetchGate, hf, hd]

/-- What precedes a form raises its own fault and nothing is dispatched. -/
theorem issueWith_refusedForm {run : Instr → State → Out} {s : State} {bs : List Byte} {c : FaultClass}
    (h : fetchForm s (s.ctx s.cur).pc.toNat = .ok bs) (hb : fetchBlocks s (s.ctx s.cur).pc.toNat bs.length = [])
    (hf : formFault (withInsn s (leNat bs)) (leNat bs) = some c) :
    issueWith run s = faultCls (withInsn s (leNat bs)) c := by
  unfold issueWith
  simp only [h, hb, fetchGate, hf]

/-- In a paired launch a fetch's first request waits until the other copy's hash agrees (R82, R313). -/
theorem issueWith_asks {run : Instr → State → Out} {s : State} {bs : List Byte} {b : Nat} {r : List Nat}
    (h : fetchForm s (s.ctx s.cur).pc.toNat = .ok bs) (hb : fetchBlocks s (s.ctx s.cur).pc.toNat bs.length = b :: r)
    (hp : (s.ctx s.cur).pairOk = false) :
    issueWith run s =
      waitFor (s.setCtx s.cur { s.ctx s.cur with pairOk := false, pairHash := some (Config.pairHash b 0 60) }) .pair := by
  have htwin : s.core.twin.isSome = true := by
    cases ht : s.core.twin with
    | none => simp [fetchBlocks, ht] at hb
    | some t => rfl
  unfold issueWith
  simp [h, hb, fetchGate, pairGateIf, htwin, hp]

end Sys2Proof.Proofs
end

