-- ==== Sys2Proof/Proofs/Issue.lean ====
section
/-! PROOFS. The step (O4), reset (O9), the issue selector and the forms of a unit (O5, O15). -/

namespace Sys2Proof.Proofs

open Sys2Proof.Machine Sys2Proof.Laws

/-! ### The step (R25, R93) -/

/-- Inside a unit the current context goes on (R93). -/
theorem step_within_unit {s : State} (hp : powered s = true) (hu : s.core.unit.isSome = true) (hr : coreRuns s = true) :
    step s = passOn (issueWith exec s) := by
  simp [step, stepOnce, hp, hu, hr]

/-- Between units the step is what the inputs name or a free choice (log 61). -/
theorem step_between_units {s : State} (hp : powered s = true) (hu : (s.core.unit.isSome && coreRuns s) = false) :
    step s = boundary s := by
  simp [step, stepOnce, hp, hu]

/-- An input that lets the core issue lets the selected context issue (R25). -/
theorem step_selected {s : State} {r : List (Option Instr)} {c : Fin 8} (hp : powered s = true)
    (hu : (s.core.unit.isSome && coreRuns s) = false) (hi : s.inputs = none :: r)
    (hs : select { s with inputs := r } false = some c) :
    step s = passOn (issueWith exec (turnTo { s with inputs := r } c)) := by
  rw [step_between_units hp hu]
  simp only [boundary, hi, issueOrIdle, hs]
  rfl

/-- Settles O4: the step's own cases, and what the issue of a form that memory gives does. -/
theorem stepRunsDecodedInstruction : Obligations.StepRunsDecodedInstruction := by
  unfold Obligations.StepRunsDecodedInstruction
  refine ⟨fun s s' c bs rest i hp hcase => ?_, fun s i r hp hu hi => ?_⟩
  · have hstep : step s = passOn (issueWith exec s') := by
      rcases hcase with ⟨rfl, hu, hr⟩ | ⟨r, hi, hu, hs, rfl⟩
      · exact step_within_unit hp hu hr
      · exact step_selected hp hu hi hs
    refine fun hf => ⟨fun hb hform hd => ?_, fun b r hb hpair => ?_⟩
    · rw [hstep, issueWith_decoded hf hb hform hd]
    · rw [hstep, issueWith_asks hf hb hpair]
  · rw [step_between_units hp hu]
    simp only [boundary, hi]

/-! ### Reset -/

/-- A location below the harvest apertures reads 0 at reset (log 1). -/
theorem get_reset_below {loc : Nat} (h : loc < harvestLoc) : Memory.get State.reset.mem loc = 0 := by
  show unlisted loc = 0
  simp [unlisted, Nat.not_le.mpr h]

theorem ctx_reset (c : Fin 8) : State.reset.ctx c = Ctx.idle := by simp [State.ctx, State.reset]

/-- Settles O9: the fields of the reset state, each read off, and its memory, which is unlisted everywhere. -/
theorem resetValues : Obligations.ResetValues := by
  unfold Obligations.ResetValues
  refine ⟨fun c => ⟨?_, ?_, ?_, ?_⟩, rfl, rfl, rfl, rfl, rfl, rfl, rfl, rfl, rfl, rfl, rfl, ?_, ?_, ?_, ?_, rfl, rfl, rfl,
    rfl, rfl, ?_⟩
  · rw [ctx_reset]; rfl
  · intro j; simp [ctx_reset, Ctx.idle, seedStates]
  · intro h; simp [getHandle, ctx_reset, Ctx.idle]
  · intro r; simp [getG, ctx_reset, Ctx.idle]
  · intro i; simp [State.reset, CoreRegs.reset]
  · intro i; simp [State.reset, CoreRegs.reset]
  · intro t i ht hi
    exact get_reset_below (by simp only [harvestLoc, boltLoc]; omega)
  · intro i hi
    exact get_reset_below (by simp only [harvestLoc, neuronLoc]; omega)
  · intro i; simp [State.reset, Module.reset]

/-! ### The selector (R24 to R26) -/

/-- In a list whose entries rise by `key`, the first that a test picks is the least of those that it picks. -/
theorem find?_key_le {α : Type} {key : α → Nat} {l : List α} {p : α → Bool} {a b : α}
    (hl : l.Pairwise fun x y => key x ≤ key y) (ha : l.find? p = some a) (hb : b ∈ l) (hpb : p b = true) : key a ≤ key b := by
  obtain ⟨-, xs, ys, rfl, hxs⟩ := List.find?_eq_some_iff_append.mp ha
  rw [List.pairwise_append, List.pairwise_cons] at hl
  obtain ⟨-, ⟨hays, -⟩, -⟩ := hl
  rcases List.mem_append.mp hb with hx | hy
  · have := hxs b hx
    simp [hpb] at this
  · rcases List.mem_cons.mp hy with rfl | hy
    · exact Nat.le_refl _
    · exact hays b hy

theorem mem_after {c d : Fin 8} : d ∈ after c ↔ d ≠ c := by revert c d; decide

/-- The selector's order rises by the distance from the current context (R25). -/
theorem after_rises (c : Fin 8) : (after c).Pairwise fun x y => (x - c).val ≤ (y - c).val := by revert c; decide

/-- Where another context is ready, the first in the selector's order is found. -/
theorem find_after_isSome {s : State} {c d : Fin 8} (hd : d ≠ c) (hr : ready s d = true) :
    ∃ e, (after c).find? (ready s) = some e := by
  rw [← Option.isSome_iff_exists, List.find?_isSome]
  exact ⟨d, mem_after.mpr hd, hr⟩

theorem find_after_eq_none {s : State} {c : Fin 8} :
    (after c).find? (ready s) = none ↔ ∀ d, d ≠ c → ready s d = false := by
  simp [List.find?_eq_none, mem_after]

/-- The context named is ready; it is another than the current one only where that is not ready or stalls, and then the nearest one
in order; and the current one keeps the slot through a stall only where no other is ready (R25). -/
theorem select_some {s : State} {stall : Bool} {c : Fin 8} (h : select s stall = some c) :
    ready s c = true ∧
      (c ≠ s.cur → (ready s s.cur = false ∨ stall = true) ∧
        ∀ d, ready s d = true → d ≠ s.cur → (c - s.cur).val ≤ (d - s.cur).val) ∧
      (c = s.cur → stall = true → ∀ d, d ≠ s.cur → ready s d = false) := by
  unfold select at h
  split at h
  · rename_i e he
    have hne : e ≠ s.cur := mem_after.mp (List.mem_of_find?_eq_some he)
    split at h
    · rename_i hcur
      cases h
      simp only [Bool.and_eq_true, Bool.not_eq_true'] at hcur
      exact ⟨hcur.1, fun k => absurd rfl k, fun _ hs => by simp [hcur.2] at hs⟩
    · rename_i hcur
      cases h
      refine ⟨List.find?_some he, fun _ => ⟨?_, fun d hd hdc => ?_⟩, fun k => absurd k hne⟩
      · cases hr : ready s s.cur <;> simp_all
      · exact find?_key_le (key := fun x => (x - s.cur).val) (after_rises s.cur) he (mem_after.mpr hdc) hd
  · rename_i hnone
    split at h
    · rename_i hcur
      cases h
      exact ⟨hcur, fun k => absurd rfl k, fun _ _ => find_after_eq_none.mp hnone⟩
    · cases h

/-- A ready context that does not stall keeps the slot. -/
theorem select_stays {s : State} (h : ready s s.cur = true) : select s false = some s.cur := by
  unfold select
  split <;> simp [h]

/-- The slot passes to another ready context where the current one is not ready or stalls. -/
theorem select_turns {s : State} {stall : Bool} {d : Fin 8} (hd : d ≠ s.cur) (hr : ready s d = true)
    (hs : ready s s.cur = false ∨ stall = true) : ∃ c, c ≠ s.cur ∧ select s stall = some c := by
  obtain ⟨e, he⟩ := find_after_isSome hd hr
  refine ⟨e, mem_after.mp (List.mem_of_find?_eq_some he), ?_⟩
  have hno : (ready s s.cur && !stall) = false := by rcases hs with h | h <;> simp [h]
  simp [select, he, hno]

theorem select_of_ready {s : State} {stall : Bool} {d : Fin 8} (hr : ready s d = true) : ∃ c, select s stall = some c := by
  by_cases hd : d = s.cur
  · subst hd
    cases he : (after s.cur).find? (ready s) with
    | none => exact ⟨s.cur, by simp [select, he, hr]⟩
    | some e =>
      cases stall with
      | false => exact ⟨s.cur, select_stays hr⟩
      | true => exact ⟨e, by simp [select, he]⟩
  · by_cases hc : ready s s.cur = false ∨ stall = true
    · obtain ⟨c, -, hc⟩ := select_turns hd hr hc
      exact ⟨c, hc⟩
    · obtain ⟨h1, h2⟩ := not_or.mp hc
      rw [Bool.not_eq_false] at h1
      rw [Bool.not_eq_true] at h2
      exact ⟨s.cur, h2 ▸ select_stays h1⟩

theorem select_none {s : State} {stall : Bool} (h : ∀ d, ready s d = false) : select s stall = none := by
  cases hs : select s stall with
  | none => rfl
  | some c => exact absurd (select_some hs).1 (by simp [h c])

/-- The slot that a context leaves goes to the one that the selector names. -/
theorem passedOn_select {s : State} {c : Fin 8} (h : ready s s.cur = false) (hs : select s false = some c) :
    passedOn s = { s with core := { s.core with cur := c } } := by
  cases he : (after s.cur).find? (ready s) with
  | none => simp [select, he, h] at hs
  | some e =>
    have : e = c := by simpa [select, he, h] using hs
    simp [passedOn, h, he, this]

theorem passedOn_of_none_ready {s : State} (h : ∀ d, ready s d = false) : passedOn s = s := by
  have : (after s.cur).find? (ready s) = none := find_after_eq_none.mpr fun d _ => h d
  simp [passedOn, this]

/-- Outside a debug step a context is ready when the core runs and it is live, awake and owes no turn (R24, R26). -/
theorem ready_iff {s : State} (h : s.core.stepping = none) (c : Fin 8) : ready s c = true ↔
    s.core.frozen = false ∧ s.core.fenced = false ∧ s.core.saving = false ∧ (s.ctx c).live = true ∧ (s.ctx c).wait = none ∧
      (s.ctx c).stopped = false ∧ (s.ctx c).parked = none ∧ (s.ctx c).owed = [] := by
  simp only [ready, coreRuns, awake, h, Bool.and_eq_true, Bool.not_eq_true', Option.isNone_iff_eq_none, List.isEmpty_iff]
  tauto

/-! ### What may follow TRIPLE and WIDE, and features (R93, R94, R107, R142) -/

theorem wordClass_eq (w : Nat) : wordClass w = w / 2 % 16 := rfl

theorem wordOp_eq (w : Nat) : wordOp w = w / 32 % 32 := rfl

theorem acceptsTriple_iff (w : Nat) : acceptsTriple w = true ↔
    w / 2 % 16 = 0 ∨ w / 2 % 16 = 1 ∨ w / 2 % 16 = 3 ∨ (w / 2 % 16 = 4 ∧ w / 32 % 32 ≠ 24 ∧ w / 2 ^ 30 % 4 ≠ 2) := by
  have h30 : bits w 30 2 = w / 2 ^ 30 % 4 := rfl
  simp only [acceptsTriple, h30, Bool.or_eq_true, Bool.and_eq_true, decide_eq_true_eq, Bool.not_eq_true',
    decide_eq_false_iff_not]
  rw [wordClass_eq, wordOp_eq]
  tauto

theorem acceptsWide_iff (w : Nat) : acceptsWide w = true ↔
    w / 2 % 16 = 1 ∨ (w / 2 % 16 = 7 ∧ w / 32 % 32 ∈ [1, 2, 4, 5, 6, 7, 8, 9, 10, 11, 15, 17, 18]) := by
  simp only [acceptsWide, Bool.or_eq_true, Bool.and_eq_true, decide_eq_true_eq, List.contains_iff_mem]
  rw [wordClass_eq, wordOp_eq]

/-- A long word follows where all the prefixes read accept it. -/
theorem unitAccepts_long {u : UnitForm} {w : Nat} (h : w % 2 = 1) : unitAccepts u w = true ↔
    (u.triple = true → acceptsTriple w = true) ∧ (u.wide.isSome = true → acceptsWide w = true) := by
  have h2 : w % 2 ≠ 0 := by omega
  simp only [unitAccepts, if_neg h2, Bool.and_eq_true, Bool.or_eq_true, Bool.not_eq_true']
  cases u.triple <;> cases u.wide.isSome <;> simp

/-- Of short forms only prefixes follow. -/
theorem unitAccepts_short {u : UnitForm} {w : Nat} (h : w % 2 = 0) (hw : w < 2 ^ 16) :
    unitAccepts u w = true ↔ w = 0x000E ∨ w % 64 = 0x16 := by
  have h6 : bits w 0 6 = w % 64 := by simp [bits]
  have h10 : bits w 6 10 = w / 64 % 1024 := rfl
  simp only [unitAccepts, if_pos h, h6, h10, Bool.or_eq_true, Bool.and_eq_true, decide_eq_true_eq]
  omega

theorem featuresOk_iff (s : State) (w : Nat) : featuresOk s w = true ↔ w % 2 = 0 ∨
    ((w / 2 % 16 = 11 → feature s 0 = true) ∧ (w / 2 % 16 = 12 → w / 32 % 32 ≤ 4 → feature s 1 = true) ∧
      (w / 2 % 16 = 12 → 5 ≤ w / 32 % 32 → feature s 2 = true) ∧ (tripled s = true → feature s 3 = true)) := by
  have hthird : (!tripled s || feature s 3) = true ↔ (tripled s = true → feature s 3 = true) := by
    cases tripled s <;> simp
  by_cases h : w % 2 = 0
  · simp [featuresOk, gateOf, h]
  simp only [featuresOk, gateOf, h, if_false, decide_false, Bool.or_false, false_or, Bool.and_eq_true, wordClass_eq, wordOp_eq,
    hthird]
  by_cases h11 : w / 2 % 16 = 11
  · simp [h11]
  by_cases h12 : w / 2 % 16 = 12
  · by_cases hop : w / 32 % 32 ≤ 4
    · simp [h12, hop, Nat.not_le.mpr (Nat.lt_succ_of_le hop)]
    · simp [h12, hop, show 5 ≤ w / 32 % 32 by omega]
  · simp [h11, h12]

/-- A form that its unit does not accept is ILLEGAL_PREFIX (R93). -/
theorem formFault_prefix {s : State} {u : UnitForm} {w : Nat} (hu : s.core.unit = some u) (ha : unitAccepts u w = false) :
    formFault s w = some .illegalPrefix := by simp [formFault, hu, ha]

/-- A form whose features are not accepted is ILLEGAL_INSN where its unit accepts it (R107, R142). -/
theorem formFault_feature {s : State} {w : Nat} (hu : ∀ u, s.core.unit = some u → unitAccepts u w = true)
    (hf : featuresOk s w = false) : formFault s w = some .illegalInsn := by
  unfold formFault
  split
  · rename_i u h
    simp [hu u h, hf]
  · simp [hf]

/-- Settles O5: the selector's rules, the words that the prefixes accept, and the faults that come before anything executes. -/
theorem issueSelection : Obligations.IssueSelection := by
  unfold Obligations.IssueSelection
  refine ⟨fun s stall c h => select_some h, fun s stall => ⟨?_, select_none, ?_, ?_, passedOn_of_ready, ?_, passedOn_of_none_ready,
    ready_iff⟩, fun s bs hf hb => ⟨fun u hu ha => ?_, fun hu hok => ?_⟩, fun u s w => ⟨fun h => ?_, fun h hw => ?_, featuresOk_iff s w⟩,
    fun s bs e hf hb hform hd => ?_⟩
  · exact fun ⟨d, hd⟩ => select_of_ready hd
  · exact fun h hs => hs ▸ select_stays h
  · exact fun d hd hr hs => select_turns hd hr hs
  · exact fun h c hs => passedOn_select h hs
  · exact issueWith_refusedForm hf hb (formFault_prefix hu ha)
  · exact issueWith_refusedForm hf hb (formFault_feature hu hok)
  · rw [unitAccepts_long h, acceptsTriple_iff, acceptsWide_iff]
  · exact unitAccepts_short h hw
  · obtain ⟨t, p, hrun, hfroz, -, hp, hcls, hpc, -⟩ :=
      unassigned_freezes (withInsn s (leNat bs)) (BitVec.ofNat 32 (leNat bs))
    refine ⟨t, ?_, hfroz, p, hp, hcls, ?_⟩
    · exact (issueWith_undecoded hf hb hform hd).trans hrun
    · rw [hpc]
      simp [unitStart, withInsn]

/-! ### Units and yields (R26, R93, R141, R194) -/

/-- The unit that a form goes on with: the one begun, or a new one at the pc (R93). -/
theorem openUnit_eq (s : State) :
    openUnit s = s.core.unit.getD { start := (s.ctx s.cur).pc, triple := false, wide := none } := by
  unfold openUnit
  cases s.core.unit <;> rfl

/-- Where TRIPLE or WIDE is taken into a unit its context goes on by one parcel, and nothing else happens (R93). -/
theorem extendUnit_ctx (s : State) (u : UnitForm) :
    (extendUnit s u).ctx s.cur = { s.ctx s.cur with pc := (s.ctx s.cur).pc + 2 } := ctx_setCtx_same ..

theorem extendUnit_ctx_other {s : State} {u : UnitForm} {c : Fin 8} (h : c ≠ s.cur) : (extendUnit s u).ctx c = s.ctx c :=
  ctx_setCtx_other h

theorem memoryKept_refl (s : State) : MemoryKept s s := ⟨fun _ => rfl, fun _ => rfl, rfl⟩

/-- TRIPLE or WIDE taken in leaves every register and all memory as they were (R93). -/
theorem extendUnit_frame (s : State) (u : UnitForm) :
    (extendUnit s u).core.unit = some u ∧ ((extendUnit s u).ctx s.cur).pc = (s.ctx s.cur).pc + 2 ∧
      (∀ c, c ≠ s.cur → (extendUnit s u).ctx c = s.ctx c) ∧ MemoryKept s (extendUnit s u) ∧
      (∀ r, getG (extendUnit s u) s.cur r = getG s s.cur r) ∧ VectorsKept (s.ctx s.cur) ((extendUnit s u).ctx s.cur) := by
  refine ⟨rfl, by rw [extendUnit_ctx], fun c => extendUnit_ctx_other, memoryKept_refl s, fun r => getG_of_ctx (by rw [extendUnit_ctx]) r, ?_⟩
  rw [extendUnit_ctx]
  exact ⟨rfl, rfl, rfl, rfl, rfl, rfl, rfl⟩

/-- Retiring changes no context's wakefulness. -/
theorem awake_retire (s : State) (c d : Fin 8) (n : Nat) : awake (retire s c n) d = awake s d := by
  unfold awake
  rw [retire_ctx]

theorem mem_owing {s : State} {c : Fin 8} : c ∈ owing s ↔ c ≠ s.cur ∧ awake s c = true := by
  simp [owing, mem_slots]

theorem yieldTurn_ctx (s : State) : (yieldTurn s).ctx s.cur =
    { s.ctx s.cur with owed := owing s, runTimer := 0, parked := if s.core.preempt then some .yielded else (s.ctx s.cur).parked } :=
  ctx_setCtx_same ..

theorem yieldTurn_ctx_other {s : State} {c : Fin 8} (h : c ≠ s.cur) : (yieldTurn s).ctx c = s.ctx c := ctx_setCtx_other h

/-- The slot of a context that has yielded after an instruction of `n` bytes and goes on to wait for `w` (R26, R194). -/
def yieldedCtx (s : State) (n : Nat) (w : Option Wait) : Ctx :=
  { s.ctx s.cur with pc := (s.ctx s.cur).pc + BitVec.ofNat 64 n, owed := owing s, runTimer := 0,
                     parked := if s.core.preempt then some .yielded else (s.ctx s.cur).parked, wait := w }

theorem yield_retired_ctx (s : State) (n : Nat) :
    (yieldTurn (retire s s.cur n)).ctx s.cur = yieldedCtx s n (s.ctx s.cur).wait := by
  have hown : owing (retire s s.cur n) = owing s := by
    simp only [owing, awake_retire, cur_retire]
    rfl
  have hctx := yieldTurn_ctx (retire s s.cur n)
  rw [hown, cur_retire, ctx_retire_same] at hctx
  exact hctx

theorem yield_retired_other {s : State} {n : Nat} {c : Fin 8} (h : c ≠ s.cur) :
    (yieldTurn (retire s s.cur n)).ctx c = s.ctx c := by
  rw [yieldTurn_ctx_other (s := retire s s.cur n) h, ctx_retire_other h]

/-- Settles O15. -/
theorem unitsAndYields : Obligations.UnitsAndYields := by
  unfold Obligations.UnitsAndYields
  refine ⟨fun s p w => ?_, fun s gb hfree => ?_⟩
  · dsimp only
    rw [← openUnit_eq s]
    refine ⟨fun h => ⟨_, ?_, extendUnit_frame s _⟩, fun h => ⟨_, ?_, extendUnit_frame s _⟩, fun h => ?_, fun h => ?_, ?_⟩
    · show execTriple s = _
      simp [execTriple, h]
    · show execWide p s = _
      simp [execWide, h]
    · show execTriple s = _
      simp [execTriple, h, faultCls_eq]
    · show execWide p s = _
      simp [execWide, h, faultCls_eq]
    · obtain ⟨t, pk, hrun, hfroz, hstop, hp, hcls, -, hinsn⟩ := unassigned_freezes s w
      exact ⟨t, pk, hrun, hp, hcls, hinsn, hfroz, hstop⟩
  · intro n turned
    have hturned {t : State} {len : Nat} {w : Option Wait} (hc : t.ctx s.cur = yieldedCtx s len w)
        (ho : ∀ c, c ≠ s.cur → t.ctx c = s.ctx c) (hm : MemoryKept s t) : turned t len w := by
      refine ⟨by rw [hc]; rfl, fun c => ?_, by rw [hc]; rfl, by rw [hc]; rfl, by rw [hc]; rfl, ho, hm, fun r => getG_of_ctx (by rw [hc]; rfl) r⟩
      rw [hc]
      exact mem_owing
    have hrun : exec (.yieldx gb) s = execYieldx gb s := rfl
    refine ⟨⟨_, rfl, hturned (yield_retired_ctx s 2) (fun c => yield_retired_other) (memoryKept_refl s)⟩, fun hn => ?_, fun hn => ?_⟩
    · rw [hrun, execYieldx, withRegs_free hfree]
      have hlt : ¬ 2 ^ 32 ≤ (getG s s.cur gb).toNat := Nat.not_le.mpr hn
      by_cases h0 : n = 0
      · refine ⟨yieldTurn (retire s s.cur 4), by simp only [if_neg hlt, if_pos (show (getG s s.cur gb).toNat = 0 from h0)], ?_⟩
        rw [if_pos h0]
        exact hturned (yield_retired_ctx s 4) (fun c => yield_retired_other) (memoryKept_refl s)
      · let t := yieldTurn (retire s s.cur 4)
        refine ⟨t.setCtx s.cur { t.ctx s.cur with wait := some .cycles }, by simp only [if_neg hlt, if_neg (show ¬ (getG s s.cur gb).toNat = 0 from h0), t], ?_⟩
        rw [if_neg h0]
        refine hturned ?_ (fun c hc => ?_) (memoryKept_refl s)
        · rw [ctx_setCtx_same, yield_retired_ctx]; rfl
        · rw [ctx_setCtx_other hc]; exact yield_retired_other hc
    · rw [hrun, execYieldx, withRegs_free hfree]
      simp only [if_pos (show 2 ^ 32 ≤ (getG s s.cur gb).toNat from hn), faultCls_eq]

end Sys2Proof.Proofs
end

