-- ==== Sys2Proof/Proofs/PendingRegisters.lean ====
section
/-! PROOFS. Registers that are pending are awaited before an instruction executes (O57). -/

namespace Sys2Proof.Proofs

open Sys2Proof.Machine Sys2Proof.Laws

/-- The g registers that an instruction names are looked at before anything else; g0, which is never pending, may be among them
(R35). -/
def NamesFirst (s : State) (i : Instr) : Prop :=
  ∃ reads others k, exec i s = withRegs s reads others k ∧ ∀ q, q ≠ 0 → (q ∈ reads ++ others ↔ q ∈ gNamed i)

/-- Two operands named twice are two operands. -/
theorem or_pair_twice (a b : Prop) : a ∨ b ∨ a ∨ b ↔ a ∨ b := by tauto

/-- Engine commands look at the registers of their operands (R231, R256, R273). -/
theorem namesFirst_command {i : Instr} (s : State) {r : GReg} (hr : r ∈ gNamed i) (h : isCommand i = true) : NamesFirst s i := by
  cases i
  any_goals cases h
  any_goals exact absurd hr List.not_mem_nil
  case cred x => exact ⟨[x.ga], [], _, rfl, fun q _ => Iff.rfl⟩
  case gocc x =>
    refine ⟨_, _, _, rfl, fun q hq => ?_⟩
    delta gNamed
    cases x.flag
    · simp
    · simp [or_pair_twice]
  case trem x =>
    refine ⟨_, _, _, rfl, fun q hq => ?_⟩
    delta gNamed
    simp +contextual
  all_goals
    refine ⟨_, _, _, rfl, fun q hq => ?_⟩
    delta gNamed
    simp [hq, or_pair_twice]

/-- All others look at theirs where no WIDE precedes them, which may refuse them first (R94, R132). -/
theorem namesFirst_bare {i : Instr} {s : State} {r : GReg} (hw : widePayload s = none) (hr : r ∈ gNamed i)
    (hc : isCommand i = false) : NamesFirst s i := by
  cases i
  any_goals exact absurd hr List.not_mem_nil
  any_goals cases hc
  case unwatch all ga =>
    cases all
    · exact ⟨[ga], [], _, rfl, fun q _ => Iff.rfl⟩
    · exact absurd hr List.not_mem_nil
  case shli | shri | shrli => exact ⟨_, _, _, (if_neg (by simp [hw]) : shiftI _ _ _ = _), fun q _ => Iff.rfl⟩
  case sto | swap | fadd | fand | atFor | fxor | fmin | fmax | fminn | fmaxn | put | tryput | fill =>
    exact ⟨_, _, _, (if_neg (by simp [hw]) : atWide _ _ _ = _), fun q _ => Iff.rfl⟩
  case bfx | bfi | vput | trytake | hstart =>
    refine ⟨_, _, _, rfl, fun q _ => ?_⟩
    delta gNamed
    simp only [List.mem_append, List.mem_cons, List.not_mem_nil]
    tauto
  all_goals exact ⟨_, _, _, rfl, fun q _ => Iff.rfl⟩

/-- Where a named register is pending, the first of those that are is awaited (R35). -/
theorem withRegs_pending {s : State} {reads others : List GReg} {k : Out} {r : GReg} (hr : r ∈ reads ++ others)
    (hp : isPending s s.cur r = true) :
    ∃ q ∈ reads ++ others, isPending s s.cur q = true ∧ withRegs s reads others k = waitFor s (.pending q) := by
  have hsome : ((reads ++ others).find? (isPending s s.cur)).isSome = true := by
    rw [List.find?_isSome]
    exact ⟨r, hr, hp⟩
  obtain ⟨q, hq⟩ := Option.isSome_iff_exists.mp hsome
  exact ⟨q, List.mem_of_find?_eq_some hq, List.find?_some hq, by simp only [withRegs, hq]⟩

theorem ne_zero_of_pending {s : State} {c : Fin 8} {r : GReg} (h : isPending s c r = true) : r ≠ 0 := by
  rintro rfl
  simp [isPending] at h

/-- The state of a core whose current context has begun to wait (R24, R314). -/
def waiting (s : State) (w : Wait) : State :=
  let x := s.ctx s.cur
  let s' := s.setCtx s.cur { x with pc := unitStart s s.cur, wait := some w, runTimer := if w.isStall then x.runTimer else 0 }
  { s' with core := { s'.core with unit := none } }

theorem waitFor_eq (s : State) (w : Wait) : waitFor s w = .next (waiting s w) := rfl

theorem waiting_ctx (s : State) (w : Wait) : (waiting s w).ctx s.cur =
    { s.ctx s.cur with pc := unitStart s s.cur, wait := some w, runTimer := if w.isStall then (s.ctx s.cur).runTimer else 0 } :=
  ctx_setCtx_same ..

theorem waiting_ctx_other {s : State} {w : Wait} {c : Fin 8} (h : c ≠ s.cur) : (waiting s w).ctx c = s.ctx c :=
  ctx_setCtx_other h

/-- Settles O57. -/
theorem pendingRegistersAreAwaited : Obligations.PendingRegistersAreAwaited := by
  unfold Obligations.PendingRegistersAreAwaited
  intro i s r hw hr hp
  have hfirst : NamesFirst s i := by
    cases hc : isCommand i
    · exact namesFirst_bare hw hr hc
    · exact namesFirst_command s hr hc
  obtain ⟨reads, others, k, hexec, hnames⟩ := hfirst
  obtain ⟨q, hq, hpq, hwait⟩ := withRegs_pending (k := k) ((hnames r (ne_zero_of_pending hp)).mpr hr) hp
  have hrun : exec i s = waitFor s (.pending q) := hexec.trans hwait
  refine ⟨q, (hnames q (ne_zero_of_pending hpq)).mp hq, hpq, hrun, waiting s (.pending q), hrun, ?_, ?_, memoryKept_refl s,
    fun g => getG_of_ctx ?_ g, fun c => waiting_ctx_other⟩
  · rw [waiting_ctx]
  · rw [waiting_ctx]
  · rw [waiting_ctx]

end Sys2Proof.Proofs
end

