-- ==== Sys2Proof/Proofs/ControlRegisters.lean ====
section
/-! PROOFS. The control and status registers (O34). -/

namespace Sys2Proof.Proofs

open Sys2Proof.Machine Sys2Proof.Laws

/-! ### Registers that are free -/

/-- Registers free to read and write are free where fewer of them are named. -/
theorem regsFree_mono {s : State} {r w r' w' : List GReg} (h : RegsFree s r w) (hr : ∀ x ∈ r', x ∈ r)
    (hw : ∀ x ∈ w', x ∈ r ++ w) : RegsFree s r' w' := by
  refine ⟨fun x hx => h.1 x ?_, fun x hx => h.2 x (hr x hx)⟩
  rcases List.mem_append.mp hx with hx | hx
  · exact List.mem_append_left w (hr x hx)
  · exact hw x hx

/-- Data registers that are free go on (R311). -/
theorem withData_free {s : State} {r w l : List GReg} {k : Out} (h : RegsFree s r w) (hl : ∀ x ∈ l, x ∈ r) : withData s l k = k :=
  withData_sound fun x hx => h.2 x (hl x hx)

/-! ### Reading (R108, R109) -/

/-- The registers that a program can only read. -/
def readOnlyCsrs : List (BitVec 10) :=
  [0x000, 0x001, 0x002, 0x003, 0x004, 0x005, 0x006, 0x007, 0x008, 0x009, 0x010, 0x011, 0x012, 0x013, 0x014, 0x020, 0x021, 0x052,
   0x053, 0x060, 0x200, 0x201, 0x202, 0x203, 0x204, 0x205, 0x206, 0x207]

/-- The registers that a program can also write. -/
def writableCsrs : List (BitVec 10) := [0x030, 0x040, 0x041, 0x042, 0x043, 0x050, 0x051, 0x054]

/-- CSRRD writes what the register reads as, in the state in which it was read (R108). -/
theorem csrrd_reads {s t : State} {a : BitVec 10} {gd : GReg} {w : Word} (h : RegsFree s [] [gd])
    (hr : csrRead s a.toNat = some (w, t)) : exec (.csrrd a gd) s = .next (doneG t gd w 4) := by
  show execCsrrd a gd s = _
  rw [execCsrrd, withRegs_free h, hr]
  rfl

/-- What reads as something is an address of the map (R109). -/
theorem mem_map_of_csrRead {s : State} {n : Nat} {r : Word × State} (h : csrRead s n = some r) :
    n ∈ (readOnlyCsrs ++ writableCsrs).map BitVec.toNat := by
  unfold csrRead at h
  dsimp only at h
  split at h
  any_goals simp [readOnlyCsrs, writableCsrs]
  cases h

/-- An address outside the map reads as nothing (R108). -/
theorem csrRead_outside (s : State) {a : BitVec 10} (hr : a ∉ readOnlyCsrs) (hw : a ∉ writableCsrs) :
    csrRead s a.toNat = none := by
  cases h : csrRead s a.toNat with
  | none => rfl
  | some r =>
    obtain ⟨b, hb, hab⟩ := List.mem_map.mp (mem_map_of_csrRead h)
    rw [BitVec.eq_of_toNat_eq hab] at hb
    exact absurd (List.mem_append.mp hb) (not_or.mpr ⟨hr, hw⟩)

/-- The place that a program reads is a word of 32 bits, whose parts the registers give (R109, R313). -/
theorem csrrd_place {s : State} {gd : GReg} {pid : Nat} (h : RegsFree s [] [gd]) (hp : seenPid s = pid) (hlt : pid < 2 ^ 32) :
    let reads (a : BitVec 10) (w : Nat) : Prop := exec (.csrrd a gd) s = .next (doneG s gd (BitVec.ofNat 64 w) 4)
    reads 0x002 pid ∧ reads 0x003 (pid / 2 ^ 15 % 2 ^ 13) ∧ reads 0x004 (pid / 2 ^ 28) ∧
      reads 0x009 (0xFF00000000 + 0x2000 * (pid / 2 ^ 28)) := by
  have hdie : bits (seenPid s) 28 4 = pid / 2 ^ 28 := by
    rw [hp]
    exact Nat.mod_eq_of_lt (by omega)
  have hharvest : harvestLoc + bits (seenPid s) 28 4 * 0x2000 = 0xFF00000000 + 0x2000 * (pid / 2 ^ 28) := by
    rw [hdie, harvestLoc, Nat.mul_comm]
  refine ⟨hp ▸ csrrd_reads h rfl, hp ▸ csrrd_reads h rfl, hdie ▸ csrrd_reads h rfl, hharvest ▸ csrrd_reads h rfl⟩

/-- Outside a paired launch the place is the core's own (R109). -/
theorem seenPid_unpaired {s : State} (h : ∀ l, curLaunch s = some l → l.paired = false) (hdie : s.core.die < 16)
    (hrow : s.core.row < 128) (hcol : s.core.col < 64) (hcix : s.core.cix < 8) :
    seenPid s = s.core.die * 2 ^ 28 + s.core.row * 2 ^ 21 + s.core.col * 2 ^ 15 + s.core.cix * 2 ^ 12 := by
  have hown : seenPid s = (corePid s).toNat := by
    unfold seenPid
    split
    · rename_i l hl
      simp [h l hl]
    · rfl
  rw [hown, corePid, pidWord, BitVec.toNat_ofNat]
  exact Nat.mod_eq_of_lt (by omega)

/-- Both copies of a paired launch read the primary's place (R313). -/
theorem seenPid_paired {s : State} {l : Launch} {p : BitVec 32} (hl : curLaunch s = some l) (hp : l.paired = true)
    (hd : l.domain[s.core.lid]? = some p) : seenPid s = p.toNat := by
  simp [seenPid, hl, hp, List.getD, hd]

/-- A register read in a state that only time has changed. -/
theorem csrrd_time {s t : State} {a : BitVec 10} {gd : GReg} {w : Word} (h : RegsFree s [] [gd])
    (hr : csrRead s a.toNat = some (w, t)) (hcur : t.cur = s.cur) (hctx : t.ctx s.cur = s.ctx s.cur) :
    ∃ u, exec (.csrrd a gd) s = .next u ∧ (u.ctx s.cur).pc = (s.ctx s.cur).pc + 4 ∧ (gd ≠ 0 → getG u s.cur gd = w) ∧
      u.core.cycles = t.core.cycles ∧ u.mod.tick = t.mod.tick := by
  refine ⟨_, csrrd_reads h hr, ?_, fun hg => ?_, ?_, ?_⟩
  · rw [doneG, hcur, retire_pc]
    rw [setG]
    split
    · rw [hctx]; rfl
    · rw [ctx_setCtx_same, hctx]; rfl
  · rw [doneG, hcur, getG_retire, getG_setG_same _ _ _ _ hg]
  · show (setG t t.cur gd w).core.cycles = _
    rw [setG_core]
  · simp [doneG]

/-! ### Writing (R32, R108, R109) -/

/-- CSRWR to an address of the map brings about what the register's own write does. -/
theorem csrwr_runs {s : State} {a : BitVec 10} {ga : GReg} (h : RegsFree s [ga] []) (hr : (csrRead s a.toNat).isSome = true) :
    exec (.csrwr a ga) s = Chk.run s (csrWrite s a.toNat (getG s s.cur ga)) fun s => .next (retire s s.cur 4) := by
  show execCsrwr a ga s = _
  rw [execCsrwr, withRegs_free (regsFree_mono h (by simp) (by simp)), if_neg (by simpa using Option.isSome_iff_ne_none.mp hr),
    withData_free h (by simp)]

/-- CSRWR takes a value within the register's limit and refuses any other (R108, R109). -/
theorem csrwr_takes {s : State} {a : BitVec 10} {ga : GReg} {ok : Bool} {t : State} (h : RegsFree s [ga] [])
    (hr : (csrRead s a.toNat).isSome = true) (hcur : t.cur = s.cur)
    (hw : csrWrite s a.toNat (getG s s.cur ga) = (demand ok .illegalOperand).andThen fun _ => .ok t) :
    (ok = true → exec (.csrwr a ga) s = .next (retire t s.cur 4)) ∧
      (¬ ok = true → exec (.csrwr a ga) s = .next (raise s s.cur { cls := .illegalOperand })) := by
  rw [csrwr_runs h hr, hw]
  cases ok
  · exact ⟨fun k => absurd k (by simp), fun _ => rfl⟩
  · refine ⟨fun _ => ?_, fun k => absurd rfl k⟩
    show Host.Outcome.next (retire t t.cur 4) = _
    rw [hcur]

/-- CSRWR to an address outside the map is refused (R108). -/
theorem csrwr_outside {s : State} {a : BitVec 10} {ga : GReg} (h : RegsFree s [ga] []) (hr : csrRead s a.toNat = none) :
    exec (.csrwr a ga) s = .next (raise s s.cur { cls := .illegalOperand }) := by
  show execCsrwr a ga s = _
  rw [execCsrwr, withRegs_free (regsFree_mono h (by simp) (by simp)), hr]
  rfl

/-- A write to a read-only register is PROT_FAULT (R108). -/
theorem csrwr_readOnly {s : State} {a : BitVec 10} {ga : GReg} (h : RegsFree s [ga] []) (ha : a ∈ readOnlyCsrs) :
    exec (.csrwr a ga) s = .next (raise s s.cur { cls := .protFault }) := by
  have hread : (csrRead s a.toNat).isSome = true ∧ csrWrite s a.toNat (getG s s.cur ga) = .error { cls := .protFault } := by
    revert a
    simp only [readOnlyCsrs, List.forall_mem_cons, List.not_mem_nil, false_implies, implies_true, and_true]
    exact ⟨⟨rfl, rfl⟩, ⟨rfl, rfl⟩, ⟨rfl, rfl⟩, ⟨rfl, rfl⟩, ⟨rfl, rfl⟩, ⟨rfl, rfl⟩, ⟨rfl, rfl⟩, ⟨rfl, rfl⟩, ⟨rfl, rfl⟩, ⟨rfl, rfl⟩,
      ⟨rfl, rfl⟩, ⟨rfl, rfl⟩, ⟨rfl, rfl⟩, ⟨rfl, rfl⟩, ⟨rfl, rfl⟩, ⟨rfl, rfl⟩, ⟨rfl, rfl⟩, ⟨rfl, rfl⟩, ⟨rfl, rfl⟩, ⟨rfl, rfl⟩,
      ⟨rfl, rfl⟩, ⟨rfl, rfl⟩, ⟨rfl, rfl⟩, ⟨rfl, rfl⟩, ⟨rfl, rfl⟩, ⟨rfl, rfl⟩, ⟨rfl, rfl⟩, ⟨rfl, rfl⟩⟩
  rw [csrwr_runs h hread.1, hread.2]
  rfl

/-- The core with its exchange rings emptied (R32). -/
def ringsEmptied (x : CoreRegs) : CoreRegs := { x with inHead := 0, inCount := 0, ovHead := 0, ovCount := 0 }

/-- A write to an exchange ring register is taken within its limits and refused outside them, by CSRWR and by its event (R32). -/
theorem xring_takes {s : State} {a : BitVec 10} {ga : GReg} {i : Fin 4} {ok : Bool} {p : Prop} {x : CoreRegs}
    (h : RegsFree s [ga] []) (hr : (csrRead s a.toNat).isSome = true) (hcur : x.cur = s.core.cur)
    (hw : csrWrite s a.toNat (getG s s.cur ga) = xringWrite s i (getG s s.cur ga))
    (hx : xringWrite s i (getG s s.cur ga) = (demand ok .illegalOperand).andThen fun _ => .ok { s with core := ringsEmptied x })
    (hp : p ↔ ok = true) :
    (p → exec (.csrwr a ga) s = .next (retire { s with core := ringsEmptied x } s.cur 4) ∧
      (awake s s.cur = true → exec (.xringCsrWrite i (getG s s.cur ga)) s = .next { s with core := ringsEmptied x })) ∧
    (¬ p → exec (.csrwr a ga) s = .next (raise s s.cur { cls := .illegalOperand }) ∧
      (awake s s.cur = true → exec (.xringCsrWrite i (getG s s.cur ga)) s = .next (raise s s.cur { cls := .illegalOperand }))) := by
  obtain ⟨htake, hrefuse⟩ := csrwr_takes (t := { s with core := ringsEmptied x }) h hr hcur (hw.trans hx)
  have hevent (hawake : awake s s.cur = true) : exec (.xringCsrWrite i (getG s s.cur ga)) s =
      Chk.run s ((demand ok .illegalOperand).andThen fun _ => .ok { s with core := ringsEmptied x }) fun s => .next s := by
    rw [← hx]
    exact if_pos hawake
  refine ⟨fun k => ⟨htake (hp.mp k), fun hawake => ?_⟩, fun k => ⟨hrefuse (mt hp.mpr k), fun hawake => ?_⟩⟩
  · rw [hevent hawake, hp.mp k]
    rfl
  · rw [hevent hawake, eq_false_of_ne_true (mt hp.mpr k)]
    rfl

/-- Settles O34: the map read register by register, and the writes within and past their limits. -/
theorem controlRegisterResults : Obligations.ControlRegisterResults := by
  unfold Obligations.ControlRegisterResults
  refine ⟨fun s ga gd h => ?_, fun s ga h => ?_⟩
  · have hrd : RegsFree s [] [gd] := regsFree_mono h (by simp) (by simp)
    have hwr : RegsFree s [ga] [] := regsFree_mono h (by simp) (by simp)
    have hread {a : BitVec 10} {w : Word} (hr : csrRead s a.toNat = some (w, s)) :
        exec (.csrrd a gd) s = .next (doneG s gd w 4) := csrrd_reads hrd hr
    have htakes {a : BitVec 10} {ok : Prop} [Decidable ok] {x : CoreRegs} (hr : (csrRead s a.toNat).isSome = true)
        (hcur : x.cur = s.core.cur) (hw : csrWrite s a.toNat (getG s s.cur ga) =
          (demand (decide ok) .illegalOperand).andThen fun _ => .ok { s with core := x }) :
        (ok → exec (.csrwr a ga) s = .next (retire { s with core := x } s.cur 4)) ∧
          (¬ ok → exec (.csrwr a ga) s = .next (raise s s.cur { cls := .illegalOperand })) := by
      simpa only [decide_eq_true_eq] using csrwr_takes (t := { s with core := x }) hwr hr hcur hw
    refine ⟨hread rfl, hread rfl, hread rfl, hread rfl, hread rfl, hread rfl, hread rfl, hread rfl, hread rfl, hread rfl, hread rfl,
      hread rfl, hread rfl, hread rfl, hread rfl, hread rfl, hread rfl, hread rfl, hread rfl, hread rfl, hread rfl, hread rfl,
      hread rfl, hread rfl, hread rfl, hread rfl, hread rfl, hread rfl, hread rfl, hread rfl, ?_, ?_, ?_, ?_, htakes rfl rfl rfl,
      htakes rfl rfl rfl, htakes rfl rfl rfl, htakes rfl rfl rfl, fun a => csrwr_readOnly hwr, fun a hr hw => ⟨?_, ?_⟩⟩
    · exact fun hu hdie hrow hcol hcix => csrrd_place hrd (seenPid_unpaired hu hdie hrow hcol hcix) (by omega)
    · exact fun l p hl hp hd => csrrd_place hrd (seenPid_paired hl hp hd) p.isLt
    · obtain ⟨t, hrun, hpc, hval, hcyc, -⟩ := csrrd_time (a := 0x020) (t := observeCycles s) hrd rfl rfl rfl
      exact ⟨t, hrun, hpc, fun hg => (hval hg).trans hcyc.symm⟩
    · obtain ⟨t, hrun, hpc, hval, -, htick⟩ := csrrd_time (a := 0x021) (t := observeTick s) hrd rfl rfl rfl
      exact ⟨t, hrun, hpc, fun hg => (hval hg).trans htick.symm⟩
    · show execCsrrd a gd s = _
      rw [execCsrrd, withRegs_free hrd, csrRead_outside s hr hw]
      rfl
    · exact csrwr_outside hwr (csrRead_outside s hr hw)
  · dsimp only
    let v := getG s s.cur ga
    refine ⟨xring_takes (x := { s.core with xringBase := v }) h rfl rfl rfl rfl ?_,
      xring_takes (x := { s.core with xringSize := v }) h rfl rfl rfl rfl ?_,
      xring_takes (x := { s.core with xspillBase := v }) h rfl rfl rfl rfl ?_,
      xring_takes (x := { s.core with xspillSize := v }) h rfl rfl rfl rfl ?_⟩
    · simp [spadSize, and_assoc]
    · simp [spadSize, and_assoc]
    · simp [spadSize, and_assoc]
    · simp [spadSize, and_assoc]

end Sys2Proof.Proofs
end

