-- ==== Sys2Proof/Proofs/Watches.lean ====
section
/-! PROOFS. Watches and waits (O35): the statement fails at the job queue's room. -/

namespace Sys2Proof.Proofs

open Sys2Proof.Machine Sys2Proof.Laws

/-- A core whose cluster's other cores have filled the job queue, none of whose entries is this core's own (R14). -/
def queueFilledBeside : State := { State.reset with clu := { Cluster.reset with others := 32 } }

/-- A context that sleeps for the queue sleeps on there, though this core's own jobs take fewer than 32 entries. -/
theorem waitOver_filledBeside (c : Fin 8) :
    waitOver queueFilledBeside c .queueFull = false ∧ queueFilledBeside.clu.jobs.length < 32 := ⟨rfl, by decide⟩

/-- Refutes O35: its clause for `.queueFull` counts this core's jobs alone, `s.clu.jobs.length < 32`, while the model's `queueRoom`
counts the entries of the cluster's other cores too (R14; log 99), so that with 32 of them taken the sleep is not over. -/
theorem not_watchesAndWaits : ¬ Obligations.WatchesAndWaits := by
  unfold Obligations.WatchesAndWaits
  rintro ⟨-, -, hwaits⟩
  obtain ⟨-, -, -, -, -, -, hqueue, -⟩ := hwaits queueFilledBeside 0 0 .queueFull 0 0 0
  obtain ⟨hsleeps, hroom⟩ := waitOver_filledBeside 0
  rw [hqueue.mpr hroom] at hsleeps
  cases hsleeps

end Sys2Proof.Proofs
end

