-- ==== Sys2Proof/Proofs/Handles.lean ====
section
/-! PROOFS. Handles (O36): one rule per instruction. -/

namespace Sys2Proof.Proofs

open Sys2Proof.Machine Sys2Proof.Laws

/-- The limits of R39 on a handle's shape. -/
theorem handleShapeOk_iff (base size count : Nat) : handleShapeOk base size count = true ↔
    base % 32 = 0 ∧ size % 32 = 0 ∧ 32 ≤ size ∧ size ≤ 8192 ∧ 1 ≤ count ∧ count ≤ 256 ∧ base + size * count ≤ 0x20000 := by
  simp only [handleShapeOk, Bool.and_eq_true, decide_eq_true_eq, and_assoc]
  rfl

section Handle

variable {s : State} {h : Fin 8} {gb ga gd : GReg}

/-- CBINIT's own cases, its registers read (R39, R202). -/
theorem exec_cbinit (hf : RegsFree s [gb, ga] []) : exec (.cbinit h gb ga) s =
    if handleBusy s s.cur h then faultCls s .illegalOperand
    else if (getG s s.cur gb).toNat = 0 then .next (retire (setHandle s s.cur h none) s.cur 4)
    else
      let base := (getG s s.cur ga).toNat
      let size := (getG s s.cur gb).toNat % 2 ^ 16
      let count := (getG s s.cur gb).toNat / 2 ^ 16 % 2 ^ 9
      if 2 ^ 25 ≤ (getG s s.cur gb).toNat ∨ handleShapeOk base size count = false then faultCls s .illegalOperand
      else .next (retire (setHandle s s.cur h
        (some { base := base, size := size, count := count, head := 0, tail := 0, fill := 0 })) s.cur 4) := by
  show execCbinit h gb ga s = _
  have hsize : bits (getG s s.cur gb).toNat 0 16 = (getG s s.cur gb).toNat % 2 ^ 16 := by simp [bits]
  have hcount : bits (getG s s.cur gb).toNat 16 9 = (getG s s.cur gb).toNat / 2 ^ 16 % 2 ^ 9 := rfl
  rw [execCbinit, withRegs_free (regsFree_mono hf (by simp) (by simp))]
  dsimp only
  rw [withData_free hf (by simp), hsize, hcount]

theorem exec_cbadv (hf : RegsFree s [gb] []) : exec (.cbadv h gb) s =
    handleCount s h (fun x => decide ((getG s s.cur gb).toNat ≤ x.fill)) fun x =>
      let n := (getG s s.cur gb).toNat
      .next (retire (setHandle s s.cur h (some { x with tail := (x.tail + n) % x.count, fill := x.fill - n })) s.cur 4) := by
  show execCbadv h gb s = _
  rw [execCbadv, withRegs_free hf]

theorem exec_cbpush (hf : RegsFree s [gb] []) : exec (.cbpush h gb) s =
    handleCount s h (fun x => decide ((getG s s.cur gb).toNat ≤ x.count - x.fill)) fun x =>
      let n := (getG s s.cur gb).toNat
      .next (retire (setHandle s s.cur h (some { x with head := (x.head + n) % x.count, fill := x.fill + n })) s.cur 4) := by
  show execCbpush h gb s = _
  rw [execCbpush, withRegs_free hf]

theorem exec_cbwait (free : Bool) (hf : RegsFree s [gb] [gd]) : exec (.cbwait free h gb gd) s =
    handleCount s h (fun x => decide (1 ≤ (getG s s.cur gb).toNat) && decide ((getG s s.cur gb).toNat ≤ x.count)) fun x =>
      let n := (getG s s.cur gb).toNat
      let have_ := if free then x.count - x.fill else x.fill
      if n ≤ have_ then .next (doneG s gd (BitVec.ofNat 64 have_) 4) else waitFor s (.handle h free n) := by
  show execCbwait free h gb gd s = _
  rw [execCbwait, withRegs_free hf]
  rfl

/-- A handle that is not configured is ILLEGAL_OPERAND (R203). -/
theorem handleCount_none {ok : Handle → Bool} {k : Handle → Out} (hh : getHandle s s.cur h = none) :
    handleCount s h ok k = .next (raise s s.cur { cls := .illegalOperand }) := by
  simp [handleCount, hh, faultCls_eq]

/-- A count within its limit goes on (R203). -/
theorem handleCount_ok {ok : Handle → Bool} {k : Handle → Out} {x : Handle} (hh : getHandle s s.cur h = some x)
    (hok : ok x = true) : handleCount s h ok k = k x := by
  simp [handleCount, hh, hok]

/-- A count past its limit is ILLEGAL_OPERAND (R203). -/
theorem handleCount_past {ok : Handle → Bool} {k : Handle → Out} {x : Handle} (hh : getHandle s s.cur h = some x)
    (hok : ok x = false) : handleCount s h ok k = .next (raise s s.cur { cls := .illegalOperand }) := by
  simp [handleCount, hh, hok, faultCls_eq]

end Handle

/-- Settles O36: each instruction's rule, in the cases of its operands. -/
theorem handleResults : Obligations.HandleResults := by
  unfold Obligations.HandleResults
  intro s h gb ga gd hf v base size count becomes wrong shapeOk
  have hinit := exec_cbinit (h := h) (regsFree_mono hf (r' := [gb, ga]) (w' := []) (by simp) (by simp))
  have hb : RegsFree s [gb] [] := regsFree_mono hf (by simp) (by simp)
  have hw : RegsFree s [gb] [gd] := regsFree_mono hf (by simp) (by simp)
  have hshape : handleShapeOk base size count = true ↔ shapeOk := handleShapeOk_iff base size count
  refine ⟨fun hbusy => ?_, fun hbusy => ⟨fun h0 => ?_, fun h0 hlt hs => ?_, fun h0 hbad => ?_⟩, fun hnone => ⟨?_, ?_, ?_, ?_⟩,
    fun x hx => ⟨fun hv => ?_, fun hv => ?_, fun hv => ?_, fun hv => ?_, fun free => ⟨fun h1 hv hge => ?_, fun h1 hv hlt => ?_,
      fun hv => ?_⟩⟩⟩
  · exact hinit.trans (if_pos hbusy)
  · exact hinit.trans ((if_neg (by simp [hbusy])).trans (if_pos h0))
  · refine hinit.trans ((if_neg (by simp [hbusy])).trans ((if_neg h0).trans (if_neg ?_)))
    exact not_or.mpr ⟨Nat.not_le.mpr hlt, Bool.eq_false_iff.not.mpr (not_not.mpr (hshape.mpr hs))⟩
  · refine hinit.trans ((if_neg (by simp [hbusy])).trans ((if_neg h0).trans (if_pos ?_)))
    exact hbad.imp_right fun hs => Bool.eq_false_iff.mpr (mt hshape.mp hs)
  · exact (exec_cbadv hb).trans (handleCount_none hnone)
  · exact (exec_cbpush hb).trans (handleCount_none hnone)
  · exact (exec_cbwait true hw).trans (handleCount_none hnone)
  · exact (exec_cbwait false hw).trans (handleCount_none hnone)
  · exact (exec_cbadv hb).trans (handleCount_ok hx (decide_eq_true hv))
  · exact (exec_cbadv hb).trans (handleCount_past hx (decide_eq_false (Nat.not_le.mpr hv)))
  · exact (exec_cbpush hb).trans (handleCount_ok hx (decide_eq_true hv))
  · exact (exec_cbpush hb).trans (handleCount_past hx (decide_eq_false (Nat.not_le.mpr hv)))
  · refine (exec_cbwait free hw).trans ((handleCount_ok hx ?_).trans (if_pos hge))
    exact Bool.and_eq_true_iff.mpr ⟨decide_eq_true h1, decide_eq_true hv⟩
  · refine (exec_cbwait free hw).trans ((handleCount_ok hx ?_).trans (if_neg (Nat.not_le.mpr hlt)))
    exact Bool.and_eq_true_iff.mpr ⟨decide_eq_true h1, decide_eq_true hv⟩
  · refine (exec_cbwait free hw).trans (handleCount_past hx ?_)
    rw [Bool.and_eq_false_iff, decide_eq_false_iff_not, decide_eq_false_iff_not]
    exact hv.imp (fun (h0 : v = 0) => by omega) Nat.not_le.mpr

end Sys2Proof.Proofs
end

