-- ==== Sys2Proof/Proofs/Helpers.lean ====
section
/-! PROOFS. Helpers and groups (O45): the statement fails at what HJOIN leaves of the order of memory. -/

namespace Sys2Proof.Proofs

open Sys2Proof.Machine Sys2Proof.Laws

/-- A byte of the scratchpad that helper 1 wrote before it ended, and of which the control context may still read the older value
(R210, R211). -/
def writeOfHelper : Unseen where
  stamp := 1
  unit := 0
  loc := 0
  old := 0
  heads := []
  owner := .ctx 1
  readers := [.ctx 0]
  firm := []
  ended := [1]
  carried := []

/-- A core whose helper 1 has ended after a write that the control context has not seen. -/
def beforeJoin : State :=
  { State.reset with vis := { unseen := [writeOfHelper], heads := [], met := [], fences := [], count := 1 } }

/-- How many writes some agent may still read past, after an outcome that is a state. -/
def unseenWrites (o : Out) : Nat :=
  match o with
  | .next t => t.vis.unseen.length
  | _ => 0

/-- What happens before a helper's end happens before what follows its HJOIN (R210): the control context has then seen the write. -/
theorem hjoin_shows_write : unseenWrites (exec (.hjoin 1 0) beforeJoin) = 0 := rfl

theorem regsFree_beforeJoin : RegsFree beforeJoin [0, 0] [0] := by
  refine ⟨fun r hr => ?_, fun r _ => by simp [beforeJoin, State.reset, State.ctx, Ctx.idle]⟩
  obtain rfl : r = 0 := by simpa using hr
  rfl

/-- Refutes O45: its clause for the HJOIN of a helper that has ended says that the state is `doneG` of the state before, so that nothing
but a register and the pc changes, while the model's HJOIN also lets its context see what the helper wrote (`helperJoined`, R210):
here the control context may read past a helper's write before the HJOIN and not after it. -/
theorem not_helperAndGroupResults : ¬ Obligations.HelperAndGroupResults := by
  unfold Obligations.HelperAndGroupResults
  rintro ⟨hhelpers, -⟩
  obtain ⟨-, -, -, -, hjoin, -⟩ := hhelpers beforeJoin 1 0 0 0 regsFree_beforeJoin
  obtain ⟨-, hended⟩ := hjoin (by decide) rfl
  have hcount : unseenWrites (exec (.hjoin 1 0) beforeJoin) = 1 := by
    rw [hended rfl]
    rfl
  rw [hjoin_shows_write] at hcount
  cases hcount

end Sys2Proof.Proofs
end

