-- ==== Sys2Proof/Proofs/Commands.lean ====
section
/-! PROOFS. Engine commands enter the job queue (O38): their alignment test, their limits, and what an enqueued command leaves. -/

namespace Sys2Proof.Proofs

open Sys2Proof.Machine Sys2Proof.Laws

/-! ### Alignment (R105, R231) -/

/-- The test that each of the named registers holds a multiple of its number, in order. -/
def alignedBy (s : State) (l : List (GReg × Nat)) : Chk Unit :=
  match l with
  | [] => .ok ()
  | p :: l => (multipleOf p.2 (getG s s.cur p.1)).andThen fun _ => alignedBy s l

/-- The register's value is no multiple of its number. -/
def offBoundary (s : State) (p : GReg × Nat) : Bool := decide ((getG s s.cur p.1).toNat % p.2 ≠ 0)

/-- The first register that fails its test stands in the fault (R105; log 42). -/
theorem alignedBy_eq (s : State) (l : List (GReg × Nat)) :
    alignedBy s l = match l.find? (offBoundary s) with
      | some p => .error { cls := .misaligned, addr := getG s s.cur p.1 }
      | none => .ok () := by
  induction l with
  | nil => rfl
  | cons p l ih =>
    by_cases hp : (getG s s.cur p.1).toNat % p.2 = 0
    · simp [alignedBy, multipleOf, demand, Chk.andThen, hp, offBoundary, ih]
    · simp [alignedBy, multipleOf, demand, Chk.andThen, hp, offBoundary]

theorem alignedBy_single (s : State) (r : GReg) (n : Nat) : alignedBy s [(r, n)] = multipleOf n (getG s s.cur r) := by
  by_cases h : (getG s s.cur r).toNat % n = 0 <;> simp [alignedBy, multipleOf, demand, Chk.andThen, h]

theorem alignedBy_pair (s : State) (r q : GReg) (n m : Nat) :
    alignedBy s [(r, n), (q, m)] = (multipleOf n (getG s s.cur r)).andThen fun _ => multipleOf m (getG s s.cur q) := by
  rw [alignedBy, alignedBy_single]

/-! ### What an enqueued command leaves (R35, R38) -/

/-- The state in which a command of the current context has entered the queue and its context goes on. -/
def pushed (s : State) (j : Job) : State := retire (pushJob s j) s.cur 4

theorem pushed_jobs (s : State) (j : Job) : (pushed s j).clu.jobs = s.clu.jobs ++ [j] := rfl

theorem pushed_ctx {s : State} {j : Job} (hj : j.ctx = s.cur) :
    (pushed s j).ctx s.cur =
      { s.ctx s.cur with pend := (s.ctx s.cur).pend.set j.sreg.val (some j.id) j.sreg.isLt, deps := []
                         pc := (s.ctx s.cur).pc + 4 } := by
  rw [pushed, ctx_retire_same, pushJob, hj, ctx_inherit]
  simp [State.ctx, State.setCtx]

theorem pushed_ctx_other {s : State} {j : Job} (hj : j.ctx = s.cur) {c : Fin 8} (hc : c ≠ s.cur) :
    (pushed s j).ctx c = s.ctx c := by
  rw [pushed, ctx_retire_other hc, pushJob, hj, ctx_inherit]
  exact ctx_setCtx_other hc

theorem pushed_getG {s : State} {j : Job} (hj : j.ctx = s.cur) (r : GReg) : getG (pushed s j) s.cur r = getG s s.cur r :=
  getG_of_ctx (by rw [pushed_ctx hj]) r

/-- A command that the queue has taken: the statement's `enters` for a state and a job. -/
def Enqueued (s t : State) (j : Job) (gs : GReg) (cmd : Cmd) (ga gb : GReg) : Prop :=
  t.clu.jobs = s.clu.jobs ++ [j] ∧ j.cmd = cmd ∧ j.ctx = s.cur ∧ j.sreg = gs ∧ j.a = getG s s.cur ga ∧
    j.b = getG s s.cur gb ∧ j.preds = (s.ctx s.cur).deps ∧ j.started = false ∧ j.remote = none ∧
    (j.status = none ↔ ∀ p ∈ j.preds, p.outcome ≠ some true) ∧ isPending t s.cur gs = true ∧
    (t.ctx s.cur).pend[gs.val] = some j.id ∧ (t.ctx s.cur).deps = [] ∧ (t.ctx s.cur).pc = (s.ctx s.cur).pc + 4 ∧
    (∀ r, getG t s.cur r = getG s s.cur r) ∧ (∀ c, c ≠ s.cur → t.ctx c = s.ctx c) ∧ MemoryKept s t

/-- A new command is cancelled from the start exactly when one of its recorded predecessors has ended with an error (R38). -/
theorem newJob_status (s : State) (gs : GReg) (cmd : Cmd) (a b : Word) :
    (newJob s gs cmd a b).status = none ↔ ∀ p ∈ (newJob s gs cmd a b).preds, p.outcome ≠ some true := by
  simp [newJob]

/-- The job of a new command, which may bear a number (R284). -/
def numberedJob (s : State) (gs : GReg) (cmd : Cmd) (ga gb : GReg) (n : Nat) : Job :=
  { newJob s gs cmd (getG s s.cur ga) (getG s s.cur gb) with seq := n }

/-- The core that gives those numbers, once the group has synchronised (R284, R309). -/
def numbering (s : State) (synced : Bool) (credSeq : Vector Nat 5) : State :=
  { s with core := { s.core with synced := synced, credSeq := credSeq } }

theorem cur_numbering (s : State) (synced : Bool) (credSeq : Vector Nat 5) : (numbering s synced credSeq).cur = s.cur := rfl

theorem ctx_numbering (s : State) (synced : Bool) (credSeq : Vector Nat 5) (c : Fin 8) :
    (numbering s synced credSeq).ctx c = s.ctx c := rfl

theorem enqueued_numberedJob (s : State) {gs : GReg} (hgs : gs ≠ 0) (cmd : Cmd) (ga gb : GReg) (synced : Bool)
    (credSeq : Vector Nat 5) (n : Nat) :
    Enqueued s (pushed (numbering s synced credSeq) (numberedJob s gs cmd ga gb n)) (numberedJob s gs cmd ga gb n) gs cmd ga gb := by
  have hself := pushed_ctx (s := numbering s synced credSeq) (j := numberedJob s gs cmd ga gb n) rfl
  rw [cur_numbering, ctx_numbering] at hself
  have hsreg : (numberedJob s gs cmd ga gb n).sreg = gs := rfl
  refine ⟨pushed_jobs _ _, rfl, rfl, rfl, rfl, rfl, rfl, rfl, rfl, newJob_status s gs cmd (getG s s.cur ga) (getG s s.cur gb), ?_, ?_, ?_, ?_,
    pushed_getG rfl, fun c => pushed_ctx_other (s := numbering s synced credSeq) rfl, memoryKept_refl s⟩
  · simp [isPending, hself, hsreg, hgs]
  · simp [hself, hsreg]
  · rw [hself]
  · rw [hself]

/-- How an instruction whose tests have passed enters the queue or sleeps: the statement's `enters`. -/
def Enters (s : State) (i : Instr) (gs : GReg) (cmd : Cmd) (ga gb : GReg) : Prop :=
  (isPending s s.cur gs = false → s.clu.jobs.length + s.clu.others < 32 →
    ∃ t j, exec i s = .next t ∧ Enqueued s t j gs cmd ga gb) ∧
  (isPending s s.cur gs = true → exec i s = waitFor s (.pending gs)) ∧
  (isPending s s.cur gs = false → 32 ≤ s.clu.jobs.length + s.clu.others → exec i s = waitFor s .queueFull)

theorem queueRoom_iff (s : State) : queueRoom s = true ↔ s.clu.jobs.length + s.clu.others < 32 := by simp [queueRoom]

/-- The order of R35's waits: for the status register, then for room in the queue. -/
theorem enters_of_exec {s t : State} {j : Job} {i : Instr} {gs : GReg} {cmd : Cmd} {ga gb : GReg}
    (hexec : exec i s = if isPending s s.cur gs then waitFor s (.pending gs)
      else if !queueRoom s then waitFor s .queueFull else .next t)
    (h : Enqueued s t j gs cmd ga gb) : Enters s i gs cmd ga gb := by
  refine ⟨fun hp hroom => ⟨t, j, ?_, h⟩, fun hp => ?_, fun hp hfull => ?_⟩
  · simp [hexec, hp, (queueRoom_iff s).mpr hroom]
  · simp [hexec, hp]
  · have hroom : queueRoom s = false := by simp [queueRoom]; omega
    simp [hexec, hp, hroom]

/-! ### The rules that the commands share (R105, R231, R256, R273) -/

/-- A fault without a taint changes no job. -/
theorem raise_clu {s : State} {c : Fin 8} {f : Flt} (hc : f.cls ≠ .uncorrectable) (hb : f.block = none) :
    (raise s c f).clu = s.clu := by
  rw [raise_plain hc hb]
  rfl

section command

variable {s : State} {i : Instr} {gs : GReg} {cmd : Cmd} {ga gb : GReg} {mis : Word → Word → Chk Unit}
  {ok : Word → Word → Bool} {reads data : List GReg}

/-- A command whose operand registers are free tests its operands. -/
theorem command_free (hfree : RegsFree s [0, ga, gb] []) (hreads : ∀ r ∈ reads, r = ga ∨ r = gb) :
    command s gs cmd ga gb mis ok reads data =
      Chk.run s (mis (getG s s.cur ga) (getG s s.cur gb)) fun _ =>
        if gs = 0 ∨ ok (getG s s.cur ga) (getG s s.cur gb) = false then faultCls s .illegalOperand
        else withData s data (enqueue s gs cmd (getG s s.cur ga) (getG s s.cur gb)) := by
  have hfree' : RegsFree s reads [ga, gb] := by
    refine ⟨fun r hr => hfree.1 r ?_, fun r hr => hfree.2 r ?_⟩
    · simp only [List.mem_append, List.mem_cons, List.not_mem_nil, or_false] at hr ⊢
      rcases hr with hr | hr
      · exact .inr (hreads r hr)
      · exact .inr hr
    · simpa using .inr (hreads r hr)
  rw [command, withRegs_free hfree']

theorem command_misaligned (hfree : RegsFree s [0, ga, gb] []) (hreads : ∀ r ∈ reads, r = ga ∨ r = gb) {p : GReg × Nat}
    (hmis : mis (getG s s.cur ga) (getG s s.cur gb) = .error { cls := .misaligned, addr := getG s s.cur p.1 }) :
    command s gs cmd ga gb mis ok reads data = .next (raise s s.cur { cls := .misaligned, addr := getG s s.cur p.1 }) := by
  rw [command_free hfree hreads, hmis]
  rfl

theorem command_refused (hfree : RegsFree s [0, ga, gb] []) (hreads : ∀ r ∈ reads, r = ga ∨ r = gb)
    (hmis : mis (getG s s.cur ga) (getG s s.cur gb) = .ok ())
    (h : gs = 0 ∨ ok (getG s s.cur ga) (getG s s.cur gb) = false) :
    command s gs cmd ga gb mis ok reads data = .next (raise s s.cur { cls := .illegalOperand }) := by
  rw [command_free hfree hreads, hmis, Chk.run, if_pos h]
  rfl

theorem command_enqueues (hfree : RegsFree s [0, ga, gb] []) (hreads : ∀ r ∈ reads ++ data, r = ga ∨ r = gb)
    (hmis : mis (getG s s.cur ga) (getG s s.cur gb) = .ok ()) (hgs : gs ≠ 0)
    (hok : ok (getG s s.cur ga) (getG s s.cur gb) = true) :
    command s gs cmd ga gb mis ok reads data = enqueue s gs cmd (getG s s.cur ga) (getG s s.cur gb) := by
  have hdata : ∀ r ∈ data, r ∈ [0, ga, gb] := fun r hr => by
    simpa using .inr (hreads r (List.mem_append_right _ hr))
  rw [command_free hfree fun r hr => hreads r (List.mem_append_left _ hr), hmis, Chk.run, if_neg (by simp [hgs, hok]),
    withData_free hfree hdata]

end command

/-- What the statement says of a command, from what its model's definition gives `command`. -/
theorem command_rules {s : State} {i : Instr} {gs : GReg} {cmd : Cmd} {ga gb : GReg} {mis : Word → Word → Chk Unit}
    {ok : Word → Word → Bool} {reads data : List GReg} {aligned : List (GReg × Nat)} {limits : Prop}
    (hexec : exec i s = command s gs cmd ga gb mis ok reads data) (hreads : ∀ r ∈ reads ++ data, r = ga ∨ r = gb)
    (hmis : mis (getG s s.cur ga) (getG s s.cur gb) = alignedBy s aligned)
    (hok : ok (getG s s.cur ga) (getG s s.cur gb) = true ↔ limits) (hfree : RegsFree s [0, ga, gb] []) :
    (∀ p, aligned.find? (offBoundary s) = some p →
      exec i s = .next (raise s s.cur { cls := .misaligned, addr := getG s s.cur p.1 })) ∧
    (aligned.find? (offBoundary s) = none →
      (gs = 0 ∨ ¬ limits → exec i s = .next (raise s s.cur { cls := .illegalOperand })) ∧
      (gs ≠ 0 → limits → Enters s i gs cmd ga gb)) := by
  have hreads' : ∀ r ∈ reads, r = ga ∨ r = gb := fun r hr => hreads r (List.mem_append_left _ hr)
  rw [alignedBy_eq] at hmis
  constructor
  · intro p hp
    rw [hp] at hmis
    rw [hexec, command_misaligned hfree hreads' hmis]
  · intro hnone
    rw [hnone] at hmis
    constructor
    · intro h
      rw [hexec, command_refused hfree hreads' hmis]
      rwa [← hok, Bool.not_eq_true] at h
    · intro hgs h
      refine enters_of_exec ?_ (enqueued_numberedJob s hgs cmd ga gb s.core.synced s.core.credSeq 0)
      rw [hexec, command_enqueues hfree hreads hmis hgs (hok.mpr h)]
      rfl

/-! ### Limits -/

theorem onlyBits_iff (w : Word) (n : Nat) : onlyBits w n = true ↔ w.toNat < 2 ^ n := by simp [onlyBits]

theorem strideOk_iff (bolt : Bool) (b : Word) :
    strideOk bolt b = true ↔ b.toNat % 2 ^ 16 % 8 = 0 ∧ (bolt = true → b.toNat % 2 ^ 16 = 0) := by
  cases bolt <;> simp [strideOk]

theorem slotOk_iff (sl : Bool) (b : Word) : slotOk sl b = true ↔ b.toNat < (if sl then 64 else 1) := by
  cases sl
  · simp [slotOk, ← BitVec.toNat_inj]
  · simp [slotOk, onlyBits]

theorem tldLimits_iff (x : TldArgs) (b : Word) : (strideOk x.bolt b && onlyBits b (if x.s then 22 else 16)) = true ↔
    b.toNat % 2 ^ 16 % 8 = 0 ∧ (x.bolt = true → b.toNat % 2 ^ 16 = 0) ∧ b.toNat < (if x.s then 2 ^ 22 else 2 ^ 16) := by
  rw [Bool.and_eq_true, strideOk_iff, onlyBits_iff, and_assoc, apply_ite (2 ^ ·)]

theorem tmmaLimits_iff (x : TmmaArgs) (a b : Word) : (onlyBits a (if x.h then 3 else 6) && onlyBits b 10) = true ↔
    a.toNat < (if x.h then 8 else 64) ∧ b.toNat < 1024 := by
  cases x.h <;> simp [onlyBits]

theorem twldLimits_iff (b : Word) :
    (onlyBits b 27 && decide (bits b.toNat 10 6 = 0) && decide (1 ≤ bits b.toNat 16 11) &&
      decide (bits b.toNat 0 10 + bits b.toNat 16 11 ≤ 1024)) = true ↔
    b.toNat < 2 ^ 27 ∧ b.toNat / 2 ^ 10 % 64 = 0 ∧ 1 ≤ b.toNat / 2 ^ 16 ∧ b.toNat % 2 ^ 10 + b.toNat / 2 ^ 16 ≤ 1024 := by
  simp only [onlyBits, Bool.and_eq_true, decide_eq_true_eq, and_assoc]
  refine and_congr_right fun hlt => ?_
  have hcount : bits b.toNat 16 11 = b.toNat / 2 ^ 16 := Nat.mod_eq_of_lt (by omega)
  have hfirst : bits b.toNat 0 10 = b.toNat % 2 ^ 10 := by rw [bits, pow_zero, Nat.div_one]
  rw [hcount, hfirst]
  rfl

theorem tcapLimits_iff (b : Word) :
    (onlyBits b 31 && decide (bits b.toNat 0 4 ≠ 0) && decide (bits b.toNat 4 12 = 0) && decide (1 ≤ bits b.toNat 16 15)) = true ↔
    b.toNat < 2 ^ 31 ∧ b.toNat % 16 ≠ 0 ∧ b.toNat / 16 % 2 ^ 12 = 0 ∧ 1 ≤ b.toNat / 2 ^ 16 := by
  simp only [onlyBits, Bool.and_eq_true, decide_eq_true_eq, and_assoc]
  refine and_congr_right fun hlt => ?_
  have htop : bits b.toNat 16 15 = b.toNat / 2 ^ 16 := Nat.mod_eq_of_lt (by omega)
  have hlow : bits b.toNat 0 4 = b.toNat % 2 ^ 4 := by rw [bits, pow_zero, Nat.div_one]
  rw [htop, hlow]
  rfl

theorem listOk_iff (a b : Word) : listOk a b = true ↔ a.toNat < 0x20000 ∧ 1 ≤ b.toNat ∧ b.toNat ≤ 4096 := by
  simp only [listOk, Bool.and_eq_true, decide_eq_true_eq, and_assoc]
  rfl

theorem neuronRangeOk_iff (a b : Word) : neuronRangeOk a b = true ↔
    a.toNat < 0x20000 ∧ b.toNat < 2 ^ 25 ∧ 1 ≤ b.toNat / 2 ^ 12 ∧ b.toNat % 2 ^ 12 + b.toNat / 2 ^ 12 ≤ 4096 := by
  simp only [neuronRangeOk, Bool.and_eq_true, decide_eq_true_eq, and_assoc]
  rfl

theorem ruleRangeOk_iff (a b : Word) : ruleRangeOk a b = true ↔ a.toNat < 2 ^ 31 ∧ b.toNat < 2 ^ 32 := by
  simp only [ruleRangeOk, Bool.and_eq_true, decide_eq_true_eq]

/-- With SPLIT the first bias is 0 (R256). -/
theorem splitBias_iff (f : Bool) (b : Word) : (!f || decide (b = 0)) = true ↔ (f = true → b.toNat = 0) := by
  cases f <;> simp [← BitVec.toNat_inj]

/-! ### TST (R234) -/

/-- Bit 32 of a value, as the statement reads it. -/
theorem getLsbD_32 (b : Word) : b.getLsbD 32 = decide (b.toNat / 2 ^ 32 % 2 = 1) := by
  rw [BitVec.getLsbD, Nat.testBit_eq_decide_div_mod_eq]

/-- A TST of a ring has no address to align. -/
theorem tstAligned (s : State) (ga gb : GReg) :
    (if (getG s s.cur gb).getLsbD 32 then Except.ok () else tileAlign (getG s s.cur ga) (getG s s.cur gb)) =
      alignedBy s (if (getG s s.cur gb).toNat / 2 ^ 32 % 2 = 1 then []
        else [(ga, if (getG s s.cur gb).toNat % 2 ^ 16 = 0 then 64 else 8)]) := by
  rw [getLsbD_32]
  by_cases h : (getG s s.cur gb).toNat / 2 ^ 32 % 2 = 1
  · rw [if_pos h, if_pos (decide_eq_true h)]
    rfl
  · rw [if_neg h, if_neg (by simpa using h), alignedBy_single]
    rfl

/-- The handle that a TST of a ring names is configured and its pages hold the tile (R234). -/
def ringTakes (s : State) (x : TstArgs) (a b : Word) : Prop :=
  a.toNat < 8 ∧ b.toNat % 2 ^ 16 = 0 ∧ ∃ h, getHandle s s.cur (Fin.ofNat 8 a.toNat) = some h ∧
    ∀ n, tstBytes s x b = some n → n + (if x.bolt then 256 else 0) ≤ h.size

theorem tstOk_iff (s : State) (x : TstArgs) (a b : Word) : tstOk s x a b = true ↔
    b.toNat < 2 ^ 33 ∧ b.toNat % 2 ^ 16 % 8 = 0 ∧ (x.bolt = true → b.toNat % 2 ^ 16 = 0) ∧ b.toNat / 2 ^ 22 % 4 = 0 ∧
      (if x.s then b.toNat / 2 ^ 24 % 256 = 0 else b.toNat / 2 ^ 16 % 64 = 0 ∧
        b.toNat / 2 ^ 24 % 256 ∈ [0x00, 0x09, 0x0A, 0x0B, 0x0C, 0x0D]) ∧
      (b.toNat / 2 ^ 32 % 2 = 1 → ringTakes s x a b) := by
  unfold tstOk ringTakes
  generalize getHandle s s.cur (Fin.ofNat 8 a.toNat) = h
  generalize tstBytes s x b = n
  have hformat : (if x.s then decide (bits b.toNat 24 8 = 0)
      else decide (bits b.toNat 16 6 = 0) && [0x00, 0x09, 0x0A, 0x0B, 0x0C, 0x0D].contains (bits b.toNat 24 8)) = true ↔
      if x.s then b.toNat / 2 ^ 24 % 256 = 0 else b.toNat / 2 ^ 16 % 64 = 0 ∧
        b.toNat / 2 ^ 24 % 256 ∈ [0x00, 0x09, 0x0A, 0x0B, 0x0C, 0x0D] := by
    cases x.s
    · rw [if_neg Bool.false_ne_true, if_neg Bool.false_ne_true, Bool.and_eq_true, decide_eq_true_iff, List.contains_iff_mem]
      rfl
    · exact decide_eq_true_iff
  simp only [Bool.and_eq_true, onlyBits_iff, strideOk_iff, hformat, Bool.or_eq_true, getLsbD_32, Bool.not_eq_true',
    decide_eq_false_iff_not, decide_eq_true_eq, ← imp_iff_not_or, and_assoc]
  rcases h with _ | h
  · simp [bits]
  · rcases n with _ | n
    · simp [bits]
    · simp [bits]

/-! ### CRED (R273, R284) -/

theorem syncRefused_iff (s : State) (level : Fin 5) :
    syncRefused s level = true ↔ s.cur ≠ 0 ∨ (level ≠ 0 ∧ notCoResident s = true) := by
  simp only [syncRefused, Bool.or_eq_true, Bool.not_eq_true', decide_eq_false_iff_not, Bool.and_eq_true, decide_eq_true_eq,
    Nat.one_le_iff_ne_zero, ne_eq, Fin.ext_iff, Fin.val_zero]

/-- The core once a CRED at a level has been given its number (R284). -/
def numbered (s : State) (level : Fin 5) : State :=
  numbering s true (s.core.credSeq.set level.val (s.core.credSeq[level.val]'level.isLt + 1) level.isLt)

/-- The job of a CRED, with its number. -/
def credJob (s : State) (x : CredArgs) : Job :=
  numberedJob s x.gs (.cred x.level) x.ga 0 (s.core.credSeq[x.level.val]'x.level.isLt)

/-- A numbered job enters the queue as any other. -/
theorem enqueued_cred (s : State) {x : CredArgs} (hgs : x.gs ≠ 0) :
    Enqueued s (pushed (numbered s x.level) (credJob s x)) (credJob s x) x.gs (.cred x.level) x.ga 0 :=
  enqueued_numberedJob s hgs (.cred x.level) x.ga 0 true _ _

section cred

variable {s : State} {x : CredArgs}

/-- Where a CRED is refused (R284). -/
theorem credRefused_iff : (syncRefused s x.level || s.core.phase.isSome) = true ↔
    s.cur ≠ 0 ∨ (x.level ≠ 0 ∧ notCoResident s = true) ∨ s.core.phase.isSome = true := by
  rw [Bool.or_eq_true, syncRefused_iff, or_assoc]

theorem cred_misaligned (hfree : RegsFree s [0, x.ga] []) (h : (getG s s.cur x.ga).toNat % 32 ≠ 0) :
    exec (.cred x) s = .next (raise s s.cur { cls := .misaligned, addr := getG s s.cur x.ga }) := by
  show withRegs s [x.ga] [] _ = _
  rw [withRegs_free (regsFree_mono hfree (by simp) (by simp))]
  simp only [multipleOf, demand, decide_eq_true_eq, if_neg h]
  rfl

/-- What follows once the alignment of CRED's operand has been tested. -/
theorem cred_aligned (hfree : RegsFree s [0, x.ga] []) (h : (getG s s.cur x.ga).toNat % 32 = 0) :
    exec (.cred x) s =
      if x.gs = 0 ∨ recordOk (getG s s.cur x.ga) 0 = false then faultCls s .illegalOperand
      else if syncRefused s x.level || s.core.phase.isSome then faultCls s .illegalSync
      else if isPending s s.cur x.gs then waitFor s (.pending x.gs)
      else if !queueRoom s then waitFor s .queueFull
      else .next (pushed (numbered s x.level) (credJob s x)) := by
  show withRegs s [x.ga] [] _ = _
  rw [withRegs_free (regsFree_mono hfree (by simp) (by simp))]
  simp only [multipleOf, demand, decide_eq_true_eq, if_pos h]
  rfl

end cred

/-- Settles O38: every command but CRED is `command` with its own registers, alignment and limits; CRED numbers its job and is refused
where a barrier would be. -/
theorem engineCommandsEnter : Obligations.EngineCommandsEnter := by
  unfold Obligations.EngineCommandsEnter
  intro s A raised enters rules spad stride tile range code ring
  have hrules : ∀ {i : Instr} (o : Out) {gs : GReg} {cmd : Cmd} {ga gb : GReg} {mis : Word → Word → Chk Unit}
      {ok : Word → Word → Bool} {reads data : List GReg} {aligned : List (GReg × Nat)} {limits : Prop},
      exec i s = o → o = command s gs cmd ga gb mis ok reads data → (∀ r ∈ reads ++ data, r ∈ [ga, gb]) →
      mis (getG s s.cur ga) (getG s s.cur gb) = alignedBy s aligned →
      (ok (getG s s.cur ga) (getG s s.cur gb) = true ↔ limits) → rules i gs cmd ga gb aligned limits := by
    intro i o gs cmd ga gb mis ok reads data aligned limits hexec ho hreads hmis hok hfree
    obtain ⟨hoff, hon⟩ := command_rules (hexec.trans ho) (fun r hr => by simpa using hreads r hr) hmis hok hfree
    split
    next p hp => exact ⟨hoff p hp, raise_clu nofun rfl⟩
    next hnone =>
      obtain ⟨hbad, henters⟩ := hon hnone
      exact ⟨fun h => ⟨hbad h, raise_clu nofun rfl⟩, henters⟩
  have hboth : ∀ {p q : GReg}, ∀ r ∈ [p, q] ++ [], r ∈ [p, q] := fun r hr => hr
  have hone : ∀ {r : GReg} {n : Nat}, multipleOf n (getG s s.cur r) = alignedBy s [(r, n)] := (alignedBy_single s _ _).symm
  have hnone : Except.ok () = alignedBy s [] := rfl
  have hspad : ∀ w v : Word, recordOk w v = true ↔ w.toNat < 0x20000 := fun w v => decide_eq_true_iff
  have hrecord : ∀ {i : Instr} {gs : GReg} {cmd : Cmd} {ga : GReg}, exec i s = recordCommand s gs cmd ga →
      rules i gs cmd ga 0 [(ga, 32)] (spad ga) := fun h => hrules _ h rfl hboth hone (hspad _ _)
  have hgram : ∀ {i : Instr} (o : Out) {gs : GReg} {cmd : Cmd} {ga gb : GReg} {ok : Word → Bool} {tested data : Bool} {limits : Prop},
      exec i s = o → o = gramRecord s gs cmd ga gb ok tested data →
      (spad ga ∧ ok (getG s s.cur gb) = true ↔ limits) → rules i gs cmd ga gb [(ga, 32)] limits := by
    intro i o gs cmd ga gb ok tested data limits hexec ho hlimits
    refine hrules o hexec ho ?_ hone ?_
    · cases tested <;> cases data <;> simp
    · rw [Bool.and_eq_true, decide_eq_true_iff]
      exact hlimits
  refine ⟨fun x => ?tld, fun x => ?tst, fun x => ?tmma, fun x => ?twld, fun x => ⟨?tzero, ?tvfy⟩, fun x => ?tscale,
    fun x => ⟨?trem, ?tcap, ?tcfg, ?cqput, ?nbpost, ?nbspk, ?nbrd, ?nbwr⟩,
    fun x => ⟨?tcbt, ?nbcfg, ?cgather, ?cscatter, ?nbadv⟩, fun x => ?cpy, fun x => ?cred, fun x => ?gbind,
    fun x => ⟨?geval, ?glen, ?glook⟩, fun x => ⟨?gspine, ?gunf, ?gocc⟩, fun x => ?gloc, fun x => ?grelease,
    fun x => ⟨?rfmatch, ?rfmerge, ?rfshake, ?rflogs⟩, fun x => ?rffree⟩
  case tld => exact hrules (execTld x s) rfl rfl hboth hone (tldLimits_iff x _)
  case tst => exact hrules (execTst x s) rfl rfl hboth (tstAligned s x.ga x.gb) (tstOk_iff s x _ _)
  case tmma => exact hrules (execTmma x s) rfl rfl hboth hnone (tmmaLimits_iff x _ _)
  case twld => exact hrules (execTwld x s) rfl rfl hboth hone (twldLimits_iff _)
  case tzero => exact hrules (execTzero x s) rfl rfl hboth hnone (slotOk_iff _ _)
  case tvfy => exact hrules (execTvfy x s) rfl rfl hboth hnone (slotOk_iff _ _)
  case tscale => exact hrules (execTscale x s) rfl rfl hboth hnone (by rw [Bool.and_eq_true, onlyBits_iff, slotOk_iff])
  case trem => exact hrules (execTrem x s) rfl rfl (by simp) hone (hspad _ 0)
  case tcap => exact hrules (execTcap x s) rfl rfl hboth hone (tcapLimits_iff _)
  case tcfg => exact hrules (execTcfg x s) rfl rfl hboth hone decide_eq_true_iff
  case cqput => exact hrules (execCqput x s) rfl rfl hboth (alignedBy_pair ..).symm (hspad _ 0)
  case nbpost => exact hrules (execNbpost x s) rfl rfl hboth hone (listOk_iff _ _)
  case nbspk => exact hrules (execNbspk x s) rfl rfl hboth hone (listOk_iff _ _)
  case nbrd => exact hrules (execNbrd x s) rfl rfl hboth hone (neuronRangeOk_iff _ _)
  case nbwr => exact hrules (execNbwr x s) rfl rfl hboth hone (neuronRangeOk_iff _ _)
  case tcbt => exact hrules (execTcbt x s) rfl rfl hboth hone (iff_of_true rfl trivial)
  case nbcfg => exact hrules (execNbcfg x s) rfl rfl hboth hone (iff_of_true rfl trivial)
  case cgather => exact hrecord rfl
  case cscatter => exact hrecord rfl
  case nbadv => exact hrules (execNbadv x s) rfl rfl hboth hnone decide_eq_true_iff
  case cpy => exact hrecord rfl
  case cred =>
    intro hfree
    have hrec : recordOk (getG s s.cur x.ga) 0 = true ↔ spad x.ga := hspad _ 0
    refine ⟨fun hoff => ⟨cred_misaligned hfree hoff, raise_clu nofun rfl⟩, fun hon => ⟨fun hbad => ⟨?_, raise_clu nofun rfl⟩,
      fun hgs hin => ?_⟩⟩
    · rw [cred_aligned hfree hon, if_pos (hbad.imp_right fun h => Bool.eq_false_iff.mpr (h ∘ hrec.mp))]
      rfl
    · have hlimits : ¬(x.gs = 0 ∨ recordOk (getG s s.cur x.ga) 0 = false) := not_or.mpr ⟨hgs, by rw [hrec.mpr hin]; nofun⟩
      refine ⟨fun href => ⟨?_, raise_clu nofun rfl⟩, fun href => enters_of_exec ?_ (enqueued_cred s hgs)⟩
      · rw [cred_aligned hfree hon, if_neg hlimits, if_pos (credRefused_iff.mpr href)]
        rfl
      · rw [cred_aligned hfree hon, if_neg hlimits, if_neg (href ∘ credRefused_iff.mp)]
  case gbind => exact hrules (execGbind x s) rfl rfl hboth hone (iff_of_true rfl trivial)
  case geval => exact hrules (execGeval x s) rfl rfl hboth hnone (ruleRangeOk_iff _ _)
  case glen => exact hrules (execGlen x s) rfl rfl hboth hnone (ruleRangeOk_iff _ _)
  case glook => exact hrules (execGlook x s) rfl rfl hboth hone decide_eq_true_iff
  case gspine => exact hgram (execGspine x s) rfl rfl (and_iff_left rfl)
  case gunf => exact hgram (execGunf x s) rfl rfl (and_iff_left rfl)
  case gocc => exact hgram (execGocc x s) rfl rfl (and_congr_right' (splitBias_iff ..))
  case gloc => exact hgram (execGloc x s) rfl rfl (and_iff_left rfl)
  case grelease => exact hrules (execGrelease x s) rfl rfl hboth hnone (iff_of_true rfl trivial)
  case rfmatch => exact hrecord rfl
  case rfmerge => exact hrecord rfl
  case rfshake => exact hrecord rfl
  case rflogs => exact hrules (execRflogs x s) rfl rfl hboth hone (hspad _ _)
  case rffree => exact hrules (execRffree x s) rfl rfl hboth hnone (iff_of_true rfl trivial)

end Sys2Proof.Proofs
end

