-- ==== Sys2Proof/Proofs/StoredState.lean ====
section
/-! PROOFS. What a store keeps of the core's own registers and of its contexts, and that its bytes read back. -/

namespace Sys2Proof.Proofs

open Sys2Proof.Machine Sys2Proof.Laws

/-! ### The core and its contexts (R175, R190, R224) -/

/-- Of a core's registers only the watch table, the tile slots' state bits and those of the accumulators may differ. -/
def CoreBesideStores (k m : CoreRegs) : Prop := m = { k with watch := m.watch, tiles := m.tiles, acc := m.acc }

/-- Of a context only the notice of the watch table may differ. -/
def CtxBesideStores (x y : Ctx) : Prop := y = { x with notice := y.notice }

/-- What every store keeps besides its frame. -/
structure StoreKeeps (s t : State) : Prop where
  core : CoreBesideStores s.core t.core
  ctx  : ∀ c, CtxBesideStores (s.ctx c) (t.ctx c)

theorem storeKeeps_refl (s : State) : StoreKeeps s s := ⟨rfl, fun _ => rfl⟩

theorem StoreKeeps.trans {s t u : State} (h : StoreKeeps s t) (k : StoreKeeps t u) : StoreKeeps s u := by
  refine ⟨?_, fun c => ?_⟩
  · have hcore := k.core
    rw [CoreBesideStores, h.core] at hcore
    exact hcore
  · have hctx := k.ctx c
    rw [CtxBesideStores, h.ctx c] at hctx
    exact hctx

theorem storeKeeps_foldl {α : Type} {f : State → α → State} (hf : ∀ s a, StoreKeeps s (f s a)) (l : List α) (s : State) :
    StoreKeeps s (l.foldl f s) := by
  induction l generalizing s with
  | nil => exact storeKeeps_refl s
  | cons a l ih => exact (hf s a).trans (ih (f s a))

/-- A change of the watch table, the tile slots' state bits and those of the accumulators alone. -/
theorem storeKeeps_of_core {s t : State} (hc : t.ctxs = s.ctxs) (h : CoreBesideStores s.core t.core) : StoreKeeps s t :=
  ⟨h, fun c => by
    have hctx : t.ctx c = s.ctx c := by simp only [State.ctx, hc]
    rw [hctx]
    rfl⟩

theorem notice_keeps (s : State) (c : Fin 8) : StoreKeeps s (s.setCtx c { s.ctx c with notice := true }) := by
  refine ⟨rfl, fun d => ?_⟩
  by_cases h : d = c
  · subst h
    rw [ctx_setCtx_same]
    rfl
  · rw [ctx_setCtx_other h]
    rfl

theorem fireWatches_keeps (s : State) (loc n : Nat) : StoreKeeps s (fireWatches s loc n) := by
  unfold fireWatches
  split
  · exact storeKeeps_refl s
  · refine StoreKeeps.trans ?_ (storeKeeps_foldl notice_keeps _ _)
    exact storeKeeps_of_core rfl rfl

theorem poke_keeps (s : State) (loc : Nat) (bs : List Byte) : StoreKeeps s (poke s loc bs) := by
  refine StoreKeeps.trans ?_ (fireWatches_keeps _ _ _)
  exact storeKeeps_of_core rfl rfl

theorem pokeMasked_keeps (s : State) (loc : Nat) (bs : List Byte) (act : Nat → Bool) :
    StoreKeeps s (pokeMasked s loc bs act) := by
  unfold pokeMasked
  have hbytes := storeKeeps_foldl (f := fun s i => setBytes s (loc + i) [bs.getD i 0])
    (fun _ _ => storeKeeps_of_core rfl rfl) ((List.range bs.length).filter act) s
  refine (hbytes.trans ?_).trans (storeKeeps_foldl (fun u (e : WatchEntry) => notice_keeps u e.owner) _ _)
  exact storeKeeps_of_core rfl rfl

theorem setTileBits_keeps (s : State) (t : Nat) (u p : Bool) : StoreKeeps s (setTileBits s t u p) := by
  unfold setTileBits
  split
  · split
    · exact storeKeeps_refl s
    · exact storeKeeps_of_core rfl rfl
  · split
    · exact storeKeeps_of_core rfl rfl
    · exact storeKeeps_refl s

theorem storeIntoSlot_keeps (old : State) (hit : Nat → Bool) (s : State) (t : Nat) :
    StoreKeeps s (storeIntoSlot old hit s t) := by
  unfold storeIntoSlot
  split
  · exact storeKeeps_refl s
  · split
    · exact storeKeeps_refl s
    · dsimp only
      split
      · exact storeKeeps_refl s
      · split
        · exact storeKeeps_of_core rfl rfl
        · exact setTileBits_keeps ..

theorem store_keeps (s : State) (loc : Nat) (bs : List Byte) : StoreKeeps s (store s loc bs) :=
  (poke_keeps s loc bs).trans (storeKeeps_foldl (fun u t => storeIntoSlot_keeps s _ u t) _ _)

theorem storeMasked_keeps (s : State) (loc : Nat) (bs : List Byte) (act : Nat → Bool) :
    StoreKeeps s (storeMasked s loc bs act) :=
  (pokeMasked_keeps s loc bs act).trans (storeKeeps_foldl (fun u t => storeIntoSlot_keeps s _ u t) _ _)

theorem storeRuns_keeps (s : State) (runs : List (Nat × Nat)) (bs : List Byte) : StoreKeeps s (storeRuns s runs bs) := by
  induction runs generalizing s bs with
  | nil => exact storeKeeps_refl s
  | cons r runs ih => exact (store_keeps s r.1 _).trans (ih _ _)

theorem noteStore_keeps (s : State) (c : Fin 8) (m : AtMode) (r : Bool) (locs : List Nat) :
    StoreKeeps s (noteStore s c m r locs) :=
  storeKeeps_of_core (noteStore_ctxs ..) (by rw [noteStore_core]; rfl)

theorem ctxStoreAs_keeps (s : State) (m : AtMode) (r : Bool) (runs : List (Nat × Nat)) (bs : List Byte) :
    StoreKeeps s (ctxStoreAs s m r runs bs) := (noteStore_keeps ..).trans (storeRuns_keeps ..)

theorem ctxStore_keeps (s : State) (runs : List (Nat × Nat)) (bs : List Byte) : StoreKeeps s (ctxStore s runs bs) :=
  ctxStoreAs_keeps ..

theorem ctxStoreMasked_keeps (s : State) (loc : Nat) (bs : List Byte) (act : Nat → Bool) :
    StoreKeeps s (ctxStoreMasked s loc bs act) := (noteStore_keeps ..).trans (storeMasked_keeps ..)

/-- A store leaves the same context current. -/
theorem StoreKeeps.cur {s t : State} (h : StoreKeeps s t) : t.cur = s.cur := by
  rw [State.cur, h.core]
  rfl

theorem StoreKeeps.pc {s t : State} (h : StoreKeeps s t) (c : Fin 8) : (t.ctx c).pc = (s.ctx c).pc := by
  rw [h.ctx c]

/-! ### The bytes stored (R175, R218, R224) -/

theorem length_leBytes (n x : Nat) : (leBytes n x).length = n := by
  induction n generalizing x with
  | zero => rfl
  | succ n ih => rw [leBytes, List.length_cons, ih]

/-- Each of a boltrope's four lists has 16 entries at most. -/
def BoltFits (b : Bolt) : Prop := b.row.length ≤ 16 ∧ b.col.length ≤ 16 ∧ b.rowMag.length ≤ 16 ∧ b.colMag.length ≤ 16

theorem length_boltBytes_le {b : Bolt} (h : BoltFits b) : (boltBytes b).length ≤ 256 := by
  obtain ⟨hrow, hcol, hrowMag, hcolMag⟩ := h
  rw [boltBytes, packBytes, length_leBytes]
  simp only [List.length_append]
  omega

theorem boltFits_tileBolt (s : State) (t : Nat) : BoltFits (tileBolt s t) := by
  simp [BoltFits, tileBolt, boltOf, unpackBytes]

theorem boltFits_coveredBolt (old new : TileData) (rows : List Nat) {b : Bolt} (h : BoltFits b) :
    BoltFits (coveredBolt old new rows b) := by
  obtain ⟨-, -, hrowMag, hcolMag⟩ := h
  unfold coveredBolt
  dsimp only
  split
  · simp [BoltFits, moveCol]
  · simp [BoltFits, hrowMag, hcolMag]

/-- A location outside the boltropes of the tile slots. -/
def BesideBolts (loc : Nat) : Prop := loc < boltLoc 0 ∨ boltLoc 64 ≤ loc

theorem setTileBolt_get {loc t : Nat} (hloc : BesideBolts loc) (ht : t < 64) {b : Bolt} (hb : BoltFits b) (s : State) :
    Memory.get (setTileBolt s t b).mem loc = Memory.get s.mem loc := by
  have hlen := length_boltBytes_le hb
  refine memory_get_putBytes_outside ?_
  unfold BesideBolts boltLoc at hloc
  unfold boltLoc
  omega

/-- What a store does to a tile slot reaches no byte but the slot's boltrope. -/
theorem storeIntoSlot_get {loc t : Nat} (hloc : BesideBolts loc) (ht : t < 64) (old : State) (hit : Nat → Bool) (s : State) :
    Memory.get (storeIntoSlot old hit s t).mem loc = Memory.get s.mem loc := by
  unfold storeIntoSlot
  split
  · rfl
  · split
    · rfl
    · dsimp only
      split
      · rfl
      · split
        · exact setTileBolt_get hloc ht (boltFits_coveredBolt _ _ _ (boltFits_tileBolt old t)) s
        · rw [setTileBits_mem]

theorem foldl_storeIntoSlot_get {loc : Nat} (hloc : BesideBolts loc) (old : State) (hit : Nat → Bool) {l : List Nat}
    (hl : ∀ t ∈ l, t < 64) (s : State) : Memory.get (l.foldl (storeIntoSlot old hit) s).mem loc = Memory.get s.mem loc := by
  induction l generalizing s with
  | nil => rfl
  | cons t l ih =>
    rw [List.foldl_cons, ih (fun u hu => hl u (List.mem_cons_of_mem _ hu)), storeIntoSlot_get hloc (hl t List.mem_cons_self)]

/-- Outside the boltropes a store writes its bytes and no other. -/
theorem store_get {loc : Nat} (hloc : BesideBolts loc) (s : State) (a : Nat) (bs : List Byte) :
    Memory.get (store s a bs).mem loc = Memory.get (Memory.putBytes s.mem a bs) loc := by
  rw [← poke_mem]
  exact foldl_storeIntoSlot_get hloc s _ (fun t ht => by simpa using (List.mem_filter.mp ht).1) _

theorem memory_bytes_eq (m : Cells) (loc n : Nat) :
    Memory.bytes m loc n = ((List.range n).map fun i => loc + i).map (Memory.get m) := by
  induction n generalizing loc with
  | zero => rfl
  | succ n ih =>
    rw [Memory.bytes, ih, List.range_succ_eq_map]
    simp [Nat.add_comm, Nat.add_left_comm]

/-- A store's bytes read back. -/
theorem store_bytes {s : State} {loc n : Nat} {bs : List Byte} (h : Memory.wf s.mem = true) (hn : bs.length = n)
    (hloc : loc + n ≤ boltLoc 0 ∨ boltLoc 64 ≤ loc) : readBytes (store s loc bs) loc n = bs := by
  subst hn
  have hbeside : ∀ i ∈ List.range bs.length, Memory.get (store s loc bs).mem (loc + i) =
      Memory.get (Memory.putBytes s.mem loc bs) (loc + i) := by
    intro i hi
    have hlt := List.mem_range.mp hi
    exact store_get (by unfold BesideBolts; omega) s loc bs
  have hsame : Memory.bytes (store s loc bs).mem loc bs.length = Memory.bytes (Memory.putBytes s.mem loc bs) loc bs.length := by
    simp only [memory_bytes_eq, List.map_map]
    exact List.map_congr_left hbeside
  exact hsame.trans (memory_bytes_putBytes h)

end Sys2Proof.Proofs
end

