-- ==== Sys2Proof/Proofs/Accesses.lean ====
section
/-! PROOFS. Loads and stores (O26): what a load reads where its context may read something older, the addresses of the handle forms,
and what a store leaves. -/

namespace Sys2Proof.Proofs

open Sys2Proof.Machine Sys2Proof.Laws

/-! ### The steps that accesses share (R40, R171 to R174, R313) -/

theorem aligned_of_mod {s : State} {a n : Nat} {k : Out} (h : a % n = 0) : aligned s a n k = k := if_pos h

theorem pairGate_unpaired {s : State} {a : Nat} (h : Unpaired s a) (data op : Nat) (k : State → Out) :
    pairGate s a data op k = k s := by
  unfold pairGate pairGateIf
  rcases h with h | h
  · simp [h]
  · simp [h]

theorem storeAt_ready {s : State} {a n al : Nat} {runs : List (Nat × Nat)} (h : StoreReady s a n al runs) (x op : Nat)
    (k : State → Out) : storeAt s a n x op k = k (ctxStore s runs (leBytes n x)) := by
  obtain ⟨-, hcheck, hpair⟩ := h
  unfold storeAt
  rw [hcheck, Chk.run, pairGate_unpaired hpair]

theorem loadAt_ready {s : State} {a n al : Nat} {runs : List (Nat × Nat)} (h : ReadReady s a n al runs) (op : Nat)
    (k : Nat → State → Out) :
    loadAt s a n op k = k (leNat (loadAs s plainMode (grainOf op) runs).1) (loadAs s plainMode (grainOf op) runs).2 := by
  obtain ⟨-, hcheck, hpair, -⟩ := h
  unfold loadAt
  rw [hcheck, Chk.run, pairGate_unpaired hpair]

/-! ### What a load may read (R179, R211) -/

/-- A context may read nothing older at a location exactly when it has seen every write to it. -/
theorem oldFor_eq_none_iff {s : State} {c : Fin 8} {l : Nat} :
    oldFor s c l = none ↔ ∀ u ∈ s.vis.unseen, u.loc = l → u.knownTo (.ctx c) = true := by
  simp [oldFor, List.find?_eq_none]

theorem headsAt_eq_nil_iff {v : Visibility} {l : Nat} : v.headsAt l = [] ↔ ∀ h ∈ v.heads, h.1 ≠ l := by
  simp [Visibility.headsAt, List.filter_eq_nil_iff]

/-- A load of bytes whose newest write is all that may be read shows memory. -/
theorem loadSettled_of_seen {s : State} {runs : List (Nat × Nat)} (he : (runLocs runs).any (earlyByte s) = false)
    (h : SeenAt s runs) : loadSettled s plainMode runs = true := by
  have hknown : ∀ u ∈ s.vis.unseen, (!(runLocs runs).contains u.loc || (u.knownTo (.ctx s.cur) && true)) = true := by
    intro u hu
    by_cases hl : u.loc ∈ runLocs runs
    · simp [oldFor_eq_none_iff.mp (h u.loc hl).1 u hu rfl]
    · simp [hl]
  have hheads : ∀ r ∈ s.vis.heads, (!(runLocs runs).contains r.1) = true := by
    intro r hr
    by_cases hl : r.1 ∈ runLocs runs
    · exact absurd rfl (headsAt_eq_nil_iff.mp (h r.1 hl).2 r hr)
    · simp [hl]
  have hearly : ∀ l ∈ runLocs runs, (!earlyByte s l) = true := fun l hl => by simpa using List.any_eq_false.mp he l hl
  simp only [loadSettled, quietAt, Bool.and_eq_true, List.all_eq_true]
  exact ⟨hearly, hknown, hheads⟩

theorem loadAs_of_loadSettled {s : State} {m : AtMode} {runs : List (Nat × Nat)} (h : loadSettled s m runs = true) (g : Nat) :
    loadAs s m g runs = (runsBytes s runs, s) := if_pos h

theorem loadAt_seen {s : State} {a n al : Nat} {runs : List (Nat × Nat)} (h : LoadReady s a n al runs) (op : Nat)
    (k : Nat → State → Out) : loadAt s a n op k = k (leNat (runsBytes s runs)) s := by
  obtain ⟨hready, hseen⟩ := h
  obtain ⟨-, -, -, hearly⟩ := id hready
  rw [loadAt_ready hready, loadAs_of_loadSettled (loadSettled_of_seen hearly hseen)]

/-- Bytes of runs in order are the bytes at their locations. -/
theorem runsBytes_eq (s : State) (runs : List (Nat × Nat)) : runsBytes s runs = (runLocs runs).map (Memory.get s.mem) := by
  simp only [runsBytes, runLocs, readBytes, memory_bytes_eq, List.map_flatten, List.map_map, Function.comp_def]

/-- Whatever a read passes over, its agent may read past: a write is added only where that holds of all its entries. -/
theorem missable_of_passedOver {a : Agent} {q : Bool} {want : Nat → Nat → Bool} {es : List Unseen} :
    ∀ p ∈ passedOver a q want es, ∀ u ∈ es, (u.stamp, u.unit) = p → u.missable a q = true := by
  unfold passedOver
  refine List.foldrRecOn es _ (motive := fun out => ∀ p ∈ out, ∀ u ∈ es, (u.stamp, u.unit) = p → u.missable a q = true)
    (fun p hp => absurd hp List.not_mem_nil) fun out ih e he p hp u hu hup => ?_
  dsimp only at hp
  split at hp
  next hadds =>
    rcases List.mem_cons.mp hp with rfl | hp
    · obtain ⟨-, hwhole⟩ := Bool.and_eq_true_iff.mp hadds
      have hfree := List.all_eq_true.mp hwhole u (by simpa [hu] using hup)
      exact (Bool.and_eq_true_iff.mp hfree).1
    · exact ih p hp u hu hup
  next => exact ih p hp u hu hup

/-- The writes that a load of words passes over in a part of 8 bytes (R179). -/
def loadPasses (s : State) (locs : List Nat) (k : Nat) : List (Nat × Nat) :=
  passedOver (.ctx s.cur) false (Config.seesOld s.choice)
    (s.vis.unseen.filter fun u => decide (u.loc / 8 = k) && locs.contains u.loc)

/-- It has seen none of them. -/
theorem unknown_of_loadPasses {s : State} {locs : List Nat} {l : Nat} (hl : l ∈ locs) {u : Unseen} (hu : u ∈ s.vis.unseen)
    (hloc : u.loc = l) (hp : (u.stamp, u.unit) ∈ loadPasses s locs (l / 8)) : u.knownTo (.ctx s.cur) = false := by
  have hmiss := missable_of_passedOver _ hp u (by simp [hu, hloc, hl]) rfl
  simpa [Unseen.missable] using hmiss

/-- The byte that a load reads at a location where it passes over the writes given. -/
def passingByte (s : State) (out : List (Nat × Nat)) (l : Nat) : Byte :=
  match passedAt s.vis l out with
  | some u => u.old
  | none => Memory.get s.mem l

/-- An ordinary load reads each byte past the writes that it passes over in its part. -/
theorem loadAs_unsettled {s : State} {runs : List (Nat × Nat)} (he : (runLocs runs).any (earlyByte s) = false)
    (h : loadSettled s plainMode runs = false) :
    (loadAs s plainMode 8 runs).1 = (runLocs runs).map fun l => passingByte s (loadPasses s (runLocs runs) (l / 8)) l := by
  have hbytes : (readAs s (.ctx s.cur) plainMode 8 (runLocs runs)).1 =
      (runLocs runs).map fun l => passingByte s (loadPasses s (runLocs runs) (l / 8)) l := rfl
  unfold loadAs
  rw [if_neg (by simp [h])]
  dsimp only
  rw [hbytes]
  refine List.ext_getElem (by simp) fun i h₁ h₂ => ?_
  have hi : i < (runLocs runs).length := by simpa using h₂
  have hearly : earlyByte s (runLocs runs)[i] = false := by
    simpa using List.any_eq_false.mp he _ (List.getElem_mem _)
  simp [hearly]

/-- What an ordinary load shows is what it may (R179, R211). -/
theorem loadAs_mayLoad {s : State} {runs : List (Nat × Nat)} (he : (runLocs runs).any (earlyByte s) = false) :
    MayLoad s runs (loadAs s plainMode 8 runs).1 := by
  cases h : loadSettled s plainMode runs with
  | true =>
    rw [loadAs_of_loadSettled h, runsBytes_eq]
    refine ⟨by simp, fun _ => [], fun k l hk => ?_, fun l _ u _ _ hp => absurd hp List.not_mem_nil⟩
    have hnone : passedAt s.vis l [] = none := by simp [passedAt]
    simp [hk, hnone]
  | false =>
    rw [loadAs_unsettled he h]
    refine ⟨by simp, loadPasses s (runLocs runs), fun k l hk => ?_, fun l hl u hu hloc hp => unknown_of_loadPasses hl hu hloc hp⟩
    simp only [List.getElem?_map, hk, Option.map_some]
    rfl

/-- A load that completes has changed what may still be read and the free choice alone, and shows what it may. -/
theorem loadAt_may {s : State} {a n al : Nat} {runs : List (Nat × Nat)} (h : ReadReady s a n al runs) {op : Nat} (hop : op ≠ 8)
    (k : Nat → State → Out) :
    ∃ u c v, loadAt s a n op k = k (leNat v) { s with vis := u, choice := c } ∧ MayLoad s runs v := by
  have hgrain : grainOf op = 8 := if_neg hop
  obtain ⟨-, -, -, hearly⟩ := id h
  obtain ⟨u, c, hstate⟩ := loadAs_state s plainMode 8 runs
  refine ⟨u, c, _, ?_, loadAs_mayLoad hearly⟩
  rw [loadAt_ready h, hgrain, hstate]

/-! ### What the checks look at (R17, R174) -/

/-- A walk reads memory alone. -/
theorem walkFrom_congr {s t : State} (h : t.mem = s.mem) (feat : Word) (va n table : Nat) :
    walkFrom t feat va n table = walkFrom s feat va n table := by
  induction n generalizing table with
  | zero => rfl
  | succ n ih =>
    have hread : ∀ loc, readLoc t loc 8 = readLoc s loc 8 := fun loc => by rw [readLoc, readLoc, h]
    unfold walkFrom
    simp only [hread, ih]

/-- A translation looks at memory, the caches, the module's tables and the launch. -/
theorem translateCore_congr {s t : State} (hmem : t.mem = s.mem) (hmod : t.mod = s.mod) (hclu : t.clu = s.clu)
    (hlaunch : t.core.launch = s.core.launch) (hfeat : t.core.feat = s.core.feat) (va : Nat) (write : Bool) :
    translateCore t va write = translateCore s va write := by
  have hjob : curJobId t = curJobId s := by simp only [curJobId, curLaunch, hlaunch, hmod]
  have hwalk : walk t va = walk s va := by simp only [walk, jobEntry, hjob, hmod, hfeat, walkFrom_congr hmem]
  have htr : translation t va = translation s va := by simp only [translation, tlbFind, hclu, hmod, hjob, hwalk]
  have hpub : pubAt t va = pubAt s va := by simp only [pubAt, hmod, hjob]
  unfold translateCore
  rw [htr]
  cases translation s va with
  | none => rfl
  | some l => simp only [frontLoc, hpub, hmod, hjob]

theorem locate_congr {s t : State} (h : ∀ va w, translateCore t va w = translateCore s va w) (hlid : t.core.lid = s.core.lid)
    (r : Region) (a n : Nat) (write : Bool) : locate t r a n write = locate s r a n write := by
  cases r <;> simp only [locate, h, directLoc, hlid]

theorem checkRun_setVis (s : State) (v : Visibility) (loc addr n : Nat) :
    checkRun { s with vis := v } loc addr n = checkRun s loc addr n := by
  cases n <;> rfl

theorem checkRuns_setVis (s : State) (v : Visibility) (runs : List (Nat × Nat)) (addr : Nat) :
    checkRuns { s with vis := v } runs addr = checkRuns s runs addr := by
  induction runs generalizing addr with
  | nil => rfl
  | cons r runs ih => simp only [checkRuns, checkRun_setVis, ih]

/-- The checks of a read do not look at what may still be read. -/
theorem checkRead_setVis (s : State) (v : Visibility) (a n : Nat) : checkRead { s with vis := v } a n = checkRead s a n := by
  have hlocate : ∀ r, locate { s with vis := v } r a n false = locate s r a n false := fun r =>
    locate_congr (fun _ _ => translateCore_congr rfl rfl rfl rfl rfl _ _) rfl r a n false
  simp only [checkRead, hlocate, checkRuns_setVis]
  rfl

/-! ### What a handle's load has seen (R203) -/

/-- An agent knows no less after it has learnt of writes. -/
theorem knownTo_learn {v : Visibility} {a : Agent} {p : Unseen → Bool} {u : Unseen} (h : u ∈ (v.learn a false p).unseen) :
    ∃ w ∈ v.unseen, w.loc = u.loc ∧ (w.knownTo a = true → u.knownTo a = true) := by
  obtain ⟨w, hw, rfl⟩ := List.mem_map.mp h
  refine ⟨w, hw, ?_, fun hk => ?_⟩
  · split <;> rfl
  · split
    · simp [Unseen.knownTo, without]
    · exact hk

/-- Only writes that everybody has seen, and releases, are dropped. -/
theorem mem_of_mem_tidy_unseen {v : Visibility} {u : Unseen} (h : u ∈ v.tidy.unseen) : u ∈ v.unseen := by
  unfold Visibility.tidy at h
  dsimp only at h
  split at h
  · cases h
  · exact List.mem_of_mem_filter h

theorem mem_of_mem_tidy_heads {v : Visibility} {r : Nat × Release} (h : r ∈ v.tidy.heads) : r ∈ v.heads := by
  unfold Visibility.tidy at h
  dsimp only at h
  split at h
  · cases h
  · exact List.mem_of_mem_filter h

/-- Bytes seen stay seen when the context has seen what engines wrote. -/
theorem seenAt_slotsSeen {s : State} {runs : List (Nat × Nat)} (h : SeenAt s runs) (loc n : Nat) :
    SeenAt (slotsSeen s (.ctx s.cur) loc n) runs := by
  intro l hl
  obtain ⟨hold, hheads⟩ := h l hl
  constructor
  · rw [oldFor_eq_none_iff]
    intro u hu hloc
    obtain ⟨w, hw, hwl, hknown⟩ := knownTo_learn (mem_of_mem_tidy_unseen hu)
    exact hknown (oldFor_eq_none_iff.mp hold w hw (hwl.trans hloc))
  · rw [headsAt_eq_nil_iff] at hheads ⊢
    intro r hr
    exact hheads r (mem_of_mem_tidy_heads (v := Visibility.learn _ _ false _) hr)

/-- Nothing of the checks looks at what may still be read. -/
theorem loadReady_slotsSeen {s : State} {a n al : Nat} {runs : List (Nat × Nat)} (h : LoadReady s a n al runs) (loc m : Nat) :
    LoadReady (slotsSeen s (.ctx s.cur) loc m) a n al runs := by
  obtain ⟨⟨hal, hcheck, hpair, hearly⟩, hseen⟩ := h
  exact ⟨⟨hal, (checkRead_setVis s _ a n).trans hcheck, hpair, hearly⟩, seenAt_slotsSeen hseen loc m⟩

/-! ### Loads (R90, R171, R173, R177) -/

theorem sextW_eight (v : Nat) : sextW 8 v = BitVec.ofNat 64 v := by
  unfold sextW wrapW sInt
  split
  · exact BitVec.ofInt_ofNat ..
  · apply BitVec.eq_of_toInt_eq
    rw [BitVec.toInt_ofInt, BitVec.toInt_ofNat', Int.sub_bmod_right]

section loads

variable {s : State} {runs : List (Nat × Nat)}

theorem loadG_seen {x : MemG} {n : Nat} (hfree : RegsFree s [x.base] [x.reg])
    (h : LoadReady s (memAddr (getG s s.cur x.base) x.disp.toInt n) n n runs) (op : Nat) (ext : Nat → Nat → Word) :
    loadG s x n op ext = .next (doneG s x.reg (ext n (leNat (runsBytes s runs))) 4) := by
  unfold loadG
  rw [withRegs_free hfree, aligned_of_mod h.1.1, loadAt_seen h]
  rfl

theorem loadG_may {x : MemG} {n op : Nat} (hfree : RegsFree s [x.base] [x.reg])
    (h : ReadReady s (memAddr (getG s s.cur x.base) x.disp.toInt n) n n runs) (hop : op ≠ 8) (ext : Nat → Nat → Word) :
    ∃ (u : Visibility) (c : Nat) (v : List Byte),
      loadG s x n op ext = .next (doneG { s with vis := u, choice := c } x.reg (ext n (leNat v)) 4) ∧ MayLoad s runs v := by
  obtain ⟨u, c, v, hload, hmay⟩ := loadAt_may h hop fun v s => .next (retire (setG s s.cur x.reg (ext n v)) s.cur 4)
  refine ⟨u, c, v, ?_, hmay⟩
  unfold loadG
  rw [withRegs_free hfree, aligned_of_mod h.1, hload]
  rfl

theorem loadS_seen {y : SsArgs} {n : Nat} (hfree : RegsFree s [y.gs] [y.gd]) (h : LoadReady s (getG s s.cur y.gs).toNat n n runs)
    (op : Nat) : loadS s y n op = .next (doneG s y.gd (sextW n (leNat (runsBytes s runs))) 2) := by
  unfold loadS
  rw [withRegs_free hfree, aligned_of_mod h.1.1, loadAt_seen h]
  rfl

theorem loadV_seen {x : MemV} {al : Nat} (hq : Quiet s) (hfree : RegsFree s [x.base] []) (hgood : goodDest x.reg = true)
    (h : LoadReady s (memAddr (getG s s.cur x.base) x.disp.toInt 32) 32 al runs) (op : Nat) :
    loadV s x al op = .next (doneV s x.reg (BitVec.ofNat 256 (leNat (runsBytes s runs))) 4) := by
  unfold loadV
  rw [withRegs_free hfree, aligned_of_mod h.1.1, hgood, loadAt_seen h, Bool.not_true, if_neg Bool.false_ne_true, commitV_quiet hq]

/-- The operand tests of a handle access pass (R40). -/
theorem handleTests_ok {hd : Fin 8} {o need n : Nat} {x : Handle} (hx : getHandle s s.cur hd = some x) (hslot : o % x.size + n ≤ x.size)
    (hcount : need ≤ x.count) (hend : o + n ≤ need * x.size) : handleTests s hd o need n = .ok x := by
  simp [handleTests, hx, demand, Chk.andThen, hslot, hcount, hend]

/-- An access in handle mode passes its operand tests and finds too few slots: the statement's `lacks` (R40, R177). -/
def HandleLacks (s : State) (hd : Fin 8) (o need n : Nat) (free : Bool) (x : Handle) : Prop :=
  getHandle s s.cur hd = some x ∧ o % x.size + n ≤ x.size ∧ need ≤ x.count ∧ o + n ≤ need * x.size ∧
    (if free then x.count - x.fill else x.fill) < need

theorem handleRead_seen {hd : Fin 8} {off need n al : Nat} {x : Handle} (hh : HandleReady s hd (32 * off) need n false x)
    (h : LoadReady s (handleAddr x x.tail (32 * off)) n al runs) (op : Nat) (k : Nat → State → Out) :
    handleRead s hd off need n al op k =
      k (leNat (runsBytes s runs)) (slotsSeen s (.ctx s.cur) (handleAddr x x.tail (32 * off)) n) := by
  obtain ⟨hx, hslot, hcount, hend, hfill⟩ := hh
  unfold handleRead
  rw [if_neg Bool.false_ne_true] at hfill
  rw [handleTests_ok hx hslot hcount hend, Chk.run, if_neg (Nat.not_lt.mpr hfill)]
  dsimp only
  rw [aligned_of_mod h.1.1, loadAt_seen (loadReady_slotsSeen h _ _)]
  rfl

theorem handleRead_sleeps {hd : Fin 8} {off need n al : Nat} {x : Handle} (h : HandleLacks s hd (32 * off) need n false x)
    (op : Nat) (k : Nat → State → Out) : handleRead s hd off need n al op k = waitFor s (.handle hd false need) := by
  obtain ⟨hx, hslot, hcount, hend, hfill⟩ := h
  unfold handleRead
  rw [handleTests_ok hx hslot hcount hend]
  exact if_pos hfill

theorem hloadG_seen {x : HMemG} {n : Nat} {h : Handle} (hfree : RegsFree s [] [x.reg])
    (hh : HandleReady s x.h (32 * x.off.val) (x.need.val + 1) n false h)
    (hl : LoadReady s (handleAddr h h.tail (32 * x.off.val)) n n runs) (op : Nat) (ext : Nat → Nat → Word) :
    hloadG s x n op ext = .next (doneG (slotsSeen s (.ctx s.cur) (handleAddr h h.tail (32 * x.off.val)) n) x.reg
      (ext n (leNat (runsBytes s runs))) 4) := by
  unfold hloadG
  rw [withRegs_free hfree, handleRead_seen hh hl]
  rfl

theorem hloadV_seen {y : HMemV} {al : Nat} {h : Handle} (hq : Quiet s) (hgood : goodDest y.reg = true)
    (hh : HandleReady s y.h (32 * y.off.val) (y.need.val + 1) 32 false h)
    (hl : LoadReady s (handleAddr h h.tail (32 * y.off.val)) 32 al runs) (op : Nat) :
    hloadV s y al op = .next (doneV (slotsSeen s (.ctx s.cur) (handleAddr h h.tail (32 * y.off.val)) 32) y.reg
      (BitVec.ofNat 256 (leNat (runsBytes s runs))) 4) := by
  obtain ⟨hx, hslot, hcount, hend, -⟩ := id hh
  unfold hloadV
  rw [handleTests_ok hx hslot hcount hend, Chk.run, hgood, Bool.not_true, if_neg Bool.false_ne_true, handleRead_seen hh hl]
  exact commitV_quiet (s := slotsSeen ..) hq ..

theorem hloadG_sleeps {x : HMemG} {n : Nat} {h : Handle} (hfree : RegsFree s [] [x.reg])
    (hl : HandleLacks s x.h (32 * x.off.val) (x.need.val + 1) n false h) (op : Nat) (ext : Nat → Nat → Word) :
    hloadG s x n op ext = waitFor s (.handle x.h false (x.need.val + 1)) := by
  unfold hloadG
  rw [withRegs_free hfree, handleRead_sleeps hl]

theorem hloadV_sleeps {y : HMemV} {al : Nat} {h : Handle} (hgood : goodDest y.reg = true)
    (hl : HandleLacks s y.h (32 * y.off.val) (y.need.val + 1) 32 false h) (op : Nat) :
    hloadV s y al op = waitFor s (.handle y.h false (y.need.val + 1)) := by
  obtain ⟨hx, hslot, hcount, hend, -⟩ := id hl
  unfold hloadV
  rw [handleTests_ok hx hslot hcount hend, Chk.run, hgood, Bool.not_true, if_neg Bool.false_ne_true, handleRead_sleeps hl]

end loads

/-! ### Stores (R90, R171, R172, R177) -/

theorem vecsSound_left {l m : List VCode} (h : VecsSound s (l ++ m)) : VecsSound s l := fun v hv => h v (List.mem_append_left _ hv)

theorem vecsSound_right {l m : List VCode} (h : VecsSound s (l ++ m)) : VecsSound s m := fun v hv => h v (List.mem_append_right _ hv)

section stores

variable {s : State} {runs : List (Nat × Nat)}

/-- What a store's instruction leaves: its bytes stored, and its context gone on. -/
theorem retire_ctxStore (s : State) (runs : List (Nat × Nat)) (bs : List Byte) (len : Nat) :
    retire (ctxStore s runs bs) (ctxStore s runs bs).cur len = retire (ctxStore s runs bs) s.cur len := by
  rw [(ctxStore_keeps s runs bs).cur]

theorem storeG_ready {x : MemG} {n : Nat} (hfree : RegsFree s [x.base, x.reg] [])
    (h : StoreReady s (memAddr (getG s s.cur x.base) x.disp.toInt n) n n runs) (op : Nat) :
    storeG s x n op =
      .next (retire (ctxStore s runs (leBytes n ((getG s s.cur x.reg).toNat % 2 ^ (8 * n)))) s.cur 4) := by
  unfold storeG
  rw [withRegs_free (regsFree_mono hfree (by simp) (by simp)), aligned_of_mod h.1, withData_free hfree (by simp), storeAt_ready h,
    retire_ctxStore]

theorem storeS_ready {y : SsArgs} {n : Nat} (hfree : RegsFree s [y.gs, y.gd] []) (h : StoreReady s (getG s s.cur y.gs).toNat n n runs)
    (op : Nat) : storeS s y n op =
      .next (retire (ctxStore s runs (leBytes n ((getG s s.cur y.gd).toNat % 2 ^ (8 * n)))) s.cur 2) := by
  unfold storeS
  rw [withRegs_free (regsFree_mono hfree (by simp) (by simp)), aligned_of_mod h.1, withData_free hfree (by simp), storeAt_ready h,
    retire_ctxStore]

/-- A word is its own low 64 bits. -/
theorem mod_word (w : Word) : w.toNat % 2 ^ (8 * 8) = w.toNat := Nat.mod_eq_of_lt w.isLt

theorem vst_ready {z : MemV} (hfree : RegsFree s [z.base] []) (hvec : VecsSound s [z.reg])
    (h : StoreReady s (memAddr (getG s s.cur z.base) z.disp.toInt 32) 32 32 runs) :
    exec (.vst z) s = .next (retire (ctxStore s runs (leBytes 32 (getV s s.cur z.reg).toNat)) s.cur 4) := by
  show withRegs s [z.base] [] _ = _
  rw [withRegs_free hfree]
  dsimp only
  rw [aligned_of_mod h.1, withVecs_sound hvec, storeAt_ready h, retire_ctxStore]

theorem handleWrite_ready {hd : Fin 8} {off need n : Nat} {x : Handle} (hh : HandleReady s hd (32 * off) need n true x)
    (h : handleAddr x x.head (32 * off) % n = 0) (k : Nat → Out) :
    handleWrite s hd off need n k = k (handleAddr x x.head (32 * off)) := by
  obtain ⟨hx, hslot, hcount, hend, hfill⟩ := hh
  rw [if_pos rfl] at hfill
  unfold handleWrite
  rw [handleTests_ok hx hslot hcount hend, Chk.run, if_neg (Nat.not_lt.mpr hfill)]
  exact aligned_of_mod h

theorem handleWrite_sleeps {hd : Fin 8} {off need n : Nat} {x : Handle} (h : HandleLacks s hd (32 * off) need n true x)
    (k : Nat → Out) : handleWrite s hd off need n k = waitFor s (.handle hd true need) := by
  obtain ⟨hx, hslot, hcount, hend, hfill⟩ := h
  unfold handleWrite
  rw [handleTests_ok hx hslot hcount hend]
  exact if_pos hfill

theorem hstoreG_ready {y : HMemG} {n : Nat} {x : Handle} (hfree : RegsFree s [y.reg] [])
    (hh : HandleReady s y.h (32 * y.off.val) (y.need.val + 1) n true x)
    (h : StoreReady s (handleAddr x x.head (32 * y.off.val)) n n runs) (op : Nat) :
    hstoreG s y n op =
      .next (retire (ctxStore s runs (leBytes n ((getG s s.cur y.reg).toNat % 2 ^ (8 * n)))) s.cur 4) := by
  unfold hstoreG
  rw [withRegs_free (regsFree_mono hfree (by simp) (by simp)), handleWrite_ready hh h.1, withData_free hfree (by simp),
    storeAt_ready h, retire_ctxStore]

theorem hstoreG_sleeps {y : HMemG} {n : Nat} {x : Handle} (hfree : RegsFree s [y.reg] [])
    (h : HandleLacks s y.h (32 * y.off.val) (y.need.val + 1) n true x) (op : Nat) :
    hstoreG s y n op = waitFor s (.handle y.h true (y.need.val + 1)) := by
  unfold hstoreG
  rw [withRegs_free (regsFree_mono hfree (by simp) (by simp)), handleWrite_sleeps h]

theorem vstHandle_ready {z : HMemV} {x : Handle} (hvec : VecsSound s [z.reg])
    (hh : HandleReady s z.h (32 * z.off.val) (z.need.val + 1) 32 true x)
    (h : StoreReady s (handleAddr x x.head (32 * z.off.val)) 32 32 runs) :
    exec (.vstHandle z) s = .next (retire (ctxStore s runs (leBytes 32 (getV s s.cur z.reg).toNat)) s.cur 4) := by
  show execVstHandle z s = _
  unfold execVstHandle
  rw [handleWrite_ready hh h.1, withVecs_sound hvec, storeAt_ready h, retire_ctxStore]

/-- A mask selects no byte exactly when each of its bits is clear (R172). -/
theorem noByte_iff (m : Fin 8) : noByte s m = true ↔ ∀ j, j < 32 → maskBit s s.cur m j = false := by
  simp [noByte]

theorem storeMaskAt_ready {a : Nat} (h : StoreReady s a 32 32 runs) (v : Vec) (act : Nat → Bool) :
    storeMaskAt s a v act = .next (retire (ctxStoreMasked s ((runs.headD (0, 0)).1) (leBytes 32 v.toNat) act) s.cur 4) := by
  obtain ⟨-, hcheck, hpair⟩ := h
  unfold storeMaskAt
  rw [hcheck, Chk.run, pairGate_unpaired hpair]

/-- A VSTM whose mask selects no byte writes and raises nothing (R172). -/
theorem vstm_noByte {x : VstmArgs} (hfree : RegsFree s [x.base] []) (hvec : VecsSound s (maskCode x.mask))
    (h : noByte s x.mask = true) : exec (.vstm x) s = .next (retire s s.cur 4) := by
  show withRegs s _ _ _ = _
  rw [withRegs_free hfree, withVecs_sound hvec, if_pos h]

theorem vstm_ready {x : VstmArgs} (hfree : RegsFree s [x.base] []) (hvec : VecsSound s ([x.reg] ++ maskCode x.mask))
    (hb : noByte s x.mask ≠ true) (h : StoreReady s (memAddr (getG s s.cur x.base) x.disp.toInt 32) 32 32 runs) :
    exec (.vstm x) s = .next (retire (ctxStoreMasked s ((runs.headD (0, 0)).1) (leBytes 32 (getV s s.cur x.reg).toNat)
      fun j => maskBit s s.cur x.mask j) s.cur 4) := by
  show withRegs s _ _ _ = _
  rw [withRegs_free hfree, withVecs_sound (vecsSound_right hvec), if_neg hb]
  dsimp only
  rw [aligned_of_mod h.1, withVecs_sound (vecsSound_left hvec), storeMaskAt_ready h]

theorem vstmHandle_noByte {u : VstmHArgs} (hvec : VecsSound s (maskCode u.mask)) (h : noByte s u.mask = true) :
    exec (.vstmHandle u) s = .next (retire s s.cur 4) := by
  show withVecs s _ _ = _
  rw [withVecs_sound hvec, if_pos h]

theorem vstHandle_sleeps {z : HMemV} {x : Handle} (h : HandleLacks s z.h (32 * z.off.val) (z.need.val + 1) 32 true x) :
    exec (.vstHandle z) s = waitFor s (.handle z.h true (z.need.val + 1)) := by
  show execVstHandle z s = _
  exact handleWrite_sleeps h _

theorem vstmHandle_ready {u : VstmHArgs} {x : Handle} {off : Nat} (hoff : u.off.val = off)
    (hvec : VecsSound s ([u.reg] ++ maskCode u.mask)) (hb : noByte s u.mask ≠ true)
    (hh : HandleReady s u.h (32 * off) (u.need.val + 1) 32 true x)
    (h : StoreReady s (handleAddr x x.head (32 * off)) 32 32 runs) :
    exec (.vstmHandle u) s = .next (retire (ctxStoreMasked s ((runs.headD (0, 0)).1) (leBytes 32 (getV s s.cur u.reg).toNat)
      fun j => maskBit s s.cur u.mask j) s.cur 4) := by
  subst hoff
  show withVecs s _ _ = _
  rw [withVecs_sound (vecsSound_right hvec), if_neg hb, handleWrite_ready hh h.1, withVecs_sound (vecsSound_left hvec),
    storeMaskAt_ready h]

theorem vstmHandle_sleeps {u : VstmHArgs} {x : Handle} {off : Nat} (hoff : u.off.val = off)
    (hvec : VecsSound s (maskCode u.mask)) (hb : noByte s u.mask ≠ true)
    (h : HandleLacks s u.h (32 * off) (u.need.val + 1) 32 true x) :
    exec (.vstmHandle u) s = waitFor s (.handle u.h true (u.need.val + 1)) := by
  subst hoff
  show withVecs s _ _ = _
  rw [withVecs_sound hvec, if_neg hb, handleWrite_sleeps h]

end stores


/-- Settles O26. -/
theorem loadAndStoreResults : Obligations.LoadAndStoreResults := by
  unfold Obligations.LoadAndStoreResults
  refine ⟨fun s x y runs => ⟨fun hfree => ?scalar, fun hfree => ?short⟩, fun s x runs hfree => ?older,
    fun s x runs hq hfree hgood => ?vector, fun s x y h runs hoff hneed hhd => ?handleLoads, fun s x y z runs => ?stores,
    fun s x y z u h runs hzo hzn hzh huo hun huh => ?masked⟩
  case scalar =>
    refine ⟨fun h => ⟨loadG_seen hfree h 0 sextW, loadG_seen hfree h 1 zextW⟩,
      fun h => ⟨loadG_seen hfree h 2 sextW, loadG_seen hfree h 3 zextW⟩,
      fun h => ⟨loadG_seen hfree h 4 sextW, loadG_seen hfree h 5 zextW⟩, fun h => loadG_seen hfree h 6 zextW⟩
  case short =>
    refine ⟨fun h => loadS_seen hfree h 4, fun h => ?_⟩
    rw [← sextW_eight]
    exact loadS_seen hfree h 6
  case older =>
    exact ⟨fun h => ⟨loadG_may hfree h (by decide) sextW, loadG_may hfree h (by decide) zextW⟩,
      fun h => ⟨loadG_may hfree h (by decide) sextW, loadG_may hfree h (by decide) zextW⟩,
      fun h => ⟨loadG_may hfree h (by decide) sextW, loadG_may hfree h (by decide) zextW⟩,
      fun h => loadG_may hfree h (by decide) zextW⟩
  case vector => exact ⟨fun h => loadV_seen hq hfree hgood h 7, fun h => loadV_seen hq hfree hgood h 8⟩
  case handleLoads =>
    obtain ⟨yoff, yneed, yh, yreg⟩ := y
    subst hoff hneed hhd
    exact ⟨fun hfree =>
        ⟨fun hr => ⟨hloadG_seen hfree hr.1 hr.2 0 sextW, hloadG_seen hfree hr.1 hr.2 1 zextW⟩,
          fun hr => ⟨hloadG_seen hfree hr.1 hr.2 2 sextW, hloadG_seen hfree hr.1 hr.2 3 zextW⟩,
          fun hr => ⟨hloadG_seen hfree hr.1 hr.2 4 sextW, hloadG_seen hfree hr.1 hr.2 5 zextW⟩,
          fun hr => hloadG_seen hfree hr.1 hr.2 6 zextW,
          fun hl => ⟨hloadG_sleeps hfree hl 0 sextW, hloadG_sleeps hfree hl 1 zextW⟩,
          fun hl => ⟨hloadG_sleeps hfree hl 2 sextW, hloadG_sleeps hfree hl 3 zextW⟩,
          fun hl => ⟨hloadG_sleeps hfree hl 4 sextW, hloadG_sleeps hfree hl 5 zextW⟩,
          fun hl => hloadG_sleeps hfree hl 6 zextW⟩,
      fun hq hgood => ⟨fun hr => hloadV_seen hq hgood hr.1 hr.2 7, fun hr => hloadV_seen hq hgood hr.1 hr.2 8⟩,
      fun hgood hl => ⟨hloadV_sleeps hgood hl 7, hloadV_sleeps hgood hl 8⟩⟩
  case stores =>
    refine ⟨fun hfree => ⟨fun h => storeG_ready hfree h 16, fun h => storeG_ready hfree h 17, fun h => storeG_ready hfree h 18,
      fun h => ?_⟩, fun hfree => ⟨fun h => storeS_ready hfree h 18, fun h => ?_⟩, fun hfree hvec h => vst_ready hfree hvec h⟩
    · rw [← mod_word]
      exact storeG_ready hfree h 19
    · rw [← mod_word]
      exact storeS_ready hfree h 19
  case masked =>
    obtain ⟨zoff, zneed, zh, zreg⟩ := z
    obtain ⟨umask, uoff, uneed, uh, ureg⟩ := u
    subst hzo hzn hzh hun huh
    have hnone : ∀ {m : Fin 8}, ¬(∀ j, j < 32 → maskBit s s.cur m j = false) → noByte s m ≠ true := fun h k => h ((noByte_iff _).mp k)
    refine ⟨fun hfree hvec => ⟨fun h => vstm_noByte hfree (vecsSound_right hvec) ((noByte_iff _).mpr h),
        fun h hr => vstm_ready hfree hvec (hnone h) hr⟩, fun hfree => ⟨fun hr => hstoreG_ready hfree hr.1 hr.2 16,
        fun hr => hstoreG_ready hfree hr.1 hr.2 17, fun hr => hstoreG_ready hfree hr.1 hr.2 18, fun hr => ?_,
        fun hl => hstoreG_sleeps hfree hl 16, fun hl => hstoreG_sleeps hfree hl 17, fun hl => hstoreG_sleeps hfree hl 18,
        fun hl => hstoreG_sleeps hfree hl 19⟩, fun hvec => ⟨fun hr => vstHandle_ready hvec hr.1 hr.2, fun hl => vstHandle_sleeps hl⟩,
      fun hvec => ⟨fun h => vstmHandle_noByte (vecsSound_right hvec) ((noByte_iff _).mpr h),
        fun h => ⟨fun hr => vstmHandle_ready huo hvec (hnone h) hr.1 hr.2,
          fun hl => vstmHandle_sleeps huo (vecsSound_right hvec) (hnone h) hl⟩⟩⟩
    rw [← mod_word]
    exact hstoreG_ready hfree hr.1 hr.2 19

end Sys2Proof.Proofs
end

