-- ==== Sys2Proof/Proofs/Blocks.lean ====
section
/-! PROOFS. The block after a DSPLIT (R29): its members in order, and its membership register. -/

namespace Sys2Proof.Proofs

open Sys2Proof.Machine Sys2Proof.Laws

/-! ### The order of members (R29) -/

/-- The order in which a new block has its members: by key, then by old rank. -/
def Precedes (m x : SplitMember) : Prop := m.key.toNat < x.key.toNat ∨ (m.key = x.key ∧ m.rank < x.rank)

theorem Precedes.trans {m x y : SplitMember} (h : Precedes m x) (k : Precedes x y) : Precedes m y := by
  rcases h with h | ⟨h, h'⟩ <;> rcases k with k | ⟨k, k'⟩
  · exact .inl (h.trans k)
  · exact .inl (k ▸ h)
  · exact .inl (h ▸ k)
  · exact .inr ⟨h.trans k, h'.trans k'⟩

theorem insertMember_cons_of_not {m a : SplitMember} (h : ¬ Precedes m a) (l : List SplitMember) :
    insertMember m (a :: l) = a :: insertMember m l := if_neg h

/-- A member that precedes another is put somewhere before it. -/
theorem insertMember_before {m x : SplitMember} (hm : Precedes m x) (A B : List SplitMember) :
    ∃ A', insertMember m (A ++ x :: B) = A' ++ x :: B ∧ A'.length = A.length + 1 ∧ ∀ a ∈ A', a = m ∨ a ∈ A := by
  induction A with
  | nil => exact ⟨[m], if_pos hm, rfl, fun a ha => .inl (by simpa using ha)⟩
  | cons a A ih =>
    by_cases ha : Precedes m a
    · exact ⟨m :: a :: A, if_pos ha, rfl, fun b hb => by simpa using hb⟩
    · obtain ⟨A', heq, hlen, hmem⟩ := ih
      refine ⟨a :: A', ?_, by simp [hlen], fun b hb => ?_⟩
      · rw [List.cons_append, insertMember_cons_of_not ha, heq, List.cons_append]
      · rcases List.mem_cons.mp hb with rfl | hb
        · exact .inr List.mem_cons_self
        · exact (hmem b hb).imp_right (List.mem_cons_of_mem _)

/-- Any other is put somewhere behind it. -/
theorem insertMember_behind {m x : SplitMember} (hm : ¬ Precedes m x) {A : List SplitMember} (hA : ∀ a ∈ A, Precedes a x)
    (B : List SplitMember) : ∃ B', insertMember m (A ++ x :: B) = A ++ x :: B' := by
  induction A with
  | nil => exact ⟨insertMember m B, if_neg hm⟩
  | cons a A ih =>
    obtain ⟨B', heq⟩ := ih fun b hb => hA b (List.mem_cons_of_mem _ hb)
    have ha : ¬ Precedes m a := fun h => hm (h.trans (hA a List.mem_cons_self))
    exact ⟨B', by rw [List.cons_append, insertMember_cons_of_not ha, heq, List.cons_append]⟩

/-- Whether a member precedes another. -/
def precedes (x m : SplitMember) : Bool := decide (m.key.toNat < x.key.toNat ∨ (m.key = x.key ∧ m.rank < x.rank))

theorem precedes_iff {m x : SplitMember} : precedes x m = true ↔ Precedes m x := decide_eq_true_iff

/-- Members inserted one after another beside one that is there: those that precede it stand before it. -/
theorem foldl_insertMember (x : SplitMember) (ms : List SplitMember) {A : List SplitMember} (hA : ∀ a ∈ A, Precedes a x)
    (B : List SplitMember) :
    ∃ A' B', ms.foldl (fun l m => insertMember m l) (A ++ x :: B) = A' ++ x :: B' ∧
      A'.length = A.length + ms.countP (precedes x) ∧ ∀ a ∈ A', a ∈ A ∨ a ∈ ms := by
  induction ms generalizing A B with
  | nil => exact ⟨A, B, rfl, rfl, fun a ha => .inl ha⟩
  | cons m ms ih =>
    by_cases hm : Precedes m x
    · obtain ⟨A₁, heq, hlen, hmem⟩ := insertMember_before hm A B
      have hA₁ : ∀ a ∈ A₁, Precedes a x := fun a ha => (hmem a ha).elim (fun h => h ▸ hm) (hA a)
      obtain ⟨A', B', heq', hlen', hmem'⟩ := ih hA₁ B
      refine ⟨A', B', by rw [List.foldl_cons, heq, heq'], ?_, fun a ha => ?_⟩
      · rw [hlen', hlen, List.countP_cons_of_pos (precedes_iff.mpr hm)]
        omega
      · rcases hmem' a ha with h | h
        · rcases hmem a h with rfl | h
          · exact .inr List.mem_cons_self
          · exact .inl h
        · exact .inr (List.mem_cons_of_mem _ h)
    · obtain ⟨B₁, heq⟩ := insertMember_behind hm hA B
      obtain ⟨A', B', heq', hlen', hmem'⟩ := ih hA B₁
      refine ⟨A', B', by rw [List.foldl_cons, heq, heq'], ?_, fun a ha => (hmem' a ha).imp_right (List.mem_cons_of_mem _)⟩
      rw [hlen', List.countP_cons_of_neg (fun h => hm (precedes_iff.mp h))]

/-- A core's rank in its new block is how many of the others precede it. -/
theorem idxOf_sorted {x : SplitMember} {ms : List SplitMember} (hlid : ∀ m ∈ ms, m.lid ≠ x.lid) :
    ((ms.foldl (fun l m => insertMember m l) [x]).map fun m => m.lid).idxOf x.lid = ms.countP (precedes x) := by
  obtain ⟨A, B, heq, hlen, hmem⟩ := foldl_insertMember x ms (A := []) nofun []
  have hnot : x.lid ∉ A.map fun m => m.lid := by
    intro h
    obtain ⟨m, hm, hml⟩ := List.mem_map.mp h
    exact hlid m ((hmem m hm).resolve_left List.not_mem_nil) hml
  rw [List.nil_append] at heq
  rw [heq, List.map_append, List.idxOf_append_of_notMem hnot, List.map_cons, List.idxOf_cons_self, List.length_map, hlen]
  simp

/-! ### The membership register (R28, R29) -/

theorem domWord_size {n : Nat} (h : n < 2 ^ 16) (r i : Nat) : (domWord n r i).toNat / 2 ^ 48 = n := by
  rw [domWord, BitVec.toNat_ofNat]
  omega

theorem domWord_rank {r : Nat} (h : r < 2 ^ 16) (n i : Nat) : (domWord n r i).toNat / 2 ^ 32 % 2 ^ 16 = r := by
  rw [domWord, BitVec.toNat_ofNat]
  omega

theorem domWord_index {i : Nat} (h : i < 2 ^ 32) (n r : Nat) : (domWord n r i).toNat % 2 ^ 32 = i := by
  rw [domWord, BitVec.toNat_ofNat]
  omega

/-- The lowest core of a list and a core more is no higher than that core. -/
theorem foldl_min_le (l : List SplitMember) (n : Nat) : l.foldl (fun a m => min a m.lid) n ≤ n := by
  induction l generalizing n with
  | nil => exact le_refl n
  | cons m l ih => exact (ih _).trans (min_le_left _ _)

/-- A block's index: bit 31 and its lowest core. -/
theorem blockIndex_eq {n : Nat} (h : n < 2 ^ 20) : 2 ^ 31 ||| n = 2 ^ 31 + n := by
  have hor := Nat.two_pow_add_eq_or_of_lt (i := 31) (b := n) (by omega) 1
  rw [mul_one] at hor
  exact hor.symm

/-! ### Regrouping (R29) -/

section regroup

variable {s : State} {others : List SplitMember}

/-- The pending colour and key of this core, and what stands for them where none is pending. -/
def ownSplit (s : State) : BitVec 32 × BitVec 32 := s.core.split.getD (0xFFFFFFFF, 0)

/-- This core's rank in the old block. -/
def oldRank (s : State) : Nat := (s.core.dom[1]).toNat / 2 ^ 32 % 2 ^ 16

/-- The other members of the new block. -/
def classmates (s : State) (others : List SplitMember) : List SplitMember :=
  others.filter fun m => decide (m.colour = (ownSplit s).1)

/-- How many members have a colour pending. -/
def colourCount (s : State) (others : List SplitMember) (c : BitVec 32) : Nat :=
  ((ownSplit s).1 :: others.map fun m => m.colour).count c

/-- This core as a member. -/
def ownMember (s : State) : SplitMember :=
  { lid := s.core.lid, rank := oldRank s, colour := (ownSplit s).1, key := (ownSplit s).2 }

/-- The lowest core of the new block. -/
def lowestLid (s : State) (others : List SplitMember) : Nat :=
  (classmates s others).foldl (fun a m => min a m.lid) s.core.lid

/-- The core in its new block. -/
def regrouped (s : State) (others : List SplitMember) : State :=
  let sorted := ((classmates s others).foldl (fun l m => insertMember m l) [ownMember s]).map fun m => m.lid
  let w := domWord ((classmates s others).length + 1) (sorted.idxOf s.core.lid) (2 ^ 31 ||| lowestLid s others)
  { s with core := { s.core with dom := s.core.dom.set 1 w, split := none, credSeq := s.core.credSeq.set 1 0, blockLids := some sorted } }

theorem regroup_eq (h : s.core.split ≠ none ∨ others ≠ []) :
    regroup s others =
      if (((ownSplit s).1 :: others.map fun m => m.colour).any fun c => decide (4096 < colourCount s others c)) then none
      else some (regrouped s others) := by
  have hsome : (s.core.split.isNone && others.isEmpty) = false := by
    rcases h with h | h
    · simp [h]
    · simp [h]
  have hcount : ∀ c : BitVec 32, (((ownSplit s).1 :: others.map fun m => m.colour).filter fun d => decide (d = c)).length =
      colourCount s others c := by
    intro c
    rw [colourCount, List.count_eq_length_filter]
    rfl
  simp only [← hcount]
  unfold regroup
  rw [hsome]
  rfl

theorem regroup_none (h : s.core.split ≠ none ∨ others ≠ []) (hc : ∃ c, 4096 < colourCount s others c) :
    regroup s others = none := by
  obtain ⟨c, hc⟩ := hc
  have hmem : c ∈ (ownSplit s).1 :: others.map fun m => m.colour := List.count_pos_iff.mp (by unfold colourCount at hc; omega)
  rw [regroup_eq h, if_pos (List.any_eq_true.mpr ⟨c, hmem, decide_eq_true hc⟩)]

theorem regroup_some (h : s.core.split ≠ none ∨ others ≠ []) (hc : ∀ c, colourCount s others c ≤ 4096) :
    regroup s others = some (regrouped s others) := by
  rw [regroup_eq h, if_neg]
  rw [List.any_eq_true]
  rintro ⟨c, -, hlt⟩
  exact absurd (of_decide_eq_true hlt) (Nat.not_lt.mpr (hc c))

/-- A new block has 4,096 members at most. -/
theorem length_classmates_lt (hc : ∀ c, colourCount s others c ≤ 4096) : (classmates s others).length < 4096 := by
  have hself := hc (ownSplit s).1
  rw [colourCount, List.count_cons_self, List.count, List.countP_map, List.countP_eq_length_filter] at hself
  have hsame : (others.filter ((fun x => x == (ownSplit s).1) ∘ fun m => m.colour)) = classmates s others := by
    rw [classmates]
    congr 1
  rw [hsame] at hself
  omega

theorem regrouped_dom (hc : ∀ c, colourCount s others c ≤ 4096) (hlid : s.core.lid < 2 ^ 20)
    (hothers : ∀ m ∈ others, m.lid < 2 ^ 20 ∧ m.lid ≠ s.core.lid) :
    ((regrouped s others).core.dom[1]).toNat / 2 ^ 48 = (classmates s others).length + 1 ∧
    ((regrouped s others).core.dom[1]).toNat / 2 ^ 32 % 2 ^ 16 = (classmates s others).countP (precedes (ownMember s)) ∧
    ((regrouped s others).core.dom[1]).toNat % 2 ^ 32 = 2 ^ 31 + lowestLid s others := by
  have hlen := length_classmates_lt hc
  have hrank := idxOf_sorted (x := ownMember s) (ms := classmates s others) fun m hm => (hothers m (List.mem_of_mem_filter hm)).2
  have hbefore := List.countP_le_length (p := precedes (ownMember s)) (l := classmates s others)
  have hlow : lowestLid s others ≤ s.core.lid := foldl_min_le _ _
  have hword : (regrouped s others).core.dom[1] = domWord ((classmates s others).length + 1)
      ((classmates s others).countP (precedes (ownMember s))) (2 ^ 31 + lowestLid s others) := by
    rw [← hrank, ← blockIndex_eq (by omega)]
    exact Vector.getElem_set_self ..
  rw [hword]
  exact ⟨domWord_size (by omega) _ _, domWord_rank (by omega) _ _, domWord_index (by omega) _ _⟩

theorem regrouped_dom_other {i : Fin 5} (h : i ≠ 1) : (regrouped s others).core.dom[i.val] = s.core.dom[i.val] := by
  have hi : (1 : Nat) ≠ i.val := fun e => h (Fin.ext e.symm)
  simp [regrouped, Vector.getElem_set_ne, hi]

end regroup

end Sys2Proof.Proofs
end

