-- ==== Sys2Proof/Proofs/Barriers.lean ====
section
/-! PROOFS. Barriers, domain splitting and the exchange of packets (O37). -/

namespace Sys2Proof.Proofs

open Sys2Proof.Machine Sys2Proof.Laws

/-! ### Contributions (R196, R199, R201) -/

theorem setCtx_self (s : State) (c : Fin 8) : s.setCtx c (s.ctx c) = s := by
  simp [State.setCtx, State.ctx]

/-- A core that is no copy of a paired launch contributes, once, and sleeps. -/
theorem contributeSync_unpaired {s : State} (h : s.core.twin = none) (data op : Nat) (w : Wait) :
    contributeSync s data op w = waitFor (s.setCtx s.cur { s.ctx s.cur with contributed := true }) w := by
  unfold contributeSync pairGateIf
  cases hc : (s.ctx s.cur).contributed with
  | true =>
    have hself : ({ s.ctx s.cur with contributed := true } : Ctx) = s.ctx s.cur := by rw [← hc]
    rw [if_pos rfl, hself, setCtx_self]
  | false => simp [h]

theorem syncRefused_eq_false {s : State} {level : Fin 5} (hcur : s.cur = 0) (h : level = 0 ∨ notCoResident s = false) :
    syncRefused s level = false := by
  rw [Bool.eq_false_iff, Ne, syncRefused_iff]
  rintro (h' | ⟨hl, hn⟩)
  · exact h' hcur
  · rcases h with h | h
    · exact hl h
    · rw [h] at hn
      cases hn

/-! ### Barriers complete (R29, R30, R196) -/

/-- The control context goes on after its barrier or exchange, and nothing but it and the core changes: the statement's `left`. -/
def Left (s t : State) : Prop := (t.ctx 0).pc = (s.ctx 0).pc + 4 ∧ (t.ctx 0).wait = none ∧ (t.ctx 0).contributed = false ∧
  (∀ c, c ≠ 0 → t.ctx c = s.ctx c) ∧ MemoryKept s t

/-- A context that goes on past its instruction from what the core has become. -/
theorem left_wakePast {s u : State} (hctxs : u.ctxs = (s.setCtx 0 { s.ctx 0 with contributed := false }).ctxs)
    (hmem : MemoryKept s u) : Left s (wakePast u 0 4) := by
  have hctx : ∀ c, u.ctx c = (s.setCtx 0 { s.ctx 0 with contributed := false }).ctx c := fun c => by simp only [State.ctx, hctxs]
  have hself : (wakePast u 0 4).ctx 0 = { u.ctx 0 with wait := none, pc := (u.ctx 0).pc + 4 } := ctx_setCtx_same ..
  have hother : ∀ c, c ≠ 0 → (wakePast u 0 4).ctx c = u.ctx c := fun c hc => ctx_setCtx_other hc
  have h0 : u.ctx 0 = { s.ctx 0 with contributed := false } := (hctx 0).trans (ctx_setCtx_same ..)
  refine ⟨?_, ?_, ?_, fun c hc => ?_, hmem⟩
  · rw [hself, h0]
  · rw [hself]
  · rw [hself, h0]
  · rw [hother c hc, hctx c, ctx_setCtx_other hc]

/-- The state in which the exchange phase has begun. -/
def phaseBegun (u : State) (clock : List Nat) (level : Fin 5) (st : Storage) : State :=
  let u := u.setCtx 0 { u.ctx 0 with contributed := false }
  let u := { u with core := { u.core with phase := some level, sent := 0, synced := true } }
  wakePast (clockJoined u (.ctx 0) clock st) 0 4

section barrier

variable {s u : State} {others : List SplitMember} {clock : List Nat} {level : Fin 5} {st : Storage}

/-- A barrier's completion may come: every member has contributed and what happens before it has been applied (R196, R305). -/
def BarrierDue (s : State) (clock : List Nat) (level : Fin 5) (st : Storage) : Prop :=
  (s.ctx 0).wait = some (.barrier level st) ∧ (s.ctx 0).contributed = true ∧ s.core.frozen = false ∧ clockSeen s clock = true ∧
    (some level = some (4 : Fin 5) → s.unacked = false)

theorem barrierTest (h : BarrierDue s clock level st) :
    ((s.ctx 0).contributed && !s.core.frozen && clockSeen s clock && !(podLevel level && s.unacked)) = true := by
  obtain ⟨-, hcon, hfroz, hclock, hack⟩ := h
  have hpod : (podLevel level && s.unacked) = false := by
    by_cases hl : level = 4
    · rw [hack (by rw [hl]), Bool.and_false]
    · have hv : level.val ≠ 4 := fun e => hl (Fin.ext e)
      simp [podLevel, hv]
  simp [hcon, hfroz, hclock, hpod]

theorem bsyncComplete_begins (h : BarrierDue s clock level st) (hu : (if level.val = 1 then regroup s others else some s) = some u) :
    exec (.bsyncComplete others clock) s = .next (phaseBegun u clock level st) := by
  show execBsyncComplete others s clock = _
  unfold execBsyncComplete
  rw [h.1]
  simp only [barrierTest h, if_true, hu]
  rfl

theorem bsyncComplete_tooMany (h : BarrierDue s clock level st) (hu : (if level.val = 1 then regroup s others else some s) = none) :
    exec (.bsyncComplete others clock) s = .next (raise (s.setCtx 0 { s.ctx 0 with contributed := false }) 0 { cls := .illegalSync }) := by
  show execBsyncComplete others s clock = _
  unfold execBsyncComplete
  rw [h.1]
  simp only [barrierTest h, if_true, hu]

theorem left_phaseBegun (hctxs : u.ctxs = s.ctxs) (hmem : MemoryKept s u) : Left s (phaseBegun u clock level st) := by
  refine left_wakePast ?_ hmem
  have h0 : u.ctx 0 = s.ctx 0 := by simp only [State.ctx, hctxs]
  show (u.setCtx 0 { u.ctx 0 with contributed := false }).ctxs = _
  rw [h0]
  simp only [State.setCtx, hctxs]

end barrier

/-! ### Exchange (R31 to R34, R197 to R199) -/

theorem pairGateIf_unpaired {s : State} (h : s.core.twin = none) (leaves : Bool) (a data op : Nat) (k : State → Out) :
    pairGateIf leaves s a data op k = k s := by
  unfold pairGateIf
  simp [h]

theorem packetFits_ok {a : Nat} (h : a + 32 ≤ 0x20000) : packetFits a = .ok () := if_pos (decide_eq_true h)

/-- A write within the scratchpad passes every check of R174. -/
theorem checkWrite_spad {s : State} {a n : Nat} (hn : 0 < n) (h : a + n ≤ 0x20000) : checkWrite s a n = .ok [(a, n)] := by
  have hregion : regionOf a = .spad := if_pos (by omega)
  have hrange : checkRange s a n true = .ok .spad := by
    unfold checkRange
    rw [hregion]
    exact if_pos h
  have hpeer : peerTest s a = .ok () := by
    unfold peerTest sealedPeer peerOf
    rw [hregion]
    rfl
  unfold checkWrite
  rw [hrange, hpeer]
  rfl

theorem runsBytes_single (s : State) (a n : Nat) : runsBytes s [(a, n)] = readBytes s a n := by simp [runsBytes]

/-- A core that does not belong to the domain is no destination: one without a group, or one that has withdrawn (R22, R197). -/
theorem destOk_outside {s : State} {level : Fin 5} {b : Nat} {l : Launch} (hl : level.val ≤ 3) (hcur : curLaunch s = some l)
    (hb : b < 2 ^ 48) (h : 2 ^ 32 ≤ b ∨ min l.n l.groups ≤ b % 2 ^ 32 ∨ b % 2 ^ 32 ∈ s.core.withdrawn) :
    destOk s level b = false := by
  have hlid : bits b 0 32 = b % 2 ^ 32 := by rw [bits, pow_zero, Nat.div_one]
  have hmodule : 2 ^ 32 ≤ b → bits b 32 16 ≠ 0 := fun h => by
    unfold bits
    omega
  unfold destOk
  rw [if_neg (by omega : ¬ level.val = 4), hlid]
  rcases h with h | h | h
  · simp [hmodule h]
  · have hgroup : holdsGroup s (b % 2 ^ 32) = false := by
      unfold holdsGroup
      rw [hcur]
      exact decide_eq_false (Nat.not_lt.mpr h)
    simp only [inDomain, hgroup, Bool.false_and, Bool.and_false]
  · have hout : s.core.withdrawn.contains (b % 2 ^ 32) = true := by simpa using h
    simp only [inDomain, hout, Bool.not_true, Bool.and_false, Bool.false_and]

section xsend

variable {s : State} {gb ga : GReg} {level : Fin 5}

theorem bits_high {b : Nat} (h : b < 2 ^ 48) : bits b 48 16 = 0 := by
  unfold bits
  omega

/-- XSEND outside an exchange phase (R197). -/
theorem xsend_outside (hfree : RegsFree s [gb, ga] []) (ha : (getG s s.cur ga).toNat % 32 = 0)
    (hb : (getG s s.cur gb).toNat < 2 ^ 48) (hp : s.core.phase = none) :
    exec (.xsend gb ga) s = .next (raise s s.cur { cls := .illegalSync }) := by
  show execXsend gb ga s = _
  unfold execXsend
  rw [withRegs_free hfree]
  dsimp only
  rw [aligned_of_mod ha, if_neg (not_not.mpr (bits_high hb)), hp]
  rfl

/-- What XSEND does within a phase once its operand tests have passed (R34, R197). -/
theorem xsend_within (hfree : RegsFree s [gb, ga] []) (ha : (getG s s.cur ga).toNat % 32 = 0)
    (hb : (getG s s.cur gb).toNat < 2 ^ 48) (hp : s.core.phase = some level) :
    exec (.xsend gb ga) s =
      if s.core.aborted then fault s abortFlt
      else if destOk s level (getG s s.cur gb).toNat = false then faultCls s .illegalOperand
      else Chk.run s ((packetFits (getG s s.cur ga).toNat).andThen fun _ => checkRead s (getG s s.cur ga).toNat 32) fun runs =>
        if s.core.outgoing.isSome then waitFor s .held else
          let b := (getG s s.cur gb).toNat
          let m := if level.val = 4 then bits b 32 16 else s.mod.modnum
          let p : Packet := { module := m, lid := bits b 0 32, payload := BitVec.ofNat 256 (leNat (loadRuns s runs).1) }
          pairGateIf (!(decide (m = s.mod.modnum) && decide (p.lid = s.core.lid))) s b (leNat (loadRuns s runs).1) 57 fun s =>
            let t := loadRuns s runs
            .next (retire (markSynced { t.2 with core := { t.2.core with outgoing := some p, sent := t.2.core.sent + 1 } }) t.2.cur 4) := by
  show execXsend gb ga s = _
  unfold execXsend
  rw [withRegs_free hfree]
  dsimp only
  rw [aligned_of_mod ha, if_neg (not_not.mpr (bits_high hb)), hp]

theorem xsend_aborted (hfree : RegsFree s [gb, ga] []) (ha : (getG s s.cur ga).toNat % 32 = 0)
    (hb : (getG s s.cur gb).toNat < 2 ^ 48) (hp : s.core.phase = some level) (hab : s.core.aborted = true) :
    exec (.xsend gb ga) s = .next (raise s s.cur { cls := .watchdog, info := 1 }) := by
  rw [xsend_within hfree ha hb hp, if_pos hab]
  rfl

theorem xsend_noMember (hfree : RegsFree s [gb, ga] []) (ha : (getG s s.cur ga).toNat % 32 = 0)
    (hb : (getG s s.cur gb).toNat < 2 ^ 48) (hp : s.core.phase = some level) (hab : s.core.aborted = false)
    (hd : destOk s level (getG s s.cur gb).toNat = false) :
    exec (.xsend gb ga) s = .next (raise s s.cur { cls := .illegalOperand }) := by
  rw [xsend_within hfree ha hb hp, hab, if_neg Bool.false_ne_true, if_pos hd]
  rfl

/-- An XSEND whose tests pass, once its router is free (R31, R197). -/
theorem xsend_tested (hfree : RegsFree s [gb, ga] []) (ha : (getG s s.cur ga).toNat % 32 = 0)
    (hb : (getG s s.cur gb).toNat < 2 ^ 48) (hp : s.core.phase = some level) (hab : s.core.aborted = false)
    (hd : destOk s level (getG s s.cur gb).toNat = true) (hfit : (getG s s.cur ga).toNat + 32 ≤ 0x20000)
    (hcheck : checkRead s (getG s s.cur ga).toNat 32 = .ok [((getG s s.cur ga).toNat, 32)]) (htwin : s.core.twin = none) :
    exec (.xsend gb ga) s =
      if s.core.outgoing.isSome then waitFor s .held else
        let t := loadRuns s [((getG s s.cur ga).toNat, 32)]
        let p : Packet := {
          module := if level.val = 4 then bits (getG s s.cur gb).toNat 32 16 else s.mod.modnum
          lid := bits (getG s s.cur gb).toNat 0 32, payload := BitVec.ofNat 256 (leNat t.1) }
        .next (retire (markSynced { t.2 with core := { t.2.core with outgoing := some p, sent := t.2.core.sent + 1 } }) t.2.cur 4) := by
  rw [xsend_within hfree ha hb hp, hab, if_neg Bool.false_ne_true, if_neg (by rw [hd]; nofun), packetFits_ok hfit, Chk.andThen, hcheck]
  simp only [Chk.run, pairGateIf_unpaired htwin]

theorem xsend_held (hfree : RegsFree s [gb, ga] []) (ha : (getG s s.cur ga).toNat % 32 = 0)
    (hb : (getG s s.cur gb).toNat < 2 ^ 48) (hp : s.core.phase = some level) (hab : s.core.aborted = false)
    (hd : destOk s level (getG s s.cur gb).toNat = true) (hfit : (getG s s.cur ga).toNat + 32 ≤ 0x20000)
    (hcheck : checkRead s (getG s s.cur ga).toNat 32 = .ok [((getG s s.cur ga).toNat, 32)]) (htwin : s.core.twin = none)
    (hout : s.core.outgoing ≠ none) : exec (.xsend gb ga) s = waitFor s .held := by
  rw [xsend_tested hfree ha hb hp hab hd hfit hcheck htwin, if_pos (Option.isSome_iff_ne_none.mpr hout)]

/-- The packet that XSEND hands to its router (R31, R197). -/
def sentPacket (s : State) (level : Fin 5) (b a : Nat) : Packet :=
  { module := if level.val = 4 then b / 2 ^ 32 else s.mod.modnum, lid := b % 2 ^ 32
    payload := BitVec.ofNat 256 (leNat (readBytes s a 32)) }

theorem xsend_sent (hfree : RegsFree s [gb, ga] []) (ha : (getG s s.cur ga).toNat % 32 = 0)
    (hb : (getG s s.cur gb).toNat < 2 ^ 48) (hp : s.core.phase = some level) (hab : s.core.aborted = false)
    (hd : destOk s level (getG s s.cur gb).toNat = true) (hfit : (getG s s.cur ga).toNat + 32 ≤ 0x20000)
    (hcheck : checkRead s (getG s s.cur ga).toNat 32 = .ok [((getG s s.cur ga).toNat, 32)]) (htwin : s.core.twin = none)
    (hout : s.core.outgoing = none) (hset : loadSettled s plainMode [((getG s s.cur ga).toNat, 32)] = true) :
    exec (.xsend gb ga) s = .next (retire (markSynced { s with core := { s.core with
      outgoing := some (sentPacket s level (getG s s.cur gb).toNat (getG s s.cur ga).toNat), sent := s.core.sent + 1 } }) s.cur 4) := by
  have hload : loadRuns s [((getG s s.cur ga).toNat, 32)] = (readBytes s (getG s s.cur ga).toNat 32, s) := by
    rw [← runsBytes_single]
    exact loadAs_of_loadSettled hset 8
  have hmodule : bits (getG s s.cur gb).toNat 32 16 = (getG s s.cur gb).toNat / 2 ^ 32 := Nat.mod_eq_of_lt (by omega)
  have hlid : bits (getG s s.cur gb).toNat 0 32 = (getG s s.cur gb).toNat % 2 ^ 32 := by rw [bits, pow_zero, Nat.div_one]
  rw [xsend_tested hfree ha hb hp hab hd hfit hcheck htwin, hout, hload, hmodule, hlid]
  rfl

end xsend

/-! ### Receiving (R33, R198) -/

theorem setG_pc (s : State) (c d : Fin 8) (r : GReg) (w : Word) : ((setG s c r w).ctx d).pc = (s.ctx d).pc := by
  unfold setG
  split
  · rfl
  · by_cases h : d = c
    · subst h
      rw [ctx_setCtx_same]
    · rw [ctx_setCtx_other h]

/-- Both rings of packets are as before. -/
def RingsKept (k m : CoreRegs) : Prop :=
  m.inHead = k.inHead ∧ m.inCount = k.inCount ∧ m.ovHead = k.ovHead ∧ m.ovCount = k.ovCount

/-- A packet's store by XRECV: its bytes read back, its flag is set, and of the core nothing else changes (R198). -/
theorem takePacket_takes {s : State} {a : Nat} (hinv : MemoryInv s) (ha : a + 32 ≤ 0x20000) (gd : GReg) {bs : List Byte}
    (hbs : bs.length = 32) :
    ∃ t, takePacket s a gd bs = .next t ∧ readBytes t a 32 = bs ∧ (gd ≠ 0 → getG t s.cur gd = 1) ∧
      (t.ctx s.cur).pc = (s.ctx s.cur).pc + 4 ∧ RingsKept s.core t.core := by
  let u := ctxStore s [(a, 32)] bs
  have hkeeps : StoreKeeps s u := ctxStore_keeps ..
  have htake : takePacket s a gd bs = .next (retire (setG u s.cur gd 1) s.cur 4) := by
    unfold takePacket
    rw [checkWrite_spad (by omega) ha]
    rfl
  have hbytes : readBytes u a 32 = bs := by
    have hstore : u = store (noteStore s s.cur plainMode false (runLocs [(a, 32)])) a (bs.take 32) := rfl
    rw [hstore, List.take_of_length_le (by omega)]
    exact store_bytes (noteStore_inv hinv).1 hbs (.inl (by unfold boltLoc; omega))
  refine ⟨_, htake, ?_, fun hgd => ?_, ?_, ?_⟩
  · rw [← hbytes]
    simp [readBytes]
  · rw [getG_retire]
    exact getG_setG_same _ _ _ _ hgd
  · rw [ctx_retire_same, setG_pc, hkeeps.pc]
    rfl
  · have hcore : RingsKept s.core u.core := by
      rw [hkeeps.core]
      exact ⟨rfl, rfl, rfl, rfl⟩
    rw [← setG_core u s.cur gd 1] at hcore
    exact hcore

theorem length_readBytes (s : State) (loc n : Nat) : (readBytes s loc n).length = n := by simp [readBytes, memory_bytes_eq]

section xrecv

variable {s : State} {ga gd : GReg}

/-- XRECV's operand tests pass. -/
theorem xrecv_tested (hfree : RegsFree s [ga] [gd]) (ha : (getG s s.cur ga).toNat % 32 = 0)
    (hfit : (getG s s.cur ga).toNat + 32 ≤ 0x20000) :
    exec (.xrecv ga gd) s =
      if 0 < s.core.inCount then
        Chk.run s (checkRun s (ringLoc s s.core.inHead) (ringLoc s s.core.inHead) 32) fun _ =>
          takePacket { s with core := { s.core with inHead := (s.core.inHead + 1) % s.core.xringSize.toNat,
                                                    inCount := s.core.inCount - 1 } }
            (getG s s.cur ga).toNat gd (readBytes s (ringLoc s s.core.inHead) 32)
      else if 0 < s.core.ovCount then
        Chk.run s (checkRead s (spillAddr s s.core.ovHead) 32) fun runs => pairGate s (spillAddr s s.core.ovHead) 0 54 fun s' =>
          takePacket { s' with core := { s'.core with ovHead := (s'.core.ovHead + 1) % s'.core.xspillSize.toNat,
                                                      ovCount := s'.core.ovCount - 1 } }
            (getG s s.cur ga).toNat gd (runsBytes s' runs)
      else .next (retire (setG s s.cur gd 0) s.cur 4) := by
  show execXrecv ga gd s = _
  unfold execXrecv
  rw [withRegs_free hfree]
  dsimp only
  rw [aligned_of_mod ha, packetFits_ok hfit]
  rfl

end xrecv

/-! ### Delivery (R31, R33, R34, R311) -/

section delivery

variable {s : State} {v : Vec}

theorem deliver_sealed (h : s.core.sealed = true) (v : Vec) : deliver s v = .held := if_pos h

/-- Where a packet for the inbound ring goes. -/
def inboundLoc (s : State) : Nat := ringLoc s ((s.core.inHead + s.core.inCount) % s.core.xringSize.toNat)

/-- Where one for the overflow ring goes. -/
def overflowAddr (s : State) : Nat := spillAddr s ((s.core.ovHead + s.core.ovCount) % s.core.xspillSize.toNat)

/-- The inbound ring takes a packet (R33): it has room, and no packet overflows. -/
def RoomIn (s : State) : Prop := s.core.ovCount = 0 ∧ s.core.inCount < s.core.xringSize.toNat

theorem deliver_inbound (hs : s.core.sealed = false) (h : RoomIn s) (v : Vec) :
    deliver s v = .placed
      (let t := store s (inboundLoc s) (leBytes 32 v.toNat)
       { t with core := { t.core with inCount := t.core.inCount + 1 } }) := by
  unfold deliver
  rw [hs, if_neg Bool.false_ne_true, if_pos ⟨h.2, h.1⟩]
  rfl

theorem deliver_full (hs : s.core.sealed = false) (h : ¬ RoomIn s) (ho : ¬ s.core.ovCount < s.core.xspillSize.toNat) (v : Vec) :
    deliver s v = .held := by
  unfold deliver
  rw [hs, if_neg Bool.false_ne_true, if_neg (fun k => h ⟨k.2, k.1⟩), if_neg ho]

theorem deliver_overflow (hs : s.core.sealed = false) (h : ¬ RoomIn s) (ho : s.core.ovCount < s.core.xspillSize.toNat)
    (hr : regionOf (overflowAddr s) = .hbm) {loc : Nat} (ht : translateCore s (overflowAddr s) true = .ok loc) (v : Vec) :
    deliver s v = .placed
      (let t := store s loc (leBytes 32 v.toNat)
       { t with core := { t.core with ovCount := t.core.ovCount + 1 } }) := by
  unfold deliver
  rw [hs, if_neg Bool.false_ne_true, if_neg (fun k => h ⟨k.2, k.1⟩), if_pos ho]
  unfold overflowAddr at hr ht
  simp only [hr, ht, ne_eq, not_true_eq_false, if_false]

theorem deliver_faulted (hs : s.core.sealed = false) (h : ¬ RoomIn s) (ho : s.core.ovCount < s.core.xspillSize.toNat)
    (hr : regionOf (overflowAddr s) = .hbm) {f : Flt} (ht : translateCore s (overflowAddr s) true = .error f) (v : Vec) :
    deliver s v = .faulted f := by
  unfold deliver
  rw [hs, if_neg Bool.false_ne_true, if_neg (fun k => h ⟨k.2, k.1⟩), if_pos ho]
  unfold overflowAddr at hr ht
  simp only [hr, ht, ne_eq, not_true_eq_false, if_false]

/-- A delivery leaves the core's own packet in its router. -/
theorem deliver_outgoing {t : State} (h : deliver s v = .placed t) : t.core.outgoing = s.core.outgoing := by
  unfold deliver at h
  dsimp only at h
  split at h
  · cases h
  · split at h
    · cases h
      show (store s _ _).core.outgoing = _
      rw [(store_keeps ..).core]
    · split at h
      · split at h
        · cases h
        · split at h
          · cases h
            show (store s _ _).core.outgoing = _
            rw [(store_keeps ..).core]
          · cases h
      · cases h

theorem drainArriving_outgoing (n : Nat) (s : State) : (drainArriving n s).core.outgoing = s.core.outgoing := by
  induction n generalizing s with
  | zero => rfl
  | succ n ih =>
    unfold drainArriving
    split
    · rfl
    · split
      next t ht =>
        rw [ih]
        exact deliver_outgoing (t := t) ht
      next => rfl
      next =>
        split
        · rfl
        · rfl

/-- A packet that is held keeps every one behind it. -/
theorem drainAll_held {r : List Vec} (ha : s.core.arriving = v :: r) (h : deliver s v = .held) : drainAll s = s := by
  unfold drainAll
  rw [ha, List.length_cons, drainArriving]
  simp only [ha, h]

theorem drainAll_placed {t : State} (ha : s.core.arriving = [v]) (h : deliver s v = .placed t) :
    drainAll s = { t with core := { t.core with arriving := [] } } := by
  unfold drainAll
  rw [ha, List.length_singleton, drainArriving]
  simp only [ha, h]
  rfl

theorem drainAll_faulted {f : Flt} {r : List Vec} (ha : s.core.arriving = v :: r) (h : deliver s v = .faulted f)
    (hstuck : routerStuck s = false) : drainAll s = routerFault s f := by
  unfold drainAll
  rw [ha, List.length_cons, drainArriving]
  simp only [ha, h, hstuck, Bool.false_eq_true, if_false]

end delivery

/-- XEND is in place. -/
theorem xend_within {s : State} (hcur : s.cur = 0) (hp : s.core.phase.isSome = true) :
    ¬(s.cur ≠ 0 ∨ s.core.phase.isNone = true) := by
  rintro (h | h)
  · exact h hcur
  · rw [Option.isNone_iff_eq_none] at h
    rw [h] at hp
    cases hp

/-- The state in which the exchange phase has ended (R199). -/
def phaseEnded (s : State) (clock : List Nat) (st : Storage) : State :=
  let u := clockJoined (s.setCtx 0 { s.ctx 0 with contributed := false }) (.ctx 0) clock st
  wakePast (markSynced { u with core := { u.core with phase := none, sent := 0 } }) 0 4

theorem xendComplete_leaves {s : State} {clock : List Nat} {st : Storage} (hw : (s.ctx 0).wait = some (.exchange st))
    (hcon : (s.ctx 0).contributed = true) (hf : s.core.frozen = false) (ho : s.core.outgoing = none) (ha : s.core.arriving = [])
    (hclock : clockSeen s clock = true) (hack : s.core.phase = some 4 → s.unacked = false) :
    exec (.xendComplete clock) s = .next (phaseEnded s clock st) := by
  have hpod : (s.core.phase.any podLevel && s.unacked) = false := by
    by_cases hp : s.core.phase = some 4
    · rw [hack hp, Bool.and_false]
    · have hany : s.core.phase.any podLevel = false := by
        cases h : s.core.phase with
        | none => rfl
        | some l =>
          have hl : l.val ≠ 4 := fun e => hp (h.trans (congrArg some (Fin.ext e)))
          exact decide_eq_false hl
      rw [hany, Bool.false_and]
  show execXendComplete s clock = _
  unfold execXendComplete
  rw [hw]
  simp only [hcon, hf, ho, ha, hclock, hpod, Bool.not_false, Bool.and_self, Option.isNone_none, List.isEmpty_nil, if_true]
  rfl

/-! ### The fault of an exchange that is aborted (R34) -/

/-- The state of an aborted exchange, before a member that waits in XEND stops. -/
def abortedCore (s : State) : State :=
  let keep (p : FaultPacket) : Bool := !(decide (p.source = .router) && decide (p.launch = s.core.launch))
  let u := if routerStuck s then discardRetained s else s
  { u with core := { u.core with aborted := true },
           mod := { u.mod with inbox := u.mod.inbox.filter keep, driver := u.mod.driver.filter keep } }

theorem discardRetained_ctxs (s : State) : (discardRetained s).ctxs = s.ctxs := by
  unfold discardRetained
  split
  · rfl
  · split <;> rfl
  · rfl

theorem discardRetained_mem (s : State) : (discardRetained s).mem = s.mem := by
  unfold discardRetained
  split
  · rfl
  · split <;> rfl
  · rfl

theorem discardRetained_mod (s : State) : (discardRetained s).mod = s.mod := by
  unfold discardRetained
  split
  · rfl
  · split <;> rfl
  · rfl

theorem discardRetained_arriving (s : State) : (discardRetained s).core.arriving = s.core.arriving.drop 1 := by
  unfold discardRetained
  split
  next v r h => rw [h]; rfl
  next h _ =>
    split
    · rw [h]; rfl
    · rw [h]; rfl
  next h _ => rw [h]; rfl

theorem abortedCore_ctxs (s : State) : (abortedCore s).ctxs = s.ctxs := by
  show (if routerStuck s then discardRetained s else s).ctxs = _
  split
  · exact discardRetained_ctxs s
  · rfl

theorem abortedCore_ctx (s : State) (c : Fin 8) : (abortedCore s).ctx c = s.ctx c := by
  simp only [State.ctx, abortedCore_ctxs]

theorem abortedCore_mem (s : State) : (abortedCore s).mem = s.mem := by
  show (if routerStuck s then discardRetained s else s).mem = _
  split
  · exact discardRetained_mem s
  · rfl

theorem abortedCore_inbox (s : State) : (abortedCore s).mod.inbox =
    s.mod.inbox.filter fun p => !(decide (p.source = .router) && decide (p.launch = s.core.launch)) := by
  show (if routerStuck s then discardRetained s else s).mod.inbox.filter _ = _
  split
  · rw [discardRetained_mod]
  · rfl

theorem abortedCore_arriving (s : State) :
    (abortedCore s).core.arriving = if routerStuck s then s.core.arriving.drop 1 else s.core.arriving := by
  show (if routerStuck s then discardRetained s else s).core.arriving = _
  split
  · exact discardRetained_arriving s
  · rfl

/-- A core whose control context is not in XEND goes on with its phase aborted. -/
theorem exchangeAbort_beside {s : State} (hp : s.core.phase.isSome = true) (hw : ∀ z, (s.ctx 0).wait ≠ some (.exchange z)) :
    exec .exchangeAbort s = .next (abortedCore s) := by
  have hsome : ¬ s.core.phase.isNone = true := fun h => xend_within (s := { s with core := { s.core with cur := 0 } }) rfl hp (.inr h)
  show execExchangeAbort s = _
  unfold execExchangeAbort
  rw [if_neg hsome]
  dsimp only
  split
  next z h => exact absurd ((abortedCore_ctx s 0) ▸ h) (hw z)
  next => rfl

/-- A member that waits in XEND stops with WATCHDOG. -/
theorem exchangeAbort_stops {s : State} (hp : s.core.phase.isSome = true) {z : Storage} (hw : (s.ctx 0).wait = some (.exchange z)) :
    exec .exchangeAbort s =
      .next (raise ((abortedCore s).setCtx 0 { (abortedCore s).ctx 0 with contributed := false }) 0 abortFlt) := by
  have hsome : ¬ s.core.phase.isNone = true := fun h => xend_within (s := { s with core := { s.core with cur := 0 } }) rfl hp (.inr h)
  show execExchangeAbort s = _
  unfold execExchangeAbort
  rw [if_neg hsome]
  dsimp only
  split
  next => rfl
  next h => exact absurd ((congrArg Ctx.wait (abortedCore_ctx s 0)).trans hw) (h z)

/-- The packet of the fault of an aborted exchange names cause 1 (R34, R307). -/
theorem abortFlt_packet (s : State) :
    ∃ q, ((raise s 0 abortFlt).ctx 0).packet = some q ∧ q.cls = .watchdog ∧ q.info = 1 ∧
      (raise s 0 abortFlt).core.aborted = s.core.aborted := by
  rw [raise_plain (by decide) rfl]
  exact ⟨_, congrArg Ctx.packet (ctx_setCtx_same ..), rfl, rfl, rfl⟩

/-! ### Packets that arrive (R33, R34) -/

/-- A packet of another core has reached the router. -/
def queued (s : State) (v : Vec) : State := { s with core := { s.core with arriving := s.core.arriving ++ [v] } }

theorem delivery_arrives {s : State} {x : Arrival} (h : dropped s (some x.job) = false ∧ curJobId s = x.job ∧
    s.core.launch = some x.launch ∧ clockSeen s x.clock = true) :
    exec (.exchangeDelivery (some x)) s = .next (drainAll (queued s x.payload)) := by
  obtain ⟨hd, hhere⟩ := h
  show execExchangeDelivery (some x) s = _
  unfold execExchangeDelivery
  simp only [hd, Bool.false_eq_true, if_false, if_pos hhere]
  rfl

/-- A packet in a slot of the rings: its bytes read back, and every context stays where it is. -/
theorem store_packet {s : State} (hinv : MemoryInv s) {loc : Nat} (hloc : loc + 32 ≤ 0x20000 ∨ hbmLoc ≤ loc) (v : Vec) :
    readBytes (store s loc (leBytes 32 v.toNat)) loc 32 = leBytes 32 v.toNat :=
  store_bytes hinv.1 (length_leBytes ..) (hloc.imp (fun h => by unfold boltLoc; omega) fun h => by
    unfold hbmLoc at h
    unfold boltLoc
    omega)

/-- A slot of an inbound ring that lies in the scratchpad lies there too. -/
theorem inbound_fits {s : State} (hr : RoomIn s) (hring : s.core.xringBase.toNat + 32 * s.core.xringSize.toNat ≤ 0x20000) :
    inboundLoc s + 32 ≤ 0x20000 := by
  have hslot := Nat.mod_lt (s.core.inHead + s.core.inCount) (Nat.zero_lt_of_lt hr.2)
  unfold inboundLoc ringLoc
  omega

theorem toSelf_iff {s : State} {p : Packet} : toSelf s p = true ↔ p.module = s.mod.modnum ∧ p.lid = s.core.lid := by
  simp [toSelf]

theorem deliverOwn_placed {s t : State} {v : Vec} (h : deliver s v = .placed t) :
    deliverOwn s v = some { t with core := { t.core with outgoing := none } } := by
  unfold deliverOwn
  rw [h]

section own

variable {s : State} {p : Packet}

/-- This core's own packet leaves its router when it is delivered (R31). -/
theorem delivery_own {t : State} (ha : s.core.arriving = []) (hout : s.core.outgoing = some p) (hself : toSelf s p = true)
    (h : deliverOwn s p.payload = some t) : exec (.exchangeDelivery none) s = .next t := by
  show execExchangeDelivery none s = _
  unfold execExchangeDelivery
  rw [ha, hout]
  simp only [hself, if_true, h]

/-- It is held there otherwise. -/
theorem delivery_ownHeld (ha : s.core.arriving = []) (hout : s.core.outgoing = some p) (hself : toSelf s p = true)
    (h : deliver s p.payload = .held) : exec (.exchangeDelivery none) s = .refused .eventNotEnabled := by
  have hown : deliverOwn s p.payload = none := by
    unfold deliverOwn
    rw [h]
  show execExchangeDelivery none s = _
  unfold execExchangeDelivery
  rw [ha, hout]
  simp only [hself, if_true, hown]

/-- A packet for another core leaves its router (R31). -/
theorem delivery_leaves (ha : s.core.arriving = []) (hout : s.core.outgoing = some p) (hself : ¬ toSelf s p = true) :
    exec (.exchangeDelivery none) s = .next { s with core := { s.core with outgoing := none } } := by
  show execExchangeDelivery none s = _
  unfold execExchangeDelivery
  dsimp only
  split
  next q _ hq =>
    obtain rfl : p = q := Option.some.inj (hout.symm.trans hq)
    exact if_neg hself
  next hcons _ => exact absurd (ha.symm.trans hcons) (List.cons_ne_nil _ _).symm
  next hcons _ => exact absurd (ha.symm.trans hcons) (List.cons_ne_nil _ _).symm
  next hnone => exact absurd (hout.symm.trans hnone) nofun

end own

/-- Settles O37. -/
theorem barrierAndExchangeResults : Obligations.BarrierAndExchangeResults := by
  unfold Obligations.BarrierAndExchangeResults
  refine ⟨fun s level st gb ga others clock => ?barrier, fun s gb ga gd level l runs hinv hfree => ?packets,
    fun s x loc f p hinv => ?deliveries⟩
  case barrier =>
    intro wrong contributed colour key left seen waiting me rank mine members before low
    refine ⟨fun h => ?_, fun h => ?_, fun hcur hl hp ht => ?_, fun hw hl => ?_, fun hw hsplit hlid hothers => ⟨fun hc => ?_, fun hc => ?_⟩,
      fun h => ?_, fun hcur hp ha ht => ?_, fun hcur hp ha => ?_, fun hw hcon hf ho ha hseen => ?_,
      fun hfree => ⟨fun h => ?_, fun hco hke h => ?_, fun hco hke hcur h => ?_⟩⟩
    · show execBsync level st s = _
      unfold execBsync
      rw [h, Bool.true_or, if_pos rfl]
      rfl
    · show execBsync level st s = _
      unfold execBsync
      rw [h, Bool.or_true, if_pos rfl]
      rfl
    · show execBsync level st s = _
      unfold execBsync
      rw [syncRefused_eq_false hcur hl, hp, Bool.false_or, if_neg (by simp), contributeSync_unpaired ht]
    · have hsame : (if level.val = 1 then regroup s others else some s) = some s := by
        split
        next h1 =>
          obtain ⟨hnone, hnil⟩ := hl.resolve_left (not_not.mpr (Fin.ext h1))
          unfold regroup
          rw [hnone, hnil]
          rfl
        next => rfl
      exact ⟨_, bsyncComplete_begins hw hsame, left_phaseBegun rfl (memoryKept_refl s), rfl, rfl, rfl⟩
    · obtain ⟨hsize, hrank, hindex⟩ := regrouped_dom hc hlid hothers
      refine ⟨_, bsyncComplete_begins hw ((if_pos rfl).trans (regroup_some hsplit hc)), left_phaseBegun rfl (memoryKept_refl s), rfl, rfl,
        hsize, hrank, hindex, fun i hi => regrouped_dom_other hi⟩
    · exact bsyncComplete_tooMany hw ((if_pos rfl).trans (regroup_none hsplit hc))
    · have hout : s.cur ≠ 0 ∨ s.core.phase.isNone = true := h.imp_right fun hp => by rw [hp]; rfl
      show execXend st s = _
      unfold execXend
      rw [if_pos hout]
      rfl
    · show execXend st s = _
      unfold execXend
      rw [if_neg (xend_within hcur hp), ha, if_neg Bool.false_ne_true, contributeSync_unpaired ht]
    · show execXend st s = _
      unfold execXend
      rw [if_neg (xend_within hcur hp), if_pos ha, ← hcur]
      rfl
    · obtain ⟨hclock, hack⟩ := hseen
      exact ⟨_, xendComplete_leaves hw hcon hf ho ha hclock hack, left_wakePast rfl (memoryKept_refl s), rfl⟩
    · show execDsplit gb ga s = _
      unfold execDsplit
      rw [withRegs_free hfree]
      exact if_pos h
    · show execDsplit gb ga s = _
      have href : syncRefused s 1 = true := (syncRefused_iff s 1).mpr (h.imp_right fun hn => ⟨by decide, hn⟩)
      unfold execDsplit
      rw [withRegs_free hfree]
      exact (if_neg (not_or.mpr ⟨Nat.not_le.mpr hco, Nat.not_le.mpr hke⟩)).trans (if_pos href)
    · have href : syncRefused s 1 = false := syncRefused_eq_false hcur (.inr h)
      refine ⟨retire (markSynced { s with core := { s.core with split := some (colour.truncate 32, key.truncate 32) } }) s.cur 4, ?_, rfl,
        ?_, memoryKept_refl s⟩
      · show execDsplit gb ga s = _
        unfold execDsplit
        rw [withRegs_free hfree]
        exact (if_neg (not_or.mpr ⟨Nat.not_le.mpr hco, Nat.not_le.mpr hke⟩)).trans (if_neg (by rw [href]; nofun))
      · rw [hcur, ctx_retire_same]
        rfl
  case packets =>
    intro a b c slot spill module packet taken
    have hsend : RegsFree s [gb, ga] [] := regsFree_mono hfree (by simp) (by simp)
    have hrecv : RegsFree s [ga] [gd] := regsFree_mono hfree (by simp) (by simp)
    refine ⟨fun ha hb hp => xsend_outside hsend ha hb hp, fun ha hb hp => ⟨fun hab => xsend_aborted hsend ha hb hp hab,
      fun hab => ⟨fun hd => xsend_noMember hsend ha hb hp hab hd, fun hl hcur h =>
        xsend_noMember hsend ha hb hp hab (destOk_outside hl hcur hb h), fun hfit hd hcheck htwin => ⟨fun hout => ?held, fun hout hset => ?sent⟩⟩⟩,
      fun ha hfit => ⟨fun hin hov => ?none, fun hin hcheck => ?inbound, fun hin hov hcheck htwin hlen => ?overflow⟩⟩
    case held => exact xsend_held hsend ha hb hp hab hd hfit hcheck htwin hout
    case sent =>
      refine ⟨_, xsend_sent hsend ha hb hp hab hd hfit hcheck htwin hout hset, rfl, ?_, memoryKept_refl s, rfl⟩
      rw [ctx_retire_same]
      rfl
    case none =>
      rw [xrecv_tested hrecv ha hfit, if_neg hin.not_gt, if_neg hov.not_gt]
      rfl
    case inbound =>
      obtain ⟨t, htake, hbytes, hflag, hpc, hih, hic, -, hoc⟩ := takePacket_takes
        (s := { s with core := { s.core with inHead := (s.core.inHead + 1) % s.core.xringSize.toNat, inCount := s.core.inCount - 1 } })
        hinv hfit gd (length_readBytes s slot 32)
      refine ⟨t, ⟨?_, hbytes, hflag, hpc⟩, hic, hih, hoc⟩
      rw [xrecv_tested hrecv ha hfit, if_pos hin]
      exact (congrArg (fun r => Chk.run s r _) hcheck).trans htake
    case overflow =>
      obtain ⟨t, htake, hbytes, hflag, hpc, -, hic, hoh, hoc⟩ := takePacket_takes
        (s := { s with core := { s.core with ovHead := (s.core.ovHead + 1) % s.core.xspillSize.toNat, ovCount := s.core.ovCount - 1 } })
        hinv hfit gd hlen
      refine ⟨t, ⟨?_, hbytes, hflag, hpc⟩, hoc, hoh, hic.trans hin⟩
      rw [xrecv_tested hrecv ha hfit, if_neg hin.not_gt, if_pos hov]
      refine (congrArg (fun r => Chk.run s r _) hcheck).trans ?_
      exact (pairGate_unpaired (.inl htwin) _ _ _).trans htake
  case deliveries =>
    intro v c slot spill roomIn roomOut arrives waits kept here
    refine ⟨fun hd => ?dropped, fun hd hh => ?elsewhere, fun hh hs => ?sealed, fun hh hs ha => ⟨fun hr hring => ?inbound, fun hr ho => ?full,
      fun hr ho hregion => ⟨fun ht hloc => ?overflow, fun ht hstuck => ?faulted⟩⟩, fun ha hout => ⟨fun hself => ?leaves,
      fun hm hl hs hr hring => ?own, fun hm hl hr => ?ownHeld⟩, fun hout hself => ?sent, fun hp => ⟨fun hw => ?beside, fun z hw => ?stops⟩⟩
    case dropped =>
      show execExchangeDelivery (some x) s = _
      unfold execExchangeDelivery
      exact if_pos hd
    case elsewhere =>
      show execExchangeDelivery (some x) s = _
      have hnot : ¬(curJobId s = x.job ∧ s.core.launch = some x.launch ∧ clockSeen s x.clock = true) := fun k => hh ⟨hd, k⟩
      unfold execExchangeDelivery
      simp only [hd, Bool.false_eq_true, if_false]
      exact if_neg hnot
    case sealed =>
      refine ⟨_, delivery_arrives hh, ?_⟩
      obtain ⟨w, r, hwr⟩ := List.exists_cons_of_ne_nil (List.append_ne_nil_of_right_ne_nil c.arriving (List.cons_ne_nil v []))
      rw [drainAll_held (s := queued s v) hwr (deliver_sealed (s := queued s v) hs w)]
      exact ⟨rfl, rfl⟩
    case inbound =>
      have hone : (queued s v).core.arriving = [v] := congrArg (· ++ [v]) ha
      have hkeeps := store_keeps (queued s v) (inboundLoc (queued s v)) (leBytes 32 v.toNat)
      refine ⟨_, delivery_arrives hh, ?_⟩
      rw [drainAll_placed hone (deliver_inbound (s := queued s v) hs hr v)]
      refine ⟨store_packet (s := queued s v) hinv (.inl (inbound_fits (s := queued s v) hr hring)) v, ?_, ?_, rfl, hkeeps.pc⟩
      · show (store _ _ _).core.inCount + 1 = _
        rw [hkeeps.core]
        rfl
      · show (store _ _ _).core.ovCount = 0
        rw [hkeeps.core]
        exact hr.1
    case full =>
      have hone : (queued s v).core.arriving = [v] := congrArg (· ++ [v]) ha
      refine ⟨_, delivery_arrives hh, ?_⟩
      rw [drainAll_held hone (deliver_full (s := queued s v) hs hr ho v)]
      exact ⟨rfl, rfl⟩
    case overflow =>
      have hone : (queued s v).core.arriving = [v] := congrArg (· ++ [v]) ha
      have hkeeps := store_keeps (queued s v) loc (leBytes 32 v.toNat)
      have htr : translateCore (queued s v) spill true = .ok loc := (translateCore_congr rfl rfl rfl rfl rfl _ _).trans ht
      refine ⟨_, delivery_arrives hh, ?_⟩
      rw [drainAll_placed hone (deliver_overflow (s := queued s v) hs hr ho hregion htr v)]
      refine ⟨store_packet (s := queued s v) hinv (.inr hloc) v, ?_, ?_, rfl⟩
      · show (store _ _ _).core.ovCount + 1 = _
        rw [hkeeps.core]
        rfl
      · show (store _ _ _).core.inCount = _
        rw [hkeeps.core]
        rfl
    case faulted =>
      have hone : (queued s v).core.arriving = [v] := congrArg (· ++ [v]) ha
      have htr : translateCore (queued s v) spill true = .error f := (translateCore_congr rfl rfl rfl rfl rfl _ _).trans ht
      refine ⟨_, delivery_arrives hh, ?_⟩
      rw [drainAll_faulted hone (deliver_faulted (s := queued s v) hs hr ho hregion htr v) hstuck]
      exact ⟨⟨rfl, rfl⟩, rfl, _, rfl, rfl, rfl, rfl⟩
    case leaves =>
      have hnot : ¬ toSelf s p = true := toSelf_iff.not.mpr (not_and_or.mpr hself)
      exact delivery_leaves ha hout hnot
    case own =>
      have hkeeps := store_keeps s (inboundLoc s) (leBytes 32 p.payload.toNat)
      have hown := deliverOwn_placed (deliver_inbound hs hr p.payload)
      refine ⟨_, delivery_own ha hout (toSelf_iff.mpr ⟨hm, hl⟩) hown, store_packet hinv (.inl (inbound_fits hr hring)) _, ?_, rfl⟩
      show (store _ _ _).core.inCount + 1 = _
      rw [hkeeps.core]
    case ownHeld =>
      have hheld : deliver s p.payload = .held := by
        rcases hr with hs | ⟨hi, ho⟩
        · exact deliver_sealed hs _
        · cases hs : s.core.sealed with
          | true => exact deliver_sealed hs _
          | false => exact deliver_full hs hi ho _
      exact delivery_ownHeld ha hout (toSelf_iff.mpr ⟨hm, hl⟩) hheld
    case sent =>
      have hnot : ¬ toSelf s p = true := toSelf_iff.not.mpr (not_and_or.mpr hself)
      show ∃ t, execExchangeDelivery none s = _ ∧ _
      unfold execExchangeDelivery
      rw [hout]
      cases ha : s.core.arriving with
      | nil => exact ⟨_, if_neg hnot, rfl⟩
      | cons w r =>
        refine ⟨_, rfl, ?_⟩
        rw [if_neg hnot]
        exact drainArriving_outgoing ..
    case beside =>
      exact ⟨_, exchangeAbort_beside hp hw, rfl, abortedCore_ctxs s, abortedCore_mem s, abortedCore_inbox s, abortedCore_arriving s⟩
    case stops =>
      obtain ⟨q, hq, hcls, hinfo, hab⟩ := abortFlt_packet ((abortedCore s).setCtx 0 { (abortedCore s).ctx 0 with contributed := false })
      exact ⟨_, q, exchangeAbort_stops hp hw, hq, hcls, hinfo, hab⟩

end Sys2Proof.Proofs
end

