-- ==== Sys2Proof/Proofs/Launches.lean ====
section
/-! PROOFS. Launches (O53): what a core is prepared with, how launches and gangs start and end, and what shares the module. -/

namespace Sys2Proof.Proofs

open Sys2Proof.Machine Sys2Proof.Laws

/-! ### Locations cleared (R309, R337) -/

/-- Leaving entries out by their keys makes those keys read as unlisted and leaves the others. -/
theorem sparseGet_filter {α : Type} (d : Nat → α) (p : Nat → Bool) (l : List (Nat × α)) (a : Nat) :
    sparseGet d (l.filter fun e => p e.1) a = if p a then sparseGet d l a else d a := by
  induction l with
  | nil => simp [sparseGet]
  | cons e l ih =>
    obtain ⟨k, b⟩ := e
    have hcons : (((k, b) :: l).filter fun e => p e.1) =
        if p k then (k, b) :: l.filter fun e => p e.1 else l.filter fun e => p e.1 := List.filter_cons
    rw [hcons]
    by_cases hk : k = a
    · subst hk
      cases hp : p k with
      | true => simp [sparseGet]
      | false => rw [if_neg Bool.false_ne_true, ih, hp]
                 rfl
    · cases hp : p k with
      | true => simp only [if_true, sparseGet, if_neg hk, ih]
      | false => simp only [Bool.false_eq_true, if_false, sparseGet, if_neg hk, ih]

theorem memory_get_clear (m : Cells) (lo hi loc : Nat) :
    Memory.get (Memory.clear m lo hi) loc = if loc < lo ∨ hi ≤ loc then Memory.get m loc else unlisted loc := by
  unfold Memory.get Memory.clear
  rw [sparseGet_filter unlisted fun k => decide (k < lo) || decide (hi ≤ k)]
  simp only [Bool.or_eq_true, decide_eq_true_eq]

theorem memory_get_clear_outside {m : Cells} {lo hi loc : Nat} (h : loc < lo ∨ hi ≤ loc) :
    Memory.get (Memory.clear m lo hi) loc = Memory.get m loc := by rw [memory_get_clear, if_pos h]

/-- Outside the harvest apertures a location cleared is 0. -/
theorem memory_get_clear_inside {m : Cells} {lo hi loc : Nat} (h : lo ≤ loc ∧ loc < hi)
    (hz : loc < harvestLoc ∨ harvestLoc + 0x18000 ≤ loc) : Memory.get (Memory.clear m lo hi) loc = 0 := by
  rw [memory_get_clear, if_neg (by omega), unlisted, if_neg (by omega)]

/-- An image written over zeros reads as the image with zeros above it. -/
theorem memory_get_image {m : Cells} {loc n a : Nat} {bs : List Byte} (h : Memory.wf m = true) (ha : a < n)
    (hz : Memory.get m (loc + a) = 0) : Memory.get (Memory.putBytes m loc (bs.take n)) (loc + a) = bs.getD a 0 := by
  by_cases hlt : a < bs.length
  · rw [memory_get_putBytes_inside h (by simp; omega)]
    simp [hlt]
  · rw [memory_get_putBytes_outside (.inr (by simp; omega)), hz, List.getD_eq_default _ _ (by omega)]

/-! ### A core prepared (R120, R337) -/

section prepare

variable {s : State} {image : List Byte}

theorem setSpad_get {a : Nat} (h : Memory.wf s.mem = true) (ha : a < 0x20000) :
    Memory.get (setSpad s image).mem a = image.getD a 0 := by
  have hz : Memory.get (Memory.clear s.mem 0 spadSize) (0 + a) = 0 :=
    memory_get_clear_inside ⟨by omega, by unfold spadSize; omega⟩ (.inl (by unfold harvestLoc; omega))
  have hput := memory_get_image (bs := image) (memory_clear_wf (lo := 0) (hi := spadSize) h) (n := spadSize) ha hz
  rw [Nat.zero_add] at hput
  exact hput

theorem setSpad_get_beyond {loc : Nat} (h : 0x20000 ≤ loc) : Memory.get (setSpad s image).mem loc = Memory.get s.mem loc := by
  have hput : Memory.get (Memory.putBytes (Memory.clear s.mem 0 spadSize) 0 (image.take spadSize)) loc =
      Memory.get (Memory.clear s.mem 0 spadSize) loc :=
    memory_get_putBytes_outside (.inr (by rw [List.length_take]; unfold spadSize; omega))
  exact hput.trans (memory_get_clear_outside (.inr h))

/-- What the peers of a core are prepared with, one after another. -/
def fillPeers (s : State) (lid : Nat) (image : List Byte) (l : List Nat) : State :=
  l.foldl (fun t i => if i = lid ∨ image.isEmpty = true then t else setBytes t (gwinLoc + spadSize * i) (image.take spadSize)) s

theorem fillPeers_step_frame (s : State) (lid : Nat) (image : List Byte) (i : Nat) :
    StoreFrame s (if i = lid ∨ image.isEmpty = true then s else setBytes s (gwinLoc + spadSize * i) (image.take spadSize)) := by
  split
  · exact storeFrame_refl s
  · exact setBytes_frame ..

theorem fillPeers_frame (s : State) (lid : Nat) (image : List Byte) (l : List Nat) : StoreFrame s (fillPeers s lid image l) :=
  storeFrame_foldl _ (fun t i => fillPeers_step_frame t lid image i) _ _

theorem fillPeers_keeps (s : State) (lid : Nat) (image : List Byte) (l : List Nat) : StoreKeeps s (fillPeers s lid image l) := by
  refine storeKeeps_foldl (fun t i => ?_) l s
  split
  · exact storeKeeps_refl t
  · exact storeKeeps_of_core rfl rfl

theorem fillPeers_get_below {loc : Nat} (h : loc < gwinLoc) (s : State) (lid : Nat) (image : List Byte) (l : List Nat) :
    Memory.get (fillPeers s lid image l).mem loc = Memory.get s.mem loc := by
  unfold fillPeers
  induction l generalizing s with
  | nil => rfl
  | cons i l ih =>
    rw [List.foldl_cons, ih]
    split
    · rfl
    · exact memory_get_putBytes_outside (.inl (by omega))

/-- The peers below a number have the image, and those from it on what they had. -/
theorem fillPeers_get (h : Memory.wf s.mem = true) (lid n : Nat) {j a : Nat} (ha : a < spadSize)
    (hz : Memory.get s.mem (gwinLoc + spadSize * j + a) = 0) :
    Memory.get (fillPeers s lid image (List.range n)).mem (gwinLoc + spadSize * j + a) =
      if j < n ∧ j ≠ lid then image.getD a 0 else 0 := by
  induction n with
  | zero => simp [fillPeers, hz]
  | succ n ih =>
    have hwf := (fillPeers_frame s lid image (List.range n)).memory h
    have hstep : fillPeers s lid image (List.range (n + 1)) =
        if n = lid ∨ image.isEmpty = true then fillPeers s lid image (List.range n)
        else setBytes (fillPeers s lid image (List.range n)) (gwinLoc + spadSize * n) (image.take spadSize) := by
      unfold fillPeers
      rw [List.range_succ, List.foldl_append]
      rfl
    rw [hstep]
    split
    next hskip =>
      rw [ih]
      rcases hskip with hlid | hempty
      · have hiff : (j < n ∧ j ≠ lid) ↔ (j < n + 1 ∧ j ≠ lid) := by omega
        simp only [hiff]
      · have hnil : image.getD a 0 = 0 := by rw [List.isEmpty_iff.mp hempty]; rfl
        rw [hnil, ite_self, ite_self]
    next hfill =>
      obtain ⟨hne, -⟩ := not_or.mp hfill
      by_cases hjn : j = n
      · subst hjn
        rw [if_pos ⟨Nat.lt_succ_self j, hne⟩]
        exact memory_get_image hwf ha (by rw [ih, if_neg (fun k => Nat.lt_irrefl j k.1)])
      · have hout : Memory.get (setBytes (fillPeers s lid image (List.range n)) (gwinLoc + spadSize * n) (image.take spadSize)).mem
            (gwinLoc + spadSize * j + a) = Memory.get (fillPeers s lid image (List.range n)).mem (gwinLoc + spadSize * j + a) := by
          refine memory_get_putBytes_outside ?_
          rw [List.length_take]
          unfold spadSize at ha ⊢
          omega
        rw [hout, ih]
        have hiff : (j < n ∧ j ≠ lid) ↔ (j < n + 1 ∧ j ≠ lid) := by omega
        simp only [hiff]

/-- The core with the image in its scratchpad, and its peers with it in theirs, before the bank is looked at. -/
def imaged (s : State) (lid n : Nat) (image : List Byte) : State := setPeers (clearAccs (setSpad (freeCore s) image)) lid n image

theorem imaged_eq (s : State) (lid n : Nat) (image : List Byte) :
    imaged s lid n image =
      fillPeers (clearSpan (clearAccs (setSpad (freeCore s) image)) gwinLoc (gwinLoc + 2 ^ 20 * spadSize)) lid image (List.range n) :=
  rfl

theorem accs_wf (h : Memory.wf s.mem = true) : Memory.wf (clearAccs (setSpad (freeCore s) image)).mem = true :=
  memory_clear_wf (memory_clear_wf (memory_putBytes_wf (memory_clear_wf h)))

theorem imaged_spad (h : Memory.wf s.mem = true) (lid n : Nat) {a : Nat} (ha : a < 0x20000) :
    Memory.get (imaged s lid n image).mem a = image.getD a 0 := by
  rw [imaged_eq, fillPeers_get_below (by unfold gwinLoc; omega)]
  refine (memory_get_clear_outside (.inl (by unfold gwinLoc; omega))).trans ?_
  refine (memory_get_clear_outside (.inl (by unfold boltLoc; omega))).trans ?_
  exact (memory_get_clear_outside (.inl (by unfold accLoc; omega))).trans (setSpad_get (s := freeCore s) h ha)

theorem imaged_acc (s : State) (lid n : Nat) {a : Nat} (ha : a < 0x1000) :
    Memory.get (imaged s lid n image).mem (accLoc + a) = 0 := by
  have hacc : accLoc = 0x20000 := rfl
  rw [imaged_eq, fillPeers_get_below (by unfold gwinLoc; omega)]
  refine (memory_get_clear_outside (.inl (by unfold gwinLoc; omega))).trans ?_
  refine (memory_get_clear_outside (.inl (by unfold boltLoc; omega))).trans ?_
  exact memory_get_clear_inside ⟨by omega, by omega⟩ (.inl (by unfold harvestLoc; omega))

theorem imaged_peer (h : Memory.wf s.mem = true) {lid n j a : Nat} (hn : n ≤ 2 ^ 20) (hj : j < n) (hlid : j ≠ lid)
    (ha : a < 0x20000) : Memory.get (imaged s lid n image).mem (gwinLoc + 0x20000 * j + a) = image.getD a 0 := by
  have hz : Memory.get (Memory.clear (clearAccs (setSpad (freeCore s) image)).mem gwinLoc (gwinLoc + 2 ^ 20 * spadSize))
      (gwinLoc + spadSize * j + a) = 0 :=
    memory_get_clear_inside ⟨by omega, by unfold spadSize; omega⟩ (.inr (by unfold harvestLoc gwinLoc; omega))
  have hfill := fillPeers_get (s := clearSpan (clearAccs (setSpad (freeCore s) image)) gwinLoc (gwinLoc + 2 ^ 20 * spadSize))
    (image := image) (memory_clear_wf (accs_wf h)) lid n ha hz
  rw [if_pos ⟨hj, hlid⟩] at hfill
  exact hfill

/-- Of the cluster, only the bank may change. -/
theorem imaged_clu (s : State) (lid n : Nat) : (imaged s lid n image).clu = s.clu := (fillPeers_frame ..).cluster

theorem imaged_mod (s : State) (lid n : Nat) : (imaged s lid n image).mod = s.mod := (fillPeers_frame ..).module

theorem imaged_idle (s : State) (lid n : Nat) (c : Fin 8) : ((imaged s lid n image).ctx c).live = false := by
  rw [imaged_eq, (fillPeers_keeps ..).ctx c]
  simp [clearSpan, clearAccs, setSpad, setBytes, freeCore, State.ctx, Ctx.idle]

theorem imaged_tags (s : State) (lid n : Nat) {w : Nat} (h : w ∈ (imaged s lid n image).tags) : 0x20000 ≤ 4 * w := by
  rw [imaged_eq, (fillPeers_frame ..).tags] at h
  have hspad : w ∈ (clearSpan (freeCore s) 0 spadSize).tags := List.mem_of_mem_filter h
  have hout := (List.mem_filter.mp hspad).2
  simp only [Bool.or_eq_true, decide_eq_true_eq] at hout
  unfold spadSize at hout
  omega

theorem descOf_clearSpan (s : State) (lo hi b : Nat) :
    descOf (clearSpan s lo hi) b = if decide (64 * b + 64 ≤ lo) || decide (hi ≤ 64 * b) then descOf s b else 0 :=
  sparseGet_filter (fun _ => 0) (fun b => decide (64 * b + 64 ≤ lo) || decide (hi ≤ 64 * b)) s.descs b

theorem descOf_setSpad {b : Nat} (h : b < 0x800) : descOf (setSpad s image) b = 0 := by
  have hdesc : descOf (setSpad s image) b = descOf (clearSpan s 0 spadSize) b := rfl
  have hin : (decide (64 * b + 64 ≤ 0) || decide (spadSize ≤ 64 * b)) = false := by
    rw [Bool.or_eq_false_iff, decide_eq_false_iff_not, decide_eq_false_iff_not]
    unfold spadSize
    omega
  rw [hdesc, descOf_clearSpan, hin, if_neg Bool.false_ne_true]

/-- The descriptors below a span that is cleared stay. -/
theorem descOf_clearSpan_below {lo hi b : Nat} (h : 64 * b + 64 ≤ lo) : descOf (clearSpan s lo hi) b = descOf s b := by
  rw [descOf_clearSpan, decide_eq_true h, Bool.true_or, if_pos rfl]

theorem imaged_descs (s : State) (lid n : Nat) {b : Nat} (h : b < 0x800) : descOf (imaged s lid n image) b = 0 := by
  have hbelow : 64 * b + 64 ≤ gwinLoc := by unfold gwinLoc; omega
  have haccs : descOf (clearAccs (setSpad (freeCore s) image)) b = descOf (setSpad (freeCore s) image) b := rfl
  have hpeers (t : State) : descOf (fillPeers t lid image (List.range n)) b = descOf t b := by
    rw [descOf, (fillPeers_frame ..).descs, descOf]
  rw [imaged_eq, hpeers, descOf_clearSpan_below hbelow, haccs, descOf_setSpad h]

/-- Only the bank's records differ from what the image has left. -/
theorem prepareCore_mem (s : State) (l : Launch) (lid : Nat) {loc : Nat} (h : loc < neuronLoc ∨ neuronLoc + 0x10000 ≤ loc) :
    Memory.get (prepareCore s l lid).mem loc = Memory.get (imaged s lid l.n (launchImage s l)).mem loc := by
  show Memory.get (if Config.clusterBusy s.choice then imaged s lid l.n (launchImage s l)
    else resetBank (imaged s lid l.n (launchImage s l))).mem loc = _
  split
  · rfl
  · exact memory_get_clear_outside h

end prepare

/-- The bank as the launch leaves it: reset where no group of another launch runs (R337; log 79). -/
def banked (s t : State) : State := if Config.clusterBusy s.choice then t else resetBank t

theorem prepareCore_eq (s : State) (l : Launch) (lid : Nat) :
    prepareCore s l lid = { (banked s (imaged s lid l.n (launchImage s l))).tickChoice with
      core := launchRegs s l lid (corePid s).toNat } := rfl

theorem banked_ctxs (s t : State) : (banked s t).ctxs = t.ctxs := by unfold banked; split <;> rfl
theorem banked_tags (s t : State) : (banked s t).tags = t.tags := by unfold banked; split <;> rfl
theorem banked_descs (s t : State) : (banked s t).descs = t.descs := by unfold banked; split <;> rfl
theorem banked_mod (s t : State) : (banked s t).mod = t.mod := by unfold banked; split <;> rfl

section grant

variable {s : State} {l : Launch} {lid : Nat}

theorem prepareCore_idle (c : Fin 8) : ((prepareCore s l lid).ctx c).live = false := by
  have hctx : (prepareCore s l lid).ctx c = (imaged s lid l.n (launchImage s l)).ctx c := by
    simp only [State.ctx, prepareCore_eq, State.tickChoice, banked_ctxs]
  rw [hctx]
  exact imaged_idle ..

theorem prepareCore_tags {w : Nat} (h : w ∈ (prepareCore s l lid).tags) : 0x20000 ≤ 4 * w := by
  simp only [prepareCore_eq, State.tickChoice, banked_tags] at h
  exact imaged_tags s lid l.n h

theorem prepareCore_descs {b : Nat} (h : b < 0x800) : descOf (prepareCore s l lid) b = 0 := by
  rw [← imaged_descs (image := launchImage s l) s lid l.n h]
  simp only [descOf, prepareCore_eq, State.tickChoice, banked_descs]

theorem prepareCore_bank (h : Config.clusterBusy s.choice = false) :
    (prepareCore s l lid).clu.bank = { Bank.reset with held := s.clu.bank.held } := by
  rw [prepareCore_eq, banked, h, if_neg Bool.false_ne_true]
  simp only [State.tickChoice, resetBank, imaged_clu]

theorem prepareCore_mod : (prepareCore s l lid).mod = s.mod := by
  simp only [prepareCore_eq, State.tickChoice, banked_mod, imaged_mod]

end grant

/-! ### The launch unit's table (R332, R337) -/

/-- The launch that a number names. -/
def launchOf (s : State) (id : Nat) : Option Launch := s.mod.launches.find? fun k => decide (k.id = id)

theorem id_of_launchOf {s : State} {id : Nat} {l : Launch} (h : launchOf s id = some l) : l.id = id := by
  simpa using List.find?_some h

/-- Every entry of a launch that has been replaced is the new one. -/
theorem setLaunch_entries {s : State} {l : Launch} {id : Nat} {p : Launch → Prop} (hid : l.id = id) (hp : p l) :
    ∀ k ∈ (setLaunch s l).mod.launches, k.id = id → p k := by
  intro k hk hkid
  obtain ⟨q, -, rfl⟩ := List.mem_map.mp hk
  split at hkid
  next h => rwa [if_pos h]
  next h => exact absurd (hkid.trans hid.symm) h

section launches

variable {s : State} {id : Nat} {l : Launch}

theorem coreGrant_grants (h : launchOf s id = some l) (hcore : s.core.launch = none) (hfen : s.core.fenced = false)
    (hend : l.ended = false) (hgr : l.granted = false) (hfroz : s.mod.frozen = false)
    (hi : l.domain.idxOf (corePid s) < l.domain.length) (hserve : mayServe s l = true) :
    exec (.coreGrant id) s = .next (setLaunch (prepareCore s l (l.domain.idxOf (corePid s) % l.n))
      { l with granted := true, started := l.started || l.startTick.isNone }) := by
  show execCoreGrant id s = _
  unfold launchOf at h
  unfold execCoreGrant
  simp only [h, hcore, hfen, hend, hgr, hfroz, hserve, Option.isSome_none, Bool.or_false, Bool.not_true,
    decide_eq_false (Nat.not_le.mpr hi), Bool.false_eq_true, if_false]

theorem launchStarttick_starts (h : launchOf s id = some l) {tick : Nat} (htick : l.startTick = some tick)
    (hstart : l.started = false) (hend : l.ended = false) (hfroz : s.mod.frozen = false) (hready : gangReady s l = true) :
    exec (.launchStarttick id) s = .next (setLaunch (reachTick s tick) { l with started := true }) := by
  show execLaunchStarttick id s = _
  unfold launchOf at h
  unfold execLaunchStarttick
  simp only [h, htick, hstart, hend, hfroz, hready, Bool.not_true, Bool.or_false, Bool.false_eq_true, if_false]

theorem reachTick_reached {tick : Nat} (h : tick < 2 ^ 64) : tick ≤ (reachTick s tick).mod.tick.toNat := by
  show tick ≤ BitVec.toNat (if s.mod.tick.toNat < tick then BitVec.ofNat 64 tick else s.mod.tick)
  split
  next => rw [BitVec.toNat_ofNat, Nat.mod_eq_of_lt h]
  next hpast => exact Nat.not_lt.mp hpast

/-- An entry of a launch that has ended has the result given. -/
theorem endLaunch_entries {result reason : Nat} (hid : l.id = id) :
    ∀ k ∈ (endLaunch s l result reason).mod.launches, k.id = id → k.ended = true ∧ k.result = some (result, reason) :=
  setLaunch_entries (l := { l with ended := true, result := some (result, reason) }) hid ⟨rfl, rfl⟩

theorem endLaunch_records {result reason : Nat} :
    ∀ r ∈ (endLaunch s l result reason).saved, r.core.launch ≠ some l.id := by
  intro r hr
  have hkeep := (List.mem_filter.mp hr).2
  simpa using hkeep

theorem gangDeadline_rejects (h : launchOf s id = some l) {tick : Nat} (htick : l.startTick = some tick)
    (hstart : l.started = false) (hend : l.ended = false) (hfroz : s.mod.frozen = false) (hready : gangReady s l = false) :
    ∃ t, exec (.gangDeadline id) s = .next (endLaunch t l 1 8) := by
  unfold launchOf at h
  show ∃ t, execGangDeadline id s = _
  unfold execGangDeadline
  simp only [h, htick, hstart, hend, hfroz, hready, Bool.or_false, Bool.false_eq_true, if_false]
  exact ⟨_, rfl⟩

theorem gangWithdrawal_rejects (h : launchOf s id = some l) (hend : l.ended = false) (hgang : l.gang ≠ [])
    (hstart : l.started = false) : exec (.gangWithdrawal id) s = .next (endLaunch s l 1 8) := by
  show execGangWithdrawal id s = _
  unfold launchOf at h
  unfold execGangWithdrawal
  simp only [h, hend, hstart, List.isEmpty_eq_false_iff.mpr hgang, Bool.or_false, Bool.false_eq_true, if_false]

theorem gangWithdrawal_kills (h : launchOf s id = some l) (hend : l.ended = false) (hgang : l.gang ≠ [])
    (hstart : l.started = true) :
    exec (.gangWithdrawal id) s = .next (logEvent (endLaunch s l 3 2) (.kill l.job)) := by
  show execGangWithdrawal id s = _
  unfold launchOf at h
  unfold execGangWithdrawal
  simp only [h, hend, hstart, List.isEmpty_eq_false_iff.mpr hgang, Bool.or_false, Bool.false_eq_true, if_false, if_true]

theorem gangAcceptance_eq (h : launchOf s id = some l) {m : Nat} (hm : m ∈ l.gang) (hacc : m ∉ l.accepted) :
    exec (.gangAcceptance m id) s =
      if gangClosed s l then .next s else .next (setLaunch s { l with accepted := l.accepted ++ [m] }) := by
  show execGangAcceptance m id s = _
  unfold launchOf at h
  unfold execGangAcceptance
  have hin : l.gang.contains m = true := List.contains_iff_mem.mpr hm
  have hout : l.accepted.contains m = false := by simpa using hacc
  simp only [h, hin, hout, Bool.not_false, Bool.and_self, if_true]

theorem gangClosed_iff (s : State) (l : Launch) :
    gangClosed s l = true ↔ s.mod.frozen = false ∧ ∃ tick, l.startTick = some tick ∧ tick ≤ s.mod.tick.toNat + 10000 := by
  unfold gangClosed
  cases l.startTick <;> simp

/-! ### Completion (R212, R332, R346, R348) -/

theorem partDone_unstarted {tick : Nat} (htick : l.startTick = some tick) (hstart : l.started = false) : partDone s l = false := by
  unfold partDone
  split <;> simp [hstart, htick]

theorem launchCompletion_refused (h : launchOf s id = some l)
    (hnot : (!(l.result.isSome || partDone s l) || completionWaits s l) = true) :
    exec (.launchCompletion id) s = .refused .eventNotEnabled := by
  show execLaunchCompletion id s = _
  unfold launchOf at h
  unfold execLaunchCompletion
  simp only [h, hnot, if_true]

theorem completionWaits_iff (hid : l.id = id) : completionWaits s l = false ↔
    (s.core.launch = some id → s.unacked = false) ∧
      (s.mod.frozen = false ∨ l.started = true ∨ l.result.isSome = true) := by
  subst hid
  unfold completionWaits
  cases s.unacked <;> cases s.mod.frozen <;> cases l.started <;> cases l.result <;> simp

end launches

/-- What a write by the launch unit leaves: which launch the core runs, and the jobs. -/
def SameLaunch (s t : State) : Prop := t.core.launch = s.core.launch ∧ t.mod.jobs = s.mod.jobs

theorem SameLaunch.trans {s t u : State} (h : SameLaunch s t) (k : SameLaunch t u) : SameLaunch s u :=
  ⟨k.1.trans h.1, k.2.trans h.2⟩

theorem unitStore_sameLaunch (s : State) (release : Bool) (loc : Nat) (bs : List Byte) : SameLaunch s (unitStore s release loc bs) := by
  have hnote : SameLaunch s (noteUnit s release ((List.range bs.length).map fun i => loc + i)) :=
    ⟨congrArg CoreRegs.launch (noteAs_core ..), congrArg Module.jobs (noteAs_mod ..)⟩
  refine hnote.trans ⟨?_, ?_⟩
  · show (store _ loc bs).core.launch = _
    rw [(store_keeps _ loc bs).core]
  · show (store _ loc bs).mod.jobs = _
    rw [(store_frame _ loc bs).module]

theorem jobPut_sameLaunch (job : Nat) (release : Bool) (fuel : Nat) (s : State) (va : Nat) (bs : List Byte) :
    SameLaunch s (jobPut s job release fuel va bs) := by
  induction fuel generalizing s va bs with
  | zero => exact ⟨rfl, rfl⟩
  | succ fuel ih =>
    rw [jobPut]
    split
    next => exact ⟨rfl, rfl⟩
    next =>
      refine SameLaunch.trans ?_ (ih _ _ _)
      split
      next => exact unitStore_sameLaunch ..
      next => exact ⟨rfl, rfl⟩

theorem jobWrite_sameLaunch (s : State) (job va : Nat) (bs : List Byte) (release : Bool) :
    SameLaunch s (jobWrite s job va bs release) := jobPut_sameLaunch ..

theorem writeRecord_sameLaunch (s : State) (job compl seq result reason : Nat) :
    SameLaunch s (writeRecord s job compl seq result reason) := by
  have hobs : SameLaunch s (observeTick s) := ⟨rfl, rfl⟩
  exact (hobs.trans (jobWrite_sameLaunch ..)).trans (jobWrite_sameLaunch ..)

theorem setQueue_sameLaunch (s : State) (q : LaunchQueue) : SameLaunch s (setQueue s q) := ⟨rfl, rfl⟩

theorem message_sameLaunch (s : State) (l : List Nat) : SameLaunch s { s with mod := { s.mod with msix := l } } := ⟨rfl, rfl⟩

theorem completePacket_sameLaunch (s : State) (hdr job compl seq result reason : Nat) :
    SameLaunch s (completePacket s hdr job compl seq result reason) := by
  refine (writeRecord_sameLaunch s job compl seq result reason).trans ?_
  unfold completePacket
  generalize writeRecord s job compl seq result reason = t
  dsimp only
  split
  next q db _ _ =>
    split
    next => exact setQueue_sameLaunch ..
    next =>
      split
      next =>
        exact ((setQueue_sameLaunch ..).trans (jobWrite_sameLaunch ..)).trans (message_sameLaunch _ _)
      next => exact (setQueue_sameLaunch ..).trans (jobWrite_sameLaunch ..)
  next => exact ⟨rfl, rfl⟩

section completed

variable {s : State} {id : Nat} {l : Launch}

theorem leaveLines_core (s : State) (job : Nat) : (leaveLines s job).core = s.core := by
  unfold leaveLines
  split <;> rfl

/-- The launch is gone from the table, and the core is free unless the job waits for its retirement. -/
theorem launchCompletion_completes (h : launchOf s id = some l) (hdone : l.result.isSome = true ∨ partDone s l = true)
    (hwait : completionWaits s l = false) :
    ∃ t, exec (.launchCompletion id) s = .next t ∧ (∀ k ∈ t.mod.launches, k.id ≠ id) ∧
      (s.core.launch = some id → (jobEntry s l.job).isSome = true → t.core.launch = none ∧ ∀ c, (t.ctx c).live = false) := by
  have hid := id_of_launchOf h
  have hgo : (!(l.result.isSome || partDone s l) || completionWaits s l) = false := by
    rw [hwait, Bool.or_false, Bool.not_eq_false', Bool.or_eq_true]
    exact hdone
  show ∃ t, execLaunchCompletion id s = _ ∧ _
  unfold launchOf at h
  unfold execLaunchCompletion
  simp only [h, hgo, Bool.false_eq_true, if_false]
  refine ⟨_, rfl, fun k hk => ?_, fun hrun hjob => ?_⟩
  · have hne := (List.mem_filter.mp hk).2
    rw [← hid]
    simpa using hne
  · obtain ⟨hlaunch, hjobs⟩ :=
      completePacket_sameLaunch s l.queue l.job l.compl l.seq (l.result.getD (0, 0)).1 (l.result.getD (0, 0)).2
    generalize completePacket s l.queue l.job l.compl l.seq (l.result.getD (0, 0)).1 (l.result.getD (0, 0)).2 = u at hlaunch hjobs
    have hentry : (jobEntry u l.job).isNone = false := by
      have hsame : jobEntry u l.job = jobEntry s l.job := by unfold jobEntry; rw [hjobs]
      rw [hsame, Option.isNone_eq_false_iff]
      exact hjob
    have hfree : u.core.launch = some l.id ∧ (jobEntry u l.job).isNone = false := ⟨by rw [hlaunch, hrun, hid], hentry⟩
    rw [if_pos hfree]
    exact ⟨rfl, fun c => by simp [freeCore, State.ctx, Ctx.idle]⟩

end completed

/-! ### Sharing and retirement (R322, R323) -/

theorem quantumBoundary_charges (s : State) (q : Charge) :
    ∃ t, exec (.quantumBoundary [q]) s = .next t ∧ t.mem = s.mem ∧ t.ctxs = s.ctxs ∧
      (s.core.launch = none → t.core.preempt = s.core.preempt) ∧
      t.mod.jobs = s.mod.jobs.map fun j => if q.job = j.id then
        { j with deficit := (if q.active then j.deficit + j.weight * q.cores * 850000 else 0) - q.coreCycles }
      else { j with deficit := 0 } := by
  refine ⟨_, rfl, rfl, rfl, fun hnone => ?_, List.map_congr_left fun j _ => ?_⟩
  · show (s.core.preempt || (s.core.launch.isSome && _)) = _
    rw [hnone, Option.isSome_none, Bool.false_and, Bool.or_false]
  · by_cases hq : q.job = j.id
    · simp [hq, newDeficit, quantumCycles]
    · simp [hq]

/-- A job's lines and its pattern table are invalid. -/
theorem invalidateLines_gone (s : State) (job : Nat) : (invalidateLines s job).clu.pattern ≠ some job ∧
    ∀ w ∈ (invalidateLines s job).clu.wlines, w.2.job ≠ some job := by
  refine ⟨?_, fun w hw => by simpa using (List.mem_filter.mp hw).2⟩
  show (if s.clu.pattern = some job then none else s.clu.pattern) ≠ some job
  split
  · exact nofun
  · assumption

theorem retirementAck_frees {s : State} {job : Nat} (hjob : ∃ j ∈ s.mod.jobs, j.id = job ∧ j.retired = true)
    (hnone : ∀ l ∈ s.mod.launches, l.job ≠ job) :
    ∃ t, exec (.retirementAck job) s = .next t ∧ t.mem = s.mem ∧
      (∀ j, j ∈ t.mod.jobs ↔ j ∈ s.mod.jobs ∧ j.id ≠ job) ∧ (∀ k ∈ t.mod.queues, k.job ≠ job) ∧
      (∀ p ∈ t.mod.pubs, p.job ≠ job) ∧ (∀ e ∈ t.mod.tlb ++ t.clu.tlb, e.job ≠ job) ∧
      (∀ w ∈ t.clu.wlines, w.2.job ≠ some job) ∧ t.clu.pattern ≠ some job := by
  obtain ⟨j, hj, hid, hret⟩ := hjob
  have hany : (s.mod.jobs.any fun j => decide (j.id = job) && j.retired) = true :=
    List.any_eq_true.mpr ⟨j, hj, by simp [hid, hret]⟩
  have hno : (s.mod.launches.any fun l => decide (l.job = job)) = false := by
    rw [List.any_eq_false]
    intro l hl
    simpa using hnone l hl
  show ∃ t, execRetirementAck job s = _ ∧ _
  unfold execRetirementAck
  rw [hany, hno, if_pos (by decide)]
  obtain ⟨hpattern, hlines⟩ := invalidateLines_gone s job
  have hkeep (u : State) (b : Bool) : (if b then freeCore u else u).mem = u.mem ∧ (if b then freeCore u else u).mod = u.mod ∧
      (if b then freeCore u else u).clu = u.clu := by cases b <;> exact ⟨rfl, rfl, rfl⟩
  obtain ⟨hmem, hmod, hclu⟩ := hkeep (invalidateLines s job)
    ((invalidateLines s job).core.launch.isSome && (curLaunch (invalidateLines s job)).isNone)
  refine ⟨_, rfl, hmem, fun j => ?_, fun k hk => ?_, fun p hp => ?_, fun e he => ?_, fun w hw => ?_, ?_⟩
  · simp only [hmod]
    simp [invalidateLines]
  · simpa using (List.mem_filter.mp hk).2
  · simpa using (List.mem_filter.mp hp).2
  · rcases List.mem_append.mp he with he | he
    · simpa using (List.mem_filter.mp he).2
    · simpa using (List.mem_filter.mp he).2
  · simp only [hclu] at hw
    exact hlines w hw
  · simp only [hclu]
    exact hpattern

section grantRegisters

variable {s : State} {l : Launch} {lid place : Nat}

theorem launchRegs_tile (j : Fin 64) : (launchRegs s l lid place).tiles[j.val] = none := by
  simp [launchRegs, CoreRegs.reset]

theorem launchRegs_watch (j : Fin 8) : (launchRegs s l lid place).watch[j.val] = none := by
  simp [launchRegs, CoreRegs.reset]

end grantRegisters

/-- Settles O53: each event of a launch and of its job by the equation of its case; a completion's record changes neither the launch
that the core runs nor the jobs. -/
theorem launchLife : Obligations.LaunchLife := by
  unfold Obligations.LaunchLife
  refine ⟨fun s id m l hl => ?_, fun s q job => ⟨quantumBoundary_charges s q, retirementAck_frees⟩⟩
  have hid : l.id = id := id_of_launchOf hl
  have hcore : neuronLoc = 0x60000 := rfl
  have hgwin : 0x70000 ≤ gwinLoc := by unfold gwinLoc; omega
  refine ⟨?_, ?_, ?_, ?_, ?_⟩
  · intro hinv hfree hfen hend hgr hfroz hi hserve hn
    refine ⟨_, coreGrant_grants hl hfree hfen hend hgr hfroz hi hserve, congrArg some hid, rfl, rfl, rfl, rfl, rfl, rfl, rfl, rfl,
      rfl, prepareCore_idle, rfl, rfl, launchRegs_tile, launchRegs_watch, fun a ha => ?_, fun j a hj hne ha => ?_, fun a ha => ?_,
      prepareCore_bank, fun w hw => prepareCore_tags hw, fun b hb => prepareCore_descs hb, setLaunch_entries (by exact hid) ⟨rfl, rfl⟩⟩
    · exact (prepareCore_mem s l _ (.inl (by omega))).trans (imaged_spad hinv.1 _ _ ha)
    · exact (prepareCore_mem s l _ (.inr (by omega))).trans (imaged_peer hinv.1 hn hj hne ha)
    · exact (prepareCore_mem s l _ (.inl (by unfold accLoc; omega))).trans (imaged_acc s _ _ ha)
  · intro tick htick hstart hend
    refine ⟨fun hfroz hready hlt => ?_, fun hfroz hready => ?_, fun hres => ?_⟩
    · exact ⟨_, launchStarttick_starts hl htick hstart hend hfroz hready, reachTick_reached hlt, setLaunch_entries (by exact hid) rfl⟩
    · obtain ⟨t, ht⟩ := gangDeadline_rejects hl htick hstart hend hfroz hready
      exact ⟨_, ht, endLaunch_entries hid⟩
    · refine launchCompletion_refused hl ?_
      rw [hres, partDone_unstarted htick hstart]
      rfl
  · intro hm hacc
    refine ⟨fun hlate => ?_, fun hlate => ?_⟩
    · rw [gangAcceptance_eq hl hm hacc, if_neg (mt (gangClosed_iff s l).mp hlate)]
      exact ⟨_, rfl, setLaunch_entries (by exact hid) rfl⟩
    · rw [gangAcceptance_eq hl hm hacc, if_pos ((gangClosed_iff s l).mpr hlate)]
  · intro hend hgang
    cases hstart : l.started with
    | true =>
      refine ⟨_, gangWithdrawal_kills hl hend hgang hstart, fun r hr => hid ▸ endLaunch_records (result := 3) (reason := 2) r hr, ?_⟩
      rw [if_pos rfl]
      exact endLaunch_entries hid
    | false =>
      refine ⟨_, gangWithdrawal_rejects hl hend hgang hstart, fun r hr => hid ▸ endLaunch_records r hr, ?_⟩
      rw [if_neg Bool.false_ne_true]
      exact endLaunch_entries hid
  · intro hdone
    refine ⟨fun hacked hawake => ?_, fun hnot => launchCompletion_refused hl ?_⟩
    · exact launchCompletion_completes hl hdone ((completionWaits_iff hid).mpr ⟨hacked, hawake⟩)
    · rw [Bool.or_eq_true]
      exact .inr (Bool.not_eq_false _ ▸ mt (completionWaits_iff hid).mp hnot)

end Sys2Proof.Proofs
end

