-- ==== Sys2Proof/Proofs/EngineRuns.lean ====
section
/-! PROOFS. What the runs of jobs that are no tile command's leave alone (O39, O49): no context moves in its program, and the same jobs
stand in the queue. -/

namespace Sys2Proof.Proofs

open Sys2Proof.Machine Sys2Proof.Laws

/-! ### The frame and its rules -/

/-- No context moves in its program, and the same jobs stand in the queue. -/
structure RunKeeps (s t : State) : Prop where
  pc   : ∀ c, (t.ctx c).pc = (s.ctx c).pc
  jobs : t.clu.jobs.map Job.id = s.clu.jobs.map Job.id

theorem runKeeps_refl (s : State) : RunKeeps s s := ⟨fun _ => rfl, rfl⟩

theorem RunKeeps.trans {s t u : State} (h : RunKeeps s t) (k : RunKeeps t u) : RunKeeps s u :=
  ⟨fun c => (k.pc c).trans (h.pc c), k.jobs.trans h.jobs⟩

/-- A step that leaves the contexts and the queue alone. -/
theorem runKeeps_of {s t : State} (hc : t.ctxs = s.ctxs) (hj : t.clu.jobs = s.clu.jobs) : RunKeeps s t :=
  ⟨fun c => by simp only [State.ctx, hc], by rw [hj]⟩

theorem runKeeps_of_store {s t : State} (h : StoreKeeps s t) (f : StoreFrame s t) : RunKeeps s t :=
  ⟨h.pc, by rw [f.cluster]⟩

/-- The state of an answer that is known keeps what the answer's state does. -/
theorem RunKeeps.of_eq {α : Type} {s t : State} {x : State × α} {a : α} (h : RunKeeps s x.1) (he : x = (t, a)) : RunKeeps s t := by
  rw [he] at h
  exact h

theorem runKeeps_foldl {α : Type} {f : State → α → State} (hf : ∀ s a, RunKeeps s (f s a)) (l : List α) (s : State) :
    RunKeeps s (l.foldl f s) := by
  induction l generalizing s with
  | nil => exact runKeeps_refl s
  | cons a l ih => exact (hf s a).trans (ih (f s a))

/-- A job that is queued is queued still. -/
theorem RunKeeps.queued {s t : State} (h : RunKeeps s t) {id : Nat} {j : Job} (hj : findJob s id = some j) :
    ∃ k, findJob t id = some k := by
  have hid : id ∈ s.clu.jobs.map Job.id :=
    List.mem_map.mpr ⟨j, List.mem_of_find?_eq_some hj, by simpa using List.find?_some hj⟩
  rw [← h.jobs] at hid
  obtain ⟨k, hk, hkid⟩ := List.mem_map.mp hid
  have hsome : (findJob t id).isSome = true := List.find?_isSome.mpr ⟨k, hk, by simpa using hkid⟩
  exact Option.isSome_iff_exists.mp hsome

/-! ### Writes -/

theorem setBytes_runKeeps (s : State) (loc : Nat) (bs : List Byte) : RunKeeps s (setBytes s loc bs) := runKeeps_of rfl rfl

theorem setLoc_runKeeps (s : State) (loc n x : Nat) : RunKeeps s (setLoc s loc n x) := runKeeps_of rfl rfl

theorem setDesc_runKeeps (s : State) (b : Nat) (d : BitVec 16) : RunKeeps s (setDesc s b d) := runKeeps_of rfl rfl

theorem tickChoice_runKeeps (s : State) : RunKeeps s s.tickChoice := runKeeps_of rfl rfl

theorem setTileBits_runKeeps (s : State) (t : Nat) (u p : Bool) : RunKeeps s (setTileBits s t u p) := by
  unfold setTileBits
  split
  · split <;> exact runKeeps_of rfl rfl
  · split <;> exact runKeeps_of rfl rfl

theorem setTileBolt_runKeeps (s : State) (t : Nat) (b : Bolt) : RunKeeps s (setTileBolt s t b) := runKeeps_of rfl rfl

theorem poke_runKeeps (s : State) (loc : Nat) (bs : List Byte) : RunKeeps s (poke s loc bs) :=
  runKeeps_of_store (poke_keeps ..) (poke_frame ..)

theorem storeRuns_runKeeps (s : State) (runs : List (Nat × Nat)) (bs : List Byte) : RunKeeps s (storeRuns s runs bs) :=
  runKeeps_of_store (storeRuns_keeps ..) (storeRuns_frame ..)

theorem slotDescs_runKeeps (s : State) (t loc n : Nat) (d : Nat → BitVec 16) : RunKeeps s (slotDescs s t loc n d) := by
  unfold slotDescs
  split
  · exact runKeeps_foldl (fun u i => setDesc_runKeeps ..) _ _
  · exact runKeeps_refl s

theorem tilePut_runKeeps (s : State) (t loc : Nat) (bs : List Byte) : RunKeeps s (tilePut s t loc bs) := by
  unfold tilePut
  split
  · exact poke_runKeeps ..
  · exact setBytes_runKeeps ..

theorem putElem_runKeeps (s : State) (t : Nat) (d : TileData) (k : Option Nat) : RunKeeps s (putElem s t d k) := by
  unfold putElem
  split
  · exact tilePut_runKeeps ..
  · exact runKeeps_refl s

theorem applyFix_runKeeps (s : State) (t : Nat) (r : Fix × TileData × Bolt × Option Nat) : RunKeeps s (applyFix s t r) := by
  unfold applyFix
  split
  · exact setTileBolt_runKeeps ..
  · refine ((setTileBolt_runKeeps ..).trans (putElem_runKeeps ..)).trans (runKeeps_of rfl rfl)
  · exact (putElem_runKeeps ..).trans (setTileBits_runKeeps ..)

theorem setCtx_runKeeps {s : State} {c : Fin 8} {x : Ctx} (h : x.pc = (s.ctx c).pc) : RunKeeps s (s.setCtx c x) := by
  refine ⟨fun d => ?_, rfl⟩
  by_cases hd : d = c
  · rw [hd, ctx_setCtx_same, h]
  · rw [ctx_setCtx_other hd]

theorem setGram_runKeeps (s : State) (c : Fin 8) (y : Fin 4) (g : Option GBinding) : RunKeeps s (setGram s c y g) :=
  setCtx_runKeeps rfl

theorem setReef_runKeeps (s : State) (c : Fin 8) (q : Fin 4) (m : ReefMap) : RunKeeps s (setReef s c q m) := setCtx_runKeeps rfl

theorem setBank_runKeeps (s : State) (b : Bank) : RunKeeps s (setBank s b) := runKeeps_of rfl rfl

/-- The jobs of the queue changed, each to one of the same number. -/
theorem jobsMapped_runKeeps (s : State) {f : Job → Job} (hf : ∀ j, (f j).id = j.id) :
    RunKeeps s { s with clu := { s.clu with jobs := s.clu.jobs.map f } } := by
  refine ⟨fun _ => rfl, ?_⟩
  show (s.clu.jobs.map f).map Job.id = _
  rw [List.map_map]
  exact List.map_congr_left fun j _ => hf j

theorem setJob_runKeeps (s : State) (j : Job) : RunKeeps s (setJob s j) :=
  jobsMapped_runKeeps s fun i => by
    split
    · exact Eq.symm ‹_›
    · rfl

theorem setResume_runKeeps (s : State) (id : Nat) (r : List Nat) : RunKeeps s (setResume s id r) :=
  jobsMapped_runKeeps s fun i => by split <;> rfl

/-! ### Accesses of the engines (R274, R275, R280) -/

theorem engWritePart_runKeeps (s : State) (ok : Reach) (a : Nat) (bs : List Byte) : RunKeeps s (engWritePart s ok a bs).1 :=
  storeRuns_runKeeps ..

theorem engWrite_runKeeps (s : State) (ok : Reach) (a : Nat) (bs : List Byte) : RunKeeps s (engWrite s ok a bs).1 :=
  engWritePart_runKeeps ..

theorem engDescs_runKeeps (s : State) (ok : Reach) (a n : Nat) (d : Nat → Option (BitVec 16)) : RunKeeps s (engDescs s ok a n d) := by
  unfold engDescs
  dsimp only
  split
  · exact runKeeps_refl s
  · refine runKeeps_foldl (fun u i => ?_) _ _
    split
    · split
      · exact setDesc_runKeeps ..
      · exact runKeeps_refl u
    · exact runKeeps_refl u

theorem anyRead_runKeeps (s : State) (a n : Nat) : RunKeeps s (anyRead s a n).1 := by
  unfold anyRead
  split
  · exact runKeeps_refl s
  · exact runKeeps_refl s
  · exact tickChoice_runKeeps s

theorem anyWrite_runKeeps (s : State) (a : Nat) (bs : List Byte) : RunKeeps s (anyWrite s a bs).1 := by
  unfold anyWrite
  split
  · exact runKeeps_refl s
  · exact engWritePart_runKeeps ..
  · exact tickChoice_runKeeps s

theorem anyDescs_runKeeps (s : State) (a n : Nat) (d : Nat → Option (BitVec 16)) : RunKeeps s (anyDescs s a n d) := by
  unfold anyDescs
  split
  · exact engDescs_runKeeps ..
  · exact runKeeps_refl s

theorem mixRun_runKeeps (s : State) (src n a : Nat) (bs : List Byte) : RunKeeps s (mixRun s src n a bs).1 := by
  unfold mixRun
  dsimp only
  split
  · exact tickChoice_runKeeps s
  · exact runKeeps_refl s

/-! ### Copies (R276, R277) -/

theorem copyRows_runKeeps (r : CpyRec) (n i : Nat) (s : State) : RunKeeps s (copyRows r n i s).1 := by
  induction n generalizing i s with
  | zero => exact runKeeps_refl s
  | succ n ih =>
    have hread := anyRead_runKeeps s (r.src + i * r.sstep) r.rb
    rw [copyRows]
    dsimp only
    split
    next he => exact hread.trans ((anyWrite_runKeeps ..).of_eq he)
    next he =>
      have hwrite := hread.trans ((anyWrite_runKeeps ..).of_eq he)
      split
      · exact hwrite
      · exact hwrite.trans (ih ..)

theorem copyDescs_runKeeps (old : State) (r : CpyRec) (start done : Nat) (s : State) : RunKeeps s (copyDescs old r start done s) := by
  refine runKeeps_foldl (fun u o => ?_) _ _
  split
  · exact anyDescs_runKeeps ..
  · exact runKeeps_refl u

theorem copyPlain_runKeeps (r : CpyRec) (done n : Nat) (s : State) : RunKeeps s (copyPlain r done n s).1 :=
  (copyRows_runKeeps ..).trans (copyDescs_runKeeps ..)

theorem copyTiles_runKeeps (r : CpyRec) (w n i : Nat) (s : State) : RunKeeps s (copyTiles r w n i s).1 := by
  induction n generalizing i s with
  | zero => exact runKeeps_refl s
  | succ n ih =>
    have hread := anyRead_runKeeps s (r.src + i * (32 * w)) (32 * w)
    rw [copyTiles]
    dsimp only
    split
    · exact hread
    · split
      next he => exact hread.trans ((anyWrite_runKeeps ..).of_eq he)
      next he => exact (hread.trans ((anyWrite_runKeeps ..).of_eq he)).trans (ih ..)

theorem srcBolt_runKeeps {s t : State} {a n m : Nat} {b : Bolt} (h : srcBolt s a n = .ok (t, b, m)) : RunKeeps s t := by
  unfold srcBolt at h
  split at h
  · split at h
    · obtain ⟨rfl, -⟩ := Prod.mk.inj (Except.ok.inj h)
      exact ((setTileBolt_runKeeps ..).trans (setTileBits_runKeeps ..)).trans (runKeeps_of rfl rfl)
    · split at h
      · cases h
      · obtain ⟨rfl, -⟩ := Prod.mk.inj (Except.ok.inj h)
        exact runKeeps_refl _
  · split at h
    · obtain ⟨rfl, -⟩ := Prod.mk.inj (Except.ok.inj h)
      exact tickChoice_runKeeps s
    · split at h
      · cases h
      next he =>
        obtain ⟨rfl, -⟩ := Prod.mk.inj (Except.ok.inj h)
        exact (anyRead_runKeeps ..).of_eq he

/-- A tile slot after the check of what was copied into it. -/
theorem fixed_runKeeps (s : State) (t : Nat) (r : Fix × TileData × Bolt × Option Nat) (p : Prop) [Decidable p] :
    RunKeeps s (if p then applyFix s t r else setTileBits (applyFix s t r) t false false) := by
  split
  · exact applyFix_runKeeps ..
  · exact (applyFix_runKeeps ..).trans (setTileBits_runKeeps ..)

theorem boltTile_runKeeps {x : CpyArgs} {j : Job} {r : CpyRec} {fmt a d : Nat} {s t : State} {f : Fix} {m n : Nat}
    (h : boltTile x j r fmt a d s = .ok (t, f, m, n)) : RunKeeps s t := by
  unfold boltTile at h
  dsimp only at h
  split at h
  · cases h
  next u bs he =>
    have hread := (anyRead_runKeeps ..).of_eq he
    split at h
    · cases h
    next v b sn hsrc =>
      have hmix (l : List Byte) := (hread.trans (srcBolt_runKeeps hsrc)).trans (mixRun_runKeeps v r.src (boltSource s r fmt) d l)
      generalize hm : mixRun v r.src _ d _ = mixed at h
      replace hmix : RunKeeps s mixed.1 := hm ▸ hmix _
      split at h
      · split at h
        · cases h
        · obtain ⟨rfl, -⟩ := Prod.mk.inj (Except.ok.inj h)
          exact hmix.trans (((poke_runKeeps ..).trans (slotDescs_runKeeps ..)).trans (fixed_runKeeps ..))
      · split at h
        · cases h
        · split at h
          · cases h
          next he =>
            have hw (k : Nat → Option (BitVec 16)) := (hmix.trans ((anyWrite_runKeeps ..).of_eq he)).trans
              (anyDescs_runKeeps _ d (tileBytes fmt) k)
            split at h
            case' isTrue => obtain ⟨rfl, -⟩ := Prod.mk.inj (Except.ok.inj h)
            case' isFalse =>
              split at h
              case' h_1 => cases h
              case' h_2 he =>
                obtain ⟨rfl, -⟩ := Prod.mk.inj (Except.ok.inj h)
                refine RunKeeps.trans (RunKeeps.of_eq ?_ he) (anyDescs_runKeeps ..)
                refine RunKeeps.trans (RunKeeps.trans ?_ (mixRun_runKeeps ..)) (anyWrite_runKeeps ..)
            all_goals
              generalize checkFix _ _ _ _ = c
              split
              · split
                · exact (hw _).trans ((anyWrite_runKeeps ..).trans (runKeeps_of rfl rfl))
                · exact (hw _).trans (anyWrite_runKeeps ..)
              · exact hw _

theorem boltTiles_runKeeps (x : CpyArgs) (j : Job) (r : CpyRec) (fmt n a d : Nat) (s : State) :
    RunKeeps s (boltTiles x j r fmt n a d s).1 := by
  induction n generalizing a d s with
  | zero => exact runKeeps_refl s
  | succ n ih =>
    rw [boltTiles]
    split
    · exact runKeeps_refl s
    next h => exact (boltTile_runKeeps h).trans (ih ..)

theorem copyBolt_runKeeps (x : CpyArgs) (j : Job) (r : CpyRec) (n : Nat) (s : State) : RunKeeps s (copyBolt x j r n s).1 := by
  unfold copyBolt
  split
  · split <;> exact runKeeps_refl s
  · split
    · exact runKeeps_refl s
    · exact boltTiles_runKeeps ..

theorem copyBoltPacked_runKeeps (r : CpyRec) (s : State) : RunKeeps s (copyBoltPacked r s).1 :=
  (tickChoice_runKeeps s).trans (anyWrite_runKeeps ..)

theorem copyPack_runKeeps (tr : Transpose) (r : CpyRec) (s : State) : RunKeeps s (copyPack tr r s).1 := by
  unfold copyPack
  dsimp only
  split
  next he => exact (anyRead_runKeeps ..).of_eq he
  next he =>
    have hread := (anyRead_runKeeps ..).of_eq he
    split
    · exact hread
    · split
      · exact hread
      · exact ((hread.trans (mixRun_runKeeps ..)).trans (anyWrite_runKeeps ..)).trans (anyDescs_runKeeps ..)

theorem copyUnpack_runKeeps (tr : Transpose) (r : CpyRec) (s : State) : RunKeeps s (copyUnpack tr r s).1 := by
  unfold copyUnpack
  dsimp only
  split
  next he => exact (anyRead_runKeeps ..).of_eq he
  next he =>
    have hhead := (anyRead_runKeeps ..).of_eq he
    split
    · exact hhead
    · split
      next he => exact hhead.trans ((anyRead_runKeeps ..).of_eq he)
      next he =>
        have hnodes := hhead.trans ((anyRead_runKeeps ..).of_eq he)
        split
        · exact hnodes
        · split
          · exact hnodes
          · split
            next he => exact hnodes.trans ((anyRead_runKeeps ..).of_eq he)
            next he =>
              exact (((hnodes.trans ((anyRead_runKeeps ..).of_eq he)).trans (mixRun_runKeeps ..)).trans (anyWrite_runKeeps ..)).trans
                (anyDescs_runKeeps ..)

/-- A copy begins where its free bytes have been drawn, if it has any. -/
theorem drawn_runKeeps (s : State) (b : Bool) : RunKeeps s (if b then s.tickChoice else s) := by
  cases b
  · exact runKeeps_refl s
  · exact tickChoice_runKeeps s

theorem runCpy_runKeeps (x : CpyArgs) (j : Job) (n : Nat) (s : State) : RunKeeps s (runCpy x j n s).1 := by
  unfold runCpy
  split
  · exact runKeeps_refl s
  next rec _ =>
    dsimp only
    split
    · exact runKeeps_refl s
    · refine (drawn_runKeeps s (nearSource s (cpyRec rec))).trans ?_
      generalize (if nearSource s (cpyRec rec) = true then s.tickChoice else s) = u
      split
      · split
        · exact copyBolt_runKeeps ..
        · split
          · exact copyPlain_runKeeps ..
          · exact copyTiles_runKeeps ..
      · split
        · exact runKeeps_refl u
        · split
          · exact copyBoltPacked_runKeeps ..
          · split
            · exact copyPack_runKeeps ..
            · exact copyUnpack_runKeeps ..

/-! ### Lists and queues (R281, R282, R287) -/

theorem moveElem_runKeeps {elem a d : Nat} {s t : State} (h : moveElem elem a d s = .ok t) : RunKeeps s t := by
  unfold moveElem at h
  split at h
  · cases h
  next hr =>
    have hread := (anyRead_runKeeps ..).of_eq hr
    split at h
    · cases h
    next hw =>
      have hwrite := hread.trans ((anyWrite_runKeeps ..).of_eq hw)
      obtain rfl := Except.ok.inj h
      split
      · exact hwrite.trans (anyDescs_runKeeps ..)
      · exact hwrite

theorem moveElems_runKeeps (scatter : Bool) (r : ListRec) (n k : Nat) (s : State) : RunKeeps s (moveElems scatter r n k s).1 := by
  induction n generalizing k s with
  | zero => exact runKeeps_refl s
  | succ n ih =>
    rw [moveElems]
    split
    next hr => exact (anyRead_runKeeps ..).of_eq hr
    next hr =>
      have hread := (anyRead_runKeeps ..).of_eq hr
      dsimp only
      split
      · exact hread
      · split
        · exact hread
        next hm =>
          refine (hread.trans ?_).trans (ih ..)
          split at hm
          · exact moveElem_runKeeps hm
          · exact moveElem_runKeeps hm

theorem runList_runKeeps (scatter : Bool) (j : Job) (n : Nat) (s : State) : RunKeeps s (runList scatter j n s).1 := by
  unfold runList
  split
  · exact runKeeps_refl s
  · split
    · exact runKeeps_refl s
    · exact moveElems_runKeeps ..

theorem runCqput_runKeeps (j : Job) (s : State) : RunKeeps s (runCqput j s).1 := by
  unfold runCqput
  split
  · exact runKeeps_refl s
  · split
    · exact runKeeps_refl s
    · split <;> exact tickChoice_runKeeps s
    · split
      · exact runKeeps_refl s
      · dsimp only
        split
        · exact runKeeps_refl s
        · split
          · exact runKeeps_refl s
          · split
            next he => exact (engWrite_runKeeps ..).of_eq he
            next he =>
              have hclaim := (engWrite_runKeeps ..).of_eq he
              split
              next he => exact hclaim.trans ((engWrite_runKeeps ..).of_eq he)
              next he => exact hclaim.trans ((engWrite_runKeeps ..).of_eq he)

/-! ### The grammar sequencer (R259 to R266) -/

/-- What a grammar job comes to with the binding it works with, if it has one. -/
theorem bound_runKeeps {y : Fin 4} {j : Job} {s : State} {k : GBinding → Ended} (h : ∀ g, RunKeeps s (k g).1) :
    RunKeeps s (bound y j s k).1 := by
  unfold bound
  split
  · exact runKeeps_refl s
  · exact h _

theorem runGbind_runKeeps (x : GbindArgs) (j : Job) (s : State) : RunKeeps s (runGbind x j s).1 := by
  unfold runGbind
  have hgram := setGram_runKeeps s j.ctx x.y none
  generalize setGram s j.ctx x.y none = u at hgram ⊢
  dsimp only
  split
  · exact hgram
  · split
    · exact hgram
    · split
      · exact hgram
      · split
        · exact hgram
        · split
          · exact hgram
          · exact hgram.trans (setGram_runKeeps ..)

theorem evalRules_runKeeps (g : GBinding) (first n i lim skip : Nat) (s : State) :
    RunKeeps s (evalRules g first n i lim skip s).1 := by
  induction n generalizing i lim skip s with
  | zero => exact runKeeps_refl s
  | succ n ih =>
    rw [evalRules]
    dsimp only
    split
    · exact runKeeps_refl s
    · split
      · exact ih ..
      · split
        · exact ih ..
        · split
          · exact runKeeps_refl s
          · split
            · exact runKeeps_refl s
            · split
              · exact runKeeps_refl s
              · exact runKeeps_refl s
              · split
                next he => exact (engWrite_runKeeps ..).of_eq he
                next he => exact ((engWrite_runKeeps ..).of_eq he).trans (ih ..)

theorem lenRules_runKeeps (g : GBinding) (first n i lim : Nat) (s : State) : RunKeeps s (lenRules g first n i lim s).1 := by
  induction n generalizing i lim s with
  | zero => exact runKeeps_refl s
  | succ n ih =>
    rw [lenRules]
    dsimp only
    split
    · exact runKeeps_refl s
    · split
      · exact runKeeps_refl s
      · split
        · exact runKeeps_refl s
        · exact runKeeps_refl s
        · split
          · exact runKeeps_refl s
          · split
            next he => exact (engWrite_runKeeps ..).of_eq he
            next he => exact ((engWrite_runKeeps ..).of_eq he).trans (ih ..)

theorem runGeval_runKeeps (y : Fin 4) (j : Job) (lim : Nat) (s : State) : RunKeeps s (runGeval y j lim s).1 :=
  bound_runKeeps fun g => by
    split
    · exact runKeeps_refl s
    · exact evalRules_runKeeps ..

theorem runGlen_runKeeps (y : Fin 4) (j : Job) (lim : Nat) (s : State) : RunKeeps s (runGlen y j lim s).1 :=
  bound_runKeeps fun g => by
    split
    · exact runKeeps_refl s
    · exact lenRules_runKeeps ..

theorem reduceRows_runKeeps (g : GBinding) (id first dest n r k acc lim : Nat) (s : State) :
    RunKeeps s (reduceRows g id first dest n r k acc lim s).1 := by
  induction n generalizing r k acc lim s with
  | zero => exact runKeeps_refl s
  | succ n ih =>
    rw [reduceRows]
    dsimp only
    split
    · exact runKeeps_refl s
    · exact runKeeps_refl s
    · split
      · exact runKeeps_refl s
      · split
        · exact setResume_runKeeps ..
        · split
          next he => exact (engWrite_runKeeps ..).of_eq he
          next he => exact ((engWrite_runKeeps ..).of_eq he).trans (ih ..)

theorem runGspine_runKeeps (seed : Bool) (y : Fin 4) (j : Job) (lim : Nat) (s : State) :
    RunKeeps s (runGspine seed y j lim s).1 := by
  unfold runGspine
  split
  · exact bound_runKeeps fun g => runKeeps_refl s
  · refine bound_runKeeps fun g => ?_
    dsimp only
    split
    · exact runKeeps_refl s
    · split
      · exact reduceRows_runKeeps ..
      · split
        · exact setResume_runKeeps ..
        · split
          next he => exact (engWrite_runKeeps ..).of_eq he
          next he => exact (engWrite_runKeeps ..).of_eq he

theorem occSpine_runKeeps (g : GBinding) (id first n k dest bias pos lim : Nat) (s : State) :
    RunKeeps s (occSpine g id first n k dest bias pos lim s).1 := by
  induction n generalizing k dest bias pos lim s with
  | zero => exact runKeeps_refl s
  | succ n ih =>
    rw [occSpine]
    dsimp only
    split
    · exact setResume_runKeeps ..
    · split
      · exact runKeeps_refl s
      · split
        · exact runKeeps_refl s
        · split
          next he => exact (engWrite_runKeeps ..).of_eq he
          next he =>
            have hwrite := (engWrite_runKeeps ..).of_eq he
            split
            · exact hwrite
            · exact hwrite.trans (ih ..)

theorem writeRecords_runKeeps (l : List (List Byte)) (dest : Nat) (s : State) : RunKeeps s (writeRecords l dest s).1 := by
  induction l generalizing dest s with
  | nil => exact runKeeps_refl s
  | cons b l ih =>
    rw [writeRecords]
    split
    next he => exact (engWrite_runKeeps ..).of_eq he
    next he => exact ((engWrite_runKeeps ..).of_eq he).trans (ih ..)

theorem occSplit_runKeeps (g : GBinding) (id first n at_ src dest lim : Nat) (s : State) :
    RunKeeps s (occSplit g id first n at_ src dest lim s).1 := by
  induction n generalizing at_ src dest lim s with
  | zero => exact runKeeps_refl s
  | succ n ih =>
    rw [occSplit]
    dsimp only
    split
    · exact setResume_runKeeps ..
    · split
      · exact runKeeps_refl s
      · split
        · exact runKeeps_refl s
        · split
          next he => exact (writeRecords_runKeeps ..).of_eq he
          next he => exact ((writeRecords_runKeeps ..).of_eq he).trans (ih ..)

theorem runGocc_runKeeps (split_ : Bool) (y : Fin 4) (j : Job) (lim : Nat) (s : State) :
    RunKeeps s (runGocc split_ y j lim s).1 := by
  unfold runGocc
  split
  · exact bound_runKeeps fun g => runKeeps_refl s
  · refine bound_runKeeps fun g => ?_
    dsimp only
    split
    · exact runKeeps_refl s
    · split
      · split
        · exact runKeeps_refl s
        · exact occSplit_runKeeps ..
      · split
        · exact runKeeps_refl s
        · exact occSpine_runKeeps ..

theorem unfold_runKeeps (g : GBinding) (id : Nat) (scan : Bool) (sym n pos dest acc lim : Nat) (s : State) :
    RunKeeps s (unfold_ g id scan sym n pos dest acc lim s).1 := by
  induction n generalizing pos dest acc lim s with
  | zero => exact runKeeps_refl s
  | succ n ih =>
    rw [unfold_]
    dsimp only
    split
    · exact setResume_runKeeps ..
    · split
      · exact runKeeps_refl s
      · split
        · exact runKeeps_refl s
        · split
          next he => exact (engWrite_runKeeps ..).of_eq he
          next he => exact ((engWrite_runKeeps ..).of_eq he).trans (ih ..)

theorem runGunf_runKeeps (scan : Bool) (y : Fin 4) (j : Job) (lim : Nat) (s : State) : RunKeeps s (runGunf scan y j lim s).1 := by
  unfold runGunf
  split
  · exact bound_runKeeps fun g => runKeeps_refl s
  · refine bound_runKeeps fun g => ?_
    dsimp only
    split
    · exact runKeeps_refl s
    · split
      · exact runKeeps_refl s
      · split
        · exact runKeeps_refl s
        · generalize (if scan = true then g.width / 8 else fmtBits g.tfmt / 8) = w
          split
          · exact runKeeps_refl s
          · split
            · exact runKeeps_refl s
            · cases j.resume with
              | cons acc _ => exact unfold_runKeeps ..
              | nil =>
                dsimp only
                split
                · exact runKeeps_refl s
                · exact unfold_runKeeps ..

theorem runGloc_runKeeps (y : Fin 4) (j : Job) (s : State) : RunKeeps s (runGloc y j s).1 := by
  unfold runGloc
  split
  · exact bound_runKeeps fun g => runKeeps_refl s
  · refine bound_runKeeps fun g => ?_
    dsimp only
    split
    · exact runKeeps_refl s
    · split
      · exact runKeeps_refl s
      · exact runKeeps_refl s
      · split
        · exact runKeeps_refl s
        · split
          next he => exact (engWrite_runKeeps ..).of_eq he
          next he => exact (engWrite_runKeeps ..).of_eq he

theorem runGlook_runKeeps (y : Fin 4) (j : Job) (s : State) : RunKeeps s (runGlook y j s).1 :=
  bound_runKeeps fun g => by
    dsimp only
    split
    · exact runKeeps_refl s
    · split
      · exact runKeeps_refl s
      · split
        next he => exact (engWrite_runKeeps ..).of_eq he
        next he => exact (engWrite_runKeeps ..).of_eq he

theorem runGrelease_runKeeps (y : Fin 4) (j : Job) (s : State) : RunKeeps s (runGrelease y j s).1 :=
  bound_runKeeps fun _ => setGram_runKeeps ..

/-! ### The reef unit (R292 to R296) -/

theorem runRfmatch_runKeeps (q : Fin 4) (j : Job) (n : Nat) (s : State) : RunKeeps s (runRfmatch q j n s).1 := by
  unfold runRfmatch
  split
  · exact runKeeps_refl s
  · split
    · exact runKeeps_refl s
    · split
      · exact runKeeps_refl s
      · exact runKeeps_refl s
      · split
        · exact runKeeps_refl s
        · exact runKeeps_refl s
        next r _ _ _ _ kb sb _ _ =>
          dsimp only
          generalize (if r.sized = true then unpackBytes 16 r.n sb else List.replicate r.n 1) = sizes
          split
          · exact runKeeps_refl s
          · split
            next he => exact (engWrite_runKeeps ..).of_eq he
            next he => exact ((engWrite_runKeeps ..).of_eq he).trans (setReef_runKeeps ..)

theorem reefOut_runKeeps (r : MergeRec) (pick : Nat → List (Nat × Nat)) (n d : Nat) (s : State) :
    RunKeeps s (reefOut r pick n d s).1 := by
  induction n generalizing d s with
  | zero => exact runKeeps_refl s
  | succ n ih =>
    rw [reefOut]
    dsimp only
    split
    · exact runKeeps_refl s
    · split
      next he => exact (engWrite_runKeeps ..).of_eq he
      next he => exact ((engWrite_runKeeps ..).of_eq he).trans (ih ..)

theorem runRfmerge_runKeeps (q : Fin 4) (j : Job) (n : Nat) (s : State) : RunKeeps s (runRfmerge q j n s).1 := by
  unfold runRfmerge
  split
  · exact runKeeps_refl s
  · split
    · exact runKeeps_refl s
    · split
      · exact runKeeps_refl s
      · split
        next he => exact (reefOut_runKeeps ..).of_eq he
        next he =>
          have hrows := (reefOut_runKeeps ..).of_eq he
          split
          · split
            next he => exact hrows.trans ((engWrite_runKeeps ..).of_eq he)
            next he => exact hrows.trans ((engWrite_runKeeps ..).of_eq he)
          · exact hrows

theorem runRfshake_runKeeps (q : Fin 4) (j : Job) (n : Nat) (s : State) : RunKeeps s (runRfshake q j n s).1 := by
  unfold runRfshake
  split
  · exact runKeeps_refl s
  · split
    · exact runKeeps_refl s
    · split
      · exact runKeeps_refl s
      · exact reefOut_runKeeps ..

theorem runRflogs_runKeeps (q : Fin 4) (j : Job) (n : Nat) (s : State) : RunKeeps s (runRflogs q j n s).1 := by
  unfold runRflogs
  split
  · exact runKeeps_refl s
  · exact engWritePart_runKeeps ..

theorem runRffree_runKeeps (q : Fin 4) (j : Job) (n : Nat) (s : State) : RunKeeps s (runRffree q j n s).1 := by
  unfold runRffree
  split
  · exact runKeeps_refl s
  · split
    · exact runKeeps_refl s
    · exact setReef_runKeeps ..

/-! ### The neuron bank (R298 to R303) -/

theorem placeEvent_runKeeps {s t : State} {e : NbEvent} (h : placeEvent s e = .accepted t) : RunKeeps s t := by
  unfold placeEvent at h
  split at h
  · cases h
  · split at h
    · obtain rfl := Placed.accepted.inj h
      exact setBank_runKeeps ..
    · dsimp only at h
      split at h
      · cases h
      next he =>
        obtain rfl := Placed.accepted.inj h
        exact (((engWrite_runKeeps ..).of_eq he).trans (setBank_runKeeps ..)).trans (tickChoice_runKeeps _)

theorem takeHeld_runKeeps (n : Nat) (s : State) : RunKeeps s (takeHeld n s) := by
  induction n generalizing s with
  | zero => exact runKeeps_refl s
  | succ n ih =>
    rw [takeHeld]
    split
    · exact runKeeps_refl s
    · split
      next he => exact ((placeEvent_runKeeps he).trans (setBank_runKeeps ..)).trans (ih _)
      · exact runKeeps_refl s
      · exact runKeeps_refl s

theorem settleBank_runKeeps (s : State) : RunKeeps s (settleBank s) :=
  (setBank_runKeeps ..).trans (takeHeld_runKeeps ..)

theorem runNbcfg_runKeeps (j : Job) (n : Nat) (s : State) : RunKeeps s (runNbcfg j n s).1 := by
  unfold runNbcfg
  split
  · exact runKeeps_refl s
  · split
    · exact runKeeps_refl s
    · split
      · exact runKeeps_refl s
      · exact (setBank_runKeeps ..).trans (settleBank_runKeeps _)

theorem sendEvent_runKeeps {s t : State} {e : NbEvent} (h : sendEvent s e = .accepted t) : RunKeeps s t := by
  unfold sendEvent at h
  split at h
  · split at h
    next he =>
      obtain rfl := Sent.accepted.inj h
      exact placeEvent_runKeeps he
    · cases h
    · cases h
  · split at h
    · obtain rfl := Sent.accepted.inj h
      exact runKeeps_of rfl rfl
    · cases h

theorem postEvents_runKeeps {j : Job} {n k : Nat} {s : State} {t : State × Nat × Option StatusCode}
    (h : postEvents j n k s = some t) : RunKeeps s t.1 := by
  induction n generalizing k s t with
  | zero =>
    obtain rfl := Option.some.inj h
    exact runKeeps_refl s
  | succ n ih =>
    rw [postEvents] at h
    dsimp only at h
    split at h
    · obtain rfl := Option.some.inj h
      exact runKeeps_refl s
    · split at h
      · obtain rfl := Option.some.inj h
        exact runKeeps_refl s
      · cases h
      · obtain rfl := Option.some.inj h
        exact runKeeps_refl s
      next hsent =>
        split at h
        · cases h
        next hpost =>
          have hrest := ih hpost
          obtain rfl := Option.some.inj h
          exact ((sendEvent_runKeeps hsent).trans (setBank_runKeeps ..)).trans hrest

theorem runNbpost_runKeeps {j : Job} {n : Nat} {s : State} {e : Ended} (h : runNbpost j n s = some e) : RunKeeps s e.1 := by
  unfold runNbpost at h
  split at h
  · obtain rfl := Option.some.inj h
    exact runKeeps_refl s
  · split at h
    · cases h
    next hpost =>
      obtain rfl := Option.some.inj h
      exact postEvents_runKeeps hpost

theorem touchNeuron_runKeeps (s : State) (t n : Nat) : RunKeeps s (touchNeuron s t n) :=
  (setLoc_runKeeps ..).trans (setLoc_runKeeps ..)

/-- A neuron is touched once in a step. -/
theorem touched_runKeeps (s : State) (t n : Nat) (b : Bank) (p : Bool) :
    RunKeeps s (if p then s else setBank (touchNeuron s t n) b) := by
  cases p
  · exact (touchNeuron_runKeeps ..).trans (setBank_runKeeps ..)
  · exact runKeeps_refl s

/-- A late event is counted. -/
theorem counted_runKeeps (s : State) (b : Bank) (p : Bool) : RunKeeps s (if p then setBank s b else s) := by
  cases p
  · exact runKeeps_refl s
  · exact setBank_runKeeps ..

theorem applyEvents_runKeeps (t : Nat) (l : List (Bool × Stored)) (lim : Nat) (a : Advance) :
    RunKeeps a.s (applyEvents t l lim a).1.s := by
  induction l generalizing lim a with
  | nil => exact runKeeps_refl a.s
  | cons e l ih =>
    rw [applyEvents]
    split
    · exact runKeeps_refl a.s
    · dsimp only
      split
      · exact runKeeps_refl a.s
      · exact (((touched_runKeeps ..).trans (setLoc_runKeeps ..)).trans (counted_runKeeps ..)).trans
          (ih (lim - 1) { a with s := _, applied := _, late := _ })

theorem appendRecord_runKeeps (a : Advance) (t n pp : Nat) : RunKeeps a.s (appendRecord a t n pp).s := by
  unfold appendRecord
  dsimp only
  split
  · exact runKeeps_refl a.s
  · split
    next he => exact (engWrite_runKeeps ..).of_eq he
    next he => exact ((engWrite_runKeeps ..).of_eq he).trans (setBank_runKeeps ..)

/-- What a recursion over numbers comes to has a property that each step hands on. -/
theorem brecOn_induction {C : Nat → Type} {P : ∀ m, C m → Prop} {F : ∀ m, Nat.below (motive := C) m → C m}
    (zero : ∀ b, P 0 (F 0 b)) (succ : ∀ m b, P m b.1 → P (m + 1) (F (m + 1) b)) (m : Nat) : P m (Nat.brecOn m F) := by
  induction m with
  | zero => exact zero _
  | succ m ih => exact succ m _ ih

/-- By the recursion itself, with any number in the place of 2^20: of an equation of `sendFanout` the kernel would work out its numbers.
`id` keeps the statement about any number apart from its use. -/
theorem sendFanout_runKeeps (t n list m k : Nat) (a : Advance) : RunKeeps a.s (sendFanout t n list m k a).s := by
  delta sendFanout
  refine brecOn_induction (C := fun _ => Nat → Advance → Advance) (P := fun _ f => ∀ k a, RunKeeps a.s (f k a).s)
    ?_ ?_ m k a
  · exact fun _ _ a => runKeeps_refl a.s
  · intro m b ih k a
    delta sendFanout._f
    generalize (2 ^ 20 : Nat) = d
    revert d
    refine id fun d => ?_
    dsimp only
    split
    · exact runKeeps_refl a.s
    · split
      next u he => exact (sendEvent_runKeeps he).trans (ih (k + 1) { a with s := u })
      · exact ih (k + 1) { a with outside := true }
      · exact runKeeps_refl a.s
      · exact runKeeps_refl a.s

theorem testNeuron_runKeeps (t n : Nat) (a : Advance) : RunKeeps a.s (testNeuron t n a).s := by
  unfold testNeuron
  dsimp only
  have hbank := setBank_runKeeps a.s { a.s.clu.bank with touched := setErase a.s.clu.bank.touched n }
  generalize setBank a.s { a.s.clu.bank with touched := setErase a.s.clu.bank.touched n } = u at hbank ⊢
  split
  · have hrec := fun pp x y => (hbank.trans ((setLoc_runKeeps u (neuronAt n) 4 x).trans (setLoc_runKeeps _ (neuronAt n + 8) 4 y))).trans
      (appendRecord_runKeeps { a with s := setLoc (setLoc u (neuronAt n) 4 x) (neuronAt n + 8) 4 y } t n pp)
    split
    · exact hrec ..
    · split
      · exact hrec ..
      · split
        · exact hrec ..
        · exact (hrec ..).trans (sendFanout_runKeeps ..)
  · exact hbank

theorem testAll_runKeeps (t : Nat) (l : List Nat) (a : Advance) : RunKeeps a.s (testAll t l a).s := by
  induction l generalizing a with
  | nil => exact runKeeps_refl a.s
  | cons n l ih =>
    rw [testAll]
    split
    · exact runKeeps_refl a.s
    · exact (testNeuron_runKeeps ..).trans (ih _)

theorem processStep_runKeeps (t lim : Nat) (a : Advance) : RunKeeps a.s (processStep t lim a).s := by
  unfold processStep
  dsimp only
  have hrun (b : Bank) (l : List (Bool × Stored)) : RunKeeps a.s (applyEvents t l lim { a with s := setBank a.s b }).1.s :=
    (setBank_runKeeps a.s b).trans (applyEvents_runKeeps t l lim { a with s := setBank a.s b })
  generalize hr : applyEvents t _ lim _ = r
  replace hrun : RunKeeps a.s r.1.s := hr ▸ hrun _ _
  split
  · exact hrun.trans (setBank_runKeeps ..)
  · have htest := hrun.trans (testAll_runKeeps t r.1.s.clu.bank.touched r.1)
    split
    · exact htest
    · exact (htest.trans (setBank_runKeeps ..)).trans (settleBank_runKeeps _)

theorem advanceTo_runKeeps (target n lim : Nat) (a : Advance) : RunKeeps a.s (advanceTo target n lim a).s := by
  induction n generalizing lim a with
  | zero => exact runKeeps_refl a.s
  | succ n ih =>
    rw [advanceTo]
    dsimp only
    split
    · exact runKeeps_refl a.s
    · split
      · exact setBank_runKeeps ..
      · split
        · exact processStep_runKeeps ..
        · exact (processStep_runKeeps ..).trans (ih ..)

theorem runNbadv_runKeeps {j : Job} {lim : Nat} {s : State} {e : Ended} (h : runNbadv j lim s = some e) : RunKeeps s e.1 := by
  unfold runNbadv at h
  dsimp only at h
  split at h
  · obtain rfl := Option.some.inj h
    exact runKeeps_refl s
  · have hrun := advanceTo_runKeeps j.a.toNat (j.a.toNat - s.clu.bank.c + 1) lim
      { s := s, applied := 0, late := false, outside := false, full := false, stop := none, held := false }
    generalize advanceTo _ _ _ _ = a at h hrun
    split at h
    · cases h
    · obtain rfl := Option.some.inj h
      exact hrun.trans (drawn_runKeeps a.s (a.outside && a.full))

theorem runNbrd_runKeeps (j : Job) (lim : Nat) (s : State) : RunKeeps s (runNbrd j lim s).1 := by
  unfold runNbrd
  split
  · exact runKeeps_refl s
  · exact engWritePart_runKeeps ..

theorem runNbwr_runKeeps (j : Job) (lim : Nat) (s : State) : RunKeeps s (runNbwr j lim s).1 := by
  unfold runNbwr
  split
  · exact runKeeps_refl s
  · dsimp only
    split
    · exact runKeeps_refl s
    · split
      · exact runKeeps_refl s
      · exact setBytes_runKeeps ..

theorem takeRecords_runKeeps (n a : Nat) (s : State) : RunKeeps s (takeRecords n a s).1 := by
  induction n generalizing a s with
  | zero => exact runKeeps_refl s
  | succ n ih =>
    rw [takeRecords]
    dsimp only
    split
    · exact runKeeps_refl s
    · split
      next he => exact (engWrite_runKeeps ..).of_eq he
      next he => exact (((engWrite_runKeeps ..).of_eq he).trans (setBank_runKeeps ..)).trans (ih ..)

theorem runNbspk_runKeeps (j : Job) (lim : Nat) (s : State) : RunKeeps s (runNbspk j lim s).1 := by
  unfold runNbspk
  split
  · exact runKeeps_refl s
  · exact takeRecords_runKeeps ..

/-! ### A job's run and its work (R35, R60, R211) -/

theorem atEnd_runKeeps {lim : Nat} {s : State} {e : Ended} (h : RunKeeps s e.1) : RunKeeps s (atEnd lim s e).1 := by
  unfold atEnd
  split
  · exact runKeeps_refl s
  · exact h

/-- A run of a job keeps every context's place and every job's entry, but for the tile unit's commands and CRED. -/
theorem perform_runKeeps {j : Job} {others : List CredShare} {lim : Nat} {s : State} {e : Ended} (htile : cmdEngine j.cmd ≠ .tile)
    (hcred : ∀ l, j.cmd ≠ .cred l) (h : perform j others lim s = some e) : RunKeeps s e.1 := by
  have hdone {x : Ended} (hx : RunKeeps s x.1) (hxe : some x = some e) : RunKeeps s e.1 := Option.some.inj hxe ▸ hx
  unfold perform at h
  cases hc : j.cmd <;> simp only [hc] at h htile hcred
  case cpy x =>
    split at h
    · cases h
    · exact hdone (runCpy_runKeeps ..) h
  case cgather => exact hdone (runList_runKeeps ..) h
  case cscatter => exact hdone (runList_runKeeps ..) h
  case cred l => exact absurd rfl (hcred l)
  case cqput => exact hdone (atEnd_runKeeps (runCqput_runKeeps ..)) h
  case gbind => exact hdone (atEnd_runKeeps (runGbind_runKeeps ..)) h
  case geval => exact hdone (runGeval_runKeeps ..) h
  case glen => exact hdone (runGlen_runKeeps ..) h
  case gspine => exact hdone (runGspine_runKeeps ..) h
  case gocc => exact hdone (runGocc_runKeeps ..) h
  case gunf => exact hdone (runGunf_runKeeps ..) h
  case gloc => exact hdone (atEnd_runKeeps (runGloc_runKeeps ..)) h
  case glook => exact hdone (atEnd_runKeeps (runGlook_runKeeps ..)) h
  case grelease => exact hdone (atEnd_runKeeps (runGrelease_runKeeps ..)) h
  case rfmatch => exact hdone (runRfmatch_runKeeps ..) h
  case rfmerge => exact hdone (runRfmerge_runKeeps ..) h
  case rfshake => exact hdone (runRfshake_runKeeps ..) h
  case rflogs => exact hdone (runRflogs_runKeeps ..) h
  case rffree => exact hdone (runRffree_runKeeps ..) h
  case nbcfg => exact hdone (runNbcfg_runKeeps ..) h
  case nbpost => exact runNbpost_runKeeps h
  case nbadv => exact runNbadv_runKeeps h
  case nbrd => exact hdone (runNbrd_runKeeps ..) h
  case nbwr => exact hdone (runNbwr_runKeeps ..) h
  case nbspk => exact hdone (runNbspk_runKeeps ..) h
  all_goals exact absurd rfl htile

theorem logEvent_runKeeps (s : State) (e : LogEvent) : RunKeeps s (logEvent s e) := runKeeps_of rfl rfl

theorem poisonBroken_runKeeps (run : State → Option Ended) (s : State) (e : Ended) : RunKeeps e.1 (poisonBroken run s e).1 := by
  unfold poisonBroken
  split
  · exact runKeeps_refl e.1
  · exact (runKeeps_foldl (fun u b => setDesc_runKeeps ..) _ _).trans (logEvent_runKeeps ..)

/-- A run that keeps every place and entry wherever it starts. -/
def KeepingRun (run : State → Option Ended) : Prop := ∀ s e, run s = some e → RunKeeps s e.1

theorem runChecked_keeping {run : State → Option Ended} (h : KeepingRun run) : KeepingRun (runChecked run) := by
  intro s e he
  obtain ⟨f, hf, rfl⟩ := Option.map_eq_some_iff.mp he
  exact (h s f hf).trans (poisonBroken_runKeeps ..)

theorem passing_runKeeps (s : State) (es : List Unseen) (out : List (Nat × Nat)) : RunKeeps s (passing s es out) := by
  unfold passing
  induction es with
  | nil => exact runKeeps_refl s
  | cons u es ih =>
    rw [List.foldr_cons]
    split
    · exact ih.trans (setBytes_runKeeps ..)
    · exact ih

/-- Bytes that a run left alone hold the newest value again. -/
theorem restored_runKeeps (s : State) (b : Bool) (loc : Nat) (bs : List Byte) : RunKeeps s (if b then setBytes s loc bs else s) := by
  cases b
  · exact runKeeps_refl s
  · exact setBytes_runKeeps ..

theorem runPast_runKeeps {run : State → Option Ended} (h : KeepingRun run) {s : State} {es : List Unseen}
    {out : List (Nat × Nat)} {e : Ended} (he : runPast run s es out = some e) : RunKeeps s e.1 := by
  obtain ⟨f, hf, rfl⟩ := Option.map_eq_some_iff.mp he
  exact ((passing_runKeeps s es out).trans (h _ f hf)).trans (runKeeps_foldl (fun t u => restored_runKeeps ..) _ _)

theorem noteJob_runKeeps (s t : State) (j : Job) : RunKeeps t (noteJob s t j) := by
  unfold noteJob
  dsimp only
  split
  · exact runKeeps_refl t
  · exact runKeeps_of rfl rfl

theorem setVis_runKeeps (s : State) (v : Visibility) : RunKeeps s { s with vis := v } := runKeeps_of rfl rfl

theorem worked_keeping {j : Job} {run : State → Option Ended} (h : KeepingRun run) : KeepingRun fun s => worked s j run := by
  intro s e he
  dsimp only at he
  unfold worked at he
  dsimp only at he
  split at he
  · obtain ⟨f, hf, rfl⟩ := Option.map_eq_some_iff.mp he
    exact (runChecked_keeping h s f hf).trans (noteJob_runKeeps ..)
  · obtain ⟨f, hf, hfe⟩ := Option.map_eq_some_iff.mp he
    have hrun := (tickChoice_runKeeps s).trans (runPast_runKeeps (runChecked_keeping h) hf)
    rw [← hfe]
    exact (hrun.trans (setVis_runKeeps ..)).trans (noteJob_runKeeps ..)

theorem perform_keeping {j : Job} {others : List CredShare} {lim : State → Nat} (htile : cmdEngine j.cmd ≠ .tile)
    (hcred : ∀ l, j.cmd ≠ .cred l) : KeepingRun fun s => perform j others (lim s) s := fun _ _ he => perform_runKeeps htile hcred he

end Sys2Proof.Proofs
end

