-- ==== Sys2Proof/Proofs/Requests.lean ====
section
/-! PROOFS. Answers of other agents and of a paired launch's other copy (O49). -/

namespace Sys2Proof.Proofs

open Sys2Proof.Machine Sys2Proof.Laws

/-! ### A store beside the order and the module (R175, R212, R224) -/

/-- A state with another order of its writes and another module's state. -/
def aside (s : State) (v : Visibility) (m : Module) : State := { s with vis := v, mod := m }

/-- A context has a notice. -/
def noticed (s : State) (c : Fin 8) : State := s.setCtx c { s.ctx c with notice := true }

theorem fireWatches_aside (s : State) (v : Visibility) (m : Module) (loc n : Nat) :
    fireWatches (aside s v m) loc n = aside (fireWatches s loc n) v m := by
  unfold fireWatches
  split
  · rfl
  · have hnotice (l : List (Fin 8)) (x : State) : l.foldl noticed (aside x v m) = aside (l.foldl noticed x) v m :=
      List.foldl_hom (fun u => aside u v m) fun _ _ => rfl
    exact hnotice _ { s with core := { s.core with watch := _ } }

theorem poke_aside (s : State) (v : Visibility) (m : Module) (loc : Nat) (bs : List Byte) :
    poke (aside s v m) loc bs = aside (poke s loc bs) v m :=
  fireWatches_aside { setBytes s loc bs with poison := s.poison.filter fun g => !wholeGranule loc bs.length g } v m loc bs.length

theorem setTileBits_aside (s : State) (v : Visibility) (m : Module) (t : Nat) (u p : Bool) :
    setTileBits (aside s v m) t u p = aside (setTileBits s t u p) v m := by
  have htile (h : t < 64) : (aside s v m).core.tiles[t] = s.core.tiles[t] := rfl
  unfold setTileBits
  split
  · rw [htile]
    split <;> rfl
  · split <;> rfl

theorem storeIntoSlot_aside (old s : State) (v : Visibility) (m : Module) (hit : Nat → Bool) (t : Nat) :
    storeIntoSlot (aside old v m) hit (aside s v m) t = aside (storeIntoSlot old hit s t) v m := by
  have hslot : tileSlot (aside s v m) t = tileSlot s t := rfl
  have hbroken : boltBroken (aside old v m) t = boltBroken old t := rfl
  unfold storeIntoSlot
  rw [hslot, hbroken]
  split
  · rfl
  · split
    · rfl
    · dsimp only
      split
      · rfl
      · split
        · rfl
        · exact setTileBits_aside ..

theorem store_aside (s : State) (v : Visibility) (m : Module) (loc : Nat) (bs : List Byte) :
    store (aside s v m) loc bs = aside (store s loc bs) v m := by
  have hslots : slotsAt (aside s v m) loc bs.length = slotsAt s loc bs.length := rfl
  unfold store
  rw [hslots, poke_aside]
  exact List.foldl_hom (fun u => aside u v m) (fun u t => storeIntoSlot_aside ..)

/-! ### Another agent's write (R205, R212, R322) -/

theorem countWrite_aside (s : State) (die : Nat) (v : Visibility) (m : Module) : aside (countWrite s die) v m = aside s v m := by
  unfold countWrite
  split <;> rfl

theorem noteOutside_aside (s : State) (die : Nat) (clock : List Nat) (release : Option (AgentScope × Storage)) (rmw : Bool)
    (locs : List Nat) : noteOutside s die clock release rmw locs = aside s (noteOutside s die clock release rmw locs).vis s.mod := by
  unfold noteOutside noteAs
  dsimp only
  split <;> rfl

/-- What is kept of a descriptor's word lies in device memory or the host's. -/
theorem pubLoc_beyond {s : State} {p : PubBuf} {off loc : Nat} (h : pubLoc s p off = some loc) : hbmLoc ≤ loc := by
  have hhost : hbmLoc ≤ hostLoc := by decide
  unfold pubLoc at h
  split at h
  · obtain rfl := Option.some.inj h
    unfold leafLoc
    split <;> omega
  · cases h

/-- A write below device memory is no other core's PUBL. -/
theorem publArrives_below {s : State} {loc : Nat} (h : loc < hbmLoc) (bytes : List Byte) : publArrives s loc bytes = some s := by
  have hnone (off : Nat) : (s.mod.pubs.find? fun p => decide (p.job = curJobId s) && decide (pubLoc s p off = some loc)) = none := by
    rw [List.find?_eq_none]
    intro p _ hp
    have hloc : pubLoc s p off = some loc := by simpa using (Bool.and_eq_true_iff.mp hp).2
    exact absurd (pubLoc_beyond hloc) h.not_ge
  unfold publArrives
  simp only [hnone]

/-- All that a clock puts before a write has been applied, and the write is its die's next. -/
def NextWrite (s : State) (w : DieWrite) : Prop :=
  (∀ k, k < 12 → k ≠ w.die → w.clock.getD k 0 ≤ appliedOf s k) ∧ (w.die < 12 → w.clock.getD w.die 0 = appliedOf s w.die + 1)

theorem clockMet_iff (s : State) (w : DieWrite) : clockMet s w.die w.clock = true ↔ NextWrite s w := by
  unfold clockMet NextWrite
  rw [List.all_eq_true]
  refine ⟨fun h => ⟨fun k hk hne => ?_, fun hd => ?_⟩, fun ⟨hseen, hnext⟩ k hk => ?_⟩
  · simpa [hne] using h k (List.mem_range.mpr hk)
  · simpa using h w.die (List.mem_range.mpr hd)
  · have hlt := List.mem_range.mp hk
    by_cases hd : k = w.die
    · subst hd
      simpa using hnext hlt
    · simpa [hd] using hseen k hlt hd

theorem appliedOf_countWrite {s : State} {die : Nat} (h : die < 12) (k : Nat) :
    appliedOf (countWrite s die) k = if k = die then appliedOf s die + 1 else appliedOf s k := by
  unfold appliedOf countWrite
  rw [dif_pos h]
  simp only [Vector.toList_set, List.getD_eq_getElem?_getD, List.getElem?_set]
  by_cases hk : die = k
  · subst hk
    simp [h]
  · rw [if_neg hk, if_neg (Ne.symm hk)]

section arriving

variable {s : State} {loc : Nat} {w : DieWrite}

/-- The scratchpad of a core that is neither sealed nor fenced takes a write. -/
theorem applicable_spad (h : loc + w.bytes.length ≤ 0x20000) (hseal : s.core.sealed = false) (hfen : s.core.fenced = false) :
    applicable s loc w.bytes.length = true := by
  have hspad : loc + w.bytes.length ≤ spadSize := h
  simp [applicable, hspad, hseal, hfen]

theorem applicable_closed (h : loc + w.bytes.length ≤ 0x20000) (hbytes : w.bytes ≠ [])
    (hopen : ¬ (s.core.sealed = false ∧ s.core.fenced = false)) : applicable s loc w.bytes.length = false := by
  have hpos := List.length_pos_iff.mpr hbytes
  have hclosed : (!s.core.sealed && !s.core.fenced) = false := by
    cases hs : s.core.sealed <;> cases hf : s.core.fenced <;> simp_all
  have hg : ¬ gwinLoc ≤ loc := by unfold gwinLoc; omega
  have hm : ¬ hbmLoc ≤ loc := by unfold hbmLoc; omega
  have hh : ¬ hostLoc ≤ loc := by unfold hostLoc; omega
  simp [applicable, hg, hm, hh, Bool.and_assoc, hclosed]

theorem writeApply_refused (h : ¬ NextWrite s w) : exec (.writeApply loc w) s = .refused .eventNotEnabled := by
  show execWriteApply loc w s = _
  unfold execWriteApply
  rw [Bool.eq_false_iff.mpr (mt (clockMet_iff s w).mp h), Bool.and_false, if_neg Bool.false_ne_true]

theorem writeApply_closed (h : applicable s loc w.bytes.length = false) :
    exec (.writeApply loc w) s = .refused .eventNotEnabled := by
  show execWriteApply loc w s = _
  unfold execWriteApply
  rw [h, Bool.false_and, if_neg Bool.false_ne_true]

theorem writeApply_dropped (hok : applicable s loc w.bytes.length = true) (hnext : NextWrite s w)
    (hdrop : dropped s w.job = true) : exec (.writeApply loc w) s = .next (countWrite s w.die) := by
  show execWriteApply loc w s = _
  unfold execWriteApply
  rw [hok, (clockMet_iff s w).mpr hnext, Bool.and_true, if_pos rfl, if_pos hdrop]

/-- A write that is applied: what it leaves of the order and of the count stands beside its bytes. -/
theorem writeApply_applied (hok : applicable s loc w.bytes.length = true) (hnext : NextWrite s w)
    (hdrop : dropped s w.job = false) (hloc : loc < hbmLoc) : ∃ v b, exec (.writeApply loc w) s =
      .next { aside (store s loc w.bytes) v (countWrite s w.die).mod with unacked := b } := by
  show ∃ v b, execWriteApply loc w s = _
  unfold execWriteApply
  rw [hok, (clockMet_iff s w).mpr hnext, Bool.and_true, if_pos rfl, hdrop, if_neg Bool.false_ne_true,
    publArrives_below hloc]
  dsimp only
  rw [noteOutside_aside, countWrite_aside, store_aside]
  exact ⟨_, _, rfl⟩

/-- A write into the scratchpad reads back, and is counted. -/
theorem writeApply_spad (h : loc + w.bytes.length ≤ 0x20000) (hok : applicable s loc w.bytes.length = true) (hnext : NextWrite s w)
    (hdrop : dropped s w.job = false) : ∃ t, exec (.writeApply loc w) s = .next t ∧ t.mem = (store s loc w.bytes).mem ∧
      t.tags = (store s loc w.bytes).tags ∧ (MemoryInv s → readBytes t loc w.bytes.length = w.bytes) ∧
      t.mod = (countWrite s w.die).mod := by
  obtain ⟨v, b, hexec⟩ := writeApply_applied hok hnext hdrop (by unfold hbmLoc; omega)
  exact ⟨_, hexec, rfl, rfl, fun hinv => store_bytes hinv.1 rfl (.inl (by unfold boltLoc; omega)), rfl⟩

theorem countWrite_beyond {die : Nat} (h : 12 ≤ die) : countWrite s die = s := dif_neg h.not_gt

theorem countWrite_keeps (s : State) (die : Nat) : (countWrite s die).mem = s.mem ∧ (countWrite s die).tags = s.tags ∧
    (countWrite s die).ctxs = s.ctxs := by
  unfold countWrite
  split <;> exact ⟨rfl, rfl, rfl⟩

end arriving

/-! ### Walks (R17) -/

/-- A page is as wide as a whole number of the pages that a translation cache holds. -/
theorem walkFrom_size {s : State} {feat : Word} {va n table : Nat} {l : Leaf} (h : walkFrom s feat va n table = some l) :
    65536 ∣ l.size := by
  induction n generalizing table with
  | zero => cases h
  | succ n ih =>
    rw [walkFrom] at h
    generalize hlo : (if n = 0 then 16 else 12 + 9 * n) = lo at h
    have hwide : 16 ≤ lo := by rw [← hlo]; split <;> omega
    generalize (if n = 0 then bits va 16 5 else bits va lo 9) = idx at h
    split at h
    · cases h
    · split at h
      · split at h
        · cases h
        · obtain rfl := Option.some.inj h
          exact Nat.pow_dvd_pow 2 hwide
      · split at h
        · cases h
        · exact ih h

theorem walk_size {s : State} {va : Nat} {l : Leaf} (h : walk s va = some l) : 65536 ∣ l.size := by
  unfold walk at h
  split at h
  · cases h
  · split at h
    · cases h
    next hwalk =>
      split at h
      · obtain rfl := Option.some.inj h
        exact walkFrom_size hwalk
      · cases h

/-- An address's offset in its page is that of its 64 KiB and the one within them. -/
theorem offset_split {size : Nat} (h : 65536 ∣ size) (va : Nat) : va % size / 65536 * 65536 + va % 65536 = va % size := by
  have hmod : va % size % 65536 = va % 65536 := Nat.mod_mod_of_dvd va h
  rw [← hmod, Nat.mul_comm]
  exact Nat.div_add_mod ..

theorem tlbFind_tlbFill {s : State} {e : TlbEntry} {va : Nat} (hpage : e.page = va / 65536) (hjob : e.job = curJobId s) :
    tlbFind (tlbFill s e) va = some e := by
  have hjob' : e.job = curJobId (tlbFill s e) := hjob
  unfold tlbFind
  show (e :: _).find? _ = some e
  rw [List.find?_cons_of_pos]
  simp only [hpage, ← hjob', decide_true, Bool.and_self]

section walks

variable {s : State} {va : Word}

theorem pageWalk_fills {l : Leaf} (h : walk s va.toNat = some l) : ∃ t m, exec (.pageWalk va) s = .next t ∧
    translation t va.toNat = some m ∧ leafLoc m va.toNat = leafLoc l va.toNat ∧ m.w = l.w ∧ m.pk = l.pk ∧ m.pr = l.pr ∧
    m.host = l.host ∧ t.mem = s.mem ∧ t.ctxs = s.ctxs ∧ t.core = s.core := by
  let e : TlbEntry := { job := curJobId s, page := va.toNat / 65536, base := l.base + va.toNat % l.size / 65536 * 65536, w := l.w,
                        pk := l.pk, pr := l.pr, host := l.host }
  have hfind : tlbFind (tlbFill s e) va.toNat = some e := tlbFind_tlbFill rfl rfl
  refine ⟨tlbFill s e, { base := e.base, size := 65536, w := l.w, pk := l.pk, pr := l.pr, host := l.host }, ?_, ?_, ?_,
    rfl, rfl, rfl, rfl, rfl, rfl, rfl⟩
  · show execPageWalk va s = _
    unfold execPageWalk
    rw [h]
  · unfold translation
    rw [hfind]
  · have hoff := offset_split (walk_size h) va.toNat
    show (if l.host = true then hostLoc else hbmLoc) + (l.base + va.toNat % l.size / 65536 * 65536) + va.toNat % 65536 =
      (if l.host = true then hostLoc else hbmLoc) + l.base + va.toNat % l.size
    omega

theorem pageWalk_fails (h : walk s va.toNat = none) (hawake : awake s s.cur = true) :
    exec (.pageWalk va) s = .next (raise s s.cur { cls := .pageFault, addr := va }) := by
  show execPageWalk va s = _
  unfold execPageWalk
  rw [h]
  exact if_pos hawake

end walks

/-! ### Replies to requests that wait (R183, R187, R311, R356) -/

/-- A queued job changed is found as it is now. -/
theorem findJob_setJob {s : State} {i k : Job} (h : findJob s k.id = some i) : findJob (setJob s k) k.id = some k := by
  have hkeep : ((fun j : Job => decide (j.id = k.id)) ∘ fun i => if i.id = k.id then k else i) = fun j => decide (j.id = k.id) := by
    funext j
    by_cases hj : j.id = k.id <;> simp [hj]
  have hid : i.id = k.id := by simpa using List.find?_some h
  unfold findJob at h ⊢
  show List.find? _ (s.clu.jobs.map fun i => if i.id = k.id then k else i) = some k
  rw [List.find?_map, hkeep, h, Option.map_some, if_pos hid]

/-- A job that goes element by element is neither a tile command's nor a CRED's. -/
theorem canPart_beside {c : Cmd} (h : canPart c = true) : cmdEngine c ≠ .tile ∧ ∀ l, c ≠ .cred l := by
  refine ⟨fun htile => ?_, fun l hl => ?_⟩
  · cases c <;> simp [canPart, cmdEngine] at h htile
  · simp [hl, canPart] at h

/-- A job ended here has the status and its other parts as before. -/
def EndedWith (j : Job) (code : StatusCode) (t : State) : Prop :=
  ∃ k, findJob t j.id = some k ∧ k.status.map Prod.fst = some code ∧ k.sreg = j.sreg ∧ k.ctx = j.ctx

section ends

variable {s t : State} {j : Job} {code : StatusCode}

theorem endedWith_setJob {i : Job} (h : findJob t j.id = some i) (n : Nat) :
    EndedWith j code (setJob t { j with status := some (code, n) }) :=
  ⟨{ j with status := some (code, n) }, findJob_setJob (k := { j with status := some (code, n) }) h, rfl, rfl, rfl⟩

theorem cutShort_ends (hj : findJob s j.id = some j) (hpart : canPart j.cmd = true) (h : cutShort s j code = some t) :
    EndedWith j code t := by
  obtain ⟨htile, hcred⟩ := canPart_beside hpart
  have hkeep : KeepingRun (runPart j) := perform_keeping (lim := fun s => Config.landed s.choice) htile hcred
  have hcut {u : State} {c : StatusCode} {n : Nat} {e : StatusCode × Nat} (hw : worked s j (runPart j) = some (u, c, n))
      (ht : (if n < e.2 then some (setJob u { j with status := some (code, n) }) else none) = some t) : EndedWith j code t := by
    obtain ⟨i, hi⟩ := (worked_keeping hkeep s _ hw).queued hj
    split at ht
    · obtain rfl := Option.some.inj ht
      exact endedWith_setJob hi n
    · cases ht
  unfold cutShort at h
  split at h
  next hw _ => exact hcut hw h
  next hw _ => exact hcut hw h
  · cases h

theorem poisonShort_ends (hj : findJob s j.id = some j) : EndedWith j .poison (poisonShort s j) := by
  have hnothing : EndedWith j .poison (setJob s.tickChoice { j with status := some (.poison, j.done) }) :=
    endedWith_setJob (t := s.tickChoice) hj j.done
  unfold poisonShort
  dsimp only
  split
  next hpart =>
    obtain ⟨⟨hpart, -⟩, -⟩ : (canPart j.cmd = true ∧ inTurn s j = true) ∧ (!awaitsTwin s j) = true := by
      simpa only [Bool.and_eq_true] using hpart
    cases hcut : cutShort s.tickChoice j .poison with
    | none => exact hnothing
    | some t => exact cutShort_ends (s := s.tickChoice) hj hpart hcut
  next => exact hnothing

theorem errorReply_job (hj : findJob s j.id = some j) (hrun : running j = true) (peer : BitVec 32) :
    exec (.errorReply (.job j.id) peer) s = .next (poisonShort s j) := by
  show execErrorReply (.job j.id) peer s = _
  unfold execErrorReply
  simp only [hj, hrun, if_true]

theorem errorReply_context {c : Fin 8} {peer : BitVec 32} (hlive : (s.ctx c).live = true) (hstop : (s.ctx c).stopped = false)
    (hq : ∃ q ∈ s.feQueue, gwinLoc ≤ q.loc ∧ ∃ g n, q.origin = .own c g n) :
    exec (.errorReply (.context c) peer) s = .next (raise s c { cls := .peerSealed, addr := peer.zeroExtend 64 }) := by
  have haway : queuedAway s c = true := by
    obtain ⟨q, hq, hloc, g, n, horig⟩ := hq
    exact List.any_eq_true.mpr ⟨q, hq, by simp [hloc, horig]⟩
  show execErrorReply (.context c) peer s = _
  unfold execErrorReply
  simp only [hlive, hstop, haway, Bool.not_false, Bool.and_self, if_true]

theorem hostCompletion_eq {c : Fin 8} {a : Word} (h : (s.ctx c).wait = some (.host a)) (refused : Bool) :
    exec (.hostCompletion c refused) s =
      if refused then .next (raise s c { cls := .protFault, addr := a }) else .next (wakeAgain s c true) := by
  show execHostCompletion c refused s = _
  unfold execHostCompletion
  rw [h]

end ends

theorem wakeAgain_same (s : State) (c : Fin 8) (b : Bool) :
    (wakeAgain s c b).ctx c = { s.ctx c with wait := none, expired := b } := ctx_setCtx_same ..

theorem wakeAgain_other {s : State} {c d : Fin 8} {b : Bool} (h : d ≠ c) : (wakeAgain s c b).ctx d = s.ctx d := ctx_setCtx_other h

/-! ### A paired launch (R313) -/

theorem slots_getElem {k : Nat} (h : k < slots.length) : slots[k] = ⟨k, h⟩ := by
  have hall : ∀ c : Fin 8, slots[c.val]'c.isLt = c := by decide
  exact hall ⟨k, h⟩

/-- The packet of a fault bears its address (R307). -/
theorem raise_packet {s : State} {c : Fin 8} {f : Flt} (hc : f.cls ≠ .uncorrectable) (hb : f.block = none) :
    ∃ p, ((raise s c f).ctx c).packet = some p ∧ p.cls = f.cls ∧ p.addr = f.addr ∧ (raise s c f).core.frozen = true ∧
      (raise s c f).mem = s.mem := by
  rw [raise_plain hc hb]
  refine ⟨_, by simp [freezeWith, State.ctx, State.setCtx]; rfl, rfl, rfl, rfl, by simp⟩

section paired

variable {s : State} {twin : BitVec 32} {hash : Word}

/-- A request that leaves the core of a paired launch waits with its hash. -/
theorem pairGateIf_waits (htwin : s.core.twin.isSome = true) (hok : (s.ctx s.cur).pairOk = false) (a data op : Nat)
    (k : State → Out) : pairGateIf true s a data op k =
      .next (waiting (s.setCtx s.cur { s.ctx s.cur with pairOk := false, pairHash := some (Config.pairHash a data op) }) .pair) := by
  unfold pairGateIf
  rw [htwin, Bool.and_true, if_pos rfl]
  dsimp only
  rw [if_neg (by simp [hok])]
  exact waitFor_eq ..

/-- The core of a paired launch whose current context waits with a hash. -/
def gateWaiting (s : State) (h : Word) : State :=
  waiting (s.setCtx s.cur { s.ctx s.cur with pairOk := false, pairHash := some h }) .pair

theorem gateWaiting_ctx (s : State) (h : Word) : (gateWaiting s h).ctx s.cur =
    { s.ctx s.cur with pairOk := false, pairHash := some h, pc := unitStart (s.setCtx s.cur { s.ctx s.cur with
        pairOk := false, pairHash := some h }) s.cur, wait := some .pair, runTimer := if Wait.pair.isStall then (s.ctx s.cur).runTimer
        else 0 } := by
  have hctx := waiting_ctx (s.setCtx s.cur { s.ctx s.cur with pairOk := false, pairHash := some h }) .pair
  rw [cur_setCtx, ctx_setCtx_same] at hctx
  exact hctx

section gate

variable {runs : List (Nat × Nat)} (htwin : s.core.twin.isSome = true) (hok : (s.ctx s.cur).pairOk = false)

include htwin hok

theorem sx_waits {x : MemG} (hfree : RegsFree s [x.base, x.reg] [])
    (ha : memAddr (getG s s.cur x.base) x.disp.toInt 8 % 8 = 0)
    (hcheck : checkWrite s (memAddr (getG s s.cur x.base) x.disp.toInt 8) 8 = .ok runs)
    (hleaves : leavesCore s (memAddr (getG s s.cur x.base) x.disp.toInt 8) = true) :
    exec (.sx x) s = .next (gateWaiting s (Config.pairHash (memAddr (getG s s.cur x.base) x.disp.toInt 8)
      ((getG s s.cur x.reg).toNat % 2 ^ (8 * 8)) 19)) := by
  show storeG s x 8 19 = _
  unfold storeG
  rw [withRegs_free (regsFree_mono hfree (by simp) (by simp)), aligned_of_mod ha, withData_free hfree (by simp)]
  unfold storeAt
  rw [hcheck, Chk.run, pairGate, hleaves, pairGateIf_waits htwin hok]
  rfl

theorem contributeSync_waits (hcon : (s.ctx s.cur).contributed = false) (data op : Nat) (w : Wait) :
    contributeSync s data op w = .next (gateWaiting s (Config.pairHash 0 data op)) := by
  unfold contributeSync
  rw [hcon, if_neg Bool.false_ne_true, pairGateIf_waits htwin hok]
  rfl

theorem bsync_waits (hcon : (s.ctx s.cur).contributed = false) {level : Fin 5} {storage : Storage}
    (hsync : syncRefused s level = false) (hphase : s.core.phase = none) :
    exec (.bsync level storage) s = .next (gateWaiting s (Config.pairHash 0 level.val 58)) := by
  show execBsync level storage s = _
  unfold execBsync
  rw [hsync, hphase, Option.isSome_none, Bool.or_false, if_neg Bool.false_ne_true, contributeSync_waits htwin hok hcon]

theorem xend_waits (hcon : (s.ctx s.cur).contributed = false) {storage : Storage} (hcur : s.cur = 0)
    (hphase : s.core.phase.isSome = true) (habort : s.core.aborted = false) :
    exec (.xend storage) s = .next (gateWaiting s (Config.pairHash 0 s.core.sent 59)) := by
  have hnone : s.core.phase.isNone = false := by rw [Option.isNone_eq_false_iff]; exact hphase
  show execXend storage s = _
  unfold execXend
  rw [if_neg (by simp [hcur, hnone]), habort, if_neg Bool.false_ne_true, contributeSync_waits htwin hok hcon]

end gate

/-- A job does not end before the other copy has agreed on what it writes. -/
theorem jobCompletion_awaits {j : Job} (hj : findJob s j.id = some j) (hwait : awaitsTwin s j = true) (others : List CredShare) :
    exec (.jobCompletion j.id others) s = .refused .eventNotEnabled := by
  have hstatus : j.status = none := by
    simp only [awaitsTwin, running, Bool.and_eq_true] at hwait
    exact Option.isNone_iff_eq_none.mp hwait.1.1.2.2
  show execJobCompletion j.id others s = _
  unfold execJobCompletion
  simp only [hj, hstatus, hwait, Bool.or_true, Bool.true_or, if_true]

/-- A context's request waits for the other copy's hash. -/
def WaitsForTwin (s : State) (c : Fin 8) : Prop := (s.ctx c).wait = some .pair

/-- A context's request waits with a hash. -/
def BearsHash (s : State) (hash : Word) (c : Fin 8) : Prop := WaitsForTwin s c ∧ (s.ctx c).pairHash = some hash

/-- A job's next write or message waits with a hash. -/
def JobBearsHash (s : State) (hash : Word) (j : Job) : Prop := j ∈ s.clu.jobs ∧ awaitsTwin s j = true ∧ jobHash s j = hash

theorem mem_pairWaiters {c : Fin 8} : c ∈ pairWaiters s ↔ WaitsForTwin s c := by
  simp [pairWaiters, mem_slots, WaitsForTwin]

theorem bearer_found {c : Fin 8} (h : BearsHash s hash c) (honly : ∀ d, BearsHash s hash d → d = c) :
    ((pairWaiters s).find? fun c => decide ((s.ctx c).pairHash = some hash)) = some c := by
  cases hfind : (pairWaiters s).find? fun c => decide ((s.ctx c).pairHash = some hash) with
  | none => exact absurd (decide_eq_true h.2) (List.find?_eq_none.mp hfind c (mem_pairWaiters.mpr h.1))
  | some d =>
    have hwait := mem_pairWaiters.mp (List.mem_of_find?_eq_some hfind)
    rw [honly d ⟨hwait, by simpa using List.find?_some hfind⟩]

theorem bearer_none (h : ∀ d, ¬ BearsHash s hash d) :
    ((pairWaiters s).find? fun c => decide ((s.ctx c).pairHash = some hash)) = none := by
  rw [List.find?_eq_none]
  exact fun d hd hhash => h d ⟨mem_pairWaiters.mp hd, by simpa using hhash⟩

theorem jobBearer_found {j : Job} (h : JobBearsHash s hash j) (honly : ∀ k, JobBearsHash s hash k → k = j) :
    ((pairJobs s).find? fun j => decide (jobHash s j = hash)) = some j := by
  obtain ⟨hmem, hwait, hhash⟩ := h
  cases hfind : (pairJobs s).find? fun j => decide (jobHash s j = hash) with
  | none => exact absurd (decide_eq_true hhash) (List.find?_eq_none.mp hfind j (List.mem_filter.mpr ⟨hmem, hwait⟩))
  | some k =>
    obtain ⟨hk, hkwait⟩ := List.mem_filter.mp (List.mem_of_find?_eq_some hfind)
    rw [honly k ⟨hk, hkwait, by simpa using List.find?_some hfind⟩]

theorem jobBearer_none (h : ∀ k, ¬ JobBearsHash s hash k) : ((pairJobs s).find? fun j => decide (jobHash s j = hash)) = none := by
  rw [List.find?_eq_none]
  intro k hk hhash
  obtain ⟨hmem, hwait⟩ := List.mem_filter.mp hk
  exact h k ⟨hmem, hwait, by simpa using hhash⟩

/-- Where nothing waits with the hash that has come, the copies differ. -/
theorem pairHashArrival_unborne (hctx : ∀ d, ¬ BearsHash s hash d) (hjob : ∀ k, ¬ JobBearsHash s hash k) :
    exec (.pairHashArrival hash twin) s = pairMismatch twin s := by
  show execPairHashArrival hash twin s = _
  unfold execPairHashArrival
  rw [bearer_none hctx, jobBearer_none hjob]

theorem pairHashArrival_context {c : Fin 8} (h : BearsHash s hash c) (honly : ∀ d, BearsHash s hash d → d = c) :
    exec (.pairHashArrival hash twin) s = .next (wakeAgain (s.setCtx c { s.ctx c with pairOk := true }) c false) := by
  show execPairHashArrival hash twin s = _
  unfold execPairHashArrival
  rw [bearer_found h honly]

theorem pairHashArrival_job (hctx : ∀ d, ¬ BearsHash s hash d) {j : Job} (h : JobBearsHash s hash j)
    (honly : ∀ k, JobBearsHash s hash k → k = j) :
    exec (.pairHashArrival hash twin) s = .next (setJob s { j with agreed := j.agreed + 1 }) := by
  show execPairHashArrival hash twin s = _
  unfold execPairHashArrival
  rw [bearer_none hctx, jobBearer_found h honly]

/-- What the two copies' difference does to the context whose request waits first. -/
theorem pairMismatch_context {c : Fin 8} (h : WaitsForTwin s c) (hfirst : ∀ d, d < c → ¬ WaitsForTwin s d) :
    pairMismatch twin s =
      .next (raise (s.setCtx c { s.ctx c with pairHash := none }) c { cls := .pairMismatch, addr := twin.zeroExtend 64 }) := by
  have hhead : (pairWaiters s).head? = some c := by
    unfold pairWaiters
    rw [List.head?_filter, List.find?_eq_some_iff_getElem]
    refine ⟨by simpa [WaitsForTwin] using h, c.val, c.isLt, slots_getElem c.isLt, fun k hk => ?_⟩
    have hlt : k < slots.length := hk.trans c.isLt
    rw [slots_getElem hlt]
    simpa [WaitsForTwin] using hfirst ⟨k, hlt⟩ hk
  unfold pairMismatch
  cases hw : pairWaiters s with
  | nil => simp [hw] at hhead
  | cons d l =>
    obtain rfl : d = c := by simpa [hw] using hhead
    rfl

theorem pairMismatch_job (hctx : ∀ d, ¬ WaitsForTwin s d) {j : Job} (h : s.clu.jobs.find? (awaitsTwin s) = some j) :
    pairMismatch twin s = .next (raiseJob s j { cls := .pairMismatch, addr := twin.zeroExtend 64 }) := by
  have hnone : pairWaiters s = [] := List.eq_nil_iff_forall_not_mem.mpr fun d hd => hctx d (mem_pairWaiters.mp hd)
  have hhead : (pairJobs s).head? = some j := by rw [pairJobs, List.head?_filter, h]
  unfold pairMismatch
  rw [hnone]
  cases hj : pairJobs s with
  | nil => simp [hj] at hhead
  | cons k l =>
    obtain rfl : k = j := by simpa [hj] using hhead
    rfl

/-- A job's fault names its command. -/
theorem raiseJob_packet {j : Job} {f : Flt} (hc : f.cls ≠ .uncorrectable) (hb : f.block = none) :
    ∃ p, ((raiseJob s j f).ctx j.ctx).packet = some p ∧ p.cls = f.cls ∧ p.addr = f.addr ∧
      (raiseJob s j f).core.frozen = true ∧ (raiseJob s j f).mem = s.mem ∧ p.pc = j.pc ∧ p.insn = j.word := by
  obtain ⟨p, hp, hcls, haddr, hfroz, hmem⟩ := raise_packet (s := s) (c := j.ctx) hc hb
  have hctx : (raiseJob s j f).ctx j.ctx = { (raise s j.ctx f).ctx j.ctx with
      packet := ((raise s j.ctx f).ctx j.ctx).packet.map fun p => { p with pc := j.pc, insn := j.word } } := ctx_setCtx_same ..
  exact ⟨{ p with pc := j.pc, insn := j.word }, by rw [hctx, hp, Option.map_some], hcls, haddr, hfroz, hmem, rfl, rfl⟩

end paired

/-- Settles O49: each event by the equation of its case; a write stands beside what it leaves of the order and the count, a run of a
job that goes element by element keeps the job's entry. -/
theorem requestAndPairAnswers : Obligations.RequestAndPairAnswers := by
  unfold Obligations.RequestAndPairAnswers
  refine ⟨fun s loc w va c a peer j => ⟨?_, ?_, ?_, ?_, ?_, ?_, ?_, ?_, ?_⟩,
    fun s x runs c hash twin j level storage => ⟨?_, ?_, ?_, ?_, ?_, ?_, ?_⟩⟩
  · intro hhere ⟨hseal, hfen⟩ hseen hdrop
    have hok := applicable_spad hhere hseal hfen
    refine ⟨fun hd => ?_, fun hd hclock => ?_⟩
    · obtain ⟨t, ht, hmem, htags, hbytes, hmod⟩ := writeApply_spad hhere hok ⟨hseen, fun hlt => absurd hlt hd.not_gt⟩ hdrop
      exact ⟨t, ht, hmem, htags, hbytes, congrArg Module.applied (hmod.trans (congrArg State.mod (countWrite_beyond hd)))⟩
    · obtain ⟨t, ht, hmem, htags, hbytes, hmod⟩ := writeApply_spad hhere hok ⟨hseen, fun _ => hclock⟩ hdrop
      have happlied (k : Nat) : appliedOf t k = if k = w.die then appliedOf s w.die + 1 else appliedOf s k := by
        rw [← appliedOf_countWrite hd k, appliedOf, hmod, appliedOf]
      exact ⟨t, ht, hmem, htags, hbytes, (happlied w.die).trans (if_pos rfl), fun k hk => (happlied k).trans (if_neg hk)⟩
  · intro hhere ⟨hseal, hfen⟩ hseen hdrop hnext
    obtain ⟨hmem, htags, hctxs⟩ := countWrite_keeps s w.die
    exact ⟨_, writeApply_dropped (applicable_spad hhere hseal hfen) ⟨hseen, hnext⟩ hdrop, hmem, htags, hctxs⟩
  · intro hnot
    refine writeApply_refused fun ⟨hseen, hnext⟩ => ?_
    rcases hnot with hunseen | ⟨hd, hne⟩
    · exact hunseen hseen
    · exact hne (hnext hd)
  · intro hhere hbytes hclosed
    exact writeApply_closed (applicable_closed hhere hbytes hclosed)
  · exact fun l hl => pageWalk_fills hl
  · exact fun hwalk hawake => pageWalk_fails hwalk hawake
  · intro hwait
    refine ⟨⟨wakeAgain s c true, hostCompletion_eq hwait false, ?_, ?_, ?_, rfl, fun d hd => wakeAgain_other hd⟩,
      hostCompletion_eq hwait true⟩
    · rw [wakeAgain_same]
    · rw [wakeAgain_same]
    · rw [wakeAgain_same]
  · exact fun hlive hstop hq => errorReply_context hlive hstop hq
  · intro hj hrun
    obtain ⟨k, hk⟩ := poisonShort_ends hj
    exact ⟨_, k, errorReply_job hj hrun peer, hk⟩
  · intro hfree ha hcheck htwin hleaves hok
    refine ⟨_, sx_waits htwin hok hfree ha hcheck hleaves, ?_, ?_, rfl⟩
    · rw [gateWaiting_ctx]
    · rw [gateWaiting_ctx]
      rfl
  · intro htwin hok hcon
    refine ⟨fun hsync hphase => ?_, fun hcur hphase habort => ?_⟩
    · refine ⟨_, bsync_waits htwin hok hcon hsync hphase, ?_, ?_, ?_, rfl⟩
      · rw [gateWaiting_ctx]
      · rw [gateWaiting_ctx]
        rfl
      · rw [gateWaiting_ctx, hcon]
    · refine ⟨_, xend_waits htwin hok hcon hcur hphase habort, ?_, ?_, ?_, rfl⟩
      · rw [gateWaiting_ctx]
      · rw [gateWaiting_ctx]
        rfl
      · rw [gateWaiting_ctx, hcon]
  · intro hb honly
    refine ⟨_, pairHashArrival_context hb honly, ?_, ?_, rfl, fun d hd => ?_⟩
    · rw [wakeAgain_same]
    · rw [wakeAgain_same, ctx_setCtx_same]
    · rw [wakeAgain_other hd, ctx_setCtx_other hd]
  · intro hwait hfirst
    have hmis : ∃ t p, pairMismatch twin s = .next t ∧ (t.ctx c).packet = some p ∧ p.cls = .pairMismatch ∧
        p.addr = twin.zeroExtend 64 ∧ t.core.frozen = true ∧ t.mem = s.mem ∧ True := by
      obtain ⟨p, hp, hcls, haddr, hfroz, hmem⟩ := raise_packet (s := s.setCtx c { s.ctx c with pairHash := none }) (c := c)
        (f := { cls := .pairMismatch, addr := twin.zeroExtend 64 }) nofun rfl
      exact ⟨_, p, pairMismatch_context hwait hfirst, hp, hcls, haddr, hfroz, hmem, trivial⟩
    obtain ⟨t, p, ht, hrest⟩ := hmis
    exact ⟨fun ⟨hctx, hjob⟩ => ⟨t, p, (pairHashArrival_unborne hctx hjob).trans ht, hrest⟩, ⟨t, p, ht, hrest⟩⟩
  · exact fun hj hwait l => jobCompletion_awaits hj hwait l
  · intro hctx hj hb honly
    exact ⟨_, pairHashArrival_job hctx hb honly, findJob_setJob (k := { j with agreed := j.agreed + 1 }) hj, rfl, rfl⟩
  · intro hnone hfirst
    have hmis : ∃ t p, pairMismatch twin s = .next t ∧ (t.ctx j.ctx).packet = some p ∧ p.cls = .pairMismatch ∧
        p.addr = twin.zeroExtend 64 ∧ t.core.frozen = true ∧ t.mem = s.mem ∧ p.pc = j.pc ∧ p.insn = j.word := by
      obtain ⟨p, hp⟩ := raiseJob_packet (s := s) (j := j) (f := { cls := .pairMismatch, addr := twin.zeroExtend 64 }) nofun rfl
      obtain ⟨hp, hcls, haddr, hfroz, hmem, hpc, hinsn⟩ := hp
      exact ⟨_, p, pairMismatch_job hnone hfirst, hp, hcls, haddr, hfroz, hmem, hpc, hinsn⟩
    obtain ⟨t, p, ht, hrest⟩ := hmis
    exact ⟨fun ⟨hctx, hjob⟩ => ⟨t, p, (pairHashArrival_unborne hctx hjob).trans ht, hrest⟩, ⟨t, p, ht, hrest⟩⟩

end Sys2Proof.Proofs
end

