-- ==== Sys2Proof/Proofs/Jobs.lean ====
section
/-! PROOFS. Engine jobs from their start to their end (O39). -/

namespace Sys2Proof.Proofs

open Sys2Proof.Machine Sys2Proof.Laws

/-! ### What a job's end leaves alone -/

/-- What the end of a job keeps: memory, descriptors, core and the contexts' handles, but that a grammar handle may be unbound. -/
structure EndKeeps (s t : State) : Prop where
  mem   : t.mem = s.mem
  descs : t.descs = s.descs
  core  : t.core = s.core
  reef  : ∀ c q, getReef t c q = getReef s c q
  gram  : ∀ c y, getGram t c y = getGram s c y ∨ getGram t c y = none

theorem EndKeeps.trans {s t u : State} (h : EndKeeps s t) (k : EndKeeps t u) : EndKeeps s u where
  mem := k.mem.trans h.mem
  descs := k.descs.trans h.descs
  core := k.core.trans h.core
  reef c q := (k.reef c q).trans (h.reef c q)
  gram c y := by
    rcases k.gram c y with hk | hk
    · rw [hk]
      exact h.gram c y
    · exact .inr hk

theorem endKeeps_of_ctxs {s t : State} (hm : t.mem = s.mem) (hd : t.descs = s.descs) (hk : t.core = s.core) (hc : t.ctxs = s.ctxs) :
    EndKeeps s t := by
  have hctx (c : Fin 8) : t.ctx c = s.ctx c := by simp only [State.ctx, hc]
  exact ⟨hm, hd, hk, fun c q => by rw [getReef, hctx, getReef], fun c y => .inl (by rw [getGram, hctx, getGram])⟩

/-- A context changed in neither its map handles nor its grammar handles, but for one of these unbound. -/
theorem endKeeps_setCtx (s : State) {c : Fin 8} {x : Ctx} (hq : x.q = (s.ctx c).q)
    (hy : ∀ y : Fin 4, x.y[y.val] = (s.ctx c).y[y.val] ∨ x.y[y.val] = none) : EndKeeps s (s.setCtx c x) := by
  refine ⟨rfl, rfl, rfl, fun d q => ?_, fun d y => ?_⟩ <;> by_cases hd : d = c
  · subst hd
    rw [getReef, ctx_setCtx_same, getReef]
    simp only [hq]
  · rw [getReef, ctx_setCtx_other hd, getReef]
  · subst hd
    rw [getGram, ctx_setCtx_same, getGram]
    exact hy y
  · rw [getGram, ctx_setCtx_other hd, getGram]
    exact .inl rfl

theorem setGram_none_endKeeps (s : State) (c : Fin 8) (y : Fin 4) : EndKeeps s (setGram s c y none) := by
  refine endKeeps_setCtx s rfl fun z => ?_
  by_cases hz : y.val = z.val
  · exact .inr (by simp [hz])
  · exact .inl (Vector.getElem_set_ne y.isLt z.isLt hz)

theorem setGram_pend (s : State) (c d : Fin 8) (y : Fin 4) (g : Option GBinding) : ((setGram s c y g).ctx d).pend = (s.ctx d).pend := by
  by_cases hd : d = c
  · subst hd
    rw [setGram, ctx_setCtx_same]
  · rw [setGram, ctx_setCtx_other hd]

theorem setGram_g (s : State) (c d : Fin 8) (y : Fin 4) (g : Option GBinding) : ((setGram s c y g).ctx d).g = (s.ctx d).g := by
  by_cases hd : d = c
  · subst hd
    rw [setGram, ctx_setCtx_same]
  · rw [setGram, ctx_setCtx_other hd]

theorem failedBind_endKeeps (s : State) (j : Job) : EndKeeps s (failedBind s j) := by
  unfold failedBind
  split
  · dsimp only
    split
    · exact endKeeps_of_ctxs rfl rfl rfl rfl
    · exact setGram_none_endKeeps ..
  · exact endKeeps_of_ctxs rfl rfl rfl rfl

theorem failedBind_pend (s : State) (j : Job) (c : Fin 8) : ((failedBind s j).ctx c).pend = (s.ctx c).pend := by
  unfold failedBind
  split
  · dsimp only
    split
    · rfl
    · exact setGram_pend ..
  · rfl

/-! ### A job's end by its parts (R35, R36, R38) -/

/-- The register that awaits a job holds its status word and is pending no more. -/
def statusGiven (s : State) (j : Job) (w : Word) : State :=
  let t := setG s j.ctx j.sreg w
  t.setCtx j.ctx { t.ctx j.ctx with pend := (t.ctx j.ctx).pend.set j.sreg.val none j.sreg.isLt }

/-- The handle that a job's end leaves unbound (R258). -/
def unboundAtEnd (s : State) (j : Job) : State :=
  if j.unbinds then ((cmdGram j.cmd).map fun y => setGram s j.ctx y none).getD s else s

/-- Every record of a job as a predecessor has its outcome, and its entry is freed. -/
def endNoted (s : State) (j : Job) (code : StatusCode) : State :=
  let note (p : Pred) : Pred := if p.job = j.id then { p with outcome := some code.isErr } else p
  let t := { s with ctxs := Vector.ofFn fun c => { s.ctx c with deps := (s.ctx c).deps.map note } }
  { t with clu := { t.clu with
    jobs := (t.clu.jobs.filter fun i => !decide (i.id = j.id)).map fun i => { i with preds := i.preds.map note } } }

/-- The state in which a job's status word is written: a GBIND that failed has left its handle unbound. -/
def bindSettled (s : State) (j : Job) (code : StatusCode) : State := if code = .ok then s else failedBind s j

section finish

variable {s : State} {j : Job} {code : StatusCode}

theorem bindSettled_endKeeps (s : State) (j : Job) (code : StatusCode) : EndKeeps s (bindSettled s j code) := by
  unfold bindSettled
  split
  · exact endKeeps_of_ctxs rfl rfl rfl rfl
  · exact failedBind_endKeeps ..

theorem bindSettled_pend (s : State) (j : Job) (code : StatusCode) (c : Fin 8) :
    ((bindSettled s j code).ctx c).pend = (s.ctx c).pend := by
  unfold bindSettled
  split
  · rfl
  · exact failedBind_pend ..

theorem finishJob_eq (hrem : j.remote = none) (hpend : (s.ctx j.ctx).pend[j.sreg.val] = some j.id) (hsh : j.shadows = []) (n : Nat) :
    finishJob s j code n = endNoted (jobEnds (unboundAtEnd
      (statusGiven (bindSettled s j code) j (statusWord (cmdEngine j.cmd) code n)) j) j) j code := by
  have hpend' : ((bindSettled s j code).ctx j.ctx).pend[j.sreg.val] = some j.id := by rw [bindSettled_pend, hpend]
  have hunbinds (u : State) : unboundAtEnd u j = (match j.unbinds, cmdGram j.cmd with
      | true, some y => setGram u j.ctx y none
      | _, _ => u) := by
    unfold unboundAtEnd
    cases j.unbinds <;> cases cmdGram j.cmd <;> rfl
  unfold bindSettled at hpend' ⊢
  unfold finishJob
  simp only [hrem, hsh, List.foldl_nil, ite_self]
  rw [if_pos hpend', hunbinds]
  rfl

theorem statusGiven_endKeeps (s : State) (j : Job) (w : Word) : EndKeeps s (statusGiven s j w) := by
  refine EndKeeps.trans (t := setG s j.ctx j.sreg w) ?_ (endKeeps_setCtx _ rfl fun y => .inl rfl)
  unfold setG
  split
  · exact endKeeps_of_ctxs rfl rfl rfl rfl
  · exact endKeeps_setCtx s rfl fun y => .inl rfl

theorem statusGiven_pend (s : State) (j : Job) (w : Word) : ((statusGiven s j w).ctx j.ctx).pend[j.sreg.val] = none := by
  rw [statusGiven, ctx_setCtx_same]
  exact Vector.getElem_set_self ..

theorem getG_statusGiven (hreg : j.sreg ≠ 0) (w : Word) : getG (statusGiven s j w) j.ctx j.sreg = w := by
  refine Eq.trans (getG_of_ctx ?_ j.sreg) (getG_setG_same s j.ctx j.sreg w hreg)
  unfold statusGiven
  dsimp only
  rw [ctx_setCtx_same]

theorem unboundAtEnd_endKeeps (s : State) (j : Job) : EndKeeps s (unboundAtEnd s j) := by
  unfold unboundAtEnd
  split
  · cases cmdGram j.cmd with
    | none => exact endKeeps_of_ctxs rfl rfl rfl rfl
    | some y => exact setGram_none_endKeeps ..
  · exact endKeeps_of_ctxs rfl rfl rfl rfl

/-- Unbinding a handle touches no register. -/
theorem unboundAtEnd_regs (s : State) (j : Job) (c : Fin 8) :
    ((unboundAtEnd s j).ctx c).g = (s.ctx c).g ∧ ((unboundAtEnd s j).ctx c).pend = (s.ctx c).pend := by
  unfold unboundAtEnd
  split
  · cases cmdGram j.cmd with
    | none => exact ⟨rfl, rfl⟩
    | some y => exact ⟨setGram_g .., setGram_pend ..⟩
  · exact ⟨rfl, rfl⟩

theorem endNoted_ctx (s : State) (j : Job) (code : StatusCode) (c : Fin 8) :
    ∃ deps, (endNoted s j code).ctx c = { s.ctx c with deps := deps } :=
  ⟨_, Vector.getElem_ofFn ..⟩

theorem endNoted_endKeeps (s : State) (j : Job) (code : StatusCode) : EndKeeps s (endNoted s j code) := by
  refine ⟨rfl, rfl, rfl, fun c q => ?_, fun c y => .inl ?_⟩ <;> obtain ⟨deps, hctx⟩ := endNoted_ctx s j code c
  · rw [getReef, hctx, getReef]
  · rw [getGram, hctx, getGram]

theorem endNoted_freed (s : State) (j : Job) (code : StatusCode) : ∀ k ∈ (endNoted s j code).clu.jobs, k.id ≠ j.id := by
  intro k hk
  obtain ⟨i, hi, rfl⟩ := List.mem_map.mp hk
  simpa using (List.mem_filter.mp hi).2

/-- An engine's status word is the sum of its fields (R36). -/
theorem statusWord_toNat (e : Engine) (c : StatusCode) (n : Nat) : (statusWord e c n).toNat =
    2 ^ 63 + (if c = .ok ∨ c = .boltFixed ∨ c = .lateEvents then 0 else 2 ^ 62) + c.num * 2 ^ 56 + e.unitNum * 2 ^ 48 +
      n % 2 ^ 48 := by
  have herr : (if c.isErr then 2 ^ 62 else 0) = if c = .ok ∨ c = .boltFixed ∨ c = .lateEvents then 0 else 2 ^ 62 := by
    cases c <;> simp [StatusCode.isErr]
  have hnum : c.num ≤ 15 := by cases c <;> simp [StatusCode.num]
  have hunit : e.unitNum ≤ 5 := by cases e <;> decide
  have hflag : (if c.isErr then 2 ^ 62 else 0) ≤ 2 ^ 62 := by split <;> decide
  rw [statusWord, BitVec.toNat_ofNat, herr, Nat.mod_eq_of_lt]
  rw [herr] at hflag
  omega

/-- What a job's end leaves: the status word in a register that is pending no more, its entry freed, all else as before. -/
def JobDone (s t : State) (j : Job) (code : StatusCode) (n : Nat) : Prop :=
  isPending t j.ctx j.sreg = false ∧ (∀ k ∈ t.clu.jobs, k.id ≠ j.id) ∧ EndKeeps s t ∧
    getG t j.ctx j.sreg = statusWord (cmdEngine j.cmd) code n

theorem finishJob_done (hrem : j.remote = none) (hreg : j.sreg ≠ 0) (hpend : (s.ctx j.ctx).pend[j.sreg.val] = some j.id)
    (hsh : j.shadows = []) (n : Nat) : JobDone s (finishJob s j code n) j code n := by
  rw [finishJob_eq hrem hpend hsh]
  generalize hw : statusWord (cmdEngine j.cmd) code n = w
  generalize hu : statusGiven (bindSettled s j code) j w = u
  have hkeep : EndKeeps s u := hu ▸ (bindSettled_endKeeps s j code).trans (statusGiven_endKeeps ..)
  have hfree : (u.ctx j.ctx).pend[j.sreg.val] = none := hu ▸ statusGiven_pend ..
  have hword : getG u j.ctx j.sreg = w := hu ▸ getG_statusGiven hreg w
  have hends : EndKeeps (unboundAtEnd u j) (jobEnds (unboundAtEnd u j) j) := endKeeps_of_ctxs rfl rfl rfl rfl
  obtain ⟨hg, hp⟩ := unboundAtEnd_regs u j j.ctx
  obtain ⟨deps, hctx⟩ := endNoted_ctx (jobEnds (unboundAtEnd u j) j) j code j.ctx
  refine ⟨?_, endNoted_freed _ j code, ((hkeep.trans (unboundAtEnd_endKeeps ..)).trans hends).trans (endNoted_endKeeps ..), ?_⟩
  · have hnone : ((endNoted (jobEnds (unboundAtEnd u j) j) j code).ctx j.ctx).pend = (u.ctx j.ctx).pend := by
      rw [hctx]
      exact hp
    rw [isPending]
    simp only [hnone, hfree, Option.isSome_none, Bool.and_false]
  · have hregs : ((endNoted (jobEnds (unboundAtEnd u j) j) j code).ctx j.ctx).g = (u.ctx j.ctx).g := by
      rw [hctx]
      exact hg
    exact (getG_of_ctx hregs _).trans (hword.trans hw.symm)

end finish

/-! ### Starting (R38, R257, R273) -/

theorem findJob_id {s : State} {id : Nat} {j : Job} (h : findJob s id = some j) : j.id = id := by
  simpa using List.find?_some h

theorem running_iff {j : Job} : running j = true ↔ j.started = true ∧ j.status = none := by
  simp [running]

/-- The reading of a record touches neither the cluster nor memory nor the contexts. -/
def BesideRecord (s t : State) : Prop := t.clu = s.clu ∧ t.mem = s.mem ∧ t.ctxs = s.ctxs

section starting

variable {s : State} {j : Job}

theorem jobLaunch_cancelled {id : Nat} (hj : findJob s id = some j) (hnew : j.started = false) (hopen : j.status = none)
    (hfailed : ∃ p ∈ j.preds, p.outcome = some true) :
    exec (.jobLaunch id) s = .next (setJob s { j with status := some (.cancelled, 0) }) := by
  have hany : (j.preds.any fun p => decide (p.outcome = some true)) = true := by simpa using hfailed
  show execJobLaunch id s = _
  unfold execJobLaunch
  simp only [hj]
  rw [if_pos (by simp [hnew, hopen, hany])]

theorem jobLaunch_starts {id : Nat} (hj : findJob s id = some j) (hpreds : ∀ p ∈ j.preds, p.outcome = some false)
    (hstart : canStart s j = true) : exec (.jobLaunch id) s = .next (startJob s j) := by
  have hany : (j.preds.any fun p => decide (p.outcome = some true)) = false := by
    rw [List.any_eq_false]
    intro p hp
    simp [hpreds p hp]
  show execJobLaunch id s = _
  unfold execJobLaunch
  simp only [hj]
  rw [if_neg (by simp [hany]), if_pos hstart]

theorem canStart_of (hnew : j.started = false) (hopen : j.status = none) (hpreds : ∀ p ∈ j.preds, p.outcome = some false)
    (hfirst : firstInLine s j = true) (hfree : ∀ k ∈ s.clu.jobs, running k = true → sharesEngine k j = false)
    (hfrozen : s.core.frozen = false) (hsaving : s.core.saving = false) (hfenced : s.core.fenced = false)
    (hpubs : ∀ p ∈ targetPubs s j, p.closed = false) : canStart s j = true := by
  have hall : (j.preds.all fun p => p.outcome.isSome) = true := by
    rw [List.all_eq_true]
    intro p hp
    simp [hpreds p hp]
  have hshare : (s.clu.jobs.any fun i => running i && sharesEngine i j) = false := by
    rw [List.any_eq_false]
    intro k hk
    simpa using hfree k hk
  have hclosed : ((targetPubs s j).any fun p => p.closed) = false := by
    rw [List.any_eq_false]
    intro p hp
    simp [hpubs p hp]
  simp [canStart, hnew, hopen, hall, hfirst, hshare, hfrozen, hsaving, hfenced, hclosed]

theorem readRecord_same (s : State) (j : Job) : BesideRecord s (readRecord s j).2 := by
  unfold readRecord
  dsimp only
  generalize quietAt s.vis _ false _ = quiet
  cases quiet
  · simp only [Bool.false_eq_true, if_false]
    split <;> exact ⟨rfl, rfl, rfl⟩
  · simp only [if_true]
    split <;> exact ⟨rfl, rfl, rfl⟩

/-- Where nothing else may be read of a record, it is as it stands or as it stood at the issue. -/
theorem readRecord_quiet (hquiet : quietAt s.vis (.job j.id) false
    ((List.range (recordLen j.cmd)).map fun i => recordAddr j.cmd j.a j.b + i) = true) :
    (readRecord s j).1 = readBytes s (recordAddr j.cmd j.a j.b) (recordLen j.cmd) ∨ (readRecord s j).1 = j.record := by
  unfold readRecord
  dsimp only
  rw [if_pos hquiet]
  dsimp only
  generalize readBytes s _ _ = bytes
  by_cases hsame : bytes = j.record
  · rw [if_pos hsame]
    exact .inl rfl
  · rw [if_neg hsame]
    dsimp only
    split
    · exact .inl rfl
    · exact .inr rfl

theorem recordTaken_same (s : State) (j : Job) : BesideRecord s (recordTaken s j).2 := by
  unfold recordTaken
  split
  · exact ⟨rfl, rfl, rfl⟩
  · dsimp only
    split
    · dsimp only
      split <;> exact ⟨rfl, rfl, rfl⟩
    · exact readRecord_same s j

/-- A record taken changes nothing of its job but the record, or what stopped its reading. -/
theorem recordTaken_job (s : State) (j : Job) :
    ∃ rec_ stop, (recordTaken s j).1 = { j with record := rec_, recordStop := stop } := by
  unfold recordTaken
  split
  · exact ⟨_, _, rfl⟩
  · dsimp only
    split <;> exact ⟨_, _, rfl⟩

theorem recordTaken_unbound (h : startsUnbound s j = true) : recordTaken s j = (j, s) := if_pos h

theorem recordTaken_error {e : StatusCode} (h : startsUnbound s j = false)
    (hread : engRead s reachSpad (recordAddr j.cmd j.a j.b) (recordLen j.cmd) = .error e) :
    (recordTaken s j).1 = { j with recordStop := some e } := by
  unfold recordTaken
  rw [h]
  simp only [hread, Bool.false_eq_true, if_false]

theorem recordTaken_ok {bs : List Byte} (h : startsUnbound s j = false)
    (hread : engRead s reachSpad (recordAddr j.cmd j.a j.b) (recordLen j.cmd) = .ok bs) :
    (recordTaken s j).1 = { j with record := (readRecord s j).1 } := by
  unfold recordTaken
  rw [h]
  simp only [hread, Bool.false_eq_true, if_false]

/-- A job as it starts. -/
def startedJob (s : State) (j : Job) : Job :=
  { (recordTaken s j).1 with started := true, startNo := s.clu.starts, binding := startBinding s j }

/-- A job as it is in the queue once it runs: bound to the shadows in force (R204). -/
def queuedStarted (s : State) (j : Job) : Job :=
  { startedJob s j with shadows := (targetPubs (recordTaken s j).2 (startedJob s j)).map fun p => p.desc }

/-- A job as it starts differs in its record, or what stopped its reading, its start and its binding. -/
theorem startedJob_eq (s : State) (j : Job) : ∃ rec_ stop, startedJob s j =
    { j with record := rec_, recordStop := stop, started := true, startNo := s.clu.starts, binding := startBinding s j } := by
  obtain ⟨rec_, stop, hjob⟩ := recordTaken_job s j
  exact ⟨rec_, stop, by rw [startedJob, hjob]⟩

theorem startedJob_id (s : State) (j : Job) : (startedJob s j).id = j.id := by
  obtain ⟨rec_, stop, hjob⟩ := startedJob_eq s j
  rw [hjob]

theorem startedJob_cmd (s : State) (j : Job) : (startedJob s j).cmd = j.cmd := by
  obtain ⟨rec_, stop, hjob⟩ := startedJob_eq s j
  rw [hjob]

theorem startedJob_running (hopen : j.status = none) : running (startedJob s j) = true := by
  obtain ⟨rec_, stop, hjob⟩ := startedJob_eq s j
  rw [hjob]
  exact running_iff.mpr ⟨rfl, hopen⟩

theorem startedJob_unbound (h : startsUnbound s j = true) :
    (startedJob s j).record = j.record ∧ (startedJob s j).recordStop = j.recordStop := by
  rw [startedJob, recordTaken_unbound h]
  exact ⟨rfl, rfl⟩

theorem startedJob_stopped {e : StatusCode} (h : startsUnbound s j = false)
    (hread : engRead s reachSpad (recordAddr j.cmd j.a j.b) (recordLen j.cmd) = .error e) : (startedJob s j).recordStop = some e := by
  rw [startedJob, recordTaken_error h hread]

theorem startedJob_record {bs : List Byte} (h : startsUnbound s j = false)
    (hread : engRead s reachSpad (recordAddr j.cmd j.a j.b) (recordLen j.cmd) = .ok bs) :
    (startedJob s j).recordStop = j.recordStop ∧
      (quietAt s.vis (.job j.id) false ((List.range (recordLen j.cmd)).map fun i => recordAddr j.cmd j.a j.b + i) = true →
        (startedJob s j).record = readBytes s (recordAddr j.cmd j.a j.b) (recordLen j.cmd) ∨ (startedJob s j).record = j.record) := by
  rw [startedJob, recordTaken_ok h hread]
  exact ⟨rfl, readRecord_quiet⟩

theorem startJob_queued (hj : findJob s j.id = some j) : findJob (startJob s j) j.id = some (queuedStarted s j) := by
  obtain ⟨hclu, -, -⟩ := recordTaken_same s j
  have hid' : (queuedStarted s j).id = j.id := startedJob_id s j
  have hold : findJob (recordTaken s j).2 (queuedStarted s j).id = some j := by
    rw [hid', ← hj, findJob, hclu, findJob]
  have hnew := findJob_setJob hold
  rw [hid'] at hnew
  exact hnew

theorem startJob_rest (s : State) (j : Job) : (startJob s j).clu.starts = s.clu.starts + 1 ∧ (startJob s j).mem = s.mem ∧
    (startJob s j).ctxs = s.ctxs := by
  obtain ⟨hclu, hmem, hctxs⟩ := recordTaken_same s j
  refine ⟨?_, hmem, hctxs⟩
  show (recordTaken s j).2.clu.starts + 1 = _
  rw [hclu]

end starting

/-! ### Work (R211, R215) -/

theorem noteJob_mem (s t : State) (j : Job) : (noteJob s t j).mem = t.mem := by
  unfold noteJob
  dsimp only
  split <;> rfl

/-- A job's work is a run of it that may pass over writes, beside the order and the free choice. -/
theorem worked_past {s : State} {j : Job} {run : State → Option Ended} {e : Ended} (h : worked s j run = some e) :
    ∃ (r : State) (out : List (Nat × Nat)) (f : Ended),
      (r = s ∨ r = s.tickChoice) ∧ runPast (runChecked run) r (jobMisses s j) out = some f ∧ e.2 = f.2 ∧ e.1.mem = f.1.mem := by
  unfold worked at h
  dsimp only at h
  split at h
  next hnone =>
    obtain ⟨f, hf, rfl⟩ := Option.map_eq_some_iff.mp h
    rw [List.isEmpty_iff.mp hnone]
    refine ⟨s, [], f, .inl rfl, ?_, rfl, noteJob_mem ..⟩
    show (runChecked run s).map (fun e => (e.1, e.2)) = some f
    rw [hf]
    rfl
  next =>
    obtain ⟨f, hf, rfl⟩ := Option.map_eq_some_iff.mp h
    exact ⟨_, _, f, .inr rfl, hf, rfl, noteJob_mem ..⟩

theorem jobMisses_unseen {s : State} {j : Job} {u : Unseen} (h : u ∈ jobMisses s j) :
    u ∈ s.vis.unseen ∧ u.knownTo (.job j.id) = false := by
  unfold jobMisses at h
  split at h
  · cases h
  · obtain ⟨hmem, hcond⟩ := List.mem_filter.mp h
    exact ⟨hmem, by simpa using (Bool.and_eq_true_iff.mp hcond).1⟩

/-! ### Misses and ends (R17, R35, R356) -/

/-- A run has met a page with no mapping that its own masthead is to be told of. -/
def MissesPage (j : Job) (c : StatusCode) : Prop := (∃ a, c = .pageAt a) ∧ j.cmd ≠ .trem

section ends

variable {s t : State} {j : Job} {id n : Nat} {c : StatusCode} {others : List CredShare}

theorem endOrReport_ends (h : ¬ MissesPage j c) (finish : State → StatusCode → Nat → State) :
    endOrReport s j (t, c, n) finish = .next (finish t c.plain n) := by
  unfold endOrReport
  dsimp only
  split
  · rfl
  next hother => exact absurd ⟨⟨_, rfl⟩, hother⟩ h
  · rfl

theorem endOrReport_page {a : Nat} (hcmd : j.cmd ≠ .trem) (finish : State → StatusCode → Nat → State) :
    endOrReport s j (t, .pageAt a, n) finish = if missOpen s j then .refused .eventNotEnabled
      else if j.missed.any fun m => decide (m / 65536 = a / 65536) then .next (finish t .page n)
      else .next (missReport s j a) := by
  unfold endOrReport
  dsimp only
  split
  next htrem => exact absurd htrem hcmd
  next ha _ => cases ha; rfl
  next hno _ => exact absurd rfl (hno a)

/-- A job at work in its turn: what its run comes to is reported or ends it. -/
def AtWork (s : State) (id : Nat) (j : Job) : Prop :=
  findJob s id = some j ∧ running j = true ∧ inTurn s j = true ∧ s.core.fenced = false

theorem jobCompletion_works (h : AtWork s id j) (htwin : awaitsTwin s j = false)
    (hw : worked s j (perform j others noLimit) = some (t, c, n)) :
    exec (.jobCompletion id others) s = endOrReport s j (t, c, n) fun u d m =>
      if sharesFirst j others then endJob u id (d, m) else finishJob u j d m := by
  obtain ⟨hj, hrun, hturn, hfence⟩ := h
  obtain ⟨hstart, hopen⟩ := running_iff.mp hrun
  show execJobCompletion id others s = _
  unfold execJobCompletion
  simp only [hj, hopen, hstart, htwin, hturn, hfence, hw]
  rfl

theorem jobCompletion_fenced (hj : findJob s id = some j) (hrun : running j = true) (hturn : inTurn s j = true)
    (htwin : awaitsTwin s j = false) (hfence : s.core.fenced = true) :
    exec (.jobCompletion id others) s = .next (finishJob s j .poison j.done) := by
  obtain ⟨hstart, hopen⟩ := running_iff.mp hrun
  show execJobCompletion id others s = _
  unfold execJobCompletion
  simp only [hj, hopen, hstart, htwin, hturn, hfence]
  rfl

theorem jobCompletion_status (hj : findJob s id = some j) (hst : j.status = some (c, n)) :
    exec (.jobCompletion id others) s = .next (finishJob s j c n) := by
  show execJobCompletion id others s = _
  unfold execJobCompletion
  simp only [hj, hst]

theorem missReport_reports (hj : findJob s j.id = some j) (hrun : running j = true) (a : Nat) :
    ∃ p k, (missReport s j a).mod.inbox = s.mod.inbox ++ [p] ∧ p.cls = .pageFault ∧ p.pc = j.pc ∧ p.insn = j.word ∧
      p.addr = BitVec.ofNat 64 a ∧ findJob (missReport s j a) j.id = some k ∧ running k = true ∧ k.missed = some a := by
  refine ⟨_, { j with missed := some a }, rfl, rfl, rfl, rfl, rfl, ?_, hrun, rfl⟩
  exact findJob_setJob (k := { j with missed := some a }) hj

theorem engineHandlePush_cpy {y : CpyArgs} (h : AtWork s id j) (hcmd : j.cmd = .cpy y) (huse : y.useH = true)
    (hw : worked s j (pushRun y j) = some (t, c, n)) :
    exec (.engineHandlePush id) s = if c = .cancelled then .next t
      else endOrReport s j (t, c, n) fun u d m => endJob u id (d, m) := by
  obtain ⟨hj, hrun, hturn, hfence⟩ := h
  show execEngineHandlePush id s = _
  unfold execEngineHandlePush
  simp only [hj, hrun, hturn, hfence, hcmd, huse, hw]
  cases c <;> rfl

theorem engineHandlePush_tst {y : TstArgs} (h : AtWork s id j) (hcmd : j.cmd = .tst y) (hhandle : j.b.getLsbD 32 = true)
    (hw : worked s j (runTst y j) = some (t, c, n)) :
    exec (.engineHandlePush id) s = endOrReport s j (t, c, n) fun u d m => endJob u id (d, m) := by
  obtain ⟨hj, hrun, hturn, hfence⟩ := h
  show execEngineHandlePush id s = _
  unfold execEngineHandlePush
  simp only [hj, hrun, hturn, hfence, hcmd, hw, cmdHandle, hhandle]
  rfl

end ends

/-! ### CDEP (R38, R288) -/

section deps

variable {s : State} {l : List Pred} {p : Pred}

theorem addPred_keeps (h : p ∈ l) (r : GReg) : p ∈ addPred s l r := by
  unfold addPred
  split
  · split
    · exact h
    · exact List.mem_append_left _ h
  · exact h

theorem addPred_adds {r : GReg} {k : Nat} (hr : r ≠ 0) (hpend : (s.ctx s.cur).pend[r.val] = some k) :
    ∃ p ∈ addPred s l r, p.job = k := by
  unfold addPred
  simp only [if_neg hr, hpend]
  split
  next hold => simpa using hold
  next => exact ⟨{ job := k, outcome := none }, List.mem_append_right _ (List.mem_singleton.mpr rfl), rfl⟩

theorem addPred_only {r : GReg} (h : p ∈ addPred s l r) :
    p ∈ l ∨ p.outcome = none ∧ r ≠ 0 ∧ (s.ctx s.cur).pend[r.val] = some p.job := by
  unfold addPred at h
  split at h
  next k hk =>
    split at h
    · exact .inl h
    · rcases List.mem_append.mp h with hl | hnew
      · exact .inl hl
      · obtain rfl := List.mem_singleton.mp hnew
        by_cases hr : r = 0
        · simp [hr] at hk
        · exact .inr ⟨rfl, hr, by simpa [hr] using hk⟩
  · exact .inl h

theorem addPreds_keeps (h : p ∈ l) (rs : List GReg) : p ∈ rs.foldl (addPred s) l := by
  induction rs generalizing l with
  | nil => exact h
  | cons r rs ih => exact ih (addPred_keeps h r)

theorem addPreds_adds {rs : List GReg} {r : GReg} (hmem : r ∈ rs) {k : Nat} (hr : r ≠ 0)
    (hpend : (s.ctx s.cur).pend[r.val] = some k) : ∃ p ∈ rs.foldl (addPred s) l, p.job = k := by
  induction rs generalizing l with
  | nil => cases hmem
  | cons q rs ih =>
    rcases List.mem_cons.mp hmem with rfl | hrs
    · obtain ⟨p, hp, hjob⟩ := addPred_adds (l := l) hr hpend
      exact ⟨p, addPreds_keeps hp rs, hjob⟩
    · exact ih hrs

theorem addPreds_only {rs : List GReg} (h : p ∈ rs.foldl (addPred s) l) :
    p ∈ l ∨ p.outcome = none ∧ ∃ r ∈ rs, r ≠ 0 ∧ (s.ctx s.cur).pend[r.val] = some p.job := by
  induction rs generalizing l with
  | nil => exact .inl h
  | cons q rs ih =>
    rcases ih h with hq | ⟨hnone, r, hr, hpend⟩
    · rcases addPred_only hq with hl | ⟨hnone, hpend⟩
      · exact .inl hl
      · exact .inr ⟨hnone, q, List.mem_cons_self .., hpend⟩
    · exact .inr ⟨hnone, r, List.mem_cons_of_mem _ hr, hpend⟩

/-- The state that CDEP leaves. -/
def depsRecorded (s : State) (x : Eng2Args) : State :=
  retire (s.setCtx s.cur { s.ctx s.cur with deps := [x.gs, x.ga, x.gb].foldl (addPred s) (s.ctx s.cur).deps }) s.cur 4

theorem depsRecorded_ctx (s : State) (x : Eng2Args) :
    ((depsRecorded s x).ctx s.cur).pc = (s.ctx s.cur).pc + 4 ∧
      ((depsRecorded s x).ctx s.cur).deps = [x.gs, x.ga, x.gb].foldl (addPred s) (s.ctx s.cur).deps := by
  unfold depsRecorded
  rw [ctx_retire_same, ctx_setCtx_same]
  exact ⟨rfl, rfl⟩

end deps

/-! ### CCANCEL (R289) -/

section cancel

variable {s : State} {gs : GReg} {id : Nat} {j : Job}

theorem ccancel_zero (s : State) : exec (.ccancel 0) s = .next (raise s s.cur { cls := .illegalOperand }) := rfl

theorem ccancel_none (hgs : gs ≠ 0) (hpend : (s.ctx s.cur).pend[gs.val] = none) : exec (.ccancel gs) s = .next (retire s s.cur 4) := by
  show execCcancel gs s = _
  unfold execCcancel
  simp only [if_neg hgs, hpend]

/-- A job that CCANCEL does not touch: one that has ended, a CRED, or a tile job that has started. -/
def PastCancel (j : Job) : Prop := j.status.isSome = true ∨ (∃ l, j.cmd = .cred l) ∨ (j.started = true ∧ cmdEngine j.cmd = .tile)

theorem ccancel_past (hgs : gs ≠ 0) (hpend : (s.ctx s.cur).pend[gs.val] = some id) (hj : findJob s id = some j) (h : PastCancel j) :
    exec (.ccancel gs) s = .next (retire s s.cur 4) := by
  show execCcancel gs s = _
  unfold execCcancel
  simp only [if_neg hgs, hpend, hj]
  split
  · rfl
  next hopen =>
    split
    · rfl
    next hcred =>
      rcases h with h | ⟨l, hl⟩ | ⟨hstart, htile⟩
      · exact absurd h hopen
      · exact absurd hl (hcred l)
      · simp only [hstart, htile, Bool.not_true, Bool.false_eq_true, if_false, if_true]

/-- A job that has not ended, and no CRED: one that has not started ends at once, and one that has stops short, but for a tile job. -/
theorem ccancel_open (hgs : gs ≠ 0) (hpend : (s.ctx s.cur).pend[gs.val] = some id) (hj : findJob s id = some j)
    (hopen : j.status = none) (hcred : ∀ l, j.cmd ≠ .cred l) :
    exec (.ccancel gs) s = .next (retire (if !j.started then setJob s { j with status := some (.cancelled, 0) }
      else if cmdEngine j.cmd = .tile then s else stopShort s j .cancelled) s.cur 4) := by
  show execCcancel gs s = _
  unfold execCcancel
  simp only [if_neg hgs, hpend, hj]
  split
  next hended => simp [hopen] at hended
  next => rfl

theorem ccancel_waiting (hgs : gs ≠ 0) (hpend : (s.ctx s.cur).pend[gs.val] = some id) (hj : findJob s id = some j)
    (hopen : j.status = none) (hnew : j.started = false) (hcred : ∀ l, j.cmd ≠ .cred l) :
    exec (.ccancel gs) s = .next (retire (setJob s { j with status := some (.cancelled, 0) }) s.cur 4) := by
  rw [ccancel_open hgs hpend hj hopen hcred, if_pos (by simp [hnew])]

theorem ccancel_running (hgs : gs ≠ 0) (hpend : (s.ctx s.cur).pend[gs.val] = some id) (hj : findJob s id = some j)
    (hrun : running j = true) (htile : cmdEngine j.cmd ≠ .tile) (hcred : ∀ l, j.cmd ≠ .cred l) :
    exec (.ccancel gs) s = .next (retire (stopShort s j .cancelled) s.cur 4) := by
  obtain ⟨hstart, hopen⟩ := running_iff.mp hrun
  rw [ccancel_open hgs hpend hj hopen hcred, if_neg (by simp [hstart]), if_neg htile]

/-- A job stopped short has an error status, and every context stands where it stood. -/
def StoppedShort (s : State) (j : Job) (t : State) : Prop :=
  (∀ c, (t.ctx c).pc = (s.ctx c).pc) ∧ ∃ k c n, findJob t j.id = some k ∧ k.status = some (c, n) ∧ c.isErr = true

theorem stoppedShort_of {t : State} (h : RunKeeps s t) (hj : findJob s j.id = some j) {c : StatusCode} (hc : c.isErr = true) (n : Nat) :
    StoppedShort s j (setJob t { j with status := some (c, n) }) := by
  obtain ⟨i, hi⟩ := h.queued hj
  exact ⟨(h.trans (setJob_runKeeps ..)).1, _, c, n, findJob_setJob (k := { j with status := some (c, n) }) hi, rfl, hc⟩

theorem endedBefore_isErr {c : StatusCode} (h : endedBefore c = true) : c.isErr = true := by
  cases c <;> simp [endedBefore, StatusCode.isErr] at h ⊢

theorem stopShort_stops (hj : findJob s j.id = some j) (htile : cmdEngine j.cmd ≠ .tile) (hcred : ∀ l, j.cmd ≠ .cred l) :
    StoppedShort s j (stopShort s j .cancelled) := by
  have hnothing : StoppedShort s j (setJob s.tickChoice { j with status := some (.cancelled, j.done) }) :=
    stoppedShort_of (tickChoice_runKeeps s) hj rfl j.done
  have hworked {e : Ended} (hw : worked s.tickChoice j (runPart j) = some e) : StoppedShort s j
      (setJob e.1 { j with status := some (if endedBefore e.2.1 then e.2.1 else .cancelled, e.2.2) }) := by
    have hrun : KeepingRun (runPart j) := perform_keeping (lim := fun s => Config.landed s.choice) htile hcred
    refine stoppedShort_of ((tickChoice_runKeeps s).trans (worked_keeping hrun _ e hw)) hj ?_ _
    split
    next hbefore => exact endedBefore_isErr hbefore
    next => rfl
  unfold stopShort
  dsimp only
  split
  · exact hnothing
  · split
    next hsome =>
      split at hsome
      · split at hsome
        · cases hsome
        · exact hworked hsome
      · cases hsome
      · exact hworked hsome
    · exact hnothing

end cancel

/-! ### Jobs that run to their end (R35, R215) -/

theorem noteJob_endKeeps (s t : State) (j : Job) : EndKeeps t (noteJob s t j) := by
  unfold noteJob
  dsimp only
  split
  · exact endKeeps_of_ctxs rfl rfl rfl rfl
  · exact endKeeps_of_ctxs rfl rfl rfl rfl

theorem noteJob_pend (s t : State) (j : Job) (c : Fin 8) : ((noteJob s t j).ctx c).pend = (t.ctx c).pend := by
  unfold noteJob
  dsimp only
  split <;> rfl

/-- A job that has seen everything works in one run. -/
theorem worked_seen {s t : State} {j : Job} {run : State → Option Ended} {n : Nat} (hseen : jobMisses s j = [])
    (hrun : run s = some (t, .ok, n)) : worked s j run = some (noteJob s t j, .ok, n) := by
  unfold worked
  simp only [hseen, List.isEmpty_nil, if_true, runChecked, hrun, Option.map_some]
  rfl

section unhindered

variable {s : State} {id : Nat} {j : Job}

/-- What an unhindered job's run leaves with OK stands when its status is written, and the register holds OK and the count. -/
theorem endsWith_ok {t : State} {n : Nat} {others : List CredShare} {p : State → Prop} (h : Unhindered s id j)
    (hcred : ∀ l, j.cmd ≠ .cred l) (hrun : perform j others noLimit s = some (t, .ok, n))
    (hpend : (t.ctx j.ctx).pend = (s.ctx j.ctx).pend) (hp : ∀ u, EndKeeps t u → p u) : EndsWith s id others j .ok n p := by
  obtain ⟨hj, hon, hrem, hreg, hreg', hsh, htwin, hturn, hfence, hseen⟩ := h
  obtain rfl := findJob_id hj
  have hshare : sharesFirst j others = false := by
    unfold sharesFirst
    split
    next l hl => exact absurd hl (hcred l)
    next => rfl
  have hexec : exec (.jobCompletion j.id others) s = .next (finishJob (noteJob s t j) j .ok n) := by
    rw [jobCompletion_works ⟨hj, hon, hturn, hfence⟩ htwin (worked_seen hseen hrun),
      endOrReport_ends (by rintro ⟨⟨a, ha⟩, -⟩; cases ha), hshare]
    rfl
  have hwaits : ((noteJob s t j).ctx j.ctx).pend[j.sreg.val] = some j.id := by
    rw [noteJob_pend, hpend, hreg']
  obtain ⟨hfree, -, hkeep, hword⟩ := finishJob_done (code := .ok) hrem hreg hwaits hsh n
  exact ⟨_, hexec, hp _ ((noteJob_endKeeps s t j).trans hkeep), hfree, by rw [hword, statusWord_toNat]⟩

/-- GRELEASE leaves a bound handle unbound (R266). -/
theorem grelease_ends {others : List CredShare} {y : Fin 4} {g : GBinding} (h : Unhindered s id j) (hcmd : j.cmd = .grelease y)
    (hbound : j.binding = some g) : EndsWith s id others j .ok 1 fun u => getGram u j.ctx y = none ∧ u.mem = s.mem := by
  have hrun : perform j others noLimit s = some (setGram s j.ctx y none, .ok, 1) := by
    unfold perform
    simp only [hcmd, atEnd, runGrelease, bound, jobBinding, hbound]
    rfl
  refine endsWith_ok h (fun l => by simp [hcmd]) hrun (setGram_pend ..) fun u hu => ⟨?_, hu.mem⟩
  have hgone : getGram (setGram s j.ctx y none) j.ctx y = none := by
    rw [getGram, setGram, ctx_setCtx_same]
    exact Vector.getElem_set_self ..
  rcases hu.gram j.ctx y with hsame | hnone
  · exact hsame.trans hgone
  · exact hnone

/-- RFFREE leaves a map handle unbound (R296). -/
theorem rffree_ends {others : List CredShare} {q : Fin 4} (h : Unhindered s id j) (hcmd : j.cmd = .rffree q)
    (hbound : getReef s j.ctx q ≠ .unbound) : EndsWith s id others j .ok 1 fun u => getReef u j.ctx q = .unbound ∧ u.mem = s.mem := by
  have hfreed : runRffree q j noLimit s = (setReef s j.ctx q .unbound, .ok, 1) := by
    unfold runRffree
    rw [if_neg (by decide)]
    split
    next hno => exact absurd hno hbound
    next => rfl
  have hrun : perform j others noLimit s = some (setReef s j.ctx q .unbound, .ok, 1) := by
    unfold perform
    simp only [hcmd, hfreed]
  have hpend : ((setReef s j.ctx q .unbound).ctx j.ctx).pend = (s.ctx j.ctx).pend := by rw [setReef, ctx_setCtx_same]
  refine endsWith_ok h (fun l => by simp [hcmd]) hrun hpend fun u hu => ⟨?_, hu.mem⟩
  rw [hu.reef, getReef, setReef, ctx_setCtx_same]
  exact Vector.getElem_set_self ..

end unhindered

/-! ### TZERO (R239) -/

theorem leBytes_zero (n : Nat) : leBytes n 0 = List.replicate n 0 := by
  induction n with
  | zero => rfl
  | succ n ih => rw [leBytes, List.replicate_succ, Nat.zero_div, ih]; rfl

theorem packNat_zeros (w n : Nat) : packNat w (List.replicate n 0) = 0 := by
  induction n with
  | zero => rfl
  | succ n ih => rw [List.replicate_succ, packNat, ih, Nat.zero_mod, Nat.mul_zero]

theorem boltBytes_zeroBolt : boltBytes zeroBolt = List.replicate 256 0 := by
  have hzeros : zeroBolt.row ++ zeroBolt.col ++ zeroBolt.rowMag ++ zeroBolt.colMag = List.replicate 64 0 := rfl
  rw [boltBytes, hzeros, packBytes, packNat_zeros, leBytes_zero, List.length_replicate]

/-- Zeros written at a place and a boltrope's zeros behind it read as zeros. -/
theorem zeros_get {m : Cells} (h : Memory.wf m = true) {a b n k : Nat} (hapart : a + n ≤ b) :
    (∀ i, i < n → Memory.get (Memory.putBytes (Memory.putBytes m a (List.replicate n 0)) b (List.replicate k 0)) (a + i) = 0) ∧
      ∀ i, i < k → Memory.get (Memory.putBytes (Memory.putBytes m a (List.replicate n 0)) b (List.replicate k 0)) (b + i) = 0 := by
  refine ⟨fun i hi => ?_, fun i hi => ?_⟩
  · rw [memory_get_putBytes_outside (.inl (by omega)), memory_get_putBytes_inside h (by simpa using hi), List.getElem_replicate]
  · rw [memory_get_putBytes_inside (memory_putBytes_wf h) (by simpa using hi), List.getElem_replicate]

theorem tilePut_mem (s : State) (t loc : Nat) (bs : List Byte) : (tilePut s t loc bs).mem = Memory.putBytes s.mem loc bs := by
  unfold tilePut
  split
  · exact poke_mem ..
  · rfl

theorem tilePut_inv {s : State} (h : MemoryInv s) (t loc : Nat) (bs : List Byte) : MemoryInv (tilePut s t loc bs) := by
  unfold tilePut
  split
  · exact memoryInv_of_storeFrame (poke_frame s loc bs) h
  · exact setBytes_inv h

/-- What writes a tile keeps of the contexts but a notice, and of the core but tile bits. -/
theorem tilePut_keeps (s : State) (t loc : Nat) (bs : List Byte) : StoreKeeps s (tilePut s t loc bs) := by
  unfold tilePut
  split
  · exact poke_keeps ..
  · exact storeKeeps_of_core rfl rfl

theorem slotDescs_keeps (s : State) (t loc n : Nat) (d : Nat → BitVec 16) :
    (slotDescs s t loc n d).mem = s.mem ∧ StoreKeeps s (slotDescs s t loc n d) := by
  have hfold (l : List Nat) (u : State) : (l.foldl (fun v i => setDesc v (loc / 64 + i) (d i)) u).mem = u.mem := by
    induction l generalizing u with
    | nil => rfl
    | cons i l ih => exact ih (setDesc u (loc / 64 + i) (d i))
  unfold slotDescs
  split
  · exact ⟨hfold _ s, storeKeeps_foldl (fun u i => storeKeeps_of_core (t := setDesc u (loc / 64 + i) (d i)) rfl rfl) _ s⟩
  · exact ⟨rfl, storeKeeps_refl s⟩

/-- Descriptors written to blocks one after another read back. -/
theorem setDescs_get {s : State} (h : MemoryInv s) (b : Nat) (d : Nat → BitVec 16) (n : Nat) :
    MemoryInv ((List.range n).foldl (fun u i => setDesc u (b + i) (d i)) s) ∧
      ∀ i, i < n → descOf ((List.range n).foldl (fun u i => setDesc u (b + i) (d i)) s) (b + i) = d i := by
  induction n with
  | zero => exact ⟨h, fun i hi => absurd hi (Nat.not_lt_zero i)⟩
  | succ n ih =>
    obtain ⟨hinv, hget⟩ := ih
    rw [List.range_succ, List.foldl_append]
    refine ⟨setDesc_inv hinv, fun i hi => ?_⟩
    by_cases hlast : i = n
    · subst hlast
      exact sparseGet_put_same hinv.2.1
    · exact (sparseGet_put_other (by omega)).trans (hget i (by omega))

theorem tileSlot_eq (s : State) {t : Nat} (h : t < 64) : tileSlot s t = s.core.tiles[t] := by
  simp [tileSlot, List.getD_eq_getElem?_getD, h]

theorem accBits_eq (s : State) {i : Nat} (h : i < 4) : accBits s i = s.core.acc[i] := by
  simp [accBits, List.getD_eq_getElem?_getD, h]

theorem setTileBits_cleared (s : State) {t : Nat} (h : t < 68) :
    tileUnverified (setTileBits s t false false) t = false ∧ tilePoisoned (setTileBits s t false false) t = false := by
  unfold tileUnverified tilePoisoned
  by_cases hslot : t < 64
  · simp only [if_pos hslot, tileSlot_eq _ hslot]
    unfold setTileBits
    rw [dif_pos hslot]
    split
    next hnone => simp [hnone]
    next => simp
  · have hacc : t - 64 < 4 := by omega
    simp only [if_neg hslot, accBits_eq _ hacc]
    unfold setTileBits
    rw [dif_neg hslot, dif_pos hacc]
    simp

theorem setTileBolt_keeps (s : State) (t : Nat) (b : Bolt) : StoreKeeps s (setTileBolt s t b) := storeKeeps_of_core rfl rfl

theorem setTileBolt_mem (s : State) (t : Nat) (b : Bolt) :
    (setTileBolt s t b).mem = Memory.putBytes s.mem (boltLoc t) (boltBytes b) := rfl

theorem setTileBolt_descOf (s : State) (t : Nat) (b : Bolt) (k : Nat) : descOf (setTileBolt s t b) k = descOf s k := rfl

/-- A tile's bytes all zero, with their descriptors and its boltrope. -/
def tileZeros (s : State) (t loc fmt : Nat) : State :=
  setTileBolt (slotDescs (tilePut s t loc (List.replicate (tileBytes fmt) 0)) t loc (tileBytes fmt) fun _ => BitVec.ofNat 16 fmt) t zeroBolt

theorem tileZeros_keeps (s : State) (t loc fmt : Nat) : StoreKeeps s (setTileBits (tileZeros s t loc fmt) t false false) :=
  (((tilePut_keeps s t loc _).trans (slotDescs_keeps _ t loc _ _).2).trans
    (setTileBolt_keeps _ t zeroBolt)).trans (setTileBits_keeps _ t false false)

theorem tileZeros_mem (s : State) (t loc fmt : Nat) : (setTileBits (tileZeros s t loc fmt) t false false).mem =
    Memory.putBytes (Memory.putBytes s.mem loc (List.replicate (tileBytes fmt) 0)) (boltLoc t) (List.replicate 256 0) := by
  rw [setTileBits_mem, tileZeros, setTileBolt_mem, boltBytes_zeroBolt, (slotDescs_keeps ..).1, tilePut_mem]

theorem setTileBits_descOf (s : State) (t b : Nat) (u p : Bool) : descOf (setTileBits s t u p) b = descOf s b := by
  unfold descOf
  rw [(setTileBits_frame s t u p).descs]

theorem tileZeros_descs {s : State} (h : MemoryInv s) {t loc fmt i : Nat} (ht : t < 64) (hi : i < tileBytes fmt / 64) :
    descOf (setTileBits (tileZeros s t loc fmt) t false false) (loc / 64 + i) = BitVec.ofNat 16 fmt := by
  rw [setTileBits_descOf, tileZeros, setTileBolt_descOf, slotDescs, if_pos ht]
  exact (setDescs_get (tilePut_inv h t loc _) (loc / 64) _ _).2 i hi

/-- A tile's bytes lie below its boltrope (R216). -/
theorem tileAt_below_bolt {s : State} {t loc fmt : Nat} (h : TileAt s t loc fmt) : loc + tileBytes fmt ≤ boltLoc t := by
  obtain ⟨hplace, hsize, -, hspad⟩ := h
  by_cases hslot : t < 64
  · have hend := (hspad hslot).2
    unfold boltLoc
    omega
  · rw [tilePlace, if_neg hslot] at hplace
    obtain ⟨rfl, rfl⟩ := Prod.mk.inj (Option.some.inj hplace)
    have hbytes : tileBytes 9 = 1024 := rfl
    rw [hbytes, accLoc, boltLoc]
    omega

theorem tileBits_of_core {s u : State} (h : u.core = s.core) (t : Nat) :
    tileUnverified u t = tileUnverified s t ∧ tilePoisoned u t = tilePoisoned s t := by
  simp only [tileUnverified, tilePoisoned, tileSlot, accBits, h, and_self]

section tzero

variable {s : State} {id : Nat} {j : Job}

theorem tzero_ends {others : List CredShare} {x : TileArgs} {t loc fmt : Nat} (hinv : MemoryInv s) (h : Unhindered s id j)
    (hcmd : j.cmd = .tzero x) (ht : t = if x.s then j.b.toNat % 64 else 64 + x.acc.val) (hat : TileAt s t loc fmt) :
    EndsWith s id others j .ok 1 fun u =>
      (∀ i, i < tileBytes fmt → Memory.get u.mem (loc + i) = 0) ∧ (∀ i, i < 256 → Memory.get u.mem (boltLoc t + i) = 0) ∧
      tileUnverified u t = false ∧ tilePoisoned u t = false ∧
      (t < 64 → ∀ i, i < tileBytes fmt / 64 → descOf u (loc / 64 + i) = BitVec.ofNat 16 fmt) := by
  obtain ⟨hplace, hsize, hfmt, hspad⟩ := hat
  have hrun : perform j others noLimit s = some (setTileBits (tileZeros s t loc fmt) t false false, .ok, 1) := by
    have hnamed : namedTile x.s x.acc (bits j.b.toNat 0 6) = t := by
      rw [ht, namedTile, bits]
      simp
    unfold perform
    simp only [hcmd, runTzero, hnamed, hplace]
    rfl
  have hpend := (tileZeros_keeps s t loc fmt).ctx j.ctx
  have hapart := tileAt_below_bolt ⟨hplace, hsize, hfmt, hspad⟩
  refine endsWith_ok h (fun l => by simp [hcmd]) hrun (by rw [hpend]) fun u hu => ?_
  obtain ⟨hzeros, hbolt⟩ := zeros_get hinv.1 (k := 256) hapart
  obtain ⟨hverified, hclean⟩ := setTileBits_cleared (tileZeros s t loc fmt) hsize
  obtain ⟨hunv, hpoi⟩ := tileBits_of_core hu.core t
  refine ⟨?_, ?_, ?_, ?_, fun hslot i hi => ?_⟩
  · rwa [hu.mem, tileZeros_mem]
  · rwa [hu.mem, tileZeros_mem]
  · rw [hunv, hverified]
  · rw [hpoi, hclean]
  · rw [← tileZeros_descs hinv hslot hi, descOf, hu.descs, descOf]

end tzero

/-! ### O39 -/

section settle

variable {s : State} {id : Nat} {j : Job} {others : List CredShare}

theorem jobCompletion_ends (h : AtWork s id j) (htwin : awaitsTwin s j = false) {t : State} {c : StatusCode} {n : Nat}
    (hw : worked s j (perform j others noLimit) = some (t, c, n)) (hpage : ¬ MissesPage j c) :
    exec (.jobCompletion id others) s =
      .next (if sharesFirst j others then endJob t id (c.plain, n) else finishJob t j c.plain n) := by
  rw [jobCompletion_works h htwin hw, endOrReport_ends hpage]

/-- A job's run that misses a page: it waits while the miss is unanswered, ends where it was answered, and else reports it. -/
theorem jobCompletion_misses (h : AtWork s id j) (htwin : awaitsTwin s j = false) {t : State} {a n : Nat}
    (hw : worked s j (perform j others noLimit) = some (t, .pageAt a, n)) (hcmd : j.cmd ≠ .trem) :
    (missOpen s j = true → exec (.jobCompletion id others) s = .refused .eventNotEnabled) ∧
      (missOpen s j = false → (∃ m, j.missed = some m ∧ m / 0x10000 = a / 0x10000) → exec (.jobCompletion id others) s =
        .next (if sharesFirst j others then endJob t id (.page, n) else finishJob t j .page n)) ∧
      (missOpen s j = false → (∀ m, j.missed = some m → m / 0x10000 ≠ a / 0x10000) →
        exec (.jobCompletion id others) s = .next (missReport s j a)) := by
  rw [jobCompletion_works h htwin hw, endOrReport_page hcmd]
  refine ⟨fun hmiss => if_pos hmiss, fun hmiss hans => ?_, fun hmiss hnew => ?_⟩
  · obtain ⟨m, hm, hpage⟩ := hans
    simp [hmiss, hm, hpage]
  · have hany : (j.missed.any fun m => decide (m / 65536 = a / 65536)) = false := by
      rw [Option.any_eq_false]
      intro m hm
      simpa using hnew m hm
    simp [hmiss, hany]

end settle

/-- Settles O39: each event of a job by the equation of its branch, its end by what `finishJob` writes. -/
theorem jobsStartAndEnd : Obligations.JobsStartAndEnd := by
  unfold Obligations.JobsStartAndEnd
  refine ⟨fun s id j others gs x hj => ?_, fun s id j others hinv hun => ⟨?_, ?_, ?_⟩⟩
  · have hid := findJob_id hj
    intro done reg ready misses
    have hwork : ready → AtWork s id j := fun ⟨hrun, hturn, hfence⟩ => ⟨hj, hrun, hturn, hfence⟩
    refine ⟨jobLaunch_cancelled hj, ?_, ?_, fun run e => worked_past, fun u hu => hid ▸ jobMisses_unseen hu, ?_,
      jobCompletion_fenced hj, ?_, ?_, ?_, ?_, ?_⟩
    · intro hnew hopen hpreds hfirst hfree hfrozen hsaving hfenced hpubs r i a n
      subst hid
      have hstart := canStart_of hnew hopen hpreds hfirst hfree hfrozen hsaving hfenced hpubs
      exact ⟨⟨startJob s j, jobLaunch_starts hj hpreds hstart, startJob_queued hj, startedJob_running hopen, startedJob_cmd s j,
        startJob_rest s j⟩, startedJob_unbound,
        fun hbound => ⟨fun e => startedJob_stopped hbound, fun bs => startedJob_record hbound⟩⟩
    · intro c n hst hrem hreg hpend hsh
      subst hid
      obtain ⟨hfree, hgone, hkeep, hword⟩ := finishJob_done (code := c) hrem hreg hpend hsh n
      exact ⟨_, jobCompletion_status hj hst, hfree, hgone, hkeep.mem, by rw [hword, statusWord_toNat]⟩
    · intro hready htwin t c n hw ends
      refine ⟨jobCompletion_ends (hwork hready) htwin hw, ?_⟩
      rintro a rfl hcmd
      obtain ⟨hwaits, hends, hreports⟩ := jobCompletion_misses (hwork hready) htwin hw hcmd
      refine ⟨hwaits, hends, fun hmiss hnew => ?_⟩
      subst hid
      obtain ⟨p, k, hpacket⟩ := missReport_reports hj hready.1 a
      exact ⟨_, p, k, hreports hmiss hnew, rfl, rfl, rfl, hpacket⟩
    · intro hready y t c n hcmd huse hw
      rw [engineHandlePush_cpy (hwork hready) hcmd huse hw]
      exact ⟨fun hc => if_pos hc, fun hc hpage => by rw [if_neg hc, endOrReport_ends hpage]⟩
    · intro hready y t c n hcmd hhandle hw hpage
      rw [engineHandlePush_tst (hwork hready) hcmd hhandle hw, endOrReport_ends hpage]
    · obtain ⟨hpc, hdeps⟩ := depsRecorded_ctx s x
      refine ⟨depsRecorded s x, rfl, ⟨hpc, memoryKept_refl s⟩, ?_, ?_, ?_⟩ <;> rw [hdeps]
      · exact fun p hp => addPreds_keeps hp _
      · exact fun d hd hne k hk => addPreds_adds hd hne hk
      · exact fun p hp => addPreds_only hp
    · rintro rfl
      exact ccancel_zero s
    · intro hgs
      refine ⟨ccancel_none hgs, fun hpend => ccancel_past hgs hpend hj, fun hpend => ccancel_waiting hgs hpend hj, ?_⟩
      intro hpend hrun htile hcred
      subst hid
      obtain ⟨hpc, k, c, n, hk, hst, herr⟩ := stopShort_stops hj htile hcred
      refine ⟨_, k, c, n, ccancel_running hgs hpend hj hrun htile hcred, ?_, hk, hst, herr⟩
      rw [ctx_retire_same, hpc]
      rfl
  · exact fun x t loc fmt hcmd ht hat => tzero_ends hinv hun hcmd ht hat
  · exact fun y g hcmd hbound => grelease_ends hun hcmd hbound
  · exact fun q hcmd hbound => rffree_ends hun hcmd hbound

end Sys2Proof.Proofs
end

