-- ==== Sys2Proof/Proofs/Numbers.lean ====
section
/-! PROOFS. Exact arithmetic on values, patterns and what they stand for, and rounding to nearest (R45, R46, R49). -/

namespace Sys2Proof.Proofs

open Sys2Proof.Machine Sys2Proof.Laws

/-! ### Exact arithmetic (R46) -/

/-- The sign of a value as a factor. -/
def signQ (s : Bool) : ℚ := if s then -1 else 1

theorem signQ_not (s : Bool) : signQ (!s) = -signQ s := by cases s <;> simp [signQ]

theorem signQ_bne (s t : Bool) : signQ (s != t) = signQ s * signQ t := by cases s <;> cases t <;> simp [signQ]

theorem abs_signQ (s : Bool) : |signQ s| = 1 := by cases s <;> simp [signQ]

theorem signQ_mul_self (s : Bool) : signQ s * signQ s = 1 := by cases s <;> simp [signQ]

@[simp] theorem toRat_fin (s : Bool) (m : Nat) (e : Int) : (FVal.fin s m e).toRat = signQ s * m * 2 ^ e := rfl

theorem zpow_count {e q : Int} (h : q ≤ e) : (2 : ℚ) ^ (e - q).toNat * 2 ^ q = 2 ^ e := by
  rw [← zpow_natCast, Int.toNat_of_nonneg (by omega), ← zpow_add₀ (by norm_num), Int.sub_add_cancel]

/-- A count of 2^q stands for its value. -/
theorem fcount_toRat (s : Bool) (m : Nat) {e q : Int} (h : q ≤ e) :
    (fcount s m e q : ℚ) * 2 ^ q = (FVal.fin s m e).toRat := by
  rw [toRat_fin, ← zpow_count h]
  cases s <;> simp [fcount, signQ] <;> ring

theorem ofCount_toRat (z : Bool) (n q : Int) : (ofCount z n q).toRat = n * 2 ^ q := by
  unfold ofCount
  split
  · rename_i h
    simp [h]
  · rw [toRat_fin, Nat.cast_natAbs]
    rcases lt_or_ge n 0 with h | h
    · rw [abs_of_neg h]
      simp [signQ, h]
    · rw [abs_of_nonneg h]
      simp [signQ, h]

/-- A finite value has a sign, a magnitude and an exponent. -/
theorem exists_of_isFin {x : FVal} (h : x.isFin = true) : ∃ s m e, x = .fin s m e := by
  cases x with
  | nan => cases h
  | inf s => cases h
  | fin s m e => exact ⟨s, m, e, rfl⟩

theorem fneg_toRat (x : FVal) : (fneg x).toRat = -x.toRat := by
  cases x with
  | nan => rfl
  | inf s => rfl
  | fin s m e => simp [fneg, signQ_not]

theorem isFin_fneg {x : FVal} (h : x.isFin = true) : (fneg x).isFin = true := by
  obtain ⟨s, m, e, rfl⟩ := exists_of_isFin h
  rfl

theorem fadd_toRat {x y : FVal} (hx : x.isFin = true) (hy : y.isFin = true) : (fadd x y).toRat = x.toRat + y.toRat := by
  obtain ⟨s, m, e, rfl⟩ := exists_of_isFin hx
  obtain ⟨t, n, f, rfl⟩ := exists_of_isFin hy
  rw [fadd, ofCount_toRat, Int.cast_add, add_mul, fcount_toRat s m (min_le_left e f), fcount_toRat t n (min_le_right e f)]

theorem fsub_toRat {x y : FVal} (hx : x.isFin = true) (hy : y.isFin = true) : (fsub x y).toRat = x.toRat - y.toRat := by
  rw [fsub, fadd_toRat hx (isFin_fneg hy), fneg_toRat, sub_eq_add_neg]

theorem fmul_toRat {x y : FVal} (hx : x.isFin = true) (hy : y.isFin = true) : (fmul x y).toRat = x.toRat * y.toRat := by
  obtain ⟨s, m, e, rfl⟩ := exists_of_isFin hx
  obtain ⟨t, n, f, rfl⟩ := exists_of_isFin hy
  simp only [fmul, toRat_fin, signQ_bne, Nat.cast_mul, zpow_add₀ (two_ne_zero' ℚ)]
  ring

theorem fscale_toRat {x : FVal} (hx : x.isFin = true) (k : Int) : (fscale x k).toRat = x.toRat * 2 ^ k := by
  obtain ⟨s, m, e, rfl⟩ := exists_of_isFin hx
  simp only [fscale, toRat_fin, zpow_add₀ (two_ne_zero' ℚ)]
  ring

theorem flt_iff {x y : FVal} (hx : x.isFin = true) (hy : y.isFin = true) : flt x y = true ↔ x.toRat < y.toRat := by
  obtain ⟨s, m, e, rfl⟩ := exists_of_isFin hx
  obtain ⟨t, n, f, rfl⟩ := exists_of_isFin hy
  rw [flt, decide_eq_true_eq, ← fcount_toRat s m (min_le_left e f), ← fcount_toRat t n (min_le_right e f),
    mul_lt_mul_iff_left₀ (by positivity), Int.cast_lt]

theorem feq_iff {x y : FVal} (hx : x.isFin = true) (hy : y.isFin = true) : feq x y = true ↔ x.toRat = y.toRat := by
  have hfeq : feq x y = (!flt x y && !flt y x) := by
    obtain ⟨s, m, e, rfl⟩ := exists_of_isFin hx
    obtain ⟨t, n, f, rfl⟩ := exists_of_isFin hy
    rfl
  rw [hfeq, Bool.and_eq_true, Bool.not_eq_true', Bool.not_eq_true', ← Bool.not_eq_true, ← Bool.not_eq_true, flt_iff hx hy,
    flt_iff hy hx, not_lt, not_lt, and_comm, ← le_antisymm_iff]

/-! ### Patterns (R45) -/

/-- The magnitude field of a pattern. -/
def magOf (f : FFmt) (x : Nat) : Nat := x % 2 ^ (f.width - 1)

/-- The significand that a magnitude encoding stands for. -/
def sigOf (f : FFmt) (g : Nat) : Nat := if g / 2 ^ f.frac = 0 then g % 2 ^ f.frac else 2 ^ f.frac + g % 2 ^ f.frac

/-- The exponent of the last place of a format's smallest magnitudes. -/
def ulpExp (f : FFmt) : Int := 1 - f.bias - f.frac

/-- How many places a magnitude encoding's significand stands above the smallest. -/
def stepOf (f : FFmt) (g : Nat) : Nat := g / 2 ^ f.frac - 1

/-- A magnitude as a count of the format's smallest. -/
def magCount (f : FFmt) (g : Nat) : Nat := sigOf f g * 2 ^ stepOf f g

theorem signOf_withSign {f : FFmt} {s : Bool} {g : Nat} (h : g < 2 ^ (f.width - 1)) : signOf f (withSign f s g) = s := by
  have hpos : 0 < 2 ^ (f.width - 1) := by positivity
  cases s with
  | false => simp [withSign, signOf, bit, Nat.div_eq_of_lt h]
  | true => simp [withSign, signOf, bit, Nat.add_div_right _ hpos, Nat.div_eq_of_lt h]

theorem magOf_withSign {f : FFmt} {s : Bool} {g : Nat} (h : g < 2 ^ (f.width - 1)) : magOf f (withSign f s g) = g := by
  cases s <;> simp [withSign, magOf, Nat.mod_eq_of_lt h]

/-- A pattern is its sign and its magnitude. -/
theorem withSign_signOf {f : FFmt} {x : Nat} (h : x < 2 ^ f.width) : withSign f (signOf f x) (magOf f x) = x := by
  have hw : 2 ^ f.width = 2 ^ (f.width - 1) * 2 := by cases f <;> rfl
  have hdiv : x / 2 ^ (f.width - 1) < 2 := Nat.div_lt_of_lt_mul (hw ▸ h)
  have hmod := Nat.mod_add_div x (2 ^ (f.width - 1))
  unfold withSign magOf
  rcases Nat.lt_or_ge (x / 2 ^ (f.width - 1)) 1 with h0 | h1
  · have hz : x / 2 ^ (f.width - 1) = 0 := Nat.lt_one_iff.mp h0
    rw [hz] at hmod
    simpa [signOf, bit, hz] using hmod
  · have hone : x / 2 ^ (f.width - 1) = 1 := Nat.le_antisymm (Nat.le_of_lt_succ hdiv) h1
    rw [hone, Nat.mul_one] at hmod
    simpa [signOf, bit, hone] using hmod

theorem bits_frac (f : FFmt) (x : Nat) : bits x 0 f.frac = magOf f x % 2 ^ f.frac := by
  have hd : 2 ^ f.frac ∣ 2 ^ (f.width - 1) := Nat.pow_dvd_pow 2 (by cases f <;> decide)
  rw [bits, magOf, Nat.mod_mod_of_dvd x hd, pow_zero, Nat.div_one]

theorem bits_exp (f : FFmt) (x : Nat) : bits x f.frac f.expw = magOf f x / 2 ^ f.frac := by
  have hw : 2 ^ (f.width - 1) = 2 ^ f.frac * 2 ^ f.expw := by rw [← pow_add]; cases f <;> rfl
  rw [bits, magOf, hw, Nat.mod_mul_right_div_self]

/-- The magnitudes of infinities and NaNs. -/
def isSpecial (f : FFmt) (g : Nat) : Bool :=
  match f with
  | .e2m1 => false
  | .e4m3 => decide (g / 2 ^ f.frac = 15 ∧ g % 2 ^ f.frac = 7)
  | _ => decide (g / 2 ^ f.frac = 2 ^ f.expw - 1)

theorem fval_eq (f : FFmt) (x : Nat) :
    fval f x = if isSpecial f (magOf f x) then (if magOf f x % 2 ^ f.frac = 0 then .inf (signOf f x) else .nan)
      else if magOf f x / 2 ^ f.frac = 0 then .fin (signOf f x) (magOf f x % 2 ^ f.frac) (1 - f.bias - f.frac)
      else .fin (signOf f x) (2 ^ f.frac + magOf f x % 2 ^ f.frac) ((magOf f x / 2 ^ f.frac : Nat) - f.bias - f.frac) := by
  unfold fval isSpecial
  simp only [bits_frac, bits_exp] <;> cases f <;> rfl

/-- A magnitude that is none of the special ones is none above the largest. -/
theorem le_maxEnc {f : FFmt} {g : Nat} (hg : g < 2 ^ (f.width - 1)) (h : isSpecial f g = false) : g ≤ f.maxEnc := by
  have hdm := Nat.div_add_mod g (2 ^ f.frac)
  cases f <;> simp only [isSpecial, decide_eq_false_iff_not] at h <;>
    simp only [FFmt.maxEnc, FFmt.frac, FFmt.width, FFmt.expw] at h hg hdm ⊢ <;> omega

/-- What a pattern of a finite value stands for, and that its magnitude is none above the largest. -/
theorem fval_of_isFin {f : FFmt} {x : Nat} (h : (fval f x).isFin = true) :
    fval f x = .fin (signOf f x) (sigOf f (magOf f x)) (ulpExp f + stepOf f (magOf f x)) ∧ magOf f x ≤ f.maxEnc := by
  have hlt : magOf f x < 2 ^ (f.width - 1) := Nat.mod_lt _ (by positivity)
  rw [fval_eq] at h ⊢
  unfold sigOf stepOf ulpExp
  cases hs : isSpecial f (magOf f x) with
  | true =>
    rw [hs, if_pos rfl] at h
    split at h <;> cases h
  | false =>
    refine ⟨?_, le_maxEnc hlt hs⟩
    rw [if_neg (by decide)]
    by_cases h0 : magOf f x / 2 ^ f.frac = 0
    · simp [h0]
    · rw [if_neg h0, if_neg h0]
      generalize magOf f x / 2 ^ f.frac = n at h0 ⊢
      congr 1
      omega

/-- A finite pattern's value. -/
theorem fval_toRat {f : FFmt} {x : Nat} (h : (fval f x).isFin = true) :
    (fval f x).toRat = signQ (signOf f x) * magCount f (magOf f x) * 2 ^ ulpExp f := by
  rw [(fval_of_isFin h).1, toRat_fin, magCount, zpow_add₀ (two_ne_zero' ℚ), zpow_natCast]
  push_cast
  ring

/-! ### Rounding an encodable value (R45, R49) -/

theorem maxEnc_lt (f : FFmt) : f.maxEnc < 2 ^ (f.width - 1) := by cases f <;> decide

/-- The sum of a significand's place and its count is the encoding. -/
theorem sigOf_add_step (f : FFmt) (g : Nat) : sigOf f g + stepOf f g * 2 ^ f.frac = g := by
  have hdm := Nat.mod_add_div g (2 ^ f.frac)
  unfold sigOf stepOf
  split
  · rename_i h
    rw [h] at hdm ⊢
    simpa using hdm
  · rename_i h
    obtain ⟨k, hk⟩ := Nat.exists_eq_succ_of_ne_zero h
    rw [hk] at hdm ⊢
    rw [Nat.succ_sub_one]
    rw [Nat.mul_succ, Nat.mul_comm] at hdm
    omega

theorem sigOf_lt (f : FFmt) (g : Nat) : sigOf f g < 2 ^ (f.frac + 1) := by
  have := Nat.mod_lt g (show 0 < 2 ^ f.frac by positivity)
  unfold sigOf
  rw [pow_succ]
  split <;> omega

/-- Above the smallest step a significand has its top bit. -/
theorem le_sigOf {f : FFmt} {g : Nat} (h : stepOf f g ≠ 0) : 2 ^ f.frac ≤ sigOf f g := by
  unfold sigOf
  split
  · rename_i h0
    simp [stepOf, h0] at h
  · omega

theorem log2_sigOf {f : FFmt} {g : Nat} (h : sigOf f g ≠ 0) :
    max (ulpExp f + stepOf f g + Nat.log2 (sigOf f g)) (1 - f.bias) - f.frac = ulpExp f + stepOf f g := by
  have hlt : Nat.log2 (sigOf f g) < f.frac + 1 := (Nat.log2_lt h).2 (sigOf_lt f g)
  by_cases h0 : stepOf f g = 0
  · rw [h0]
    unfold ulpExp
    omega
  · have hge : f.frac ≤ Nat.log2 (sigOf f g) := (Nat.le_log2 h).2 (le_sigOf h0)
    unfold ulpExp
    omega

theorem magEnc_sigOf {f : FFmt} {g : Nat} (mode : Rnd) (r : Nat) (h : sigOf f g ≠ 0) :
    magEnc f mode r (sigOf f g) (ulpExp f + stepOf f g) = g := by
  unfold magEnc
  simp only [log2_sigOf h]
  have hstep : (ulpExp f + (stepOf f g : Int) - (1 - f.bias - f.frac)).toNat = stepOf f g := by unfold ulpExp; omega
  rw [hstep, roundTo, if_pos le_rfl, sub_self, Int.toNat_zero, pow_zero, Nat.mul_one, sigOf_add_step]

theorem fround_fval {f : FFmt} {x : Nat} (mode : Rnd) (r : Nat) (hx : x < 2 ^ f.width) (h : (fval f x).isFin = true) :
    fround f mode r (fval f x) = x := by
  obtain ⟨hv, hmax⟩ := fval_of_isFin h
  rw [hv, fround]
  split
  · rename_i h0
    have hstep : stepOf f (magOf f x) = 0 := by
      by_contra hs
      have := le_sigOf hs
      have hpos : 0 < 2 ^ f.frac := by positivity
      omega
    have hg := sigOf_add_step f (magOf f x)
    rw [h0, hstep, Nat.zero_mul] at hg
    rw [show 0 = magOf f x from hg, withSign_signOf hx]
  · rename_i h0
    rw [magEnc_sigOf mode r h0, if_neg (by omega), withSign_signOf hx]

/-! ### Rounding to nearest, ties to even (R49) -/

/-- The whole number nearest to `w`, the even one of two. -/
def NearestEven (w : ℚ) (c : Nat) : Prop := |w - c| ≤ 1 / 2 ∧ (|w - c| = 1 / 2 → c % 2 = 0)

theorem nearestEven_self (c : Nat) : NearestEven c c := by simp [NearestEven]

/-- Dividing by 2^k in the mode to nearest. -/
theorem roundShift_nearest (r m k : Nat) : NearestEven (m / 2 ^ k) (roundShift .rne r m k) := by
  have hpos : (0 : ℚ) < 2 ^ k := by positivity
  have hrem : m % 2 ^ k < 2 ^ k := Nat.mod_lt _ (by positivity)
  have hm : (m : ℚ) / 2 ^ k = (m / 2 ^ k : Nat) + (m % 2 ^ k : Nat) / 2 ^ k := by
    have hsum : ((m % 2 ^ k + 2 ^ k * (m / 2 ^ k) : Nat) : ℚ) = m := by rw [Nat.mod_add_div]
    rw [Nat.cast_add, Nat.cast_mul, Nat.cast_pow, Nat.cast_ofNat] at hsum
    rw [div_eq_iff hpos.ne', add_mul, div_mul_cancel₀ _ hpos.ne', ← hsum]
    ring
  unfold NearestEven
  rw [hm]
  simp only [roundShift]
  generalize m / 2 ^ k = lo
  generalize m % 2 ^ k = rem at hrem
  have hr0 : (0 : ℚ) ≤ rem / 2 ^ k := by positivity
  have hr1 : (rem : ℚ) / 2 ^ k < 1 := (div_lt_one hpos).2 (by exact_mod_cast hrem)
  have hgt : 2 * rem > 2 ^ k ↔ (1 : ℚ) / 2 < rem / 2 ^ k := by
    rw [lt_div_iff₀ hpos, gt_iff_lt, ← Nat.cast_lt (α := ℚ)]
    push_cast
    constructor <;> intro h <;> linarith
  have heq : 2 * rem = 2 ^ k ↔ (rem : ℚ) / 2 ^ k = 1 / 2 := by
    rw [div_eq_iff hpos.ne', ← Nat.cast_inj (R := ℚ)]
    push_cast
    constructor <;> intro h <;> linarith
  simp only [Bool.or_eq_true, Bool.and_eq_true, decide_eq_true_eq, hgt, heq]
  generalize (rem : ℚ) / 2 ^ k = x at hr0 hr1
  split
  · rename_i hup
    have hx : (1 : ℚ) / 2 ≤ x := hup.elim le_of_lt fun h => h.1.ge
    have habs : |((lo : ℚ) + x) - (lo + 1 : Nat)| = 1 - x := by
      push_cast
      rw [abs_of_neg (by linarith)]
      ring
    rw [habs]
    refine ⟨by linarith, fun h => ?_⟩
    rcases hup with hlt | ⟨-, hodd⟩
    · linarith
    · exact Nat.succ_mod_two_eq_zero_iff.mpr hodd
  · rename_i hdown
    rw [not_or] at hdown
    obtain ⟨hle, hodd⟩ := hdown
    rw [add_sub_cancel_left, abs_of_nonneg hr0]
    exact ⟨not_lt.mp hle, fun h => (Nat.mod_two_eq_zero_or_one lo).resolve_right fun k => hodd ⟨h, k⟩⟩

/-- Rounding to a multiple of 2^q in the mode to nearest. -/
theorem roundTo_nearest (r m : Nat) (e q : Int) : NearestEven (m * 2 ^ (e - q)) (roundTo .rne r m e q) := by
  unfold roundTo
  split
  · rename_i h
    have hcount : (m : ℚ) * 2 ^ (e - q) = (m * 2 ^ (e - q).toNat : Nat) := by
      push_cast
      rw [← zpow_natCast, Int.toNat_of_nonneg (by omega)]
    rw [hcount]
    exact nearestEven_self _
  · rename_i h
    have hdiv : (m : ℚ) * 2 ^ (e - q) = m / 2 ^ (q - e).toNat := by
      rw [← zpow_natCast, Int.toNat_of_nonneg (by omega), div_eq_mul_inv, ← zpow_neg, neg_sub]
    rw [hdiv]
    exact roundShift_nearest r m _

section
variable {w : ℚ} {c : Nat} (h : NearestEven w c)
include h

/-- No whole number is nearer, and where another is as near the one chosen is even. -/
theorem NearestEven.of_int (n : Int) : |w - c| ≤ |w - n| ∧ (|w - c| = |w - n| → (n : ℚ) ≠ c → c % 2 = 0) := by
  obtain ⟨hle, heven⟩ := h
  by_cases hn : (n : ℚ) = c
  · rw [hn]
    exact ⟨le_rfl, fun _ k => absurd rfl k⟩
  · have hone : (1 : ℚ) ≤ |(c : ℚ) - n| := by
      have hne : (c : Int) - n ≠ 0 := fun k => hn (by rw [sub_eq_zero] at k; rw [← k, Int.cast_natCast])
      exact_mod_cast Int.one_le_abs hne
    have htri : |(c : ℚ) - n| ≤ |w - c| + |w - n| := by
      have := abs_sub_le (c : ℚ) w n
      rwa [abs_sub_comm (c : ℚ) w] at this
    exact ⟨by linarith, fun k _ => heven (by linarith)⟩

/-- Nor is any number below a whole number that is not above `w`. -/
theorem NearestEven.of_below {B : Nat} (hB : (B : ℚ) ≤ w) {y : ℚ} (hy : |y| < B) : |w - c| < |w - y| := by
  have hcB := (h.of_int B).1
  have hyB := (abs_lt.mp hy).2
  rw [Int.cast_natCast, abs_of_nonneg (sub_nonneg.mpr hB)] at hcB
  have hwy : w - B < |w - y| := by
    rw [abs_of_pos (by linarith)]
    linarith
  exact hcB.trans_lt hwy

theorem NearestEven.le_of_lt {B : Nat} (hB : w < B) : c ≤ B := by
  have hlt : (c : ℚ) < B + 1 := by linarith [(abs_le.mp h.1).1]
  exact Nat.lt_succ_iff.mp (by exact_mod_cast hlt)

theorem NearestEven.le_of_le {B : Nat} (hB : (B : ℚ) ≤ w) : B ≤ c := by
  have hlt : (B : ℚ) < c + 1 := by linarith [(abs_le.mp h.1).2]
  exact Nat.lt_succ_iff.mp (by exact_mod_cast hlt)

end

/-! ### The numbers of a format (R45) -/

/-- A count in the place `j` above the smallest, in encodings. -/
theorem magCount_enc {f : FFmt} {c j : Nat} (hc : c ≤ 2 ^ (f.frac + 1)) (hj : j = 0 ∨ 2 ^ f.frac ≤ c) :
    magCount f (c + j * 2 ^ f.frac) = c * 2 ^ j := by
  have hpos : 0 < 2 ^ f.frac := by positivity
  rw [pow_succ] at hc
  unfold magCount sigOf stepOf
  generalize 2 ^ f.frac = p at hc hj hpos
  rcases Nat.lt_or_ge c p with hlt | hge
  · obtain rfl : j = 0 := hj.resolve_right (by omega)
    simp [Nat.div_eq_of_lt hlt, Nat.mod_eq_of_lt hlt]
  · obtain ⟨d, rfl⟩ := Nat.exists_eq_add_of_le hge
    rcases Nat.lt_or_ge d p with hd | hd
    · have hdiv : (p + d + j * p) / p = j + 1 := by
        rw [show p + d + j * p = d + (j + 1) * p by ring, Nat.add_mul_div_right _ _ hpos, Nat.div_eq_of_lt hd, Nat.zero_add]
      have hmod : (p + d + j * p) % p = d := by
        rw [show p + d + j * p = d + (j + 1) * p by ring, Nat.add_mul_mod_self_right, Nat.mod_eq_of_lt hd]
      simp [hdiv, hmod]
    · obtain rfl : d = p := by omega
      have hdiv : (d + d + j * d) / d = j + 2 := by
        rw [show d + d + j * d = (j + 2) * d by ring, Nat.mul_div_cancel _ hpos]
      have hmod : (d + d + j * d) % d = 0 := by
        rw [show d + d + j * d = (j + 2) * d by ring, Nat.mul_mod_left]
      simp only [hdiv, hmod]
      rw [if_neg (by omega), show j + 2 - 1 = j + 1 from rfl, pow_succ]
      ring

/-- A number of the format is a whole count in the place `j`, or lies below the significands of that place. -/
theorem magCount_grid (f : FFmt) (g j : Nat) : 2 ^ j ∣ magCount f g ∨ magCount f g < 2 ^ f.frac * 2 ^ j := by
  unfold magCount
  rcases Nat.lt_or_ge (stepOf f g) j with h | h
  · right
    calc sigOf f g * 2 ^ stepOf f g < 2 ^ (f.frac + 1) * 2 ^ stepOf f g :=
          Nat.mul_lt_mul_of_pos_right (sigOf_lt f g) (by positivity)
      _ = 2 ^ f.frac * 2 ^ (stepOf f g + 1) := by ring
      _ ≤ 2 ^ f.frac * 2 ^ j := Nat.mul_le_mul_left _ (Nat.pow_le_pow_right (by omega) h)
  · exact .inl (Dvd.dvd.mul_left (Nat.pow_dvd_pow 2 h) _)

/-! ### What rounding chooses (R49) -/

/-- The place that a value is rounded to, above the smallest of the format. -/
def placeOfRounding (f : FFmt) (m : Nat) (e : Int) : Nat := (e + Nat.log2 m - (1 - f.bias)).toNat

/-- A magnitude counted in the place that it is rounded to. -/
def inPlace (f : FFmt) (m : Nat) (e : Int) : ℚ := m * 2 ^ (e - (ulpExp f + placeOfRounding f m e))

theorem inPlace_mul (f : FFmt) (m : Nat) (e : Int) :
    inPlace f m e * 2 ^ placeOfRounding f m e * 2 ^ ulpExp f = m * 2 ^ e := by
  rw [inPlace, ← zpow_natCast, mul_assoc, mul_assoc, ← zpow_add₀ two_ne_zero, ← zpow_add₀ two_ne_zero]
  congr 2
  ring

theorem inPlace_lt (f : FFmt) {m : Nat} (e : Int) : inPlace f m e < (2 ^ (f.frac + 1) : Nat) := by
  have hm : (m : ℚ) < 2 ^ (Nat.log2 m + 1 : Int) := by exact_mod_cast Nat.lt_log2_self
  calc inPlace f m e < 2 ^ (Nat.log2 m + 1 : Int) * 2 ^ (e - (ulpExp f + placeOfRounding f m e)) :=
        mul_lt_mul_of_pos_right hm (by positivity)
    _ = 2 ^ (Nat.log2 m + 1 + (e - (ulpExp f + placeOfRounding f m e)) : Int) := (zpow_add₀ two_ne_zero _ _).symm
    _ ≤ 2 ^ ((f.frac + 1 : Nat) : Int) := zpow_le_zpow_right₀ one_le_two (by unfold ulpExp placeOfRounding; omega)
    _ = (2 ^ (f.frac + 1) : Nat) := by rw [zpow_natCast]; norm_cast

theorem le_inPlace {f : FFmt} {m : Nat} {e : Int} (hm : m ≠ 0) (h : placeOfRounding f m e ≠ 0) :
    ((2 ^ f.frac : Nat) : ℚ) ≤ inPlace f m e := by
  have hlog : (2 : ℚ) ^ (Nat.log2 m : Int) ≤ m := by exact_mod_cast Nat.log2_self_le hm
  calc ((2 ^ f.frac : Nat) : ℚ) = 2 ^ (f.frac : Int) := by rw [zpow_natCast]; norm_cast
    _ = 2 ^ (Nat.log2 m + (e - (ulpExp f + placeOfRounding f m e)) : Int) := by
        congr 1
        unfold placeOfRounding at h ⊢
        unfold ulpExp
        omega
    _ = 2 ^ (Nat.log2 m : Int) * 2 ^ (e - (ulpExp f + placeOfRounding f m e)) := zpow_add₀ two_ne_zero _ _
    _ ≤ inPlace f m e := mul_le_mul_of_nonneg_right hlog (by positivity)

/-- The encoding chosen counts the magnitude in its place, to nearest even. -/
theorem magEnc_nearest (f : FFmt) (r : Nat) {m : Nat} (e : Int) (hm : m ≠ 0) :
    ∃ c, magEnc f .rne r m e = c + placeOfRounding f m e * 2 ^ f.frac ∧ NearestEven (inPlace f m e) c ∧
      c ≤ 2 ^ (f.frac + 1) ∧ (placeOfRounding f m e = 0 ∨ 2 ^ f.frac ≤ c) := by
  have hq : max (e + Nat.log2 m) (1 - f.bias) - f.frac = ulpExp f + placeOfRounding f m e := by
    unfold ulpExp placeOfRounding
    omega
  have hplace : (ulpExp f + placeOfRounding f m e - (1 - f.bias - f.frac)).toNat = placeOfRounding f m e := by
    unfold ulpExp
    omega
  have hnear := roundTo_nearest r m e (ulpExp f + placeOfRounding f m e)
  refine ⟨roundTo .rne r m e (ulpExp f + placeOfRounding f m e), ?_, hnear, hnear.le_of_lt (inPlace_lt f e), ?_⟩
  · simp only [magEnc, hq, hplace]
  · by_cases h0 : placeOfRounding f m e = 0
    · exact .inl h0
    · exact .inr (hnear.le_of_le (le_inPlace hm h0))

theorem signQ_int (s : Bool) : ∃ n : Int, signQ s = n := by
  cases s with
  | false => exact ⟨1, by simp [signQ]⟩
  | true => exact ⟨-1, by simp [signQ]⟩

/-- A number of the format, in the place that a value is rounded to: a whole number, or below the significands of that place. -/
theorem grid_inPlace {f : FFmt} {m : Nat} {e : Int} (hm : m ≠ 0) (t : ℚ) (ht : |t| = 1) (hs : ∃ n : Int, t = n) (g : Nat) :
    (∃ n : Int, t * (magCount f g / 2 ^ placeOfRounding f m e) = n) ∨
      ((2 ^ f.frac : Nat) : ℚ) ≤ inPlace f m e ∧ |t * (magCount f g / 2 ^ placeOfRounding f m e)| < (2 ^ f.frac : Nat) := by
  have hpos : (0 : ℚ) < 2 ^ placeOfRounding f m e := by positivity
  rcases magCount_grid f g (placeOfRounding f m e) with ⟨k, hk⟩ | hlt
  · obtain ⟨n, rfl⟩ := hs
    refine .inl ⟨n * k, ?_⟩
    rw [hk]
    push_cast
    rw [mul_div_cancel_left₀ _ hpos.ne']
  · by_cases h0 : placeOfRounding f m e = 0
    · obtain ⟨n, rfl⟩ := hs
      refine .inl ⟨n * magCount f g, ?_⟩
      rw [h0]
      push_cast
      ring
    · refine .inr ⟨le_inPlace hm h0, ?_⟩
      rw [abs_mul, ht, one_mul, abs_of_nonneg (by positivity), div_lt_iff₀ hpos]
      exact_mod_cast hlt

/-- A count to nearest even in a place against a whole number or one below the significands. -/
theorem NearestEven.of_grid {w y : ℚ} {c B : Nat} (h : NearestEven w c) (hy : (∃ n : Int, y = n) ∨ (B : ℚ) ≤ w ∧ |y| < B) :
    |w - c| ≤ |w - y| ∧ (|w - c| = |w - y| → y ≠ c → c % 2 = 0) := by
  rcases hy with ⟨n, rfl⟩ | ⟨hB, hlt⟩
  · exact h.of_int n
  · have hlt := h.of_below hB hlt
    exact ⟨hlt.le, fun k => absurd k hlt.ne⟩

/-- The pattern chosen is nearest to the value, and even where another number of the format is as near. -/
def NearestPattern (f : FFmt) (v : ℚ) (x y : Nat) : Prop :=
  |v - (fval f x).toRat| ≤ |v - (fval f y).toRat| ∧
    (|v - (fval f x).toRat| = |v - (fval f y).toRat| → (fval f y).toRat ≠ (fval f x).toRat → x % 2 = 0)

/-- Two distances from a value compare as the counts do from its magnitude in its place. -/
theorem dist_inPlace (f : FFmt) (s : Bool) (m : Nat) (e : Int) (y : ℚ) :
    |signQ s * m * 2 ^ e - signQ s * (y * 2 ^ placeOfRounding f m e * 2 ^ ulpExp f)| =
      |inPlace f m e - y| * (2 ^ placeOfRounding f m e * 2 ^ ulpExp f) := by
  rw [mul_assoc, ← inPlace_mul f m e, ← mul_sub, abs_mul, abs_signQ, one_mul, ← sub_mul, ← sub_mul, abs_mul, abs_mul,
    abs_of_pos (show (0 : ℚ) < 2 ^ placeOfRounding f m e by positivity), abs_of_pos (show (0 : ℚ) < 2 ^ ulpExp f by positivity),
    mul_assoc]

theorem even_withSign {f : FFmt} {s : Bool} {g : Nat} (h : g % 2 = 0) : withSign f s g % 2 = 0 := by
  cases s with
  | false => exact h
  | true =>
    have hw : 2 ^ (f.width - 1) % 2 = 0 := by cases f <;> decide
    rw [withSign, if_pos rfl, Nat.add_mod, h, hw]

/-- A magnitude that does not overflow is rounded to nearest even. -/
theorem magEnc_nearestPattern {f : FFmt} {s : Bool} {m y : Nat} {e : Int} (hm : m ≠ 0) (hle : magEnc f .rne 0 m e ≤ f.maxEnc)
    (hfin : (fval f (withSign f s (magEnc f .rne 0 m e))).isFin = true) (hy : (fval f y).isFin = true) :
    NearestPattern f (FVal.fin s m e).toRat (withSign f s (magEnc f .rne 0 m e)) y := by
  have hlt := hle.trans_lt (maxEnc_lt f)
  obtain ⟨c, henc, hnear, hc, hplace⟩ := magEnc_nearest f 0 e hm
  have hx : (fval f (withSign f s (magEnc f .rne 0 m e))).toRat = signQ s * (c * 2 ^ placeOfRounding f m e * 2 ^ ulpExp f) := by
    rw [fval_toRat hfin, signOf_withSign hlt, magOf_withSign hlt, henc, magCount_enc hc hplace]
    push_cast
    ring
  have hyv : (fval f y).toRat = signQ s * (signQ s * signQ (signOf f y) * (magCount f (magOf f y) / 2 ^ placeOfRounding f m e) *
      2 ^ placeOfRounding f m e * 2 ^ ulpExp f) := by
    have hdiv : (magCount f (magOf f y) : ℚ) / 2 ^ placeOfRounding f m e * 2 ^ placeOfRounding f m e = magCount f (magOf f y) :=
      div_mul_cancel₀ _ (by positivity)
    rw [fval_toRat hy, mul_assoc (signQ s * _) _ _, hdiv, ← mul_assoc, ← mul_assoc, ← mul_assoc, signQ_mul_self, one_mul]
  have hgrid := grid_inPlace (f := f) (e := e) hm (signQ s * signQ (signOf f y)) (by rw [abs_mul, abs_signQ, abs_signQ, one_mul])
    (signQ_bne s (signOf f y) ▸ signQ_int _) (magOf f y)
  obtain ⟨hdist, htie⟩ := hnear.of_grid hgrid
  have hpos : (0 : ℚ) < 2 ^ placeOfRounding f m e * 2 ^ ulpExp f := by positivity
  unfold NearestPattern
  rw [toRat_fin, hx, hyv, dist_inPlace, dist_inPlace]
  refine ⟨mul_le_mul_of_nonneg_right hdist hpos.le, fun heq hne => even_withSign ?_⟩
  have hceven := htie (mul_right_cancel₀ hpos.ne' heq) fun k => hne (by rw [k])
  have hfrac : 2 ^ f.frac % 2 = 0 := by cases f <;> decide
  rw [henc, Nat.add_mod, hceven, Nat.mul_mod, hfrac, Nat.mul_zero]

/-! ### Overflow of e2m1 (R50) -/

/-- A magnitude whose encoding passes e2m1's largest is none below it. -/
theorem six_le_of_overflow {m : Nat} {e : Int} (hm : m ≠ 0) (h : 7 < magEnc .e2m1 .rne 0 m e) : (6 : ℚ) ≤ m * 2 ^ e := by
  obtain ⟨c, henc, hnear, hc, -⟩ := magEnc_nearest .e2m1 0 e hm
  have hmul := inPlace_mul .e2m1 m e
  have hlow := fun h0 => le_inPlace (f := .e2m1) (e := e) hm h0
  have hulp : ulpExp .e2m1 = -1 := by decide
  rw [henc] at h
  rw [← hmul, hulp]
  generalize placeOfRounding .e2m1 m e = j at h hlow ⊢
  generalize inPlace .e2m1 m e = w at hnear hlow ⊢
  simp only [FFmt.frac] at h hc hlow
  by_contra hlt
  have hw : w * 2 ^ j < 12 := by
    rw [zpow_neg, zpow_one] at hlt
    linarith
  have hj : j ≤ 2 := by
    by_contra hj
    have h2 := hlow (by omega)
    have h8 : (2 : ℚ) ^ 3 ≤ 2 ^ j := pow_le_pow_right₀ one_le_two (by omega)
    norm_num at h2
    nlinarith
  obtain rfl : j = 2 := by omega
  have h3 : c ≤ 3 := hnear.le_of_lt (by push_cast; linarith)
  omega

theorem fval_e2m1_le {y : Nat} : (fval .e2m1 y).isFin = true → |(fval .e2m1 y).toRat| ≤ 6 := by
  intro h
  have hmax := (fval_of_isFin h).2
  rw [fval_toRat h, abs_mul, abs_mul, abs_signQ, one_mul]
  have hulp : ulpExp .e2m1 = -1 := by decide
  have hcount : ∀ g ≤ 7, magCount .e2m1 g ≤ 12 := by decide
  have hle : (magCount .e2m1 (magOf .e2m1 y) : ℚ) ≤ 12 := by exact_mod_cast hcount _ hmax
  rw [hulp, Nat.abs_cast, zpow_neg, zpow_one, abs_of_pos (by norm_num)]
  linarith

/-- In e2m1 a magnitude that overflows is rounded to the largest, the only one of its nearest. -/
theorem overflow_nearestPattern {s : Bool} {m y : Nat} {e : Int} (hm : m ≠ 0) (h : 7 < magEnc .e2m1 .rne 0 m e)
    (hy : (fval .e2m1 y).isFin = true) : NearestPattern .e2m1 (FVal.fin s m e).toRat (withSign .e2m1 s 7) y := by
  have hsix := six_le_of_overflow hm h
  obtain ⟨hlo, hhi⟩ := abs_le.mp (fval_e2m1_le hy)
  have hx : (fval .e2m1 (withSign .e2m1 s 7)).toRat = signQ s * 6 := by
    have hval : fval .e2m1 (withSign .e2m1 s 7) = .fin s 3 1 := by cases s <;> decide
    rw [hval, toRat_fin]
    norm_num
    ring
  unfold NearestPattern
  rw [toRat_fin, hx, mul_assoc]
  generalize (m : ℚ) * 2 ^ e = w at hsix ⊢
  generalize (fval .e2m1 y).toRat = z at hlo hhi ⊢
  have hle : signQ s * z ≤ 6 := by
    calc signQ s * z ≤ |signQ s * z| := le_abs_self _
      _ = |z| := by rw [abs_mul, abs_signQ, one_mul]
      _ ≤ 6 := abs_le.mpr ⟨hlo, hhi⟩
  have hdist : |signQ s * w - signQ s * 6| = w - 6 := by
    rw [← mul_sub, abs_mul, abs_signQ, one_mul, abs_of_nonneg (by linarith)]
  have hz : |signQ s * w - z| = w - signQ s * z := by
    have hfactor : signQ s * w - z = signQ s * (w - signQ s * z) := by rw [mul_sub, ← mul_assoc, signQ_mul_self, one_mul]
    rw [hfactor, abs_mul, abs_signQ, one_mul, abs_of_nonneg (by linarith)]
  rw [hdist, hz]
  refine ⟨by linarith, fun heq hne => absurd ?_ hne⟩
  have hsz : signQ s * z = 6 := by linarith
  rw [← hsz, ← mul_assoc, signQ_mul_self, one_mul]

/-- An overflow of another format is no finite value. -/
theorem overflow_not_finite {f : FFmt} (hf : f ≠ .e2m1) (s : Bool) : (fval f (overflowEnc f .rne s)).isFin = false := by
  cases f with
  | e2m1 => exact absurd rfl hf
  | _ => cases s <;> decide

theorem rne_nearestPattern {f : FFmt} {v : FVal} {y : Nat} (hv : v.isFin = true) (hy : (fval f y).isFin = true)
    (hx : (fval f (rne f v)).isFin = true) : NearestPattern f v.toRat (rne f v) y := by
  obtain ⟨s, m, e, rfl⟩ := exists_of_isFin hv
  unfold rne fround at hx ⊢
  by_cases hm : m = 0
  · simp only [if_pos hm] at hx ⊢
    have hlt : 0 < 2 ^ (f.width - 1) := by positivity
    have hcount : magCount f 0 = 0 := by simp [magCount, sigOf]
    have hval : (fval f (withSign f s 0)).toRat = 0 := by
      rw [fval_toRat hx, magOf_withSign hlt, hcount]
      ring
    have hzero : (FVal.fin s m e).toRat = 0 := by
      rw [hm, toRat_fin]
      ring
    rw [NearestPattern, hval, hzero, sub_zero, abs_zero]
    exact ⟨abs_nonneg _, fun h hne => absurd (by simpa using h.symm) hne⟩
  · simp only [if_neg hm] at hx ⊢
    by_cases hover : magEnc f .rne 0 m e > f.maxEnc
    · rw [if_pos hover] at hx ⊢
      by_cases hf : f = .e2m1
      · subst hf
        exact overflow_nearestPattern hm hover hy
      · rw [overflow_not_finite hf] at hx
        cases hx
    · rw [if_neg hover] at hx ⊢
      exact magEnc_nearestPattern hm (not_lt.mp hover) hx hy

/-- Settles O17: a value is counted in the place that it is rounded to, where every number of the format is whole or lies below the
significands; the count chosen is the nearest, and the encoding's last bit is the count's. -/
theorem floatArithmeticAndRounding : Obligations.FloatArithmeticAndRounding := by
  unfold Obligations.FloatArithmeticAndRounding
  refine ⟨fun x y hx hy => ⟨fadd_toRat hx hy, fsub_toRat hx hy, fmul_toRat hx hy, fscale_toRat hx, flt_iff hx hy, feq_iff hx hy⟩,
    fun f x mode r hx h => fround_fval mode r hx h, fun f v y hv _ hy hx => rne_nearestPattern hv hy hx⟩

end Sys2Proof.Proofs
end

