-- ==== Sys2Proof/Proofs/StoredBytes.lean ====
section
/-! PROOFS. Memory's canonical form at reset, and what storing bytes does to memory, to the watch table and to the order (R59, R175,
R190, R206, R211, R224, R242). -/

namespace Sys2Proof.Proofs

open Sys2Proof.Machine Sys2Proof.Laws

/-! ### Reset (R242; log 1) -/

theorem noImage_reset {i : Image} : State.reset.mod.image ≠ some i := nofun

theorem memoryInv_reset : MemoryInv State.reset :=
  ⟨reset_memory_wf, rfl, fun _ h => absurd h List.not_mem_nil, fun _ h => absurd h noImage_reset⟩

theorem tiles_reset (i : Fin 64) : State.reset.core.tiles[i.val] = none := by revert i; decide

theorem tilesInv_reset : TilesInv State.reset := by
  refine ⟨fun i x h => ?_, fun _ h => absurd h List.not_mem_nil, fun _ h => absurd h noImage_reset⟩
  rw [tiles_reset i] at h
  cases h

/-- Settles O8: both lists of the reset memory are canonical, nothing is saved, and no slot of the tile table is configured. -/
theorem resetMemoryIsCanonical : Obligations.ResetMemoryIsCanonical := by
  unfold Obligations.ResetMemoryIsCanonical
  exact ⟨memoryInv_reset, tilesInv_reset, tiles_reset⟩

/-! ### Watches of words written (R190) -/

theorem setTileBits_watch (s : State) (t : Nat) (u p : Bool) : (setTileBits s t u p).core.watch = s.core.watch := by
  unfold setTileBits
  split
  · split <;> rfl
  · split <;> rfl

theorem storeIntoSlot_watch (old : State) (hit : Nat → Bool) (s : State) (t : Nat) :
    (storeIntoSlot old hit s t).core.watch = s.core.watch := by
  unfold storeIntoSlot
  split
  · rfl
  · split
    · rfl
    · dsimp only
      split
      · rfl
      · split
        · rfl
        · exact setTileBits_watch ..

theorem foldl_storeIntoSlot_watch (old : State) (hit : Nat → Bool) (l : List Nat) (s : State) :
    (l.foldl (storeIntoSlot old hit) s).core.watch = s.core.watch := by
  induction l generalizing s with
  | nil => rfl
  | cons t l ih => rw [List.foldl_cons, ih, storeIntoSlot_watch]

theorem foldl_notice_core (l : List (Fin 8)) (s : State) :
    (l.foldl (fun s c => s.setCtx c { s.ctx c with notice := true }) s).core = s.core := by
  induction l generalizing s with
  | nil => rfl
  | cons c l ih => rw [List.foldl_cons, ih, setCtx_core]

/-- An entry whose word a write touches has fired. -/
theorem fireWatches_fired {s : State} {loc n : Nat} {i : Fin 8} {e : WatchEntry} (hn : n ≠ 0) (he : s.core.watch[i.val] = some e)
    (hlo : loc < e.loc + 4) (hhi : e.loc < loc + n) :
    (fireWatches s loc n).core.watch[i.val] = some { e with fired := true } := by
  unfold fireWatches
  rw [if_neg hn]
  simp only [foldl_notice_core]
  simp [he, watchHit, hlo, hhi]

theorem store_fired {s : State} {loc : Nat} {bs : List Byte} {i : Fin 8} {e : WatchEntry} (hbs : bs ≠ [])
    (he : s.core.watch[i.val] = some e) (hlo : loc < e.loc + 4) (hhi : e.loc < loc + bs.length) :
    (store s loc bs).core.watch[i.val] = some { e with fired := true } := by
  have hlen : bs.length ≠ 0 := fun h => hbs (List.length_eq_zero_iff.mp h)
  simp only [store, foldl_storeIntoSlot_watch]
  exact fireWatches_fired hlen he hlo hhi

/-! ### A store does not look at the order (R175, R211) -/

/-- The state with another order of its writes. -/
def withOrder (v : Visibility) (u : Bool) (s : State) : State := { s with vis := v, unacked := u }

section order
variable (v : Visibility) (u : Bool)

theorem notices_withOrder (l : List (Fin 8)) (s : State) :
    l.foldl (fun s c => s.setCtx c { s.ctx c with notice := true }) (withOrder v u s) =
      withOrder v u (l.foldl (fun s c => s.setCtx c { s.ctx c with notice := true }) s) := by
  induction l generalizing s with
  | nil => rfl
  | cons c l ih => exact ih (s.setCtx c { s.ctx c with notice := true })

theorem fireWatches_withOrder (s : State) (loc n : Nat) :
    fireWatches (withOrder v u s) loc n = withOrder v u (fireWatches s loc n) := by
  unfold fireWatches
  split
  · rfl
  · exact notices_withOrder v u _ { s with core := { s.core with watch := _ } }

theorem poke_withOrder (s : State) (loc : Nat) (bs : List Byte) : poke (withOrder v u s) loc bs = withOrder v u (poke s loc bs) := by
  unfold poke
  exact fireWatches_withOrder v u { setBytes s loc bs with poison := _ } loc bs.length

theorem setTileBits_withOrder (s : State) (t : Nat) (a b : Bool) :
    setTileBits (withOrder v u s) t a b = withOrder v u (setTileBits s t a b) := by
  unfold setTileBits
  split
  · rw [show (withOrder v u s).core = s.core from rfl]
    cases s.core.tiles[t] <;> rfl
  · split <;> rfl

theorem storeIntoSlot_withOrder (old : State) (hit : Nat → Bool) (s : State) (t : Nat) :
    storeIntoSlot (withOrder v u old) hit (withOrder v u s) t = withOrder v u (storeIntoSlot old hit s t) := by
  have hslot : tileSlot (withOrder v u s) t = tileSlot s t := rfl
  have hbroken : boltBroken (withOrder v u old) t = boltBroken old t := rfl
  unfold storeIntoSlot
  rw [hslot]
  cases tileSlot s t with
  | none => rfl
  | some x =>
    dsimp only
    rw [hbroken]
    split
    · rfl
    · split
      · rfl
      · split
        · rfl
        · exact setTileBits_withOrder ..

theorem store_withOrder (s : State) (loc : Nat) (bs : List Byte) : store (withOrder v u s) loc bs = withOrder v u (store s loc bs) := by
  unfold store
  rw [poke_withOrder]
  exact List.foldl_hom (withOrder v u) (g₁ := storeIntoSlot s _) (g₂ := storeIntoSlot (withOrder v u s) _)
    fun _ _ => storeIntoSlot_withOrder v u _ _ _ _

theorem storeRuns_withOrder (s : State) (runs : List (Nat × Nat)) (bs : List Byte) :
    storeRuns (withOrder v u s) runs bs = withOrder v u (storeRuns s runs bs) := by
  induction runs generalizing s bs with
  | nil => rfl
  | cons r runs ih => rw [storeRuns, storeRuns, store_withOrder, ih]

end order

theorem noteAs_eq (s : State) (w : Write) (locs : List Nat) : noteAs s w locs = withOrder (noteAs s w locs).vis s.unacked s := by
  unfold noteAs
  dsimp only
  split <;> rfl

theorem noteStore_eq (s : State) (c : Fin 8) (m : AtMode) (r : Bool) (locs : List Nat) :
    noteStore s c m r locs = withOrder (noteStore s c m r locs).vis (noteStore s c m r locs).unacked s := by
  unfold noteStore
  dsimp only
  rw [noteAs_eq]
  rfl

/-- A context's store leaves memory as the plain store of its bytes. -/
theorem ctxStoreAs_mem (s : State) (m : AtMode) (r : Bool) (runs : List (Nat × Nat)) (bs : List Byte) :
    (ctxStoreAs s m r runs bs).mem = (storeRuns s runs bs).mem := by
  unfold ctxStoreAs
  rw [noteStore_eq, storeRuns_withOrder]
  rfl

/-! ### What may still be read after a write (R206, R211) -/

theorem tidy_unseen (v : Visibility) : v.tidy.unseen = v.unseen.filter fun u => !u.readers.isEmpty := by
  unfold Visibility.tidy
  dsimp only
  split
  · rename_i h
    exact (List.isEmpty_iff.mp h).symm
  · rfl

/-- Who may read on has learnt of the writes to some locations: a context but for the one that knows them all. -/
def learnt (v : Visibility) (a : Agent) (locs : List Nat) (u : Unseen) : Unseen :=
  if v.unseen.any fun w => locs.contains w.loc && decide (w.loc = u.loc) && decide (u.stamp ≤ w.stamp) then
    { u with readers := without u.readers a } else u

theorem learn_unseen (v : Visibility) (a : Agent) (locs : List Nat) :
    (v.learn a false fun u => locs.contains u.loc).unseen = v.unseen.map (learnt v a locs) := rfl

section learnt
variable {v : Visibility} {a : Agent} {locs : List Nat} {u : Unseen}

@[simp] theorem learnt_loc : (learnt v a locs u).loc = u.loc := by unfold learnt; split <;> rfl

@[simp] theorem learnt_old : (learnt v a locs u).old = u.old := by unfold learnt; split <;> rfl

theorem learnt_known (hu : u ∈ v.unseen) (h : u.loc ∈ locs) : (learnt v a locs u).knownTo a = true := by
  have hany : (v.unseen.any fun w => locs.contains w.loc && decide (w.loc = u.loc) && decide (u.stamp ≤ w.stamp)) = true :=
    List.any_eq_true.mpr ⟨u, hu, by simp [h]⟩
  unfold learnt
  rw [if_pos hany]
  simp [Unseen.knownTo, without]

theorem learnt_outside (h : u.loc ∉ locs) : learnt v a locs u = u := by
  have hany : (v.unseen.any fun w => locs.contains w.loc && decide (w.loc = u.loc) && decide (u.stamp ≤ w.stamp)) = false := by
    rw [List.any_eq_false]
    intro w _ hw
    simp only [Bool.and_eq_true, List.contains_iff_mem, decide_eq_true_eq] at hw
    obtain ⟨⟨hin, heq⟩, -⟩ := hw
    exact h (heq ▸ hin)
  unfold learnt
  rw [hany]
  rfl

/-- What one agent learns no other does. -/
theorem learnt_other {b : Agent} (hb : b ≠ a) : (learnt v a locs u).knownTo b = u.knownTo b := by
  unfold learnt
  split
  · simp [Unseen.knownTo, without, hb]
  · rfl

end learnt

/-- The writes that an agent's write of locations adds to those that may be read past. -/
def newUnseen (s : State) (w : Write) (locs : List Nat) : List Unseen :=
  if w.readers.isEmpty || locs.isEmpty then [] else
    let v := s.vis.learn w.agent false fun u => locs.contains u.loc
    locs.map fun l =>
      { stamp := v.count + 1, unit := w.unit l, loc := l, old := Memory.get s.mem l,
        heads := (if Order.releases w.order then v.carry (v.count + 1) w.knows else v).headsAt l,
        owner := w.agent, readers := w.readers, firm := if w.order = .rlx then [] else [w.agent], ended := [],
        carried := if Order.releases w.order then [v.count + 1] else [] }

theorem noteAs_unseen {s : State} {w : Write} {locs : List Nat} (h : Order.releases w.order = false) :
    (noteAs s w locs).vis.unseen =
      (s.vis.unseen.map (learnt s.vis w.agent locs) ++ newUnseen s w locs).filter fun u => !u.readers.isEmpty := by
  unfold noteAs newUnseen
  dsimp only
  split
  · rw [tidy_unseen, learn_unseen, List.append_nil]
  · rw [tidy_unseen, h]
    rfl

/-- Whether a context may read past a write to a location. -/
def readsPast (c : Fin 8) (l : Nat) (u : Unseen) : Bool := decide (u.loc = l) && !u.knownTo (.ctx c)

theorem find_readsPast_filter (c : Fin 8) (l : Nat) (us : List Unseen) :
    (us.filter fun u => !u.readers.isEmpty).find? (readsPast c l) = us.find? (readsPast c l) := by
  rw [List.find?_filter]
  congr 1
  funext u
  unfold readsPast Unseen.knownTo
  cases u.readers <;> simp

/-- After a relaxed write a context may read past the writes that it could read past before, and past this one. -/
theorem oldFor_noteAs {s : State} {w : Write} {locs : List Nat} (h : Order.releases w.order = false) (c : Fin 8) (l : Nat) :
    oldFor (noteAs s w locs) c l =
      (((s.vis.unseen.map (learnt s.vis w.agent locs)).find? (readsPast c l)).or
        ((newUnseen s w locs).find? (readsPast c l))).map fun u => u.old := by
  show ((noteAs s w locs).vis.unseen.find? (readsPast c l)).map _ = _
  rw [noteAs_unseen h, find_readsPast_filter, List.find?_append]

section oldFor
variable {s : State} {w : Write} {locs : List Nat} {c : Fin 8} {l : Nat}

theorem newUnseen_loc {u : Unseen} (h : u ∈ newUnseen s w locs) :
    u.loc ∈ locs ∧ u.old = Memory.get s.mem u.loc ∧ u.readers = w.readers := by
  unfold newUnseen at h
  split at h
  · cases h
  · obtain ⟨l, hl, rfl⟩ := List.mem_map.mp h
    exact ⟨hl, rfl, rfl⟩

/-- At other bytes a context may read what it might before. -/
theorem oldFor_noteAs_outside (h : Order.releases w.order = false) (hl : l ∉ locs) : oldFor (noteAs s w locs) c l = oldFor s c l := by
  have hnew : (newUnseen s w locs).find? (readsPast c l) = none := by
    rw [List.find?_eq_none]
    intro u hu hpast
    simp only [readsPast, Bool.and_eq_true, decide_eq_true_eq] at hpast
    exact hl (hpast.1 ▸ (newUnseen_loc hu).1)
  have hsame : ∀ u : Unseen, readsPast c l (learnt s.vis w.agent locs u) = readsPast c l u := by
    intro u
    by_cases hu : u.loc = l
    · rw [learnt_outside (hu ▸ hl)]
    · simp [readsPast, hu]
  rw [oldFor_noteAs h, hnew, Option.or_none, List.find?_map]
  simp only [Function.comp_def, hsame, Option.map_map, learnt_old]
  rfl

/-- The writer reads its own write. -/
theorem oldFor_noteAs_writer (h : Order.releases w.order = false) (hw : w.agent = .ctx c) (hr : Agent.ctx c ∉ w.readers)
    (hl : l ∈ locs) : oldFor (noteAs s w locs) c l = none := by
  rw [oldFor_noteAs h, Option.map_eq_none_iff, Option.or_eq_none_iff, List.find?_eq_none, List.find?_eq_none]
  refine ⟨fun u hu hpast => ?_, fun u hu hpast => ?_⟩ <;>
    simp only [readsPast, Bool.and_eq_true, decide_eq_true_eq, Bool.not_eq_true'] at hpast <;> obtain ⟨hloc, hknown⟩ := hpast
  · obtain ⟨x, hx, rfl⟩ := List.mem_map.mp hu
    rw [learnt_loc] at hloc
    rw [← hw, learnt_known hx (hloc ▸ hl)] at hknown
    cases hknown
  · simp [Unseen.knownTo, (newUnseen_loc hu).2.2, hr] at hknown

theorem find_learnt_other (hc : Agent.ctx c ≠ w.agent) :
    ((s.vis.unseen.map (learnt s.vis w.agent locs)).find? (readsPast c l)).map (fun u => u.old) = oldFor s c l := by
  have hsame : ∀ u : Unseen, readsPast c l (learnt s.vis w.agent locs u) = readsPast c l u := fun u => by
    simp [readsPast, learnt_other hc]
  rw [List.find?_map]
  simp only [Function.comp_def, hsame, Option.map_map, learnt_old]
  rfl

/-- What another context may read of before it may go on reading. -/
theorem oldFor_noteAs_kept {v : Byte} (h : Order.releases w.order = false) (hc : Agent.ctx c ≠ w.agent) (hv : oldFor s c l = some v) :
    oldFor (noteAs s w locs) c l = some v := by
  have hfind := (find_learnt_other (locs := locs) hc).trans hv
  rw [oldFor_noteAs h]
  obtain ⟨u, hu, hold⟩ := Option.map_eq_some_iff.mp hfind
  rw [hu, Option.some_or, Option.map_some, hold]

/-- Another context may read on what stood at a byte written, where it could read nothing older. -/
theorem oldFor_noteAs_reader (h : Order.releases w.order = false) (hc : Agent.ctx c ≠ w.agent) (hr : Agent.ctx c ∈ w.readers)
    (hl : l ∈ locs) (hv : oldFor s c l = none) : oldFor (noteAs s w locs) c l = some (Memory.get s.mem l) := by
  have hfind := Option.map_eq_none_iff.mp ((find_learnt_other (locs := locs) hc).trans hv)
  have hne : (w.readers.isEmpty || locs.isEmpty) = false := by
    cases hw : w.readers with
    | nil => rw [hw] at hr; cases hr
    | cons a r =>
      cases locs with
      | nil => cases hl
      | cons b q => rfl
  have hmem : ∃ u ∈ newUnseen s w locs, readsPast c l u = true := by
    unfold newUnseen
    rw [hne]
    exact ⟨_, List.mem_map.mpr ⟨l, hl, rfl⟩, by simp [readsPast, Unseen.knownTo, hr]⟩
  obtain ⟨u, hu⟩ := Option.isSome_iff_exists.mp (List.find?_isSome.mpr hmem)
  have hpast := List.find?_some hu
  simp only [readsPast, Bool.and_eq_true, decide_eq_true_eq] at hpast
  rw [oldFor_noteAs h, hfind, Option.none_or, hu, Option.map_some, (newUnseen_loc (List.mem_of_find?_eq_some hu)).2.1, hpast.1]

end oldFor

/-! ### An ordinary store (R206) -/

/-- An ordinary store of a context as the order sees it. -/
def plainWrite (s : State) : Write :=
  { agent := .ctx s.cur, reach := .core, order := .rlx, storage := .all, rmw := false,
    knows := fun u => u.behind (.ctx s.cur) .all, readers := otherAgents s (.ctx s.cur), unit := fun l => l / 8 }

theorem ctxStore_vis (s : State) (runs : List (Nat × Nat)) (bs : List Byte) :
    (ctxStore s runs bs).vis = (noteAs s (plainWrite s) (runLocs runs)).vis := (ctxStoreAs_frame s plainMode false runs bs).vis

theorem ctxStore_unacked (s : State) (runs : List (Nat × Nat)) (bs : List Byte) :
    (ctxStore s runs bs).unacked = (s.unacked || (runLocs runs).any fun l => decide (gwinLoc ≤ l)) :=
  (ctxStoreAs_frame s plainMode false runs bs).unacked

theorem oldFor_ctxStore (s : State) (runs : List (Nat × Nat)) (bs : List Byte) (c : Fin 8) (l : Nat) :
    oldFor (ctxStore s runs bs) c l = oldFor (noteAs s (plainWrite s) (runLocs runs)) c l := by
  unfold oldFor
  rw [ctxStore_vis]

theorem mem_runLocs_one {loc n l : Nat} : l ∈ runLocs [(loc, n)] ↔ loc ≤ l ∧ l < loc + n := by
  simp only [runLocs, List.map_cons, List.map_nil, List.flatten_cons, List.flatten_nil, List.append_nil, List.mem_map, List.mem_range]
  constructor
  · rintro ⟨i, hi, rfl⟩
    omega
  · exact fun h => ⟨l - loc, by omega, by omega⟩

theorem mem_otherAgents {s : State} {c : Fin 8} {a : Agent} (hlive : (s.ctx c).live = true) (hc : Agent.ctx c ≠ a) :
    Agent.ctx c ∈ otherAgents s a := by
  have hslot : c ∈ slots.filter fun c => (s.ctx c).live := List.mem_filter.mpr ⟨mem_slots c, hlive⟩
  exact List.mem_filter.mpr ⟨List.mem_append_left _ (List.mem_map_of_mem hslot), by simp [hc]⟩

theorem not_mem_otherAgents (s : State) (a : Agent) : a ∉ otherAgents s a := by simp [otherAgents]

/-- A store waits for its acknowledgement where it leaves the core (R212). -/
theorem unacked_one {loc n : Nat} (h : ¬ (loc < gwinLoc ∧ gwinLoc < loc + n)) :
    ((runLocs [(loc, n)]).any fun l => decide (gwinLoc ≤ l)) = decide (gwinLoc ≤ loc ∧ n ≠ 0) := by
  rw [Bool.eq_iff_iff, List.any_eq_true, decide_eq_true_eq]
  constructor
  · rintro ⟨l, hl, hge⟩
    have hl := mem_runLocs_one.mp hl
    have hge := of_decide_eq_true hge
    omega
  · rintro ⟨hge, hn⟩
    exact ⟨loc, mem_runLocs_one.mpr (by omega), decide_eq_true hge⟩

/-- Settles O27: a store's bytes and watches by the lemmas of `store`, and the order by what a write adds to the list of those that
may be read past. -/
theorem storedBytesReadBack : Obligations.StoredBytesReadBack := by
  unfold Obligations.StoredBytesReadBack
  refine ⟨fun s loc bs hinv hbs hloc => ?_, fun s loc bs => ?_⟩
  · have hframe := store_frame s loc bs
    have hkeeps := store_keeps s loc bs
    refine ⟨store_bytes hinv.1 rfl hloc, fun a ha hbeside => ?_, hframe.tags, hframe.descs,
      fun i e he hlo hhi => store_fired hbs he hlo hhi, fun c => ?_⟩
    · exact (store_get hbeside s loc bs).trans (memory_get_putBytes_outside ha)
    · rw [hkeeps.ctx c]
      exact ⟨rfl, rfl, rfl, rfl⟩
  · have hother : ∀ {c : Fin 8}, c ≠ s.cur → Agent.ctx c ≠ (plainWrite s).agent := fun hc h => hc (Agent.ctx.inj h)
    have hin : ∀ {k}, k < bs.length → loc + k ∈ runLocs [(loc, bs.length)] := fun hk => mem_runLocs_one.mpr (by omega)
    simp only [oldFor_ctxStore]
    refine ⟨ctxStoreAs_mem .., fun k hk => oldFor_noteAs_writer rfl rfl (not_mem_otherAgents s _) (hin hk),
      fun c k hc hlive hk hold => oldFor_noteAs_reader rfl (hother hc) (mem_otherAgents hlive (hother hc)) (hin hk) hold,
      fun c k v hc hold => oldFor_noteAs_kept rfl (hother hc) hold,
      fun c l hl => oldFor_noteAs_outside rfl fun hmem => ?_, ?_⟩
    · have := mem_runLocs_one.mp hmem
      omega
    · by_cases hstraddle : loc < gwinLoc ∧ gwinLoc < loc + bs.length
      · exact .inr hstraddle
      · rw [ctxStore_unacked, unacked_one hstraddle]
        simp

end Sys2Proof.Proofs
end

