-- ==== Sys2Proof/Proofs/AddressChecks.lean ====
section
/-! PROOFS. Which bytes an access reaches and which fault it takes (R58, R173, R174, R311). -/

namespace Sys2Proof.Proofs

open Sys2Proof.Machine Sys2Proof.Laws

/-! ### Checks in order (R174) -/

@[simp] theorem andThen_ok {α β : Type} (a : α) (f : α → Chk β) : Chk.andThen (.ok a) f = f a := rfl

@[simp] theorem andThen_error {α β : Type} (e : Flt) (f : α → Chk β) : Chk.andThen (.error e : Chk α) f = .error e := rfl

theorem boltTest_one {s : State} {loc n : Nat} (h : touchesPoisonedTile s loc n = false) (a : Nat) :
    boltTest s [(loc, n)] a = .ok () := by simp [boltTest, demand, h]

/-- An access of a range outside translated memory whose location is one run. -/
def DirectRegion (r : Region) : Prop := r = .spad ∨ r = .gwin

theorem locate_direct {r : Region} (h : DirectRegion r) (s : State) (a n : Nat) (w : Bool) :
    locate s r a n w = .ok [(directLoc s r a, n)] := by
  rcases h with rfl | rfl <;> rfl

section
variable {s : State} {a n : Nat} {r : Region}

/-- A write past the checks of its range ends as the test of its peer does. -/
theorem checkWrite_direct (h : DirectRegion r) (hr : checkRange s a n true = .ok r) :
    checkWrite s a n = (peerTest s a).andThen fun _ => .ok [(directLoc s r a, n)] := by
  simp [checkWrite, hr, locate_direct h]

theorem checkRead_direct (h : DirectRegion r) (hr : checkRange s a n false = .ok r)
    (hblocks : checkRuns s [(directLoc s r a, n)] a = .ok ()) (hbolt : touchesPoisonedTile s (directLoc s r a) n = false) :
    checkRead s a n = (peerTest s a).andThen fun _ => .ok [(directLoc s r a, n)] := by
  simp [checkRead, hr, locate_direct h, hblocks, boltTest_one hbolt]

/-- A fault of the range is the access's. -/
theorem checkRead_range {f : Flt} (h : checkRange s a n false = .error f) : checkRead s a n = .error f := by simp [checkRead, h]

theorem checkWrite_range {f : Flt} (h : checkRange s a n true = .error f) : checkWrite s a n = .error f := by simp [checkWrite, h]

/-! ### Ranges (R15, R174) -/

theorem regionOf_spad (h : a < 0x20000) : regionOf a = .spad := if_pos h

theorem checkRange_spad (hn : 0 < n) (h : a + n ≤ 0x20000) (w : Bool) : checkRange s a n w = .ok .spad := by
  simp [checkRange, regionOf_spad (show a < 0x20000 by omega), spadSize, h]

theorem checkRange_spad_end (ha : a < 0x20000) (h : 0x20000 < a + n) (w : Bool) :
    checkRange s a n w = .error { cls := .spadRange, addr := BitVec.ofNat 64 0x20000 } := by
  simp [checkRange, regionOf_spad ha, spadSize, show ¬ a + n ≤ 131072 by omega]

theorem checkRange_none (h : regionOf a = .hole ∨ regionOf a = .debug) (w : Bool) :
    checkRange s a n w = .error { cls := .protFault, addr := BitVec.ofNat 64 a } := by
  rcases h with h | h <;> simp [checkRange, h]

theorem checkRange_readOnly (h : regionOf a = .acc ∨ regionOf a = .border ∨ regionOf a = .harvest) :
    checkRange s a n true = .error { cls := .protFault, addr := BitVec.ofNat 64 a } := by
  rcases h with h | h | h <;> simp [checkRange, h]

theorem checkRange_hbm (h : regionOf a = .hbm) (hend : a + n ≤ 0x200000000000) (w : Bool) : checkRange s a n w = .ok .hbm := by
  simp [checkRange, h, regionEnd, hend]

/-- The window of the peers' scratchpads is checked alike for reads and writes. -/
theorem checkRange_gwin {w : Bool} (h : checkRange s a n true = .ok .gwin) : regionOf a = .gwin ∧ checkRange s a n w = .ok .gwin := by
  have hr : regionOf a = .gwin := by
    cases hr : regionOf a <;> simp only [checkRange, hr] at h
    case gwin => rfl
    all_goals grind
  refine ⟨hr, ?_⟩
  simpa [checkRange, hr] using h

/-! ### Peers (R311) -/

theorem peerTest_own (h : regionOf a ≠ .gwin) : peerTest s a = .ok () := by simp [peerTest, sealedPeer, peerOf, h]

theorem peerTest_sealed {l : Nat} {p : BitVec 32} (h : sealedPeer s a = some l) (hp : placeOf s l = some p) :
    peerTest s a = .error { cls := .peerSealed, addr := p.zeroExtend 64 } := by simp [peerTest, h, hp]

/-! ### Pages (R17) -/

theorem translateCore_unmapped (h : translation s a = none) (w : Bool) :
    translateCore s a w = .error { cls := .pageFault, addr := BitVec.ofNat 64 a } := by simp [translateCore, h]

theorem locate_unmapped (h : translation s a = none) (w : Bool) :
    locate s .hbm a n w = .error { cls := .pageFault, addr := BitVec.ofNat 64 a } := by
  simp [locate, translateCore_unmapped h]

end

/-! ### Faults of an access (R58, R173) -/

theorem aligned_misaligned {s : State} {a n : Nat} {k : Out} (h : a % n ≠ 0) :
    aligned s a n k = .next (raise s s.cur { cls := .misaligned, addr := BitVec.ofNat 64 a }) := if_neg h

theorem storeG_misaligned {s : State} {x : MemG} {n : Nat} (hfree : RegsFree s [x.base] [x.reg])
    (h : memAddr (getG s s.cur x.base) x.disp.toInt n % n ≠ 0) (op : Nat) : storeG s x n op =
      .next (raise s s.cur { cls := .misaligned, addr := BitVec.ofNat 64 (memAddr (getG s s.cur x.base) x.disp.toInt n) }) := by
  rw [storeG, withRegs_free hfree, aligned_misaligned h]

theorem loadG_misaligned {s : State} {x : MemG} {n : Nat} (hfree : RegsFree s [x.base] [x.reg])
    (h : memAddr (getG s s.cur x.base) x.disp.toInt n % n ≠ 0) (op : Nat) (ext : Nat → Nat → Word) : loadG s x n op ext =
      .next (raise s s.cur { cls := .misaligned, addr := BitVec.ofNat 64 (memAddr (getG s s.cur x.base) x.disp.toInt n) }) := by
  rw [loadG, withRegs_free hfree, aligned_misaligned h]

theorem loadG_fault {s : State} {x : MemG} {n : Nat} {f : Flt} (hfree : RegsFree s [x.base] [x.reg])
    (h : memAddr (getG s s.cur x.base) x.disp.toInt n % n = 0)
    (hc : checkRead s (memAddr (getG s s.cur x.base) x.disp.toInt n) n = .error f) (op : Nat) (ext : Nat → Nat → Word) :
    loadG s x n op ext = .next (raise s s.cur f) := by
  rw [loadG, withRegs_free hfree, aligned_of_mod h, loadAt, hc]
  rfl

theorem storeG_fault {s : State} {x : MemG} {n : Nat} {f : Flt} (hfree : RegsFree s [x.base, x.reg] [])
    (h : memAddr (getG s s.cur x.base) x.disp.toInt n % n = 0)
    (hc : checkWrite s (memAddr (getG s s.cur x.base) x.disp.toInt n) n = .error f) (op : Nat) :
    storeG s x n op = .next (raise s s.cur f) := by
  rw [storeG, withRegs_free (regsFree_mono hfree (by simp) (by simp)), aligned_of_mod h, withData_free hfree (by simp), storeAt, hc]
  rfl

/-- Settles O28: the checks of R174 range by range, and the shapes of loads and stores where a check fails. -/
theorem addressChecksAndFaults : Obligations.AddressChecksAndFaults := by
  unfold Obligations.AddressChecksAndFaults
  refine ⟨fun s a n hn _ => ⟨fun h => ?_, fun ha h => ?_, fun h => ?_, fun h => ?_, fun hr hend hmap => ?_,
    fun l place hrange hseal hplace => ?_⟩, fun s t x hfree => ?_⟩
  · have hown : regionOf a ≠ .gwin := by
      rw [regionOf_spad (by omega)]
      decide
    refine ⟨?_, fun hblocks hbolt => ?_⟩
    · rw [checkWrite_direct (.inl rfl) (checkRange_spad hn h true), peerTest_own hown]
      rfl
    · rw [checkRead_direct (.inl rfl) (checkRange_spad hn h false) hblocks hbolt, peerTest_own hown]
      rfl
  · exact ⟨⟨_, checkRead_range (checkRange_spad_end ha h false), rfl⟩, ⟨_, checkWrite_range (checkRange_spad_end ha h true), rfl⟩⟩
  · exact ⟨⟨_, checkRead_range (checkRange_none h false), rfl⟩, ⟨_, checkWrite_range (checkRange_none h true), rfl⟩⟩
  · exact ⟨_, checkWrite_range (checkRange_readOnly h), rfl⟩
  · refine ⟨⟨{ cls := .pageFault, addr := BitVec.ofNat 64 a }, ?_, rfl, rfl⟩,
      ⟨{ cls := .pageFault, addr := BitVec.ofNat 64 a }, ?_, rfl⟩⟩
    · simp only [checkRead, checkRange_hbm hr hend, locate_unmapped hmap, andThen_ok, andThen_error]
    · simp only [checkWrite, checkRange_hbm hr hend, locate_unmapped hmap, andThen_ok, andThen_error]
  · refine ⟨?_, fun hblocks hbolt => ?_⟩
    · rw [checkWrite_direct (.inr rfl) hrange, peerTest_sealed hseal hplace]
      rfl
    · rw [checkRead_direct (.inr rfl) (checkRange_gwin hrange).2 hblocks hbolt, peerTest_sealed hseal hplace]
      rfl
  · have hfree' : RegsFree s [x.base] [x.reg] := regsFree_mono hfree (by simp) (by simp)
    refine ⟨fun h => loadG_misaligned hfree' h .., fun h => loadG_misaligned hfree' h .., fun h => loadG_misaligned hfree' h ..,
      fun h => loadG_misaligned hfree' h .., fun h => loadG_misaligned hfree' h .., fun h => storeG_misaligned hfree' h _,
      fun h => storeG_misaligned hfree' h _, fun h => storeG_misaligned hfree' h _, fun h => ?_, fun h => ?_,
      fun f h hc => loadG_fault hfree' h hc .., fun f h hc => storeG_fault hfree h hc _, fun f ht => ?_⟩
    · show execLdesc x s = _
      rw [execLdesc, withRegs_free hfree']
      exact aligned_misaligned h
    · show execSdesc x s = _
      rw [execSdesc, withRegs_free hfree']
      exact aligned_misaligned h
    · subst ht
      have hframe := raise_frame s s.cur f
      exact ⟨fun loc => by rw [hframe.mem], fun c r => getG_of_ctx (hframe.regs c).1 r⟩

end Sys2Proof.Proofs
end

