-- ==== Sys2Proof/Proofs/Lanes.lean ====
section
/-! PROOFS. Vector registers and their elements, what a lane-wise instruction writes, the short forms' shapes, and reductions, mask words,
classes and seeds (R73, R74, R83 to R88, R166 to R170). -/

namespace Sys2Proof.Proofs

open Sys2Proof.Machine Sys2Proof.Laws

/-! ### Elements (R83, R147) -/

theorem packNat_lt (w : Nat) (l : List Nat) : packNat w l < 2 ^ (w * l.length) := by
  induction l with
  | nil => simp [packNat]
  | cons x l ih =>
    have hx : x % 2 ^ w < 2 ^ w := Nat.mod_lt _ (by positivity)
    rw [packNat, List.length_cons, Nat.mul_succ, Nat.pow_add, Nat.mul_comm (2 ^ (w * l.length))]
    calc x % 2 ^ w + 2 ^ w * packNat w l < 2 ^ w * (packNat w l + 1) := by rw [Nat.mul_succ]; omega
      _ ≤ 2 ^ w * 2 ^ (w * l.length) := Nat.mul_le_mul_left _ ih

theorem bits_packNat (w : Nat) (l : List Nat) (e : Nat) : bits (packNat w l) (w * e) w = l.getD e 0 % 2 ^ w := by
  have hpos : 0 < 2 ^ w := by positivity
  induction l generalizing e with
  | nil => simp [packNat, bits]
  | cons x l ih =>
    cases e with
    | zero => simp [packNat, bits]
    | succ e =>
      have hdiv : (x % 2 ^ w + 2 ^ w * packNat w l) / 2 ^ w = packNat w l := by
        rw [Nat.add_mul_div_left _ _ hpos, Nat.div_eq_of_lt (Nat.mod_lt _ hpos), Nat.zero_add]
      rw [packNat, bits, Nat.mul_succ, Nat.add_comm (w * e), Nat.pow_add, ← Nat.div_div_eq_div_mul, hdiv]
      exact ih e

theorem packNat_fits {w : Nat} {l : List Nat} (h : w * l.length ≤ 256) : (pack w l).toNat = packNat w l := by
  rw [pack, BitVec.toNat_ofNat]
  exact Nat.mod_eq_of_lt ((packNat_lt w l).trans_le (Nat.pow_le_pow_right (by omega) h))

theorem elem_pack {w : Nat} {l : List Nat} (h : w * l.length ≤ 256) (e : Nat) : elem w (pack w l) e = l.getD e 0 % 2 ^ w := by
  rw [elem, packNat_fits h, bits_packNat]

theorem pack_lt {w : Nat} {l : List Nat} (h : w * l.length ≤ 256) : (pack w l).toNat < 2 ^ (w * l.length) := by
  rw [packNat_fits h]
  exact packNat_lt w l

theorem elem_lt (w : Nat) (v : Vec) (e : Nat) : elem w v e < 2 ^ w := Nat.mod_lt _ (by positivity)

theorem getD_map_range {f : Nat → Nat} {n e : Nat} (h : e < n) : ((List.range n).map f).getD e 0 = f e := by simp [h]

/-! ### What a lane-wise instruction writes (R85, R86) -/

theorem mul_elements (w : Nat) : w * (256 / w) ≤ 256 := Nat.mul_div_le 256 w

@[simp] theorem active_unmasked (s : State) (n e : Nat) : active s 0 n e = true := by simp [active, maskBit]

section write
variable {s : State} {vd : VCode} {mask : Fin 8} {agn : Bool} {w n : Nat} {res : List Nat}

/-- The register that a lane-wise instruction writes. -/
def lanesValue (s : State) (vd : VCode) (mask : Fin 8) (agn : Bool) (w n : Nat) (res : List Nat) : Vec :=
  pack w ((List.range n).map fun e => mergeElem s agn (active s mask n e) e (elem w (getV s s.cur vd) e) (res.getD e 0))

theorem lanesValue_elem (h : w * n ≤ 256) {e : Nat} (he : e < n) : elem w (lanesValue s vd mask agn w n res) e =
    mergeElem s agn (active s mask n e) e (elem w (getV s s.cur vd) e) (res.getD e 0) % 2 ^ w := by
  rw [lanesValue, elem_pack (by simpa using h), getD_map_range he]

theorem lanesValue_active (h : w * n ≤ 256) {e : Nat} (he : e < n) (ha : active s mask n e = true) :
    elem w (lanesValue s vd mask agn w n res) e = res.getD e 0 % 2 ^ w := by
  rw [lanesValue_elem h he, mergeElem, if_pos ha]

/-- A masked-off element keeps the destination's, or under agn may be 0 (log 10). -/
theorem lanesValue_masked (h : w * n ≤ 256) {e : Nat} (he : e < n) (ha : active s mask n e = false) :
    elem w (lanesValue s vd mask agn w n res) e = elem w (getV s s.cur vd) e ∨
      (agn = true ∧ tripled s = false ∧ elem w (lanesValue s vd mask agn w n res) e = 0) := by
  rw [lanesValue_elem h he, mergeElem, ha, if_neg (by decide)]
  split
  · rename_i hz
    rw [Bool.and_eq_true, Bool.and_eq_true, Bool.not_eq_true'] at hz
    exact .inr ⟨hz.1.1, hz.1.2, Nat.zero_mod _⟩
  · exact .inl (Nat.mod_eq_of_lt (elem_lt ..))

theorem lanesValue_lt (h : w * n ≤ 256) : (lanesValue s vd mask agn w n res).toNat < 2 ^ (w * n) := by
  have hlt := pack_lt (w := w) (l := (List.range n).map fun e =>
    mergeElem s agn (active s mask n e) e (elem w (getV s s.cur vd) e) (res.getD e 0)) (by simpa using h)
  rwa [List.length_map, List.length_range] at hlt

theorem writeLanes_quiet (hq : Quiet s) (len : Nat) : writeLanes s vd mask agn w n res len =
    .next (doneV (if agn then s.tickChoice else s) vd (lanesValue s vd mask agn w n res) len) := by
  have hq' : Quiet (if agn then s.tickChoice else s) := by cases agn <;> exact hq
  exact commitV_quiet hq' _ _ _

/-- Lanes written over a state that differs from `s` in nothing they look at. -/
theorem writeLanes_result {t : State} (hq : Quiet s) (h : w * n ≤ 256) {f : Nat → Nat} (hres : ∀ e, e < n → res.getD e 0 = f e)
    (hact : ∀ e, active s mask n e = active t mask n e) (hold : getV s s.cur vd = getV t t.cur vd)
    (htri : tripled s = tripled t) (len : Nat) :
    LaneResult (writeLanes s vd mask agn w n res len) t s vd mask agn w n f len := by
  refine ⟨lanesValue s vd mask agn w n res, writeLanes_quiet hq len, fun e he ha => ?_, fun e he ha => ?_, lanesValue_lt h⟩
  · rw [lanesValue_active h he (by rw [hact, ha]), hres e he]
  · rw [← htri, ← hold]
    exact lanesValue_masked h he (by rw [hact, ha])

end write

section lanes
variable {s : State} {vd : VCode} {reads : List VCode} {mask : Fin 8} {w n : Nat}

theorem lanes_result (hr : LanesReady s reads vd mask) (h : w * n ≤ 256) (agn : Bool) (f : Nat → Nat) (len : Nat) :
    LaneResult (lanes s reads vd mask agn w n f len) s s vd mask agn w n f len := by
  obtain ⟨hq, hsound, hgood⟩ := hr
  unfold lanes
  rw [hgood, withVecs_sound hsound]
  exact writeLanes_result hq h (fun e he => getD_map_range he) (fun _ => rfl) rfl rfl len

theorem lanesFrom_result (hr : LanesReady s reads vd mask) (h : w * n ≤ 256) {gs : List GReg}
    (hg : ∀ r ∈ gs, RegName.g r ∉ (s.ctx s.cur).poisoned) (agn : Bool) (f : Nat → Nat) (len : Nat) :
    LaneResult (lanesFrom s gs reads vd mask agn w n f len) s s vd mask agn w n f len := by
  obtain ⟨hq, hsound, hgood⟩ := hr
  unfold lanesFrom
  rw [hgood, withData_sound hg, withVecs_sound hsound]
  exact writeLanes_result hq h (fun e he => getD_map_range he) (fun _ => rfl) rfl rfl len

/-- With no mask a lane-wise result is plain. -/
theorem plain_of_laneResult {o : Out} {f : Nat → Nat} {len : Nat} (h : LaneResult o s s vd 0 false w n f len) :
    PlainResult o s vd w n f len := by
  obtain ⟨v, ho, hact, -, hlt⟩ := h
  exact ⟨v, ho, fun e he => hact e he (active_unmasked s n e), hlt⟩

/-- A result's values count modulo the width. -/
theorem plainResult_congr {o : Out} {f g : Nat → Nat} {len : Nat} (h : PlainResult o s vd w n f len)
    (hfg : ∀ e, f e % 2 ^ w = g e % 2 ^ w) : PlainResult o s vd w n g len := by
  obtain ⟨v, ho, hact, hlt⟩ := h
  exact ⟨v, ho, fun e he => (hact e he).trans (hfg e), hlt⟩

theorem laneResult_congr {o : Out} {t : State} {agn : Bool} {f g : Nat → Nat} {len : Nat} (h : LaneResult o s t vd mask agn w n f len)
    (hfg : ∀ e, e < n → f e % 2 ^ w = g e % 2 ^ w) : LaneResult o s t vd mask agn w n g len := by
  obtain ⟨v, ho, hact, hrest⟩ := h
  exact ⟨v, ho, fun e he ha => (hact e he ha).trans (hfg e he), hrest⟩

theorem lanes_plain (hr : LanesReady s reads vd 0) (h : w * n ≤ 256) (f : Nat → Nat) (len : Nat) :
    PlainResult (lanes s reads vd 0 false w n f len) s vd w n f len := plain_of_laneResult (lanes_result hr h false f len)

/-- An instruction may run whose further sources are sound too. -/
theorem lanesReady_more {more : List VCode} (hr : LanesReady s reads vd mask) (h : VecsSound s more) :
    LanesReady s (more ++ reads) vd mask := by
  obtain ⟨hq, hsound, hgood⟩ := hr
  refine ⟨hq, fun v hv => ?_, hgood⟩
  rw [List.append_assoc, List.append_assoc] at hv
  rcases List.mem_append.mp hv with hv | hv
  · exact h v hv
  · exact hsound v (by rwa [List.append_assoc])

theorem lanesReady_subset {less : List VCode} (hr : LanesReady s reads vd mask) (h : ∀ v ∈ less, v ∈ reads) :
    LanesReady s less vd mask := by
  obtain ⟨hq, hsound, hgood⟩ := hr
  refine ⟨hq, fun v hv => hsound v ?_, hgood⟩
  simp only [List.mem_append] at hv ⊢
  exact hv.imp_left fun hv => hv.imp_left (h v)

end lanes

/-! ### Short forms (R88, R158) -/

section short
variable {s : State} {x : SvArgs}

theorem sv1_plain (hr : LanesReady s [svSrc x] (svDst x) 0) (f : LaneTy → Nat → Nat) :
    PlainResult (sv1 s x f) s (svDst x) (shortTy x.ty).width (256 / (shortTy x.ty).width)
      (fun e => f (shortTy x.ty) (elem (shortTy x.ty).width (getV s s.cur (svSrc x)) e)) 2 :=
  lanes_plain hr (mul_elements _) _ 2

theorem sv2_plain (hr : LanesReady s [svSrc x] (svDst x) 0) (hd : VecsSound s [svDst x]) (f : LaneTy → Nat → Nat → Nat) :
    PlainResult (sv2 s x f) s (svDst x) (shortTy x.ty).width (256 / (shortTy x.ty).width)
      (fun e => f (shortTy x.ty) (elem (shortTy x.ty).width (getV s s.cur (svDst x)) e)
        (elem (shortTy x.ty).width (getV s s.cur (svSrc x)) e)) 2 :=
  lanes_plain (lanesReady_more hr hd) (mul_elements _) _ 2

theorem vmac_plain (hr : LanesReady s [svSrc x] (svDst x) 0) (hd : VecsSound s [svDst x, 0]) :
    PlainResult (execVmac x s) s (svDst x) (shortTy x.ty).width (256 / (shortTy x.ty).width)
      (fun e => laneFma (shortTy x.ty) (elem (shortTy x.ty).width (getV s s.cur (svDst x)) e)
        (elem (shortTy x.ty).width (getV s s.cur 0) e) (elem (shortTy x.ty).width (getV s s.cur (svSrc x)) e)) 2 :=
  lanes_plain (lanesReady_subset (lanesReady_more hr hd) (by simp)) (mul_elements _) _ 2

end short

/-! ### Reductions (R73, R74, R166) -/

theorem getD_scanFrom_succ (t : LaneTy) (acc : Nat) (l : List Nat) (e : Nat) (h : e < l.length) :
    (acc :: scanFrom t acc l).getD (e + 1) 0 = laneAdd t ((acc :: scanFrom t acc l).getD e 0) (l.getD e 0) := by
  induction l generalizing acc e with
  | nil => simp at h
  | cons x l ih =>
    cases e with
    | zero => rfl
    | succ e => exact ih (laneAdd t acc x) e (by simpa using h)

/-- The scan of a list of inputs (R74). -/
def scanned (t : LaneTy) : List Nat → List Nat
  | [] => []
  | a :: r => a :: scanFrom t a r

theorem scanned_zero (t : LaneTy) (l : List Nat) : (scanned t l).getD 0 0 = l.getD 0 0 := by cases l <;> rfl

/-- Each result of the scan is the one before with its own input added. -/
theorem scanned_succ (t : LaneTy) {l : List Nat} {e : Nat} (h : e + 1 < l.length) :
    (scanned t l).getD (e + 1) 0 = laneAdd t ((scanned t l).getD e 0) (l.getD (e + 1) 0) := by
  cases l with
  | nil => simp at h
  | cons a r => exact getD_scanFrom_succ t a r e (by simpa using h)

theorem execVscanadd_eq (x : VredArgs) (s : State) : execVscanadd x s =
    lanes s ([x.va] ++ maskCode x.mask) x.vd 0 false (selTy x.tb x.ta).width (256 / (selTy x.tb x.ta).width)
      (fun e => (scanned (selTy x.tb x.ta) (redInputs s x (selTy x.tb x.ta) (addIdentity (selTy x.tb x.ta)))).getD e 0) 4 := by
  unfold execVscanadd scanned
  rfl

theorem lanesReady_masked {s : State} {va vd : VCode} {mask : Fin 8} (h : LanesReady s [va] vd 0) (hm : VecsSound s (maskCode mask)) :
    LanesReady s ([va] ++ maskCode mask) vd 0 := lanesReady_subset (lanesReady_more h hm) fun v hv => by simpa [or_comm] using hv

/-! ### Bits (R167, R168) -/

theorem bit_toNat {w : Nat} (v : BitVec w) (e : Nat) : bit v.toNat e = v.getLsbD e := by
  rw [← BitVec.testBit_toNat, Nat.testBit_eq_decide_div_mod_eq, bit]
  rfl

theorem popcount_toNat {w : Nat} (v : BitVec w) (n : Nat) : popcount v.toNat n = (List.range n).countP fun e => v.getLsbD e := by
  rw [popcount, List.countP_eq_length_filter, show bit v.toNat = fun e => v.getLsbD e from funext (bit_toNat v)]

/-- The search for a set bit ends at the lowest, or past the last place searched. -/
theorem ctzFrom_cases (a n i : Nat) :
    (ctzFrom a n i = i + n ∧ ∀ e, e < n → bit a (i + e) = false) ∨
      ∃ e, e < n ∧ ctzFrom a n i = i + e ∧ bit a (i + e) = true ∧ ∀ k, k < e → bit a (i + k) = false := by
  induction n generalizing i with
  | zero => exact .inl ⟨rfl, fun e he => absurd he (by omega)⟩
  | succ n ih =>
    rw [ctzFrom]
    cases hb : bit a i with
    | true => exact .inr ⟨0, by omega, rfl, hb, fun k hk => absurd hk (by omega)⟩
    | false =>
      rw [if_neg (by decide)]
      have shift : ∀ {p : Nat → Prop}, p 0 → (∀ e, p (e + 1)) → ∀ e, p e := fun h0 hs e => by
        cases e with
        | zero => exact h0
        | succ e => exact hs e
      rcases ih (i + 1) with ⟨hval, hnone⟩ | ⟨e, he, hval, hset, hlow⟩
      · refine .inl ⟨by omega, shift (fun _ => hb) fun e he => ?_⟩
        rw [show i + (e + 1) = i + 1 + e by omega]
        exact hnone e (by omega)
      · refine .inr ⟨e + 1, by omega, by omega, ?_, shift (fun _ => hb) fun k hk => ?_⟩
        · rw [show i + (e + 1) = i + 1 + e by omega]
          exact hset
        · rw [show i + (k + 1) = i + 1 + k by omega]
          exact hlow k (by omega)

theorem getLsbD_maskWord {n w : Nat} (h : n ≤ w) (f : Nat → Bool) (e : Nat) :
    (BitVec.ofNat w (maskWord n f)).getLsbD e = (decide (e < n) && f e) := by
  have hlt : maskWord n f < 2 ^ w := by
    have := packNat_lt 1 ((List.range n).map fun e => if f e then 1 else 0)
    rw [List.length_map, List.length_range, Nat.one_mul] at this
    exact this.trans_le (Nat.pow_le_pow_right (by omega) h)
  have hbit := bits_packNat 1 ((List.range n).map fun e => if f e then 1 else 0) e
  rw [← bit_toNat, BitVec.toNat_ofNat, Nat.mod_eq_of_lt hlt, bit, maskWord]
  rw [bits, Nat.one_mul, pow_one] at hbit
  rw [hbit]
  by_cases he : e < n
  · rw [getD_map_range he]
    cases f e <;> simp [he]
  · simp [he]

/-! ### The statements -/

/-- Generator seeds under the mask (R52, R170). -/
def seeded (s : State) (va : VCode) (mask : Fin 8) : Vector (BitVec 32) 8 :=
  Vector.ofFn fun j : Fin 8 =>
    if maskBit s s.cur mask j.val then
      let seed := BitVec.ofNat 32 (elem 32 (getV s s.cur va) j.val)
      if seed = 0 then seedOf j else seed
    else (s.ctx s.cur).st[j.val]'j.isLt

theorem vrndseed_sound {s : State} {va : VCode} {mask : Fin 8} (h : VecsSound s ([va] ++ maskCode mask)) :
    exec (.vrndseed va mask) s = .next (retire (s.setCtx s.cur { s.ctx s.cur with st := seeded s va mask }) s.cur 4) :=
  withVecs_sound h

/-- A context's vector registers are those of its record. -/
theorem getV_of_ctx {s t : State} {c : Fin 8} (hl : (t.ctx c).l = (s.ctx c).l) (hk : (t.ctx c).k = (s.ctx c).k)
    (hv : (t.ctx c).v = (s.ctx c).v) (r : VCode) : getV t c r = getV s c r := by
  simp only [getV, hl, hk, hv]

theorem vpopm_counts {s : State} {x : VtoGArgs} (hq : Quiet s) (hf : RegsFree s [] [x.gd]) (hv : VecsSound s [x.va]) :
    exec (.vpopm x) s =
      .next (doneG s x.gd (BitVec.ofNat 64 ((List.range (256 / widthOf x.ta)).countP fun e => (getV s s.cur x.va).getLsbD e)) 4) := by
  show execVpopm x s = _
  rw [execVpopm, withRegs_free hf, withVecs_sound hv, commitG_quiet hq, popcount_toNat]
  rfl

theorem vfirst_finds {s : State} {x : VtoGArgs} (hq : Quiet s) (hf : RegsFree s [] [x.gd]) (hv : VecsSound s [x.va]) :
    ∃ r : Word, exec (.vfirst x) s = .next (doneG s x.gd r 4) ∧
      ((∀ e, e < 256 / widthOf x.ta → (getV s s.cur x.va).getLsbD e = false) → r = -1) ∧
      ∀ e, e < 256 / widthOf x.ta → (getV s s.cur x.va).getLsbD e = true →
        (∀ k, k < e → (getV s s.cur x.va).getLsbD k = false) → r = BitVec.ofNat 64 e := by
  have hexec : exec (.vfirst x) s = .next (doneG s x.gd (if ctzFrom (getV s s.cur x.va).toNat (256 / widthOf x.ta) 0 < 256 / widthOf x.ta
      then BitVec.ofNat 64 (ctzFrom (getV s s.cur x.va).toNat (256 / widthOf x.ta) 0) else BitVec.allOnes 64) 4) := by
    show execVfirst x s = _
    rw [execVfirst, withRegs_free hf, withVecs_sound hv, commitG_quiet hq]
    rfl
  refine ⟨_, hexec, ?_⟩
  have hcases := ctzFrom_cases (getV s s.cur x.va).toNat (256 / widthOf x.ta) 0
  simp only [Nat.zero_add, bit_toNat] at hcases
  generalize 256 / widthOf x.ta = n at hcases ⊢
  generalize ctzFrom (getV s s.cur x.va).toNat n 0 = i at hcases ⊢
  rcases hcases with ⟨rfl, hnone⟩ | ⟨e, he, rfl, hset, hlow⟩
  · refine ⟨fun _ => ?_, fun e he hset _ => ?_⟩
    · rw [if_neg (lt_irrefl _)]
      rfl
    · rw [hnone e he] at hset
      cases hset
  · refine ⟨fun hnone => ?_, fun k _ hk hbelow => ?_⟩
    · rw [hnone i he] at hset
      cases hset
    · rw [if_pos he]
      rcases Nat.lt_trichotomy k i with hlt | rfl | hlt
      · rw [hlow k hlt] at hk
        cases hk
      · rfl
      · rw [hbelow i hlt] at hset
        cases hset

theorem width_selTy (tb ta : Fin 8) : 4 ≤ (selTy tb ta).width := by revert tb ta; decide

theorem vbmenc_word {s : State} {x : VbmencArgs} (hq : Quiet s) (hf : RegsFree s [] [x.gd])
    (hv : VecsSound s ([x.va] ++ maskCode x.mask)) :
    ∃ r : Word, exec (.vbmenc x) s = .next (doneG s x.gd r 4) ∧
      ∀ e, r.getLsbD e = (decide (e < 256 / (selTy x.tb x.ta).width) && active s x.mask (256 / (selTy x.tb x.ta).width) e &&
        !isZeroElem (selTy x.tb x.ta) (elem (selTy x.tb x.ta).width (getV s s.cur x.va) e)) := by
  have hn : 256 / (selTy x.tb x.ta).width ≤ 64 := Nat.div_le_div_left (width_selTy x.tb x.ta) (by omega)
  refine ⟨BitVec.ofNat 64 (maskWord (256 / (selTy x.tb x.ta).width) fun e => active s x.mask (256 / (selTy x.tb x.ta).width) e &&
    !isZeroElem (selTy x.tb x.ta) (elem (selTy x.tb x.ta).width (getV s s.cur x.va) e)), ?_, fun e => ?_⟩
  · show execVbmenc x s = _
    rw [execVbmenc, withRegs_free hf, withVecs_sound hv, commitG_quiet hq]
  · rw [getLsbD_maskWord hn, Bool.and_assoc]

theorem vrndseed_seeds {s : State} {va : VCode} {mask : Fin 8} (h : VecsSound s ([va] ++ maskCode mask)) :
    ∃ t, exec (.vrndseed va mask) s = .next t ∧ (t.ctx s.cur).pc = (s.ctx s.cur).pc + 4 ∧ t.mem = s.mem ∧
      (t.ctx s.cur).st = seeded s va mask ∧ (∀ r, getG t s.cur r = getG s s.cur r) ∧ ∀ v, getV t s.cur v = getV s s.cur v := by
  refine ⟨_, vrndseed_sound h, ?_⟩
  rw [ctx_retire_same, ctx_setCtx_same]
  refine ⟨rfl, rfl, rfl, fun r => ?_, fun v => ?_⟩
  · rw [getG_retire]
    exact getG_of_ctx (by rw [ctx_setCtx_same]) r
  · refine getV_of_ctx ?_ ?_ ?_ v <;> rw [ctx_retire_same, ctx_setCtx_same]

/-- Settles O24: each instruction is a shape of lanes or of a g result, and what it puts there is counted bit by bit. -/
theorem reductionAndMaskResults : Obligations.ReductionAndMaskResults := by
  unfold Obligations.ReductionAndMaskResults
  refine ⟨fun s x hr hm => ?_, fun s x hq hf hv => ⟨vpopm_counts hq hf hv, vfirst_finds hq hf hv⟩, fun s x hq hf hv => ?_,
    fun s x hr hf => ?_, fun s x hr => ?_, fun s va mask hv => ?_⟩
  · have hready := lanesReady_masked hr hm
    refine ⟨lanes_plain hready (mul_elements _) _ 4, lanes_plain hready (mul_elements _) _ 4, lanes_plain hready (mul_elements _) _ 4,
      fun e => (scanned (selTy x.tb x.ta) (redInputs s x (selTy x.tb x.ta) (addIdentity (selTy x.tb x.ta)))).getD e 0, ?_,
      scanned_zero _ _, fun e he => scanned_succ _ (by simpa [redInputs] using he)⟩
    show PlainResult (execVscanadd x s) s x.vd _ _ _ 4
    rw [execVscanadd_eq]
    exact lanes_plain hready (mul_elements _) _ 4
  · obtain ⟨r, hexec, hbits⟩ := vbmenc_word hq hf hv
    exact ⟨r, hexec, fun e _ => hbits e⟩
  · show LaneResult (execVbmdec x s) s s x.vd x.mask x.agn _ _ _ 4
    rw [execVbmdec, withRegs_free (regsFree_mono hf (by simp) (by simp))]
    refine laneResult_congr (lanesFrom_result hr (mul_elements _) (fun r hr => hf.2 r hr) x.agn _ 4) fun e _ => ?_
    rw [bit_toNat, popcount_toNat]
  · refine ⟨laneResult_congr (lanes_result hr (mul_elements (widthOf x.ta)) x.agn _ 4) fun e _ => ?_,
      lanes_result hr (mul_elements _) x.agn _ 4⟩
    rw [popcount_toNat]
  · obtain ⟨t, hexec, hpc, hmem, hst, hg, hvs⟩ := vrndseed_seeds hv
    refine ⟨t, hexec, hpc, hmem, fun j => ?_, hg, hvs⟩
    simp only [hst, seeded]
    simp [seedOf]

end Sys2Proof.Proofs
end

