-- ==== Sys2Proof/Proofs/Conversions.lean ====
section
/-! PROOFS. Stochastic draws, rounding to whole numbers, saturation, and the conversions with the short forms (R44, R49, R51 to R54, R88,
R158, R160). -/

namespace Sys2Proof.Proofs

open Sys2Proof.Machine Sys2Proof.Laws

/-! ### Stochastic draws (R52) -/

/-- The current context's generators with other states. -/
def withGens (s : State) (v : Vector (BitVec 32) 8) : State := s.setCtx s.cur { s.ctx s.cur with st := v }

@[simp] theorem withGens_cur (s : State) (v : Vector (BitVec 32) 8) : (withGens s v).cur = s.cur := rfl

@[simp] theorem withGens_ctx (s : State) (v : Vector (BitVec 32) 8) :
    (withGens s v).ctx s.cur = { s.ctx s.cur with st := v } := ctx_setCtx_same ..

theorem withGens_withGens (s : State) (v u : Vector (BitVec 32) 8) : withGens (withGens s v) u = withGens s u := by
  rw [withGens, withGens_cur, withGens_ctx, withGens, withGens, State.setCtx, State.setCtx, State.setCtx]
  simp only [Vector.set_set]

theorem withGens_self (s : State) : withGens s (s.ctx s.cur).st = s := by
  have hset : s.ctxs.set s.cur.val (s.ctx s.cur) s.cur.isLt = s.ctxs := Vector.set_getElem_self _
  show { s with ctxs := s.ctxs.set s.cur.val (s.ctx s.cur) s.cur.isLt } = s
  rw [hset]

theorem withGens_quiet {s : State} (h : Quiet s) (v : Vector (BitVec 32) 8) : Quiet (withGens s v) := h

theorem withGens_getV (s : State) (v : Vector (BitVec 32) 8) (r : VCode) : getV (withGens s v) s.cur r = getV s s.cur r :=
  getV_of_ctx (by rw [withGens_ctx]) (by rw [withGens_ctx]) (by rw [withGens_ctx]) r

theorem withGens_active (s : State) (v : Vector (BitVec 32) 8) (m : Fin 8) (n e : Nat) :
    active (withGens s v) m n e = active s m n e := by
  simp only [active, maskBit, getK, withGens_cur, withGens_ctx]

/-- How often generator `j` has advanced for the elements of a list (R52). -/
def drawsOf (act : Nat → Bool) (j : Nat) (l : List Nat) : Nat := l.countP fun k => decide (k % 8 = j) && act k

theorem drawsOf_cons (act : Nat → Bool) (j e : Nat) (l : List Nat) :
    drawsOf act j (e :: l) = drawsOf act j l + drawsOf act j [e] := by
  rw [drawsOf, List.countP_cons, drawsOf, drawsOf, List.countP_cons, List.countP_nil, Nat.zero_add]

/-- The number drawn from a generator's new state (R52). -/
def topHalf (x : BitVec 32) : Nat := x.toNat / 2 ^ 16

/-- The generators after the elements of a list. -/
def gensAfter (act : Nat → Bool) (l : List Nat) (st : Vector (BitVec 32) 8) : Vector (BitVec 32) 8 :=
  Vector.ofFn fun j : Fin 8 => xsNext^[drawsOf act j.val l] st[j.val]

theorem gensAfter_get (act : Nat → Bool) (l : List Nat) (st : Vector (BitVec 32) 8) (j : Fin 8) :
    (gensAfter act l st)[j.val] = xsNext^[drawsOf act j.val l] st[j.val] := by simp [gensAfter]

theorem gensAfter_nil (act : Nat → Bool) (st : Vector (BitVec 32) 8) : gensAfter act [] st = st := by
  refine Vector.ext fun i hi => ?_
  rw [gensAfter_get act [] st ⟨i, hi⟩]
  rfl

theorem gensAfter_cons (act : Nat → Bool) (e : Nat) (l : List Nat) (st : Vector (BitVec 32) 8) :
    gensAfter act (e :: l) st = gensAfter act l (gensAfter act [e] st) := by
  refine Vector.ext fun i hi => ?_
  have hget := gensAfter_get act l (gensAfter act [e] st) ⟨i, hi⟩
  rw [gensAfter_get act [e] st ⟨i, hi⟩, ← Function.iterate_add_apply, ← drawsOf_cons] at hget
  rw [hget]
  exact gensAfter_get act (e :: l) st ⟨i, hi⟩

/-- A draw advances the generator of its element. -/
theorem drawR_state {act : Nat → Bool} {e : Nat} (h : act e = true) (s : State) :
    (drawR s s.cur e).2 = withGens s (gensAfter act [e] (s.ctx s.cur).st) := by
  have hst : (s.ctx s.cur).st.set (Fin.ofNat 8 e).val (xsNext (s.ctx s.cur).st[(Fin.ofNat 8 e).val]) (Fin.ofNat 8 e).isLt =
      gensAfter act [e] (s.ctx s.cur).st := by
    refine Vector.ext fun i hi => ?_
    rw [gensAfter_get act [e] _ ⟨i, hi⟩, Vector.getElem_set]
    by_cases hie : e % 8 = i
    · subst hie
      simp [drawsOf, h]
    · simp [drawsOf, hie]
  show withGens s _ = _
  rw [hst]

theorem drawR_value {act : Nat → Bool} {e : Nat} (h : act e = true) (s : State) :
    (drawR s s.cur e).1 = topHalf (xsNext^[drawsOf act (e % 8) [e]] (s.ctx s.cur).st[(Fin.ofNat 8 e).val]) := by
  have hone : drawsOf act (e % 8) [e] = 1 := by simp [drawsOf, h]
  rw [hone, topHalf, drawR, BitVec.toNat_ushiftRight, Nat.shiftRight_eq_div_pow]
  rfl

section rounded
variable {mode : Rnd} (act : Nat → Bool) (f : Nat → Nat → Nat)

/-- Outside stochastic mode nothing is drawn. -/
theorem roundElems_plain (h : mode ≠ .sr) (l : List Nat) (s : State) : roundElems mode act f l s = (l.map fun e => f e 0, s) := by
  induction l with
  | nil => rfl
  | cons e l ih => simp [roundElems, h, ih]

theorem roundElems_state (l : List Nat) (s : State) :
    (roundElems .sr act f l s).2 = withGens s (gensAfter act l (s.ctx s.cur).st) := by
  induction l generalizing s with
  | nil => rw [gensAfter_nil, withGens_self]; rfl
  | cons e l ih =>
    rw [gensAfter_cons, roundElems]
    cases h : act e with
    | true =>
      simp only [decide_true, Bool.and_true, if_true]
      rw [ih, drawR_state h, withGens_withGens, withGens_cur, withGens_ctx]
    | false =>
      have hnone : gensAfter act [e] (s.ctx s.cur).st = (s.ctx s.cur).st := by
        refine Vector.ext fun i hi => ?_
        rw [gensAfter_get act [e] _ ⟨i, hi⟩]
        simp [drawsOf, h]
      simp only [Bool.and_false, Bool.false_eq_true, if_false]
      rw [ih, hnone]

/-- The number that a place of a list draws, from the states before the list. -/
def drawAt (st : Vector (BitVec 32) 8) (l : List Nat) (p e : Nat) : Nat :=
  if act e = true then topHalf (xsNext^[drawsOf act (e % 8) (l.take (p + 1))] st[(Fin.ofNat 8 e).val]) else 0

theorem drawAt_cons (st : Vector (BitVec 32) 8) (a : Nat) (l : List Nat) (p e : Nat) :
    drawAt act st (a :: l) (p + 1) e = drawAt act (gensAfter act [a] st) l p e := by
  have hget := gensAfter_get act [a] st (Fin.ofNat 8 e)
  unfold drawAt
  rw [List.take_succ_cons, drawsOf_cons, hget, ← Function.iterate_add_apply]
  rfl

theorem roundElems_value (l : List Nat) (s : State) (p : Nat) (hp : p < l.length) :
    (roundElems .sr act f l s).1.getD p 0 = f l[p] (drawAt act (s.ctx s.cur).st l p l[p]) := by
  induction l generalizing s p with
  | nil => simp at hp
  | cons e l ih =>
    rw [roundElems]
    cases h : act e with
    | true =>
      simp only [decide_true, Bool.and_true, if_true]
      cases p with
      | zero =>
        rw [List.getD_cons_zero, drawR_value h]
        simp [drawAt, h]
      | succ p =>
        rw [List.getD_cons_succ, ih _ p (by simpa using hp), drawR_state h, withGens_cur, withGens_ctx, ← drawAt_cons]
        rfl
    | false =>
      have hnone : gensAfter act [e] (s.ctx s.cur).st = (s.ctx s.cur).st := by
        refine Vector.ext fun i hi => ?_
        rw [gensAfter_get act [e] _ ⟨i, hi⟩]
        simp [drawsOf, h]
      simp only [Bool.and_false, Bool.false_eq_true, if_false]
      cases p with
      | zero => simp [drawAt, h]
      | succ p =>
        rw [List.getD_cons_succ, ih _ p (by simpa using hp)]
        conv_lhs => rw [← hnone, ← drawAt_cons]
        rfl

end rounded

/-! ### Rounding to whole numbers (R49, R53) -/

/-- A rational rounded to a whole number by a mode (R49). -/
def wholeOf (mode : Rnd) (r : Nat) (y : ℚ) : Int :=
  let m := |y|
  let lo := ⌊m⌋
  let up : Bool := match mode with
    | .rtz => false
    | .sr => decide ((r : Int) < ⌊(m - lo) * 2 ^ 16⌋)
    | _ => decide (1 / 2 < m - lo ∨ (m - lo = 1 / 2 ∧ lo % 2 = 1))
  let k := if up then lo + 1 else lo
  if y < 0 then -k else k

/-- A magnitude rounded to a whole number. -/
def wholeMag (mode : Rnd) (r : Nat) (m : ℚ) : Int :=
  if (match mode with
    | .rtz => false
    | .sr => decide ((r : Int) < ⌊(m - ⌊m⌋) * 2 ^ 16⌋)
    | _ => decide (1 / 2 < m - ⌊m⌋ ∨ (m - ⌊m⌋ = 1 / 2 ∧ ⌊m⌋ % 2 = 1))) then ⌊m⌋ + 1 else ⌊m⌋

theorem wholeOf_eq (mode : Rnd) (r : Nat) (y : ℚ) : wholeOf mode r y = if y < 0 then -wholeMag mode r |y| else wholeMag mode r |y| := by
  unfold wholeOf wholeMag
  rfl

theorem wholeMag_natCast (mode : Rnd) (r n : Nat) : wholeMag mode r n = n := by
  cases mode <;> simp [wholeMag]

/-- Dropping `k` bits by a mode rounds the quotient. -/
theorem roundShift_whole (mode : Rnd) (r m k : Nat) : (roundShift mode r m k : Int) = wholeMag mode r (m / 2 ^ k) := by
  have hpos : (0 : ℚ) < 2 ^ k := by positivity
  have hfloor : ⌊(m : ℚ) / 2 ^ k⌋ = (m / 2 ^ k : Nat) := by
    have h := Rat.floor_natCast_div_natCast m (2 ^ k)
    push_cast at h ⊢
    exact h
  have hfrac : (m : ℚ) / 2 ^ k - (m / 2 ^ k : Nat) = (m % 2 ^ k : Nat) / 2 ^ k := by
    have hsum : ((m % 2 ^ k + 2 ^ k * (m / 2 ^ k) : Nat) : ℚ) = m := by rw [Nat.mod_add_div]
    rw [Nat.cast_add, Nat.cast_mul, Nat.cast_pow, Nat.cast_ofNat] at hsum
    rw [sub_eq_iff_eq_add, div_eq_iff hpos.ne', add_mul, div_mul_cancel₀ _ hpos.ne', ← hsum]
    ring
  unfold roundShift wholeMag
  rw [hfloor, Int.cast_natCast, hfrac]
  dsimp only
  generalize m / 2 ^ k = lo
  generalize m % 2 ^ k = n
  have hdraw : ⌊(n : ℚ) / 2 ^ k * 2 ^ 16⌋ = (n * 65536 / 2 ^ k : Nat) := by
    have h := Rat.floor_natCast_div_natCast (n * 65536) (2 ^ k)
    push_cast at h ⊢
    rw [← h, div_mul_eq_mul_div]
    norm_num
  have hgt : 2 * n > 2 ^ k ↔ (1 : ℚ) / 2 < n / 2 ^ k := by
    rw [lt_div_iff₀ hpos, gt_iff_lt, ← Nat.cast_lt (α := ℚ)]
    push_cast
    constructor <;> intro h <;> linarith
  have heq : 2 * n = 2 ^ k ↔ (n : ℚ) / 2 ^ k = 1 / 2 := by
    rw [div_eq_iff hpos.ne', ← Nat.cast_inj (R := ℚ)]
    push_cast
    constructor <;> intro h <;> linarith
  have hodd : (lo : Int) % 2 = 1 ↔ lo % 2 = 1 := by omega
  have hlt : ((r : Int) < (n * 65536 / 2 ^ k : Nat)) ↔ n * 65536 / 2 ^ k > r := Int.ofNat_lt
  cases mode <;> simp only [hdraw, hodd, hlt, ← hgt, ← heq, Bool.or_eq_true, Bool.and_eq_true, decide_eq_true_eq] <;> split <;> rfl

theorem roundTo_whole (mode : Rnd) (r m : Nat) (e : Int) : (roundTo mode r m e 0 : Int) = wholeMag mode r (m * 2 ^ e) := by
  unfold roundTo
  split
  · rename_i h
    have hcount : (m : ℚ) * 2 ^ e = (m * 2 ^ (e - 0).toNat : Nat) := by
      push_cast
      rw [← zpow_natCast, sub_zero, Int.toNat_of_nonneg h]
    rw [hcount, wholeMag_natCast]
  · rename_i h
    have hdiv : (m : ℚ) * 2 ^ e = m / 2 ^ (0 - e).toNat := by
      rw [← zpow_natCast, Int.toNat_of_nonneg (by omega), div_eq_mul_inv, ← zpow_neg, zero_sub, neg_neg]
    rw [hdiv, roundShift_whole]

/-- A finite value rounded to a whole number. -/
theorem toIntR_fin (mode : Rnd) (r : Nat) (big : Int) (s : Bool) (m : Nat) (e : Int) :
    toIntR mode r big (.fin s m e) = wholeOf mode r (FVal.fin s m e).toRat := by
  have hnonneg : (0 : ℚ) ≤ m * 2 ^ e := by positivity
  rw [toIntR, roundTo_whole, wholeOf_eq, toRat_fin, mul_assoc, abs_mul, abs_signQ, one_mul, abs_of_nonneg hnonneg]
  cases s with
  | false => simp [signQ, not_lt.mpr hnonneg]
  | true =>
    rw [signQ, if_pos rfl, if_pos rfl]
    split
    · rfl
    · rename_i h
      have hzero : (m : ℚ) * 2 ^ e = 0 := le_antisymm (by linarith) hnonneg
      have hw := wholeMag_natCast mode r 0
      rw [Nat.cast_zero] at hw
      rw [hzero, hw]
      rfl

/-! ### Saturation (R44) -/

/-- The least number of an integer type; 0 for others. -/
def leastOf (t : LaneTy) : Int := match t with
  | .int w true => -2 ^ (w - 1)
  | _ => 0

/-- The greatest number of an integer type. -/
def mostOf (t : LaneTy) : Int := match t with
  | .int w true => 2 ^ (w - 1) - 1
  | t => 2 ^ t.width - 1

/-- The number that a pattern of an integer type stands for. -/
def numberOf (t : LaneTy) (a : Nat) : Int := match t with
  | .int w true => sInt w a
  | _ => a

/-- A number clamped to an integer type. -/
def clampTo (t : LaneTy) (k : Int) : Int := max (leastOf t) (min (mostOf t) k)

theorem wrapI_eq (w : Nat) (k : Int) : wrapI w k = (k % 2 ^ w).toNat := by simp [wrapI]

/-- Saturation by the sign of an integer type. -/
theorem sat_eq (w : Nat) (sg : Bool) (k : Int) :
    (if sg then satS w k else satU w k) = (clampTo (.int w sg) k % 2 ^ w).toNat := by
  cases sg with
  | true =>
    rw [if_pos rfl, satS, wrapI_eq]
    simp [clampTo, leastOf, mostOf]
  | false =>
    have hpos : (1 : Int) ≤ 2 ^ w := one_le_pow₀ (by norm_num)
    have hmost : mostOf (.int w false) = 2 ^ w - 1 := rfl
    have hleast : leastOf (.int w false) = 0 := rfl
    have hclamp : 0 ≤ clampTo (.int w false) k ∧ clampTo (.int w false) k < 2 ^ w := by
      rw [clampTo, hmost, hleast]
      omega
    rw [if_neg (by decide), Int.emod_eq_of_lt hclamp.1 hclamp.2, clampTo, hmost, hleast, satU]
    push_cast
    rfl

/-- A number past every number of the type is clamped to the last. -/
theorem clampTo_big {w : Nat} {sg : Bool} (hw : w ≤ 64) :
    clampTo (.int w sg) (2 ^ 65) = mostOf (.int w sg) ∧ clampTo (.int w sg) (-2 ^ 65) = leastOf (.int w sg) := by
  have hle : (2 : Int) ^ w ≤ 2 ^ 64 := pow_le_pow_right₀ (by norm_num) hw
  have hle' : (2 : Int) ^ (w - 1) ≤ 2 ^ 64 := pow_le_pow_right₀ (by norm_num) (by omega)
  have hpos : (1 : Int) ≤ 2 ^ w := one_le_pow₀ (by norm_num)
  have hpos' : (1 : Int) ≤ 2 ^ (w - 1) := one_le_pow₀ (by norm_num)
  cases sg with
  | true =>
    have hmost : mostOf (.int w true) = 2 ^ (w - 1) - 1 := rfl
    have hleast : leastOf (.int w true) = -2 ^ (w - 1) := rfl
    rw [clampTo, clampTo, hmost, hleast]
    omega
  | false =>
    have hmost : mostOf (.int w false) = 2 ^ w - 1 := rfl
    have hleast : leastOf (.int w false) = 0 := rfl
    rw [clampTo, clampTo, hmost, hleast]
    omega

/-- A value as a pattern of an integer type: rounded, then saturated; NaN gives 0 (R53). -/
def toWholeOf (mode : Rnd) (t : LaneTy) (r : Nat) (v : FVal) : Nat :=
  ((match v with
    | .nan => 0
    | .inf sg => if sg then leastOf t else mostOf t
    | v => clampTo t (wholeOf mode r v.toRat)) % 2 ^ t.width).toNat

theorem clampTo_zero (w : Nat) (sg : Bool) : clampTo (.int w sg) 0 = 0 := by
  have hpos : (1 : Int) ≤ 2 ^ w := one_le_pow₀ (by norm_num)
  have hpos' : (1 : Int) ≤ 2 ^ (w - 1) := one_le_pow₀ (by norm_num)
  cases sg with
  | true =>
    have hmost : mostOf (.int w true) = 2 ^ (w - 1) - 1 := rfl
    have hleast : leastOf (.int w true) = -2 ^ (w - 1) := rfl
    rw [clampTo, hmost, hleast]
    omega
  | false =>
    have hmost : mostOf (.int w false) = 2 ^ w - 1 := rfl
    have hleast : leastOf (.int w false) = 0 := rfl
    rw [clampTo, hmost, hleast]
    omega

theorem cvtToInt_eq {w : Nat} (hw : w ≤ 64) (sg : Bool) (mode : Rnd) (r : Nat) (v : FVal) :
    cvtToInt sg w mode r v = toWholeOf mode (.int w sg) r v := by
  obtain ⟨hbig, hneg⟩ := clampTo_big (sg := sg) hw
  have hpow : (((2 : Nat) ^ 65 : Nat) : Int) = 2 ^ 65 := by norm_num
  rw [cvtToInt, sat_eq, hpow]
  cases v with
  | nan => rw [toIntR, clampTo_zero]; rfl
  | inf s => cases s <;> simp only [toIntR, toWholeOf, if_true, Bool.false_eq_true, if_false, hbig, hneg] <;> rfl
  | fin s m e => rw [toIntR_fin]; rfl

/-! ### Conversions (R160) -/

section convert
variable {s : State} {x : CvtArgs} {src dst : LaneTy}

/-- The elements that a conversion writes. -/
def cvtCount (src dst : LaneTy) : Nat := 256 / max src.width dst.width

/-- The state after a conversion's draws. -/
def drawnState (s : State) (x : CvtArgs) (n : Nat) : State :=
  if x.rnd = .sr then withGens s (gensAfter (active s x.mask n) (List.range n) (s.ctx s.cur).st) else s

/-- The number that element `e` of a conversion draws. -/
def drawnFor (s : State) (x : CvtArgs) (n e : Nat) : Nat :=
  if x.rnd = .sr ∧ active s x.mask n e = true then
    topHalf (xsNext^[drawsOf (active s x.mask n) (e % 8) (List.range (e + 1))] ((s.ctx s.cur).st[(Fin.ofNat 8 e).val]))
  else 0

theorem drawnState_cases (s : State) (x : CvtArgs) (n : Nat) : ∃ v, drawnState s x n = withGens s v := by
  unfold drawnState
  split
  · exact ⟨_, rfl⟩
  · exact ⟨_, (withGens_self s).symm⟩

theorem roundElems_drawn (f : Nat → Nat → Nat) (n : Nat) :
    (roundElems x.rnd (active s x.mask n) f (List.range n) s).2 = drawnState s x n ∧
      ∀ e, e < n → (roundElems x.rnd (active s x.mask n) f (List.range n) s).1.getD e 0 = f e (drawnFor s x n e) := by
  unfold drawnState drawnFor
  by_cases h : x.rnd = .sr
  · rw [h]
    refine ⟨roundElems_state _ f _ s, fun e he => ?_⟩
    rw [roundElems_value _ f _ s e (by simpa using he), List.getElem_range, drawAt, List.take_range, Nat.min_eq_left he]
    simp only [true_and]
  · rw [roundElems_plain _ f h]
    simp only [h, if_false, false_and]
    exact ⟨trivial, fun e he => getD_map_range he⟩

theorem width_fits (w v : Nat) : w * (256 / max v w) ≤ 256 := by
  calc w * (256 / max v w) ≤ max v w * (256 / max v w) := Nat.mul_le_mul_right _ (le_max_right v w)
    _ ≤ 256 := Nat.mul_div_le 256 _

theorem convertLanes_result (hr : LanesReady s [x.va] x.vd x.mask) : LaneResult (convertLanes s x src dst) s
    (drawnState s x (cvtCount src dst)) x.vd x.mask x.agn dst.width (cvtCount src dst)
    (fun e => convert src dst x.rnd (drawnFor s x (cvtCount src dst) e) (elem src.width (getV s s.cur x.va) e)) 4 := by
  obtain ⟨hq, hsound, hgood⟩ := hr
  obtain ⟨hstate, hvalue⟩ := roundElems_drawn (s := s) (x := x)
    (fun e r => convert src dst x.rnd r (elem src.width (getV s s.cur x.va) e)) (cvtCount src dst)
  obtain ⟨v, hv⟩ := drawnState_cases s x (cvtCount src dst)
  have hexec : convertLanes s x src dst = writeLanes (drawnState s x (cvtCount src dst)) x.vd x.mask x.agn dst.width (cvtCount src dst)
      (roundElems x.rnd (active s x.mask (cvtCount src dst))
        (fun e r => convert src dst x.rnd r (elem src.width (getV s s.cur x.va) e)) (List.range (cvtCount src dst)) s).1 4 := by
    rw [← hstate]
    unfold convertLanes
    rw [hgood]
    exact withVecs_sound hsound
  rw [hexec, hv]
  exact writeLanes_result (withGens_quiet hq v) (width_fits ..) hvalue (fun e => withGens_active s v _ _ e) (withGens_getV s v x.vd) rfl 4

/-- What the draws of a conversion leave: each generator advanced once for each of its active elements, and all else as it was. -/
theorem drawnState_keeps (s : State) (x : CvtArgs) (n : Nat) :
    (∀ j : Fin 8, ((drawnState s x n).ctx s.cur).st[j.val] = if x.rnd = .sr then
        xsNext^[drawsOf (active s x.mask n) j.val (List.range n)] (s.ctx s.cur).st[j.val] else (s.ctx s.cur).st[j.val]) ∧
      (x.rnd ≠ .sr → drawnState s x n = s) ∧ MemoryKept s (drawnState s x n) ∧
      (∀ c, c ≠ s.cur → (drawnState s x n).ctx c = s.ctx c) ∧
      ((drawnState s x n).ctx s.cur).pc = (s.ctx s.cur).pc ∧ (∀ r, getG (drawnState s x n) s.cur r = getG s s.cur r) ∧
      ∀ v, getV (drawnState s x n) s.cur v = getV s s.cur v := by
  refine ⟨fun j => ?_, fun h => if_neg h, ?_⟩
  · unfold drawnState
    split
    · simp only [withGens_ctx]
      exact gensAfter_get ..
    · rfl
  · obtain ⟨v, hv⟩ := drawnState_cases s x n
    rw [hv]
    refine ⟨⟨fun _ => rfl, fun _ => rfl, rfl⟩, fun c hc => ctx_setCtx_other hc, ?_, fun r => ?_, withGens_getV s v⟩
    · rw [withGens_ctx]
    · exact getG_of_ctx (by rw [withGens_ctx]) r

/-- A conversion, with each element's value given. -/
theorem conversion (hr : LanesReady s [x.va] x.vd x.mask) {f : Nat → Nat → Nat}
    (hf : ∀ r a, convert src dst x.rnd r a % 2 ^ dst.width = f r a % 2 ^ dst.width) {o : Out} (ho : o = convertLanes s x src dst) :
    ∃ t, LaneResult o s t x.vd x.mask x.agn dst.width (cvtCount src dst)
        (fun e => f (drawnFor s x (cvtCount src dst) e) (elem src.width (getV s s.cur x.va) e)) 4 ∧
      (∀ j : Fin 8, (t.ctx s.cur).st[j.val] = if x.rnd = .sr then
        xsNext^[drawsOf (active s x.mask (cvtCount src dst)) j.val (List.range (cvtCount src dst))] (s.ctx s.cur).st[j.val]
        else (s.ctx s.cur).st[j.val]) ∧
      (x.rnd ≠ .sr → t = s) ∧ MemoryKept s t ∧ (∀ c, c ≠ s.cur → t.ctx c = s.ctx c) ∧ (t.ctx s.cur).pc = (s.ctx s.cur).pc ∧
      (∀ r, getG t s.cur r = getG s s.cur r) ∧ ∀ v, getV t s.cur v = getV s s.cur v := by
  subst ho
  exact ⟨_, laneResult_congr (convertLanes_result hr) fun e _ => hf _ _, drawnState_keeps s x _⟩

end convert

theorem convert_int (w v : Nat) (sg tg : Bool) (mode : Rnd) (r a : Nat) : convert (.int w sg) (.int v tg) mode r a =
    ((if mode = .sat then clampTo (.int v tg) (numberOf (.int w sg) a) else numberOf (.int w sg) a) % 2 ^ v).toNat := by
  have hnum : (if sg then sInt w a else (a : Int)) = numberOf (.int w sg) a := by cases sg <;> rfl
  simp only [convert, hnum, sat_eq, wrapI_eq]
  split <;> rfl

theorem convert_ofInt (w : Nat) (sg : Bool) (g : FFmt) (mode : Rnd) (r a : Nat) :
    convert (.int w sg) (.flt g) mode r a = fround g mode r (ofInt (numberOf (.int w sg) a)) := by cases sg <;> rfl

theorem widthOf_le (t : Fin 8) : widthOf t ≤ 64 := by revert t; decide

/-- Settles O22: the short forms are lanes with no mask; a conversion is the lanes of its draws, and its rounding to whole numbers and its
saturation are those of the rationals. -/
theorem shortLaneAndConversionResults : Obligations.ShortLaneAndConversionResults := by
  unfold Obligations.ShortLaneAndConversionResults
  refine ⟨fun s x _ hr => ⟨sv1_plain hr fun _ a => a, sv1_plain hr laneNeg, sv1_plain hr laneAbs, fun hd => vmac_plain hr hd, fun hd => ?_⟩,
    fun s x hr => ⟨?_, ?_, ?_, ?_⟩⟩
  · refine ⟨sv2_plain hr hd laneAdd, sv2_plain hr hd laneSub, sv2_plain hr hd laneMul, sv2_plain hr hd laneMin, sv2_plain hr hd laneMax,
      sv2_plain hr hd fun _ a b => a &&& b, sv2_plain hr hd fun _ a b => a ||| b, sv2_plain hr hd fun _ a b => a ^^^ b, ?_,
      sv2_plain hr hd fun t a b => laneShr t.width a b, ?_⟩
    · exact plainResult_congr (sv2_plain hr hd fun t a b => laneShl t.width a b) fun e => Nat.mod_mod _ _
    · refine plainResult_congr (sv2_plain hr hd fun t a b => laneSar t.width a b) fun e => ?_
      rw [laneSar, wrapI_eq]
      push_cast
      rfl
  · exact conversion (src := .flt (fltTy x.ta)) (dst := .flt (fltTy x.tb)) hr (fun _ _ => rfl) rfl
  · exact conversion (src := .flt (fltTy x.ta)) (dst := intTy x.tb) (f := fun r a => toWholeOf x.rnd (intTy x.tb) r (fval (fltTy x.ta) a)) hr
      (fun r a => congrArg (· % _) (cvtToInt_eq (widthOf_le x.tb) _ x.rnd r _)) rfl
  · exact conversion (src := intTy x.ta) (dst := .flt (fltTy x.tb)) hr
      (fun r a => congrArg (· % _) (convert_ofInt _ _ _ x.rnd r a)) rfl
  · exact conversion (src := intTy x.ta) (dst := intTy x.tb) hr (fun r a => congrArg (· % _) (convert_int _ _ _ _ x.rnd r a)) rfl

end Sys2Proof.Proofs
end

