-- ==== Sys2Proof/Proofs/Host.lean ====
section
/-! PROOFS. The register aperture, the host's accesses to device memory, its ports, and the pod links (R59, R183, R340 to R346, R353,
R355). -/

namespace Sys2Proof.Proofs

open Sys2Proof.Machine Sys2Proof.Laws

/-! ### Numbers in memory (R2) -/

theorem leNat_leBytes (n x : Nat) : leNat (leBytes n x) = x % 2 ^ (8 * n) := by
  induction n generalizing x with
  | zero => simp [leBytes, leNat, Nat.mod_one]
  | succ n ih =>
    have hpow : 2 ^ (8 * (n + 1)) = 256 * 2 ^ (8 * n) := by rw [Nat.mul_succ, Nat.pow_add, Nat.mul_comm]
    rw [leBytes, leNat, ih, BitVec.toNat_ofNat, hpow, Nat.mod_mul]

theorem leNat_lt (l : List Byte) : leNat l < 2 ^ (8 * l.length) := by
  induction l with
  | nil => simp [leNat]
  | cons b l ih =>
    have hb := b.isLt
    have hpow : 2 ^ (8 * (l.length + 1)) = 256 * 2 ^ (8 * l.length) := by rw [Nat.mul_succ, Nat.pow_add, Nat.mul_comm]
    rw [leNat, List.length_cons, hpow]
    omega

theorem readLoc_eq (s : State) (loc n : Nat) : readLoc s loc n = leNat (readBytes s loc n) := rfl

theorem readLoc_lt (s : State) (loc n : Nat) : readLoc s loc n < 2 ^ (8 * n) := by
  have h := leNat_lt (readBytes s loc n)
  rwa [length_readBytes] at h

/-! ### Registers of the aperture (R342, R343) -/

section registers
variable {s : State}

theorem modnumWrite_fixed (v : Word) (h : hostAnswers s = true) (hq : queueRegistered s = true) : exec (.modnumWrite v) s = .next s := by
  show execModnumWrite v s = _
  simp [execModnumWrite, h, hq]

theorem modnumWrite_taken (v : Word) (h : hostAnswers s = true) (hq : queueRegistered s = false) :
    exec (.modnumWrite v) s = .next { s with mod := { s.mod with modnum := v.toNat % 256 } } := by
  show execModnumWrite v s = _
  simp [execModnumWrite, h, hq]

theorem feataccWrite_fixed (i : Fin 4) (v : Word) (h : hostAnswers s = true) (hq : queueRegistered s = true) :
    exec (.feataccWrite i v) s = .next (setErr s 0) := by
  show execFeataccWrite i v s = _
  simp [execFeataccWrite, h, hq]

/-- The accepted features after a write: the first register takes the advertised ones, the others nothing. -/
theorem feataccWrite_taken (i : Fin 4) (v : Word) (h : hostAnswers s = true) (hq : queueRegistered s = false) :
    ∃ t, exec (.feataccWrite i v) s = .next t ∧ t.mod.errReg = s.mod.errReg ∧
      ∀ j : Fin 4, t.mod.featAcc[j.val] = if j = i then (if i = 0 then v &&& s.mod.feat0 else 0) else s.mod.featAcc[j.val] := by
  have hexec : exec (.feataccWrite i v) s = .next { s with mod := { s.mod with
      featAcc := s.mod.featAcc.set i.val (v &&& if i.val = 0 then s.mod.feat0 else 0) i.isLt } } := by
    show execFeataccWrite i v s = _
    simp [execFeataccWrite, h, hq]
  refine ⟨_, hexec, rfl, fun j => ?_⟩
  by_cases hj : j = i
  · subst hj
    by_cases h0 : j = 0
    · subst h0
      simp
    · have hv : j.val ≠ 0 := fun e => h0 (Fin.ext e)
      simp [h0, hv]
  · have hne : i.val ≠ j.val := fun e => hj (Fin.ext e.symm)
    simp [hj, Vector.getElem_set_ne, hne]

theorem ctlqWrite_fixed (v : Word) (h : hostAnswers s = true) (hq : queueRegistered s = true ∨ ctlPending s = true) :
    exec (.ctlqWrite v) s = .next (setErr s 1) := by
  show execCtlqWrite v s = _
  simp [execCtlqWrite, h, hq]

theorem ctlqWrite_taken {v : Word} (h : hostAnswers s = true) (hq : queueRegistered s = false) (hp : ctlPending s = false)
    (hv : v.toNat % 64 = 0) : exec (.ctlqWrite v) s = .next { s with mod := { s.mod with ctlq := v } } := by
  have hdiv : BitVec.ofNat 64 (v.toNat / 64 * 64) = v := by
    rw [Nat.div_mul_cancel (Nat.dvd_of_mod_eq_zero hv), BitVec.ofNat_toNat, BitVec.setWidth_eq]
  show execCtlqWrite v s = _
  simp [execCtlqWrite, h, hq, hp, hdiv]

theorem errWrite_clears (v : Word) (h : hostAnswers s = true) :
    exec (.errWrite v) s = .next { s with mod := { s.mod with errReg := s.mod.errReg &&& ~~~v } } := by
  show execErrWrite v s = _
  simp [execErrWrite, h]

theorem ctlqBlocked_noted {q : QHeader} (hh : ctlHeader s = some q) (hne : q.widx ≠ q.ridx) (hhead : ctlHead s = none)
    (hbusy : s.mod.ctlBusy = false) : exec .ctlqBlockedTimeout s = .next (setErr s 2) := by
  show execCtlqBlockedTimeout s = _
  simp [execCtlqBlockedTimeout, hh, hne, hhead, hbusy]

end registers

/-! ### The device memory aperture (R59, R183, R340, R341, R346) -/

/-- No page that a run of device memory reaches is packed or protected (R290, R291). -/
def PlainPages (s : State) (off n : Nat) : Prop := ∀ i, i < n → markedPage s (off + i) = none

theorem noteOutside_eq (s : State) (die : Nat) (clock : List Nat) (rel : Option (AgentScope × Storage)) (rmw : Bool) (locs : List Nat) :
    noteOutside s die clock rel rmw locs = withOrder (noteOutside s die clock rel rmw locs).vis s.unacked s := noteAs_eq ..

theorem noteHost_eq (s : State) (rmw : Bool) (off n : Nat) : noteHost s rmw off n = withOrder (noteHost s rmw off n).vis true s := by
  rw [noteHost, noteOutside_eq]
  rfl

theorem markedUnder_withOrder (v : Visibility) (u : Bool) (s : State) (p n table : Nat) :
    markedUnder (withOrder v u s) p n table = markedUnder s p n table := by
  induction n generalizing table with
  | zero => rfl
  | succ n ih =>
    have hread : ∀ loc k, readLoc (withOrder v u s) loc k = readLoc s loc k := fun _ _ => rfl
    simp only [markedUnder, hread, ih]
    rfl

theorem markedPage_withOrder (v : Visibility) (u : Bool) (s : State) (p : Nat) : markedPage (withOrder v u s) p = markedPage s p := by
  simp only [markedPage, markedUnder_withOrder]
  rfl

/-- Plain pages read as memory through the aperture. -/
theorem apertureBytes_plain {s : State} {off n : Nat} (hend : off + n ≤ hbmSize) (h : PlainPages s off n) :
    ((List.range n).map fun i => apertureByte s (off + i)) = readBytes s (hbmLoc + off) n := by
  rw [readBytes, memory_bytes_eq, List.map_map]
  refine List.map_congr_left fun i hi => ?_
  have hi := List.mem_range.mp hi
  rw [apertureByte, if_neg (by omega), h i hi, Function.comp_apply, Nat.add_assoc]

/-- The descriptors of blocks from `first` on set to 0. -/
def clearDescs (s : State) (first n : Nat) : State := (List.range n).foldl (fun s i => setDesc s (first + i) 0) s

theorem clearDescs_succ (s : State) (first n : Nat) : clearDescs s first (n + 1) = setDesc (clearDescs s first n) (first + n) 0 := by
  rw [clearDescs, List.range_succ, List.foldl_append]
  rfl

theorem clearDescs_inv {s : State} (h : MemoryInv s) (first n : Nat) : MemoryInv (clearDescs s first n) := by
  induction n with
  | zero => exact h
  | succ n ih =>
    rw [clearDescs_succ]
    exact setDesc_inv ih

theorem clearDescs_mem (s : State) (first n : Nat) : (clearDescs s first n).mem = s.mem := by
  induction n with
  | zero => rfl
  | succ n ih => rw [clearDescs_succ, setDesc_mem, ih]

theorem clearDescs_mod (s : State) (first n : Nat) : (clearDescs s first n).mod = s.mod := by
  induction n with
  | zero => rfl
  | succ n ih => rw [clearDescs_succ, setDesc_mod, ih]

theorem descOf_setDesc_same {s : State} (h : MemoryInv s) (b : Nat) (d : BitVec 16) : descOf (setDesc s b d) b = d :=
  sparseGet_put_same h.2.1

theorem descOf_setDesc_other {s : State} {b c : Nat} (h : c ≠ b) (d : BitVec 16) : descOf (setDesc s b d) c = descOf s c :=
  sparseGet_put_other h

theorem descOf_clearDescs {s : State} (h : MemoryInv s) (first : Nat) {n i : Nat} (hi : i < n) :
    descOf (clearDescs s first n) (first + i) = 0 := by
  induction n with
  | zero => omega
  | succ n ih =>
    rw [clearDescs_succ]
    by_cases hin : i = n
    · subst hin
      exact descOf_setDesc_same (clearDescs_inv h first i) _ 0
    · rw [descOf_setDesc_other (by omega), ih (by omega)]

theorem withOrder_inv {v : Visibility} {u : Bool} {s : State} (h : MemoryInv s) : MemoryInv (withOrder v u s) := h

section aperture
variable {s : State} {off : Nat} {bs : List Byte}

/-- A write to plain pages stores its bytes, and the descriptors of its whole blocks become 0. -/
theorem apertureWrite_plain (rmw : Bool) (hbs : bs ≠ []) (hend : off + bs.length ≤ hbmSize) (h : PlainPages s off bs.length) :
    ∃ v, apertureWrite s rmw off bs = clearDescs (withOrder v true (store s (hbmLoc + off) bs)) (hbmLoc / 64 + (off + 63) / 64)
      ((off + bs.length) / 64 - (off + 63) / 64) := by
  have htake : bs.take (hbmSize - off) = bs := List.take_of_length_le (by omega)
  have hne : bs.isEmpty = false := by simpa using hbs
  have hmarked : ((List.range bs.length).any fun i => (markedPage (noteHost s rmw off bs.length) (off + i)).isSome) = false := by
    rw [List.any_eq_false]
    intro i hi
    rw [noteHost_eq, markedPage_withOrder, h i (List.mem_range.mp hi)]
    decide
  refine ⟨(noteHost s rmw off bs.length).vis, ?_⟩
  unfold apertureWrite
  simp only [htake, hne, hmarked]
  rw [noteHost_eq, store_withOrder]
  rfl

/-- What a write to plain pages leaves (R59, R340). -/
theorem apertureWrite_leaves (rmw : Bool) (hinv : MemoryInv s) (hbs : bs ≠ []) (hend : off + bs.length ≤ hbmSize)
    (h : PlainPages s off bs.length) :
    readBytes (apertureWrite s rmw off bs) (hbmLoc + off) bs.length = bs ∧ (apertureWrite s rmw off bs).mod = s.mod ∧
      (∀ a, (a < hbmLoc + off ∨ hbmLoc + off + bs.length ≤ a) → (a < boltLoc 0 ∨ boltLoc 64 ≤ a) →
        Memory.get (apertureWrite s rmw off bs).mem a = Memory.get s.mem a) ∧
      ∀ b, off ≤ 64 * b → 64 * b + 64 ≤ off + bs.length → descOf (apertureWrite s rmw off bs) (hbmLoc / 64 + b) = 0 := by
  obtain ⟨v, heq⟩ := apertureWrite_plain rmw hbs hend h
  have hmem : (apertureWrite s rmw off bs).mem = (store s (hbmLoc + off) bs).mem := by rw [heq, clearDescs_mem]; rfl
  have hlow : boltLoc 64 ≤ hbmLoc + off := by unfold boltLoc hbmLoc; omega
  refine ⟨?_, ?_, fun a ha hbeside => ?_, fun b hlo hhi => ?_⟩
  · rw [readBytes, hmem]
    exact store_bytes hinv.1 rfl (.inr hlow)
  · rw [heq, clearDescs_mod]
    exact (store_frame s _ bs).module
  · rw [hmem, store_get hbeside, memory_get_putBytes_outside ha]
  · have hb : hbmLoc / 64 + b = hbmLoc / 64 + (off + 63) / 64 + (b - (off + 63) / 64) := by omega
    rw [heq, hb]
    exact descOf_clearDescs (withOrder_inv (store_inv hinv)) _ (by omega)

theorem hostRead_plain {n : Nat} (hans : hostAnswers s = true) (hfrozen : s.mod.frozen = false) (hend : off + n ≤ hbmSize)
    (h : PlainPages s off n) : exec (.hostRead off n) s = .next (reply s (.data (readBytes s (hbmLoc + off) n))) := by
  show execHostRead off n s = _
  simp [execHostRead, hans, hfrozen, apertureBytes_plain hend h]

theorem hostWrite_runs (hans : hostAnswers s = true) (hfrozen : s.mod.frozen = false) :
    exec (.hostWrite off bs) s = .next (apertureWrite s false off bs) := by
  show execHostWrite off bs s = _
  simp [execHostWrite, hans, hfrozen]

/-- What an AtomicOp of a width writes (R183). -/
def atomicNew (op : AtomicOp) (n o : Nat) (v w : Word) : Nat :=
  match op with
  | .fetchAdd => (o + v.toNat) % 2 ^ (8 * n)
  | .swap => v.toNat % 2 ^ (8 * n)
  | .cas => if o = w.toNat % 2 ^ (8 * n) then v.toNat % 2 ^ (8 * n) else o

theorem atomicNew_lt (op : AtomicOp) {n o : Nat} (v w : Word) (h : o < 2 ^ (8 * n)) : atomicNew op n o v w < 2 ^ (8 * n) := by
  have hpos : 0 < 2 ^ (8 * n) := by positivity
  cases op with
  | fetchAdd => exact Nat.mod_lt _ hpos
  | swap => exact Nat.mod_lt _ hpos
  | cas =>
    rw [atomicNew]
    split
    · exact Nat.mod_lt _ hpos
    · exact h

/-- The bytes of a size. -/
def sizeBytes (z : AtSize) : Nat := match z with
  | .w => 4
  | .x => 8

theorem hostAtomicop_plain (op : AtomicOp) (z : AtSize) (v w : Word) (hinv : MemoryInv s) (hans : hostAnswers s = true)
    (hfrozen : s.mod.frozen = false) (hal : off % sizeBytes z = 0) (hend : off + sizeBytes z ≤ hbmSize)
    (h : PlainPages s off (sizeBytes z)) :
    ∃ t, exec (.hostAtomicop op z off v w) s = .next t ∧
      t.mod.replies = s.mod.replies ++ [.data (readBytes s (hbmLoc + off) (sizeBytes z))] ∧
      readLoc t (hbmLoc + off) (sizeBytes z) = atomicNew op (sizeBytes z) (readLoc s (hbmLoc + off) (sizeBytes z)) v w := by
  have hlen := length_leBytes (sizeBytes z) (atomicNew op (sizeBytes z) (readLoc s (hbmLoc + off) (sizeBytes z)) v w)
  have hpos : 0 < sizeBytes z := by cases z <;> decide
  have hne : leBytes (sizeBytes z) (atomicNew op (sizeBytes z) (readLoc s (hbmLoc + off) (sizeBytes z)) v w) ≠ [] := by
    rw [← List.length_pos_iff, hlen]
    exact hpos
  obtain ⟨hread, hmod, -, -⟩ := apertureWrite_leaves (off := off) true hinv hne (by rwa [hlen]) (by rwa [hlen])
  have hexec : exec (.hostAtomicop op z off v w) s = .next (reply (apertureWrite s true off
      (leBytes (sizeBytes z) (atomicNew op (sizeBytes z) (readLoc s (hbmLoc + off) (sizeBytes z)) v w)))
      (.data (readBytes s (hbmLoc + off) (sizeBytes z)))) := by
    have happ := apertureBytes_plain hend h
    show execHostAtomicop op z off v w s = _
    unfold execHostAtomicop
    cases z <;> simp only [sizeBytes] at hal happ ⊢ <;> simp only [hans, hfrozen, hal, happ] <;> cases op <;> rfl
  refine ⟨_, hexec, ?_, ?_⟩
  · show (apertureWrite s true off _).mod.replies ++ _ = _
    rw [hmod]
  · show readLoc (apertureWrite s true off _) _ _ = _
    rw [hlen] at hread
    rw [readLoc_eq, hread, leNat_leBytes, Nat.mod_eq_of_lt (atomicNew_lt op v w (readLoc_lt ..))]

theorem hostRead_frozen (n : Nat) (hans : hostAnswers s = true) (hfrozen : s.mod.frozen = true) :
    exec (.hostRead off n) s = .next (reply s .unsupported) := by
  show execHostRead off n s = _
  simp [execHostRead, hans, hfrozen]

theorem hostWrite_frozen (hans : hostAnswers s = true) (hfrozen : s.mod.frozen = true) : exec (.hostWrite off bs) s = .next s := by
  show execHostWrite off bs s = _
  simp [execHostWrite, hans, hfrozen]

/-- A module that does not answer is not reached (log 59). -/
theorem host_refused (n : Nat) (h : hostAnswers s = false) :
    exec (.hostRead off n) s = .refused .eventNotEnabled ∧ exec (.hostWrite off bs) s = .refused .eventNotEnabled := by
  constructor
  · show execHostRead off n s = _
    simp [execHostRead, h]
  · show execHostWrite off bs s = _
    simp [execHostWrite, h]

end aperture

theorem hostAnswers_ports_down {s : State} (h : ∀ q : Fin 4, (s.mod.hosts[q.val]).up = false) : hostAnswers s = false := by
  have hany : (s.mod.hosts.toList.any fun h => h.up) = false := by
    rw [List.any_eq_false]
    intro x hx
    obtain ⟨i, hi, rfl⟩ := List.mem_iff_getElem.mp hx
    have hi4 : i < 4 := by simpa using hi
    simpa using h ⟨i, hi4⟩
  rw [hostAnswers, hany, Bool.and_false]

theorem hostAnswers_stage {s : State} (h : s.mod.spaly.stage ≠ 7) : hostAnswers s = false := by simp [hostAnswers, h]

/-! ### The host's ports (R340, R353, R355) -/

section ports
variable {s : State} {p : Fin 4}

theorem hostConfigRequest_answered (hp : (s.mod.hosts[p.val]).perst = false) (hb : s.mod.spaly.standby = true) :
    exec (.hostConfigRequest p) s = .next (reply s (if s.mod.spaly.stage = 7 then .config else .retry)) := by
  show execHostConfigRequest p s = _
  simp [execHostConfigRequest, hp, hb]

theorem hostPortLinkChange_sets {up : Bool} (h : up = false ∨ (s.mod.hosts[p.val]).perst = false) :
    ∃ t, exec (.hostPortLinkChange p up) s = .next t ∧ t.mod.hosts[p.val] = { s.mod.hosts[p.val] with up := up } ∧ t.mem = s.mem := by
  have hcond : (up && (s.mod.hosts[p.val]).perst) = false := by rcases h with h | h <;> simp [h]
  have hexec : exec (.hostPortLinkChange p up) s = .next { s with mod := { s.mod with
      hosts := s.mod.hosts.set p.val { s.mod.hosts[p.val] with up := up } p.isLt } } := by
    show execHostPortLinkChange p up s = _
    simp [execHostPortLinkChange, hcond]
  exact ⟨_, hexec, by simp, rfl⟩

theorem perstChange_sets (up : Bool) : ∃ t, exec (.perstChange p up) s = .next t ∧ t.mem = s.mem ∧
    t.mod.hosts[p.val] = { perst := up, up := (s.mod.hosts[p.val]).up && !up } :=
  ⟨_, rfl, rfl, by simp⟩

end ports

/-! ### Pod links (R345) -/

theorem podPort_setPort_same (s : State) (p : Fin 32) (x : PodPort) : podPort (setPort s p x) p = x := by simp [podPort, setPort]

theorem podPort_setPort_other {s : State} {p q : Fin 32} (h : q ≠ p) (x : PodPort) : podPort (setPort s p x) q = podPort s q := by
  have hne : p.val ≠ q.val := fun e => h (Fin.ext e.symm)
  simp [podPort, setPort, Vector.getElem_set_ne, hne]

/-- The number of the first flit that a port holds. -/
def firstHeld (x : PodPort) : Nat := (x.sendSeq + 4096 - x.unacked.length % 4096) % 4096

/-- An acknowledgement that names the `n`-th flit held (log 38). -/
def Covers (x : PodPort) (ack n : Nat) : Prop := 0 < n ∧ n ≤ x.unacked.length ∧ ack = (firstHeld x + n + 4095) % 4096

theorem acknowledge_covered {x : PodPort} {ack n : Nat} (hn : n < 4096) (h : Covers x ack n) :
    acknowledge x ack = { x with unacked := x.unacked.drop n, tries := 0 } := by
  obtain ⟨hpos, hle, hack⟩ := h
  have hfirst : firstHeld x < 4096 := Nat.mod_lt _ (by omega)
  have hcount : (ack + 1 + 4096 - firstHeld x) % 4096 = n := by omega
  show (if (ack + 1 + 4096 - firstHeld x) % 4096 = 0 ∨ x.unacked.length < (ack + 1 + 4096 - firstHeld x) % 4096 then x
    else { x with unacked := x.unacked.drop ((ack + 1 + 4096 - firstHeld x) % 4096), tries := 0 }) = _
  rw [hcount, if_neg (by omega)]

theorem acknowledge_uncovered {x : PodPort} {ack : Nat} (hack : ack < 4096) (h : ∀ n, n < 4096 → ¬ Covers x ack n) :
    acknowledge x ack = x := by
  have hfirst : firstHeld x < 4096 := Nat.mod_lt _ (by omega)
  refine if_pos ?_
  by_contra hc
  rw [not_or, not_lt] at hc
  obtain ⟨hne, hle⟩ := hc
  refine h ((ack + 1 + 4096 - firstHeld x) % 4096) (Nat.mod_lt _ (by omega)) ⟨Nat.pos_of_ne_zero hne, hle, ?_⟩
  omega

/-- An acknowledgement changes what a port holds and how often it has tried, and nothing else. -/
theorem acknowledge_keeps (x : PodPort) (ack : Nat) :
    ∃ u n, acknowledge x ack = { x with unacked := u, tries := n } := by
  unfold acknowledge
  dsimp only
  split
  · exact ⟨x.unacked, x.tries, rfl⟩
  · exact ⟨_, _, rfl⟩

section links
variable {s : State} {p : Fin 32} {f : Flit}

/-- A flit that a port takes: its check passes and it comes in order. -/
def FlitTaken (x : PodPort) (f : Flit) : Prop := flitOk f.bytes = true ∧ (flitHeader f.bytes).seq = x.recvSeq

theorem receive_taken {x : PodPort} (h : FlitTaken x f) : receive x f.bytes =
    { acknowledge x (flitHeader f.bytes).ack with
      recvSeq := (x.recvSeq + 1) % 4096, replayOf := none, credits := (flitHeader f.bytes).credits } := if_pos h

theorem receive_discarded {x : PodPort} (h : ¬ FlitTaken x f) : receive x f.bytes = { x with replayOf := some x.recvSeq } := if_neg h

/-- What a flit that is taken leaves of its port. -/
def FlitLeaves (x y : PodPort) (f : Flit) : Prop :=
  y.recvSeq = (x.recvSeq + 1) % 4096 ∧ y.replayOf = none ∧ y.credits = (flitHeader f.bytes).credits ∧ y.sendSeq = x.sendSeq ∧
    (∀ n, n < 4096 → Covers x (flitHeader f.bytes).ack n → y.unacked = x.unacked.drop n ∧ y.tries = 0) ∧
    ((flitHeader f.bytes).ack < 4096 → (∀ n, n < 4096 → ¬ Covers x (flitHeader f.bytes).ack n) →
      y.unacked = x.unacked ∧ y.tries = x.tries)

theorem receive_leaves {x : PodPort} (h : FlitTaken x f) : FlitLeaves x (receive x f.bytes) f := by
  unfold FlitLeaves
  rw [receive_taken h]
  refine ⟨rfl, rfl, rfl, ?_, fun n hn hc => ?_, fun hack hc => ?_⟩
  · obtain ⟨u, n, hkeeps⟩ := acknowledge_keeps x (flitHeader f.bytes).ack
    rw [hkeeps]
  · rw [acknowledge_covered hn hc]
    exact ⟨rfl, rfl⟩
  · rw [acknowledge_uncovered hack hc]
    exact ⟨rfl, rfl⟩

/-- What comes with a flit of a type changes no memory, no context, no core and no port. -/
def FlitEffect (k : State → State) : Prop :=
  ∀ s, (k s).mem = s.mem ∧ (k s).ctxs = s.ctxs ∧ (k s).core = s.core ∧ ∀ q, podPort (k s) q = podPort s q

theorem flitEffect_none : FlitEffect fun s => s := fun _ => ⟨rfl, rfl, rfl, fun _ => rfl⟩

theorem podPort_observeTick (s : State) (q : Fin 32) : podPort (observeTick s) q = podPort s q := rfl

theorem flitEffect_time : FlitEffect observeTick := fun s => ⟨rfl, rfl, rfl, podPort_observeTick s⟩

theorem receiveFlit_takes {type : Nat} {k : State → State} (hk : FlitEffect k) (hup : (podPort s p).up = true)
    (hlen : f.bytes.length = 128) (ht : (flitHeader f.bytes).type = type ∨ flitOk f.bytes = false) :
    ∃ t, receiveFlit type p f s k = .next t ∧ t.mem = s.mem ∧ t.ctxs = s.ctxs ∧ t.core = s.core ∧
      (∀ q, q ≠ p → podPort t q = podPort s q) ∧ podPort t p = receive (podPort s p) f.bytes := by
  have hcond : (!(podPort s p).up || decide (f.bytes.length ≠ 128) ||
      (flitOk f.bytes && decide ((flitHeader f.bytes).type ≠ type))) = false := by
    rcases ht with h | h <;> simp [hup, hlen, h]
  have hport : ∀ q, q ≠ p → podPort (setPort s p (receive (podPort s p) f.bytes)) q = podPort s q :=
    fun q hq => podPort_setPort_other hq _
  unfold receiveFlit
  dsimp only
  rw [hcond, if_neg (by decide)]
  split
  · obtain ⟨hmem, hctxs, hcore, hports⟩ := hk (setPort s p (receive (podPort s p) f.bytes))
    exact ⟨_, rfl, hmem, hctxs, hcore, fun q hq => (hports q).trans (hport q hq), (hports p).trans (podPort_setPort_same ..)⟩
  · exact ⟨_, rfl, rfl, rfl, rfl, hport, podPort_setPort_same ..⟩

theorem flit_taken_or_discarded {type : Nat} {k : State → State} (hk : FlitEffect k) (hup : (podPort s p).up = true)
    (hlen : f.bytes.length = 128) (ht : (flitHeader f.bytes).type = type ∨ flitOk f.bytes = false) :
    ∃ t, receiveFlit type p f s k = .next t ∧ t.mem = s.mem ∧ t.ctxs = s.ctxs ∧ t.core = s.core ∧
      (∀ q, q ≠ p → podPort t q = podPort s q) ∧ (FlitTaken (podPort s p) f → FlitLeaves (podPort s p) (podPort t p) f) ∧
      (¬ FlitTaken (podPort s p) f → podPort t p = { podPort s p with replayOf := some (podPort s p).recvSeq }) := by
  obtain ⟨t, hexec, hmem, hctxs, hcore, hother, hport⟩ := receiveFlit_takes hk hup hlen ht
  exact ⟨t, hexec, hmem, hctxs, hcore, hother, fun h => hport ▸ receive_leaves h, fun h => hport.trans (receive_discarded h)⟩

theorem length_makeFlit (h : FlitHeader) (payload : List Byte) : (makeFlit h payload).length = 128 := by
  simp only [makeFlit, List.length_append, length_leBytes, List.length_take, List.length_replicate]
  omega

/-- A time flit goes out where the port is open and has room. -/
theorem sendFlit_time {y : PodPort} (src : Nat) (payload : List Byte) (h : y.up = true ∧ y.unacked.length < 1024) :
    ∃ b, (sendFlit src 3 0 payload y).unacked = y.unacked ++ [b] ∧ (sendFlit src 3 0 payload y).wire = y.wire ++ [b] ∧
      (sendFlit src 3 0 payload y).sendSeq = (y.sendSeq + 1) % 4096 ∧ b.length = 128 ∧
      (sendFlit src 3 0 payload y).credits = y.credits := by
  obtain ⟨hup, hroom⟩ := h
  have hcond : (!y.up || decide (1024 ≤ y.unacked.length) ||
      ((decide (3 = 1) || decide (3 = 2) || decide (3 = 4)) && decide (y.credits = 0))) = false := by
    simp [hup, hroom]
  unfold sendFlit
  dsimp only
  rw [hcond, if_neg (by decide)]
  exact ⟨_, rfl, rfl, rfl, length_makeFlit .., rfl⟩

theorem sendFlit_held {y : PodPort} (src : Nat) (payload : List Byte) (h : ¬ (y.up = true ∧ y.unacked.length < 1024)) :
    sendFlit src 3 0 payload y = y := by
  rw [not_and, not_lt] at h
  unfold sendFlit
  dsimp only
  refine if_pos ?_
  cases hup : y.up with
  | false => rfl
  | true => simp [h hup]

theorem timeFlitTimer_sends (hb : s.mod.spaly.standby = true) (hst : 6 ≤ s.mod.spaly.stage) :
    ∃ t src payload, exec .timeFlitTimer s = .next t ∧ t.mem = s.mem ∧
      ∀ q, podPort t q = sendFlit src 3 0 payload (podPort s q) := by
  have hcond : ¬ (s.mod.spaly.standby = false ∨ s.mod.spaly.stage < 6) := by
    simp [hb, hst]
  refine ⟨_, (observeTick s).mod.modnum, leBytes 8 (observeTick s).mod.tick.toNat, if_neg hcond, rfl, fun q => ?_⟩
  simp only [podPort, Vector.getElem_ofFn]
  rfl

theorem podPort_logEvent (s : State) (e : LogEvent) (q : Fin 32) : podPort (logEvent s e) q = podPort s q := rfl

/-- With no job about, a lost link is closed and logged, and that is all. -/
theorem loseLink_idle (h : s.clu.jobs = []) (n : Nat) : loseLink s p n =
    logEvent (setPort s p { podPort s p with up := false, lost := true, replays := n }) (.linkLost p.val) := by
  have hjobs : (logEvent (setPort s p { podPort s p with up := false, lost := true, replays := n }) (.linkLost p.val)).clu.jobs = [] := h
  unfold loseLink
  dsimp only
  rw [hjobs]
  rfl

theorem loseLink_leaves (h : s.clu.jobs = []) (n : Nat) : (podPort (loseLink s p n) p).up = false ∧
    (podPort (loseLink s p n) p).lost = true ∧ (podPort (loseLink s p n) p).replays = n ∧ (loseLink s p n).mem = s.mem := by
  rw [loseLink_idle h, podPort_logEvent, podPort_setPort_same]
  exact ⟨rfl, rfl, rfl, rfl⟩

theorem linkReplayLimit_loses (hup : (podPort s p).up = true) (hheld : (podPort s p).unacked ≠ []) :
    exec (.linkReplayLimit p) s = .next (loseLink s p ((podPort s p).replays + (16 - (podPort s p).tries))) := by
  show execLinkReplayLimit p s = _
  simp [execLinkReplayLimit, hup, hheld]

theorem linkAckTimeout_loses (hup : (podPort s p).up = true) (hheld : (podPort s p).unacked ≠ []) :
    exec (.linkAckTimeout p) s = .next (loseLink s p (podPort s p).replays) := by
  show execLinkAckTimeout p s = _
  simp [execLinkAckTimeout, hup, hheld]

theorem podLinkRetrain_opens (h : (podPort s p).up = false) :
    exec (.podLinkRetrain p) s = .next (setPort s p { PodPort.reset with up := true, replays := (podPort s p).replays }) := by
  show execPodLinkRetrain p s = _
  simp [execPodLinkRetrain, h]

end links

/-- Settles O55: registers and ports by their own rules, the aperture by what a store to plain pages leaves, and the links by what a port
takes, sends and loses. -/
theorem hostAndLinkResults : Obligations.HostAndLinkResults := by
  unfold Obligations.HostAndLinkResults
  refine ⟨fun s v i hans => ⟨fun hq => ?_, fun hq => ?_, errWrite_clears v hans, fun q hh hne hhead hbusy =>
      ctlqBlocked_noted hh hne hhead hbusy⟩,
    fun s off bs n op v w p up hinv hans hend hbend => ⟨fun hfrozen => ?_, fun hfrozen => ?_, fun hp => ?_, fun u hp hb hst => ?_,
      fun u hdown => host_refused n (hostAnswers_ports_down hdown), fun h => hostPortLinkChange_sets h, perstChange_sets up⟩,
    fun s p f => ⟨fun hup hlen => ?_, fun hb hst => ?_, fun hup hheld hjobs => ?_, fun hup => ?_⟩⟩
  · exact ⟨modnumWrite_fixed v hans hq, feataccWrite_fixed i v hans hq, ctlqWrite_fixed v hans (.inl hq)⟩
  · exact ⟨modnumWrite_taken v hans hq, feataccWrite_taken i v hans hq, fun hp => ctlqWrite_fixed v hans (.inr hp),
      fun hp hv => ctlqWrite_taken hans hq hp hv⟩
  · refine ⟨fun h => hostRead_plain hans hfrozen hend h, fun hbs h => ?_,
      fun hal hend4 h => hostAtomicop_plain op .w v w hinv hans hfrozen hal hend4 h,
      fun hal hend8 h => hostAtomicop_plain op .x v w hinv hans hfrozen hal hend8 h⟩
    obtain ⟨hread, -, houtside, hdescs⟩ := apertureWrite_leaves false hinv hbs hbend h
    exact ⟨_, hostWrite_runs hans hfrozen, hread, houtside, hdescs⟩
  · exact ⟨hostRead_frozen n hans hfrozen, hostWrite_frozen hans hfrozen⟩
  · have hans' := hans
    simp only [hostAnswers, Bool.and_eq_true, decide_eq_true_eq] at hans'
    obtain ⟨⟨hb, hst⟩, -⟩ := hans'
    have hanswer := hostConfigRequest_answered hp hb
    rw [if_pos hst] at hanswer
    exact hanswer
  · have hanswer := hostConfigRequest_answered hp hb
    rw [if_neg hst] at hanswer
    exact ⟨hanswer, host_refused n (hostAnswers_stage hst)⟩
  · have takes := fun {type k} (hk : FlitEffect k) => flit_taken_or_discarded (type := type) hk hup hlen
    exact ⟨takes flitEffect_none, takes flitEffect_none, takes flitEffect_none, takes flitEffect_time, takes flitEffect_none⟩
  · obtain ⟨t, src, payload, hexec, hmem, hports⟩ := timeFlitTimer_sends hb hst
    refine ⟨t, hexec, hmem, fun q => ?_⟩
    simp only [hports q]
    split
    · rename_i h
      exact sendFlit_time src payload h
    · rename_i h
      exact sendFlit_held src payload h
  · obtain ⟨hdown, hlost, hcount, hmem⟩ := loseLink_leaves (p := p) hjobs ((podPort s p).replays + (16 - (podPort s p).tries))
    obtain ⟨hdown', hlost', hcount', hmem'⟩ := loseLink_leaves (p := p) hjobs (podPort s p).replays
    exact ⟨⟨_, linkReplayLimit_loses hup hheld, hdown, hlost, hcount, hmem⟩,
      ⟨_, linkAckTimeout_loses hup hheld, hdown', hlost', hmem', hcount'⟩⟩
  · refine ⟨_, podLinkRetrain_opens hup, ?_, ?_, ?_, rfl, fun q hq => podPort_setPort_other hq _⟩ <;> rw [podPort_setPort_same]
    rfl

end Sys2Proof.Proofs
end

