-- ==== Sys2Proof/Proofs/Debug.lean ====
section
/-! PROOFS. The debug window and soft errors (R60, R227, R306, R310 to R312). -/

namespace Sys2Proof.Proofs

open Sys2Proof.Machine Sys2Proof.Laws

/-! ### Sets -/

theorem mem_setInsert {l : List Nat} {a k : Nat} : k ∈ setInsert l a ↔ k = a ∨ k ∈ l := by
  induction l with
  | nil => simp [setInsert]
  | cons b l ih =>
    unfold setInsert
    split
    · simp
    · split
      · next h => simp [h]
      · simp only [List.mem_cons, ih]
        tauto

theorem mem_setErase {l : List Nat} {a k : Nat} : k ∈ setErase l a ↔ k ≠ a ∧ k ∈ l := by
  simp [setErase, and_comm]

/-! ### A core that goes on (R306, R308, R310) -/

theorem serveAll_idle {s : State} (h : s.feQueue = []) : serveAll s = s := by
  unfold serveAll
  rw [h]
  rfl

theorem thaw_idle {s : State} (h : s.feQueue = []) : thaw s = s := by
  unfold thaw
  rw [serveAll_idle h, ite_self]

theorem applyHeld_idle {s : State} (h : s.core.heldWrites = []) : applyHeld s = s := by
  unfold applyHeld
  rw [h]
  show { s with core := { s.core with heldWrites := [] } } = s
  rw [← h]

/-- A held write of a g register that is not pending is written when the core goes on (R35, R310). -/
theorem applyHeld_g {s : State} {c : Fin 8} {r : GReg} {w : Vec} (h : s.core.heldWrites = [(c, .g r, w)])
    (hp : isPending s c r = false) :
    applyHeld s = { setG s c r (w.truncate 64) with core := { s.core with heldWrites := [] } } := by
  unfold applyHeld
  rw [h]
  simp [applyDebug, hp]

/-- How far past its pc a stopped context goes on: past the TRAP or BREAK that it executed (R306; log 36). -/
def resumeSkip (x : Ctx) : Word :=
  if stoppedAt x = some .swTrap ∨ stoppedAt x = some .brk then (if x.packet.any fun p => p.insn = 0 then 0 else 4) else 0

/-- The core runs again, each context at its pc and past a TRAP or BREAK. -/
theorem resumeAll_eq {s : State} (hm : mayResume s = true) (hq : (applyHeld s).feQueue = []) :
    resumeAll s = { applyHeld s with
      ctxs := Vector.ofFn fun c =>
        let x := (applyHeld s).ctx c
        { x with stopped := false, pc := x.pc + resumeSkip x },
      core := { (applyHeld s).core with frozen := false } } := by
  unfold resumeAll
  rw [hm]
  simp only [Bool.not_true, Bool.false_eq_true, if_false]
  rw [thaw_idle (by exact hq)]
  congr 2
  funext c
  simp only [resumeSkip]
  cases hs : stoppedAt ((applyHeld s).ctx c) with
  | none => simp
  | some k => cases k <;> simp

theorem resumeSkip_trapped {x : Ctx} {p : FaultPacket} (hs : x.stopped = true) (hp : x.packet = some p)
    (hc : p.cls = .swTrap ∨ p.cls = .brk) (hi : p.insn ≠ 0) : resumeSkip x = 4 := by
  have hi' : ¬ p.insn = 0#32 := hi
  simp [resumeSkip, stoppedAt, hs, hp, hc, hi']

theorem resumeSkip_other {x : Ctx}
    (h : ¬ (x.stopped = true ∧ ∃ p, x.packet = some p ∧ (p.cls = .swTrap ∨ p.cls = .brk) ∧ p.insn ≠ 0)) : resumeSkip x = 0 := by
  unfold resumeSkip stoppedAt
  cases hs : x.stopped
  · simp
  · cases hp : x.packet with
    | none => simp
    | some p =>
      by_cases hc : p.cls = .swTrap ∨ p.cls = .brk
      · have hi : p.insn = 0 := by
          by_contra hi
          exact h ⟨hs, p, hp, hc, hi⟩
        simp [hi]
      · simp [hc]

/-- A core may go on exactly when it is not sealed and no context is stopped at a fault with no resumption (R306). -/
theorem mayResume_iff (s : State) : mayResume s = true ↔ s.core.sealed = false ∧
    ¬ ∃ c p, (s.ctx c).stopped = true ∧ (s.ctx c).packet = some p ∧ p.cls ∈ [.pairMismatch, .illegalSync, .watchdog] := by
  have one (c : Fin 8) : ((stoppedAt (s.ctx c)).all resumable) = true ↔
      ∀ p, (s.ctx c).stopped = true → (s.ctx c).packet = some p → p.cls ∉ [.pairMismatch, .illegalSync, .watchdog] := by
    unfold stoppedAt
    cases (s.ctx c).stopped
    · simp
    · cases (s.ctx c).packet with
      | none => simp
      | some p => cases hp : p.cls <;> simp [resumable, hp]
  unfold mayResume
  rw [Bool.and_eq_true, List.all_eq_true]
  simp only [one, Bool.not_eq_true', not_exists, not_and]
  exact and_congr_right fun _ => ⟨fun h c => h c (mem_slots c), fun h c _ => h c⟩

theorem dbgResume_idle {s : State} (h : s.core.frozen = false ∨ mayResume s = false) :
    exec .dbgResume s = .next s ∧ exec .dbgStep s = .next s := by
  have hb : (s.core.frozen && mayResume s) = false := by rcases h with h | h <;> simp [h]
  constructor
  · show execDbgResume s = _
    unfold execDbgResume
    rw [hb]
    rfl
  · show execDbgStep s = _
    unfold execDbgStep
    rw [hb]
    rfl

theorem dbgResume_next {s : State} (hf : s.core.frozen = true) (hm : mayResume s = true) :
    exec .dbgResume s = .next (dealtWith (resumeAll s)) := by
  show execDbgResume s = _
  unfold execDbgResume
  rw [hf, hm]
  rfl

theorem dbgStep_next {s : State} (hf : s.core.frozen = true) (hm : mayResume s = true) :
    exec .dbgStep s = .next { dealtWith (resumeAll s) with
      core := { (resumeAll s).core with stepping := some s.core.ctxSel, stepDone := false, cur := s.core.ctxSel } } := by
  show execDbgStep s = _
  unfold execDbgStep
  rw [hf, hm]
  rfl

/-- What a core is once it goes on, with its held writes taken effect (R306, R310). -/
structure RunsAgain (s t : State) : Prop where
  frozen : t.core.frozen = false
  held   : t.core.heldWrites = (applyHeld s).core.heldWrites
  mem    : t.mem = (applyHeld s).mem
  ctx    : ∀ c, t.ctx c = { (applyHeld s).ctx c with stopped := false, pc := ((applyHeld s).ctx c).pc + resumeSkip ((applyHeld s).ctx c) }

theorem resumeAll_runs {s : State} (hm : mayResume s = true) (hq : (applyHeld s).feQueue = []) :
    RunsAgain s (dealtWith (resumeAll s)) := by
  rw [resumeAll_eq hm hq]
  exact ⟨rfl, rfl, rfl, fun c => by simp [dealtWith, State.ctx]⟩

/-! ### Sealing and the scrub (R311, R312) -/

theorem sealWords_idle {s : State} (h : s.feQueue = []) (p : Nat → Bool) (pid : BitVec 32) : sealWords s p pid = s := by
  unfold sealWords
  rw [h]
  show { s with feQueue := [] } = s
  rw [← h]

theorem dbgSeal_eq {s : State} (h : s.feQueue = []) :
    exec .dbgSeal s = .next { s with
      core := { s.core with frozen := true, sealed := true, unit := none },
      clu := { s.clu with jobs := s.clu.jobs.map fun j =>
        if j.started || j.status.isSome then j else { j with status := some (.cancelled, 0) } } } := by
  show execDbgSeal s = _
  unfold execDbgSeal sealCore
  rw [sealWords_idle (by exact h)]

/-- Zeroes written over granules leave every byte of other granules alone. -/
theorem get_zeroedGranules (l : List Nat) (m : Cells) {i : Nat} (h : ∀ g ∈ l, i / 8 ≠ g) :
    Memory.get (l.foldl (fun m g => Memory.putBytes m (8 * g) (List.replicate 8 0)) m) i = Memory.get m i := by
  induction l generalizing m with
  | nil => rfl
  | cons g l ih =>
    have hg : i / 8 ≠ g := h g List.mem_cons_self
    rw [List.foldl_cons, ih _ fun k hk => h k (List.mem_cons_of_mem g hk)]
    exact memory_get_putBytes_outside (by rw [List.length_replicate]; omega)

/-- What the scrub leaves: no poison and no broken parity in the scratchpad, no poisoned register, and every byte of a sound granule
(R312). -/
theorem scrub_leaves (s : State) : (∀ c, ((scrub s).ctx c).poisoned = []) ∧ (∀ g ∈ (scrub s).poison, spadSize ≤ 8 * g) ∧
    (∀ d ∈ (scrub s).badParity, spadSize ≤ 64 * d) ∧
    ∀ i, (∀ g ∈ s.poison, i / 8 ≠ g) → Memory.get (scrub s).mem i = Memory.get s.mem i := by
  refine ⟨fun c => by simp [scrub, State.ctx], fun g hg => ?_, fun d hd => ?_, fun i hi => ?_⟩
  · simpa using (List.mem_filter.mp hg).2
  · simpa using (List.mem_filter.mp hd).2
  · exact get_zeroedGranules _ _ fun g hg => hi g (List.mem_of_mem_filter hg)

theorem dbgUnseal_leaves {s : State} (h : s.core.arriving = []) : ∃ t, exec .dbgUnseal s = .next t ∧ t.core.sealed = false ∧
    (∀ c, (t.ctx c).poisoned = ((scrub s).ctx c).poisoned) ∧ t.poison = (scrub s).poison ∧ t.badParity = (scrub s).badParity ∧
    t.mem = (scrub s).mem := by
  refine ⟨_, rfl, ?_⟩
  rw [drainAll, show (scrub s).core.arriving = [] from h]
  refine ⟨rfl, fun c => ?_, rfl, rfl, rfl⟩
  simp only [drainArriving, List.length_nil, State.ctx, Vector.getElem_ofFn]
  split
  · split <;> rfl
  · rfl

/-! ### Data through the window (R225, R310) -/

theorem mdataWrite_data {s : State} {v : Word} (h : MemoryInv s) (hf : s.core.frozen = true) (ha : s.core.maddr.toNat < 0x20000) :
    let b := s.core.maddr.toNat / 8 * 8
    ∃ t, exec (.dbgMdataWrite v) s = .next t ∧ readLoc t b 8 = v.toNat ∧ t.tags = s.tags ∧
      ∀ i, (i < b ∨ b + 8 ≤ i) → Memory.get t.mem i = Memory.get s.mem i := by
  intro b
  have hlen : (leBytes 8 v.toNat).length = 8 := length_leBytes 8 v.toNat
  have hexec : exec (.dbgMdataWrite v) s = .next (poke s b (leBytes 8 v.toNat)) := by
    show execDbgMdataWrite v s = _
    unfold execDbgMdataWrite
    have hn : ¬ (0x30000 ≤ s.core.maddr.toNat ∧ s.core.maddr.toNat < 0x30000 + spadSize / 4) := by omega
    have hr : regionOf s.core.maddr.toNat = .spad := if_pos ha
    simp [hf, hn, hr, b]
  refine ⟨_, hexec, ?_, (poke_frame s b _).tags, fun i hi => ?_⟩
  · have hback := poke_bytes (loc := b) (bs := leBytes 8 v.toNat) h.1
    rw [hlen] at hback
    rw [readLoc_eq, hback, leNat_leBytes]
    exact Nat.mod_eq_of_lt v.isLt
  · rw [poke_mem]
    exact memory_get_putBytes_outside (by rw [hlen]; exact hi)

theorem mdataWrite_tag {s : State} {v : Word} (hf : s.core.frozen = true) (h0 : 0x30000 ≤ s.core.maddr.toNat)
    (h1 : s.core.maddr.toNat < 0x38000) : ∃ t, exec (.dbgMdataWrite v) s = .next t ∧ t.mem = s.mem ∧
      ∀ k, k ∈ t.tags ↔ if k = s.core.maddr.toNat - 0x30000 then v.getLsbD 0 = true else k ∈ s.tags := by
  have hexec : exec (.dbgMdataWrite v) s = .next { s with
      tags := if v.getLsbD 0 = true then setInsert s.tags (s.core.maddr.toNat - 0x30000)
        else setErase s.tags (s.core.maddr.toNat - 0x30000) } := by
    show execDbgMdataWrite v s = _
    unfold execDbgMdataWrite
    have hin : 0x30000 ≤ s.core.maddr.toNat ∧ s.core.maddr.toNat < 0x30000 + spadSize / 4 := by unfold spadSize; omega
    simp only [hf, Bool.not_true, Bool.false_eq_true, if_false, if_pos hin]
  refine ⟨_, hexec, rfl, fun k => ?_⟩
  cases v.getLsbD 0
  · simp only [Bool.false_eq_true, if_false, mem_setErase]
    split <;> simp [*]
  · simp only [if_true, mem_setInsert]
    split <;> simp [*]

theorem registerWrite_frozen_out {s : State} (h : s.core.frozen = false) (d : DbgReg) (w : Vec) :
    exec (.debugRegisterWrite d w) s = .next s := by
  show execDebugRegisterWrite d w s = _
  unfold execDebugRegisterWrite
  rw [h]
  rfl

theorem mdataWrite_frozen_out {s : State} (h : s.core.frozen = false) (v : Word) : exec (.dbgMdataWrite v) s = .next s := by
  show execDbgMdataWrite v s = _
  unfold execDbgMdataWrite
  rw [h]
  rfl

/-- A write of a register waits until the core goes on (R310). -/
theorem registerWrite_held {s : State} (h : s.core.frozen = true) {d : DbgReg} {w : Vec} (hc : d ≠ .ctxSel) (hm : d ≠ .maddr)
    (hg : ∀ r, d = .g r → isPending s s.core.ctxSel r = false) :
    exec (.debugRegisterWrite d w) s =
      .next { s with core := { s.core with heldWrites := s.core.heldWrites ++ [(s.core.ctxSel, d, w)] } } := by
  show execDebugRegisterWrite d w s = _
  unfold execDebugRegisterWrite
  rw [h]
  cases d with
  | ctxSel => exact absurd rfl hc
  | maddr => exact absurd rfl hm
  | g r => simp [hg r rfl]
  | pc | l _ | k _ | v _ | st _ | h _ => rfl

theorem registerWrite_maddr {s : State} (h : s.core.frozen = true) (w : Vec) :
    exec (.debugRegisterWrite .maddr w) s = .next { s with core := { s.core with maddr := w.truncate 64 } } := by
  show execDebugRegisterWrite .maddr w s = _
  unfold execDebugRegisterWrite
  rw [h]
  rfl

theorem dbgRead_frozen_out {s : State} (h : s.core.frozen = false) {off : Nat} (hoff : off ≠ 8) : dbgRead s off = 0 := by
  unfold dbgRead
  simp [hoff, h]

/-- The window reads the count of outvoted executions, the data address and the selected context's pc (R310). -/
theorem dbgRead_registers {s : State} (h : s.core.frozen = true) : dbgRead s 0x18 = BitVec.ofNat 64 s.core.votes ∧
    dbgRead s 0x20 = s.core.maddr ∧ dbgRead s 0x400 = (s.ctx s.core.ctxSel).pc := by
  refine ⟨by simp [dbgRead, h], by simp [dbgRead, h], ?_⟩
  have hpc : (windowBytes (s.ctx s.core.ctxSel)).take 8 = leBytes 8 (s.ctx s.core.ctxSel).pc.toNat := by
    unfold windowBytes
    simp only [List.append_assoc]
    exact List.take_left' (length_leBytes _ _)
  simp [dbgRead, h, hpc, leNat_leBytes, Nat.mod_eq_of_lt (s.ctx s.core.ctxSel).pc.isLt]

/-- The end of a debug step freezes the core with a BREAK that bears no instruction word (R310; log 36). -/
theorem stepBreak_freezes {s : State} {c : Fin 8} (hstep : s.core.stepping = some c) (hdone : s.core.stepDone = true)
    (hunit : s.core.unit = none) : ∃ t p, exec .debugStepBreak s = .next t ∧ (t.ctx c).packet = some p ∧ p.cls = .brk ∧
      p.info = 0x3FF ∧ p.insn = 0 ∧ t.core.frozen = true ∧ (t.ctx c).pc = (s.ctx c).pc := by
  have hexec : exec .debugStepBreak s =
      .next (freezeWith (s.setCtx c { s.ctx c with insn := 0 }) c { cls := .brk, info := 0x3FF }) := by
    rw [← raise_plain (by decide) rfl]
    show execDebugStepBreak s = _
    unfold execDebugStepBreak
    rw [hstep]
    simp [hdone, hunit]
  refine ⟨_, _, hexec, by simp [freezeWith, State.ctx, State.setCtx]; rfl, rfl, rfl, ?_, rfl, ?_⟩
  · simp
  · simp [freezeWith, State.ctx, State.setCtx, unitStart, hunit, withdraw]

/-! ### Soft errors (R60, R142, R145, R227, R311) -/

section strikes
variable {s : State}

theorem eccOutcome_corrected {flips : Nat} (h : flips ≤ 1) (d : Bool) (p q : State) : eccOutcome s flips d p q = s := if_pos h

theorem eccOutcome_two (d : Bool) (p q : State) : eccOutcome s 2 d p q = logEvent p .uncorrectable := by simp [eccOutcome]

theorem strike_granule {g : Nat} (hg : 8 * g < 0x20000) (f : Word) (a : Bool) : exec (.softError (.spadData g f a)) s =
    .next (eccOutcome s (popCount f) a { s with poison := setInsert s.poison g } (flipBytes s (8 * g) 8 f.toNat)) := by
  show execSoftError (.spadData g f a) s = _
  have hin : ¬ spadSize ≤ 8 * g := by unfold spadSize; omega
  simp [execSoftError, hin]

/-- One flipped bit of a descriptor, or any odd number, breaks its parity, or mends it where it was broken (R60). -/
theorem strike_descriptor (h : MemoryInv s) {b : Nat} {d : BitVec 16} (hb : 64 * b < 0x20000) (hd : popCount d % 2 = 1) :
    ∃ t, exec (.softError (.spadDesc b d)) s = .next t ∧ descOf t b = descOf s b ^^^ d ∧
      (t.badParity.contains b = !s.badParity.contains b) ∧ t.mem = s.mem := by
  have hexec : exec (.softError (.spadDesc b d)) s = .next { s with
      descs := sparsePut (fun _ => 0) s.descs b (descOf s b ^^^ d),
      badParity := if s.badParity.contains b then setErase s.badParity b else setInsert s.badParity b } := by
    show execSoftError (.spadDesc b d) s = _
    have hin : ¬ spadSize ≤ 64 * b := by unfold spadSize; omega
    simp only [execSoftError, if_neg hin, if_pos hd]
  refine ⟨_, hexec, sparseGet_put_same h.2.1, ?_, rfl⟩
  rw [Bool.eq_iff_iff]
  by_cases hp : b ∈ s.badParity <;> simp [hp, mem_setErase, mem_setInsert]

theorem mem_poisonReg (c : Fin 8) (n : RegName) : n ∈ ((poisonReg s c n).ctx c).poisoned := by
  unfold poisonReg
  rw [ctx_setCtx_same]
  by_cases h : n ∈ (s.ctx c).poisoned <;> simp [h]

theorem strike_g {c : Fin 8} {r : GReg} (h : r ≠ 0) : exec (.softError (.gReg c r)) s = .next (poisonReg s c (.g r)) := if_neg h

theorem strike_line {b : Nat} (hb : 64 * b < hbmSize) (x : BitVec 512) (d : BitVec 16) (a : Bool) :
    ∃ q, exec (.softError (.hbmLine b x d a)) s = .next (eccOutcome s (popCount x + popCount d) a
      (setDesc s (hbmLoc / 64 + b) (descOf s (hbmLoc / 64 + b) ||| 0xFF)) q) := by
  have hin : ¬ hbmSize ≤ 64 * b := by omega
  have hblock : (hbmLoc + 64 * b) / 64 = hbmLoc / 64 + b := by unfold hbmLoc; omega
  have hexec : execSoftError (.hbmLine b x d a) s = _ := if_neg hin
  rw [hblock] at hexec
  exact ⟨_, hexec⟩

theorem poison_code (d : BitVec 16) : (d ||| 0xFF).toNat % 256 = 0xFF := by
  have hor : (d.toNat ||| 255) % 2 ^ 8 = d.toNat % 2 ^ 8 ||| 255 % 2 ^ 8 := Nat.or_mod_two_pow
  have hlow : 255 ≤ d.toNat % 256 ||| 255 := Nat.right_le_or
  have hhigh : d.toNat % 256 ||| 255 < 2 ^ 8 := Nat.or_lt_two_pow (Nat.mod_lt _ (by decide)) (by decide)
  refine (BitVec.toNat_or d 0xFF ▸ hor).trans ?_
  show d.toNat % 256 ||| 255 = 255
  omega

/-- An entry that differs from what an unlisted key reads as is read back, in a list of whatever form. -/
theorem sparseGet_put_listed {α : Type} [DecidableEq α] {d : Nat → α} {l : List (Nat × α)} {a : Nat} {v : α} (h : v ≠ d a) :
    sparseGet d (sparsePut d l a v) a = v := by
  induction l with
  | nil => simp [sparsePut, sparseGet, h]
  | cons e l ih =>
    obtain ⟨k, b⟩ := e
    unfold sparsePut
    split
    · simp [sparseGet]
    · split
      · simp [sparseGet]
      · next hne => simp [sparseGet, ih, Ne.symm hne]

theorem wline_setWline_poisoned (s : State) (i : Nat) {w : WLine} (h : w.poison = true) : wline (setWline s i w) i = w :=
  sparseGet_put_listed fun k => by simp [k] at h

theorem strike_wline {b : Nat} (hb : b < 1024) (x : BitVec 512) (a : Bool) :
    exec (.softError (.wline b x a)) s = .next (lineOutcome s b x a) := if_neg (by omega)

theorem lineOutcome_corrected {b : Nat} {x : BitVec 512} {a : Bool} (h : ∀ i, i < 8 → popCount (flipWord x i) ≤ 1) :
    lineOutcome s b x a = s := by
  have hnone : struckWords x = [] := by
    unfold struckWords
    rw [List.filter_eq_nil_iff]
    intro k hk
    have hk := h k (List.mem_range.mp hk)
    simp only [decide_eq_true_eq]
    omega
  simp [lineOutcome, hnone]

theorem lineOutcome_two {b : Nat} {x : BitVec 512} {a : Bool} (h : ∃ i, i < 8 ∧ popCount (flipWord x i) = 2) :
    lineOutcome s b x a = logEvent (setWline s b { wline s b with poison := true }) .uncorrectable := by
  obtain ⟨i, hi, htwo⟩ := h
  have hany : ((struckWords x).any fun k => decide (popCount (flipWord x k) = 2) || a) = true := by
    rw [List.any_eq_true]
    exact ⟨i, by simp [struckWords, hi, htwo], by simp [htwo]⟩
  unfold lineOutcome
  rw [if_pos hany]

/-- An error in a tile changes the byte that it strikes and no other (R227). -/
theorem strike_tile (h : MemoryInv s) {loc : Nat} {y : Byte} (hl : accOfLoc loc ≠ none) :
    ∃ t, exec (.softError (.tile loc y)) s = .next t ∧ Memory.get t.mem loc = Memory.get s.mem loc ^^^ y ∧
      ∀ i, i ≠ loc → Memory.get t.mem i = Memory.get s.mem i := by
  have hin : ¬ (accOfLoc loc).isNone = true := by simpa using hl
  have hexec : exec (.softError (.tile loc y)) s = .next (flipBytes s loc 1 y.toNat) := if_neg hin
  have hbyte : leBytes 1 (readLoc s loc 1 ^^^ y.toNat) = [Memory.get s.mem loc ^^^ y] := by
    simp [leBytes, readLoc, Memory.bytes, leNat, ← BitVec.toNat_xor]
  have hmem : (flipBytes s loc 1 y.toNat).mem = Memory.put s.mem loc (Memory.get s.mem loc ^^^ y) := by
    unfold flipBytes setLoc setBytes
    rw [hbyte]
    rfl
  exact ⟨_, hexec, by rw [hmem]; exact memory_get_put_same h.1, fun i hi => by rw [hmem]; exact memory_get_put_other hi⟩

theorem poisonedIn_of_mem {g loc n : Nat} (hg : g ∈ s.poison) (h0 : 8 * g < loc + n) (h1 : loc < 8 * g + 8) :
    poisonedIn s loc n = true := by
  unfold poisonedIn firstPoison
  rw [List.isSome_min?_iff, ne_eq, List.map_eq_nil_iff, List.filter_eq_nil_iff]
  intro hnone
  exact hnone g hg (by simp [h0, h1])

/-- An odd number of flipped bits in a boltrope breaks its parity (R311). -/
theorem strike_boltrope {t k : Nat} (ht : t < 68) (hk : k < 256) {y : Byte} (hy : popCount y % 2 = 1) (a : Bool) :
    ∃ u, exec (.softError (.boltrope t k y a)) s = .next u ∧ boltBroken u t = true ∧ u.mem = s.mem := by
  have hexec : exec (.softError (.boltrope t k y a)) s = .next { s with poison := setInsert s.poison ((boltLoc t + k) / 8) } := by
    show execSoftError (.boltrope t k y a) s = _
    have hin : (decide (68 ≤ t) || decide (256 ≤ k)) = false := by simp; omega
    simp [execSoftError, hin, hy]
  refine ⟨_, hexec, poisonedIn_of_mem (mem_setInsert.mpr (.inl rfl)) ?_ ?_, rfl⟩ <;> omega

theorem strike_tag {w : Nat} (hw : w < 0x8000) (a : Bool) :
    exec (.softError (.tag w a true)) s = .next { s with poison := setInsert s.poison (tagGranule w) } :=
  if_neg (by unfold spadSize; omega)

end strikes

/-! ### The obligation -/

section window
variable {s : State}

/-- A core with nothing held and nothing queued goes on as it stands (R306, R310). -/
theorem runsAgain_idle (hm : mayResume s = true) (hheld : s.core.heldWrites = []) (hq : s.feQueue = []) :
    RunsAgain s (dealtWith (resumeAll s)) ∧ applyHeld s = s :=
  ⟨resumeAll_runs hm (by rw [applyHeld_idle hheld]; exact hq), applyHeld_idle hheld⟩

/-- Where a context goes on, with no held write (R306). -/
theorem runsAgain_goes {t : State} (h : RunsAgain s t) (hheld : applyHeld s = s) (c : Fin 8) :
    let trapped := (s.ctx c).stopped = true ∧ ∃ p, (s.ctx c).packet = some p ∧ (p.cls = .swTrap ∨ p.cls = .brk) ∧ p.insn ≠ 0
    t.core.frozen = false ∧ (t.ctx c).stopped = false ∧ t.mem = s.mem ∧
      (trapped → (t.ctx c).pc = (s.ctx c).pc + 4) ∧ (¬ trapped → (t.ctx c).pc = (s.ctx c).pc) := by
  have hctx := h.ctx c
  rw [hheld] at hctx
  refine ⟨h.frozen, by rw [hctx], by rw [h.mem, hheld], ?_, fun hn => ?_⟩
  · rintro ⟨hs, p, hp, hc, hi⟩
    rw [hctx, resumeSkip_trapped hs hp hc hi]
  · rw [hctx, resumeSkip_other hn]
    exact BitVec.add_zero _

/-- A held write of a g register takes effect when the core goes on (R310). -/
theorem resume_writes_g {c : Fin 8} {r : GReg} {w : Vec} (hf : s.core.frozen = true) (hm : mayResume s = true)
    (hheld : s.core.heldWrites = [(c, .g r, w)]) (hq : s.feQueue = []) (hp : isPending s c r = false) :
    ∃ t, exec .dbgResume s = .next t ∧ (r ≠ 0 → getG t c r = w.truncate 64) ∧ t.core.heldWrites = [] := by
  have happ := applyHeld_g hheld hp
  have hrun : RunsAgain s (dealtWith (resumeAll s)) := resumeAll_runs hm (by rw [happ]; exact (setG_feQueue ..).trans hq)
  refine ⟨_, dbgResume_next hf hm, fun hr => ?_, by rw [hrun.held, happ]⟩
  have hg : ((dealtWith (resumeAll s)).ctx c).g = ((setG s c r (w.truncate 64)).ctx c).g := by
    rw [hrun.ctx c, happ]
    rfl
  rw [getG_of_ctx hg r]
  exact getG_setG_same s c r _ hr

end window

/-- Settles O48: the window's commands, by what the core is once it goes on (`RunsAgain`) and what a seal and the scrub leave; the soft
errors, each by the outcome of its check bits. -/
theorem debugAndSoftErrorResults : Obligations.DebugAndSoftErrorResults := by
  unfold Obligations.DebugAndSoftErrorResults
  refine ⟨fun s v w r c inv => ?_, fun s g b f d c r v x loc t k y z a inv hg => ?_⟩
  · intro a b writes hopeless trapped goes
    have may : s.core.sealed = false → ¬ hopeless → mayResume s = true := fun hs hh => (mayResume_iff s).mpr ⟨hs, hh⟩
    refine ⟨⟨_, rfl, rfl, rfl, rfl, rfl⟩, fun hq => ⟨_, dbgSeal_eq hq, rfl, rfl, rfl, rfl, ?_⟩, fun harr => ?_, fun hno => ?_,
      fun hf hs hh hheld hq => ?_, fun hf hs hh hheld hq hp => ?_, stepBreak_freezes, fun hf => ?_, fun hf => ?_⟩
    · intro j hj hstart
      obtain ⟨i, -, rfl⟩ := List.mem_map.mp hj
      cases hstat : i.status <;> cases hgo : i.started <;> simp_all
    · obtain ⟨t, hexec, hseal, hregs, hpoison, hparity, hmem⟩ := dbgUnseal_leaves harr
      obtain ⟨sregs, spoison, sparity, smem⟩ := scrub_leaves s
      refine ⟨t, hexec, hseal, (hregs c).trans (sregs c), ?_, ?_, ?_⟩
      · rw [hpoison]; exact spoison
      · rw [hparity]; exact sparity
      · rw [hmem]; exact smem
    · refine dbgResume_idle ?_
      rw [← Bool.not_eq_true (mayResume s), mayResume_iff]
      rcases hno with h | h | h
      · exact .inl h
      · exact .inr fun k => by simp [h] at k
      · exact .inr fun k => k.2 h
    · obtain ⟨hrun, heq⟩ := runsAgain_idle (may hs hh) hheld hq
      refine ⟨⟨_, dbgResume_next hf (may hs hh), runsAgain_goes hrun heq c, fun q => getG_of_ctx ?_ q⟩,
        ⟨_, dbgStep_next hf (may hs hh), runsAgain_goes hrun heq c, rfl, rfl, rfl⟩⟩
      rw [hrun.ctx c, heq]
    · exact resume_writes_g hf (may hs hh) hheld hq hp
    · exact ⟨mdataWrite_frozen_out hf v, registerWrite_frozen_out hf .pc w, fun off hoff => dbgRead_frozen_out hf hoff⟩
    · have held {q : DbgReg} (hc : q ≠ .ctxSel) (hm : q ≠ .maddr) (hg : ∀ r, q ≠ .g r) : writes q :=
        registerWrite_held hf hc hm fun r h => absurd h (hg r)
      obtain ⟨hvotes, hmaddr, hpc⟩ := dbgRead_registers hf
      refine ⟨held ?_ ?_ ?_, held ?_ ?_ ?_, held ?_ ?_ ?_, held ?_ ?_ ?_, held ?_ ?_ ?_, fun hp => registerWrite_held hf ?_ ?_ ?_,
        registerWrite_maddr hf w, mdataWrite_data inv hf, mdataWrite_tag hf, hvotes, hmaddr, hpc⟩
      case refine_18 =>
        intro q hq
        cases hq
        exact hp
      all_goals simp
  · intro next same
    refine ⟨fun h => ?_, fun h => ?_, strike_descriptor inv, fun h => ⟨_, strike_g h, mem_poisonReg c _, rfl, rfl⟩,
      ⟨_, rfl, mem_poisonReg c _, rfl, rfl⟩, fun hb h => ?_, fun hb h => ?_, fun hb h => ?_, fun hb h => ?_, strike_tile inv,
      fun ht hk hy => strike_boltrope ht hk hy a, fun hl => ⟨_, strike_tag hl a, mem_setInsert.mpr (.inl rfl), rfl, rfl⟩, rfl⟩
    · exact (strike_granule hg f a).trans (congrArg _ (eccOutcome_corrected h ..))
    · refine ⟨_, (strike_granule hg f a).trans (congrArg _ (by rw [h, eccOutcome_two])), ?_, by simp, by simp⟩
      rw [logEvent_poison]
      exact mem_setInsert.mpr (.inl rfl)
    · obtain ⟨q, hexec⟩ := strike_line hb x d a
      exact hexec.trans (congrArg _ (eccOutcome_corrected h ..))
    · obtain ⟨q, hexec⟩ := strike_line (s := s) hb x d a
      refine ⟨_, hexec.trans (congrArg _ (by rw [h, eccOutcome_two])), ?_, by simp⟩
      show (descOf (setDesc s _ _) _).toNat % 256 = 0xFF
      rw [descOf_setDesc_same inv]
      exact poison_code _
    · exact (strike_wline hb x a).trans (congrArg _ (lineOutcome_corrected h))
    · refine ⟨_, (strike_wline hb x a).trans (congrArg _ (lineOutcome_two h)), ?_, by simp; rfl⟩
      exact congrArg WLine.poison (wline_setWline_poisoned s b rfl)

end Sys2Proof.Proofs
end

