-- ==== Sys2Proof/Proofs/Copies.lean ====
section
/-! PROOFS. The copy unit (R69, R276, R277): where a packed copy's object, which may be longer than its tensor, reaches back into the
source. -/

namespace Sys2Proof.Proofs

open Sys2Proof.Machine Sys2Proof.Laws

/-! ### Engine writes to the scratchpad (R224, R275) -/

section spad
variable {s : State} {ok : Reach} (hok : ok .spad = true)
include hok

theorem engLoc_spad (write : Bool) {a : Nat} (ha : a < 0x20000) : engLoc s ok write a = .ok a := by
  have hr : regionOf a = .spad := if_pos ha
  unfold engLoc
  simp [hr, hok, directLoc]

/-- A run of bytes in the scratchpad is reached whole, in one run once its blocks are joined. -/
theorem engSpan_spad {fuel a n : Nat} (hend : a + n ≤ 0x20000) (hfuel : n = 0 ∨ a % 64 + n ≤ 64 * fuel) :
    joinRuns (engSpan s ok true fuel a n).1 = (if n = 0 then [] else [(a, n)]) ∧ (engSpan s ok true fuel a n).2 = none := by
  induction fuel generalizing a n with
  | zero =>
    have hn : n = 0 := by omega
    simp [engSpan, hn, joinRuns]
  | succ fuel ih =>
    unfold engSpan
    by_cases hn : n = 0
    · simp [hn, joinRuns]
    · let k := min n (64 - a % 64)
      have hle : k ≤ n ∧ k ≤ 64 - a % 64 ∧ (k = n ∨ k = 64 - a % 64) := by omega
      obtain ⟨hruns, hnone⟩ := ih (a := a + k) (n := n - k) (by omega) (by omega)
      simp only [hn, if_false, engLoc_spad hok true (show a < 0x20000 by omega), if_true]
      refine ⟨?_, hnone⟩
      rw [joinRuns, hruns]
      by_cases hlast : n - k = 0
      · have hwhole : k = n := by omega
        simp only [k] at hwhole hlast ⊢
        simp only [hwhole, Nat.sub_self, if_true]
      · have hsum : k + (n - k) = n := by omega
        simp only [k] at hsum hlast ⊢
        simp only [hlast, if_false, if_true, hsum]

theorem engWritePart_spad {a : Nat} {bs : List Byte} (hne : bs ≠ []) (hend : a + bs.length ≤ 0x20000) :
    engWritePart s ok a bs = (store s a bs, bs.length, none) := by
  have hlen : bs.length ≠ 0 := by simpa using hne
  obtain ⟨hruns, hnone⟩ := engSpan_spad hok (s := s) (fuel := bs.length / 64 + 2) hend (.inr (by omega))
  unfold engWritePart
  simp only [hruns, hnone, hlen, if_false]
  simp [storeRuns, runsLength]

end spad

/-! ### PACK (R277) -/

theorem anyDescs_keeps (s : State) (a n : Nat) (d : Nat → Option (BitVec 16)) :
    (anyDescs s a n d).mem = s.mem ∧ (anyDescs s a n d).ctxs = s.ctxs := by
  have step (ok : Reach) (v first : Nat) (l : List Nat) (u : State) :
      let f (s : State) (i : Nat) : State :=
        match d (first + 64 * i), engLoc s ok true (v + (first + 64 * i)) with
        | some x, .ok loc => if described loc then setDesc s (loc / 64) x else s
        | _, _ => s
      (l.foldl f u).mem = u.mem ∧ (l.foldl f u).ctxs = u.ctxs := by
    intro f
    have one (w : State) (i : Nat) : (f w i).mem = w.mem ∧ (f w i).ctxs = w.ctxs := by
      simp only [f]
      split
      · split <;> exact ⟨rfl, rfl⟩
      · exact ⟨rfl, rfl⟩
    induction l generalizing u with
    | nil => exact ⟨rfl, rfl⟩
    | cons i l ih => exact ⟨(ih (f u i)).1.trans (one u i).1, (ih (f u i)).2.trans (one u i).2⟩
  unfold anyDescs
  split
  · unfold engDescs
    dsimp only
    split
    · exact ⟨rfl, rfl⟩
    · exact step _ _ _ _ _
  · exact ⟨rfl, rfl⟩

/-! ### Bytes that meet the source (R276) -/

theorem plainAddr_spad (s : State) {a : Nat} (ha : a < 0x20000) : plainAddr s a = a := by
  have hlow : bit a 63 = false := by
    have hzero : a / 2 ^ 63 = 0 := by omega
    rw [bit, hzero]
    rfl
  have hreg : regionOf a = .spad := if_pos ha
  simp [plainAddr, localAddr, place, hlow, hreg, directLoc]

/-- In the scratchpad the bytes that meet the source are free, and the others as they were (log 13). -/
theorem mixRun_spad (s : State) {src n a i : Nat} {bs : List Byte} (hsrc : src < 0x20000) (hend : a + bs.length ≤ 0x20000)
    (hi : i < bs.length) (hmeet : src ≤ a + i ∧ a + i < src + n) : mixRun s src n a bs = (s.tickChoice, (List.range bs.length).map fun i =>
      if src ≤ a + i ∧ a + i < src + n then Config.overlapByte s.choice (a + i) else bs.getD i 0) := by
  have hhit {i : Nat} (hi : i < bs.length) : (decide (plainAddr s src ≤ plainAddr s (a + i)) &&
      decide (plainAddr s (a + i) < plainAddr s src + n)) = decide (src ≤ a + i ∧ a + i < src + n) := by
    rw [plainAddr_spad s hsrc, plainAddr_spad s (a := a + i) (by omega), Bool.decide_and]
  unfold mixRun
  dsimp only
  rw [if_pos]
  · refine congrArg _ (List.map_congr_left fun k hk => ?_)
    simp only [hhit (List.mem_range.mp hk), decide_eq_true_eq]
  · exact List.any_eq_true.mpr ⟨i, List.mem_range.mpr hi, by rw [hhit hi]; exact decide_eq_true hmeet⟩

/-! ### An object that reaches its own source -/

/-- A packed copy of sixteen bytes at 0x40, into 0: the object's 64 bytes of header end where the source begins. -/
def packRecord : List Byte := leBytes 8 0x40 ++ leBytes 8 0 ++ leBytes 4 16 ++ leBytes 4 1 ++ leBytes 4 0 ++ leBytes 4 0

def packTerms : CpyRec := { src := 0x40, dst := 0, rb := 16, rows := 1, ss := 0, ds := 0 }

def packArgs : CpyArgs := ⟨0, false, .pack, false, .none, 4, 3⟩

def packJob : Job :=
  { id := 0, ctx := 0, sreg := 3, cmd := .cpy packArgs, word := 0, pc := 0, a := 0, b := 0, gamma := 0, tolWide := 0, tolNarrow := 0,
    preds := [], started := true, done := 0, resume := [], record := packRecord, recordStop := none, status := none, binding := none,
    shadows := [], remote := none, agreed := 0, missed := none, startNo := 0, seq := 0, unbinds := false }

/-- The tensor of four f32 elements: all zero, or the first of them nonzero. -/
def tensor (nonzero : Bool) : List Byte := (if nonzero then 1 else 0) :: List.replicate 15 0

/-- Its bitmap object. -/
def tensorObject (nonzero : Bool) : List Byte :=
  let o := bitmapObject 2 9 (unpackBytes 32 4 (tensor nonzero))
  o.1 ++ o.2

/-- The copy at work, alone, with its tensor in the scratchpad. -/
def packing (nonzero : Bool) : State :=
  let c : Ctx := State.reset.ctx 0
  { State.reset.setCtx 0 { c with live := true, pend := c.pend.set 3 (some 0) } with
    clu := { State.reset.clu with jobs := [packJob] }, mem := if nonzero then [(0x40, 1)] else [], descs := [(1, 9)] }

theorem packing_inv (b : Bool) : MemoryInv (packing b) := by
  refine ⟨?_, ?_, fun r hr => absurd hr (by cases b <;> exact List.not_mem_nil), fun i hi => absurd hi (by cases b <;> exact nofun)⟩ <;>
    revert b <;> decide +kernel

theorem packing_unhindered (b : Bool) : Unhindered (packing b) 0 packJob ∧ RecordStands packJob := by
  refine ⟨⟨?_, rfl, rfl, by decide, ?_, rfl, ?_, ?_, ?_, ?_⟩, rfl, rfl, rfl⟩ <;> revert b <;> decide +kernel

theorem packing_reads (b : Bool) : anyRead (packing b) 0x40 16 = (packing b, tensor b, none) := by
  revert b
  decide +kernel

theorem packing_facts (b : Bool) : cpyRec packRecord = packTerms ∧ cpyOk packArgs packTerms = true ∧ nearSource (packing b) packTerms = false ∧
    (anyDesc (packing b) 0x40).toNat % 256 = 9 ∧ bitmapLevels 4 = some 2 ∧ fmtBits 9 = 32 := by
  revert b
  decide +kernel

/-- The object reaches byte 0x40 with its root node, which tells whether an element is nonzero (R67). -/
theorem tensorObject_root (b : Bool) : (tensorObject b)[0x40]? = some (if b then 1 else 0) ∧ (tensorObject b).length ≤ 0x100 := by
  revert b
  decide +kernel

/-- What the copy is held against: the object's bytes, those free that meet the source. -/
def packMixed (b : Bool) : State × List Byte := mixRun (packing b) 0x40 16 0 (tensorObject b)

theorem packMixed_eq (b : Bool) : packMixed b = ((packing b).tickChoice, (List.range (tensorObject b).length).map fun i =>
    if 0x40 ≤ 0 + i ∧ 0 + i < 0x50 then Config.overlapByte (packing b).choice (0 + i) else (tensorObject b).getD i 0) := by
  obtain ⟨hroot, hlen⟩ := tensorObject_root b
  exact mixRun_spad (packing b) (n := 16) (by decide) (by omega) (List.getElem?_eq_some_iff.mp hroot).1 (by decide)

theorem packMixed_root (b : Bool) : (packMixed b).2[0x40]? = some (Config.overlapByte (packing b).choice 0x40) ∧
    (packMixed b).2.length = (tensorObject b).length := by
  obtain ⟨hroot, hlen⟩ := tensorObject_root b
  have hlong : 0x40 < (tensorObject b).length := (List.getElem?_eq_some_iff.mp hroot).1
  rw [packMixed_eq]
  generalize tensorObject b = o at hlong
  simp [hlong]

/-- The descriptors of an object (R277). -/
def objectDesc (b : Bool) (k : Nat) : Option (BitVec 16) :=
  some (if k < (bitmapObject 2 9 (unpackBytes 32 4 (tensor b))).1.length then 0x14 else BitVec.ofNat 16 9)

theorem packing_copies (b : Bool) : copyPack .none packTerms (packing b) =
    (let w := anyWrite (packMixed b).1 0 (packMixed b).2
     (anyDescs w.1 0 (w.2.1 / 64 * 64) (objectDesc b), w.2.2.getD .ok, w.2.1)) := by
  obtain ⟨-, -, -, hfmt, hlevels, hbits⟩ := packing_facts b
  have hread : anyRead (packing b) packTerms.src packTerms.total = (packing b, tensor b, none) := packing_reads b
  have hform : ¬ (9 = 0 ∨ 0x0E < 9 ∨ packTerms.dst % 64 ≠ 0 ∨ 8 * packTerms.total % 32 ≠ 0) := by decide
  have hfmt' : (anyDesc (packing b) packTerms.src).toNat % 256 = 9 := hfmt
  have hlevels' : bitmapLevels (8 * packTerms.total / 32) = some 2 := hlevels
  unfold copyPack
  simp only [hread, hfmt', hbits, if_neg hform, hlevels']
  rfl

theorem packing_copy (b : Bool) : runCpy packArgs packJob noLimit (packing b) = copyPack .none packTerms (packing b) := by
  obtain ⟨hrec, hok, hnear, -⟩ := packing_facts b
  have hrecord : jobRecord packJob = .ok packRecord := rfl
  have hlim : ¬ noLimit = 0 := by decide
  have hpack : packArgs.pack = .pack := rfl
  have hbolt : packArgs.bolt = false := rfl
  have htr : packArgs.tr = .none := rfl
  unfold runCpy
  simp only [hrecord, hrec, hok, hnear, hpack, hbolt, htr, hlim, Bool.not_true, Bool.false_eq_true, if_false, if_true]

theorem packing_runs (b : Bool) : perform packJob [] noLimit (packing b) =
    some (anyDescs (store (packMixed b).1 0 (packMixed b).2) 0 ((packMixed b).2.length / 64 * 64) (objectDesc b), .ok,
      (packMixed b).2.length) := by
  obtain ⟨hroot, hlen⟩ := tensorObject_root b
  obtain ⟨hbyte, hsame⟩ := packMixed_root b
  have hwrite : anyWrite (packMixed b).1 0 (packMixed b).2 = (store (packMixed b).1 0 (packMixed b).2, (packMixed b).2.length, none) :=
    engWritePart_spad (ok := reachCopy) rfl (fun hnil => by rw [hnil] at hbyte; cases hbyte) (by omega)
  have hperform : perform packJob [] noLimit (packing b) = some (runCpy packArgs packJob noLimit (packing b)) := rfl
  rw [hperform, packing_copy, packing_copies, hwrite]
  simp only [Option.getD_none]

/-- The copy ends with the object in memory, but for the free bytes. -/
theorem packing_ends (b : Bool) : EndsWith (packing b) 0 [] packJob .ok (packMixed b).2.length fun u =>
    u.mem = (store (packMixed b).1 0 (packMixed b).2).mem := by
  obtain ⟨hmem, hctxs⟩ := anyDescs_keeps (store (packMixed b).1 0 (packMixed b).2) 0 ((packMixed b).2.length / 64 * 64) (objectDesc b)
  refine endsWith_ok (packing_unhindered b).1 (fun l hl => by cases hl) (packing_runs b) ?_ fun u hu => hu.mem.trans hmem
  have hctx : (anyDescs (store (packMixed b).1 0 (packMixed b).2) 0 ((packMixed b).2.length / 64 * 64) (objectDesc b)).ctx packJob.ctx =
      (store (packMixed b).1 0 (packMixed b).2).ctx packJob.ctx := by simp only [State.ctx, hctxs]
  rw [hctx, (store_keeps (packMixed b).1 0 (packMixed b).2).ctx packJob.ctx, packMixed_eq]
  rfl

theorem store_second_block {s : State} (h : MemoryInv s) {bs : List Byte} {x : Byte} (hx : bs[0x40]? = some x) :
    Memory.get (store s 0 bs).mem 0x40 = x := by
  obtain ⟨hlt, hval⟩ := List.getElem?_eq_some_iff.mp hx
  rw [store_get (.inl (by decide)), ← hval]
  exact memory_get_putBytes_inside (loc := 0) (i := 0x40) h.1 hlt

theorem engWrite_tensorObject (b : Bool) : engWrite (packing b) reachCopy 0 (tensorObject b) = (store (packing b) 0 (tensorObject b), none) := by
  obtain ⟨hroot, hlen⟩ := tensorObject_root b
  unfold engWrite
  rw [engWritePart_spad (ok := reachCopy) rfl (fun hnil => by rw [hnil] at hroot; cases hroot) (by omega)]

/-- What O41 says of the copy: its object stands in memory. -/
theorem packing_claimed (h : Obligations.CopyResults) (b : Bool) : ∃ n, EndsWith (packing b) 0 [] packJob .ok n fun u =>
    u.mem = (store (packing b) 0 (tensorObject b)).mem := by
  obtain ⟨hrec, hok, hnear, hfmt, hlevels, hbits⟩ := packing_facts b
  obtain ⟨hun, hstands⟩ := packing_unhindered b
  have hwrite := engWrite_tensorObject b
  have hplace : place (packing b) 0 = .ok (.here reachCopy 0) := rfl
  obtain ⟨hcpy, -⟩ := h (packing b) 0 packJob [] (packing_inv b) hun
  have hterms : cpyRec packJob.record = packTerms := hrec
  obtain ⟨-, hgood⟩ := hcpy packArgs rfl rfl hstands
  rw [hterms] at hgood
  obtain ⟨-, -, -, hpack, -⟩ := hgood hok rfl hnear
  have hfmt' : (anyDesc (packing b) packTerms.src).toNat % 256 = 9 := hfmt
  have hcount : 8 * packTerms.total / 32 = 4 := rfl
  have hobject : (bitmapObject 2 9 (unpackBytes 32 4 (tensor b))).1 ++ (bitmapObject 2 9 (unpackBytes 32 4 (tensor b))).2 =
      tensorObject b := rfl
  have hdst : packTerms.dst = 0 := rfl
  have hclaim := hpack rfl rfl (tensor b) 2 reachCopy 0 (packing_reads b)
  simp only [hfmt', hbits, hcount, hobject, hdst, hwrite] at hclaim
  exact ⟨_, hclaim (by decide) (by decide) (by decide) (by decide) hlevels hplace trivial⟩

/-- A job ends in one state, of which each account holds. -/
theorem endsWith_both {s : State} {id m n : Nat} {j : Job} {others : List CredShare} {c d : StatusCode} {p q : State → Prop}
    (hp : EndsWith s id others j c m p) (hq : EndsWith s id others j d n q) : ∃ u, p u ∧ q u := by
  obtain ⟨t, ht, hpt, -⟩ := hp
  obtain ⟨u, hu, hqu, -⟩ := hq
  obtain rfl : t = u := Host.Outcome.next.inj (ht.symm.trans hu)
  exact ⟨t, hpt, hqu⟩

/-- Refutes O41: an object longer than its tensor may reach back into the source although the copy's own rows do not, and the bytes there
are free. Of two tensors whose objects differ in the byte that falls on the source, and that leave the same free byte there, one must
break the statement. -/
theorem not_copyResults : ¬ Obligations.CopyResults := by
  intro h
  have root (b : Bool) : Config.overlapByte 0 0x40 = if b then 1 else 0 := by
    obtain ⟨n, hclaim⟩ := packing_claimed h b
    obtain ⟨u, hmixed, hobject⟩ := endsWith_both (packing_ends b) hclaim
    have hinv : MemoryInv (packMixed b).1 := by rw [packMixed_eq]; exact packing_inv b
    have hfree := store_second_block hinv (packMixed_root b).1
    rw [← hmixed, hobject, store_second_block (packing_inv b) (tensorObject_root b).1] at hfree
    exact hfree.symm
  exact absurd ((root true).symm.trans (root false)) (by decide)

end Sys2Proof.Proofs
end

