-- ==== Sys2Proof/Proofs/MemoryView.lean ====
section
/-! PROOFS. What of the state is memory, and what the shared operations do to it: faults, waits, register reads, votes and results.
A property of memory that a written descriptor cannot break holds after each of them where it held before. -/

namespace Sys2Proof.Proofs

open Sys2Proof.Machine Sys2Proof.Laws

/-! ### The memory of a state -/

/-- Every list of memory cells of a state, with the tags and the descriptors. -/
structure MemView where
  mem   : Cells
  tags  : List Nat
  descs : List (Nat × BitVec 16)
  saved : List SavedCore
  image : Option Image

def view (s : State) : MemView := ⟨s.mem, s.tags, s.descs, s.saved, s.mod.image⟩

/-- A property of memory that a descriptor put in its place does not break. -/
def DescSafe (P : MemView → Prop) : Prop :=
  ∀ (v : MemView) (b : Nat) (d : BitVec 16), P v → P { v with descs := sparsePut (fun _ => 0) v.descs b d }

/-- The canonical form as a property of memory. -/
def Canonical (v : MemView) : Prop :=
  Memory.wf v.mem = true ∧ sparseWf (fun _ => (0 : BitVec 16)) 0 v.descs = true ∧ (∀ r ∈ v.saved, Memory.wf r.mem = true) ∧
    ∀ i, v.image = some i → ∀ r ∈ i.saved, Memory.wf r.mem = true

theorem memoryInv_iff (s : State) : MemoryInv s ↔ Canonical (view s) := Iff.rfl

theorem descSafe_canonical : DescSafe Canonical :=
  fun _ _ _ ⟨hmem, hdescs, hrest⟩ => ⟨hmem, sparsePut_wf hdescs (Nat.zero_le _), hrest⟩

/-- A property of the memory of the next state, where there is one. -/
def OutView (P : MemView → Prop) (o : Out) : Prop := ∀ t, o = .next t → P (view t)

section shared

variable {P : MemView → Prop} {s : State}

theorem outView_next {t : State} (h : P (view t)) : OutView P (.next t) := by
  rintro u hu
  cases hu
  exact h

theorem outView_ite {c : Prop} [Decidable c] {o p : Out} (ho : c → OutView P o) (hp : ¬ c → OutView P p) :
    OutView P (if c then o else p) := by
  split
  next hc => exact ho hc
  next hc => exact hp hc

theorem ite_view {c : Prop} [Decidable c] {t u : State} (ht : P (view t)) (hu : P (view u)) : P (view (if c then t else u)) := by
  split <;> assumption

theorem foldl_view {α : Type} {f : State → α → State} (hf : ∀ t a, P (view t) → P (view (f t a))) (l : List α) (h : P (view s)) :
    P (view (l.foldl f s)) := by
  induction l generalizing s with
  | nil => exact h
  | cons a l ih => exact ih (hf s a h)

/-! ### Registers (R83 to R85) -/

theorem setG_view {c : Fin 8} {r : GReg} {w : Word} (h : P (view s)) : P (view (setG s c r w)) := by
  unfold setG
  split <;> exact h

theorem setV_view {c : Fin 8} {v : VCode} {w : Vec} (h : P (view s)) : P (view (setV s c v w)) := by
  unfold setV
  dsimp only
  split
  · exact h
  · split <;> exact h

/-! ### Retiring (R127, R137) -/

theorem retire_view {c : Fin 8} {n : Nat} (h : P (view s)) : P (view (retire s c n)) := h

theorem retireTo_view {c : Fin 8} {w : Word} (h : P (view s)) : P (view (retireTo s c w)) := h

/-! ### Faults and waits (R24, R305, R311) -/

variable (hP : DescSafe P)
include hP

omit hP in
theorem logEvent_view {e : LogEvent} (h : P (view s)) : P (view (logEvent s e)) := h

omit hP in
theorem freezeWith_view {c : Fin 8} {f : Flt} (h : P (view s)) : P (view (freezeWith s c f)) := h

theorem setDesc_view {b : Nat} {d : BitVec 16} (h : P (view s)) : P (view (setDesc s b d)) := hP _ b d h

theorem poisonFound_view {f : Flt} (h : P (view s)) : P (view (poisonFound s f)) := by
  unfold poisonFound
  split
  · exact h
  · exact setDesc_view hP h

omit hP in
theorem sealWords_view {p : Nat → Bool} {pid : BitVec 32} (h : P (view s)) : P (view (sealWords s p pid)) := by
  unfold sealWords
  refine foldl_view (fun t r ht => ?_) _ (by exact h)
  dsimp only
  split <;> exact ht

omit hP in
theorem sealCore_view (h : P (view s)) : P (view (sealCore s)) := sealWords_view (by exact h)

theorem raise_view {c : Fin 8} {f : Flt} (h : P (view s)) : P (view (raise s c f)) := by
  have hfreeze : P (view (freezeWith (poisonFound s f) c f)) := freezeWith_view (poisonFound_view hP h)
  unfold raise
  dsimp only
  split
  · exact logEvent_view (sealCore_view hfreeze)
  · exact hfreeze

theorem fault_view {f : Flt} (h : P (view s)) : OutView P (fault s f) := outView_next (raise_view hP h)

theorem faultCls_view {cls : FaultClass} (h : P (view s)) : OutView P (faultCls s cls) := fault_view hP h

omit hP in
theorem waitFor_view {w : Wait} (h : P (view s)) : OutView P (waitFor s w) := outView_next h

theorem chkRun_view {α : Type} {x : Chk α} {k : α → Out} (h : P (view s)) (hk : ∀ a, x = .ok a → OutView P (k a)) :
    OutView P (Chk.run s x k) := by
  unfold Chk.run
  split
  · exact hk _ rfl
  · exact fault_view hP h

/-! ### Reading registers (R35, R311) -/

theorem withData_view {reads : List GReg} {k : Out} (h : P (view s)) (hk : OutView P k) : OutView P (withData s reads k) :=
  outView_ite (fun _ => faultCls_view hP h) fun _ => hk

theorem withRegs_view {reads others : List GReg} {k : Out} (h : P (view s)) (hk : OutView P k) : OutView P (withRegs s reads others k) := by
  unfold withRegs
  split
  · exact waitFor_view h
  · exact withData_view hP h hk

theorem withVecs_view {reads : List VCode} {k : Out} (h : P (view s)) (hk : OutView P k) : OutView P (withVecs s reads k) :=
  outView_ite (fun _ => faultCls_view hP h) fun _ => hk

/-! ### Results (R85, R144, R145) -/

omit hP in
/-- A vote changes the strikes and the count of outvoted executions alone (R144). -/
theorem vote_view {w : Nat} {x v : BitVec w} {t : State} (hv : vote s x = some (v, t)) (h : P (view s)) : P (view t) := by
  unfold vote at hv
  split at hv
  · cases hv
    exact h
  · dsimp only at hv
    split at hv
    · cases hv
      exact h
    · split at hv
      · cases hv
        exact h
      · split at hv <;> cases hv
        exact h

theorem commitG_view {rd : GReg} {v : Word} {len : Nat} (h : P (view s)) : OutView P (commitG s rd v len) := by
  unfold commitG
  split
  · exact faultCls_view hP h
  next hv => exact outView_next (setG_view (vote_view hv h))

theorem commitV_view {vd : VCode} {v : Vec} {len : Nat} (h : P (view s)) : OutView P (commitV s vd v len) := by
  unfold commitV
  split
  · exact faultCls_view hP h
  next hv => exact outView_next (setV_view (vote_view hv h))

/-! ### Shapes of the scalar instructions (R126, R130, R136) -/

theorem alu2_view {x : SaluArgs} {f : Word → Word → Word} (h : P (view s)) : OutView P (alu2 s x f) :=
  withRegs_view hP h (commitG_view hP h)

theorem alu1_view {x : Salu1Args} {f : Word → Word} (h : P (view s)) : OutView P (alu1 s x f) :=
  withRegs_view hP h (commitG_view hP h)

theorem alu3_view {x : SaluArgs} {f : Word → Word → Word → Word} (h : P (view s)) : OutView P (alu3 s x f) :=
  withRegs_view hP h (commitG_view hP h)

theorem aluI_view {x : SimmArgs} {f : Word → Int → Word} (h : P (view s)) : OutView P (aluI s x f) :=
  withRegs_view hP h (commitG_view hP h)

theorem shiftI_view {x : ShiftArgs} {f : Word → Nat → Word} (h : P (view s)) : OutView P (shiftI s x f) :=
  outView_ite (fun _ => faultCls_view hP h) fun _ => withRegs_view hP h (commitG_view hP h)

theorem aluS_view {x : SsArgs} {f : Word → Word → Word} (h : P (view s)) : OutView P (aluS s x f) :=
  withRegs_view hP h (commitG_view hP h)

theorem aluSI_view {x : SsImmArgs} {f : Word → BitVec 4 → Word} (h : P (view s)) : OutView P (aluSI s x f) :=
  withRegs_view hP h (commitG_view hP h)

theorem execBfx_view {x : SaluArgs} (h : P (view s)) : OutView P (execBfx x s) :=
  withRegs_view hP h (outView_ite (fun _ => faultCls_view hP h) fun _ => withData_view hP h (commitG_view hP h))

theorem execBfi_view {x : SaluArgs} (h : P (view s)) : OutView P (execBfi x s) :=
  withRegs_view hP h (outView_ite (fun _ => faultCls_view hP h) fun _ => withData_view hP h (commitG_view hP h))

/-! ### Shapes of the vector instructions (R85, R86, R155, R160) -/

theorem writeLanes_view {vd : VCode} {mask : Fin 8} {agn : Bool} {w n len : Nat} {res : List Nat} (h : P (view s)) :
    OutView P (writeLanes s vd mask agn w n res len) :=
  commitV_view hP (ite_view (by exact h) h)

theorem lanes_view {reads : List VCode} {vd : VCode} {mask : Fin 8} {agn : Bool} {w n len : Nat} {res : Nat → Nat} (h : P (view s)) :
    OutView P (lanes s reads vd mask agn w n res len) :=
  outView_ite (fun _ => faultCls_view hP h) fun _ => withVecs_view hP h (writeLanes_view hP h)

theorem lanesFrom_view {gs : List GReg} {reads : List VCode} {vd : VCode} {mask : Fin 8} {agn : Bool} {w n len : Nat} {res : Nat → Nat}
    (h : P (view s)) : OutView P (lanesFrom s gs reads vd mask agn w n res len) :=
  outView_ite (fun _ => faultCls_view hP h) fun _ => withData_view hP h (withVecs_view hP h (writeLanes_view hP h))

theorem compareLanes_view {vd va vb : VCode} {mask : Fin 8} {agn : Bool} {t : LaneTy} {r : Cmp} {len : Nat} (h : P (view s)) :
    OutView P (compareLanes s vd va vb mask agn t r len) :=
  outView_ite (fun _ => faultCls_view hP h) fun _ => withVecs_view hP h (commitV_view hP (ite_view (by exact h) h))

omit hP in
theorem roundElems_view {mode : Rnd} {act : Nat → Bool} {f : Nat → Nat → Nat} (l : List Nat) (h : P (view s)) :
    P (view (roundElems mode act f l s).2) := by
  induction l generalizing s with
  | nil => exact h
  | cons e l ih =>
    unfold roundElems
    split
    · exact ih (by exact h)
    · exact ih h

theorem convertLanes_view {x : CvtArgs} {src dst : LaneTy} (h : P (view s)) : OutView P (convertLanes s x src dst) :=
  outView_ite (fun _ => faultCls_view hP h) fun _ => withVecs_view hP h (writeLanes_view hP (roundElems_view _ h))

theorem execVget_view {x : VtoGArgs} (h : P (view s)) : OutView P (execVget x s) :=
  withRegs_view hP h (outView_ite (fun _ => faultCls_view hP h) fun _ => withVecs_view hP h (commitG_view hP h))

theorem execVput_view {x : VputArgs} (h : P (view s)) : OutView P (execVput x s) :=
  withRegs_view hP h (outView_ite (fun _ => faultCls_view hP h) fun _ => lanesFrom_view hP h)

theorem execVrndseed_view {va : VCode} {mask : Fin 8} (h : P (view s)) : OutView P (execVrndseed va mask s) :=
  withVecs_view hP h (outView_next h)

end shared

end Sys2Proof.Proofs
end

