-- ==== Sys2Proof/Proofs/AccessView.lean ====
section
/-! PROOFS. What loads, stores and atomic accesses do to memory: a load nothing, a store what its runs cover and the boltropes of tile slots. -/

namespace Sys2Proof.Proofs

open Sys2Proof.Machine Sys2Proof.Laws

/-! ### Bytes written within runs (R175, R224) -/

/-- Whether runs hold a location. -/
def InRuns (runs : List (Nat × Nat)) (loc : Nat) : Prop := ∃ r ∈ runs, r.1 ≤ loc ∧ loc < r.1 + r.2

/-- Memory that differs in the bytes of runs and of boltropes alone, and keeps its canonical form. -/
structure WrittenWithin (runs : List (Nat × Nat)) (m n : Cells) : Prop where
  wf  : Memory.wf m = true → Memory.wf n = true
  get : ∀ loc, BesideBolts loc → ¬ InRuns runs loc → Memory.get n loc = Memory.get m loc

/-- A property of memory that a store within runs does not break. -/
def StoreSafe (P : MemView → Prop) (runs : List (Nat × Nat)) : Prop :=
  ∀ (v : MemView) (m : Cells), P v → WrittenWithin runs v.mem m → P { v with mem := m }

theorem storeSafe_canonical (runs : List (Nat × Nat)) : StoreSafe Canonical runs :=
  fun _ _ ⟨hmem, hrest⟩ hw => ⟨hw.wf hmem, hrest⟩

theorem WrittenWithin.trans {runs : List (Nat × Nat)} {m n o : Cells} (h : WrittenWithin runs m n) (k : WrittenWithin runs n o) :
    WrittenWithin runs m o :=
  ⟨fun hm => k.wf (h.wf hm), fun loc hb hr => (k.get loc hb hr).trans (h.get loc hb hr)⟩

theorem view_of_storeFrame {s t : State} (h : StoreFrame s t) : view t = { view s with mem := t.mem } := by
  simp only [view, h.tags, h.descs, h.saved, h.module]

section stores

variable {runs : List (Nat × Nat)}

theorem store_writtenWithin {loc : Nat} {bs : List Byte} (h : ∀ l, loc ≤ l → l < loc + bs.length → InRuns runs l) (s : State) :
    WrittenWithin runs s.mem (store s loc bs).mem := by
  refine ⟨(store_frame s loc bs).memory, fun l hb hr => ?_⟩
  rw [store_get hb]
  refine memory_get_putBytes_outside ?_
  by_contra hin
  exact hr (h l (by omega) (by omega))

theorem storeRuns_writtenWithin {l : List (Nat × Nat)} (h : ∀ r ∈ l, ∀ loc, r.1 ≤ loc → loc < r.1 + r.2 → InRuns runs loc) (s : State)
    (bs : List Byte) : WrittenWithin runs s.mem (storeRuns s l bs).mem := by
  induction l generalizing s bs with
  | nil => exact ⟨id, fun _ _ _ => rfl⟩
  | cons r l ih =>
    refine WrittenWithin.trans (store_writtenWithin (fun loc hlo hhi => ?_) s) (ih (fun q hq => h q (.tail _ hq)) _ _)
    have hlen := List.length_take_le r.2 bs
    exact h r (.head _) loc hlo (by omega)

/-- A masked store changes bytes of its 32 alone, and boltropes. -/
theorem storeMasked_writtenWithin {loc : Nat} {bs : List Byte} (h : ∀ l, loc ≤ l → l < loc + bs.length → InRuns runs l) (s : State)
    (act : Nat → Bool) : WrittenWithin runs s.mem (storeMasked s loc bs act).mem := by
  refine ⟨(storeMasked_frame s loc bs act).memory, fun l hb hr => ?_⟩
  have hpoke : ∀ (is : List Nat) (u : State), (∀ i ∈ is, i < bs.length) →
      Memory.get (is.foldl (fun u i => setBytes u (loc + i) [bs.getD i 0]) u).mem l = Memory.get u.mem l := by
    intro is
    induction is with
    | nil => exact fun _ _ => rfl
    | cons i is ih =>
      intro u hi
      refine (ih _ fun j hj => hi j (.tail _ hj)).trans (memory_get_putBytes_outside ?_)
      have := hi i (.head _)
      by_contra hin
      simp only [List.length_singleton] at hin
      exact hr (h l (by omega) (by omega))
  have hnotices : ∀ (es : List WatchEntry) (u : State),
      (es.foldl (fun u e => u.setCtx e.owner { u.ctx e.owner with notice := true }) u).mem = u.mem := by
    intro es
    induction es with
    | nil => exact fun _ => rfl
    | cons e es ih => exact fun u => ih _
  refine (foldl_storeIntoSlot_get hb s _ (fun t ht => by simpa using (List.mem_filter.mp ht).1) _).trans ?_
  unfold pokeMasked
  dsimp only
  rw [hnotices]
  exact hpoke _ s fun i hi => List.mem_range.mp (List.mem_filter.mp hi).1

variable {P : MemView → Prop} {s : State} (hS : StoreSafe P runs)
include hS

theorem storeFrame_view {t : State} (hf : StoreFrame s t) (hw : WrittenWithin runs s.mem t.mem) (h : P (view s)) : P (view t) := by
  rw [view_of_storeFrame hf]
  exact hS _ _ h hw

theorem store_view {loc : Nat} {bs : List Byte} (hc : ∀ l, loc ≤ l → l < loc + bs.length → InRuns runs l) (h : P (view s)) :
    P (view (store s loc bs)) :=
  storeFrame_view hS (store_frame s loc bs) (store_writtenWithin hc s) h

omit hS in
theorem noteStore_view {c : Fin 8} {m : AtMode} {r : Bool} {locs : List Nat} (h : P (view s)) :
    P (view (noteStore s c m r locs)) := by
  rw [noteStore_eq]
  exact h

theorem ctxStoreAs_view {m : AtMode} {b : Bool} {l : List (Nat × Nat)} {bs : List Byte}
    (hl : ∀ r ∈ l, ∀ loc, r.1 ≤ loc → loc < r.1 + r.2 → InRuns runs loc) (h : P (view s)) :
    P (view (ctxStoreAs s m b l bs)) :=
  storeFrame_view hS (storeRuns_frame _ l bs) (storeRuns_writtenWithin hl _ bs) (noteStore_view h)

theorem ctxStoreMasked_view {loc : Nat} {bs : List Byte} {act : Nat → Bool}
    (hc : ∀ l, loc ≤ l → l < loc + bs.length → InRuns runs l) (h : P (view s)) : P (view (ctxStoreMasked s loc bs act)) :=
  storeFrame_view hS (storeMasked_frame _ loc bs act) (storeMasked_writtenWithin hc _ act) (noteStore_view h)

end stores

/-! ### Loads (R179, R211) -/

theorem view_loadAs (s : State) (m : AtMode) (g : Nat) (runs : List (Nat × Nat)) : view (loadAs s m g runs).2 = view s := by
  obtain ⟨v, n, hload⟩ := loadAs_state s m g runs
  rw [hload]
  rfl

/-! ### The tests before an access (R173, R174, R183, R212, R313) -/

section accesses

variable {P : MemView → Prop} {s : State} (hP : DescSafe P)
include hP

theorem aligned_view {a n : Nat} {k : Out} (h : P (view s)) (hk : a % n = 0 → OutView P k) : OutView P (aligned s a n k) :=
  outView_ite hk fun _ => fault_view hP h

omit hP in
theorem pairGateIf_view {l : Bool} {a d o : Nat} {k : State → Out} (h : P (view s))
    (hk : ∀ t, view t = view s → t.feQueue = s.feQueue → OutView P (k t)) : OutView P (pairGateIf l s a d o k) := by
  refine outView_ite (fun _ => outView_ite (fun _ => hk _ rfl rfl) fun _ => waitFor_view (by exact h)) fun _ => hk _ rfl rfl

omit hP in
theorem pairGate_view {a d o : Nat} {k : State → Out} (h : P (view s))
    (hk : ∀ t, view t = view s → t.feQueue = s.feQueue → OutView P (k t)) : OutView P (pairGate s a d o k) :=
  pairGateIf_view h hk

omit hP in
theorem hostReply_view {a : Nat} {k : State → Out} (h : P (view s)) (hk : ∀ t, view t = view s → OutView P (k t)) :
    OutView P (hostReply s a k) :=
  outView_ite (fun _ => outView_ite (fun _ => hk _ rfl) fun _ => waitFor_view h) fun _ => hk _ rfl

omit hP in
theorem ackGate_view {b : Bool} {z : Storage} {a : AgentScope} {k : Out} (h : P (view s)) (hk : OutView P k) :
    OutView P (ackGate s b z a k) :=
  outView_ite (fun _ => waitFor_view h) fun _ => hk

theorem atWide_view {gb : GReg} {k : Out} (h : P (view s)) (hk : OutView P k) : OutView P (atWide s gb k) :=
  outView_ite (fun _ => faultCls_view hP h) fun _ => hk

theorem atTests_view {a n : Nat} {host fe : Bool} {k : Out} (h : P (view s)) (hk : a % n = 0 → OutView P k) :
    OutView P (atTests s a n host fe k) :=
  aligned_view hP h fun ha => outView_ite (fun _ => faultCls_view hP h) fun _ => outView_ite (fun _ => faultCls_view hP h) fun _ => hk ha

/-! ### Loads (R90, R171, R177) -/

theorem loadAt_view {a n o : Nat} {k : Nat → State → Out} (h : P (view s)) (hk : ∀ v t, P (view t) → OutView P (k v t)) :
    OutView P (loadAt s a n o k) :=
  chkRun_view hP h fun _ _ => pairGate_view h fun t ht _ => hk _ _ (by rw [view_loadAs, ht]; exact h)

theorem loadG_view {x : MemG} {n o : Nat} {e : Nat → Nat → Word} (h : P (view s)) : OutView P (loadG s x n o e) :=
  withRegs_view hP h (aligned_view hP h fun _ => loadAt_view hP h fun _ _ ht => outView_next (setG_view ht))

theorem loadS_view {x : SsArgs} {n o : Nat} (h : P (view s)) : OutView P (loadS s x n o) :=
  withRegs_view hP h (aligned_view hP h fun _ => loadAt_view hP h fun _ _ ht => outView_next (setG_view ht))

theorem loadV_view {x : MemV} {al o : Nat} (h : P (view s)) : OutView P (loadV s x al o) :=
  withRegs_view hP h (aligned_view hP h fun _ => outView_ite (fun _ => faultCls_view hP h) fun _ =>
    loadAt_view hP h fun _ _ ht => commitV_view hP ht)

theorem handleRead_view {hd : Fin 8} {off need n al o : Nat} {k : Nat → State → Out} (h : P (view s))
    (hk : ∀ v t, P (view t) → OutView P (k v t)) : OutView P (handleRead s hd off need n al o k) :=
  chkRun_view hP h fun _ _ => outView_ite (fun _ => waitFor_view h) fun _ => aligned_view hP h fun _ => loadAt_view hP (by exact h) hk

theorem hloadG_view {x : HMemG} {n o : Nat} {e : Nat → Nat → Word} (h : P (view s)) : OutView P (hloadG s x n o e) :=
  withRegs_view hP h (handleRead_view hP h fun _ _ ht => outView_next (setG_view ht))

theorem hloadV_view {x : HMemV} {al o : Nat} (h : P (view s)) : OutView P (hloadV s x al o) :=
  chkRun_view hP h fun _ _ => outView_ite (fun _ => faultCls_view hP h) fun _ => handleRead_view hP h fun _ _ ht => commitV_view hP ht

theorem execLdesc_view {x : MemG} (h : P (view s)) : OutView P (execLdesc x s) := by
  refine withRegs_view hP h (aligned_view hP h fun _ => chkRun_view hP h fun r _ => chkRun_view hP h fun _ _ =>
    chkRun_view hP h fun _ _ => pairGate_view h fun t ht _ => ?_)
  rw [← ht] at h
  have hgot : ∀ u w, P (view u) → OutView P (.next (retire (setG u u.cur x.reg w) u.cur 4)) := fun _ _ hu => outView_next (setG_view hu)
  cases r
  case acc | border | harvest | host => exact hgot t _ h
  all_goals exact hgot _ _ (ite_view (setDesc_view hP h) h)

theorem execSdesc_view {x : MemG} (h : P (view s)) : OutView P (execSdesc x s) := by
  refine withRegs_view hP h (aligned_view hP h fun _ => withData_view hP h (outView_ite (fun _ => faultCls_view hP h) fun _ =>
    chkRun_view hP h fun r _ => outView_ite (fun _ => fault_view hP h) fun _ => chkRun_view hP h fun _ _ => chkRun_view hP h fun _ _ =>
      pairGate_view h fun t ht _ => outView_next ?_))
  rw [← ht] at h
  exact setDesc_view hP h

theorem execLdo_view {x : AtRdArgs} (h : P (view s)) : OutView P (execLdo x s) :=
  withRegs_view hP h (atTests_view hP h fun _ => chkRun_view hP h fun _ _ => pairGate_view h fun t ht _ =>
    hostReply_view (by rw [ht]; exact h) fun u hu => outView_next (setG_view (by rw [view_loadAs, hu, ht]; exact h)))

end accesses

/-! ### The run of an aligned write (R173, R174) -/

theorem andThen_eq_ok {α β : Type} {x : Chk α} {f : α → Chk β} {b : β} : x.andThen f = .ok b ↔ ∃ a, x = .ok a ∧ f a = .ok b := by
  cases x <;> simp

theorem first_eq_of_dvd {a n : Nat} (ha : a % n = 0) (hn : n ∣ 65536) : min n (65536 - a % 65536) = n := by
  obtain ⟨q, hq⟩ := hn
  obtain ⟨p, rfl⟩ := Nat.dvd_of_mod_eq_zero ha
  rw [hq, Nat.mul_mod_mul_left, ← Nat.mul_sub]
  have hpos : 0 < q := by
    rcases Nat.eq_zero_or_pos q with rfl | hpos
    · omega
    · exact hpos
  have := Nat.mod_lt p hpos
  exact Nat.min_eq_left (Nat.le_mul_of_pos_right n (by omega))

theorem checkRange_write_ne_border {s : State} {a n : Nat} {r : Region} (h : checkRange s a n true = .ok r) : r ≠ .border := by
  rintro rfl
  cases hreg : regionOf a
  case gwin =>
    simp only [checkRange, hreg] at h
    split at h
    · cases h
    · split at h <;> cases h
  case spad | hbm | host =>
    simp only [checkRange, hreg] at h
    split at h <;> cases h
  all_goals simp [checkRange, hreg] at h

theorem locate_one {s : State} {r : Region} {a n : Nat} {w : Bool} {runs : List (Nat × Nat)} (hr : r ≠ .border) (ha : a % n = 0)
    (hn : n ∣ 65536) (h : locate s r a n w = .ok runs) : ∃ loc, runs = [(loc, n)] := by
  cases r
  case border => exact absurd rfl hr
  case hbm | host =>
    simp only [locate, first_eq_of_dvd ha hn, if_pos, andThen_eq_ok] at h
    obtain ⟨loc, -, hruns⟩ := h
    exact ⟨loc, (Except.ok.inj hruns).symm⟩
  all_goals exact ⟨_, (Except.ok.inj h).symm⟩

theorem checkWrite_one {s : State} {a n : Nat} {runs : List (Nat × Nat)} (ha : a % n = 0) (hn : n ∣ 65536)
    (h : checkWrite s a n = .ok runs) : ∃ loc, runs = [(loc, n)] := by
  simp only [checkWrite, andThen_eq_ok] at h
  obtain ⟨r, hr, l, hl, -, -, hruns⟩ := h
  cases hruns
  exact locate_one (checkRange_write_ne_border hr) ha hn hl

theorem checkAtomic_one {s : State} {a n : Nat} {runs : List (Nat × Nat)} (ha : a % n = 0) (hn : n ∣ 65536)
    (h : checkAtomic s a n = .ok runs) : ∃ loc, runs = [(loc, n)] := by
  simp only [checkAtomic, andThen_eq_ok] at h
  obtain ⟨r, hr, l, hl, -, -, -, -, -, -, hruns⟩ := h
  cases hruns
  exact locate_one (checkRange_write_ne_border hr) ha hn hl

end Sys2Proof.Proofs
end

