-- ==== Sys2Proof/Proofs/StoreView.lean ====
section
/-! PROOFS. Store and atomic instructions change memory within the runs of their own address computation (R171, R172, R177, R181). -/

namespace Sys2Proof.Proofs

open Sys2Proof.Machine Sys2Proof.Laws

variable {P : MemView → Prop} {s : State} (hP : DescSafe P)

theorem runsOr_of_ok {x : Chk (List (Nat × Nat))} {l : List (Nat × Nat)} (h : x = .ok l) : runsOr x = l := by
  rw [h]
  rfl

theorem memAddr_zero (w : Word) (n : Nat) : memAddr w 0 n = w.toNat := by simp [memAddr]

theorem inRuns_self {runs : List (Nat × Nat)} : ∀ r ∈ runs, ∀ loc, r.1 ≤ loc → loc < r.1 + r.2 → InRuns runs loc :=
  fun r hr _ hlo hhi => ⟨r, hr, hlo, hhi⟩

include hP

/-! ### Stores at an address (R174, R175) -/

theorem storeAt_view {a n x o : Nat} {k : State → Out} (hS : StoreSafe P (runsOr (checkWrite s a n))) (h : P (view s))
    (hk : ∀ t, P (view t) → OutView P (k t)) : OutView P (storeAt s a n x o k) :=
  chkRun_view hP h fun runs hruns => pairGate_view h fun t ht _ =>
    hk _ (ctxStoreAs_view (runsOr_of_ok hruns ▸ hS) inRuns_self (by rw [ht]; exact h))

theorem storeMaskAt_view {a : Nat} {v : Vec} {act : Nat → Bool} (ha : a % 32 = 0) (hS : StoreSafe P (runsOr (checkWrite s a 32)))
    (h : P (view s)) : OutView P (storeMaskAt s a v act) := by
  refine chkRun_view hP h fun runs hruns => pairGate_view h fun t ht _ => outView_next ?_
  obtain ⟨loc, rfl⟩ := checkWrite_one ha ⟨2048, rfl⟩ hruns
  rw [runsOr_of_ok hruns] at hS
  refine ctxStoreMasked_view hS (fun l hlo hhi => ⟨_, List.mem_singleton_self _, hlo, ?_⟩) (by rw [ht]; exact h)
  simpa [length_leBytes] using hhi

/-! ### Store instructions (R90, R171, R172) -/

theorem storeG_view {x : MemG} {n o : Nat} (hS : StoreSafe P (baseRuns s x.base x.disp.toInt n)) (h : P (view s)) :
    OutView P (storeG s x n o) :=
  withRegs_view hP h (aligned_view hP h fun _ => withData_view hP h (storeAt_view hP hS h fun _ ht => outView_next ht))

theorem storeS_view {x : SsArgs} {n o : Nat} (hS : StoreSafe P (baseRuns s x.gs 0 n)) (h : P (view s)) : OutView P (storeS s x n o) := by
  rw [baseRuns, memAddr_zero] at hS
  exact withRegs_view hP h (aligned_view hP h fun _ => withData_view hP h (storeAt_view hP hS h fun _ ht => outView_next ht))

theorem execVst_view {x : MemV} (hS : StoreSafe P (baseRuns s x.base x.disp.toInt 32)) (h : P (view s)) : OutView P (execVst x s) :=
  withRegs_view hP h (aligned_view hP h fun _ => withVecs_view hP h (storeAt_view hP hS h fun _ ht => outView_next ht))

theorem execVstm_view {x : VstmArgs} (hS : StoreSafe P (baseRuns s x.base x.disp.toInt 32)) (h : P (view s)) : OutView P (execVstm x s) :=
  withRegs_view hP h (withVecs_view hP h (outView_ite (fun _ => outView_next h) fun _ =>
    aligned_view hP h fun ha => withVecs_view hP h (storeMaskAt_view hP ha hS h)))

/-! ### Handle mode (R40, R177) -/

omit hP in
theorem getHandle_of_handleTests {hd : Fin 8} {o need n : Nat} {x : Handle} (h : handleTests s hd o need n = .ok x) :
    getHandle s s.cur hd = some x := by
  unfold handleTests at h
  split at h
  · cases h
  · simp only [andThen_eq_ok] at h
    obtain ⟨-, -, -, -, hx⟩ := h
    cases hx
    assumption

theorem handleWrite_view {hd : Fin 8} {off need n : Nat} {k : Nat → Out} (h : P (view s))
    (hk : ∀ a, a % n = 0 → handleRuns s hd off n = runsOr (checkWrite s a n) → OutView P (k a)) :
    OutView P (handleWrite s hd off need n k) := by
  refine chkRun_view hP h fun x hx => outView_ite (fun _ => waitFor_view h) fun _ => aligned_view hP h fun ha => hk _ ha ?_
  rw [handleRuns, getHandle_of_handleTests hx]

theorem hstoreG_view {x : HMemG} {n o : Nat} (hS : StoreSafe P (handleRuns s x.h x.off.val n)) (h : P (view s)) :
    OutView P (hstoreG s x n o) :=
  withRegs_view hP h (handleWrite_view hP h fun _ _ hruns =>
    withData_view hP h (storeAt_view hP (hruns ▸ hS) h fun _ ht => outView_next ht))

theorem execVstHandle_view {x : HMemV} (hS : StoreSafe P (handleRuns s x.h x.off.val 32)) (h : P (view s)) :
    OutView P (execVstHandle x s) :=
  handleWrite_view hP h fun _ _ hruns => withVecs_view hP h (storeAt_view hP (hruns ▸ hS) h fun _ ht => outView_next ht)

theorem execVstmHandle_view {x : VstmHArgs} (hS : StoreSafe P (handleRuns s x.h x.off.val 32)) (h : P (view s)) :
    OutView P (execVstmHandle x s) :=
  withVecs_view hP h (outView_ite (fun _ => outView_next h) fun _ => handleWrite_view hP h fun _ ha hruns =>
    withVecs_view hP h (storeMaskAt_view hP ha (hruns ▸ hS) h))

/-! ### Atomic accesses (R181) -/

omit hP in
theorem bytes_dvd (z : AtSize) : AtSize.bytes z ∣ 65536 := by cases z <;> decide

theorem execSto_view {x : AtWrArgs} (hS : StoreSafe P (runsOr (checkWrite s (getG s s.cur x.ga).toNat (AtSize.bytes x.m.size))))
    (h : P (view s)) : OutView P (execSto x s) :=
  atWide_view hP h (withRegs_view hP h (atTests_view hP h fun _ => withData_view hP h (chkRun_view hP h fun runs hruns =>
    ackGate_view h (pairGate_view h fun t ht _ => outView_next (ctxStoreAs_view (runsOr_of_ok hruns ▸ hS) inRuns_self
      (by rw [ht]; exact h))))))

theorem rmw_view {x : AtArgs} {host : Bool} {reads : List GReg} {o : Nat} {f : Nat → Option Nat}
    (hS : StoreSafe P (atomicRuns s x.ga x.m.size)) (h : P (view s)) : OutView P (rmw s x host reads o f) := by
  refine withRegs_view hP h (atTests_view hP h fun ha => withData_view hP h (chkRun_view hP h fun runs hruns =>
    ackGate_view h (pairGate_view h fun t ht _ => hostReply_view (by rw [ht]; exact h) fun u hu => ?_)))
  obtain ⟨loc, rfl⟩ := checkAtomic_one ha (bytes_dvd _) hruns
  rw [atomicRuns, runsOr_of_ok hruns] at hS
  have hview : P (view u) := by rw [hu, ht]; exact h
  dsimp only
  split
  · exact outView_next (setG_view (by rw [view_loadAs]; exact hview))
  · exact outView_next (setG_view (by exact hview))
  · exact outView_next (setG_view (ctxStoreAs_view hS inRuns_self (by exact hview)))

theorem rmwData_view {x : AtArgs} {host : Bool} {o : Nat} {f : Nat → Nat → Nat} (hS : StoreSafe P (atomicRuns s x.ga x.m.size))
    (h : P (view s)) : OutView P (rmwData s x host o f) :=
  atWide_view hP h (rmw_view hP hS h)

end Sys2Proof.Proofs
end

