-- ==== Sys2Proof/Proofs/WordView.lean ====
section
/-! PROOFS. A full/empty access changes the word it names, tags, and what requests that wait do where any waits (R184 to R187). -/

namespace Sys2Proof.Proofs

open Sys2Proof.Machine Sys2Proof.Laws

/-! ### Where no request waits (R186) -/

theorem freezeWith_feQueue_nil {s : State} (h : s.feQueue = []) (c : Fin 8) (f : Flt) : (freezeWith s c f).feQueue = [] := by
  show s.feQueue.filter _ = []
  rw [h]
  rfl

theorem poisonFound_feQueue (s : State) (f : Flt) : (poisonFound s f).feQueue = s.feQueue := by
  unfold poisonFound
  split <;> rfl

theorem raise_feQueue_nil {s : State} (h : s.feQueue = []) (c : Fin 8) (f : Flt) : (raise s c f).feQueue = [] := by
  have hfreeze : (freezeWith (poisonFound s f) c f).feQueue = [] := freezeWith_feQueue_nil (by rw [poisonFound_feQueue, h]) c f
  unfold raise
  dsimp only
  split
  · show (sealCore _).feQueue = []
    unfold sealCore
    rw [sealWords_idle (by exact hfreeze)]
    exact hfreeze
  · exact hfreeze

theorem setG_feQueue (s : State) (c : Fin 8) (r : GReg) (w : Word) : (setG s c r w).feQueue = s.feQueue := by
  unfold setG
  split <;> rfl

theorem feEffect_feQueue (s : State) (k : FeKind) (loc : Nat) (z : AtSize) (v : Nat) : (feEffect s k loc z v).feQueue = s.feQueue := by
  cases k
  case peek => rfl
  all_goals exact (store_frame ..).feQueue

theorem noteAs_feQueue (s : State) (w : Write) (locs : List Nat) : (noteAs s w locs).feQueue = s.feQueue := by
  rw [noteAs_eq]
  rfl

theorem feOrder_feQueue (s : State) (c : Fin 8) (k : FeKind) (m : AtMode) (loc : Nat) : (feOrder s c k m loc).feQueue = s.feQueue := by
  unfold feOrder
  dsimp only
  split
  · rfl
  · rw [noteStore_eq]
    rfl

theorem feAct_feQueue (s : State) (c : Fin 8) (k : FeKind) (m : AtMode) (loc v : Nat) : (feAct s c k m loc v).feQueue = s.feQueue := by
  rw [feAct, feEffect_feQueue, feOrder_feQueue]

theorem feActRemote_feQueue (s : State) (r : FeReq) : (feActRemote s r).feQueue = s.feQueue := by
  unfold feActRemote
  dsimp only
  rw [feEffect_feQueue]
  split
  · rfl
  · exact noteAs_feQueue ..

theorem feProceed_feQueue_nil {s : State} (h : s.feQueue = []) (r : FeReq) : (feProceed s r).feQueue = [] := by
  unfold feProceed
  split
  · exact raise_feQueue_nil (by exact h) _ _
  next f _ _ _ =>
    show (f.block.elim s (blockFound s)).feQueue = []
    cases f.block <;> exact h
  · show (if _ then _ else _ : State).feQueue = []
    split
    · rw [setG_feQueue, feAct_feQueue, h]
    · rw [feAct_feQueue, h]
  · show (feActRemote s r).feQueue = []
    rw [feActRemote_feQueue, h]

theorem serveWord_idle {s : State} (h : s.feQueue = []) (n loc : Nat) : serveWord n s loc = s := by
  cases n with
  | zero => rfl
  | succ n => simp [serveWord, serveOne, h]

theorem servePair_idle {s : State} (h : s.feQueue = []) (n base : Nat) : servePair n s base = s := by
  cases n with
  | zero => rfl
  | succ n => simp [servePair, serveWord_idle h]

theorem serve_idle {s : State} (h : s.feQueue = []) (loc : Nat) : serve s loc = s := servePair_idle h _ _

/-! ### What a request does to memory (R185, R311) -/

/-- A property of memory that a change of tags does not break. -/
def TagSafe (P : MemView → Prop) : Prop := ∀ (v : MemView) (l : List Nat), P v → P { v with tags := l }

/-- The run of the word that an access names. -/
def wordRun (loc : Nat) (z : AtSize) : List (Nat × Nat) := [(loc, AtSize.bytes z)]

section requests

variable {P : MemView → Prop} {s : State} (hP : DescSafe P) (hT : TagSafe P)

include hT in
theorem setTags_view {loc : Nat} {z : AtSize} {b : Bool} (h : P (view s)) : P (view (setTags s loc z b)) := hT _ _ h

include hT in
/-- The effect of an access that writes its word (R185). -/
theorem feEffect_view {k : FeKind} {loc : Nat} {z : AtSize} {v : Nat} (hS : k = .peek ∨ StoreSafe P (wordRun loc z)) (h : P (view s)) :
    P (view (feEffect s k loc z v)) := by
  have hstore : k ≠ .peek → ∀ bs : List Byte, bs.length = AtSize.bytes z → P (view (store s loc bs)) := by
    intro hk bs hbs
    refine store_view (hS.resolve_left hk) (fun l hlo hhi => ⟨_, List.mem_singleton_self _, hlo, ?_⟩) h
    rw [← hbs]
    exact hhi
  cases k
  case peek => exact h
  case take | tryTake | drain => exact setTags_view hT (by exact hstore nofun _ (length_readBytes ..))
  case put | tryPut | fill => exact setTags_view hT (by exact hstore nofun _ (length_leBytes ..))

theorem feOrder_view {c : Fin 8} {k : FeKind} {m : AtMode} {loc : Nat} (h : P (view s)) : P (view (feOrder s c k m loc)) := by
  unfold feOrder
  dsimp only
  split
  · exact h
  · exact noteStore_view (by exact h)

include hT in
theorem feAct_view {c : Fin 8} {k : FeKind} {m : AtMode} {loc v : Nat} (hS : k = .peek ∨ StoreSafe P (wordRun loc m.size)) (h : P (view s)) :
    P (view (feAct s c k m loc v)) :=
  feEffect_view hT hS (feOrder_view h)

theorem noteAs_view {w : Write} {locs : List Nat} (h : P (view s)) : P (view (noteAs s w locs)) := by
  rw [noteAs_eq]
  exact h

include hT in
theorem feActRemote_view {r : FeReq} (hS : r.kind = .peek ∨ StoreSafe P (wordRun r.loc r.size)) (h : P (view s)) :
    P (view (feActRemote s r)) := by
  refine feEffect_view hT hS ?_
  split
  · exact h
  · exact noteAs_view h

include hP in
theorem blockFound_view {b : Option Nat} (h : P (view s)) : P (view (b.elim s (blockFound s))) := by
  cases b with
  | none => exact h
  | some b => exact logEvent_view (setDesc_view hP h)

include hP hT in
theorem feProceed_view {r : FeReq} (hS : r.kind = .peek ∨ StoreSafe P (wordRun r.loc r.size) ∧ StoreSafe P (wordRun r.loc r.mode.size))
    (h : P (view s)) : P (view (feProceed s r)) := by
  unfold feProceed
  split
  · exact raise_view hP (by exact h)
  · exact blockFound_view hP h
  · have hact : P (view (feAct s ‹_› r.kind r.mode r.loc r.value.toNat)) := feAct_view hT (hS.imp_right And.right) h
    exact ite_view (t := setG _ _ _ _) (setG_view hact) hact
  · exact feActRemote_view hT (hS.imp_right And.left) h

/-! ### Queues served (R186) -/

/-- Every store keeps the property. -/
def AllStores (P : MemView → Prop) : Prop := ∀ runs, StoreSafe P runs

include hP hT in
theorem serveWord_view (hA : AllStores P) (n loc : Nat) (h : P (view s)) : P (view (serveWord n s loc)) := by
  induction n generalizing s with
  | zero => exact h
  | succ n ih =>
    unfold serveWord serveOne
    cases s.feQueue.find? fun r => decide (r.loc = loc) && feMay s r with
    | none => exact h
    | some r => exact ih (feProceed_view hP hT (.inr ⟨hA _, hA _⟩) (by exact h))

include hP hT in
theorem servePair_view (hA : AllStores P) (n base : Nat) (h : P (view s)) : P (view (servePair n s base)) := by
  induction n generalizing s with
  | zero => exact h
  | succ n ih =>
    have hwords := serveWord_view hP hT hA s.feQueue.length (base + 4) (serveWord_view hP hT hA s.feQueue.length base h)
    exact ite_view hwords (ih hwords)

include hP hT in
theorem serve_view {loc : Nat} (hq : s.feQueue = [] ∨ AllStores P) (h : P (view s)) : P (view (serve s loc)) := by
  rcases hq with hq | hA
  · rw [serve_idle hq]
    exact h
  · exact servePair_view hP hT hA _ _ h

include hP hT in
theorem serveAll_view (hA : AllStores P) (h : P (view s)) : P (view (serveAll s)) :=
  foldl_view (fun _ _ ht => serve_view hP hT (.inr hA) ht) _ h

include hP hT in
theorem feArrive_view {r : FeReq} {t : State} (hq : s.feQueue = [] ∨ AllStores P)
    (hS : r.kind = .peek ∨ StoreSafe P (wordRun r.loc r.size) ∧ StoreSafe P (wordRun r.loc r.mode.size)) (ht : feArrive s r = some t)
    (h : P (view s)) : P (view t) := by
  unfold feArrive at ht
  split at ht
  · cases ht
    exact serve_view hP hT (hq.imp_left fun hq => feProceed_feQueue_nil hq r) (feProceed_view hP hT hS h)
  · split at ht <;> cases ht
    exact h

/-! ### The instructions (R185, R186) -/

include hP in
theorem feAccess_view {m : AtMode} {ga : GReg} {datas : List GReg} {kind : Option FeKind} {writes : Nat → Bool} {d o : Nat}
    {k : Nat → State → Out} (h : P (view s))
    (hk : ∀ loc t, view t = view s → t.feQueue = s.feQueue → (kind ≠ none → kind ≠ some .peek → atomicRuns s ga m.size = wordRun loc m.size) →
      OutView P (k loc t)) : OutView P (feAccess s m ga datas kind writes d o k) := by
  refine atTests_view hP h fun ha => withData_view hP h (chkRun_view hP h fun runs hruns => chkRun_view hP h fun _ _ =>
    ackGate_view h (pairGate_view h fun t ht hq => hk _ t ht hq fun hnone hpeek => ?_))
  have hatomic : checkAtomic s (getG s s.cur ga).toNat (AtSize.bytes m.size) = .ok runs := by
    cases kind with
    | none => exact absurd rfl hnone
    | some k =>
      cases k
      case peek => exact absurd rfl hpeek
      all_goals exact hruns
  obtain ⟨loc, rfl⟩ := checkAtomic_one ha (bytes_dvd _) hatomic
  exact runsOr_of_ok hatomic

include hP hT in
theorem feWait_view {kind : FeKind} {loc : Nat} {m : AtMode} {v : Nat} {rd : GReg} (hq : s.feQueue = [] ∨ AllStores P)
    (hS : kind = .peek ∨ StoreSafe P (wordRun loc m.size)) (h : P (view s)) : OutView P (feWait s kind loc m v rd) := by
  unfold feWait
  dsimp only
  split
  next harrive => exact outView_next (feArrive_view hP hT (by exact hq) (by exact hS.imp_right fun hS => ⟨hS, hS⟩) harrive (by exact h))
  · exact outView_next h

variable (hq : s.feQueue = [] ∨ AllStores P)
include hP hT hq

theorem execTake_view {x : AtRdArgs} (hS : StoreSafe P (atomicRuns s x.ga x.m.size)) (h : P (view s)) : OutView P (execTake x s) :=
  withRegs_view hP h (feAccess_view hP h fun _ _ ht hqt hruns =>
    feWait_view hP hT (hqt ▸ hq) (.inr (hruns nofun nofun ▸ hS)) (ht ▸ h))

theorem execPeek_view {x : AtRdArgs} (h : P (view s)) : OutView P (execPeek x s) :=
  withRegs_view hP h (feAccess_view hP h fun _ _ ht hqt _ => feWait_view hP hT (hqt ▸ hq) (.inl rfl) (ht ▸ h))

theorem execPut_view {x : AtWrArgs} (hS : StoreSafe P (atomicRuns s x.ga x.m.size)) (h : P (view s)) : OutView P (execPut x s) :=
  atWide_view hP h (withRegs_view hP h (feAccess_view hP h fun _ _ ht hqt hruns =>
    feWait_view hP hT (hqt ▸ hq) (.inr (hruns nofun nofun ▸ hS)) (ht ▸ h)))

/-- A word acted on, and the queues that this serves. -/
theorem served_feAct_view {c : Fin 8} {k : FeKind} {m : AtMode} {loc v : Nat} (hS : StoreSafe P (wordRun loc m.size)) (h : P (view s)) :
    P (view (serve (feAct s c k m loc v) loc)) :=
  serve_view hP hT (by rw [feAct_feQueue]; exact hq) (feAct_view hT (.inr hS) h)

theorem execTrytake_view {x : AtArgs} (hS : StoreSafe P (atomicRuns s x.ga x.m.size)) (h : P (view s)) : OutView P (execTrytake x s) :=
  withRegs_view hP h (feAccess_view hP h fun _ _ ht hqt hruns => outView_ite
    (fun _ => outView_next (setG_view (setG_view (served_feAct_view hP hT (hqt ▸ hq) (hruns nofun nofun ▸ hS) (ht ▸ h)))))
    fun _ => outView_next (setG_view (by rw [← ht] at h; exact h)))

theorem execTryput_view {x : AtArgs} (hS : StoreSafe P (atomicRuns s x.ga x.m.size)) (h : P (view s)) : OutView P (execTryput x s) :=
  atWide_view hP h (withRegs_view hP h (feAccess_view hP h fun _ _ ht hqt hruns => outView_ite
    (fun _ => outView_next (setG_view (served_feAct_view hP hT (hqt ▸ hq) (hruns nofun nofun ▸ hS) (ht ▸ h))))
    fun _ => outView_next (setG_view (by rw [← ht] at h; exact h))))

theorem execFill_view {x : AtWrArgs} (hS : StoreSafe P (atomicRuns s x.ga x.m.size)) (h : P (view s)) : OutView P (execFill x s) :=
  atWide_view hP h (withRegs_view hP h (feAccess_view hP h fun _ _ ht hqt hruns =>
    outView_next (retire_view <| served_feAct_view hP hT (hqt ▸ hq) (hruns nofun nofun ▸ hS) (ht ▸ h))))

theorem execDrain_view {x : AtAddrArgs} (hS : StoreSafe P (atomicRuns s x.ga x.m.size)) (h : P (view s)) : OutView P (execDrain x s) :=
  withRegs_view hP h (feAccess_view hP h fun _ _ ht hqt hruns =>
    outView_next (retire_view <| served_feAct_view hP hT (hqt ▸ hq) (hruns nofun nofun ▸ hS) (ht ▸ h)))

omit hT hq in
theorem execFestat_view {x : AtRdArgs} (h : P (view s)) : OutView P (execFestat x s) :=
  withRegs_view hP h (feAccess_view hP h fun _ _ ht _ _ => outView_next (setG_view (by rw [← ht] at h; exact h)))

end requests

end Sys2Proof.Proofs
end

