-- ==== Sys2Proof/Proofs/ControlView.lean ====
section
/-! PROOFS. Branches, block decoders, engine commands and the SY and SYS instructions leave memory alone; VQUANT and XRECV store one run. -/

namespace Sys2Proof.Proofs

open Sys2Proof.Machine Sys2Proof.Laws

section control

variable {P : MemView → Prop} {s : State} (hP : DescSafe P)
include hP

/-! ### Branches and forms before an instruction (R93, R136, R137, R141) -/

theorem branch_view {x : BrArgs} {f : Word → Word → Bool} (h : P (view s)) : OutView P (branch s x f) :=
  withRegs_view hP h (outView_ite (fun _ => outView_next (retireTo_view h)) fun _ => outView_next (retire_view h))

theorem branchS_view {x : SbArgs} {f : Word → Bool} (h : P (view s)) : OutView P (branchS s x f) :=
  withRegs_view hP h (outView_ite (fun _ => outView_next (retireTo_view h)) fun _ => outView_next (retire_view h))

theorem execJal_view {d : BitVec 20} {r : GReg} (h : P (view s)) : OutView P (execJal d r s) :=
  withRegs_view hP h (outView_next (retireTo_view (setG_view h)))

theorem execJalr_view {b r : GReg} (h : P (view s)) : OutView P (execJalr b r s) :=
  withRegs_view hP h (outView_ite (fun _ => fault_view hP h) fun _ => outView_next (retireTo_view (setG_view h)))

theorem execTriple_view (h : P (view s)) : OutView P (execTriple s) :=
  outView_ite (fun _ => faultCls_view hP h) fun _ => outView_next h

theorem execWide_view {p : BitVec 10} (h : P (view s)) : OutView P (execWide p s) :=
  outView_ite (fun _ => faultCls_view hP h) fun _ => outView_next h

/-! ### VQUANT and the block decoders (R161 to R164) -/

omit hP in
theorem view_loadRuns (s : State) (runs : List (Nat × Nat)) : view (loadRuns s runs).2 = view s := view_loadAs ..

theorem execVquant_view {x : VquantArgs} (hS : StoreSafe P [((getG s s.cur x.gd).toNat, 64)]) (h : P (view s)) :
    OutView P (execVquant x s) := by
  refine withRegs_view hP h (chkRun_view hP h fun _ _ => ?_)
  have hrounded : ∀ {mode act f l runs}, P (view (roundElems mode act f l (loadRuns s runs).2).2) := fun {_ _ _ l _} =>
    roundElems_view l (by rw [view_loadRuns]; exact h)
  dsimp only
  split
  · exact faultCls_view hP (by exact h)
  next hv =>
    refine outView_next (retire_view (setG_view (ctxStoreAs_view hS (fun r hr loc hlo hhi => ⟨_, List.mem_singleton_self _, ?_⟩)
      (vote_view hv hrounded))))
    simp only [List.mem_cons, List.not_mem_nil, or_false] at hr
    rcases hr with rfl | rfl <;> dsimp only at * <;> omega

theorem execVdeq_view {x : VdecArgs} (h : P (view s)) : OutView P (execVdeq x s) :=
  withRegs_view hP h (outView_ite (fun _ => faultCls_view hP h) fun _ => withVecs_view hP h (chkRun_view hP h fun _ _ =>
    withVecs_view hP h (writeLanes_view hP (roundElems_view _ (by rw [view_loadRuns]; exact h)))))

theorem execVcbdec_view {x : VdecArgs} (h : P (view s)) : OutView P (execVcbdec x s) :=
  withRegs_view hP h (outView_ite (fun _ => faultCls_view hP h) fun _ => withVecs_view hP h (chkRun_view hP h fun _ _ =>
    withVecs_view hP h (writeLanes_view hP (roundElems_view _ (by rw [view_loadRuns, view_loadRuns]; exact h)))))

/-! ### Engine commands at issue (R35, R231, R256, R273, R288) -/

omit hP in
theorem enqueue_view {gs : GReg} {c : Cmd} {a b : Word} (h : P (view s)) : OutView P (enqueue s gs c a b) :=
  outView_ite (fun _ => waitFor_view h) fun _ => outView_ite (fun _ => waitFor_view h) fun _ => outView_next h

theorem command_view {gs : GReg} {c : Cmd} {ga gb : GReg} {mis : Word → Word → Chk Unit} {ok : Word → Word → Bool} {reads data : List GReg}
    (h : P (view s)) : OutView P (command s gs c ga gb mis ok reads data) :=
  withRegs_view hP h (chkRun_view hP h fun _ _ => outView_ite (fun _ => faultCls_view hP h) fun _ => withData_view hP h (enqueue_view h))

theorem recordCommand_view {gs : GReg} {c : Cmd} {ga : GReg} (h : P (view s)) : OutView P (recordCommand s gs c ga) := command_view hP h

theorem gramRecord_view {gs : GReg} {c : Cmd} {ga gb : GReg} {ok : Word → Bool} {tested data : Bool} (h : P (view s)) :
    OutView P (gramRecord s gs c ga gb ok tested data) := command_view hP h

theorem execCred_view {x : CredArgs} (h : P (view s)) : OutView P (execCred x s) :=
  withRegs_view hP h (chkRun_view hP h fun _ _ => outView_ite (fun _ => faultCls_view hP h) fun _ =>
    outView_ite (fun _ => faultCls_view hP h) fun _ => outView_ite (fun _ => waitFor_view h) fun _ =>
      outView_ite (fun _ => waitFor_view h) fun _ => outView_next h)

/-- CCANCEL of a job that does not run changes the queue alone (R289). -/
theorem execCcancel_view {gs : GReg}
    (hr : ∀ id j, (s.ctx s.cur).pend[gs.val] = some id → findJob s id = some j → running j = false) (h : P (view s)) :
    OutView P (execCcancel gs s) := by
  refine outView_ite (fun _ => faultCls_view hP h) fun _ => outView_next (retire_view ?_)
  split
  · exact h
  next id hid =>
    split
    · exact h
    next j hj =>
      have hidle := hr id j hid hj
      split
      · exact h
      next hstatus =>
        split
        · exact h
        · have hstarted : j.started = false := by
            cases hs : j.status <;> simp_all [running]
          simp only [hstarted, Bool.not_false, if_true]
          exact h

/-! ### Watches and time (R189 to R195) -/

omit hP in
theorem execFence_view {k : FenceKind} {z : Storage} {a : AgentScope} (h : P (view s)) : OutView P (execFence k z a s) := by
  refine outView_ite (fun _ => waitFor_view h) fun _ => outView_next (retire_view ?_)
  unfold fenced
  exact ite_view h h

omit hP in
theorem chooseEntry_view {c : Fin 8} {loc : Nat} {i : Fin 8} {t : State} (ht : chooseEntry s c loc = some (i, t)) : view t = view s := by
  unfold chooseEntry at ht
  split at ht
  · cases ht
    rfl
  · dsimp only at ht
    split at ht
    · split at ht <;> cases ht
      rfl
    · cases ht
      rfl

theorem execWatch_view {ga gd : GReg} (h : P (view s)) : OutView P (execWatch ga gd s) := by
  refine withRegs_view hP h (aligned_view hP h fun _ => outView_ite (fun _ => faultCls_view hP h) fun _ => chkRun_view hP h fun _ _ =>
    chkRun_view hP h fun _ _ => pairGate_view h fun t ht _ => ?_)
  rw [← ht] at h
  split
  next hentry => exact outView_next (retire_view (setG_view (by rw [← chooseEntry_view hentry] at h; exact h)))
  · exact faultCls_view hP h

omit hP in
theorem waitwReturn_view {gd : GReg} {n : Nat} (h : P (view s)) : OutView P (waitwReturn s gd n) :=
  outView_next (retire_view (setG_view (by exact h)))

omit hP in
theorem clearFired_view {i : Fin 8} (h : P (view s)) : P (view (clearFired s i)) := by
  unfold clearFired
  split <;> exact h

theorem execWaitw_view {gb gd : GReg} (h : P (view s)) : OutView P (execWaitw gb gd s) := by
  refine withRegs_view hP h ?_
  dsimp only
  split
  · exact waitwReturn_view (clearFired_view h)
  · exact outView_ite (fun _ => waitwReturn_view (by exact h)) fun _ => outView_ite (fun _ => waitwReturn_view h) fun _ => waitFor_view h

theorem execUnwatch_view {all : Bool} {ga : GReg} (h : P (view s)) : OutView P (execUnwatch all ga s) := by
  refine outView_ite (fun _ => outView_next h) fun _ => withRegs_view hP h (outView_next (retire_view ?_))
  split
  · split <;> exact h
  · exact h

theorem execYieldx_view {gb : GReg} (h : P (view s)) : OutView P (execYieldx gb s) :=
  withRegs_view hP h (outView_ite (fun _ => faultCls_view hP h) fun _ => outView_ite (fun _ => outView_next h) fun _ => outView_next h)

theorem execTick_view {gd : GReg} (h : P (view s)) : OutView P (execTick gd s) :=
  withRegs_view hP h (outView_next (retire_view (setG_view (by exact h))))

theorem execWaitt_view {ga gd : GReg} (h : P (view s)) : OutView P (execWaitt ga gd s) :=
  withRegs_view hP h (outView_ite (fun _ => outView_next (retire_view (setG_view (by exact h)))) fun _ => waitFor_view (by exact h))

/-! ### Barriers and exchanges (R29 to R34, R196 to R200) -/

omit hP in
theorem contributeSync_view {d o : Nat} {w : Wait} (h : P (view s)) : OutView P (contributeSync s d o w) :=
  outView_ite (fun _ => waitFor_view h) fun _ => pairGateIf_view h fun t ht _ => waitFor_view (by rw [← ht] at h; exact h)

theorem execBsync_view {l : Fin 5} {z : Storage} (h : P (view s)) : OutView P (execBsync l z s) :=
  outView_ite (fun _ => faultCls_view hP h) fun _ => contributeSync_view h

theorem execDsplit_view {gb ga : GReg} (h : P (view s)) : OutView P (execDsplit gb ga s) :=
  withRegs_view hP h (outView_ite (fun _ => faultCls_view hP h) fun _ => outView_ite (fun _ => faultCls_view hP h) fun _ => outView_next h)

theorem execXsend_view {gb ga : GReg} (h : P (view s)) : OutView P (execXsend gb ga s) := by
  refine withRegs_view hP h (aligned_view hP h fun _ => outView_ite (fun _ => faultCls_view hP h) fun _ => ?_)
  split
  · exact faultCls_view hP h
  · refine outView_ite (fun _ => fault_view hP h) fun _ => outView_ite (fun _ => faultCls_view hP h) fun _ => chkRun_view hP h fun runs _ =>
      outView_ite (fun _ => waitFor_view h) fun _ => pairGateIf_view h fun t ht _ => outView_next (retire_view ?_)
    rw [← ht, ← view_loadRuns t runs] at h
    exact h

theorem execXend_view {z : Storage} (h : P (view s)) : OutView P (execXend z s) :=
  outView_ite (fun _ => faultCls_view hP h) fun _ => outView_ite (fun _ => fault_view hP h) fun _ => contributeSync_view h

omit hP in
/-- A packet's buffer lies in this core's scratchpad (R198). -/
theorem checkWrite_of_packetFits {a : Nat} (hf : packetFits a = .ok ()) (s : State) : checkWrite s a 32 = .ok [(a, 32)] := by
  have hend : a + 32 ≤ spadSize := by
    by_contra hend
    simp [packetFits, demand, hend] at hf
  have hregion : regionOf a = .spad := by
    unfold spadSize at hend
    exact if_pos (by omega)
  have hrange : checkRange s a 32 true = .ok .spad := by simp [checkRange, hregion, hend]
  have hpeer : peerTest s a = .ok () := by simp [peerTest, sealedPeer, peerOf, hregion]
  rw [checkWrite_direct (.inl rfl) hrange, hpeer]
  rfl

omit hP in
theorem takePacket_view {a : Nat} {gd : GReg} {bs : List Byte} (hf : packetFits a = .ok ()) (hS : StoreSafe P [(a, 32)]) (h : P (view s)) :
    OutView P (takePacket s a gd bs) := by
  rw [takePacket, checkWrite_of_packetFits hf]
  exact outView_next (retire_view (setG_view (ctxStoreAs_view hS inRuns_self h)))

theorem execXrecv_view {ga gd : GReg} (hS : StoreSafe P (runsOr (checkWrite s (getG s s.cur ga).toNat 32))) (h : P (view s)) :
    OutView P (execXrecv ga gd s) := by
  refine withRegs_view hP h (aligned_view hP h fun _ => chkRun_view hP h fun _ hf => ?_)
  rw [runsOr_of_ok (checkWrite_of_packetFits hf s)] at hS
  refine outView_ite (fun _ => chkRun_view hP h fun _ _ => takePacket_view hf hS (by exact h)) fun _ =>
    outView_ite (fun _ => chkRun_view hP h fun _ _ => pairGate_view h fun t ht _ => takePacket_view hf hS ?_) fun _ =>
      outView_next (retire_view (setG_view h))
  rw [← ht] at h
  exact h

/-! ### Handles and published buffers (R202 to R205) -/

theorem execCbinit_view {hd : Fin 8} {gb ga : GReg} (h : P (view s)) : OutView P (execCbinit hd gb ga s) :=
  withRegs_view hP h (outView_ite (fun _ => faultCls_view hP h) fun _ => outView_ite (fun _ => outView_next h) fun _ =>
    withData_view hP h (outView_ite (fun _ => faultCls_view hP h) fun _ => outView_next h))

theorem handleCount_view {hd : Fin 8} {ok : Handle → Bool} {k : Handle → Out} (h : P (view s)) (hk : ∀ x, OutView P (k x)) :
    OutView P (handleCount s hd ok k) := by
  unfold handleCount
  split
  · exact faultCls_view hP h
  · exact outView_ite (fun _ => hk _) fun _ => faultCls_view hP h

theorem execCbwait_view {free : Bool} {hd : Fin 8} {gb gd : GReg} (h : P (view s)) : OutView P (execCbwait free hd gb gd s) :=
  withRegs_view hP h (handleCount_view hP h fun _ => outView_ite (fun _ => outView_next (retire_view (setG_view h))) fun _ => waitFor_view h)

theorem execCbadv_view {hd : Fin 8} {gb : GReg} (h : P (view s)) : OutView P (execCbadv hd gb s) :=
  withRegs_view hP h (handleCount_view hP h fun _ => outView_next h)

theorem execCbpush_view {hd : Fin 8} {gb : GReg} (h : P (view s)) : OutView P (execCbpush hd gb s) :=
  withRegs_view hP h (handleCount_view hP h fun _ => outView_next h)

theorem execPubl_view {a : AgentScope} {ga gd : GReg} (h : P (view s)) : OutView P (execPubl a ga gd s) := by
  refine withRegs_view hP h (aligned_view hP h fun _ => chkRun_view hP h fun _ _ => pairGate_view h fun t ht _ => ?_)
  rw [← ht] at h
  split
  · exact faultCls_view hP h
  · exact outView_ite (fun _ => faultCls_view hP h) fun _ => waitFor_view (by exact h)

/-! ### Registers, helpers and groups (R108 to R110, R314, R326 to R330) -/

omit hP in
theorem csrRead_view {a : Nat} {v : Word} {t : State} (ht : csrRead s a = some (v, t)) : view t = view s := by
  unfold csrRead at ht
  dsimp only at ht
  split at ht <;> cases ht <;> rfl

theorem execCsrrd_view {csr : BitVec 10} {gd : GReg} (h : P (view s)) : OutView P (execCsrrd csr gd s) := by
  refine withRegs_view hP h ?_
  split
  · exact faultCls_view hP h
  next hread => exact outView_next (retire_view (setG_view (by rw [csrRead_view hread]; exact h)))

omit hP in
theorem csrWrite_view {a : Nat} {v : Word} {t : State} (ht : csrWrite s a v = .ok t) : view t = view s := by
  have hlim : ∀ {ok : Bool} {k : CoreRegs}, ((demand ok .illegalOperand).andThen fun _ => .ok { s with core := k }) = .ok t → view t = view s := by
    intro ok k hk
    obtain ⟨-, -, hk⟩ := andThen_eq_ok.mp hk
    cases hk
    rfl
  unfold csrWrite at ht
  dsimp only at ht
  split at ht
  case h_9 => cases ht
  all_goals exact hlim ht

theorem execCsrwr_view {csr : BitVec 10} {ga : GReg} (h : P (view s)) : OutView P (execCsrwr csr ga s) :=
  withRegs_view hP h (outView_ite (fun _ => faultCls_view hP h) fun _ => withData_view hP h (chkRun_view hP h fun t ht =>
    outView_next (retire_view (by rw [csrWrite_view ht]; exact h))))

theorem execHstart_view {d : Fin 8} {gb ga : GReg} (h : P (view s)) : OutView P (execHstart d gb ga s) :=
  withRegs_view hP h (outView_ite (fun _ => fault_view hP h) fun _ => outView_ite (fun _ => faultCls_view hP h) fun _ =>
    withData_view hP h (outView_next h))

theorem execHjoin_view {d : Fin 8} {gd : GReg} (h : P (view s)) : OutView P (execHjoin d gd s) :=
  withRegs_view hP h (outView_ite (fun _ => faultCls_view hP h) fun _ => outView_ite (fun _ => waitFor_view h) fun _ =>
    outView_next (retire_view (setG_view (by exact h))))

theorem execHend_view {ga : GReg} (h : P (view s)) : OutView P (execHend ga s) :=
  withRegs_view hP h (outView_ite (fun _ => faultCls_view hP h) fun _ => outView_ite (fun _ => waitFor_view h) fun _ => outView_next h)

theorem execGend_view (h : P (view s)) : OutView P (execGend s) :=
  outView_ite (fun _ => faultCls_view hP h) fun _ => outView_ite (fun _ => waitFor_view h) fun _ => outView_next h

theorem execPhint_view {i : BitVec 10} (h : P (view s)) : OutView P (execPhint i s) := by
  refine outView_ite (fun _ => chkRun_view hP h fun _ _ => pairGate_view h fun t ht _ => ?_) fun _ => outView_next h
  rw [← ht] at h
  exact outView_ite (fun _ => faultCls_view hP h) fun _ => outView_next h

theorem execTrap_view {c : BitVec 10} {ga : GReg} (h : P (view s)) : OutView P (execTrap c ga s) := withRegs_view hP h (fault_view hP h)

end control

end Sys2Proof.Proofs
end

