-- ==== Sys2Proof/Proofs/OtherMemory.lean ====
section
/-! PROOFS. Of memory an encoded instruction changes what it stores alone (R59, R171, R175). -/

namespace Sys2Proof.Proofs

open Sys2Proof.Machine Sys2Proof.Laws

section classes

variable {P : MemView → Prop} {s : State} {i : Instr} (hP : DescSafe P)
include hP

/-! ### Instructions that store nothing -/

theorem scalar_view (hi : isScalar i = true) (h : P (view s)) : OutView P (exec i s) := by
  cases i with dsimp only [exec]
  | add x | sub x | mul x | mulh x | mulhn x | div x | divn x | rem x | remn x | and x | or x | xor x | andn x | shl x | shr x | shrl x
  | rol x | slt x | sltn x | min x | max x | minn x | maxn x | exts x | extz x | adds x => exact alu2_view hP h
  | clz x | ctz x | popc x => exact alu1_view hP h
  | sel x => exact alu3_view hP h
  | bfx x => exact execBfx_view hP h
  | bfi x => exact execBfi_view hP h
  | addi x | andi x | ori x | xori x | slti x | sltni x | muli x | lis x => exact aluI_view hP h
  | shli x | shri x | shrli x => exact shiftI_view hP h
  | addpc _ _ | mov x | li4 x => exact withRegs_view hP h (commitG_view hP h)
  | addShort x | subShort x | andShort x | orShort x | xorShort x | sltShort x => exact aluS_view hP h
  | addi4 x | shliShort x | shriShort x | shrliShort x => exact aluSI_view hP h
  | beq x | bne x | blt x | bge x | bltn x | bgen x => exact branch_view hP h
  | beqz x | bnez x | bltz x => exact branchS_view hP h
  | bra _ => exact outView_next (retireTo_view h)
  | nop => exact outView_next (retire_view h)
  | jal _ _ => exact execJal_view hP h
  | jalr _ _ => exact execJalr_view hP h
  | _ => cases hi

theorem lane_view (hi : isLane i = true) (h : P (view s)) : OutView P (exec i s) := by
  cases i with dsimp only [exec]
  | vcmpltShort x | vcmpeq x | vcmplt x | vcmple x | vcmpltn x => exact compareLanes_view hP h
  | vsel x => exact outView_ite (fun _ => faultCls_view hP h) fun _ => lanes_view hP h
  | vaddShort x | vsubShort x | vmulShort x | vmac x | vminShort x | vmaxShort x | vandShort x | vorShort x | vxorShort x | vshlShort x
  | vshrShort x | vshrlShort x | vmovShort x | vneg x | vabs x | vadd x | vsub x | vmul x | vmulh x | vfma x | vfms x | vmin x | vmax x
  | vminn x | vmaxn x | vand x | vor x | vxor x | vshl x | vshr x | vshrl x | vadds x | vaddsn x | vsubs x | vabsd x | vdiv x | vsqrt x
  | vrcp x | vexp2 x | vscale x | vdot4 x | vdot2 x => exact lanes_view hP h
  | _ => cases hi

theorem vx_view (hi : isVx i = true) (h : P (view s)) : OutView P (exec i s) := by
  cases i with dsimp only [exec]
  | vcvtff x | vcvtfi x | vcvtif x | vcvtii x => exact convertLanes_view hP h
  | vbcast x | vmask _ _ | vbmdec x => exact withRegs_view hP h (lanesFrom_view hP h)
  | vget x => exact execVget_view hP h
  | vput x => exact execVput_view hP h
  | vperm x | vcompr x | vexpnd x | vredadd x | vredmax x | vredmin x | vscanadd x | viota x | vmov x | vclass x => exact lanes_view hP h
  | vpopm x | vfirst x | vbmenc x => exact withRegs_view hP h (withVecs_view hP h (commitG_view hP h))
  | vrndseed _ _ => exact execVrndseed_view hP h
  | _ => cases hi

theorem load_view (hi : isLoad i = true) (h : P (view s)) : OutView P (exec i s) := by
  cases i with dsimp only [exec]
  | lw16 x | lx16 x => exact loadS_view hP h
  | lb x | lbn x | lh x | lhn x | lw x | lwn x | lx x => exact loadG_view hP h
  | vld x | vldb x => exact loadV_view hP h
  | ldesc x => exact execLdesc_view hP h
  | lbHandle x | lbnHandle x | lhHandle x | lhnHandle x | lwHandle x | lwnHandle x | lxHandle x => exact hloadG_view hP h
  | vldHandle x | vldbHandle x => exact hloadV_view hP h
  | ldo x => exact execLdo_view hP h
  | vdeq x => exact execVdeq_view hP h
  | vcbdec x => exact execVcbdec_view hP h
  | _ => cases hi

theorem issue_view (hi : isCommand i = true) (h : P (view s)) : OutView P (exec i s) := by
  cases i with dsimp only [exec]
  | cred x => exact execCred_view hP h
  | cpy x | cgather x | cscatter x | rfmatch x | rfmerge x | rfshake x => exact recordCommand_view hP h
  | gspine x | gocc x | gunf x | gloc x => exact gramRecord_view hP h
  | tld x | tst x | tmma x | twld x | tcbt x | tzero x | tscale x | tvfy x | trem x | tcap x | tcfg x | cqput x | gbind x | geval x | glen x
  | glook x | grelease x | rflogs x | rffree x | nbcfg x | nbpost x | nbadv x | nbrd x | nbwr x | nbspk x => exact command_view hP h
  | _ => cases hi

theorem control_view (hi : isControl i = true) (h : P (view s)) : OutView P (exec i s) := by
  cases i with dsimp only [exec]
  | fence _ _ _ => exact execFence_view h
  | watch _ _ => exact execWatch_view hP h
  | waitw _ _ => exact execWaitw_view hP h
  | unwatch _ _ => exact execUnwatch_view hP h
  | yieldx _ => exact execYieldx_view hP h
  | bsync _ _ => exact execBsync_view hP h
  | xsend _ _ => exact execXsend_view hP h
  | xend _ => exact execXend_view hP h
  | cbinit _ _ _ => exact execCbinit_view hP h
  | cbwait _ _ _ _ => exact execCbwait_view hP h
  | cbadv _ _ => exact execCbadv_view hP h
  | cbpush _ _ => exact execCbpush_view hP h
  | publ _ _ _ => exact execPubl_view hP h
  | tick _ => exact execTick_view hP h
  | waitt _ _ => exact execWaitt_view hP h
  | dsplit _ _ => exact execDsplit_view hP h
  | cdep _ | yield => exact outView_next h
  | hstart _ _ _ => exact execHstart_view hP h
  | hjoin _ _ => exact execHjoin_view hP h
  | hend _ => exact execHend_view hP h
  | phint _ => exact execPhint_view hP h
  | trap _ _ => exact execTrap_view hP h
  | csrrd _ _ => exact execCsrrd_view hP h
  | csrwr _ _ => exact execCsrwr_view hP h
  | gend => exact execGend_view hP h
  | brk _ => exact fault_view hP h
  | triple => exact execTriple_view hP h
  | wide _ => exact execWide_view hP h
  | festat x => exact execFestat_view hP h
  | unassignedEncoding _ => exact faultCls_view hP (by exact h)
  | _ => cases hi

theorem storesNothing_view (hi : storesNothing i = true) (h : P (view s)) : OutView P (exec i s) := by
  simp only [storesNothing, Bool.or_eq_true] at hi
  rcases hi with ((((hi | hi) | hi) | hi) | hi) | hi
  · exact scalar_view hP hi h
  · exact lane_view hP hi h
  · exact vx_view hP hi h
  · exact load_view hP hi h
  · exact issue_view hP hi h
  · exact control_view hP hi h

/-! ### Instructions that store -/

theorem fullEmpty_view (hT : TagSafe P) (hq : s.feQueue = [] ∨ AllStores P) (hi : isFullEmpty i = true) (hS : StoreSafe P (storedRuns s i))
    (h : P (view s)) : OutView P (exec i s) := by
  cases i with dsimp only [exec]
  | take x => exact execTake_view hP hT hq hS h
  | peek x => exact execPeek_view hP hT hq h
  | put x => exact execPut_view hP hT hq hS h
  | trytake x => exact execTrytake_view hP hT hq hS h
  | tryput x => exact execTryput_view hP hT hq hS h
  | fill x => exact execFill_view hP hT hq hS h
  | drain x => exact execDrain_view hP hT hq hS h
  | _ => cases hi

/-- The stores, atomic accesses, SDESC, XRECV, VQUANT, and CCANCEL of a job that does not run. -/
theorem stores_view (hi : (isFullEmpty i || storesNothing i || decide (i.len = 0)) = false)
    (hc : ∀ gs id j, i = .ccancel gs → (s.ctx s.cur).pend[gs.val] = some id → findJob s id = some j → running j = false)
    (hS : StoreSafe P (storedRuns s i)) (h : P (view s)) : OutView P (exec i s) := by
  cases i with dsimp only [exec]
  | sb x | sh x | sw x | sx x => exact storeG_view hP hS h
  | sw16 x | sx16 x => exact storeS_view hP hS h
  | vst x => exact execVst_view hP hS h
  | vstm x => exact execVstm_view hP hS h
  | sbHandle x | shHandle x | swHandle x | sxHandle x => exact hstoreG_view hP hS h
  | vstHandle x => exact execVstHandle_view hP hS h
  | vstmHandle x => exact execVstmHandle_view hP hS h
  | sdesc x => exact execSdesc_view hP h
  | sto x => exact execSto_view hP hS h
  | cas x | faddf x => exact rmw_view hP hS h
  | swap x | fadd x | fand x | atFor x | fxor x | fmin x | fmax x | fminn x | fmaxn x => exact rmwData_view hP hS h
  | xrecv _ _ => exact execXrecv_view hP hS h
  | vquant x => exact execVquant_view hP hS h
  | ccancel gs => exact execCcancel_view hP (fun id j => hc gs id j rfl) h
  | _ => cases hi

/-- An encoded instruction keeps what its own stores keep. -/
theorem exec_view (hlen : 0 < i.len)
    (hc : ∀ gs id j, i = .ccancel gs → (s.ctx s.cur).pend[gs.val] = some id → findJob s id = some j → running j = false)
    (hfe : isFullEmpty i = true → TagSafe P ∧ (s.feQueue = [] ∨ AllStores P)) (hS : StoreSafe P (storedRuns s i)) (h : P (view s)) :
    OutView P (exec i s) := by
  by_cases hi : isFullEmpty i = true
  · exact fullEmpty_view hP (hfe hi).1 (hfe hi).2 hi hS h
  · by_cases hn : storesNothing i = true
    · exact storesNothing_view hP hn h
    · exact stores_view hP (by simp [hi, hn, Nat.ne_of_gt hlen]) hc hS h

end classes

/-! ### The bytes and tags that stay -/

/-- Memory of which the bytes outside runs and boltropes are as in a state. -/
def BytesKept (s : State) (runs : List (Nat × Nat)) (v : MemView) : Prop :=
  ∀ loc, BesideBolts loc → ¬ InRuns runs loc → Memory.get v.mem loc = Memory.get s.mem loc

theorem storeSafe_bytesKept (s : State) (runs : List (Nat × Nat)) : StoreSafe (BytesKept s runs) runs :=
  fun _ _ h hw loc hb hr => (hw.get loc hb hr).trans (h loc hb hr)

theorem tagSafe_bytesKept (s : State) (runs : List (Nat × Nat)) : TagSafe (BytesKept s runs) := fun _ _ h => h

theorem bytesKept_refl (s : State) (runs : List (Nat × Nat)) : BytesKept s runs (view s) := fun _ _ _ => rfl

/-- Settles O60: each shape of instruction keeps whatever property of memory its own stores keep, a written descriptor at most beside it;
the bytes outside the runs are such a property, and so are the tags. -/
theorem otherMemoryIsKept : Obligations.OtherMemoryIsKept := by
  unfold Obligations.OtherMemoryIsKept
  intro i s t hlen hc ht
  refine ⟨fun hn => ?_, fun hq loc hr hb => ?_, fun hfe => ?_⟩
  · exact storesNothing_view (P := fun v => (∀ loc, Memory.get v.mem loc = Memory.get s.mem loc) ∧ v.tags = s.tags) (fun _ _ _ h => h) hn
      ⟨fun _ => rfl, rfl⟩ t ht
  · refine exec_view (P := BytesKept s (storedRuns s i)) (fun _ _ _ h => h) hlen hc (fun hfe => ⟨tagSafe_bytesKept _ _, .inl ?_⟩)
      (storeSafe_bytesKept _ _) (bytesKept_refl _ _) t ht loc hb ?_
    · exact hq.resolve_left (by simp [hfe])
    · rintro ⟨r, hmem, hin⟩
      exact hr r hmem hin
  · exact exec_view (P := fun v => v.tags = s.tags) (fun _ _ _ h => h) hlen hc (fun hi => by simp [hfe] at hi) (fun _ _ h _ => h) rfl t ht

end Sys2Proof.Proofs
end

