-- ==== Sys2Proof/Proofs/EngineMemory.lean ====
section
/-! PROOFS. What the copy unit writes keeps memory in its canonical form (log 1). -/

namespace Sys2Proof.Proofs

open Sys2Proof.Machine Sys2Proof.Laws

/-! ### The form and its rules -/

/-- A state in the canonical form goes on to one in it. -/
structure KeepsCanonical (s t : State) : Prop where
  inv : MemoryInv s → MemoryInv t

theorem canonical_refl (s : State) : KeepsCanonical s s := ⟨id⟩

theorem KeepsCanonical.trans {s t u : State} (h : KeepsCanonical s t) (k : KeepsCanonical t u) : KeepsCanonical s u := ⟨k.inv ∘ h.inv⟩

/-- A step that leaves every memory and the descriptors alone. -/
theorem canonical_of_view {s t : State} (h : view t = view s) : KeepsCanonical s t := by
  refine ⟨fun hs => ?_⟩
  rw [memoryInv_iff, h]
  exact hs

theorem canonical_of_store {s t : State} (f : StoreFrame s t) : KeepsCanonical s t := ⟨memoryInv_of_storeFrame f⟩

/-- The state of an answer that is known keeps what the answer's state does. -/
theorem KeepsCanonical.of_eq {α : Type} {s t : State} {x : State × α} {a : α} (h : KeepsCanonical s x.1) (he : x = (t, a)) :
    KeepsCanonical s t := by
  rw [he] at h
  exact h

theorem canonical_foldl {α : Type} {f : State → α → State} (hf : ∀ s a, KeepsCanonical s (f s a)) (l : List α) (s : State) :
    KeepsCanonical s (l.foldl f s) := by
  induction l generalizing s with
  | nil => exact canonical_refl s
  | cons a l ih => exact (hf s a).trans (ih (f s a))

theorem canonical_ite {c : Prop} [Decidable c] {s t u : State} (ht : KeepsCanonical s t) (hu : KeepsCanonical s u) :
    KeepsCanonical s (if c then t else u) := by
  split <;> assumption

/-! ### Writes -/

theorem setBytes_canonical (s : State) (loc : Nat) (bs : List Byte) : KeepsCanonical s (setBytes s loc bs) := ⟨setBytes_inv⟩

theorem setLoc_canonical (s : State) (loc n x : Nat) : KeepsCanonical s (setLoc s loc n x) := ⟨setBytes_inv⟩

theorem setDesc_canonical (s : State) (b : Nat) (d : BitVec 16) : KeepsCanonical s (setDesc s b d) := ⟨setDesc_inv⟩

theorem tickChoice_canonical (s : State) : KeepsCanonical s s.tickChoice := canonical_of_view rfl

theorem setTileBits_canonical (s : State) (t : Nat) (u p : Bool) : KeepsCanonical s (setTileBits s t u p) :=
  canonical_of_store (setTileBits_frame ..)

theorem setTileBolt_canonical (s : State) (t : Nat) (b : Bolt) : KeepsCanonical s (setTileBolt s t b) :=
  canonical_of_store (setTileBolt_frame ..)

theorem poke_canonical (s : State) (loc : Nat) (bs : List Byte) : KeepsCanonical s (poke s loc bs) := canonical_of_store (poke_frame ..)

theorem store_canonical (s : State) (loc : Nat) (bs : List Byte) : KeepsCanonical s (store s loc bs) := ⟨store_inv⟩

theorem storeRuns_canonical (s : State) (runs : List (Nat × Nat)) (bs : List Byte) : KeepsCanonical s (storeRuns s runs bs) :=
  ⟨storeRuns_inv⟩

theorem slotDescs_canonical (s : State) (t loc n : Nat) (d : Nat → BitVec 16) : KeepsCanonical s (slotDescs s t loc n d) := by
  unfold slotDescs
  split
  · exact canonical_foldl (fun u i => setDesc_canonical ..) _ _
  · exact canonical_refl s

theorem tilePut_canonical (s : State) (t loc : Nat) (bs : List Byte) : KeepsCanonical s (tilePut s t loc bs) := by
  unfold tilePut
  split
  · exact poke_canonical ..
  · exact setBytes_canonical ..

theorem putElem_canonical (s : State) (t : Nat) (d : TileData) (k : Option Nat) : KeepsCanonical s (putElem s t d k) := by
  unfold putElem
  split
  · exact tilePut_canonical ..
  · exact canonical_refl s

theorem applyFix_canonical (s : State) (t : Nat) (r : Fix × TileData × Bolt × Option Nat) : KeepsCanonical s (applyFix s t r) := by
  unfold applyFix
  split
  · exact setTileBolt_canonical ..
  · refine ((setTileBolt_canonical ..).trans (putElem_canonical ..)).trans (canonical_of_view rfl)
  · exact (putElem_canonical ..).trans (setTileBits_canonical ..)

theorem setCtx_canonical (s : State) (c : Fin 8) (x : Ctx) : KeepsCanonical s (s.setCtx c x) := canonical_of_view rfl

theorem setGram_canonical (s : State) (c : Fin 8) (y : Fin 4) (g : Option GBinding) : KeepsCanonical s (setGram s c y g) :=
  setCtx_canonical ..

theorem setReef_canonical (s : State) (c : Fin 8) (q : Fin 4) (m : ReefMap) : KeepsCanonical s (setReef s c q m) := setCtx_canonical ..

theorem setBank_canonical (s : State) (b : Bank) : KeepsCanonical s (setBank s b) := canonical_of_view rfl

theorem setJob_canonical (s : State) (j : Job) : KeepsCanonical s (setJob s j) := canonical_of_view rfl

theorem setResume_canonical (s : State) (id : Nat) (r : List Nat) : KeepsCanonical s (setResume s id r) := canonical_of_view rfl

/-! ### Accesses of the engines (R274, R275, R280) -/

theorem engWritePart_canonical (s : State) (ok : Reach) (a : Nat) (bs : List Byte) : KeepsCanonical s (engWritePart s ok a bs).1 :=
  storeRuns_canonical ..

theorem engWrite_canonical (s : State) (ok : Reach) (a : Nat) (bs : List Byte) : KeepsCanonical s (engWrite s ok a bs).1 :=
  engWritePart_canonical ..

theorem engDescs_canonical (s : State) (ok : Reach) (a n : Nat) (d : Nat → Option (BitVec 16)) : KeepsCanonical s (engDescs s ok a n d) := by
  unfold engDescs
  dsimp only
  split
  · exact canonical_refl s
  · refine canonical_foldl (fun u i => ?_) _ _
    split
    · split
      · exact setDesc_canonical ..
      · exact canonical_refl u
    · exact canonical_refl u

theorem anyRead_canonical (s : State) (a n : Nat) : KeepsCanonical s (anyRead s a n).1 := by
  unfold anyRead
  split
  · exact canonical_refl s
  · exact canonical_refl s
  · exact tickChoice_canonical s

theorem anyWrite_canonical (s : State) (a : Nat) (bs : List Byte) : KeepsCanonical s (anyWrite s a bs).1 := by
  unfold anyWrite
  split
  · exact canonical_refl s
  · exact engWritePart_canonical ..
  · exact tickChoice_canonical s

theorem anyDescs_canonical (s : State) (a n : Nat) (d : Nat → Option (BitVec 16)) : KeepsCanonical s (anyDescs s a n d) := by
  unfold anyDescs
  split
  · exact engDescs_canonical ..
  · exact canonical_refl s

theorem mixRun_canonical (s : State) (src n a : Nat) (bs : List Byte) : KeepsCanonical s (mixRun s src n a bs).1 := by
  unfold mixRun
  dsimp only
  split
  · exact tickChoice_canonical s
  · exact canonical_refl s

/-! ### Copies (R276, R277) -/

theorem copyRows_canonical (r : CpyRec) (n i : Nat) (s : State) : KeepsCanonical s (copyRows r n i s).1 := by
  induction n generalizing i s with
  | zero => exact canonical_refl s
  | succ n ih =>
    have hread := anyRead_canonical s (r.src + i * r.sstep) r.rb
    rw [copyRows]
    dsimp only
    split
    next he => exact hread.trans ((anyWrite_canonical ..).of_eq he)
    next he =>
      have hwrite := hread.trans ((anyWrite_canonical ..).of_eq he)
      split
      · exact hwrite
      · exact hwrite.trans (ih ..)

theorem copyDescs_canonical (old : State) (r : CpyRec) (start done : Nat) (s : State) : KeepsCanonical s (copyDescs old r start done s) := by
  refine canonical_foldl (fun u o => ?_) _ _
  split
  · exact anyDescs_canonical ..
  · exact canonical_refl u

theorem copyPlain_canonical (r : CpyRec) (done n : Nat) (s : State) : KeepsCanonical s (copyPlain r done n s).1 :=
  (copyRows_canonical ..).trans (copyDescs_canonical ..)

theorem copyTiles_canonical (r : CpyRec) (w n i : Nat) (s : State) : KeepsCanonical s (copyTiles r w n i s).1 := by
  induction n generalizing i s with
  | zero => exact canonical_refl s
  | succ n ih =>
    have hread := anyRead_canonical s (r.src + i * (32 * w)) (32 * w)
    rw [copyTiles]
    dsimp only
    split
    · exact hread
    · split
      next he => exact hread.trans ((anyWrite_canonical ..).of_eq he)
      next he => exact (hread.trans ((anyWrite_canonical ..).of_eq he)).trans (ih ..)

theorem srcBolt_canonical {s t : State} {a n m : Nat} {b : Bolt} (h : srcBolt s a n = .ok (t, b, m)) : KeepsCanonical s t := by
  unfold srcBolt at h
  split at h
  · split at h
    · obtain ⟨rfl, -⟩ := Prod.mk.inj (Except.ok.inj h)
      exact ((setTileBolt_canonical ..).trans (setTileBits_canonical ..)).trans (canonical_of_view rfl)
    · split at h
      · cases h
      · obtain ⟨rfl, -⟩ := Prod.mk.inj (Except.ok.inj h)
        exact canonical_refl _
  · split at h
    · obtain ⟨rfl, -⟩ := Prod.mk.inj (Except.ok.inj h)
      exact tickChoice_canonical s
    · split at h
      · cases h
      next he =>
        obtain ⟨rfl, -⟩ := Prod.mk.inj (Except.ok.inj h)
        exact (anyRead_canonical ..).of_eq he

/-- A tile slot after the check of what was copied into it. -/
theorem fixed_canonical (s : State) (t : Nat) (r : Fix × TileData × Bolt × Option Nat) (p : Prop) [Decidable p] :
    KeepsCanonical s (if p then applyFix s t r else setTileBits (applyFix s t r) t false false) := by
  split
  · exact applyFix_canonical ..
  · exact (applyFix_canonical ..).trans (setTileBits_canonical ..)

theorem boltTile_canonical {x : CpyArgs} {j : Job} {r : CpyRec} {fmt a d : Nat} {s t : State} {f : Fix} {m n : Nat}
    (h : boltTile x j r fmt a d s = .ok (t, f, m, n)) : KeepsCanonical s t := by
  unfold boltTile at h
  dsimp only at h
  split at h
  · cases h
  next u bs he =>
    have hread := (anyRead_canonical ..).of_eq he
    split at h
    · cases h
    next v b sn hsrc =>
      have hmix (l : List Byte) := (hread.trans (srcBolt_canonical hsrc)).trans (mixRun_canonical v r.src (boltSource s r fmt) d l)
      generalize hm : mixRun v r.src _ d _ = mixed at h
      replace hmix : KeepsCanonical s mixed.1 := hm ▸ hmix _
      split at h
      · split at h
        · cases h
        · obtain ⟨rfl, -⟩ := Prod.mk.inj (Except.ok.inj h)
          exact hmix.trans (((poke_canonical ..).trans (slotDescs_canonical ..)).trans (fixed_canonical ..))
      · split at h
        · cases h
        · split at h
          · cases h
          next he =>
            have hw (k : Nat → Option (BitVec 16)) := (hmix.trans ((anyWrite_canonical ..).of_eq he)).trans
              (anyDescs_canonical _ d (tileBytes fmt) k)
            split at h
            case' isTrue => obtain ⟨rfl, -⟩ := Prod.mk.inj (Except.ok.inj h)
            case' isFalse =>
              split at h
              case' h_1 => cases h
              case' h_2 he =>
                obtain ⟨rfl, -⟩ := Prod.mk.inj (Except.ok.inj h)
                refine KeepsCanonical.trans (KeepsCanonical.of_eq ?_ he) (anyDescs_canonical ..)
                refine KeepsCanonical.trans (KeepsCanonical.trans ?_ (mixRun_canonical ..)) (anyWrite_canonical ..)
            all_goals
              generalize checkFix _ _ _ _ = c
              split
              · split
                · exact (hw _).trans ((anyWrite_canonical ..).trans (canonical_of_view rfl))
                · exact (hw _).trans (anyWrite_canonical ..)
              · exact hw _

theorem boltTiles_canonical (x : CpyArgs) (j : Job) (r : CpyRec) (fmt n a d : Nat) (s : State) :
    KeepsCanonical s (boltTiles x j r fmt n a d s).1 := by
  induction n generalizing a d s with
  | zero => exact canonical_refl s
  | succ n ih =>
    rw [boltTiles]
    split
    · exact canonical_refl s
    next h => exact (boltTile_canonical h).trans (ih ..)

theorem copyBolt_canonical (x : CpyArgs) (j : Job) (r : CpyRec) (n : Nat) (s : State) : KeepsCanonical s (copyBolt x j r n s).1 := by
  unfold copyBolt
  split
  · split <;> exact canonical_refl s
  · split
    · exact canonical_refl s
    · exact boltTiles_canonical ..

theorem copyBoltPacked_canonical (r : CpyRec) (s : State) : KeepsCanonical s (copyBoltPacked r s).1 :=
  (tickChoice_canonical s).trans (anyWrite_canonical ..)

theorem copyPack_canonical (tr : Transpose) (r : CpyRec) (s : State) : KeepsCanonical s (copyPack tr r s).1 := by
  unfold copyPack
  dsimp only
  split
  next he => exact (anyRead_canonical ..).of_eq he
  next he =>
    have hread := (anyRead_canonical ..).of_eq he
    split
    · exact hread
    · split
      · exact hread
      · exact ((hread.trans (mixRun_canonical ..)).trans (anyWrite_canonical ..)).trans (anyDescs_canonical ..)

theorem copyUnpack_canonical (tr : Transpose) (r : CpyRec) (s : State) : KeepsCanonical s (copyUnpack tr r s).1 := by
  unfold copyUnpack
  dsimp only
  split
  next he => exact (anyRead_canonical ..).of_eq he
  next he =>
    have hhead := (anyRead_canonical ..).of_eq he
    split
    · exact hhead
    · split
      next he => exact hhead.trans ((anyRead_canonical ..).of_eq he)
      next he =>
        have hnodes := hhead.trans ((anyRead_canonical ..).of_eq he)
        split
        · exact hnodes
        · split
          · exact hnodes
          · split
            next he => exact hnodes.trans ((anyRead_canonical ..).of_eq he)
            next he =>
              exact (((hnodes.trans ((anyRead_canonical ..).of_eq he)).trans (mixRun_canonical ..)).trans (anyWrite_canonical ..)).trans
                (anyDescs_canonical ..)

/-- A copy begins where its free bytes have been drawn, if it has any. -/
theorem drawn_canonical (s : State) (b : Bool) : KeepsCanonical s (if b then s.tickChoice else s) := by
  cases b
  · exact canonical_refl s
  · exact tickChoice_canonical s

theorem runCpy_canonical (x : CpyArgs) (j : Job) (n : Nat) (s : State) : KeepsCanonical s (runCpy x j n s).1 := by
  unfold runCpy
  split
  · exact canonical_refl s
  next rec _ =>
    dsimp only
    split
    · exact canonical_refl s
    · refine (drawn_canonical s (nearSource s (cpyRec rec))).trans ?_
      generalize (if nearSource s (cpyRec rec) = true then s.tickChoice else s) = u
      split
      · split
        · exact copyBolt_canonical ..
        · split
          · exact copyPlain_canonical ..
          · exact copyTiles_canonical ..
      · split
        · exact canonical_refl u
        · split
          · exact copyBoltPacked_canonical ..
          · split
            · exact copyPack_canonical ..
            · exact copyUnpack_canonical ..

/-! ### Lists and queues (R281, R282, R287) -/

theorem moveElem_canonical {elem a d : Nat} {s t : State} (h : moveElem elem a d s = .ok t) : KeepsCanonical s t := by
  unfold moveElem at h
  split at h
  · cases h
  next hr =>
    have hread := (anyRead_canonical ..).of_eq hr
    split at h
    · cases h
    next hw =>
      have hwrite := hread.trans ((anyWrite_canonical ..).of_eq hw)
      obtain rfl := Except.ok.inj h
      split
      · exact hwrite.trans (anyDescs_canonical ..)
      · exact hwrite

theorem moveElems_canonical (scatter : Bool) (r : ListRec) (n k : Nat) (s : State) : KeepsCanonical s (moveElems scatter r n k s).1 := by
  induction n generalizing k s with
  | zero => exact canonical_refl s
  | succ n ih =>
    rw [moveElems]
    split
    next hr => exact (anyRead_canonical ..).of_eq hr
    next hr =>
      have hread := (anyRead_canonical ..).of_eq hr
      dsimp only
      split
      · exact hread
      · split
        · exact hread
        next hm =>
          refine (hread.trans ?_).trans (ih ..)
          split at hm
          · exact moveElem_canonical hm
          · exact moveElem_canonical hm

theorem runList_canonical (scatter : Bool) (j : Job) (n : Nat) (s : State) : KeepsCanonical s (runList scatter j n s).1 := by
  unfold runList
  split
  · exact canonical_refl s
  · split
    · exact canonical_refl s
    · exact moveElems_canonical ..

theorem runCqput_canonical (j : Job) (s : State) : KeepsCanonical s (runCqput j s).1 := by
  unfold runCqput
  split
  · exact canonical_refl s
  · split
    · exact canonical_refl s
    · split <;> exact tickChoice_canonical s
    · split
      · exact canonical_refl s
      · dsimp only
        split
        · exact canonical_refl s
        · split
          · exact canonical_refl s
          · split
            next he => exact (engWrite_canonical ..).of_eq he
            next he =>
              have hclaim := (engWrite_canonical ..).of_eq he
              split
              next he => exact hclaim.trans ((engWrite_canonical ..).of_eq he)
              next he => exact hclaim.trans ((engWrite_canonical ..).of_eq he)

end Sys2Proof.Proofs
end

