-- ==== Sys2Proof/Proofs/UnitMemory.lean ====
section
/-! PROOFS. What the grammar sequencer, the reef unit and the neuron bank write keeps memory in its canonical form (log 1). -/

namespace Sys2Proof.Proofs

open Sys2Proof.Machine Sys2Proof.Laws

/-! ### The grammar sequencer (R259 to R266) -/

/-- What a grammar job comes to with the binding it works with, if it has one. -/
theorem bound_canonical {y : Fin 4} {j : Job} {s : State} {k : GBinding → Ended} (h : ∀ g, KeepsCanonical s (k g).1) :
    KeepsCanonical s (bound y j s k).1 := by
  unfold bound
  split
  · exact canonical_refl s
  · exact h _

theorem runGbind_canonical (x : GbindArgs) (j : Job) (s : State) : KeepsCanonical s (runGbind x j s).1 := by
  unfold runGbind
  have hgram := setGram_canonical s j.ctx x.y none
  generalize setGram s j.ctx x.y none = u at hgram ⊢
  dsimp only
  split
  · exact hgram
  · split
    · exact hgram
    · split
      · exact hgram
      · split
        · exact hgram
        · split
          · exact hgram
          · exact hgram.trans (setGram_canonical ..)

theorem evalRules_canonical (g : GBinding) (first n i lim skip : Nat) (s : State) :
    KeepsCanonical s (evalRules g first n i lim skip s).1 := by
  induction n generalizing i lim skip s with
  | zero => exact canonical_refl s
  | succ n ih =>
    rw [evalRules]
    dsimp only
    split
    · exact canonical_refl s
    · split
      · exact ih ..
      · split
        · exact ih ..
        · split
          · exact canonical_refl s
          · split
            · exact canonical_refl s
            · split
              · exact canonical_refl s
              · exact canonical_refl s
              · split
                next he => exact (engWrite_canonical ..).of_eq he
                next he => exact ((engWrite_canonical ..).of_eq he).trans (ih ..)

theorem lenRules_canonical (g : GBinding) (first n i lim : Nat) (s : State) : KeepsCanonical s (lenRules g first n i lim s).1 := by
  induction n generalizing i lim s with
  | zero => exact canonical_refl s
  | succ n ih =>
    rw [lenRules]
    dsimp only
    split
    · exact canonical_refl s
    · split
      · exact canonical_refl s
      · split
        · exact canonical_refl s
        · exact canonical_refl s
        · split
          · exact canonical_refl s
          · split
            next he => exact (engWrite_canonical ..).of_eq he
            next he => exact ((engWrite_canonical ..).of_eq he).trans (ih ..)

theorem runGeval_canonical (y : Fin 4) (j : Job) (lim : Nat) (s : State) : KeepsCanonical s (runGeval y j lim s).1 :=
  bound_canonical fun g => by
    split
    · exact canonical_refl s
    · exact evalRules_canonical ..

theorem runGlen_canonical (y : Fin 4) (j : Job) (lim : Nat) (s : State) : KeepsCanonical s (runGlen y j lim s).1 :=
  bound_canonical fun g => by
    split
    · exact canonical_refl s
    · exact lenRules_canonical ..

theorem reduceRows_canonical (g : GBinding) (id first dest n r k acc lim : Nat) (s : State) :
    KeepsCanonical s (reduceRows g id first dest n r k acc lim s).1 := by
  induction n generalizing r k acc lim s with
  | zero => exact canonical_refl s
  | succ n ih =>
    rw [reduceRows]
    dsimp only
    split
    · exact canonical_refl s
    · exact canonical_refl s
    · split
      · exact canonical_refl s
      · split
        · exact setResume_canonical ..
        · split
          next he => exact (engWrite_canonical ..).of_eq he
          next he => exact ((engWrite_canonical ..).of_eq he).trans (ih ..)

theorem runGspine_canonical (seed : Bool) (y : Fin 4) (j : Job) (lim : Nat) (s : State) :
    KeepsCanonical s (runGspine seed y j lim s).1 := by
  unfold runGspine
  split
  · exact bound_canonical fun g => canonical_refl s
  · refine bound_canonical fun g => ?_
    dsimp only
    split
    · exact canonical_refl s
    · split
      · exact reduceRows_canonical ..
      · split
        · exact setResume_canonical ..
        · split
          next he => exact (engWrite_canonical ..).of_eq he
          next he => exact (engWrite_canonical ..).of_eq he

theorem occSpine_canonical (g : GBinding) (id first n k dest bias pos lim : Nat) (s : State) :
    KeepsCanonical s (occSpine g id first n k dest bias pos lim s).1 := by
  induction n generalizing k dest bias pos lim s with
  | zero => exact canonical_refl s
  | succ n ih =>
    rw [occSpine]
    dsimp only
    split
    · exact setResume_canonical ..
    · split
      · exact canonical_refl s
      · split
        · exact canonical_refl s
        · split
          next he => exact (engWrite_canonical ..).of_eq he
          next he =>
            have hwrite := (engWrite_canonical ..).of_eq he
            split
            · exact hwrite
            · exact hwrite.trans (ih ..)

theorem writeRecords_canonical (l : List (List Byte)) (dest : Nat) (s : State) : KeepsCanonical s (writeRecords l dest s).1 := by
  induction l generalizing dest s with
  | nil => exact canonical_refl s
  | cons b l ih =>
    rw [writeRecords]
    split
    next he => exact (engWrite_canonical ..).of_eq he
    next he => exact ((engWrite_canonical ..).of_eq he).trans (ih ..)

theorem occSplit_canonical (g : GBinding) (id first n at_ src dest lim : Nat) (s : State) :
    KeepsCanonical s (occSplit g id first n at_ src dest lim s).1 := by
  induction n generalizing at_ src dest lim s with
  | zero => exact canonical_refl s
  | succ n ih =>
    rw [occSplit]
    dsimp only
    split
    · exact setResume_canonical ..
    · split
      · exact canonical_refl s
      · split
        · exact canonical_refl s
        · split
          next he => exact (writeRecords_canonical ..).of_eq he
          next he => exact ((writeRecords_canonical ..).of_eq he).trans (ih ..)

theorem runGocc_canonical (split_ : Bool) (y : Fin 4) (j : Job) (lim : Nat) (s : State) :
    KeepsCanonical s (runGocc split_ y j lim s).1 := by
  unfold runGocc
  split
  · exact bound_canonical fun g => canonical_refl s
  · refine bound_canonical fun g => ?_
    dsimp only
    split
    · exact canonical_refl s
    · split
      · split
        · exact canonical_refl s
        · exact occSplit_canonical ..
      · split
        · exact canonical_refl s
        · exact occSpine_canonical ..

theorem unfold_canonical (g : GBinding) (id : Nat) (scan : Bool) (sym n pos dest acc lim : Nat) (s : State) :
    KeepsCanonical s (unfold_ g id scan sym n pos dest acc lim s).1 := by
  induction n generalizing pos dest acc lim s with
  | zero => exact canonical_refl s
  | succ n ih =>
    rw [unfold_]
    dsimp only
    split
    · exact setResume_canonical ..
    · split
      · exact canonical_refl s
      · split
        · exact canonical_refl s
        · split
          next he => exact (engWrite_canonical ..).of_eq he
          next he => exact ((engWrite_canonical ..).of_eq he).trans (ih ..)

theorem runGunf_canonical (scan : Bool) (y : Fin 4) (j : Job) (lim : Nat) (s : State) : KeepsCanonical s (runGunf scan y j lim s).1 := by
  unfold runGunf
  split
  · exact bound_canonical fun g => canonical_refl s
  · refine bound_canonical fun g => ?_
    dsimp only
    split
    · exact canonical_refl s
    · split
      · exact canonical_refl s
      · split
        · exact canonical_refl s
        · generalize (if scan = true then g.width / 8 else fmtBits g.tfmt / 8) = w
          split
          · exact canonical_refl s
          · split
            · exact canonical_refl s
            · cases j.resume with
              | cons acc _ => exact unfold_canonical ..
              | nil =>
                dsimp only
                split
                · exact canonical_refl s
                · exact unfold_canonical ..

theorem runGloc_canonical (y : Fin 4) (j : Job) (s : State) : KeepsCanonical s (runGloc y j s).1 := by
  unfold runGloc
  split
  · exact bound_canonical fun g => canonical_refl s
  · refine bound_canonical fun g => ?_
    dsimp only
    split
    · exact canonical_refl s
    · split
      · exact canonical_refl s
      · exact canonical_refl s
      · split
        · exact canonical_refl s
        · split
          next he => exact (engWrite_canonical ..).of_eq he
          next he => exact (engWrite_canonical ..).of_eq he

theorem runGlook_canonical (y : Fin 4) (j : Job) (s : State) : KeepsCanonical s (runGlook y j s).1 :=
  bound_canonical fun g => by
    dsimp only
    split
    · exact canonical_refl s
    · split
      · exact canonical_refl s
      · split
        next he => exact (engWrite_canonical ..).of_eq he
        next he => exact (engWrite_canonical ..).of_eq he

theorem runGrelease_canonical (y : Fin 4) (j : Job) (s : State) : KeepsCanonical s (runGrelease y j s).1 :=
  bound_canonical fun _ => setGram_canonical ..

/-! ### The reef unit (R292 to R296) -/

theorem runRfmatch_canonical (q : Fin 4) (j : Job) (n : Nat) (s : State) : KeepsCanonical s (runRfmatch q j n s).1 := by
  unfold runRfmatch
  split
  · exact canonical_refl s
  · split
    · exact canonical_refl s
    · split
      · exact canonical_refl s
      · exact canonical_refl s
      · split
        · exact canonical_refl s
        · exact canonical_refl s
        next r _ _ _ _ kb sb _ _ =>
          dsimp only
          generalize (if r.sized = true then unpackBytes 16 r.n sb else List.replicate r.n 1) = sizes
          split
          · exact canonical_refl s
          · split
            next he => exact (engWrite_canonical ..).of_eq he
            next he => exact ((engWrite_canonical ..).of_eq he).trans (setReef_canonical ..)

theorem reefOut_canonical (r : MergeRec) (pick : Nat → List (Nat × Nat)) (n d : Nat) (s : State) :
    KeepsCanonical s (reefOut r pick n d s).1 := by
  induction n generalizing d s with
  | zero => exact canonical_refl s
  | succ n ih =>
    rw [reefOut]
    dsimp only
    split
    · exact canonical_refl s
    · split
      next he => exact (engWrite_canonical ..).of_eq he
      next he => exact ((engWrite_canonical ..).of_eq he).trans (ih ..)

theorem runRfmerge_canonical (q : Fin 4) (j : Job) (n : Nat) (s : State) : KeepsCanonical s (runRfmerge q j n s).1 := by
  unfold runRfmerge
  split
  · exact canonical_refl s
  · split
    · exact canonical_refl s
    · split
      · exact canonical_refl s
      · split
        next he => exact (reefOut_canonical ..).of_eq he
        next he =>
          have hrows := (reefOut_canonical ..).of_eq he
          split
          · split
            next he => exact hrows.trans ((engWrite_canonical ..).of_eq he)
            next he => exact hrows.trans ((engWrite_canonical ..).of_eq he)
          · exact hrows

theorem runRfshake_canonical (q : Fin 4) (j : Job) (n : Nat) (s : State) : KeepsCanonical s (runRfshake q j n s).1 := by
  unfold runRfshake
  split
  · exact canonical_refl s
  · split
    · exact canonical_refl s
    · split
      · exact canonical_refl s
      · exact reefOut_canonical ..

theorem runRflogs_canonical (q : Fin 4) (j : Job) (n : Nat) (s : State) : KeepsCanonical s (runRflogs q j n s).1 := by
  unfold runRflogs
  split
  · exact canonical_refl s
  · exact engWritePart_canonical ..

theorem runRffree_canonical (q : Fin 4) (j : Job) (n : Nat) (s : State) : KeepsCanonical s (runRffree q j n s).1 := by
  unfold runRffree
  split
  · exact canonical_refl s
  · split
    · exact canonical_refl s
    · exact setReef_canonical ..

/-! ### The neuron bank (R298 to R303) -/

theorem placeEvent_canonical {s t : State} {e : NbEvent} (h : placeEvent s e = .accepted t) : KeepsCanonical s t := by
  unfold placeEvent at h
  split at h
  · cases h
  · split at h
    · obtain rfl := Placed.accepted.inj h
      exact setBank_canonical ..
    · dsimp only at h
      split at h
      · cases h
      next he =>
        obtain rfl := Placed.accepted.inj h
        exact (((engWrite_canonical ..).of_eq he).trans (setBank_canonical ..)).trans (tickChoice_canonical _)

theorem takeHeld_canonical (n : Nat) (s : State) : KeepsCanonical s (takeHeld n s) := by
  induction n generalizing s with
  | zero => exact canonical_refl s
  | succ n ih =>
    rw [takeHeld]
    split
    · exact canonical_refl s
    · split
      next he => exact ((placeEvent_canonical he).trans (setBank_canonical ..)).trans (ih _)
      · exact canonical_refl s
      · exact canonical_refl s

theorem settleBank_canonical (s : State) : KeepsCanonical s (settleBank s) :=
  (setBank_canonical ..).trans (takeHeld_canonical ..)

theorem runNbcfg_canonical (j : Job) (n : Nat) (s : State) : KeepsCanonical s (runNbcfg j n s).1 := by
  unfold runNbcfg
  split
  · exact canonical_refl s
  · split
    · exact canonical_refl s
    · split
      · exact canonical_refl s
      · exact (setBank_canonical ..).trans (settleBank_canonical _)

theorem sendEvent_canonical {s t : State} {e : NbEvent} (h : sendEvent s e = .accepted t) : KeepsCanonical s t := by
  unfold sendEvent at h
  split at h
  · split at h
    next he =>
      obtain rfl := Sent.accepted.inj h
      exact placeEvent_canonical he
    · cases h
    · cases h
  · split at h
    · obtain rfl := Sent.accepted.inj h
      exact canonical_of_view rfl
    · cases h

theorem postEvents_canonical {j : Job} {n k : Nat} {s : State} {t : State × Nat × Option StatusCode}
    (h : postEvents j n k s = some t) : KeepsCanonical s t.1 := by
  induction n generalizing k s t with
  | zero =>
    obtain rfl := Option.some.inj h
    exact canonical_refl s
  | succ n ih =>
    rw [postEvents] at h
    dsimp only at h
    split at h
    · obtain rfl := Option.some.inj h
      exact canonical_refl s
    · split at h
      · obtain rfl := Option.some.inj h
        exact canonical_refl s
      · cases h
      · obtain rfl := Option.some.inj h
        exact canonical_refl s
      next hsent =>
        split at h
        · cases h
        next hpost =>
          have hrest := ih hpost
          obtain rfl := Option.some.inj h
          exact ((sendEvent_canonical hsent).trans (setBank_canonical ..)).trans hrest

theorem runNbpost_canonical {j : Job} {n : Nat} {s : State} {e : Ended} (h : runNbpost j n s = some e) : KeepsCanonical s e.1 := by
  unfold runNbpost at h
  split at h
  · obtain rfl := Option.some.inj h
    exact canonical_refl s
  · split at h
    · cases h
    next hpost =>
      obtain rfl := Option.some.inj h
      exact postEvents_canonical hpost

theorem touchNeuron_canonical (s : State) (t n : Nat) : KeepsCanonical s (touchNeuron s t n) :=
  (setLoc_canonical ..).trans (setLoc_canonical ..)

/-- A neuron is touched once in a step. -/
theorem touched_canonical (s : State) (t n : Nat) (b : Bank) (p : Bool) :
    KeepsCanonical s (if p then s else setBank (touchNeuron s t n) b) := by
  cases p
  · exact (touchNeuron_canonical ..).trans (setBank_canonical ..)
  · exact canonical_refl s

/-- A late event is counted. -/
theorem counted_canonical (s : State) (b : Bank) (p : Bool) : KeepsCanonical s (if p then setBank s b else s) := by
  cases p
  · exact canonical_refl s
  · exact setBank_canonical ..

theorem applyEvents_canonical (t : Nat) (l : List (Bool × Stored)) (lim : Nat) (a : Advance) :
    KeepsCanonical a.s (applyEvents t l lim a).1.s := by
  induction l generalizing lim a with
  | nil => exact canonical_refl a.s
  | cons e l ih =>
    rw [applyEvents]
    split
    · exact canonical_refl a.s
    · dsimp only
      split
      · exact canonical_refl a.s
      · exact (((touched_canonical ..).trans (setLoc_canonical ..)).trans (counted_canonical ..)).trans
          (ih (lim - 1) { a with s := _, applied := _, late := _ })

theorem appendRecord_canonical (a : Advance) (t n pp : Nat) : KeepsCanonical a.s (appendRecord a t n pp).s := by
  unfold appendRecord
  dsimp only
  split
  · exact canonical_refl a.s
  · split
    next he => exact (engWrite_canonical ..).of_eq he
    next he => exact ((engWrite_canonical ..).of_eq he).trans (setBank_canonical ..)

/-- By the recursion itself, with any number in the place of 2^20: of an equation of `sendFanout` the kernel would work out its numbers.
`id` keeps the statement about any number apart from its use. -/
theorem sendFanout_canonical (t n list m k : Nat) (a : Advance) : KeepsCanonical a.s (sendFanout t n list m k a).s := by
  delta sendFanout
  refine brecOn_induction (C := fun _ => Nat → Advance → Advance) (P := fun _ f => ∀ k a, KeepsCanonical a.s (f k a).s)
    ?_ ?_ m k a
  · exact fun _ _ a => canonical_refl a.s
  · intro m b ih k a
    delta sendFanout._f
    generalize (2 ^ 20 : Nat) = d
    revert d
    refine id fun d => ?_
    dsimp only
    split
    · exact canonical_refl a.s
    · split
      next u he => exact (sendEvent_canonical he).trans (ih (k + 1) { a with s := u })
      · exact ih (k + 1) { a with outside := true }
      · exact canonical_refl a.s
      · exact canonical_refl a.s

theorem testNeuron_canonical (t n : Nat) (a : Advance) : KeepsCanonical a.s (testNeuron t n a).s := by
  unfold testNeuron
  dsimp only
  have hbank := setBank_canonical a.s { a.s.clu.bank with touched := setErase a.s.clu.bank.touched n }
  generalize setBank a.s { a.s.clu.bank with touched := setErase a.s.clu.bank.touched n } = u at hbank ⊢
  split
  · have hrec := fun pp x y => (hbank.trans ((setLoc_canonical u (neuronAt n) 4 x).trans (setLoc_canonical _ (neuronAt n + 8) 4 y))).trans
      (appendRecord_canonical { a with s := setLoc (setLoc u (neuronAt n) 4 x) (neuronAt n + 8) 4 y } t n pp)
    split
    · exact hrec ..
    · split
      · exact hrec ..
      · split
        · exact hrec ..
        · exact (hrec ..).trans (sendFanout_canonical ..)
  · exact hbank

theorem testAll_canonical (t : Nat) (l : List Nat) (a : Advance) : KeepsCanonical a.s (testAll t l a).s := by
  induction l generalizing a with
  | nil => exact canonical_refl a.s
  | cons n l ih =>
    rw [testAll]
    split
    · exact canonical_refl a.s
    · exact (testNeuron_canonical ..).trans (ih _)

theorem processStep_canonical (t lim : Nat) (a : Advance) : KeepsCanonical a.s (processStep t lim a).s := by
  unfold processStep
  dsimp only
  have hrun (b : Bank) (l : List (Bool × Stored)) : KeepsCanonical a.s (applyEvents t l lim { a with s := setBank a.s b }).1.s :=
    (setBank_canonical a.s b).trans (applyEvents_canonical t l lim { a with s := setBank a.s b })
  generalize hr : applyEvents t _ lim _ = r
  replace hrun : KeepsCanonical a.s r.1.s := hr ▸ hrun _ _
  split
  · exact hrun.trans (setBank_canonical ..)
  · have htest := hrun.trans (testAll_canonical t r.1.s.clu.bank.touched r.1)
    split
    · exact htest
    · exact (htest.trans (setBank_canonical ..)).trans (settleBank_canonical _)

theorem advanceTo_canonical (target n lim : Nat) (a : Advance) : KeepsCanonical a.s (advanceTo target n lim a).s := by
  induction n generalizing lim a with
  | zero => exact canonical_refl a.s
  | succ n ih =>
    rw [advanceTo]
    dsimp only
    split
    · exact canonical_refl a.s
    · split
      · exact setBank_canonical ..
      · split
        · exact processStep_canonical ..
        · exact (processStep_canonical ..).trans (ih ..)

theorem runNbadv_canonical {j : Job} {lim : Nat} {s : State} {e : Ended} (h : runNbadv j lim s = some e) : KeepsCanonical s e.1 := by
  unfold runNbadv at h
  dsimp only at h
  split at h
  · obtain rfl := Option.some.inj h
    exact canonical_refl s
  · have hrun := advanceTo_canonical j.a.toNat (j.a.toNat - s.clu.bank.c + 1) lim
      { s := s, applied := 0, late := false, outside := false, full := false, stop := none, held := false }
    generalize advanceTo _ _ _ _ = a at h hrun
    split at h
    · cases h
    · obtain rfl := Option.some.inj h
      exact hrun.trans (drawn_canonical a.s (a.outside && a.full))

theorem runNbrd_canonical (j : Job) (lim : Nat) (s : State) : KeepsCanonical s (runNbrd j lim s).1 := by
  unfold runNbrd
  split
  · exact canonical_refl s
  · exact engWritePart_canonical ..

theorem runNbwr_canonical (j : Job) (lim : Nat) (s : State) : KeepsCanonical s (runNbwr j lim s).1 := by
  unfold runNbwr
  split
  · exact canonical_refl s
  · dsimp only
    split
    · exact canonical_refl s
    · split
      · exact canonical_refl s
      · exact setBytes_canonical ..

theorem takeRecords_canonical (n a : Nat) (s : State) : KeepsCanonical s (takeRecords n a s).1 := by
  induction n generalizing a s with
  | zero => exact canonical_refl s
  | succ n ih =>
    rw [takeRecords]
    dsimp only
    split
    · exact canonical_refl s
    · split
      next he => exact (engWrite_canonical ..).of_eq he
      next he => exact (((engWrite_canonical ..).of_eq he).trans (setBank_canonical ..)).trans (ih ..)

theorem runNbspk_canonical (j : Job) (lim : Nat) (s : State) : KeepsCanonical s (runNbspk j lim s).1 := by
  unfold runNbspk
  split
  · exact canonical_refl s
  · exact takeRecords_canonical ..

end Sys2Proof.Proofs
end

