-- ==== Sys2Proof/Proofs/TileMemory.lean ====
section
/-! PROOFS. What the tile engine, CRED and copies into a handle write keeps memory in its canonical form (log 1), and so does the run of
every job. -/

namespace Sys2Proof.Proofs

open Sys2Proof.Machine Sys2Proof.Laws

/-! ### Tiles checked (R221 to R223) -/

theorem readChecked_canonical {s u : State} {t n : Nat} {a : Fix × TileData × Bolt} (h : readChecked s t n = .ok (u, a)) :
    KeepsCanonical s u := by
  unfold readChecked at h
  split at h
  · cases h
  · split at h
    · cases h
    · split at h
      · cases h
      · dsimp only at h
        split at h
        · cases h
        · split at h
          · obtain ⟨rfl, -⟩ := Prod.mk.inj (Except.ok.inj h)
            exact ((setTileBolt_canonical ..).trans (setTileBits_canonical ..)).trans (canonical_of_view rfl)
          · obtain ⟨rfl, -⟩ := Prod.mk.inj (Except.ok.inj h)
            exact applyFix_canonical ..

theorem putTile_canonical (s : State) (t loc fmt : Nat) (raw : List Nat) : KeepsCanonical s (putTile s t loc fmt raw) :=
  tilePut_canonical ..

theorem setHandle_canonical (s : State) (c h : Fin 8) (x : Option Handle) : KeepsCanonical s (setHandle s c h x) := setCtx_canonical ..

/-- An answer that depends on a condition. -/
theorem ite_canonical {α : Type} {c : Prop} [Decidable c] {s : State} {e f : State × α} (he : KeepsCanonical s e.1)
    (hf : KeepsCanonical s f.1) : KeepsCanonical s (if c then e else f).1 := by
  split <;> assumption

/-! ### TLD and TST (R233, R234) -/

theorem runTld_canonical (x : TldArgs) (j : Job) (s : State) : KeepsCanonical s (runTld x j s).1 := by
  unfold runTld
  dsimp only
  split
  · exact canonical_refl s
  next loc fmt _ =>
    generalize (if x.bolt = true then engRead s reachTile _ 256 else Except.ok []) = record
    split
    · exact canonical_refl s
    · exact canonical_refl s
    · have hput (raw n d) := (putTile_canonical s (namedTile x.s x.acc (bits j.b.toNat 16 6)) loc fmt raw).trans
        (slotDescs_canonical _ (namedTile x.s x.acc (bits j.b.toNat 16 6)) loc n d)
      refine ite_canonical (canonical_refl s) (ite_canonical (ite_canonical ?_ ?_) ?_)
      · exact (hput ..).trans (applyFix_canonical ..)
      · exact ((hput ..).trans (applyFix_canonical ..)).trans (setTileBits_canonical ..)
      · exact ((hput ..).trans (setTileBolt_canonical ..)).trans (setTileBits_canonical ..)

theorem writeRows_canonical (ok : Reach) (stride a : Nat) (l : List (List Byte)) (s : State) :
    KeepsCanonical s (writeRows s ok stride a l).1 := by
  induction l generalizing a s with
  | nil => exact canonical_refl s
  | cons bs l ih =>
    rw [writeRows]
    split
    next he => exact (engWritePart_canonical ..).of_eq he
    next he => exact ((engWritePart_canonical ..).of_eq he).trans (ih ..)

theorem tstWrite_canonical (x : TstArgs) (src fmt a st : Nat) (o : Nat × List Nat × Bolt) (code : Nat) (s : State) :
    KeepsCanonical s (tstWrite x src fmt a st o code s).1 := by
  unfold tstWrite
  dsimp only
  have hrows : KeepsCanonical s (if st = 0 then engWritePart s reachTile a (packBytes (fmtBits o.1) o.2.1)
      else writeRows s reachTile st a ((List.range 16).map fun i =>
        ((packBytes (fmtBits o.1) o.2.1).drop (tileBytes o.1 / 16 * i)).take (tileBytes o.1 / 16))).1 := by
    split
    · exact engWritePart_canonical ..
    · exact writeRows_canonical ..
  split
  next he => exact hrows.of_eq he
  next u _ he =>
    have hdescs {p : Prop} [Decidable p] (n d blks e) : KeepsCanonical s (if p then engDescs u reachTile a n d
        else (List.foldl (fun s blk => engDescs s reachTile (64 * blk) 64 e) u blks)) :=
      (hrows.of_eq he).trans (canonical_ite (engDescs_canonical ..) (canonical_foldl (fun _ _ => engDescs_canonical ..) _ _))
    refine ite_canonical ?_ (hdescs ..)
    dsimp only
    refine KeepsCanonical.trans ?_ (engDescs_canonical ..)
    exact (hdescs ..).trans (engWritePart_canonical ..)

theorem runTst_canonical {x : TstArgs} {j : Job} {s : State} {e : Ended} (h : runTst x j s = some e) : KeepsCanonical s e.1 := by
  have hdone {f : Ended} (hf : KeepsCanonical s f.1) (hfe : some f = some e) : KeepsCanonical s e.1 := Option.some.inj hfe ▸ hf
  unfold runTst at h
  dsimp only at h
  split at h
  · exact hdone (canonical_refl s) h
  · rcases ite_eq_iff.mp h with ⟨-, h⟩ | ⟨-, h⟩
    · exact hdone (canonical_refl s) h
    · split at h
      · exact hdone (canonical_refl s) h
      next hread =>
        have hchecked := readChecked_canonical hread
        rcases ite_eq_iff.mp h with ⟨-, h⟩ | ⟨-, h⟩
        · exact hdone hchecked h
        · rcases ite_eq_iff.mp h with ⟨-, h⟩ | ⟨-, h⟩
          · split at h
            · exact hdone hchecked h
            · rcases ite_eq_iff.mp h with ⟨-, h⟩ | ⟨-, h⟩
              · exact hdone hchecked h
              · rcases ite_eq_iff.mp h with ⟨-, h⟩ | ⟨-, h⟩
                · cases h
                · exact hdone ((hchecked.trans (tstWrite_canonical ..)).trans (setHandle_canonical ..)) h
          · rcases ite_eq_iff.mp h with ⟨-, h⟩ | ⟨-, h⟩
            · exact hdone hchecked h
            · split at h
              · exact hdone (hchecked.trans (tstWrite_canonical ..)) h
              · exact hdone (hchecked.trans (tstWrite_canonical ..)) h

/-! ### TWLD and TCBT (R237, R238) -/

theorem setWline_canonical (s : State) (i : Nat) (w : WLine) : KeepsCanonical s (setWline s i w) := canonical_of_view rfl

theorem loadLines_canonical (l : List Nat) (a first : Nat) (s : State) : KeepsCanonical s (loadLines s l a first).1 := by
  induction l generalizing s with
  | nil => exact canonical_refl s
  | cons i l ih =>
    rw [loadLines]
    split
    · exact canonical_refl s
    · dsimp only
      split
      · exact canonical_refl s
      · exact ((setBytes_canonical ..).trans (setWline_canonical ..)).trans (ih _)

theorem runTwld_canonical (x : TwldArgs) (j : Job) (s : State) : KeepsCanonical s (runTwld x j s).1 := by
  unfold runTwld
  dsimp only
  split
  · split <;> exact canonical_refl s
  · split
    next he => exact (loadLines_canonical ..).of_eq he
    next he =>
      have hlines := (loadLines_canonical ..).of_eq he
      split
      · exact hlines
      · split
        · exact hlines
        · split
          · exact hlines
          · split
            · exact hlines
            · split
              · exact hlines.trans (canonical_foldl (fun u i => setWline_canonical ..) _ _)
              · exact hlines

theorem runTcbt_canonical (j : Job) (s : State) : KeepsCanonical s (runTcbt j s).1 := by
  unfold runTcbt
  split
  · exact canonical_refl s
  · exact (setBytes_canonical ..).trans (canonical_of_view rfl)

/-! ### TMMA (R235) -/

theorem multiply_canonical (x : TmmaArgs) (j : Job) (a : AOperand) (b : BTile) (c : TileData) (cb : Bolt) (l : List Fix) (s : State) :
    KeepsCanonical s (multiply x j a b c cb l s).1 := by
  unfold multiply
  dsimp only
  split
  · exact (setBytes_canonical ..).trans (applyFix_canonical ..)
  · exact ((setBytes_canonical ..).trans (applyFix_canonical ..)).trans (setTileBits_canonical ..)

theorem tmmaWithA_canonical (x : TmmaArgs) (j : Job) (a : AOperand) : KeepsCanonical a.s (tmmaWithA x j a).1 := by
  unfold tmmaWithA
  dsimp only
  split
  · exact canonical_refl a.s
  · split
    · exact canonical_refl a.s
    · split
      · split
        · exact canonical_refl a.s
        · exact multiply_canonical ..
      · split
        · exact canonical_refl a.s
        next hread =>
          split
          · exact readChecked_canonical hread
          · exact (readChecked_canonical hread).trans (multiply_canonical ..)

theorem slotA_canonical {s : State} {t n : Nat} {a : AOperand} (h : slotA s t n = .ok a) : KeepsCanonical s a.s := by
  unfold slotA at h
  split at h
  · cases h
  next hread _ =>
    cases h
    exact readChecked_canonical hread
  · cases h

theorem handleA_state {s : State} {x : Handle} {a : AOperand} (h : handleA s x = .ok a) : a.s = s := by
  unfold handleA at h
  dsimp only at h
  split at h
  · split at h <;> cases h
  · split at h
    · cases h
    · split at h <;> cases h
      rfl

theorem runTmma_canonical {x : TmmaArgs} {j : Job} {s : State} {e : Ended} (h : runTmma x j s = some e) : KeepsCanonical s e.1 := by
  unfold runTmma at h
  dsimp only at h
  split at h
  · split at h
    · cases h
      exact canonical_refl s
    · split at h
      · cases h
      · split at h
        · cases h
          exact canonical_refl s
        next a ha =>
          cases h
          refine KeepsCanonical.trans ?_ (tmmaWithA_canonical ..)
          rw [handleA_state ha]
          exact canonical_ite (setHandle_canonical ..) (canonical_refl s)
  · split at h
    · cases h
      exact canonical_refl s
    next ha =>
      cases h
      exact (slotA_canonical ha).trans (tmmaWithA_canonical ..)

/-! ### The other commands of the tile engine (R239 to R244) -/

theorem runTzero_canonical (x : TileArgs) (j : Job) (s : State) : KeepsCanonical s (runTzero x j s).1 := by
  unfold runTzero
  dsimp only
  split
  · exact canonical_refl s
  · exact (((tilePut_canonical ..).trans (slotDescs_canonical ..)).trans (setTileBolt_canonical ..)).trans (setTileBits_canonical ..)

theorem runTscale_canonical (x : TscaleArgs) (j : Job) (s : State) : KeepsCanonical s (runTscale x j s).1 := by
  unfold runTscale
  dsimp only
  split
  · exact canonical_refl s
  · split
    · exact canonical_refl s
    · split
      · exact canonical_refl s
      next hread =>
        split
        · exact readChecked_canonical hread
        · exact ((readChecked_canonical hread).trans (putTile_canonical ..)).trans (applyFix_canonical ..)

theorem runTvfy_canonical (x : TileArgs) (j : Job) (s : State) : KeepsCanonical s (runTvfy x j s).1 := by
  unfold runTvfy
  dsimp only
  split
  · exact canonical_refl s
  next hread => exact readChecked_canonical hread

theorem setTiles_canonical (s : State) (tiles : Vector (Option TileSlot) 64) :
    KeepsCanonical s { s with core := { s.core with tiles := tiles } } :=
  canonical_of_view rfl

theorem runTcfg_canonical (j : Job) (s : State) : KeepsCanonical s (runTcfg j s).1 := by
  unfold runTcfg
  dsimp only
  generalize (if j.b.toNat = 0 then Except.ok [] else engRead s reachTile j.a.toNat (8 * j.b.toNat)) = table
  cases table with
  | error e => exact canonical_refl s
  | ok bs =>
    dsimp only
    split
    · exact canonical_refl s
    · generalize Vector.ofFn _ = tiles
      exact setTiles_canonical s tiles

theorem observeTick_canonical (s : State) : KeepsCanonical s (observeTick s) := canonical_of_view (by
  unfold observeTick
  dsimp only
  split <;> rfl)

theorem runTcap_canonical (j : Job) (s : State) : KeepsCanonical s (runTcap j s).1 := by
  unfold runTcap
  dsimp only
  generalize leBytes 8 _ = bs
  have hwrite := (observeTick_canonical s).trans (engWrite_canonical (observeTick s) reachCopy j.a.toNat bs)
  split
  next he => exact hwrite.of_eq he
  next he => exact hwrite.of_eq he

theorem runRemote_canonical (c : Cmd) (j : Job) (s : State) : KeepsCanonical s (runRemote c j s).1 := by
  unfold runRemote
  split
  · exact canonical_refl s
  · split
    next x _ =>
      cases h : runTmma x j s with
      | none => exact canonical_refl s
      | some e => exact runTmma_canonical h
    next x _ =>
      cases h : runTst x j s with
      | none => exact canonical_refl s
      | some e => exact runTst_canonical h
    · exact runTzero_canonical ..
    · exact runTscale_canonical ..
    · exact runTvfy_canonical ..
    · exact canonical_refl s

theorem runTrem_canonical (j : Job) (s : State) : KeepsCanonical s (runTrem j s).1 := by
  unfold runTrem
  dsimp only
  split
  · exact canonical_refl s
  · have htick := observeTick_canonical s
    split
    · exact htick
    · split
      · exact htick
      · split
        · split
          · exact htick
          · exact htick.trans (runRemote_canonical ..)
        · split
          · exact htick
          · exact htick.trans (tickChoice_canonical _)

/-! ### CRED (R284, R285) -/

theorem clockJoined_canonical (s : State) (a : Agent) (clock : List Nat) (z : Storage) : KeepsCanonical s (clockJoined s a clock z) :=
  canonical_of_view rfl

theorem sharesJoined_canonical (s : State) (j : Job) (src dst : Nat) (others : List CredShare) :
    KeepsCanonical s (sharesJoined s j src dst others) := by
  unfold sharesJoined
  generalize [storageOf src, storageOf dst] = storages
  refine canonical_foldl (fun u o => ?_) others s
  exact canonical_foldl (f := fun v z => clockJoined v (.job j.id) o.clock z) (fun v z => clockJoined_canonical v _ _ z) storages u

theorem runCred_canonical (level : Fin 5) (j : Job) (others : List CredShare) (s : State) : KeepsCanonical s (runCred level j others s).1 := by
  unfold runCred
  split
  · exact canonical_refl s
  · split
    · exact canonical_refl s
    · dsimp only
      split
      · exact canonical_refl s
      · split
        · exact canonical_refl s
        · exact canonical_refl s
        · have hjoin := sharesJoined_canonical s j
          split
          next he => exact (hjoin ..).trans ((engWritePart_canonical ..).of_eq he)
          next he =>
            have hsum := (hjoin _ _ others).trans ((engWritePart_canonical ..).of_eq he)
            split
            · split
              next he => exact hsum.trans ((engWrite_canonical ..).of_eq he)
              next he => exact hsum.trans ((engWrite_canonical ..).of_eq he)
            · exact hsum

theorem loseCred_canonical (j : Job) (s : State) : KeepsCanonical s (loseCred j s) := by
  unfold loseCred
  split
  · exact canonical_refl s
  · split
    · exact canonical_refl s
    · exact (tickChoice_canonical s).trans (engWritePart_canonical ..)

/-! ### Copies into a handle (R41, R278) -/

/-- Bytes read one by one, until one cannot be. -/
theorem readBytewise_canonical (addr : Nat → Nat) (l : List Nat) (t : State × List Byte × Option StatusCode) :
    KeepsCanonical t.1 (l.foldl (fun t i => match t with
      | (s, bs, some e) => (s, bs, some e)
      | (s, bs, none) => ((anyRead s (addr i) 1).1, bs ++ (anyRead s (addr i) 1).2.1, (anyRead s (addr i) 1).2.2)) t).1 := by
  induction l generalizing t with
  | nil => exact canonical_refl t.1
  | cons i l ih =>
    obtain ⟨s, bs, e⟩ := t
    cases e with
    | some e => exact ih _
    | none => exact (anyRead_canonical s (addr i) 1).trans (ih (_, bs ++ (anyRead s (addr i) 1).2.1, (anyRead s (addr i) 1).2.2))

theorem outputBytes_canonical (x : CpyArgs) (r : CpyRec) (o n : Nat) (s : State) : KeepsCanonical s (outputBytes x r o n s).1 := by
  unfold outputBytes
  split
  · exact readBytewise_canonical _ _ (s, [], none)
  · exact readBytewise_canonical _ _ (s, [], none)

theorem pushSlot_canonical (s : State) (c h : Fin 8) (x : Handle) (bs : List Byte) : KeepsCanonical s (pushSlot s c h x bs) :=
  (store_canonical ..).trans (setHandle_canonical ..)

theorem stepCpyH_canonical {x : CpyArgs} {j : Job} {s : State} {t : State × Option (StatusCode × Nat)} (h : stepCpyH x j s = some t) :
    KeepsCanonical s t.1 := by
  unfold stepCpyH at h
  split at h
  · cases h
    exact canonical_refl s
  next rec _ =>
    dsimp only at h
    split at h
    · cases h
      exact canonical_refl s
    next hd _ =>
      split at h
      · cases h
        exact canonical_refl s
      · split at h
        · cases h
        · have hout := outputBytes_canonical x (cpyRec rec) j.done hd.size s
          split at h
          · cases h
            exact hout
          · cases h
            refine KeepsCanonical.trans ?_ (setJob_canonical ..)
            have hpush (bs) := (hout.trans (tickChoice_canonical _)).trans (pushSlot_canonical _ j.ctx x.h hd bs)
            refine canonical_ite (hpush _) ((hpush _).trans (canonical_foldl (fun u k => ?_) _ _))
            exact canonical_ite (setDesc_canonical ..) (canonical_refl u)

/-! ### A job's run and its work (R35, R60, R211) -/

theorem atEnd_canonical {lim : Nat} {s : State} {e : Ended} (h : KeepsCanonical s e.1) : KeepsCanonical s (atEnd lim s e).1 := by
  unfold atEnd
  split
  · exact canonical_refl s
  · exact h

/-- A run of a job, whatever its command. -/
theorem perform_canonical {j : Job} {others : List CredShare} {lim : Nat} {s : State} {e : Ended}
    (h : perform j others lim s = some e) : KeepsCanonical s e.1 := by
  have hdone {x : Ended} (hx : KeepsCanonical s x.1) (hxe : some x = some e) : KeepsCanonical s e.1 := Option.some.inj hxe ▸ hx
  unfold perform at h
  cases hc : j.cmd <;> simp only [hc] at h
  case cpy x =>
    split at h
    · cases h
    · exact hdone (runCpy_canonical ..) h
  case cgather => exact hdone (runList_canonical ..) h
  case cscatter => exact hdone (runList_canonical ..) h
  case cred l =>
    split at h
    · exact hdone (runCred_canonical ..) h
    · cases h
  case cqput => exact hdone (atEnd_canonical (runCqput_canonical ..)) h
  case gbind => exact hdone (atEnd_canonical (runGbind_canonical ..)) h
  case geval => exact hdone (runGeval_canonical ..) h
  case glen => exact hdone (runGlen_canonical ..) h
  case gspine => exact hdone (runGspine_canonical ..) h
  case gocc => exact hdone (runGocc_canonical ..) h
  case gunf => exact hdone (runGunf_canonical ..) h
  case gloc => exact hdone (atEnd_canonical (runGloc_canonical ..)) h
  case glook => exact hdone (atEnd_canonical (runGlook_canonical ..)) h
  case grelease => exact hdone (atEnd_canonical (runGrelease_canonical ..)) h
  case rfmatch => exact hdone (runRfmatch_canonical ..) h
  case rfmerge => exact hdone (runRfmerge_canonical ..) h
  case rfshake => exact hdone (runRfshake_canonical ..) h
  case rflogs => exact hdone (runRflogs_canonical ..) h
  case rffree => exact hdone (runRffree_canonical ..) h
  case nbcfg => exact hdone (runNbcfg_canonical ..) h
  case nbpost => exact runNbpost_canonical h
  case nbadv => exact runNbadv_canonical h
  case nbrd => exact hdone (runNbrd_canonical ..) h
  case nbwr => exact hdone (runNbwr_canonical ..) h
  case nbspk => exact hdone (runNbspk_canonical ..) h
  case tld => exact hdone (runTld_canonical ..) h
  case tst =>
    split at h
    · cases h
    · exact runTst_canonical h
  case tmma => exact runTmma_canonical h
  case twld => exact hdone (runTwld_canonical ..) h
  case tcbt => exact hdone (runTcbt_canonical ..) h
  case tzero => exact hdone (runTzero_canonical ..) h
  case tscale => exact hdone (runTscale_canonical ..) h
  case tvfy => exact hdone (runTvfy_canonical ..) h
  case trem => exact hdone (runTrem_canonical ..) h
  case tcap => exact hdone (runTcap_canonical ..) h
  case tcfg => exact hdone (runTcfg_canonical ..) h

theorem logEvent_canonical (s : State) (e : LogEvent) : KeepsCanonical s (logEvent s e) := canonical_of_view rfl

theorem poisonBroken_canonical (run : State → Option Ended) (s : State) (e : Ended) : KeepsCanonical e.1 (poisonBroken run s e).1 := by
  unfold poisonBroken
  split
  · exact canonical_refl e.1
  · exact (canonical_foldl (fun u b => setDesc_canonical ..) _ _).trans (logEvent_canonical ..)

/-- A run that keeps the canonical form wherever it starts. -/
def CanonicalRun (run : State → Option Ended) : Prop := ∀ s e, run s = some e → KeepsCanonical s e.1

theorem runChecked_canonicalRun {run : State → Option Ended} (h : CanonicalRun run) : CanonicalRun (runChecked run) := by
  intro s e he
  obtain ⟨f, hf, rfl⟩ := Option.map_eq_some_iff.mp he
  exact (h s f hf).trans (poisonBroken_canonical ..)

theorem passing_canonical (s : State) (es : List Unseen) (out : List (Nat × Nat)) : KeepsCanonical s (passing s es out) := by
  unfold passing
  induction es with
  | nil => exact canonical_refl s
  | cons u es ih =>
    rw [List.foldr_cons]
    split
    · exact ih.trans (setBytes_canonical ..)
    · exact ih

/-- Bytes that a run left alone hold the newest value again. -/
theorem restored_canonical (s : State) (b : Bool) (loc : Nat) (bs : List Byte) : KeepsCanonical s (if b then setBytes s loc bs else s) := by
  cases b
  · exact canonical_refl s
  · exact setBytes_canonical ..

theorem runPast_canonical {run : State → Option Ended} (h : CanonicalRun run) {s : State} {es : List Unseen}
    {out : List (Nat × Nat)} {e : Ended} (he : runPast run s es out = some e) : KeepsCanonical s e.1 := by
  obtain ⟨f, hf, rfl⟩ := Option.map_eq_some_iff.mp he
  exact ((passing_canonical s es out).trans (h _ f hf)).trans (canonical_foldl (fun t u => restored_canonical ..) _ _)

theorem noteJob_canonical (s t : State) (j : Job) : KeepsCanonical t (noteJob s t j) := by
  unfold noteJob
  dsimp only
  split
  · exact canonical_refl t
  · exact canonical_of_view rfl

theorem setVis_canonical (s : State) (v : Visibility) : KeepsCanonical s { s with vis := v } := canonical_of_view rfl

theorem worked_canonicalRun {j : Job} {run : State → Option Ended} (h : CanonicalRun run) : CanonicalRun fun s => worked s j run := by
  intro s e he
  dsimp only at he
  unfold worked at he
  dsimp only at he
  split at he
  · obtain ⟨f, hf, rfl⟩ := Option.map_eq_some_iff.mp he
    exact (runChecked_canonicalRun h s f hf).trans (noteJob_canonical ..)
  · obtain ⟨f, hf, hfe⟩ := Option.map_eq_some_iff.mp he
    have hrun := (tickChoice_canonical s).trans (runPast_canonical (runChecked_canonicalRun h) hf)
    rw [← hfe]
    exact (hrun.trans (setVis_canonical ..)).trans (noteJob_canonical ..)

theorem perform_canonicalRun {j : Job} {others : List CredShare} {lim : State → Nat} :
    CanonicalRun fun s => perform j others (lim s) s := fun _ _ he => perform_canonical he

end Sys2Proof.Proofs
end

