-- ==== Sys2Proof/Proofs/JobMemory.lean ====
section
/-! PROOFS. A job's start, its work, its end and what stops it keep memory in its canonical form (log 1). -/

namespace Sys2Proof.Proofs

open Sys2Proof.Machine Sys2Proof.Laws

/-! ### Answers of a step -/

/-- The state that an answer goes on to, if it does, is in the canonical form where the one before was. -/
structure OutCanonical (s : State) (o : Out) : Prop where
  next : ∀ t, o = .next t → KeepsCanonical s t

theorem outCanonical_next {s t : State} (h : KeepsCanonical s t) : OutCanonical s (.next t) := by
  refine ⟨fun u hu => ?_⟩
  cases hu
  exact h

theorem outCanonical_refused (s : State) (r : Refusal) : OutCanonical s (.refused r) := ⟨fun _ hu => by cases hu⟩

theorem outCanonical_ite {s : State} {c : Prop} [Decidable c] {o p : Out} (ho : OutCanonical s o) (hp : OutCanonical s p) :
    OutCanonical s (if c then o else p) := by
  split <;> assumption

theorem OutCanonical.after {s t : State} {o : Out} (h : KeepsCanonical s t) (k : OutCanonical t o) : OutCanonical s o :=
  ⟨fun u hu => h.trans (k.next u hu)⟩

theorem outCanonical_of_outView {s : State} {o : Out} (h : MemoryInv s → OutView Canonical o) : OutCanonical s o :=
  ⟨fun t ht => ⟨fun hs => h hs t ht⟩⟩

theorem canonical_of_keeps {s t : State} (h : Canonical (view s) → Canonical (view t)) : KeepsCanonical s t := ⟨h⟩

/-! ### Shared operations -/

theorem setG_canonical (s : State) (c : Fin 8) (r : GReg) (w : Word) : KeepsCanonical s (setG s c r w) :=
  canonical_of_keeps setG_view

theorem raise_canonical (s : State) (c : Fin 8) (f : Flt) : KeepsCanonical s (raise s c f) :=
  canonical_of_keeps (raise_view descSafe_canonical)

theorem blockFound_canonical (s : State) (b : Nat) : KeepsCanonical s (blockFound s b) :=
  (setDesc_canonical ..).trans (logEvent_canonical ..)

theorem wakePast_canonical (s : State) (c : Fin 8) (len : Nat) : KeepsCanonical s (wakePast s c len) := canonical_of_view rfl

theorem noteStore_canonical (s : State) (c : Fin 8) (m : AtMode) (r : Bool) (locs : List Nat) : KeepsCanonical s (noteStore s c m r locs) :=
  canonical_of_keeps noteStore_view

theorem noteAs_canonical (s : State) (w : Write) (locs : List Nat) : KeepsCanonical s (noteAs s w locs) :=
  canonical_of_keeps noteAs_view

theorem readAs_canonical (s : State) (a : Agent) (m : AtMode) (grain : Nat) (locs : List Nat) :
    KeepsCanonical s (readAs s a m grain locs).2 := canonical_of_view rfl

theorem snd_ite_canonical {α : Type} {c : Prop} [Decidable c] {s : State} {e f : α × State} (he : KeepsCanonical s e.2)
    (hf : KeepsCanonical s f.2) : KeepsCanonical s (if c then e else f).2 := by
  split <;> assumption

/-! ### The start (R38, R257, R273) -/

theorem readRecord_canonical (s : State) (j : Job) : KeepsCanonical s (readRecord s j).2 := by
  unfold readRecord
  dsimp only
  generalize hfound : (if quietAt s.vis (.job j.id) false _ then _ else _ : List Byte × State) = found
  have hread : KeepsCanonical s found.2 := by
    rw [← hfound]
    exact snd_ite_canonical (canonical_refl s) ((readAs_canonical ..).trans (tickChoice_canonical _))
  exact snd_ite_canonical hread (hread.trans (tickChoice_canonical _))

theorem recordTaken_canonical (s : State) (j : Job) : KeepsCanonical s (recordTaken s j).2 := by
  unfold recordTaken
  split
  · exact canonical_refl s
  · dsimp only
    split
    · exact canonical_ite (blockFound_canonical ..) (canonical_refl s)
    · exact readRecord_canonical ..

theorem startJob_canonical (s : State) (j : Job) : KeepsCanonical s (startJob s j) :=
  (recordTaken_canonical s j).trans (canonical_of_view rfl)

theorem execJobLaunch_canonical (id : Nat) (s : State) : OutCanonical s (execJobLaunch id s) := by
  unfold execJobLaunch
  split
  · exact outCanonical_refused ..
  · exact outCanonical_ite (outCanonical_next (setJob_canonical ..))
      (outCanonical_ite (outCanonical_next (startJob_canonical ..)) (outCanonical_refused ..))

/-! ### The end (R35, R204) -/

theorem missReport_canonical (s : State) (j : Job) (a : Nat) : KeepsCanonical s (missReport s j a) :=
  ((setJob_canonical ..).trans (observeTick_canonical _)).trans (canonical_of_view rfl)

theorem endOrReport_canonical {s : State} {j : Job} {e : Ended} {finish : State → StatusCode → Nat → State} (h : KeepsCanonical s e.1)
    (hf : ∀ t c n, KeepsCanonical t (finish t c n)) : OutCanonical s (endOrReport s j e finish) := by
  have hended := outCanonical_next (h.trans (hf e.1 (StatusCode.plain e.2.1) e.2.2))
  unfold endOrReport
  dsimp only
  split
  · exact hended
  · exact outCanonical_ite (outCanonical_refused ..) (outCanonical_ite hended (outCanonical_next (missReport_canonical ..)))
  · exact hended

theorem endJob_canonical (s : State) (id : Nat) (e : StatusCode × Nat) : KeepsCanonical s (endJob s id e) := by
  unfold endJob
  split
  · exact setJob_canonical ..
  · exact canonical_refl s

theorem failedBind_canonical (s : State) (j : Job) : KeepsCanonical s (failedBind s j) := by
  unfold failedBind
  split
  · dsimp only
    split
    · exact setJob_canonical ..
    · exact setGram_canonical ..
  · exact canonical_refl s

theorem taint_canonical (s : State) (desc : Nat) : KeepsCanonical s (taint s desc) := by
  unfold taint
  split
  · exact canonical_refl s
  · split
    · exact canonical_refl s
    · exact store_canonical ..

theorem finishJob_canonical (s : State) (j : Job) (code : StatusCode) (count : Nat) : KeepsCanonical s (finishJob s j code count) := by
  have htaints (t : State) : KeepsCanonical t (if code.isErr then j.shadows.foldl taint t else t) :=
    canonical_ite (canonical_foldl taint_canonical ..) (canonical_refl t)
  have hends (t : State) (x : Vector Ctx 8) (k : Cluster) : KeepsCanonical t { jobEnds t j with ctxs := x, clu := k } := canonical_of_view rfl
  unfold finishJob
  dsimp only
  refine KeepsCanonical.trans ?_ (htaints _)
  refine KeepsCanonical.trans ?_ (hends _ _ _)
  generalize hu : (if code = .ok then s else failedBind s j) = u
  have hbind : KeepsCanonical s u := hu ▸ canonical_ite (canonical_refl s) (failedBind_canonical ..)
  refine hbind.trans ?_
  split
  · refine KeepsCanonical.trans ?_ (setGram_canonical ..)
    split
    · exact canonical_of_view rfl
    · exact canonical_ite ((setG_canonical ..).trans (setCtx_canonical ..)) (canonical_refl u)
  · split
    · exact canonical_of_view rfl
    · exact canonical_ite ((setG_canonical ..).trans (setCtx_canonical ..)) (canonical_refl u)

/-! ### Work (R41, R215, R269) -/

theorem pushRun_canonicalRun (x : CpyArgs) (j : Job) : CanonicalRun (pushRun x j) := by
  intro s e he
  obtain ⟨r, hr, rfl⟩ := Option.map_eq_some_iff.mp he
  exact stepCpyH_canonical hr

theorem runPart_canonicalRun (j : Job) : CanonicalRun (runPart j) := perform_canonicalRun

theorem worked_canonical {s : State} {j : Job} {run : State → Option Ended} {e : Ended} (h : CanonicalRun run) (he : worked s j run = some e) :
    KeepsCanonical s e.1 := worked_canonicalRun h s e he

theorem execEngineHandlePush_canonical (id : Nat) (s : State) : OutCanonical s (execEngineHandlePush id s) := by
  unfold execEngineHandlePush
  split
  · exact outCanonical_refused ..
  next j _ =>
    refine outCanonical_ite (outCanonical_refused ..) ?_
    split
    next x _ =>
      refine outCanonical_ite (outCanonical_refused ..) ?_
      split
      · exact outCanonical_refused ..
      next he => exact outCanonical_next (worked_canonical (pushRun_canonicalRun x j) he)
      next he => exact endOrReport_canonical (worked_canonical (pushRun_canonicalRun x j) he) fun _ _ _ => endJob_canonical ..
    next x _ =>
      refine outCanonical_ite (outCanonical_refused ..) ?_
      split
      · exact outCanonical_refused ..
      next he =>
        exact endOrReport_canonical (worked_canonical (fun _ _ hr => runTst_canonical hr) he) fun _ _ _ => endJob_canonical ..
    · exact outCanonical_refused ..

theorem execJobCompletion_canonical (id : Nat) (others : List CredShare) (s : State) : OutCanonical s (execJobCompletion id others s) := by
  unfold execJobCompletion
  split
  · exact outCanonical_refused ..
  · split
    · exact outCanonical_next (finishJob_canonical ..)
    · refine outCanonical_ite (outCanonical_refused ..) (outCanonical_ite (outCanonical_next (finishJob_canonical ..)) ?_)
      split
      next he =>
        exact endOrReport_canonical (worked_canonical perform_canonicalRun he) fun _ _ _ =>
          canonical_ite (endJob_canonical ..) (finishJob_canonical ..)
      · exact outCanonical_refused ..

theorem jobProgress_canonical (s : State) : KeepsCanonical s (jobProgress s) := by
  unfold jobProgress
  dsimp only
  have htick := tickChoice_canonical s
  split
  · exact htick
  next j _ =>
    split
    next he =>
      have hrun := htick.trans (worked_canonical (runPart_canonicalRun j) he)
      exact canonical_ite (hrun.trans (endJob_canonical ..)) (hrun.trans (setJob_canonical ..))
    next he => exact (htick.trans (worked_canonical (runPart_canonicalRun j) he)).trans (setJob_canonical ..)
    · exact htick

theorem jobPerforms_canonical (s : State) : KeepsCanonical s (jobPerforms s) := by
  unfold jobPerforms
  dsimp only
  have htick := tickChoice_canonical s
  split
  · exact htick
  · split
    · exact htick
    · exact htick
    next he => exact (htick.trans (worked_canonical perform_canonicalRun he)).trans (setJob_canonical ..)

/-! ### Stopping short (R282, R289, R356) -/

theorem stopShort_canonical (s : State) (j : Job) (code : StatusCode) : KeepsCanonical s (stopShort s j code) := by
  have htick := tickChoice_canonical s
  have hnothing (e : Option (StatusCode × Nat)) := htick.trans (setJob_canonical s.tickChoice { j with status := e })
  unfold stopShort
  dsimp only
  refine canonical_ite (hnothing _) ?_
  split
  next t c n he =>
    have hrun : worked s.tickChoice j (runPart j) = some (t, c, n) → KeepsCanonical s.tickChoice t :=
      worked_canonical (runPart_canonicalRun j)
    refine KeepsCanonical.trans (htick.trans ?_) (setJob_canonical ..)
    split at he
    · split at he
      · cases he
      · exact hrun he
    · cases he
    · exact hrun he
  · exact hnothing _

theorem cutShort_canonical {s t : State} {j : Job} {code : StatusCode} (h : cutShort s j code = some t) : KeepsCanonical s t := by
  unfold cutShort at h
  split at h
  case h_3 => cases h
  all_goals
    next he _ =>
      split at h
      · obtain rfl := Option.some.inj h
        exact (worked_canonical (runPart_canonicalRun j) he).trans (setJob_canonical ..)
      · cases h

theorem cutShort_getD_canonical {s t : State} (j : Job) (code : StatusCode) (h : KeepsCanonical s t) :
    KeepsCanonical s ((cutShort s j code).getD t) := by
  cases hcut : cutShort s j code with
  | none => exact h
  | some u => exact cutShort_canonical hcut

theorem poisonShort_canonical (s : State) (j : Job) : KeepsCanonical s (poisonShort s j) := by
  unfold poisonShort
  dsimp only
  refine (tickChoice_canonical s).trans (canonical_ite ?_ (setJob_canonical ..))
  exact cutShort_getD_canonical _ _ (setJob_canonical ..)

theorem lostShort_canonical (s : State) (j : Job) : KeepsCanonical s (lostShort s j) := by
  unfold lostShort
  dsimp only
  exact canonical_ite (stopShort_canonical ..) ((tickChoice_canonical s).trans (cutShort_getD_canonical _ _ (canonical_refl _)))

theorem execCcancel_canonical (gs : GReg) (s : State) : OutCanonical s (execCcancel gs s) := by
  unfold execCcancel
  refine outCanonical_ite (outCanonical_of_outView fun hs => faultCls_view descSafe_canonical hs) ?_
  dsimp only
  refine outCanonical_next (KeepsCanonical.trans ?_ (canonical_of_keeps retire_view))
  split
  · exact canonical_refl s
  · split
    · exact canonical_refl s
    · refine canonical_ite (canonical_refl s) ?_
      split
      · exact canonical_refl s
      · exact canonical_ite (setJob_canonical ..) (canonical_ite (canonical_refl s) (stopShort_canonical ..))

theorem execErrorReply_canonical (target : ErrTarget) (peer : BitVec 32) (s : State) : OutCanonical s (execErrorReply target peer s) := by
  unfold execErrorReply
  split
  · exact outCanonical_ite (outCanonical_next (raise_canonical ..)) (outCanonical_refused ..)
  · split
    · exact outCanonical_ite (outCanonical_next (poisonShort_canonical ..)) (outCanonical_refused ..)
    · exact outCanonical_refused ..

/-! ### The swap of a published buffer (R205) -/

theorem setPub_canonical (s : State) (p : PubBuf) : KeepsCanonical s (setPub s p) := canonical_of_view rfl

theorem seenAt_canonical (s : State) (p : Nat → Bool) : KeepsCanonical s (seenAt s p) := canonical_of_view rfl

theorem spoilShadow_canonical (s : State) (p : PubBuf) : KeepsCanonical s (spoilShadow s p) := by
  unfold spoilShadow
  refine (tickChoice_canonical s).trans (canonical_foldl (fun t i => ?_) _ _)
  split
  · exact setBytes_canonical ..
  · exact canonical_refl t

theorem swapBacking_canonical (s : State) (p : PubBuf) : KeepsCanonical s (swapBacking s p) :=
  (seenAt_canonical ..).trans (setPub_canonical ..)

theorem swapPub_canonical (s : State) (p : PubBuf) (c : Fin 8) (agent : AgentScope) : KeepsCanonical s (swapPub s p c agent).1 := by
  have hword (u : State) (l : Nat) (m : AtMode) (bs : List Byte) (locs : List Nat) : KeepsCanonical u (store (noteStore u c m false locs) l bs) :=
    (noteStore_canonical ..).trans (store_canonical ..)
  unfold swapPub
  dsimp only
  split
  · refine KeepsCanonical.trans (((seenAt_canonical s (inBacking s p)).trans (spoilShadow_canonical _ p)).trans ?_) (setPub_canonical ..)
    split
    · exact hword ..
    · exact canonical_refl _
  · refine KeepsCanonical.trans ?_ (swapBacking_canonical ..)
    split
    · exact hword ..
    · exact canonical_refl s

theorem execPublSwap_canonical (c : Fin 8) (s : State) : OutCanonical s (execPublSwap c s) := by
  unfold execPublSwap
  split
  · refine outCanonical_ite (outCanonical_refused ..) (outCanonical_ite ?_ (outCanonical_ite (outCanonical_refused ..) ?_))
    · exact outCanonical_ite (outCanonical_refused ..) (outCanonical_next (setPub_canonical ..))
    · exact outCanonical_next (((swapPub_canonical ..).trans (setG_canonical ..)).trans (wakePast_canonical ..))
  · exact outCanonical_refused ..

end Sys2Proof.Proofs
end

