-- ==== Sys2Proof/Proofs/EventMemory.lean ====
section
/-! PROOFS. Events of a core keep memory in its canonical form (log 1): what waits and what arrives. -/

namespace Sys2Proof.Proofs

open Sys2Proof.Machine Sys2Proof.Laws

/-! ### Records that hold no memory -/

theorem setCore_canonical (s : State) (c : CoreRegs) : KeepsCanonical s { s with core := c } := canonical_of_view rfl

theorem setCoreMod_canonical (s : State) (c : CoreRegs) (m : Module) (h : m.image = s.mod.image) :
    KeepsCanonical s { s with core := c, mod := m } := canonical_of_view (by rw [view, h]; rfl)

theorem setMod_canonical (s : State) (m : Module) (h : m.image = s.mod.image) : KeepsCanonical s { s with mod := m } :=
  canonical_of_view (by rw [view, h]; rfl)

/-! ### Operations on full/empty words (R185, R186) -/

theorem tagSafe_canonical : TagSafe Canonical := fun _ _ h => h

theorem allStores_canonical : AllStores Canonical := fun runs => storeSafe_canonical runs

theorem serve_canonical (s : State) (loc : Nat) : KeepsCanonical s (serve s loc) :=
  canonical_of_keeps (serve_view descSafe_canonical tagSafe_canonical (.inr allStores_canonical))

theorem serveAll_canonical (s : State) : KeepsCanonical s (serveAll s) :=
  canonical_of_keeps (serveAll_view descSafe_canonical tagSafe_canonical allStores_canonical)

theorem feActRemote_canonical (s : State) (r : FeReq) : KeepsCanonical s (feActRemote s r) :=
  canonical_of_keeps (feActRemote_view tagSafe_canonical (.inr (storeSafe_canonical _)))

theorem feArrive_canonical {s t : State} {r : FeReq} (h : feArrive s r = some t) : KeepsCanonical s t :=
  canonical_of_keeps (feArrive_view descSafe_canonical tagSafe_canonical (.inr allStores_canonical)
    (.inr ⟨storeSafe_canonical _, storeSafe_canonical _⟩) h)

theorem countWrite_canonical (s : State) (die : Nat) : KeepsCanonical s (countWrite s die) := by
  unfold countWrite
  split
  · exact canonical_of_view rfl
  · exact canonical_refl s

theorem answer_canonical (s : State) (o w : Nat) : KeepsCanonical s (answer s o w) := canonical_of_view rfl

theorem feServe_canonical {s t : State} {r : RemoteFe} (h : feServe s r = some t) : KeepsCanonical s t := by
  have hact (u : State) : KeepsCanonical u (serve (feActRemote u (remoteReq r)) r.word) :=
    (feActRemote_canonical ..).trans (serve_canonical ..)
  unfold feServe at h
  dsimp only at h
  split at h
  case h_1 | h_2 => exact Option.some.inj h ▸ hact s
  case h_3 | h_4 =>
    have hfound (b : Option Nat) : KeepsCanonical s (b.elim s (blockFound s)) := by
      cases b with
      | none => exact canonical_refl s
      | some b => exact blockFound_canonical ..
    exact Option.some.inj h ▸ (hfound _).trans (answer_canonical ..)
  case h_5 =>
    split at h
    · exact Option.some.inj h ▸ (hact s).trans (answer_canonical ..)
    · exact Option.some.inj h ▸ answer_canonical ..
  case h_6 =>
    split at h
    · exact Option.some.inj h ▸ (hact s).trans (answer_canonical ..)
    · exact Option.some.inj h ▸ answer_canonical ..
  all_goals
    split at h
    · exact Option.some.inj h ▸ answer_canonical ..
    · exact feArrive_canonical h

theorem execFeRequestArrival_canonical (r : RemoteFe) (s : State) : OutCanonical s (execFeRequestArrival r s) := by
  unfold execFeRequestArrival
  refine outCanonical_ite (outCanonical_refused ..) ?_
  have hcount : KeepsCanonical s (if r.kind = .peek then s else countWrite s r.die) :=
    canonical_ite (canonical_refl s) (countWrite_canonical ..)
  dsimp only
  generalize (if r.kind = .peek then s else countWrite s r.die) = t at hcount ⊢
  refine outCanonical_ite (outCanonical_next hcount) (outCanonical_ite (outCanonical_next (hcount.trans (answer_canonical ..))) ?_)
  split
  next h => exact outCanonical_next (hcount.trans (feServe_canonical h))
  · exact outCanonical_refused ..

/-! ### Waits that end (R24, R191, R194, R195) -/

theorem wakeAgain_canonical (s : State) (c : Fin 8) (e : Bool) : KeepsCanonical s (wakeAgain s c e) := canonical_of_view rfl

theorem execContextWake_canonical (c : Fin 8) (s : State) : OutCanonical s (execContextWake c s) := by
  unfold execContextWake
  split
  · exact outCanonical_ite (outCanonical_next (wakeAgain_canonical ..)) (outCanonical_refused ..)
  · exact outCanonical_refused ..

theorem execWaitwTimeout_canonical (c : Fin 8) (s : State) : OutCanonical s (execWaitwTimeout c s) := by
  unfold execWaitwTimeout
  split
  · exact outCanonical_ite (outCanonical_refused ..) (outCanonical_next (wakeAgain_canonical ..))
  · exact outCanonical_refused ..

theorem execYieldxExpiry_canonical (c : Fin 8) (s : State) : OutCanonical s (execYieldxExpiry c s) := by
  unfold execYieldxExpiry
  split
  · exact outCanonical_ite (outCanonical_refused ..) (outCanonical_next (wakeAgain_canonical ..))
  · exact outCanonical_refused ..

theorem execWaittDeadline_canonical (c : Fin 8) (s : State) : OutCanonical s (execWaittDeadline c s) := by
  unfold execWaittDeadline
  split
  · exact outCanonical_ite (outCanonical_refused ..) (outCanonical_next (canonical_of_view rfl))
  · exact outCanonical_refused ..

theorem execHostCompletion_canonical (c : Fin 8) (refused : Bool) (s : State) : OutCanonical s (execHostCompletion c refused s) := by
  unfold execHostCompletion
  split
  · exact outCanonical_ite (outCanonical_next (raise_canonical ..)) (outCanonical_next (wakeAgain_canonical ..))
  · exact outCanonical_refused ..

/-! ### Barriers and exchanges (R29 to R34, R196, R199) -/

theorem regroup_canonical {s t : State} {others : List SplitMember} (h : regroup s others = some t) : KeepsCanonical s t := by
  unfold regroup at h
  split at h
  · exact Option.some.inj h ▸ canonical_refl s
  · dsimp only at h
    split at h
    · cases h
    · exact Option.some.inj h ▸ canonical_of_view rfl

theorem execBsyncComplete_canonical (others : List SplitMember) (s : State) (clock : List Nat) :
    OutCanonical s (execBsyncComplete others s clock) := by
  unfold execBsyncComplete
  split
  next level storage _ =>
    refine outCanonical_ite ?_ (outCanonical_refused ..)
    split
    · exact outCanonical_next ((setCtx_canonical ..).trans (raise_canonical ..))
    next t h =>
      have hgroup : KeepsCanonical s t := by
        split at h
        · exact regroup_canonical h
        · exact Option.some.inj h ▸ canonical_refl s
      exact outCanonical_next (hgroup.trans (canonical_of_view rfl))
  · exact outCanonical_refused ..

theorem execXendComplete_canonical (s : State) (clock : List Nat) : OutCanonical s (execXendComplete s clock) := by
  unfold execXendComplete
  split
  · exact outCanonical_ite (outCanonical_next (canonical_of_view rfl)) (outCanonical_refused ..)
  · exact outCanonical_refused ..

theorem routerFault_canonical (s : State) (f : Flt) : KeepsCanonical s (routerFault s f) :=
  (observeTick_canonical s).trans (canonical_of_view rfl)

theorem deliver_canonical {s t : State} {v : Vec} (h : deliver s v = .placed t) : KeepsCanonical s t := by
  unfold deliver at h
  dsimp only at h
  split at h
  · cases h
  · split at h
    · cases h
      exact (store_canonical ..).trans (canonical_of_view rfl)
    · split at h
      · split at h
        · cases h
        · split at h
          · cases h
            exact (store_canonical ..).trans (canonical_of_view rfl)
          · cases h
      · cases h

theorem drainArriving_canonical (n : Nat) (s : State) : KeepsCanonical s (drainArriving n s) := by
  induction n generalizing s with
  | zero => exact canonical_refl s
  | succ n ih =>
    rw [drainArriving]
    split
    · exact canonical_refl s
    · split
      next t h => exact ((deliver_canonical h).trans (setCore_canonical ..)).trans (ih _)
      · exact canonical_refl s
      · exact canonical_ite (canonical_refl s) (routerFault_canonical ..)

theorem drainAll_canonical (s : State) : KeepsCanonical s (drainAll s) := drainArriving_canonical ..

theorem deliverOwn_canonical {s t : State} {v : Vec} (h : deliverOwn s v = some t) : KeepsCanonical s t := by
  unfold deliverOwn at h
  split at h
  next hd => exact Option.some.inj h ▸ (deliver_canonical hd).trans (canonical_of_view rfl)
  · cases h
  · split at h
    · cases h
    · exact Option.some.inj h ▸ routerFault_canonical ..

theorem execExchangeDelivery_canonical (arrives : Option Arrival) (s : State) : OutCanonical s (execExchangeDelivery arrives s) := by
  have hsent : KeepsCanonical s { s with core := { s.core with outgoing := none } } := canonical_of_view rfl
  unfold execExchangeDelivery
  split
  next x =>
    refine outCanonical_ite (outCanonical_next (canonical_refl s)) (outCanonical_ite (outCanonical_next ?_) (outCanonical_refused ..))
    exact KeepsCanonical.trans (t := { s with core := { s.core with arriving := s.core.arriving ++ [x.payload] } }) (canonical_of_view rfl)
      (drainAll_canonical _)
  · split
    · refine outCanonical_ite ?_ (outCanonical_next hsent)
      split
      next h => exact outCanonical_next (deliverOwn_canonical h)
      · exact outCanonical_refused ..
    · exact outCanonical_next ((canonical_ite (canonical_refl s) hsent).trans (drainAll_canonical _))
    · exact outCanonical_next (drainAll_canonical s)
    · exact outCanonical_refused ..

theorem discardRetained_canonical (s : State) : KeepsCanonical s (discardRetained s) := by
  unfold discardRetained
  split
  · exact canonical_of_view rfl
  · exact canonical_ite (canonical_of_view rfl) (canonical_refl s)
  · exact canonical_refl s

theorem execExchangeAbort_canonical (s : State) : OutCanonical s (execExchangeAbort s) := by
  have hdrop : KeepsCanonical s (if routerStuck s then discardRetained s else s) :=
    canonical_ite (discardRetained_canonical s) (canonical_refl s)
  unfold execExchangeAbort
  refine outCanonical_ite (outCanonical_refused ..) ?_
  dsimp only
  generalize (if routerStuck s then discardRetained s else s) = u at hdrop ⊢
  generalize hv : ({ u with core := _, mod := _ } : State) = v
  have hmark : KeepsCanonical u v := hv ▸ setCoreMod_canonical _ _ _ rfl
  split
  · exact outCanonical_next (((hdrop.trans hmark).trans (setCtx_canonical ..)).trans (raise_canonical ..))
  · exact outCanonical_next (hdrop.trans hmark)

/-! ### Writes and walks that arrive (R17, R190, R205, R212) -/

theorem publArrives_canonical {s t : State} {loc : Nat} {bs : List Byte} (h : publArrives s loc bs = some t) : KeepsCanonical s t := by
  unfold publArrives at h
  dsimp only at h
  split at h
  · split at h
    · exact Option.some.inj h ▸ canonical_refl s
    · split at h
      · cases h
      · exact Option.some.inj h ▸ swapBacking_canonical ..
  · split at h
    · split at h
      · cases h
      · exact Option.some.inj h ▸ (seenAt_canonical ..).trans (spoilShadow_canonical ..)
    · exact Option.some.inj h ▸ canonical_refl s
  · exact Option.some.inj h ▸ canonical_refl s

theorem noteOutside_canonical (s : State) (die : Nat) (clock : List Nat) (release : Option (AgentScope × Storage)) (rmw : Bool)
    (locs : List Nat) : KeepsCanonical s (noteOutside s die clock release rmw locs) := noteAs_canonical ..

theorem execWriteApply_canonical (loc : Nat) (data : DieWrite) (s : State) : OutCanonical s (execWriteApply loc data s) := by
  have hcount := countWrite_canonical s data.die
  unfold execWriteApply
  refine outCanonical_ite ?_ (outCanonical_refused ..)
  dsimp only
  refine outCanonical_ite (outCanonical_next hcount) ?_
  split
  · exact outCanonical_refused ..
  next t h =>
    have hstore := (noteOutside_canonical t data.die data.clock data.release false ((List.range data.bytes.length).map fun i => loc + i)).trans
      (store_canonical _ loc data.bytes)
    exact outCanonical_next (((hcount.trans (publArrives_canonical h)).trans hstore).trans (canonical_of_view rfl))

theorem execPageWalk_canonical (va : Word) (s : State) : OutCanonical s (execPageWalk va s) := by
  unfold execPageWalk
  split
  · exact outCanonical_next (canonical_of_view rfl)
  · exact outCanonical_ite (outCanonical_next (raise_canonical ..)) (outCanonical_refused ..)

/-! ### Remote commands and neuron events (R244, R298) -/

theorem replyStatus_canonical (s : State) (o : Nat) (code : StatusCode) : KeepsCanonical s (replyStatus s o code) := canonical_of_view rfl

theorem holdRemote_canonical {t : TremCmd} {c : Cmd} {r : SavedCore} {s : State} (hr : s.saved.getLast? = some r) :
    OutCanonical s (holdRemote t c r s) := by
  unfold holdRemote
  dsimp only
  refine outCanonical_ite (outCanonical_next (replyStatus_canonical ..)) (outCanonical_ite (outCanonical_refused ..) (outCanonical_next ?_))
  refine ⟨fun ⟨hmem, hdescs, hsaved, himage⟩ => ⟨hmem, hdescs, fun x hx => ?_, himage⟩⟩
  rcases List.mem_append.mp hx with hx | hx
  · exact hsaved x (List.mem_of_mem_dropLast hx)
  · obtain rfl := List.mem_singleton.mp hx
    exact hsaved r (List.mem_of_getLast? hr)

theorem execTremCommandArrival_canonical (t : TremCmd) (s : State) : OutCanonical s (execTremCommandArrival t s) := by
  unfold execTremCommandArrival
  refine outCanonical_ite (outCanonical_refused ..) (outCanonical_ite (outCanonical_next (replyStatus_canonical ..)) ?_)
  dsimp only
  refine OutCanonical.after (observeTick_canonical s) ?_
  generalize observeTick s = u
  have hreply (code : StatusCode) := outCanonical_next (replyStatus_canonical u t.origin code)
  split
  · exact hreply _
  · refine outCanonical_ite (hreply _) ?_
    split
    next h => exact holdRemote_canonical h
    · refine outCanonical_ite (hreply _) (outCanonical_ite (outCanonical_refused ..) (outCanonical_next (canonical_of_view rfl)))

theorem execNbEventArrival_canonical (e : NbEvent) (s : State) : OutCanonical s (execNbEventArrival e s) := by
  have hhold := outCanonical_next (setBank_canonical s { s.clu.bank with held := s.clu.bank.held ++ [e] })
  unfold execNbEventArrival
  refine outCanonical_ite (outCanonical_refused ..) ?_
  dsimp only
  refine outCanonical_ite hhold ?_
  split
  next h => exact outCanonical_next (placeEvent_canonical h)
  · exact hhold
  · exact hhold

end Sys2Proof.Proofs
end

