-- ==== Sys2Proof/Proofs/MastheadMemory.lean ====
section
/-! PROOFS. What the launch unit and the masthead do to a core keeps memory in its canonical form (log 1). -/

namespace Sys2Proof.Proofs

open Sys2Proof.Machine Sys2Proof.Laws

/-! ### Groups and rings (R20, R32) -/

theorem xringWrite_canonical {s t : State} {csr : Fin 4} {v : Word} (h : xringWrite s csr v = .ok t) : KeepsCanonical s t := by
  obtain ⟨-, -, h⟩ := andThen_eq_ok.mp h
  cases h
  exact setCore_canonical ..

theorem execXringCsrWrite_canonical (csr : Fin 4) (v : Word) (s : State) : OutCanonical s (execXringCsrWrite csr v s) := by
  unfold execXringCsrWrite
  refine outCanonical_ite ?_ (outCanonical_refused ..)
  exact outCanonical_of_outView fun hs => chkRun_view descSafe_canonical hs fun t ht => outView_next ((xringWrite_canonical ht).inv hs)

theorem startGroup_canonical (s : State) (l : Launch) (g : Nat) : KeepsCanonical s (startGroup s l g) := canonical_of_view rfl

theorem execGroupStart_canonical (s : State) : OutCanonical s (execGroupStart s) := by
  unfold execGroupStart
  split
  · exact outCanonical_refused ..
  · exact outCanonical_ite (outCanonical_next ((startGroup_canonical ..).trans (setCore_canonical ..))) (outCanonical_refused ..)

/-! ### A core's contents (R309, R337, R339) -/

theorem noteUnit_canonical (s : State) (release : Bool) (locs : List Nat) : KeepsCanonical s (noteUnit s release locs) :=
  (noteAs_canonical s _ locs).trans (canonical_of_view rfl)

theorem unitStore_canonical (s : State) (release : Bool) (l : Nat) (bs : List Byte) : KeepsCanonical s (unitStore s release l bs) :=
  (noteUnit_canonical ..).trans (store_canonical ..)

theorem jobPut_canonical (job : Nat) (release : Bool) (fuel va : Nat) (bs : List Byte) (s : State) :
    KeepsCanonical s (jobPut s job release fuel va bs) := by
  induction fuel generalizing va bs s with
  | zero => exact canonical_refl s
  | succ fuel ih =>
    rw [jobPut]
    split
    · exact canonical_refl s
    · refine KeepsCanonical.trans ?_ (ih ..)
      split
      · exact unitStore_canonical ..
      · exact canonical_refl s

theorem jobWrite_canonical (s : State) (job va : Nat) (bs : List Byte) (release : Bool) :
    KeepsCanonical s (jobWrite s job va bs release) := jobPut_canonical ..

theorem setSpad_canonical (s : State) (image : List Byte) : KeepsCanonical s (setSpad s image) := ⟨setSpad_inv⟩

theorem clearAccs_canonical (s : State) : KeepsCanonical s (clearAccs s) := ⟨clearAccs_inv⟩

theorem resetBank_canonical (s : State) : KeepsCanonical s (resetBank s) := ⟨resetBank_inv⟩

theorem prepareCore_canonical (s : State) (l : Launch) (lid : Nat) : KeepsCanonical s (prepareCore s l lid) := ⟨prepareCore_inv⟩

theorem freeCore_canonical (s : State) : KeepsCanonical s (freeCore s) := canonical_of_view rfl

/-! ### The end of a launch (R308, R322, R332) -/

theorem stopCore_canonical (s : State) : KeepsCanonical s (stopCore s) := canonical_of_view rfl

theorem setLaunch_canonical (s : State) (l : Launch) : KeepsCanonical s (setLaunch s l) := canonical_of_view rfl

theorem dropPackets_canonical (s : State) (id : Option Nat) : KeepsCanonical s (dropPackets s id) := canonical_of_view rfl

theorem dropRecords_canonical (s : State) (id : Nat) : KeepsCanonical s (dropRecords s id) := by
  refine ⟨fun ⟨hmem, hdescs, hsaved, himage⟩ => ⟨hmem, hdescs, fun r hr => hsaved r (List.mem_filter.mp hr).1, fun j hj r hr => ?_⟩⟩
  obtain ⟨i, hi, rfl⟩ := Option.map_eq_some_iff.mp hj
  exact himage i hi r (List.mem_filter.mp hr).1

theorem endLaunch_canonical (s : State) (l : Launch) (result reason : Nat) : KeepsCanonical s (endLaunch s l result reason) := by
  have hstop : KeepsCanonical s (if s.core.launch = some l.id then
      { stopCore s with clu := { (stopCore s).clu with jobs := [] }, feQueue := [] } else s) :=
    canonical_ite (canonical_of_view rfl) (canonical_refl s)
  exact ((hstop.trans (dropPackets_canonical ..)).trans (dropRecords_canonical ..)).trans (setLaunch_canonical ..)

/-! ### Resuming (R306, R308, R310) -/

theorem setV_canonical (s : State) (c : Fin 8) (v : VCode) (w : Vec) : KeepsCanonical s (setV s c v w) := canonical_of_keeps setV_view

theorem applyDebug_canonical (s : State) (c : Fin 8) (r : DbgReg) (w : Vec) : KeepsCanonical s (applyDebug s c r w) := by
  unfold applyDebug
  cases r with dsimp only
  | ctxSel => exact canonical_refl s
  | maddr => exact canonical_refl s
  | pc => exact setCtx_canonical ..
  | g r => exact canonical_ite (canonical_refl s) (setG_canonical ..)
  | l i => exact setCtx_canonical ..
  | k i => exact setV_canonical ..
  | v i => exact setV_canonical ..
  | st j => exact setCtx_canonical ..
  | h i => exact canonical_of_view rfl

theorem applyHeld_canonical (s : State) : KeepsCanonical s (applyHeld s) :=
  (canonical_foldl (fun t (d : Fin 8 × DbgReg × Vec) => applyDebug_canonical t d.1 d.2.1 d.2.2) _ s).trans (setCore_canonical ..)

theorem thaw_canonical (s : State) : KeepsCanonical s (thaw s) := canonical_ite (canonical_refl s) (serveAll_canonical s)

theorem resumeCtx_canonical (s : State) (c : Fin 8) (skip : Nat) : KeepsCanonical s (resumeCtx s c skip) := by
  unfold resumeCtx
  dsimp only
  refine (applyHeld_canonical s).trans ?_
  exact ((setCtx_canonical ..).trans (setCore_canonical ..)).trans (thaw_canonical _)

theorem resumeSaved_canonical (s : State) (launch : Option Nat) (c : Fin 8) (skip : Nat) :
    KeepsCanonical s (resumeSaved s launch c skip) := by
  refine ⟨fun ⟨hmem, hdescs, hsaved, himage⟩ => ⟨hmem, hdescs, fun r hr => ?_, himage⟩⟩
  obtain ⟨q, hq, rfl⟩ := List.mem_map.mp hr
  split
  · exact hsaved q hq
  · exact hsaved q hq

theorem resumeFor_canonical (s : State) (p : FaultPacket) (skip : Nat) : KeepsCanonical s (resumeFor s p skip) :=
  canonical_ite (resumeCtx_canonical ..) (resumeSaved_canonical ..)

theorem setCtxsCore_canonical (s : State) (x : Vector Ctx 8) (c : CoreRegs) : KeepsCanonical s { s with ctxs := x, core := c } :=
  canonical_of_view rfl

theorem resumeAll_canonical (s : State) : KeepsCanonical s (resumeAll s) := by
  unfold resumeAll
  refine canonical_ite (canonical_refl s) ?_
  dsimp only
  refine (applyHeld_canonical s).trans (KeepsCanonical.trans ?_ (thaw_canonical _))
  exact setCtxsCore_canonical ..

/-! ### Policies (R308, R309) -/

theorem moveGroup_canonical (s : State) (l : Launch) (p : BitVec 32) : KeepsCanonical s (moveGroup s l p) :=
  ((setLaunch_canonical ..).trans (clearAccs_canonical _)).trans (canonical_of_view rfl)

theorem restartGroup_canonical (s : State) (l : Launch) : KeepsCanonical s (restartGroup s l) := by
  have hspad := (stopCore_canonical s).trans (setSpad_canonical (stopCore s) (launchImage s l))
  unfold restartGroup
  refine KeepsCanonical.trans (KeepsCanonical.trans ?_ (startGroup_canonical _ l _)) (dropPackets_canonical _ _)
  generalize setSpad (stopCore s) (launchImage s l) = u at hspad ⊢
  generalize spareCore u = place
  generalize s.core.restarts = n
  refine hspad.trans ?_
  have hrun (v : State) (c : CoreRegs) : KeepsCanonical v { v.tickChoice with core := c } :=
    (tickChoice_canonical v).trans (setCore_canonical ..)
  cases place with
  | none => exact (setCore_canonical ..).trans (hrun _ _)
  | some p => exact (moveGroup_canonical u l p).trans (hrun _ _)

theorem applyPolicy_canonical (s : State) (p : FaultPacket) : KeepsCanonical s (applyPolicy s p) := by
  unfold applyPolicy
  split
  · exact canonical_refl s
  · exact canonical_ite (setMod_canonical _ _ rfl)
      (canonical_ite (restartGroup_canonical ..) ((endLaunch_canonical ..).trans (logEvent_canonical ..)))

theorem execFaultPacket_canonical (s : State) : OutCanonical s (execFaultPacket s) := by
  unfold execFaultPacket
  split
  · exact outCanonical_refused ..
  next p _ =>
    dsimp only
    have htaken := setMod_canonical s { s.mod with inbox := s.mod.inbox.erase p } rfl
    exact outCanonical_ite (outCanonical_next htaken) (outCanonical_ite (outCanonical_next (htaken.trans (setMod_canonical _ _ rfl)))
      (outCanonical_next (htaken.trans (applyPolicy_canonical ..))))

theorem takePacketWhere_canonical {s t : State} {ok : FaultPacket → Bool} {p : FaultPacket} (h : takePacketWhere s ok = some (p, t)) :
    KeepsCanonical s t := by
  unfold takePacketWhere at h
  split at h
  · cases h
  · obtain ⟨-, rfl⟩ := Prod.mk.inj (Option.some.inj h)
    exact setMod_canonical _ _ rfl

theorem execDriverResumeFault_canonical (s : State) : OutCanonical s (execDriverResumeFault s) := by
  unfold execDriverResumeFault
  split
  · exact outCanonical_refused ..
  next h => exact outCanonical_next ((takePacketWhere_canonical h).trans (resumeFor_canonical ..))

theorem execDriverApplyPolicy_canonical (s : State) : OutCanonical s (execDriverApplyPolicy s) := by
  unfold execDriverApplyPolicy
  split
  · exact outCanonical_refused ..
  next h => exact outCanonical_next ((takePacketWhere_canonical h).trans (applyPolicy_canonical ..))

theorem execDriverAnswerTimeout_canonical (s : State) : OutCanonical s (execDriverAnswerTimeout s) := by
  unfold execDriverAnswerTimeout
  split
  · exact outCanonical_refused ..
  next h => exact outCanonical_next ((takePacketWhere_canonical h).trans (canonical_ite (canonical_refl _) (applyPolicy_canonical ..)))

theorem tlbDrop_canonical (s : State) (job page : Nat) : KeepsCanonical s (tlbDrop s job page) := canonical_of_view rfl

theorem setClu_canonical (s : State) (k : Cluster) : KeepsCanonical s { s with clu := k } := canonical_of_view rfl

theorem execPageMappingSupplied_canonical (va : Word) (s : State) : OutCanonical s (execPageMappingSupplied va s) := by
  unfold execPageMappingSupplied
  split
  · exact outCanonical_refused ..
  next p t h =>
    have hdropped := (takePacketWhere_canonical h).trans (tlbDrop_canonical t p.job.toNat (va.toNat / 65536))
    dsimp only
    split
    · exact outCanonical_next (hdropped.trans (resumeFor_canonical ..))
    · exact outCanonical_next (hdropped.trans (drainAll_canonical _))
    · exact outCanonical_next (hdropped.trans (setClu_canonical ..))

/-! ### Unsealing (R312) -/

theorem putZeros_wf (l : List Nat) (m : Cells) (h : Memory.wf m = true) :
    Memory.wf (l.foldl (fun m g => Memory.putBytes m (8 * g) (List.replicate 8 0)) m) = true := by
  induction l generalizing m with
  | nil => exact h
  | cons g l ih => exact ih _ (memory_putBytes_wf h)

theorem scrub_canonical (s : State) : KeepsCanonical s (scrub s) :=
  ⟨fun ⟨hmem, hdescs, hrest⟩ => ⟨putZeros_wf _ _ hmem, sparseFilter_wf _ hdescs, hrest⟩⟩

theorem setCtxsCoreMod_canonical (s : State) (x : Vector Ctx 8) (c : CoreRegs) (m : Module) (h : m.image = s.mod.image) :
    KeepsCanonical s { s with ctxs := x, core := c, mod := m } := canonical_of_view (by rw [view, h]; rfl)

theorem execDbgUnseal_canonical (s : State) : OutCanonical s (execDbgUnseal s) := by
  unfold execDbgUnseal
  dsimp only
  generalize Vector.ofFn _ = x
  refine outCanonical_next ((scrub_canonical s).trans (KeepsCanonical.trans ?_ (drainAll_canonical _)))
  exact setCtxsCoreMod_canonical _ x _ _ rfl

theorem peerUnsealed_canonical (s : State) (l : Nat) : KeepsCanonical s (peerUnsealed s l) := by
  unfold peerUnsealed
  dsimp only
  refine KeepsCanonical.trans ?_ (canonical_foldl (fun t c => resumeCtx_canonical t c 0) _ _)
  exact setCoreMod_canonical _ _ _ rfl

theorem sealWords_canonical (s : State) (p : Nat → Bool) (pid : BitVec 32) : KeepsCanonical s (sealWords s p pid) :=
  canonical_of_keeps sealWords_view

theorem peerSeals_canonical (s : State) : KeepsCanonical s (peerSeals s) := by
  unfold peerSeals
  dsimp only
  refine (tickChoice_canonical s).trans (canonical_ite (canonical_refl _) (canonical_ite (peerUnsealed_canonical ..) ?_))
  exact (setCore_canonical ..).trans (sealWords_canonical ..)

end Sys2Proof.Proofs
end

