-- ==== Sys2Proof/Proofs/SaveMemory.lean ====
section
/-! PROOFS. The debug window, soft errors, saves and resumptions keep memory in its canonical form (log 1). -/

namespace Sys2Proof.Proofs

open Sys2Proof.Machine Sys2Proof.Laws

/-! ### The debug window (R310) -/

theorem dealtWith_canonical (s : State) : KeepsCanonical s (dealtWith s) := setMod_canonical _ _ rfl

theorem execDbgResume_canonical (s : State) : OutCanonical s (execDbgResume s) := by
  unfold execDbgResume
  exact outCanonical_ite (outCanonical_next ((resumeAll_canonical s).trans (dealtWith_canonical _))) (outCanonical_next (canonical_refl s))

theorem execDbgStep_canonical (s : State) : OutCanonical s (execDbgStep s) := by
  have hgone := (resumeAll_canonical s).trans (dealtWith_canonical _)
  unfold execDbgStep
  refine outCanonical_ite ?_ (outCanonical_next (canonical_refl s))
  dsimp only
  generalize dealtWith (resumeAll s) = t at hgone ⊢
  exact outCanonical_next (hgone.trans (setCore_canonical ..))

theorem execDebugStepBreak_canonical (s : State) : OutCanonical s (execDebugStepBreak s) := by
  unfold execDebugStepBreak
  split
  · exact outCanonical_ite (outCanonical_next ((setCtx_canonical ..).trans (raise_canonical ..))) (outCanonical_refused ..)
  · exact outCanonical_refused ..

theorem execDbgSeal_canonical (s : State) : OutCanonical s (execDbgSeal s) :=
  outCanonical_next (canonical_of_keeps sealCore_view)

theorem setTags_canonical (s : State) (l : List Nat) : KeepsCanonical s { s with tags := l } := ⟨id⟩

theorem setPoison_canonical (s : State) (l : List Nat) : KeepsCanonical s { s with poison := l } := canonical_of_view rfl

theorem execDbgMdataWrite_canonical (v : Word) (s : State) : OutCanonical s (execDbgMdataWrite v s) := by
  have hkept := outCanonical_next (canonical_refl s)
  unfold execDbgMdataWrite
  refine outCanonical_ite hkept (outCanonical_ite (outCanonical_next (setTags_canonical ..)) ?_)
  split
  · exact outCanonical_next (poke_canonical ..)
  · exact outCanonical_next (poke_canonical ..)
  · exact outCanonical_next (setBytes_canonical ..)
  · exact hkept

theorem execDebugRegisterWrite_canonical (r : DbgReg) (v : Vec) (s : State) : OutCanonical s (execDebugRegisterWrite r v s) := by
  have hcore (c : CoreRegs) := outCanonical_next (setCore_canonical s c)
  have hkept := outCanonical_next (canonical_refl s)
  unfold execDebugRegisterWrite
  refine outCanonical_ite hkept ?_
  cases r with dsimp only
  | g r => exact outCanonical_ite hkept (hcore _)
  | _ => exact hcore _

/-! ### Paired launches (R313) -/

theorem raiseJob_canonical (s : State) (j : Job) (f : Flt) : KeepsCanonical s (raiseJob s j f) := by
  unfold raiseJob
  dsimp only
  exact ((raise_canonical s j.ctx f).trans (setCtx_canonical ..)).trans (setMod_canonical _ _ rfl)

theorem pairMismatch_canonical (twin : BitVec 32) (s : State) : OutCanonical s (pairMismatch twin s) := by
  unfold pairMismatch
  split
  · exact outCanonical_next ((setCtx_canonical ..).trans (raise_canonical ..))
  · exact outCanonical_next (raiseJob_canonical ..)
  · exact outCanonical_refused ..

theorem execPairHashArrival_canonical (hash : Word) (twin : BitVec 32) (s : State) : OutCanonical s (execPairHashArrival hash twin s) := by
  unfold execPairHashArrival
  split
  · exact outCanonical_next ((setCtx_canonical ..).trans (wakeAgain_canonical ..))
  · split
    · exact outCanonical_next (setJob_canonical ..)
    · exact pairMismatch_canonical ..

/-! ### Soft errors (R60, R227, R311) -/

theorem flipBytes_canonical (s : State) (loc n x : Nat) : KeepsCanonical s (flipBytes s loc n x) := setLoc_canonical ..

theorem flipBytes_descs (s : State) (loc n x : Nat) : (flipBytes s loc n x).descs = s.descs := rfl

theorem eccOutcome_canonical {s : State} {flips : Nat} {detected : Bool} {poisoned silent : State} (hp : KeepsCanonical s poisoned)
    (hs : KeepsCanonical s silent) : KeepsCanonical s (eccOutcome s flips detected poisoned silent) :=
  canonical_ite (canonical_refl s) (canonical_ite (hp.trans (logEvent_canonical ..)) hs)

theorem lineOutcome_canonical (s : State) (i : Nat) (f : BitVec 512) (d : Bool) : KeepsCanonical s (lineOutcome s i f d) := by
  unfold lineOutcome
  exact canonical_ite ((setClu_canonical ..).trans (logEvent_canonical ..)) (canonical_foldl (fun t k => flipBytes_canonical ..) _ _)

/-- A descriptor flipped, its block's parity as it is. -/
theorem flipDesc_canonical (s : State) (b : Nat) (d : BitVec 16) :
    KeepsCanonical s { s with descs := sparsePut (fun _ => 0) s.descs b d } := canonical_of_keeps (descSafe_canonical (view s) b d)

/-- A change of bytes with a descriptor flipped. -/
theorem flippedWith_canonical {s u : State} (h : KeepsCanonical s u) (hd : u.descs = s.descs) (b : Nat) (d : BitVec 16) :
    KeepsCanonical s { u with descs := sparsePut (fun _ => 0) s.descs b d } := by
  rw [← hd]
  exact h.trans (flipDesc_canonical ..)

theorem setBadParity_canonical (s : State) (l : List Nat) : KeepsCanonical s { s with badParity := l } := canonical_of_view rfl

theorem execSoftError_canonical (t : SoftTarget) (s : State) : OutCanonical s (execSoftError t s) := by
  unfold execSoftError
  cases t with dsimp only
  | spadData g f d =>
    exact outCanonical_ite (outCanonical_refused ..)
      (outCanonical_next (eccOutcome_canonical (setPoison_canonical ..) (flipBytes_canonical ..)))
  | spadDesc b f =>
    have hflip := flipDesc_canonical s b (descOf s b ^^^ f)
    exact outCanonical_ite (outCanonical_refused ..)
      (outCanonical_next (canonical_ite (hflip.trans (setBadParity_canonical ..)) hflip))
  | gReg c r => exact outCanonical_ite (outCanonical_refused ..) (outCanonical_next (setCtx_canonical ..))
  | vReg c v => exact outCanonical_next (setCtx_canonical ..)
  | hbmLine b f g d =>
    generalize hbmLoc + 64 * b = loc
    have hsilent := flippedWith_canonical (flipBytes_canonical s loc 64 f.toNat) (flipBytes_descs ..) (loc / 64) (descOf s (loc / 64) ^^^ g)
    generalize flipBytes s loc 64 f.toNat = u at hsilent ⊢
    split
    · exact outCanonical_refused ..
    · exact outCanonical_next (eccOutcome_canonical (setDesc_canonical ..) hsilent)
  | wline i f d =>
    split
    · exact outCanonical_refused ..
    · exact outCanonical_next (lineOutcome_canonical ..)
  | tile loc f =>
    split
    · exact outCanonical_refused ..
    · exact outCanonical_next (flipBytes_canonical ..)
  | boltrope t k f d =>
    exact outCanonical_ite (outCanonical_refused ..) (outCanonical_next (canonical_ite (setPoison_canonical ..) (flipBytes_canonical ..)))
  | tag w f d =>
    exact outCanonical_ite (outCanonical_refused ..) (outCanonical_next (canonical_ite (setPoison_canonical ..)
      (canonical_ite (setTags_canonical ..) (canonical_refl s))))
  | execution f => exact outCanonical_next (canonical_of_view rfl)

/-! ### Requests and the watchdog (R314, R320) -/

theorem execPreemptionRequest_canonical (s : State) : OutCanonical s (execPreemptionRequest s) :=
  outCanonical_ite (outCanonical_refused ..) (outCanonical_next (setCore_canonical ..))

theorem setCtxs_canonical (s : State) (x : Vector Ctx 8) : KeepsCanonical s { s with ctxs := x } := canonical_of_view rfl

theorem execForcedPark_canonical (s : State) : OutCanonical s (execForcedPark s) :=
  outCanonical_ite (outCanonical_next (setCtxs_canonical ..)) (outCanonical_refused ..)

theorem reachLimit_canonical (s : State) (c : Fin 8) (n : Nat) : KeepsCanonical s (reachLimit s c n) := setCtx_canonical ..

theorem execWatchdogStep1_canonical (c : Fin 8) (s : State) : OutCanonical s (execWatchdogStep1 c s) :=
  outCanonical_ite (outCanonical_next ((reachLimit_canonical ..).trans (setCore_canonical ..))) (outCanonical_refused ..)

theorem execWatchdogStep2_canonical (c : Fin 8) (s : State) : OutCanonical s (execWatchdogStep2 c s) :=
  outCanonical_ite (outCanonical_next ((reachLimit_canonical ..).trans (raise_canonical ..))) (outCanonical_refused ..)

theorem withdrawAll_canonical (s : State) : KeepsCanonical s (withdrawAll s) := canonical_of_view rfl

theorem execWatchdogStep3_canonical (c : Fin 8) (s : State) : OutCanonical s (execWatchdogStep3 c s) := by
  unfold execWatchdogStep3
  refine outCanonical_ite (outCanonical_next ?_) (outCanonical_refused ..)
  dsimp only
  have hgone := (reachLimit_canonical s c (limits s).2.2).trans (withdrawAll_canonical _)
  generalize withdrawAll (reachLimit s c (limits s).2.2) = t at hgone ⊢
  refine hgone.trans (KeepsCanonical.trans ?_ (logEvent_canonical ..))
  exact setCoreMod_canonical _ _ _ rfl

/-! ### Saves (R315 to R317, R321) -/

/-- A step that changes the saved records alone keeps the form where the records have it. -/
theorem canonical_of_saved {s t : State} (hmem : t.mem = s.mem) (hdescs : t.descs = s.descs) (himage : t.mod.image = s.mod.image)
    (hsaved : MemoryInv s → ∀ r ∈ t.saved, Memory.wf r.mem = true) : KeepsCanonical s t := by
  refine ⟨fun hs => ?_⟩
  obtain ⟨hm, hd, -, hi⟩ := id hs
  refine ⟨?_, ?_, hsaved hs, ?_⟩
  · rw [hmem]
    exact hm
  · rw [hdescs]
    exact hd
  · rw [himage]
    exact hi

theorem cellarStore_canonical (s : State) (j : JobEntry) (off : Nat) (bs : List Byte) : KeepsCanonical s (cellarStore s j off bs) :=
  store_canonical ..

theorem writeCellar_canonical (s : State) (job : Nat) : KeepsCanonical s (writeCellar s job) := by
  unfold writeCellar
  split
  · exact canonical_refl s
  next j _ =>
    dsimp only
    refine ((cellarStore_canonical s j 0 _).trans (cellarStore_canonical _ j _ _)).trans (canonical_foldl (fun u q => ?_) _ _)
    exact canonical_foldl (fun v (b : Nat × List Byte) => cellarStore_canonical v j (q.1 + b.1) b.2) _ u

theorem recordCore_wf {s : State} (h : Memory.wf s.mem = true) : Memory.wf (recordCore s).mem = true := memory_filter_wf _ h

theorem leaveLines_canonical (s : State) (job : Nat) : KeepsCanonical s (leaveLines s job) :=
  canonical_ite (tickChoice_canonical s) ((tickChoice_canonical s).trans (setClu_canonical ..))

theorem view_left (s : State) (job : Nat) : view (leaveLines (settle (withdrawPubls s)) job) = view s := by
  unfold leaveLines
  split <;> rfl

theorem execCoreSave_canonical (s : State) : OutCanonical s (execCoreSave s) := by
  unfold execCoreSave
  refine outCanonical_ite (outCanonical_next ?_) (outCanonical_refused ..)
  dsimp only
  refine KeepsCanonical.trans ?_ (writeCellar_canonical ..)
  refine KeepsCanonical.trans (KeepsCanonical.trans ?_ (freeCore_canonical _)) (setCore_canonical ..)
  have hview := view_left s (curJobId s)
  generalize leaveLines (settle (withdrawPubls s)) (curJobId s) = t at hview ⊢
  refine canonical_of_saved (congrArg MemView.mem hview) (congrArg MemView.descs hview) (congrArg MemView.image hview) fun hs r hr => ?_
  obtain ⟨hmem, -, hsaved, -⟩ := hs
  rcases List.mem_append.mp hr with hr | hr
  · exact hsaved r hr
  · exact List.mem_singleton.mp hr ▸ recordCore_wf hmem

theorem discardCtx_wf {s : State} {r : SavedCore} {c : Fin 8} (h : Memory.wf r.mem = true) : Memory.wf (discardCtx s r c).mem = true :=
  memory_filter_wf _ h

theorem execSaveCapExpiry_canonical (c : Fin 8) (s : State) : OutCanonical s (execSaveCapExpiry c s) := by
  unfold execSaveCapExpiry
  split
  · exact outCanonical_refused ..
  next r hlast =>
    refine outCanonical_ite ?_ (outCanonical_refused ..)
    have hdiscard : KeepsCanonical s { s.tickChoice with saved := s.saved.dropLast ++ [discardCtx s r c] } := by
      refine canonical_of_saved rfl rfl rfl fun hs q hq => ?_
      obtain ⟨-, -, hsaved, -⟩ := hs
      rcases List.mem_append.mp hq with hq | hq
      · exact hsaved q (List.mem_of_mem_dropLast hq)
      · exact List.mem_singleton.mp hq ▸ discardCtx_wf (hsaved r (List.mem_of_getLast? hlast))
    dsimp only
    refine outCanonical_next ?_
    split
    · exact hdiscard.trans (writeCellar_canonical ..)
    · exact hdiscard

/-! ### Resumptions (R319) -/

theorem putCells_wf (l : Cells) (m : Cells) (h : Memory.wf m = true) : Memory.wf (l.foldl (fun m c => Memory.put m c.1 c.2) m) = true := by
  induction l generalizing m with
  | nil => exact h
  | cons c l ih => exact ih _ (memory_put_wf h)

theorem putDescs_wf (l : List (Nat × BitVec 16)) (d : List (Nat × BitVec 16)) (h : sparseWf (fun _ => (0 : BitVec 16)) 0 d = true) :
    sparseWf (fun _ => (0 : BitVec 16)) 0 (l.foldl (fun d e => sparsePut (fun _ => 0) d e.1 e.2) d) = true := by
  induction l generalizing d with
  | nil => exact h
  | cons e l ih => exact ih _ (sparsePut_wf h (Nat.zero_le _))

theorem rebuildCore_canonical (s : State) (r : SavedCore) : KeepsCanonical s (rebuildCore s r) := by
  have hfresh := ((setSpad_canonical s []).trans (clearAccs_canonical _)).trans (resetBank_canonical _)
  unfold rebuildCore
  refine KeepsCanonical.trans ?_ (settleBank_canonical _)
  generalize resetBank (clearAccs (setSpad s [])) = t at hfresh ⊢
  refine hfresh.trans ⟨fun ⟨hmem, hdescs, hrest⟩ => ⟨putCells_wf _ _ hmem, putDescs_wf _ _ hdescs, hrest⟩⟩

theorem eraseSaved_canonical (s : State) (r : SavedCore) : KeepsCanonical s { s with saved := s.saved.erase r } :=
  canonical_of_saved rfl rfl rfl fun hs q hq => hs.2.2.1 q (List.mem_of_mem_erase hq)

theorem execCoreResumption_canonical (s : State) : OutCanonical s (execCoreResumption s) := by
  unfold execCoreResumption
  dsimp only
  split
  · exact outCanonical_refused ..
  next r _ =>
    refine outCanonical_ite (outCanonical_refused ..) (outCanonical_next ?_)
    refine KeepsCanonical.trans ?_ (canonical_foldl (fun t c => raise_canonical ..) _ _)
    exact ((tickChoice_canonical s).trans (eraseSaved_canonical _ r)).trans (rebuildCore_canonical ..)

end Sys2Proof.Proofs
end

