-- ==== Sys2Proof/Proofs/ControlMemory.lean ====
section
/-! PROOFS. The launch unit, the control queue, freezes and the host's accesses keep memory in its canonical form (log 1). -/

namespace Sys2Proof.Proofs

open Sys2Proof.Machine Sys2Proof.Laws

/-! ### Launch queues (R331 to R333) -/

theorem setQueue_canonical (s : State) (q : LaunchQueue) : KeepsCanonical s (setQueue s q) := setMod_canonical _ _ rfl

theorem setErr_canonical (s : State) (bit : Nat) : KeepsCanonical s (setErr s bit) := setMod_canonical _ _ rfl

theorem takeSlot_canonical (s : State) (q : LaunchQueue) (h : QHeader) : KeepsCanonical s (takeSlot s q h) :=
  (jobWrite_canonical ..).trans (jobWrite_canonical ..)

theorem writeRecord_canonical (s : State) (job compl seq result reason : Nat) :
    KeepsCanonical s (writeRecord s job compl seq result reason) :=
  ((observeTick_canonical s).trans (jobWrite_canonical ..)).trans (jobWrite_canonical ..)

theorem completePacket_canonical (s : State) (hdr job compl seq result reason : Nat) :
    KeepsCanonical s (completePacket s hdr job compl seq result reason) := by
  unfold completePacket
  dsimp only
  refine (writeRecord_canonical s job compl seq result reason).trans ?_
  generalize writeRecord s job compl seq result reason = t
  split
  next q db _ _ =>
    generalize advanceDone _ _ _ = r
    have hqueue := setQueue_canonical t { q with done := r.2 }
    refine canonical_ite hqueue ?_
    have hdone := hqueue.trans (jobWrite_canonical _ job (hdr + 0x24) (leBytes 4 r.1) true)
    split
    · exact hdone.trans (setMod_canonical _ _ rfl)
    · exact hdone
  · exact canonical_refl t

theorem stopQueue_canonical (s : State) (q : LaunchQueue) : KeepsCanonical s (stopQueue s q) :=
  (setQueue_canonical ..).trans (setErr_canonical ..)

theorem execLaunchPacket_canonical (q : Nat) (s : State) : OutCanonical s (execLaunchPacket q s) := by
  unfold execLaunchPacket
  split
  · exact outCanonical_refused ..
  next q _ =>
    split
    · exact outCanonical_refused ..
    · exact outCanonical_next (stopQueue_canonical ..)
    next h raw _ =>
      refine outCanonical_ite (outCanonical_refused ..) ?_
      dsimp only
      have htick := observeTick_canonical s
      generalize observeTick s = t at htick ⊢
      split
      next l _ =>
        have hroom : KeepsCanonical t (if urgent t q l = true then { t with core := { t.core with preempt := true } } else t) :=
          canonical_ite (setCore_canonical ..) (canonical_refl t)
        generalize (if urgent t q l = true then { t with core := { t.core with preempt := true } } else t : State) = u at hroom ⊢
        refine outCanonical_next ((htick.trans hroom).trans (KeepsCanonical.trans ?_ (takeSlot_canonical _ q h)))
        exact setMod_canonical _ _ rfl
      · exact outCanonical_next ((htick.trans (completePacket_canonical ..)).trans (takeSlot_canonical ..))

theorem execLaunchNoopPacket_canonical (q : Nat) (s : State) : OutCanonical s (execLaunchNoopPacket q s) := by
  unfold execLaunchNoopPacket
  split
  · exact outCanonical_refused ..
  · split
    · exact outCanonical_ite (outCanonical_refused ..) (outCanonical_next ((completePacket_canonical ..).trans (takeSlot_canonical ..)))
    · exact outCanonical_refused ..

/-! ### Grants, gangs and completion (R322, R323, R332, R337) -/

theorem execCoreGrant_canonical (l : Nat) (s : State) : OutCanonical s (execCoreGrant l s) := by
  unfold execCoreGrant
  split
  · exact outCanonical_refused ..
  · exact outCanonical_ite (outCanonical_refused ..) (outCanonical_next ((prepareCore_canonical ..).trans (setLaunch_canonical ..)))

theorem reachTick_canonical (s : State) (t : Nat) : KeepsCanonical s (reachTick s t) := setMod_canonical _ _ rfl

theorem execLaunchStarttick_canonical (l : Nat) (s : State) : OutCanonical s (execLaunchStarttick l s) := by
  unfold execLaunchStarttick
  split
  · exact outCanonical_refused ..
  · split
    · exact outCanonical_refused ..
    · exact outCanonical_ite (outCanonical_refused ..) (outCanonical_next ((reachTick_canonical ..).trans (setLaunch_canonical ..)))

theorem execGangAcceptance_canonical (m l : Nat) (s : State) : OutCanonical s (execGangAcceptance m l s) := by
  unfold execGangAcceptance
  split
  · exact outCanonical_ite (outCanonical_ite (outCanonical_next (canonical_refl s)) (outCanonical_next (setLaunch_canonical ..)))
      (outCanonical_refused ..)
  · exact outCanonical_refused ..

theorem execGangDeadline_canonical (l : Nat) (s : State) : OutCanonical s (execGangDeadline l s) := by
  unfold execGangDeadline
  split
  · exact outCanonical_refused ..
  · split
    · exact outCanonical_refused ..
    next l _ t _ =>
      refine outCanonical_ite (outCanonical_refused ..) (outCanonical_next ?_)
      dsimp only
      refine (reachTick_canonical s (t - 10000)).trans ?_
      generalize reachTick s (t - 10000) = u
      refine KeepsCanonical.trans ?_ (endLaunch_canonical ..)
      exact setMod_canonical _ _ rfl

theorem execGangWithdrawal_canonical (l : Nat) (s : State) : OutCanonical s (execGangWithdrawal l s) := by
  unfold execGangWithdrawal
  split
  · exact outCanonical_refused ..
  · exact outCanonical_ite (outCanonical_refused ..) (outCanonical_ite
      (outCanonical_next ((endLaunch_canonical ..).trans (logEvent_canonical ..))) (outCanonical_next (endLaunch_canonical ..)))

theorem execLaunchCompletion_canonical (l : Nat) (s : State) : OutCanonical s (execLaunchCompletion l s) := by
  unfold execLaunchCompletion
  split
  · exact outCanonical_refused ..
  next l _ =>
    refine outCanonical_ite (outCanonical_refused ..) (outCanonical_next ?_)
    dsimp only
    generalize l.result.getD (0, 0) = r
    refine (completePacket_canonical s l.queue l.job l.compl l.seq r.1 r.2).trans ?_
    generalize completePacket s l.queue l.job l.compl l.seq r.1 r.2 = t
    have hfree := (leaveLines_canonical t l.job).trans (freeCore_canonical _)
    generalize freeCore (leaveLines t l.job) = u at hfree ⊢
    have hleft : KeepsCanonical t (if t.core.launch = some l.id ∧ (jobEntry t l.job).isNone = false then u else t) :=
      canonical_ite hfree (canonical_refl t)
    generalize (if t.core.launch = some l.id ∧ (jobEntry t l.job).isNone = false then u else t : State) = v at hleft ⊢
    exact hleft.trans (setMod_canonical _ _ rfl)

theorem invalidateLines_canonical (s : State) (job : Nat) : KeepsCanonical s (invalidateLines s job) := setClu_canonical ..

theorem setCluMod_canonical (s : State) (k : Cluster) (m : Module) (h : m.image = s.mod.image) :
    KeepsCanonical s { s with clu := k, mod := m } := canonical_of_view (by rw [view, h]; rfl)

theorem execRetirementAck_canonical (job : Nat) (s : State) : OutCanonical s (execRetirementAck job s) := by
  unfold execRetirementAck
  refine outCanonical_ite (outCanonical_next ?_) (outCanonical_refused ..)
  dsimp only
  have hlines := invalidateLines_canonical s job
  generalize invalidateLines s job = t at hlines ⊢
  have hfree : KeepsCanonical t (if (t.core.launch.isSome && (curLaunch t).isNone) = true then freeCore t else t) :=
    canonical_ite (freeCore_canonical t) (canonical_refl t)
  generalize (if (t.core.launch.isSome && (curLaunch t).isNone) = true then freeCore t else t) = u at hfree ⊢
  exact (hlines.trans hfree).trans (setCluMod_canonical _ _ _ rfl)

theorem execQuantumBoundary_canonical (charges : List Charge) (s : State) : OutCanonical s (execQuantumBoundary charges s) :=
  outCanonical_next (setCoreMod_canonical _ _ _ rfl)

/-! ### The control queue (R331, R338) -/

theorem ctlWrite_canonical (s : State) (a : Nat) (bs : List Byte) (release : Bool) : KeepsCanonical s (ctlWrite s a bs release) := by
  unfold ctlWrite
  split
  · exact unitStore_canonical ..
  · exact canonical_refl s

theorem ctlTake_canonical (s : State) (h : QHeader) : KeepsCanonical s (ctlTake s h) :=
  (ctlWrite_canonical ..).trans (ctlWrite_canonical ..)

theorem ctlComplete_canonical (s : State) (compl seq result reason : Nat) : KeepsCanonical s (ctlComplete s compl seq result reason) :=
  (((observeTick_canonical s).trans (ctlWrite_canonical ..)).trans (ctlWrite_canonical ..)).trans (ctlWrite_canonical ..)

theorem ctlCommand_canonical {s : State} {op : Nat → Bool} {used : List (Nat × Nat)} {k : State → List Byte → Option State}
    (hk : ∀ raw t, k s raw = some t → KeepsCanonical s t) : OutCanonical s (ctlCommand s op used k) := by
  unfold ctlCommand
  split
  · exact outCanonical_refused ..
  next raw _ =>
    refine outCanonical_ite (outCanonical_refused ..) ?_
    dsimp only
    split
    next t ht =>
      have heffect : KeepsCanonical s t := by
        rcases ite_eq_iff.mp ht with ⟨-, ht⟩ | ⟨-, ht⟩
        · exact hk _ _ ht
        · cases ht
      exact outCanonical_next ((heffect.trans (ctlComplete_canonical ..)).trans (ctlTake_canonical ..))
    · exact outCanonical_next ((ctlComplete_canonical ..).trans (ctlTake_canonical ..))

theorem execControlNop_canonical (s : State) : OutCanonical s (execControlNop s) := by
  refine ctlCommand_canonical fun raw t ht => ?_
  rcases ite_eq_iff.mp ht with ⟨-, ht⟩ | ⟨-, ht⟩
  · exact Option.some.inj ht ▸ canonical_refl s
  · cases ht

theorem newCellar_canonical (s : State) (cel len : Nat) : KeepsCanonical s (newCellar s cel len) :=
  canonical_ite (canonical_refl s) ((store_canonical ..).trans (store_canonical ..))

theorem execJobnew_canonical (s : State) : OutCanonical s (execJobnew s) := by
  refine ctlCommand_canonical fun raw t ht => ?_
  dsimp only at ht
  split at ht
  · cases ht
  · rcases ite_eq_iff.mp ht with ⟨-, ht⟩ | ⟨-, ht⟩
    · cases ht
    · have hcellar := newCellar_canonical s (rfield raw 0x28 8) (rfield raw 0x30 8)
      generalize newCellar s (rfield raw 0x28 8) (rfield raw 0x30 8) = u at hcellar ht
      exact Option.some.inj ht ▸ hcellar.trans (setMod_canonical _ _ rfl)

theorem execRegq_canonical (s : State) : OutCanonical s (execRegq s) := by
  refine ctlCommand_canonical fun raw t ht => ?_
  rcases ite_eq_iff.mp ht with ⟨-, ht⟩ | ⟨-, ht⟩
  · cases ht
  · exact Option.some.inj ht ▸ setMod_canonical _ _ rfl

theorem execUnregq_canonical (s : State) : OutCanonical s (execUnregq s) := by
  refine ctlCommand_canonical fun raw t ht => ?_
  rcases ite_eq_iff.mp ht with ⟨-, ht⟩ | ⟨-, ht⟩
  · exact Option.some.inj ht ▸ setMod_canonical _ _ rfl
  · cases ht

theorem killJob_canonical (s : State) (job : Nat) : KeepsCanonical s (killJob s job) := by
  unfold killJob
  dsimp only
  refine KeepsCanonical.trans ((logEvent_canonical s (.kill job)).trans ?_) (setMod_canonical _ _ rfl)
  exact canonical_foldl (fun _ _ => endLaunch_canonical ..) _ _

theorem execKill_canonical (s : State) : OutCanonical s (execKill s) := by
  refine ctlCommand_canonical fun raw t ht => ?_
  rcases ite_eq_iff.mp ht with ⟨-, ht⟩ | ⟨-, ht⟩
  · exact Option.some.inj ht ▸ killJob_canonical ..
  · cases ht

theorem execPubreg_canonical (s : State) : OutCanonical s (execPubreg s) := by
  refine ctlCommand_canonical fun raw t ht => ?_
  dsimp only at ht
  split at ht
  · cases ht
  next l _ =>
    rcases ite_eq_iff.mp ht with ⟨-, ht⟩ | ⟨-, ht⟩
    · cases ht
    · refine Option.some.inj ht ▸ (unitStore_canonical s false l _).trans (setMod_canonical _ _ rfl)

/-! ### Freeze and resumption (R324, R346, R347) -/

theorem ctlDefer_canonical {s : State} {op : Nat} {used : List (Nat × Nat)} {k : State → List Byte → TickCmd → Except Nat State}
    (hk : ∀ u raw c t, k u raw c = .ok t → KeepsCanonical u t) : OutCanonical s (ctlDefer s op used k) := by
  unfold ctlDefer
  split
  · exact outCanonical_refused ..
  next raw _ =>
    refine outCanonical_ite (outCanonical_refused ..) ?_
    dsimp only
    refine OutCanonical.after (observeTick_canonical s) ?_
    generalize observeTick s = u
    split
    next t ht =>
      have heffect : KeepsCanonical u t := by
        rcases ite_eq_iff.mp ht with ⟨-, ht⟩ | ⟨-, ht⟩
        · exact hk _ _ _ _ ht
        · cases ht
      refine outCanonical_next (heffect.trans (KeepsCanonical.trans ?_ (ctlTake_canonical _ _)))
      exact setMod_canonical _ _ rfl
    · exact outCanonical_next ((ctlComplete_canonical ..).trans (ctlTake_canonical ..))

theorem execFreeze_canonical (s : State) : OutCanonical s (execFreeze s) := by
  refine ctlDefer_canonical fun u raw c t ht => ?_
  rcases ite_eq_iff.mp ht with ⟨-, ht⟩ | ⟨-, ht⟩
  · cases ht
  · rcases ite_eq_iff.mp ht with ⟨-, ht⟩ | ⟨-, ht⟩
    · cases ht
    · exact Except.ok.inj ht ▸ setMod_canonical _ _ rfl

theorem execResume_canonical (s : State) : OutCanonical s (execResume s) := by
  refine ctlDefer_canonical fun u raw c t ht => ?_
  rcases ite_eq_iff.mp ht with ⟨-, ht⟩ | ⟨-, ht⟩
  · cases ht
  · exact Except.ok.inj ht ▸ setMod_canonical _ _ rfl

theorem execFreezeTick_canonical (s : State) : OutCanonical s (execFreezeTick s) := by
  unfold execFreezeTick
  split
  · exact outCanonical_refused ..
  next c _ =>
    refine outCanonical_ite (outCanonical_refused ..) (outCanonical_next ?_)
    dsimp only
    refine (reachTick_canonical s c.tick).trans ?_
    generalize reachTick s c.tick = t
    exact setCoreMod_canonical _ _ _ rfl

theorem writeImage_canonical (s : State) (bufs : List (Nat × Nat)) : KeepsCanonical s (writeImage s bufs) :=
  (tickChoice_canonical s).trans (canonical_foldl (fun _ _ => store_canonical ..) _ _)

/-- The records that go into an image are those that were saved. -/
theorem imageTaken_canonical {s t : State} (c : TickCmd) (m : Module) (h : KeepsCanonical s t) (hm : m.image = some (imageOf s c)) :
    KeepsCanonical s { t with saved := [], mod := m } := by
  refine ⟨fun hs => ?_⟩
  obtain ⟨hmem, hdescs, -, -⟩ := h.inv hs
  obtain ⟨-, -, hsaved, -⟩ := hs
  refine ⟨hmem, hdescs, (fun _ hr => nomatch hr), fun i hi => ?_⟩
  cases hm.symm.trans hi
  exact hsaved

theorem execFreezeImageComplete_canonical (s : State) : OutCanonical s (execFreezeImageComplete s) := by
  unfold execFreezeImageComplete
  split
  · exact outCanonical_refused ..
  next c _ =>
    refine outCanonical_ite (outCanonical_refused ..) (outCanonical_next ?_)
    dsimp only
    have hwritten := (writeImage_canonical s c.bufs).trans (ctlComplete_canonical _ c.compl c.seq 0 0)
    generalize ctlComplete (writeImage s c.bufs) c.compl c.seq 0 0 = t at hwritten ⊢
    exact imageTaken_canonical c _ hwritten rfl

theorem loseLaunch_canonical (s : State) (l : Launch) : KeepsCanonical s (loseLaunch s l) :=
  (endLaunch_canonical ..).trans (logEvent_canonical ..)

theorem remapLaunch_canonical (pairs : List (Nat × Nat)) (s : State) (l : Launch) : KeepsCanonical s (remapLaunch pairs s l) := by
  unfold remapLaunch
  split
  · exact canonical_refl s
  · split
    · exact canonical_ite (setLaunch_canonical ..) (loseLaunch_canonical ..)
    · exact loseLaunch_canonical ..

theorem settleLaunch_canonical (pairs : List (Nat × Nat)) (s : State) (l : Launch) : KeepsCanonical s (settleLaunch pairs s l) := by
  have hmap := remapLaunch_canonical pairs s l
  unfold settleLaunch
  dsimp only
  split
  · exact canonical_ite hmap (hmap.trans (loseLaunch_canonical ..))
  · exact hmap

theorem takeImage_canonical (s : State) (im : Image) : KeepsCanonical s (takeImage s im) := by
  refine ⟨fun ⟨hmem, hdescs, hsaved, himage⟩ => ⟨putCells_wf _ _ hmem, putDescs_wf _ _ hdescs, fun r hr => ?_, himage⟩⟩
  rcases List.mem_append.mp hr with hr | hr
  · exact hsaved r hr
  · obtain ⟨q, -, rfl⟩ := List.mem_map.mp hr
    exact putCells_wf q.mem [] rfl

theorem restoreImage_canonical (s : State) (im : Image) : KeepsCanonical s (restoreImage s im) := by
  unfold restoreImage
  split
  next own hown =>
    refine canonical_ite (canonical_of_saved rfl rfl rfl fun hs r hr => ?_) (takeImage_canonical ..)
    obtain ⟨-, -, hsaved, himage⟩ := hs
    rcases List.mem_append.mp hr with hr | hr
    · exact hsaved r hr
    · exact himage own hown r hr
  · exact takeImage_canonical ..

/-- A module whose image is given up, or is as it was. -/
theorem imageKept_canonical (s : State) (m : Module) (h : m.image = none ∨ m.image = s.mod.image) : KeepsCanonical s { s with mod := m } := by
  rcases h with h | h
  · refine ⟨fun ⟨hmem, hdescs, hsaved, _⟩ => ⟨hmem, hdescs, hsaved, fun i hi => ?_⟩⟩
    cases h.symm.trans hi
  · exact setMod_canonical _ _ h

theorem execResumeTick_canonical (s : State) : OutCanonical s (execResumeTick s) := by
  unfold execResumeTick
  split
  · exact outCanonical_refused ..
  next c _ =>
    split
    · refine outCanonical_next (KeepsCanonical.trans ?_ (ctlComplete_canonical ..))
      exact setMod_canonical _ _ rfl
    next im _ =>
      dsimp only
      generalize imageLaunches s im = ids
      generalize ownImage s im = own
      have hrestored := (reachTick_canonical s c.tick).trans (restoreImage_canonical _ im)
      generalize restoreImage (reachTick s c.tick) im = t at hrestored ⊢
      refine outCanonical_next (hrestored.trans (KeepsCanonical.trans ?_ (ctlComplete_canonical ..)))
      refine KeepsCanonical.trans ?_ (canonical_foldl (fun _ _ => settleLaunch_canonical ..) _ _)
      refine imageKept_canonical _ _ ?_
      cases own
      · exact .inr rfl
      · exact .inl rfl

/-! ### Registers (R342, R343) -/

theorem execCtlqBlockedTimeout_canonical (s : State) : OutCanonical s (execCtlqBlockedTimeout s) := by
  unfold execCtlqBlockedTimeout
  split
  · exact outCanonical_refused ..
  · exact outCanonical_ite (outCanonical_next (setErr_canonical ..)) (outCanonical_refused ..)

theorem execModnumWrite_canonical (v : Word) (s : State) : OutCanonical s (execModnumWrite v s) :=
  outCanonical_ite (outCanonical_refused ..) (outCanonical_ite (outCanonical_next (canonical_refl s))
    (outCanonical_next (setMod_canonical _ _ rfl)))

theorem execFeataccWrite_canonical (i : Fin 4) (v : Word) (s : State) : OutCanonical s (execFeataccWrite i v s) :=
  outCanonical_ite (outCanonical_refused ..) (outCanonical_ite (outCanonical_next (setErr_canonical ..))
    (outCanonical_next (setMod_canonical _ _ rfl)))

theorem execCtlqWrite_canonical (v : Word) (s : State) : OutCanonical s (execCtlqWrite v s) :=
  outCanonical_ite (outCanonical_refused ..) (outCanonical_ite (outCanonical_next (setErr_canonical ..))
    (outCanonical_next (setMod_canonical _ _ rfl)))

theorem execErrWrite_canonical (v : Word) (s : State) : OutCanonical s (execErrWrite v s) :=
  outCanonical_ite (outCanonical_refused ..) (outCanonical_next (setMod_canonical _ _ rfl))

/-! ### The host's accesses (R340, R341, R353, R355) -/

theorem reply_canonical (s : State) (r : HostReply) : KeepsCanonical s (reply s r) := setMod_canonical _ _ rfl

theorem execHostRead_canonical (off len : Nat) (s : State) : OutCanonical s (execHostRead off len s) :=
  outCanonical_ite (outCanonical_refused ..) (outCanonical_ite (outCanonical_next (reply_canonical ..))
    (outCanonical_next (reply_canonical ..)))

theorem writeStored_canonical (s : State) (p : Nat) (bs : List Byte) : KeepsCanonical s (writeStored s p bs) := by
  unfold writeStored
  split
  · exact store_canonical ..
  · exact canonical_ite ((tickChoice_canonical s).trans (store_canonical ..)) (canonical_ite (store_canonical ..) (store_canonical ..))

theorem writeBlocks_canonical (n : Nat) (s : State) (p : Nat) (bs : List Byte) : KeepsCanonical s (writeBlocks n s p bs) := by
  induction n generalizing s p bs with
  | zero => exact canonical_refl s
  | succ n ih =>
    rw [writeBlocks]
    exact canonical_ite (canonical_refl s) ((writeStored_canonical ..).trans (ih ..))

theorem noteHost_canonical (s : State) (rmw : Bool) (off n : Nat) : KeepsCanonical s (noteHost s rmw off n) :=
  (noteOutside_canonical s 12 [] (some (.pod, .hbm)) rmw _).trans (canonical_of_view rfl)

theorem apertureWrite_canonical (s : State) (rmw : Bool) (off : Nat) (data : List Byte) :
    KeepsCanonical s (apertureWrite s rmw off data) := by
  unfold apertureWrite
  dsimp only
  generalize data.take (hbmSize - off) = bs
  refine canonical_ite (canonical_refl s) ?_
  refine (noteHost_canonical s rmw off bs.length).trans (KeepsCanonical.trans ?_ (canonical_foldl (fun _ _ => setDesc_canonical ..) _ _))
  exact canonical_ite (writeBlocks_canonical ..) (store_canonical ..)

theorem execHostWrite_canonical (off : Nat) (data : List Byte) (s : State) : OutCanonical s (execHostWrite off data s) :=
  outCanonical_ite (outCanonical_refused ..) (outCanonical_ite (outCanonical_next (canonical_refl s))
    (outCanonical_next (apertureWrite_canonical ..)))

theorem execHostAtomicop_canonical (op : AtomicOp) (z : AtSize) (off : Nat) (operand compare : Word) (s : State) :
    OutCanonical s (execHostAtomicop op z off operand compare s) := by
  unfold execHostAtomicop
  exact outCanonical_ite (outCanonical_refused ..) (outCanonical_ite (outCanonical_next (reply_canonical ..))
    (outCanonical_next ((apertureWrite_canonical ..).trans (reply_canonical ..))))

theorem execHostConfigRequest_canonical (port : Fin 4) (s : State) : OutCanonical s (execHostConfigRequest port s) :=
  outCanonical_ite (outCanonical_refused ..) (outCanonical_next (reply_canonical ..))

theorem execHostPortLinkChange_canonical (port : Fin 4) (up : Bool) (s : State) : OutCanonical s (execHostPortLinkChange port up s) :=
  outCanonical_ite (outCanonical_refused ..) (outCanonical_next (setMod_canonical _ _ rfl))

theorem execPerstChange_canonical (port : Fin 4) (asserted : Bool) (s : State) : OutCanonical s (execPerstChange port asserted s) :=
  outCanonical_next (setMod_canonical _ _ rfl)

end Sys2Proof.Proofs
end

