-- ==== Sys2Proof/Proofs/ModuleMemory.lean ====
section
/-! PROOFS. The pod links and the module's controller keep memory in its canonical form (log 1). -/

namespace Sys2Proof.Proofs

open Sys2Proof.Machine Sys2Proof.Laws

/-! ### Pod links (R282, R285, R345) -/

theorem setPort_canonical (s : State) (p : Fin 32) (x : PodPort) : KeepsCanonical s (setPort s p x) := setMod_canonical _ _ rfl

theorem receiveFlit_canonical {type : Nat} {port : Fin 32} {f : Flit} {s : State} {k : State → State} (hk : ∀ t, KeepsCanonical t (k t)) :
    OutCanonical s (receiveFlit type port f s k) := by
  have hport := setPort_canonical s port (receive (podPort s port) f.bytes)
  unfold receiveFlit
  exact outCanonical_ite (outCanonical_refused ..) (outCanonical_next (canonical_ite (hport.trans (hk _)) hport))

theorem execTimeFlitTimer_canonical (s : State) : OutCanonical s (execTimeFlitTimer s) := by
  unfold execTimeFlitTimer
  refine outCanonical_ite (outCanonical_refused ..) (outCanonical_next ?_)
  dsimp only
  refine (observeTick_canonical s).trans ?_
  generalize observeTick s = t
  exact setMod_canonical _ _ rfl

theorem sendMessage_canonical (s : State) : KeepsCanonical s (sendMessage s) := by
  unfold sendMessage
  dsimp only
  generalize sendFlit _ _ _ _ _ = y
  generalize routeTo _ = p
  refine (tickChoice_canonical s).trans (canonical_ite (canonical_refl _) ?_)
  exact (setPort_canonical s.tickChoice p y).trans (setMod_canonical _ _ rfl)

theorem replayFlits_canonical (s : State) : KeepsCanonical s (replayFlits s) :=
  (tickChoice_canonical s).trans (canonical_ite (canonical_refl _) (setPort_canonical ..))

theorem loseLink_canonical (s : State) (port : Fin 32) (replays : Nat) : KeepsCanonical s (loseLink s port replays) := by
  unfold loseLink
  dsimp only
  refine ((setPort_canonical s port _).trans (logEvent_canonical ..)).trans (canonical_foldl (fun t j => ?_) _ _)
  refine (tickChoice_canonical t).trans (canonical_ite ?_ (canonical_refl _))
  split
  · exact (loseCred_canonical ..).trans (setJob_canonical ..)
  · exact lostShort_canonical ..

theorem execLinkReplayLimit_canonical (port : Fin 32) (s : State) : OutCanonical s (execLinkReplayLimit port s) :=
  outCanonical_ite (outCanonical_refused ..) (outCanonical_next (loseLink_canonical ..))

theorem execLinkAckTimeout_canonical (port : Fin 32) (s : State) : OutCanonical s (execLinkAckTimeout port s) :=
  outCanonical_ite (outCanonical_refused ..) (outCanonical_next (loseLink_canonical ..))

theorem execPodLinkRetrain_canonical (port : Fin 32) (s : State) : OutCanonical s (execPodLinkRetrain port s) :=
  outCanonical_ite (outCanonical_refused ..) (outCanonical_next (setPort_canonical ..))

/-! ### Power (R350 to R354) -/

/-- Power comes up with nothing in memory. -/
theorem poweredUp_canonical (s : State) (bank : Fin 2) (stage : Nat) (rails : List Rail) : KeepsCanonical s (poweredUp s bank stage rails) :=
  ⟨fun _ => memoryInv_reset⟩

theorem fillHarvest_canonical (s : State) : KeepsCanonical s (fillHarvest s) := by
  unfold fillHarvest
  refine canonical_foldl (fun t r => ?_) _ _
  exact canonical_foldl (fun u k => canonical_ite (setBytes_canonical ..) (canonical_refl u)) _ t

theorem setStage_canonical (s : State) (n : Nat) : KeepsCanonical s (setStage s n) := setMod_canonical _ _ rfl

theorem logSteps_canonical (last : Nat) (s : State) : KeepsCanonical s (logSteps last s) := by
  have hsteps := canonical_foldl (f := fun t n => logEvent (setStage t (n + 1)) (.powerStep (n + 1)))
    (fun _ _ => (setStage_canonical ..).trans (logEvent_canonical ..)) (List.range last) s
  unfold logSteps
  exact canonical_ite (hsteps.trans (logEvent_canonical ..)) hsteps

theorem boot_canonical (s : State) (bank : Fin 2) : KeepsCanonical s (boot s bank) := by
  unfold boot
  dsimp only
  generalize (if bankSigned s bank = true then bank else otherBank bank) = b
  generalize reached s b = n
  have hup := ((tickChoice_canonical s).trans (tickChoice_canonical _)).trans
    (poweredUp_canonical s.tickChoice.tickChoice b 0 (railsAt n (Config.pick (s.choice + 1))))
  generalize poweredUp s.tickChoice.tickChoice b 0 (railsAt n (Config.pick (s.choice + 1))) = t at hup ⊢
  have hlogged : KeepsCanonical t (if bankSigned s bank = true then t else logEvent t .bankFallback) :=
    canonical_ite (canonical_refl t) (logEvent_canonical ..)
  generalize (if bankSigned s bank = true then t else logEvent t .bankFallback) = u at hlogged ⊢
  have hsteps := logSteps_canonical n u
  generalize logSteps n u = v at hsteps ⊢
  have hfilled : KeepsCanonical v (if 3 ≤ n then fillHarvest v else v) := canonical_ite (fillHarvest_canonical v) (canonical_refl v)
  generalize (if 3 ≤ n then fillHarvest v else v) = w at hfilled ⊢
  exact (((hup.trans hlogged).trans hsteps).trans hfilled).trans (setMod_canonical _ _ rfl)

theorem execStandbyPowerOn_canonical (s : State) : OutCanonical s (execStandbyPowerOn s) :=
  outCanonical_ite (outCanonical_refused ..) (outCanonical_next (boot_canonical ..))

theorem execModuleReset_canonical (s : State) : OutCanonical s (execModuleReset s) :=
  outCanonical_ite (outCanonical_refused ..) (outCanonical_next (boot_canonical ..))

theorem execFirmwareBootTimeout_canonical (s : State) : OutCanonical s (execFirmwareBootTimeout s) :=
  outCanonical_ite (outCanonical_refused ..) (outCanonical_next ((logEvent_canonical ..).trans (boot_canonical ..)))

theorem powerDown_canonical (s : State) : KeepsCanonical s (powerDown s) := setMod_canonical _ _ rfl

theorem execPowerGoodLoss_canonical (stage : Nat) (s : State) : OutCanonical s (execPowerGoodLoss stage s) :=
  outCanonical_ite (outCanonical_refused ..) (outCanonical_next ((logEvent_canonical ..).trans (powerDown_canonical _)))

theorem execStandbyPowerLoss_canonical (s : State) : OutCanonical s (execStandbyPowerLoss s) := by
  unfold execStandbyPowerLoss
  refine outCanonical_ite (outCanonical_refused ..) (outCanonical_next ?_)
  dsimp only
  exact (tickChoice_canonical s).trans (setMod_canonical _ _ rfl)

theorem execSensorSample_canonical (r : SensorReading) (s : State) : OutCanonical s (execSensorSample r s) := by
  unfold execSensorSample
  have hlogged (p : Spaly) (l : List Nat) : KeepsCanonical s
      (l.foldl (fun t i => logEvent t (.throttled i)) { s.tickChoice with mod := { s.mod with spaly := p } }) := by
    refine KeepsCanonical.trans ?_ (canonical_foldl (fun _ _ => logEvent_canonical ..) l _)
    exact (tickChoice_canonical s).trans (setMod_canonical _ _ rfl)
  refine outCanonical_ite (outCanonical_refused ..) ?_
  dsimp only
  split
  · exact outCanonical_next (hlogged _ _)
  · exact outCanonical_next (((hlogged _ _).trans (logEvent_canonical ..)).trans (powerDown_canonical _))

theorem execSetPowerCap_canonical (watts : Nat) (s : State) : OutCanonical s (execSetPowerCap watts s) := by
  unfold execSetPowerCap
  split
  · exact outCanonical_refused ..
  · split
    · exact outCanonical_next (setMod_canonical _ _ rfl)
    · exact outCanonical_next (canonical_refl s)

theorem execPldmFirmwareUpdate_canonical (image : List Byte) (signed : Bool) (s : State) :
    OutCanonical s (execPldmFirmwareUpdate image signed s) := by
  unfold execPldmFirmwareUpdate
  generalize bankSize = size
  exact outCanonical_ite (outCanonical_refused ..) (outCanonical_ite (outCanonical_next (canonical_refl s))
    (outCanonical_next (setMod_canonical _ _ rfl)))

theorem execSpdmRequest_canonical (index : Nat) (s : State) : OutCanonical s (execSpdmRequest index s) :=
  outCanonical_ite (outCanonical_refused ..) (outCanonical_next (setMod_canonical _ _ rfl))

end Sys2Proof.Proofs
end

