-- ==== Sys2Proof/Proofs/StepMemory.lean ====
section
/-! PROOFS. Every step keeps memory in its canonical form (log 1): each event, each encoded instruction, each fetch and each silent
step does. -/

namespace Sys2Proof.Proofs

open Sys2Proof.Machine Sys2Proof.Laws

/-! ### Instructions and events -/

/-- An event of the machine or its surroundings: what no word encodes. -/
theorem event_canonical {i : Instr} (hlen : i.len = 0) (s : State) : OutCanonical s (exec i s) := by
  cases i with dsimp only [exec]
  | xringCsrWrite csr value => exact execXringCsrWrite_canonical ..
  | groupStart => exact execGroupStart_canonical ..
  | contextWake c => exact execContextWake_canonical ..
  | waitwTimeout c => exact execWaitwTimeout_canonical ..
  | waittDeadline c => exact execWaittDeadline_canonical ..
  | yieldxExpiry c => exact execYieldxExpiry_canonical ..
  | bsyncComplete others clock => exact execBsyncComplete_canonical ..
  | xendComplete clock => exact execXendComplete_canonical ..
  | exchangeDelivery arrives => exact execExchangeDelivery_canonical ..
  | exchangeAbort => exact execExchangeAbort_canonical ..
  | feRequestArrival r => exact execFeRequestArrival_canonical ..
  | writeApply loc data => exact execWriteApply_canonical ..
  | pageWalk va => exact execPageWalk_canonical ..
  | jobLaunch id => exact execJobLaunch_canonical ..
  | engineHandlePush id => exact execEngineHandlePush_canonical ..
  | jobCompletion id others => exact execJobCompletion_canonical ..
  | publSwap c => exact execPublSwap_canonical ..
  | tremCommandArrival t => exact execTremCommandArrival_canonical ..
  | nbEventArrival e => exact execNbEventArrival_canonical ..
  | errorReply c peer => exact execErrorReply_canonical ..
  | faultPacket => exact execFaultPacket_canonical ..
  | driverResumeFault => exact execDriverResumeFault_canonical ..
  | driverApplyPolicy => exact execDriverApplyPolicy_canonical ..
  | driverAnswerTimeout => exact execDriverAnswerTimeout_canonical ..
  | dbgResume => exact execDbgResume_canonical ..
  | dbgStep => exact execDbgStep_canonical ..
  | debugStepBreak => exact execDebugStepBreak_canonical ..
  | dbgFreeze => exact outCanonical_next (setCore_canonical ..)
  | dbgSeal => exact execDbgSeal_canonical ..
  | dbgUnseal => exact execDbgUnseal_canonical ..
  | dbgMdataWrite value => exact execDbgMdataWrite_canonical ..
  | debugRegisterWrite r value => exact execDebugRegisterWrite_canonical ..
  | pairHashArrival hash twin => exact execPairHashArrival_canonical ..
  | pairHashTimeout twin => exact pairMismatch_canonical ..
  | preemptionRequest => exact execPreemptionRequest_canonical ..
  | forcedPark => exact execForcedPark_canonical ..
  | coreSave => exact execCoreSave_canonical ..
  | saveCapExpiry c => exact execSaveCapExpiry_canonical ..
  | coreResumption => exact execCoreResumption_canonical ..
  | watchdogStep1 c => exact execWatchdogStep1_canonical ..
  | watchdogStep2 c => exact execWatchdogStep2_canonical ..
  | watchdogStep3 c => exact execWatchdogStep3_canonical ..
  | retirementAck job => exact execRetirementAck_canonical ..
  | quantumBoundary charges => exact execQuantumBoundary_canonical ..
  | freezeTick => exact execFreezeTick_canonical ..
  | freezeImageComplete => exact execFreezeImageComplete_canonical ..
  | resumeTick => exact execResumeTick_canonical ..
  | launchPacket q => exact execLaunchPacket_canonical ..
  | launchNoopPacket q => exact execLaunchNoopPacket_canonical ..
  | coreGrant l => exact execCoreGrant_canonical ..
  | launchStarttick l => exact execLaunchStarttick_canonical ..
  | gangAcceptance module l => exact execGangAcceptance_canonical ..
  | gangDeadline l => exact execGangDeadline_canonical ..
  | gangWithdrawal l => exact execGangWithdrawal_canonical ..
  | launchCompletion l => exact execLaunchCompletion_canonical ..
  | controlNop => exact execControlNop_canonical ..
  | jobnew => exact execJobnew_canonical ..
  | regq => exact execRegq_canonical ..
  | unregq => exact execUnregq_canonical ..
  | kill => exact execKill_canonical ..
  | pubreg => exact execPubreg_canonical ..
  | freeze => exact execFreeze_canonical ..
  | resume => exact execResume_canonical ..
  | ctlqBlockedTimeout => exact execCtlqBlockedTimeout_canonical ..
  | modnumWrite value => exact execModnumWrite_canonical ..
  | feataccWrite k value => exact execFeataccWrite_canonical ..
  | ctlqWrite value => exact execCtlqWrite_canonical ..
  | errWrite value => exact execErrWrite_canonical ..
  | hostRead off len => exact execHostRead_canonical ..
  | hostWrite off data => exact execHostWrite_canonical ..
  | hostAtomicop op size off operand compare => exact execHostAtomicop_canonical ..
  | hostConfigRequest port => exact execHostConfigRequest_canonical ..
  | flitIdle port f => exact receiveFlit_canonical canonical_refl
  | flitRequest port f => exact receiveFlit_canonical canonical_refl
  | flitResponse port f => exact receiveFlit_canonical canonical_refl
  | flitTime port f => exact receiveFlit_canonical observeTick_canonical
  | flitLaunchControl port f => exact receiveFlit_canonical canonical_refl
  | timeFlitTimer => exact execTimeFlitTimer_canonical ..
  | linkReplayLimit port => exact execLinkReplayLimit_canonical ..
  | linkAckTimeout port => exact execLinkAckTimeout_canonical ..
  | standbyPowerOn => exact execStandbyPowerOn_canonical ..
  | moduleReset => exact execModuleReset_canonical ..
  | firmwareBootTimeout => exact execFirmwareBootTimeout_canonical ..
  | powerGoodLoss stage => exact execPowerGoodLoss_canonical ..
  | sensorSample r => exact execSensorSample_canonical ..
  | setPowerCap watts => exact execSetPowerCap_canonical ..
  | pldmFirmwareUpdate image signed => exact execPldmFirmwareUpdate_canonical ..
  | spdmRequest index => exact execSpdmRequest_canonical ..
  | unassignedEncoding w => exact outCanonical_next ((setCtx_canonical ..).trans (raise_canonical ..))
  | softError t => exact execSoftError_canonical ..
  | pageMappingSupplied va => exact execPageMappingSupplied_canonical ..
  | hostCompletion c refused => exact execHostCompletion_canonical ..
  | hostPortLinkChange port up => exact execHostPortLinkChange_canonical ..
  | perstChange port asserted => exact execPerstChange_canonical ..
  | podLinkRetrain port => exact execPodLinkRetrain_canonical ..
  | standbyPowerLoss => exact execStandbyPowerLoss_canonical ..
  | _ => cases hlen

/-- An encoded instruction; a CCANCEL stops a job, which may have written. -/
theorem encoded_canonical {i : Instr} (hlen : 0 < i.len) (s : State) : OutCanonical s (exec i s) := by
  by_cases hc : ∃ gs, i = .ccancel gs
  · obtain ⟨gs, rfl⟩ := hc
    exact execCcancel_canonical gs s
  · exact outCanonical_of_outView fun hs => exec_view descSafe_canonical hlen (fun gs _ _ hi => (hc ⟨gs, hi⟩).elim)
      (fun _ => ⟨tagSafe_canonical, .inr allStores_canonical⟩) (storeSafe_canonical _) hs

theorem exec_canonical (i : Instr) (s : State) : OutCanonical s (exec i s) := by
  rcases Nat.eq_zero_or_pos i.len with hlen | hlen
  · exact event_canonical hlen s
  · exact encoded_canonical hlen s

/-! ### Fetching and issuing (R24, R81) -/

theorem cacheAt_canonical (s : State) (a : Nat) : KeepsCanonical s (cacheAt s a) := by
  unfold cacheAt
  split
  · exact canonical_of_view rfl
  · exact canonical_refl s

theorem fetchGate_canonical {k : State → Out} (hk : ∀ t, OutCanonical t (k t)) (l : List Nat) (s : State) :
    OutCanonical s (fetchGate l s k) := by
  induction l generalizing s with
  | nil => exact hk s
  | cons b l ih =>
    refine outCanonical_of_outView fun hs => pairGateIf_view hs fun t ht _ => ?_
    intro u hu
    exact (((canonical_of_view ht).trans (cacheAt_canonical t b)).trans ((ih _).next u hu)).inv hs

theorem withInsn_canonical (s : State) (w : Nat) : KeepsCanonical s (withInsn s w) := setCtx_canonical ..

theorem fault_canonical (s : State) (f : Flt) : OutCanonical s (fault s f) := outCanonical_next (raise_canonical ..)

theorem issueWith_canonical {run : Instr → State → Out} (hrun : ∀ i s, OutCanonical s (run i s)) (s : State) :
    OutCanonical s (issueWith run s) := by
  unfold issueWith
  dsimp only
  split
  next f _ => exact .after ((withInsn_canonical ..).trans (tickChoice_canonical _)) (fault_canonical _ f)
  next bs _ =>
    refine fetchGate_canonical (fun t => .after (withInsn_canonical t (leNat bs)) ?_) _ s
    split
    · exact fault_canonical ..
    · split
      · exact hrun ..
      · exact hrun ..

theorem passOn_canonical {s : State} {o : Out} (h : OutCanonical s o) : OutCanonical s (passOn o) := by
  unfold passOn
  split
  next t =>
    refine outCanonical_next ((h.next t rfl).trans ?_)
    unfold passedOn
    refine canonical_ite (canonical_refl t) ?_
    split
    · exact setCore_canonical ..
    · exact canonical_refl t
  · exact ⟨fun _ hu => by cases hu⟩
  · exact outCanonical_refused ..

theorem turnTo_canonical (s : State) (c : Fin 8) : KeepsCanonical s (turnTo s c) := setCtxsCore_canonical ..

theorem issue_canonical (s : State) (c : Fin 8) : OutCanonical s (issue s c) :=
  passOn_canonical (.after (turnTo_canonical s c) (issueWith_canonical exec_canonical _))

theorem issueOrIdle_canonical (s : State) (stall : Bool) : OutCanonical s (issueOrIdle s stall) := by
  unfold issueOrIdle
  split
  · exact issue_canonical ..
  · exact outCanonical_next (observeTick_canonical s)

/-! ### Silent steps (R14, R22, R82, R211, R212, R345) -/

theorem cacheBlock_canonical (s : State) : KeepsCanonical s (cacheBlock s) := (tickChoice_canonical s).trans (cacheAt_canonical ..)

theorem dropBlock_canonical (s : State) : KeepsCanonical s (dropBlock s) := by
  unfold dropBlock
  split
  · exact (tickChoice_canonical s).trans (canonical_of_view rfl)
  · exact tickChoice_canonical s

theorem oldestSeen_canonical (s : State) : KeepsCanonical s (oldestSeen s) := by
  unfold oldestSeen
  dsimp only
  split
  · exact tickChoice_canonical s
  · exact (tickChoice_canonical s).trans (setVis_canonical ..)

theorem acknowledged_canonical (s : State) : KeepsCanonical s (acknowledged s) :=
  (tickChoice_canonical s).trans (canonical_of_view rfl)

theorem queueBeside_canonical (s : State) : KeepsCanonical s (queueBeside s) := (tickChoice_canonical s).trans (setClu_canonical ..)

theorem peerWithdraws_canonical (s : State) : KeepsCanonical s (peerWithdraws s) :=
  canonical_ite ((tickChoice_canonical s).trans (setCore_canonical ..)) (tickChoice_canonical s)

theorem silentSteps_canonical {f : State → State} (hf : f ∈ silentSteps) (s : State) : KeepsCanonical s (f s) := by
  simp only [silentSteps, List.mem_cons, List.not_mem_nil, or_false] at hf
  rcases hf with rfl | rfl | rfl | rfl | rfl | rfl | rfl | rfl | rfl | rfl | rfl
  · exact cacheBlock_canonical s
  · exact dropBlock_canonical s
  · exact jobProgress_canonical s
  · exact jobPerforms_canonical s
  · exact oldestSeen_canonical s
  · exact acknowledged_canonical s
  · exact queueBeside_canonical s
  · exact peerWithdraws_canonical s
  · exact peerSeals_canonical s
  · exact replayFlits_canonical s
  · exact sendMessage_canonical s

/-! ### One step (R4, R93, R350) -/

theorem setInputs_canonical (s : State) (l : List (Option Instr)) : KeepsCanonical s { s with inputs := l } := canonical_of_view rfl

theorem given_canonical (i : Instr) (s : State) (l : List (Option Instr)) : OutCanonical s (exec i { s with inputs := l }) :=
  .after (setInputs_canonical s l) (exec_canonical i _)

theorem choose_canonical (s : State) : OutCanonical s (choose s) := by
  unfold choose
  dsimp only
  split
  · exact .after (tickChoice_canonical s) (exec_canonical _ _)
  next f _ hf => exact outCanonical_next ((tickChoice_canonical s).trans (silentSteps_canonical (List.mem_of_getElem? hf) _))
  · exact .after (tickChoice_canonical s) (issueOrIdle_canonical ..)

theorem boundary_canonical (s : State) : OutCanonical s (boundary s) := by
  unfold boundary
  split
  · exact given_canonical ..
  · exact .after (setInputs_canonical ..) (issueOrIdle_canonical ..)
  · exact choose_canonical s

theorem unpowered_canonical (s : State) : OutCanonical s (unpowered s) := by
  unfold unpowered
  split
  · split
    case h_10 => exact outCanonical_refused ..
    all_goals exact given_canonical ..
  · exact ⟨fun _ hu => by cases hu⟩

/-- Settles O6: whatever a step is, an event, a form that issues, a silent step or the passing of time, it writes memory through the
operations that keep its canonical form. -/
theorem stepKeepsMemoryCanonical : Obligations.StepKeepsMemoryCanonical := by
  unfold Obligations.StepKeepsMemoryCanonical
  intro s t hs ht
  have hstep : OutCanonical s (stepOnce s) := by
    unfold stepOnce
    exact outCanonical_ite (unpowered_canonical s)
      (outCanonical_ite (passOn_canonical (issueWith_canonical exec_canonical s)) (boundary_canonical s))
  exact (hstep.next t ht).inv hs

end Sys2Proof.Proofs
end
